-- ==== Sys2Proof/Word.lean ====
section
/-! DEFINITION. The word types of the machine, bit slices, little-endian bytes, and sparse banks: lists of (key, value)
pairs in one canonical form, keys strictly rising and no entry equal to what an unlisted key reads as (R1, R68). -/

namespace Sys2Proof

/-- A 64-bit scalar, system register or instruction word (R65, R101). -/
abbrev Word := BitVec 64

/-- A byte of memory (R1). -/
abbrev Byte := BitVec 8

/-- A 1 KiB vector register (R12, R162): byte b lies at bits [8b+7:8b]. -/
abbrev VReg := BitVec 8192

/-- An accumulator tile of 32 rows by 128 FP32 columns (R219): element (r, c) lies at bits [32(128r+c)+31 : ...]. -/
abbrev Tile := BitVec 131072

/-- A mask register, one bit for each 32-bit lane (R71). -/
abbrev Mask := BitVec 256

/-- The slice [hi:lo] of a word as a natural number (R1, both ends included). -/
def slice {w : Nat} (x : BitVec w) (hi lo : Nat) : Nat := (x.toNat >>> lo) % 2 ^ (hi + 1 - lo)

/-- The slice [hi:lo] of a natural number read as bits. -/
def nslice (x hi lo : Nat) : Nat := (x >>> lo) % 2 ^ (hi + 1 - lo)

/-- Bit i as a Bool. -/
def bit {w : Nat} (x : BitVec w) (i : Nat) : Bool := x.toNat.testBit i

/-- The unsigned value v read as a two's-complement number of w bits. -/
def signedOf (w v : Nat) : Int := if v % 2 ^ w < 2 ^ (w - 1) then (v % 2 ^ w : Nat) else ((v % 2 ^ w : Nat) : Int) - (2 ^ w : Nat)

/-- An integer taken modulo 2^w (R48). -/
def wrapNat (w : Nat) (i : Int) : Nat := (i % ((2 ^ w : Nat) : Int)).toNat

/-- n little-endian bytes of a natural number, lowest first (R1). -/
def toBytes : Nat → Nat → List Byte
  | 0, _ => []
  | n + 1, x => BitVec.ofNat 8 x :: toBytes n (x / 256)

/-- The number that little-endian bytes hold (R1). -/
def ofBytes : List Byte → Nat
  | [] => 0
  | b :: bs => b.toNat + 256 * ofBytes bs

/-- Element k of a packed value of w-bit elements. -/
def elemOf (w : Nat) (x : Nat) (k : Nat) : Nat := (x >>> (w * k)) % 2 ^ w

/-- Packs w-bit elements, element 0 lowest. -/
def packElems (w : Nat) : List Nat → Nat
  | [] => 0
  | x :: xs => x % 2 ^ w + (packElems w xs) <<< w

/-- ceil(a / b) for b > 0 (R7). -/
def ceilDiv (a b : Nat) : Nat := (a + b - 1) / b

/-- A sparse bank: what software sees as numbered storage of which only the entries that differ from the default are listed. -/
abbrev Bank (α : Type) := List (Nat × α)

namespace Bank

/-- Reads key k; an unlisted key reads as d. -/
def get {α : Type} (d : α) : Bank α → Nat → α
  | [], _ => d
  | (k, v) :: r, n => if k = n then v else get d r n

/-- Removes every entry of key n. -/
def erase {α : Type} : Bank α → Nat → Bank α
  | [], _ => []
  | (k, v) :: r, n => if k = n then erase r n else (k, v) :: erase r n

/-- Writes v at key n, keeping the canonical form: writing the default removes the entry. What is read back is v whatever the
list held. -/
def set {α : Type} [DecidableEq α] (d : α) : Bank α → Nat → α → Bank α
  | [], n, v => if v = d then [] else [(n, v)]
  | (k, w) :: r, n, v =>
    if k < n then (k, w) :: set d r n v
    else if v = d then erase ((k, w) :: r) n
    else (n, v) :: erase ((k, w) :: r) n

/-- Every key of the bank is above n, rising strictly, and no entry holds the default. -/
def above {α : Type} [DecidableEq α] (d : α) (n : Nat) : Bank α → Bool
  | [] => true
  | (k, v) :: r => decide (n < k) && decide (v ≠ d) && above d k r

/-- The canonical form. -/
def wf {α : Type} [DecidableEq α] (d : α) : Bank α → Bool
  | [] => true
  | (k, v) :: r => decide (v ≠ d) && above d k r

/-- Reads a run of n entries from key a. -/
def getRun {α : Type} (d : α) (b : Bank α) (a : Nat) : Nat → List α
  | 0 => []
  | n + 1 => get d b a :: getRun d b (a + 1) n

/-- Writes a run of entries from key a. -/
def setRun {α : Type} [DecidableEq α] (d : α) : Bank α → Nat → List α → Bank α
  | b, _, [] => b
  | b, a, v :: vs => setRun d (set d b a v) (a + 1) vs

end Bank

end Sys2Proof
end

