-- ==== Sys2Proof/Config.lean ====
section
/-! DEFINITION. What an implementation fixes and the free values: opaque constants that no proof can evaluate. Each is
applied to the counter State.free, which every step advances, and to what tells two choices of one step apart. -/

namespace Sys2Proof.Config

/-- A free choice of the device between two named outcomes (R4, R83, R138): of the step with this count, for the choice
numbered by the second argument. -/
opaque choose : Nat → Nat → Bool

/-- A free choice for each 32-bit lane or element of one register read or write (R83, R85): of the step with this count, for
the register numbered by the second argument and the lane by the third. -/
opaque lane : Nat → Nat → Nat → Bool

/-- A free number: what the device picks among named outcomes that are many (R181, R242). -/
opaque pick : Nat → Nat → Nat

/-- The 4-bit unit class that a stamp gives a kind of unit (R280): 0 cores, 1 copy engines, 2 fabric engines, 3 near-memory
cores, 4 LLC slices, 5 the Berku port, 6 fabric ports. The spec gives no codes. -/
opaque unitClass : Nat → BitVec 4

/-- The node number that the control node has given another package, by its coordinates (R21). -/
opaque node : BitVec 48 → Nat

/-- The 32-bit digest of a PERM table (R354): the spec gives no function. -/
opaque permDigest : List Nat → BitVec 32

/-- The HBM stack that holds a frame, by the frame's number (R370): the spec gives no map. -/
opaque stack : Nat → Nat

/-- The vector length between half of AVL and VLMAX that a core picks for an AVL above VLMAX and below twice it (R366), by AVL and VLMAX. -/
opaque vectorLength : Nat → Nat → Nat

/-- The signature that the device identity key makes over the rest of an attestation report, as a number (R377): the spec gives no key. -/
opaque signature : List (BitVec 8) → Nat

/-- Numbers that a package carries and the spec does not give (R28, R343, R377): 0 its serial, 1 the public identity key, 2 + p the
peer of fabric port p, its coordinates in [47:0] and, modulo 48, its port from bit 48 up. -/
opaque identity : Nat → Nat

end Sys2Proof.Config
end

