-- ==== Sys2Proof/Syntax.lean ====
section
/-! DEFINITION. The syntax of the machine: operand kinds, the data that events carry, and the one inductive of
instructions and events, one constructor for each row of the opcode table. -/

namespace Sys2Proof

/-- The six engines of a core, in tag order (R15). -/
inductive Eng where
  | sq | ld | xp | mx | ve | st
  deriving DecidableEq, Repr

/-- The tag of an engine (R15). -/
def Eng.tag : Eng → Nat
  | .sq => 0 | .ld => 1 | .xp => 2 | .mx => 3 | .ve => 4 | .st => 5

/-- The engine of a tag below 6 (R15). -/
def Eng.ofTag : Nat → Eng
  | 0 => .sq | 1 => .ld | 2 => .xp | 3 => .mx | 4 => .ve | _ => .st

/-- All six engines in ascending tag order. -/
def Eng.all : List Eng := [.sq, .ld, .xp, .mx, .ve, .st]

/-- Format codes (R37). -/
inductive Fmt where
  | f32 | bf16 | e4m3 | e5m2 | e2m1 | mxi8 | mxi6 | mxi4 | mxf8 | mxf4
  | i8 | i16 | i32 | i64 | n8 | n16 | n32 | n64
  deriving DecidableEq, Repr

/-- The 5-bit code of a format (R37). -/
def Fmt.code : Fmt → Nat
  | .f32 => 0 | .bf16 => 1 | .e4m3 => 2 | .e5m2 => 3 | .e2m1 => 4 | .mxi8 => 5 | .mxi6 => 6 | .mxi4 => 7 | .mxf8 => 8
  | .mxf4 => 9 | .i8 => 10 | .i16 => 11 | .i32 => 12 | .i64 => 13 | .n8 => 14 | .n16 => 15 | .n32 => 16 | .n64 => 17

/-- The format of a code; 0x12 to 0x1F are reserved (R37). -/
def Fmt.ofCode : Nat → Option Fmt
  | 0 => some .f32 | 1 => some .bf16 | 2 => some .e4m3 | 3 => some .e5m2 | 4 => some .e2m1 | 5 => some .mxi8
  | 6 => some .mxi6 | 7 => some .mxi4 | 8 => some .mxf8 | 9 => some .mxf4 | 10 => some .i8 | 11 => some .i16
  | 12 => some .i32 | 13 => some .i64 | 14 => some .n8 | 15 => some .n16 | 16 => some .n32 | 17 => some .n64
  | _ => none

/-- Rounding modes (R49). -/
inductive RMode where
  | rne | rtz | rup | rdn | sr
  deriving DecidableEq, Repr

/-- The code of a rounding mode (R49). -/
def RMode.code : RMode → Nat
  | .rne => 0 | .rtz => 1 | .rup => 2 | .rdn => 3 | .sr => 4

/-- The rounding mode of a code; 5 to 7 are reserved (R49). -/
def RMode.ofCode : Nat → Option RMode
  | 0 => some .rne | 1 => some .rtz | 2 => some .rup | 3 => some .rdn | 4 => some .sr | _ => none

/-- Condition codes of the sequencer (R102). -/
inductive Cond where
  | eq | ne | lti | gei | ltn | gen | gti | lei | gtn | len
  deriving DecidableEq, Repr

/-- The code of a condition (R102). -/
def Cond.code : Cond → Nat
  | .eq => 0 | .ne => 1 | .lti => 2 | .gei => 3 | .ltn => 4 | .gen => 5 | .gti => 6 | .lei => 7 | .gtn => 8 | .len => 9

/-- The condition of a code; 10 to 15 are reserved (R102). -/
def Cond.ofCode : Nat → Option Cond
  | 0 => some .eq | 1 => some .ne | 2 => some .lti | 3 => some .gei | 4 => some .ltn | 5 => some .gen | 6 => some .gti
  | 7 => some .lei | 8 => some .gtn | 9 => some .len | _ => none

/-- Vector compare conditions (R201). -/
inductive VCond where
  | eq | ne | lt | le | gt | ge | uno | ord
  deriving DecidableEq, Repr

/-- The code of a vector compare condition (R201). -/
def VCond.code : VCond → Nat
  | .eq => 0 | .ne => 1 | .lt => 2 | .le => 3 | .gt => 4 | .ge => 5 | .uno => 6 | .ord => 7

/-- The vector compare condition of a code; 8 to 15 are reserved (R201). -/
def VCond.ofCode : Nat → Option VCond
  | 0 => some .eq | 1 => some .ne | 2 => some .lt | 3 => some .le | 4 => some .gt | 5 => some .ge | 6 => some .uno
  | 7 => some .ord | _ => none

/-- Scopes (R140). -/
inductive Scope where
  | core | clus | die | pkg | mesh | sys
  deriving DecidableEq, Repr

/-- The code of a scope (R140). -/
def Scope.code : Scope → Nat
  | .core => 0 | .clus => 1 | .die => 2 | .pkg => 3 | .mesh => 4 | .sys => 5

/-- The scope of a code; 6 and 7 are reserved (R140). -/
def Scope.ofCode : Nat → Option Scope
  | 0 => some .core | 1 => some .clus | 2 => some .die | 3 => some .pkg | 4 => some .mesh | 5 => some .sys | _ => none

/-- Atomic operations (R152). -/
inductive AmoOp where
  | add | and | or | xor | min | max | swap | fadd
  deriving DecidableEq, Repr

/-- The code of an atomic operation (R152). -/
def AmoOp.code : AmoOp → Nat
  | .add => 0 | .and => 1 | .or => 2 | .xor => 3 | .min => 4 | .max => 5 | .swap => 6 | .fadd => 7

/-- The atomic operation of a code; 8 to 15 are reserved (R152). -/
def AmoOp.ofCode : Nat → Option AmoOp
  | 0 => some .add | 1 => some .and | 2 => some .or | 3 => some .xor | 4 => some .min | 5 => some .max | 6 => some .swap
  | 7 => some .fadd | _ => none

/-- Fence kinds (R155). -/
inductive FenceKind where
  | acq | rel | ar
  deriving DecidableEq, Repr

/-- The code of a fence kind (R155). -/
def FenceKind.code : FenceKind → Nat
  | .acq => 0 | .rel => 1 | .ar => 2

/-- The fence kind of a code; 3 is reserved (R155). -/
def FenceKind.ofCode : Nat → Option FenceKind
  | 0 => some .acq | 1 => some .rel | 2 => some .ar | _ => none

/-- A scalar register field (R68). -/
abbrev SReg := BitVec 6
/-- A vector register field; 384 to 511 are reserved (R68). -/
abbrev VNo := BitVec 9
/-- An accumulator field (R68). -/
abbrev AccNo := BitVec 4
/-- A mask register field (R68). -/
abbrev MaskNo := BitVec 4
/-- A generator register field (R68). -/
abbrev GenNo := BitVec 3
/-- A sharding-map register field (R68). -/
abbrev MapNo := BitVec 4

/-- The operands of form VV when the word rounds or computes elementwise (R73, R74): g is AUX[2:0], used with RM = 4. -/
structure VV where
  vd : VNo
  va : VNo
  vb : VNo
  pm : MaskNo
  ty : Fmt
  rm : RMode
  g : GenNo
  deriving DecidableEq, Repr

/-- The operands of form VI (R73). -/
structure VI where
  vd : VNo
  va : VNo
  pm : MaskNo
  ty : Fmt
  imm : BitVec 17
  deriving DecidableEq, Repr

/-- Strided vector accesses: vld, vldt, vldb, vlpf, vst (R164, R167). -/
structure Strided where
  vd : VNo
  sa : SReg
  sb : SReg
  pm : MaskNo
  ty : Fmt
  nt : Bool
  off : BitVec 13
  deriving DecidableEq, Repr

/-- Gather and scatter: vldg, vsc (R165). -/
structure Indexed where
  vd : VNo
  va : VNo
  sa : SReg
  pm : MaskNo
  ty : Fmt
  nt : Bool
  deriving DecidableEq, Repr

/-- Tensor-index accesses: vldx, vsx (R166). -/
structure TensorIx where
  vd : VNo
  sa : SReg
  sb : SReg
  pm : MaskNo
  ty : Fmt
  nt : Bool
  deriving DecidableEq, Repr

/-- Reductions: vredsum, vredmax, vredmin, vdot (R207). -/
structure Reduce where
  vd : VNo
  va : VNo
  vb : VNo
  pm : MaskNo
  ty : Fmt
  prof : BitVec 4
  row : Bool
  deriving DecidableEq, Repr

/-- Atomics: amo, red (R152, R154). -/
structure Atomic where
  sd : SReg
  sa : SReg
  sb : SReg
  op : AmoOp
  ty : Fmt
  scope : Scope
  ord : BitVec 2
  deriving DecidableEq, Repr

/-- The seven kinds of Moraine command (R319). -/
inductive MKind where
  | dep | rd | take | tryDep | tryRd | tryTake | withdraw
  deriving DecidableEq, Repr

/-- A Moraine command travelling to its home slice (R313 to R316). -/
structure MoraineMsg where
  kind : MKind
  /-- Coordinates of the requesting package, as SYS.COORD[47:0]. -/
  pkg : BitVec 48
  core : Nat
  task : BitVec 32
  seq : BitVec 32
  rid : Nat
  /-- Coordinates of the home package and the home slice (R313). -/
  home : BitVec 48
  slice : Nat
  /-- The eight words of the tuple or pattern (R310). -/
  words : List Word
  deriving DecidableEq, Repr

/-- What a home slice answers (R315, R316, R318, R320, R321, R324): accepted is the reply to a try-deposit that the slice took in,
acked the acknowledgement of any deposit, and parked says that a request of another package waits in the table (R264). -/
inductive MoraineAnswer where
  | tuple (stamp : Nat) (words : List Word)
  | noMatch | full | accepted | acked | count (n : Nat) | undeclared | returned | withdrawn | parked
  deriving DecidableEq, Repr

/-- A reply of a home slice to a requester. -/
structure MoraineRep where
  pkg : BitVec 48
  core : Nat
  task : BitVec 32
  seq : BitVec 32
  answer : MoraineAnswer
  deriving DecidableEq, Repr

/-- Where an arriving Moraine message comes from: the n-th message in flight inside this package, or another package. -/
inductive Arrival (α : Type) where
  | own (n : Nat)
  | remote (m : α)
  deriving DecidableEq, Repr

/-- A remote completion signal (R184, R305): a subtraction from a barrier or the write of a value. -/
structure Signal where
  core : Nat
  task : BitVec 32
  addr : Word
  write : Bool
  value : Word
  deriving DecidableEq, Repr

/-- A remote line request (R345): one aligned 128-byte line of this package, written where the mask has a 1. -/
structure LineReq where
  pkg : BitVec 48
  core : Nat
  asid : BitVec 12
  va : Word
  write : Bool
  mask : BitVec 128
  data : List Byte
  gen : Option (BitVec 32)
  recAddr : Word
  tag : Nat
  deriving DecidableEq, Repr

/-- A renq of another package on its way to its target core (R129): the issuing core with its partition and the request's tag, and the
block. -/
structure RenqReq where
  pkg : BitVec 48
  core : Nat
  tag : Nat
  part : BitVec 16
  target : Nat
  block : List Byte
  deriving DecidableEq, Repr

/-- What the boot ROM finds of the firmware or of the configuration image: whether its signature holds, and its SHA-256 hash (R376). -/
structure BootCheck where
  ok : Bool
  hash : BitVec 256
  deriving DecidableEq, Repr

/-- The core map of a configuration image, 160 sites and then the spares, and the cores that fail their self-check (R376, R379). -/
structure SiteMap where
  map : List Nat
  failed : List Nat
  deriving DecidableEq, Repr

/-- What a hub takes in from another package: a line request (R345), a renq (R129, R382), the notice that a command has retired
which a block placed here by renq names as its predecessor, or that a command of a task that has gone to another package has
retired there (R265); that a member has ended its part of a call or a reshard by a fault, and that a call is lost (R334, R364, R365);
and the next hop's answer to the sum that the adder of a port sent it (R359). -/
inductive HubReq where
  | line (r : LineReq)
  | renq (r : RenqReq)
  | retired (pkg : BitVec 48) (tag : Nat) (p : BitVec 32)
  | moved (task : BitVec 32) (p : BitVec 32)
  | ended (pkg : BitVec 48) (gtag call : BitVec 32)
  | lost (gtag call : BitVec 32)
  | hopAnswer (port : Nat) (ok : Bool)
  deriving DecidableEq, Repr

/-- A wire block of a floating reduction (R358). -/
structure WireBlock where
  s : List Int
  e : Int
  nan : BitVec 32
  pinf : BitVec 32
  ninf : BitVec 32
  negz : BitVec 32
  /-- RES (R359). -/
  res : Nat
  deriving DecidableEq, Repr

/-- A block or the bytes that a packet carries (R347, R348); an MX block has its residue too (R359). -/
inductive Payload where
  | none
  | block (b : WireBlock)
  | mx (scale : Nat) (codes : List Nat) (res : Nat)
  | ints (xs : List (BitVec 32))
  | bytes (bs : List Byte)
  deriving DecidableEq, Repr

/-- A packet with its one-flit header (R347). -/
structure Packet where
  type : BitVec 8
  /-- CH: the virtual channel in [1:0]. -/
  ch : BitVec 8
  len : BitVec 16
  sseq : BitVec 32
  sid : BitVec 64
  nhop : BitVec 8
  /-- Bytes 17 to 19. -/
  rsv : BitVec 24
  call : BitVec 32
  gtag : BitVec 32
  chunk : BitVec 32
  route : List (BitVec 16)
  addr : Word
  aux : Word
  /-- The blocks that follow the header, in the order of their numbers. -/
  payload : List Payload
  deriving DecidableEq, Repr

/-- The values that a member's first packet of a call carries (R354). -/
structure CallHello where
  member : Nat
  gtag : BitVec 32
  call : BitVec 32
  op : BitVec 3
  fmt : BitVec 5
  prof : BitVec 4
  count : Word
  chunke : BitVec 32
  root : BitVec 16
  permDigest : BitVec 32
  deriving DecidableEq, Repr

/-- What another package's issue of a reshard shows (R334). -/
structure ReshardHello where
  pkg : BitVec 48
  task : BitVec 32
  tensor : BitVec 16
  ordinal : Nat
  extents : List Nat
  fmt : BitVec 5
  mapS : BitVec 256
  mapD : BitVec 256
  deriving DecidableEq, Repr

/-- What an ACCESS_PERFORMED event completes (R133, R134, R139, R141, R145, R149). -/
inductive Access where
  /-- Entry n of a die's write buffer reaches its home slice. -/
  | drain (die n : Nat)
  /-- A die cache loses a line for a reason of its own. -/
  | evict (die : Nat) (asid : BitVec 12) (line : Nat)
  /-- A write-combining buffer of a core drains. -/
  | combine (core : Nat) (n : Nat)
  /-- A remap filter loses an entry. -/
  | unmap (die : Nat) (asid : BitVec 12) (page : Nat)
  /-- A translation cache loses an entry. -/
  | forget (asid : BitVec 12) (page : Nat)
  /-- An LLC slice loses a line. -/
  | slice (asid : BitVec 12) (line : Nat)
  /-- A non-temporal store reaches HBM behind its home slice. -/
  | hbm (core : Nat)
  /-- Entry n of what the queues of a core's sequencer hold is performed, after what it comes after (R141, R142). -/
  | queue (core n : Nat)
  /-- What an engine has still to read or write of its access is performed (R145). -/
  | rest (core : Nat) (e : Eng)
  deriving DecidableEq, Repr

/-- How a near-memory kernel ends on one core, or how it stops (R371). -/
inductive KernelEnd where
  | ecall | fault (code : BitVec 8) (addr : Word)
  deriving DecidableEq, Repr

/-- The instructions of the opcode table: first the words of the text, in the table's order, then the events, each with its
inputs. Where an event names a core, a die or another unit, the number is the package-wide one of R14. -/
inductive Instr where
  -- sequencer arithmetic (R103 to R109)
  | add (sd sa sb : SReg) | sub (sd sa sb : SReg) | mul (sd sa sb : SReg)
  | mulh (uns : Bool) (sd sa sb : SReg) | div (uns : Bool) (sd sa sb : SReg) | rem (uns : Bool) (sd sa sb : SReg)
  | and (sd sa sb : SReg) | or (sd sa sb : SReg) | xor (sd sa sb : SReg)
  | shl (sd sa sb : SReg) | shr (sd sa sb : SReg) | sra (sd sa sb : SReg)
  | min (uns : Bool) (sd sa sb : SReg) | max (uns : Bool) (sd sa sb : SReg)
  | cmp (c : Cond) (sd sa sb : SReg) | sel (sd sa sb sc : SReg)
  | addi (sd sa : SReg) (imm : BitVec 32) | muli (sd sa : SReg) (imm : BitVec 32)
  | andi (sd sa : SReg) (imm : BitVec 32) | ori (sd sa : SReg) (imm : BitVec 32) | xori (sd sa : SReg) (imm : BitVec 32)
  | shli (sd sa : SReg) (n : BitVec 6) | shri (sd sa : SReg) (n : BitVec 6) | srai (sd sa : SReg) (n : BitVec 6)
  | cmpi (c : Cond) (sd sa : SReg) (imm : BitVec 28)
  | li (sd : SReg) (imm : BitVec 38) | lui (sd : SReg) (imm : BitVec 38)
  | clz (sd sa : SReg) | popc (sd sa : SReg)
  | lea (sd sa sb : SReg) (sh : BitVec 3) (imm : BitVec 23)
  | ext (signed : Bool) (sd sa : SReg) (pos : BitVec 6) (lenm1 : BitVec 6)
  -- sequencer memory (R110 to R112, R151 to R156)
  | ld (ty : Fmt) (sd sa : SReg) (imm : BitVec 27) | st (ty : Fmt) (sc sa : SReg) (imm : BitVec 27)
  | pf (llc : Bool) (sa : SReg) (imm : BitVec 27)
  | ldacq (ty : Fmt) (scope : Scope) (sd sa : SReg) (imm : BitVec 24)
  | strel (ty : Fmt) (scope : Scope) (sc sa : SReg) (imm : BitVec 24)
  | amo (a : Atomic) | amocas (sd sa sb sc : SReg) (ty : Fmt) (scope : Scope) (ord : BitVec 2) | red (a : Atomic)
  | fence (k : FenceKind) (scope : Scope)
  -- system registers (R124 to R126) and the writes inside them
  | rsys (sd : SReg) (n : BitVec 12) | wsys (n : BitVec 12) (sa : SReg) | xsys (sd : SReg) (n : BitVec 12) (sa : SReg)
  | writeSysMode (v : Word) | writeSysSlip (v : Word) | writeSysWdog (v : Word) | writeSysTrapcause (v : Word)
  | writeSysRegister (n : BitVec 12) (v : Word)
  -- yield, task end, remote enqueue, scheduling (R127 to R129, R269, R270, R274, R278)
  | yield (n : BitVec 8)
  | renq (sd sa sb : SReg)
  | seqw (sa sb : SReg) | seqget (scope : Scope) (sd sa : SReg) | prio (sd sa : SReg) | appt (sd sa sb sc : SReg)
  -- traps (R289 to R294)
  | trap (imm : BitVec 16) | tack (sd : SReg) | tmask (sd sa : SReg) | tsave (sa : SReg)
  -- copies, barriers, completion words, rings (R178 to R191)
  | cpld (sd sa : SReg) | cpst (sd sa : SReg) | cpg (sd sa : SReg) | cpsc (sd sa : SReg) | cpmem (sd sa : SReg)
  | cpcancel (sd : SReg)
  | barinit (sa sb sc : SReg) | barexp (sa sb : SReg) | barar (sd sa sb : SReg) | bartry (sd sa sb : SReg)
  | barwait (sa sb : SReg)
  | waita (sa sb : SReg)
  | rgclaim (sd sa : SReg) | rgfill (sa sb : SReg)
  | rgwaitf (sa sb : SReg) | rgrel (sa sb : SReg) | rgtry (sd sa : SReg)
  -- matrix control and generators on the sequencer (R231, R232, R241, R251)
  | mxfmt (sa sb sc : SReg) | mxcfg (n : BitVec 5) (sa : SReg) | mxcfgl (sa : SReg)
  | mxcancel (sd : SReg) | mxcancelAll (sd : SReg) | mxprog (sd : SReg) | mxprogQ (sd : SReg)
  | gset (g : GenNo) (w : BitVec 3) (sa : SReg) | gget (sd : SReg) (g : GenNo) (w : BitVec 3)
  | gskip (g : GenNo) (sa sb : SReg) | gsave (g : GenNo) (sa : SReg) | gload (g : GenNo) (sa : SReg)
  | gdraw (sd : SReg) (g : GenNo) | gkey (g : GenNo) (sa sb : SReg)
  -- Moraine (R319)
  | mdep (sd sa sb : SReg) | mrd (sd sa sb : SReg) | mtake (sd sa sb : SReg)
  | mtrydep (sd sa sb : SReg) | mtryrd (sd sa sb : SReg) | mtrytk (sd sa sb : SReg) | mwithdraw (sd sa sb : SReg)
  -- maps and reshards (R332, R333, R340)
  | mapld (m : MapNo) (sa : SReg) | mapst (m : MapNo) (sa : SReg) | mapset (m : MapNo) (d : BitVec 3) (sa : SReg)
  | mapbind (sa : SReg) (m : MapNo) | mapbindU (sa : SReg)
  | rshd (sd sa sb sc : SReg) (ms md : MapNo) (prof : BitVec 4) | rshdq (sd sa sb : SReg) (ms md : MapNo)
  -- collectives and near-memory launches (R350, R353, R356, R367)
  | clgrp (sd sa sb : SReg) | clrun (sd sa : SReg) | clchunk (sa sb : SReg) | clstatCc (sd sb : SReg) | clstatGrp (sd sb : SReg)
  | nmrun (sd sa : SReg) | nmstat (sd sa : SReg) | nmstop (sd sa : SReg)
  -- load engine (R164 to R168)
  | vld (o : Strided) | vldg (o : Indexed) | vldx (o : TensorIx) | vldt (o : Strided) | vldb (o : Strided)
  | vldm (md : MaskNo) (sa : SReg) (imm : BitVec 34) | vlda (acc : AccNo) (sa sb : SReg) | vlpf (o : Strided)
  -- transpose engine (R169 to R172)
  | xtr (ty : Fmt) (vd va : VNo) | xunpk (ty : Fmt) (vd va : VNo) | xpk (ty : Fmt) (vd va : VNo)
  | xhq (ty : Fmt) (rm : RMode) (g : GenNo) (vd va : VNo) (sa sb : SReg)
  | xhdq (ty : Fmt) (rm : RMode) (g : GenNo) (vd va : VNo) (sa sb : SReg)
  | xperm (vd va : VNo) (p : BitVec 24) | xcat (vd va vb : VNo) (n : BitVec 8)
  -- matrix engine (R233, R240, R241)
  | mxzero (acc : AccNo) (nm1 : BitVec 4)
  -- vector engine (R195 to R217, R258)
  | vadd (o : VV) | vsub (o : VV) | vmul (o : VV) | vfma (o : VV) | vfms (o : VV) | vmin (o : VV) | vmax (o : VV)
  | vabs (o : VV) | vneg (o : VV) | vdiv (o : VV) | vsqrt (o : VV)
  | vand (o : VV) | vor (o : VV) | vxor (o : VV) | vnot (o : VV) | vshl (o : VV) | vshr (o : VV) | vsra (o : VV)
  | vadds (o : VV) | vsubs (o : VV)
  | vcvt (vd va : VNo) (part : BitVec 2) (src : Fmt) (mk : MaskNo) (ty : Fmt) (rm : RMode) (g : GenNo)
  | vcvtmx (o : VV) | vdqmx (o : VV)
  | vcmp (c : VCond) (h : Bool) (md : MaskNo) (va vb : VNo) (mk : MaskNo) (ty : Fmt)
  | vsel (vd va vb : VNo) (ms mk : MaskNo) (ty : Fmt) | vmov (o : VV)
  | vbcast (vd : VNo) (sa : SReg) (mk : MaskNo) (ty : Fmt) | vperm (o : VV)
  | vslide (up : Bool) (n : BitVec 8) (vd va : VNo) (mk : MaskNo) | viota (o : VI) | vaddi (o : VI) | vmuli (o : VI)
  | vandi (o : VI) | vori (o : VI) | vshli (o : VI) | vshri (o : VI)
  | vcmpi (c : VCond) (imm : BitVec 13) (md : MaskNo) (va : VNo) (mk : MaskNo) (ty : Fmt) | vli (o : VI)
  | vmand (md ma mb mk : MaskNo) | vmor (md ma mb mk : MaskNo) | vmxor (md ma mb mk : MaskNo) | vmnot (md ma mk : MaskNo)
  | vmpop (vd : VNo) (ma mk : MaskNo) | vmfirst (vd : VNo) (ma mk : MaskNo)
  | vredsum (o : Reduce) | vredmax (o : Reduce) | vredmin (o : Reduce) | vdot (o : Reduce)
  | vexp2 (o : VV) | vlog2 (o : VV) | vrcp (o : VV) | vrsqrt (o : VV) | vsinT (o : VV) | vcosT (o : VV)
  | vupd (ty : Fmt) (sa sb : SReg)
  | gfill (vd : VNo) (g : GenNo) (sa : SReg) (ty : Fmt) (mk : MaskNo) | gfillS (vd : VNo) (g : GenNo) (ty : Fmt) (mk : MaskNo)
  | vaccr (vd : VNo) (acc pair : AccNo) (mk : MaskNo) | vaccw (acc : AccNo) (vs : VNo) (pair : AccNo) (mk : MaskNo)
  -- store engine (R164 to R168, R173)
  | vst (o : Strided) | vsc (o : Indexed) | vsx (o : TensorIx)
  | vsdrain (acc : AccNo) (sa sb sc : SReg) (ty : Fmt) (rm : RMode) (g : GenNo) (k : BitVec 4) (cc nt : Bool) (ccid : BitVec 5)
  | vsm (ms : MaskNo) (sa : SReg) (imm : BitVec 34) | vsa (acc : AccNo) (sa sb : SReg) (nt : Bool)
  -- tag 6 (R113 to R123)
  | br (c : Cond) (sa sb : SReg) (off : BitVec 26) | jmp (sd : SReg) (off : BitVec 38) | jmpr (sd sa : SReg)
  | lpset (lc : BitVec 2) (fromReg : Bool) (sa : SReg) (imm : BitVec 32) | lpend (lc : BitVec 2) (off : BitVec 38)
  | idem (off : BitVec 38)
  -- traps, tasks, pre-emption (R262, R276, R287, R288, R298, R303)
  -- nests and copies (R223, R234, R236, R355, R181, R183, R184)
  | chunkCountIncrement (task : BitVec 32) (n : Nat)
  | copyStart (core : Nat) (seq : BitVec 32) (engine : Nat)
  | copyPacketLand (core : Nat) (seq : BitVec 32) (engine first count : Nat)
  | signalArrival (g : Signal)
  -- remote accesses and Moraine (R345, R346, R315 to R318, R321, R324)
  | remoteAccessRequest (r : HubReq) | remoteResponse (core : Nat) (tag : Nat) (data : List Byte)
  | moraineRequest (a : Arrival MoraineMsg) | moraineDeposit (a : Arrival MoraineMsg)
  | moraineWithdrawal (a : Arrival MoraineMsg)
  | moraineReply (a : Arrival MoraineRep) | depositAck (a : Arrival MoraineRep)
  -- fabric and collectives (R348, R354, R355, R358, R363, R365)
  | hopForward (p : Packet) | hopAdd (p : Packet) | hopMulticast (p : Packet) | hopDeliver (p : Packet)
  | callStart (core : Nat) (seq : BitVec 32) (hellos : List CallHello)
  | chunkSend (core : Nat) (seq : BitVec 32) (chunk : Nat)
  | callDelivery (core : Nat) (seq : BitVec 32) (chunk : Nat) (others : List (Nat × List Payload × BitVec 7))
  | memberReturn (pkg : BitVec 48)
  -- reshards (R334, R335, R337)
  | reshardStart (core : Nat) (seq : BitVec 32) (hellos : List ReshardHello)
  | reshardTile (core : Nat) (seq : BitVec 32) (pos : Nat) (others : List (BitVec 48 × Nat))
  -- near-memory cores (R369, R371)
  -- boot, levels, reliability (R376 to R381, R341, R342)
  | reset (fw img : BootCheck) (version : Nat) (sites : SiteMap) | halt (asid : BitVec 12) (addr : Word)
  | hiddenRepair (addr : Word) | flitReplay (port : Nat) | laneRetrain (port : Nat) | linkReroute (port : Nat)
  | packageAbsent (pkg : BitVec 48)
  -- the control node (R263, R306, R374, R131, R23, R307, R138, R375, R377, R385, R373)
  | launchDoorbell (slot : Nat) | launchDeferredAccept (slot : Nat)
  | partitionTableWrite (i : Nat) (entry : List Byte) | pageTableRootWrite (asid : BitVec 12) (root : Word)
  | meshConfigWrite (mesh coord : Word) | moraineDeclaration (i : Nat) (entry : List Byte)
  | purgeDoorbell (asid : BitVec 12) (va size : Word) | eventLogTailWrite (tail : Nat) | attestationRequest (nonce : List Byte)
  | memoryWindowRead (off n : Nat) | memoryWindowWrite (off : Nat) (data : List Byte)
  | controlWindowWrite (off : Nat) (data : List Byte)
  -- the rest of the table
  | unassignedEncoding (w : Word) | accessPerformed (a : Access)
  | packageReachableAgain (pkg : BitVec 48) | portTrained (port : Nat)
  -- words without operands, and events whose inputs are the core or the unit under the cursor (State.cur)
  -- words of the text
  | qalign | tend | tret | tretSkip | tretAbandon | mxgo | mxgoResume | mxsync | modeTimed | modeInter | start | nop
  | fullServiceEntry | clockStep
  -- events of the core under the cursor
  | yieldEnd | renqQueueRoom | barwaitSatisfied | waitaSatisfied | rgclaimSatisfied | rgwaitfSatisfied
  | mdepCreditFree | mxgoQueueRoom | vupdChunk | asyncEventDelivery | abandonmentComplete | watchdog | taskDispatch
  | preemption | saveComplete | resumption | nestStart | nestLoadW | nestRow | nestDrain | resumeDoorbell
  -- events of one command of the core under the cursor, the unit being its number
  | callComplete | collHoldExpiry | reshardSwitch | reshardSignal | reshardHoldExpiry | signalNack | moraineResend
  -- events of the near-memory core under the cursor
  | nmcKernelStart | nmcKernelEnd | nearMemoryKernelInstruction
  deriving DecidableEq, Repr

/-- A move of the machine: an engine of a core steps, or an event takes place. -/
inductive Move where
  | engine (core : Nat) (e : Eng)
  /-- An event at a core and at a unit of its own kind: a command number or a near-memory core. -/
  | event (core unit : Nat) (i : Instr)
  deriving DecidableEq, Repr

end Sys2Proof
end

