-- ==== Sys2Proof/WellFormed.lean ====
section
/-! DEFINITION. Which instructions are well formed: the restrictions that the spec puts on the fields of an encoding beyond
the range of each field (R68, R77 and each instruction's own entry). An ill-formed term is no instruction: the words that
would carry it raise ILLEGAL on the engine of the word's tag. -/

namespace Sys2Proof

/-- Signed integer formats. -/
def Fmt.isSigned : Fmt → Bool
  | .i8 | .i16 | .i32 | .i64 => true
  | _ => false

/-- Integer formats, codes 0x0A to 0x11 (R37, R110). -/
def Fmt.isInt (f : Fmt) : Bool := decide (10 ≤ f.code)

/-- The integer types of the vector engine (R193). -/
def Fmt.isVInt : Fmt → Bool
  | .i8 | .i16 | .i32 | .n8 | .n16 | .n32 => true
  | _ => false

/-- FP32 and BF16 (R195). -/
def Fmt.isFloat : Fmt → Bool
  | .f32 | .bf16 => true
  | _ => false

/-- The block-scaled formats, codes 0x05 to 0x09 (R42). -/
def Fmt.isMx (f : Fmt) : Bool := decide (5 ≤ f.code) && decide (f.code ≤ 9)

/-- Formats whose service at the current level R30 may withdraw: codes 0x02 to 0x09. -/
def Fmt.isFullOnly (f : Fmt) : Bool := decide (2 ≤ f.code) && decide (f.code ≤ 9)

/-- Element width in bits; an MX format's element without its scale (R37). -/
def Fmt.bits : Fmt → Nat
  | .f32 => 32 | .bf16 => 16 | .e4m3 => 8 | .e5m2 => 8 | .e2m1 => 4 | .mxi8 => 8 | .mxi6 => 6 | .mxi4 => 4 | .mxf8 => 8
  | .mxf4 => 4 | .i8 => 8 | .i16 => 16 | .i32 => 32 | .i64 => 64 | .n8 => 8 | .n16 => 16 | .n32 => 32 | .n64 => 64

/-- The formats of 8, 16 or 32 bits that R164 lists for register loads and stores. -/
def Fmt.isMove : Fmt → Bool
  | .f32 | .bf16 | .e4m3 | .e5m2 | .mxi8 | .mxf8 | .i8 | .i16 | .i32 | .n8 | .n16 | .n32 => true
  | _ => false

/-- The types of the bit copies vsel, vmov and vbcast (R203). -/
def Fmt.isCopy : Fmt → Bool
  | .f32 | .bf16 | .e4m3 | .e5m2 | .i8 | .i16 | .i32 | .n8 | .n16 | .n32 => true
  | _ => false

/-- The types of vcvt (R205). -/
def Fmt.isCvt (f : Fmt) : Bool := f.isCopy

/-- The types of the integer atomics (R152). -/
def Fmt.isAmo : Fmt → Bool
  | .i32 | .i64 | .n32 | .n64 => true
  | _ => false

/-- A vector register field names one of v0 to v383 (R68). -/
def vok (v : VNo) : Bool := decide (v.toNat < 384)

/-- The generator field is zero unless the word rounds stochastically (R74). -/
def gok (rm : RMode) (g : GenNo) : Bool := decide (rm = .sr) || decide (g = 0)

namespace WF

/-- Form VV of R195 with a rounding for floating types and none for integers. -/
def arith (o : VV) : Bool :=
  vok o.vd && vok o.va && vok o.vb &&
    (o.ty.isFloat && gok o.rm o.g || o.ty.isVInt && decide (o.rm = .rne) && decide (o.g = 0))

/-- Form VV with RM and AUX zero. -/
def plain (o : VV) : Bool := vok o.vd && vok o.va && vok o.vb && decide (o.rm = .rne) && decide (o.g = 0)

/-- Floating only, with a rounding: vdiv, vsqrt. -/
def rounds (o : VV) : Bool := vok o.vd && vok o.va && vok o.vb && o.ty.isFloat && gok o.rm o.g

/-- One source: vb is zero. -/
def one (o : VV) : Bool := decide (o.vb = 0)

/-- Defined functions (R209). -/
def fn (o : VV) : Bool := plain o && one o && decide (o.ty = .f32)

/-- Immediate forms over an integer type. -/
def imm (o : VI) : Bool := vok o.vd && vok o.va && o.ty.isVInt

/-- Immediate shifts: imm[16:5] zero and imm[4:0] below the width (R200). -/
def shift (o : VI) : Bool := imm o && decide (o.imm.toNat < 32) && decide (o.imm.toNat < o.ty.bits)

/-- Reductions (R207). -/
def reduce (o : Reduce) : Bool := vok o.vd && vok o.va && vok o.vb

/-- Strided accesses: registers in range and a type of R164. -/
def strided (o : Strided) : Bool := vok o.vd && o.ty.isMove

/-- The registers of an n-register group from v lie inside the file (R68). -/
def group (v : VNo) (n : Nat) : Bool := decide (v.toNat + n ≤ 384)

/-- An atomic's type fits its operation (R152). -/
def atomic (a : Atomic) : Bool := if a.op = .fadd then decide (a.ty = .f32) else a.ty.isAmo

/-- Bytes of an element, for the 8, 16 and 32-bit types. -/
def bytes (f : Fmt) : Nat := f.bits / 8

end WF

open WF in
/-- Well-formedness of a word of the text; an event is no word of the text. -/
def Instr.wf : Instr → Bool
  | .ext _ _ _ pos len => decide (pos.toNat + len.toNat + 1 ≤ 64)
  | .ld ty _ _ _ | .st ty _ _ _ | .ldacq ty _ _ _ _ | .strel ty _ _ _ _ => ty.isInt
  | .amo a => atomic a
  | .amocas _ _ _ _ ty _ _ => ty.isAmo
  | .red a => atomic a && decide (a.sd = 0) && decide (a.op ≠ .swap) && decide (a.ord = 0 ∨ a.ord = 2)
  | .mapset _ d _ => decide (d ≠ 7)
  | .vld o | .vldb o | .vldt o | .vlpf o | .vst o =>
    vok o.vd && (o.ty.isMove || decide (o.ty = .mxi4) || decide (o.ty = .mxf4))
  | .vldg o | .vsc o => vok o.vd && vok o.va && o.ty.isMove
  | .vldx o | .vsx o => vok o.vd && o.ty.isMove
  | .xtr ty vd va =>
    ty.isMove && group vd (bytes ty) && group va (bytes ty) &&
      (decide (vd = va) || decide (vd.toNat + bytes ty ≤ va.toNat) || decide (va.toNat + bytes ty ≤ vd.toNat))
  | .xunpk ty vd va => vok va && (decide (ty = .mxi6) && vok vd || (decide (ty = .mxi4 ∨ ty = .mxf4) && group vd 2))
  | .xpk ty vd va => vok vd && (decide (ty = .mxi6) && vok va || (decide (ty = .mxi4 ∨ ty = .mxf4) && group va 2))
  | .xhq ty rm g vd va _ _ | .xhdq ty rm g vd va _ _ => vok vd && vok va && ty.isMx && gok rm g
  | .xperm vd va _ => vok vd && vok va
  | .xcat vd va vb _ => vok vd && vok va && vok vb
  | .mxzero acc n => decide (acc.toNat + n.toNat + 1 ≤ 16)
  | .vadd o | .vsub o | .vmul o | .vfma o | .vfms o => arith o
  | .vmin o | .vmax o => plain o && (o.ty.isFloat || o.ty.isVInt)
  | .vabs o | .vneg o => plain o && one o && (o.ty.isFloat || o.ty.isVInt)
  | .vdiv o => rounds o
  | .vsqrt o => rounds o && one o
  | .vand o | .vor o | .vxor o | .vshl o | .vshr o | .vsra o | .vadds o | .vsubs o => plain o && o.ty.isVInt
  | .vnot o => plain o && one o && o.ty.isVInt
  | .vcvt vd va p src _ ty rm g =>
    vok vd && vok va && src.isCvt && ty.isCvt && gok rm g &&
      decide (p.toNat * Nat.min src.bits ty.bits < Nat.max src.bits ty.bits) &&
      (!(src.isVInt && ty.isVInt) || decide (rm = .rne))
  | .vcvtmx o => vok o.vd && vok o.va && one o && o.ty.isMx && gok o.rm o.g && decide (o.pm = 0)
  | .vdqmx o => vok o.vd && vok o.va && one o && o.ty.isMx && gok o.rm o.g
  | .vcmp c h _ va vb _ ty =>
    vok va && vok vb && (ty.isFloat || ty.isVInt && decide (c ≠ .uno ∧ c ≠ .ord)) && decide (ty.bits ≠ 8) &&
      (decide (ty.bits = 16) || !h)
  | .vsel vd va vb _ _ ty => vok vd && vok va && vok vb && ty.isCopy
  | .vmov o => plain o && one o && o.ty.isCopy
  | .vbcast vd _ _ ty => vok vd && ty.isCopy
  | .vperm o => plain o && decide (o.ty = .n32)
  | .vslide _ _ vd va _ => vok vd && vok va
  | .viota o => imm o && decide (o.va = 0)
  | .vaddi o | .vmuli o | .vandi o | .vori o => imm o
  | .vshli o | .vshri o => shift o
  | .vcmpi c _ _ va _ ty => vok va && ty.isVInt && decide (ty.bits ≠ 8) && decide (c ≠ .uno ∧ c ≠ .ord)
  | .vli o => vok o.vd && decide (o.va = 0) && (o.ty.isVInt || decide (o.ty = .f32) || decide (o.ty = .bf16) && decide (o.imm.toNat < 65536))
  | .vmpop vd _ _ | .vmfirst vd _ _ => vok vd
  | .vredsum o => reduce o && decide (o.vb = 0) && (o.ty.isFloat || o.ty.isVInt && decide (o.prof = 0))
  | .vredmax o | .vredmin o => reduce o && decide (o.vb = 0) && (o.ty.isFloat || o.ty.isVInt) && decide (o.prof = 0)
  | .vdot o => reduce o && (o.ty.isFloat || o.ty.isVInt && decide (o.ty.bits ≠ 32) && decide (o.prof = 0))
  | .vexp2 o | .vlog2 o | .vrcp o | .vrsqrt o | .vsinT o | .vcosT o => fn o
  | .vupd ty _ _ => ty.isFloat
  | .gfill vd _ _ ty _ => vok vd && (ty.isFloat || decide (ty = .n32))
  | .gfillS vd _ ty _ => vok vd && (ty.isFloat || decide (ty = .n32))
  | .vaccr vd _ _ _ => vok vd
  | .vaccw _ vs _ _ => vok vs
  | .vsdrain _ _ _ _ ty rm g k cc _ ccid =>
    decide (ty.code ≤ 9) && decide (ty ≠ .e2m1) && gok rm g && decide (k.toNat ≤ 8) &&
      (decide (k = 0) || decide (ty = .f32) && decide (rm = .rne) && decide (g = 0)) && (cc || decide (ccid = 0))
  | .lpset _ fromReg sa imm => if fromReg then decide (imm = 0) else decide (sa = 0)
  | _ => true

/-- The restrictions on strided accesses that differ from one instruction to the next (R164, R167). -/
def Instr.stridedOk : Instr → Bool
  | .vld o => o.ty.isMove && !o.nt
  | .vst o => o.ty.isMove
  | .vldb o => o.ty.isMove && !o.nt && decide (o.sb = 0)
  | .vlpf o => o.ty.isMove && !o.nt && decide (o.vd = 0)
  | .vldt o => !o.nt
  | .vldg o => !o.nt
  | .vldx o => !o.nt
  | _ => true

/-- An instruction as the encoding admits it. -/
def Instr.ok (i : Instr) : Bool := i.wf && i.stridedOk

end Sys2Proof
end

