-- ==== Sys2Proof/Machine/Exact.lean ====
section
/-! DEFINITION. Exact numbers, the formats, the one rounding function and the quantiser (R37 to R53). -/

namespace Sys2Proof.Machine

/-- Exception flags, in the order of SYS.FLAGS (R54). -/
abbrev Flags := BitVec 7

namespace Flags
/-- No event. -/
def none : Flags := 0
/-- INVALID (R54). -/
def invalid : Flags := 1
/-- DIVZERO (R54). -/
def divzero : Flags := 2
/-- OVERFLOW (R54). -/
def overflow : Flags := 4
/-- UNDERFLOW (R54). -/
def underflow : Flags := 8
/-- INEXACT (R54). -/
def inexact : Flags := 16
/-- SATURATE (R54). -/
def saturate : Flags := 32
/-- NANBLOCK (R54). -/
def nanblock : Flags := 64
/-- The flag where the condition holds. -/
def when (c : Bool) (f : Flags) : Flags := if c then f else 0
/-- The OR of a list of events (R55). -/
def all (l : List Flags) : Flags := l.foldl (· ||| ·) 0
end Flags

/-- An exact value: NaN, an infinity, or (-1)^neg p/q with q above 0; a zero keeps its sign (R50, R51). -/
inductive Exact where
  | nan
  | inf (neg : Bool)
  | fin (neg : Bool) (p q : Nat)
  deriving DecidableEq, Repr

namespace Exact

/-- Plus zero. -/
def zero : Exact := .fin false 0 1

/-- n times 2^k. -/
def scaled (neg : Bool) (n : Nat) (k : Int) : Exact :=
  if 0 ≤ k then .fin neg (n * 2 ^ k.toNat) 1 else .fin neg n (2 ^ (-k).toNat)

/-- An integer. -/
def ofInt (i : Int) : Exact := .fin (decide (i < 0)) i.natAbs 1

/-- Times 2^k, exactly. -/
def shift (k : Int) : Exact → Exact
  | .fin n p q => if 0 ≤ k then .fin n (p * 2 ^ k.toNat) q else .fin n p (q * 2 ^ (-k).toNat)
  | x => x

/-- The value with its sign inverted. -/
def neg : Exact → Exact
  | .nan => .nan
  | .inf n => .inf (!n)
  | .fin n p q => .fin (!n) p q

/-- The sign; NaN has none. -/
def isNeg : Exact → Bool
  | .nan => false
  | .inf n => n
  | .fin n _ _ => n

/-- Is it NaN? -/
def isNan : Exact → Bool
  | .nan => true
  | _ => false

/-- Is it a zero of either sign? -/
def isZero : Exact → Bool
  | .fin _ 0 _ => true
  | _ => false

/-- Is it an infinity? -/
def isInf : Exact → Bool
  | .inf _ => true
  | _ => false

/-- The product and its event (R52, R53): 0 times infinity is NaN and INVALID. -/
def mul : Exact → Exact → Exact × Flags
  | .nan, _ | _, .nan => (.nan, 0)
  | .inf a, .inf b => (.inf (a != b), 0)
  | .inf a, .fin b p _ => if p = 0 then (.nan, Flags.invalid) else (.inf (a != b), 0)
  | .fin a p _, .inf b => if p = 0 then (.nan, Flags.invalid) else (.inf (a != b), 0)
  | .fin a p q, .fin b r s => (.fin (a != b) (p * r) (q * s), 0)

/-- Signed numerator over a common denominator d. -/
def numer (d : Nat) : Exact → Int
  | .fin n p q => if n then -((p * (d / q) : Nat) : Int) else ((p * (d / q) : Nat) : Int)
  | _ => 0

/-- The denominator of a finite value. -/
def den : Exact → Nat
  | .fin _ _ q => q
  | _ => 1

/-- The exact sum and its event (R51, R53). -/
def sum (l : List Exact) : Exact × Flags :=
  if l.any isNan then (.nan, 0)
  else
    let pos := l.any fun x => x == .inf false
    let ngv := l.any fun x => x == .inf true
    if pos && ngv then (.nan, Flags.invalid)
    else if pos then (.inf false, 0)
    else if ngv then (.inf true, 0)
    else
      let d := l.foldl (fun d x => Nat.lcm d x.den) 1
      let s := l.foldl (fun t x => t + x.numer d) (0 : Int)
      if s = 0 then (.fin (!l.isEmpty && l.all isNeg) 0 1, 0) else (.fin (decide (s < 0)) s.natAbs d, 0)

/-- Is x below y? False where either is NaN; the zeros are equal. -/
def lt : Exact → Exact → Bool
  | .nan, _ | _, .nan => false
  | .inf a, .inf b => a && !b
  | .inf a, .fin _ _ _ => a
  | .fin _ _ _, .inf b => !b
  | .fin a p q, .fin b r s =>
    decide ((if a then -((p * s : Nat) : Int) else ((p * s : Nat) : Int)) < (if b then -((r * q : Nat) : Int) else ((r * q : Nat) : Int)))

/-- Equal values; the zeros are equal, NaN equals nothing. -/
def eqv (x y : Exact) : Bool := !x.isNan && !y.isNan && !lt x y && !lt y x

/-- floor(log2(p/q)) for p, q above 0. -/
def flog2 (p q : Nat) : Int :=
  let d : Int := (Nat.log2 p : Int) - (Nat.log2 q : Int)
  if (if 0 ≤ d then q * 2 ^ d.toNat ≤ p else q ≤ p * 2 ^ (-d).toNat) then d else d - 1

/-- The square root of a positive p/q, cut at 2^-257 with a sticky bit below: it lies in the same rounding interval as the
exact root, in every mode of R50 and for every format of R39. -/
def sqrtPos (p q : Nat) : Exact :=
  let n := p * 4 ^ 256 / q
  let r := Nat.sqrt n
  .fin false (2 * r + (if r * r * q = p * 4 ^ 256 then 0 else 1)) (2 ^ 257)

end Exact

/-- A floating format: exponent bits, significand bits, bias, and whether it has infinities and NaNs (R39). -/
structure FloatFmt where
  e : Nat
  m : Nat
  b : Nat
  hasInf : Bool
  hasNan : Bool
  deriving DecidableEq, Repr

namespace FloatFmt
/-- FP32 (R39). -/
def f32 : FloatFmt := ⟨8, 23, 127, true, true⟩
/-- BF16 (R39). -/
def bf16 : FloatFmt := ⟨8, 7, 127, true, true⟩
/-- E4M3 (R39). -/
def e4m3 : FloatFmt := ⟨4, 3, 7, false, true⟩
/-- E5M2 (R39). -/
def e5m2 : FloatFmt := ⟨5, 2, 15, true, true⟩
/-- E2M1 (R39, R40). -/
def e2m1 : FloatFmt := ⟨2, 1, 1, false, false⟩

/-- The magnitude code of the largest finite value (R39). -/
def maxCode (f : FloatFmt) : Nat :=
  if f.hasInf then (2 ^ f.e - 1) * 2 ^ f.m - 1 else if f.hasNan then 2 ^ (f.e + f.m) - 2 else 2 ^ (f.e + f.m) - 1

/-- The sign bit's weight. -/
def signBit (f : FloatFmt) : Nat := 2 ^ (f.e + f.m)

/-- The code of an infinity's magnitude (R39). -/
def infCode (f : FloatFmt) : Nat := (2 ^ f.e - 1) * 2 ^ f.m

/-- The canonical NaN (R41). -/
def nanCode (f : FloatFmt) : Nat := if f.hasInf then f.infCode + 2 ^ (f.m - 1) else 2 ^ (f.e + f.m) - 1

/-- The value of an encoding (R38 to R40). -/
def value (f : FloatFmt) (c : Nat) : Exact :=
  let s := decide (f.signBit ≤ c % (2 * f.signBit))
  let g := c % f.signBit
  if f.hasInf && decide (g = f.infCode) then .inf s
  else if f.hasNan && decide (f.maxCode < g) then .nan
  else
    let E := g / 2 ^ f.m
    let M := g % 2 ^ f.m
    if E = 0 then Exact.scaled s M (1 - (f.b : Int) - f.m)
    else Exact.scaled s (2 ^ f.m + M) ((E : Int) - f.b - f.m)

/-- The exponent of the top binade. -/
def topExp (f : FloatFmt) : Int := ((f.maxCode / 2 ^ f.m : Nat) : Int) - f.b

end FloatFmt

/-- Does the magnitude n + rem/den (rem above 0) go up to n + 1 (R50)? u holds the 24 stochastic bits. -/
def bumps (mode : RMode) (neg : Bool) (n rem den u : Nat) : Bool :=
  match mode with
  | .rne => decide (den < 2 * rem) || decide (2 * rem = den) && decide (n % 2 = 1)
  | .rtz => false
  | .rup => !neg
  | .rdn => neg
  | .sr => if neg then !decide (u < (den - rem) * 2 ^ 24 / den) else decide (u < rem * 2 ^ 24 / den)

/-- p / (q 2^k) as an integer part, a remainder and its denominator. -/
def cutAt (p q : Nat) (k : Int) : Nat × Nat × Nat :=
  let P := if 0 ≤ k then p else p * 2 ^ (-k).toNat
  let Q := if 0 ≤ k then q * 2 ^ k.toNat else q
  (P / Q, P % Q, Q)

/-- RoundTo for a floating format (R50): the encoding and the events. -/
def roundFloat (f : FloatFmt) (mode : RMode) (u : Nat) : Exact → Nat × Flags
  | .nan => (f.nanCode, 0)
  | .inf n => if f.hasInf then (f.infCode + (if n then f.signBit else 0), 0) else (f.nanCode, Flags.invalid)
  | .fin neg p q =>
    let s := if neg then f.signBit else 0
    if p = 0 then (s, 0)
    else
      let e := Exact.flog2 p q
      let lowE : Int := 1 - (f.b : Int)
      let E := if e < lowE then lowE else if f.topExp < e then f.topExp else e
      let (n, rem, den) := cutAt p q (E - f.m)
      let n' := if rem ≠ 0 && bumps mode neg n rem den u then n + 1 else n
      let code := if n' < 2 ^ f.m then n' else ((E + f.b).toNat * 2 ^ f.m) + (n' - 2 ^ f.m)
      let inex := Flags.when (decide (rem ≠ 0)) Flags.inexact
      if f.maxCode < code then
        let fl := Flags.overflow ||| Flags.inexact
        let clamp := !f.hasInf || (match mode with | .rtz => true | .rup => neg | .rdn => !neg | _ => false)
        ((if clamp then f.maxCode else f.infCode) + s, fl)
      else (code + s, inex ||| Flags.when (decide (rem ≠ 0) && decide (code < 2 ^ f.m)) Flags.underflow)

/-- RoundTo for the integers without limit (R50): the value and the events; NaN and the infinities have no value here. -/
def roundInt (mode : RMode) (u : Nat) : Exact → Int × Flags
  | .nan => (0, Flags.invalid)
  | .inf _ => (0, Flags.invalid)
  | .fin neg p q =>
    let n := p / q
    let rem := p % q
    let n' := if rem ≠ 0 && bumps mode neg n rem q u then n + 1 else n
    ((if neg then -(n' : Int) else (n' : Int)), Flags.when (decide (rem ≠ 0)) Flags.inexact)

/-- Least value of an integer format (R48). -/
def minInt (f : Fmt) : Int := if f.isSigned then -((2 ^ (f.bits - 1) : Nat) : Int) else 0

/-- Greatest value of an integer format (R48). -/
def maxInt (f : Fmt) : Int := if f.isSigned then ((2 ^ (f.bits - 1) : Nat) : Int) - 1 else ((2 ^ f.bits : Nat) : Int) - 1

/-- An integer clamped to a format's range. -/
def clampInt (f : Fmt) (i : Int) : Int := if i < minInt f then minInt f else if maxInt f < i then maxInt f else i

/-- RoundTo for an integer format (R50): the encoding and the events. -/
def roundToInt (f : Fmt) (mode : RMode) (u : Nat) : Exact → Nat × Flags
  | .nan => (0, Flags.invalid)
  | .inf n => (wrapNat f.bits (if n then minInt f else maxInt f), Flags.invalid)
  | x =>
    let (y, fl) := roundInt mode u x
    let c := clampInt f y
    (wrapNat f.bits c, if c = y then fl else fl ||| Flags.invalid)

/-- The floating format behind a format code: of the values of FP32, BF16, E4M3, E5M2 and E2M1, and of the elements of
MXFP8 and MXFP4 (R45). -/
def Fmt.float : Fmt → FloatFmt
  | .f32 => .f32 | .bf16 => .bf16 | .e4m3 => .e4m3 | .e5m2 => .e5m2 | .e2m1 => .e2m1 | .mxf8 => .e4m3 | .mxf4 => .e2m1
  | _ => .f32

/-- RoundTo (R50) for every format that an instruction rounds to. -/
def roundTo (f : Fmt) (mode : RMode) (u : Nat) (x : Exact) : Nat × Flags :=
  if f.isInt then roundToInt f mode u x else roundFloat (Fmt.float f) mode u x

/-- The exact value of an element encoding, without a block scale (R38 to R40, R44, R45, R48). -/
def elemValue (f : Fmt) (c : Nat) : Exact :=
  match f with
  | .mxi8 | .mxi6 | .mxi4 => (Exact.ofInt (signedOf f.bits c)).shift (2 - (f.bits : Int))
  | _ =>
    if f.isInt then Exact.ofInt (if f.isSigned then signedOf f.bits c else ((c % 2 ^ f.bits : Nat) : Int))
    else (Fmt.float f).value (c % 2 ^ f.bits)

/-- The exact value of an MX element under its block's scale code (R43 to R45). -/
def mxValue (f : Fmt) (c scale : Nat) : Exact :=
  if scale = 255 then .nan else (elemValue f c).shift ((scale : Int) - 127)

/-- The largest exponent of an MX format's elements (R47). -/
def emax : Fmt → Int
  | .mxf8 => 8
  | .mxf4 => 2
  | _ => 0

/-- One element of the quantiser (R47): its code and events. -/
def quantElem (f : Fmt) (mode : RMode) (e : Int) (x : Exact) (u : Nat) : Nat × Flags :=
  let y := x.shift (-e)
  match f with
  | .mxf8 | .mxf4 =>
    let (c, fl) := roundFloat (Fmt.float f) mode u y
    (if c % (Fmt.float f).signBit = 0 then 0 else c, fl)
  | _ =>
    let (q, fl) := roundInt mode u (y.shift ((f.bits : Int) - 2))
    let lim : Int := ((2 ^ (f.bits - 1) : Nat) : Int) - 1
    if lim < q then (wrapNat f.bits lim, fl ||| Flags.saturate)
    else if q < -lim then (wrapNat f.bits (-lim), fl ||| Flags.saturate)
    else (wrapNat f.bits q, fl)

/-- The greatest magnitude of a list, as a finite value. -/
def maxMag : List Exact → Nat × Nat
  | [] => (0, 1)
  | x :: r =>
    let (p, q) := maxMag r
    match x with
    | .fin _ a b => if p * b < a * q then (a, b) else (p, q)
    | _ => (p, q)

/-- MXQuant (R47): the scale code, the element codes and the events. us gives each element's stochastic bits. -/
def mxQuant (f : Fmt) (mode : RMode) (xs : List Exact) (us : List Nat) : Nat × List Nat × Flags :=
  if xs.any fun x => x.isNan || x.isInf then (255, xs.map fun _ => 0, Flags.nanblock)
  else
    let (p, q) := maxMag xs
    if p = 0 then (127, xs.map fun _ => 0, 0)
    else
      let e0 := Exact.flog2 p q - emax f
      let e := if e0 < -127 then -127 else if 127 < e0 then 127 else e0
      let r := List.zipWith (quantElem f mode e) xs us
      ((e + 127).toNat, r.map Prod.fst, Flags.all (r.map Prod.snd) ||| Flags.when (decide (127 < e0)) Flags.overflow)

/-- Adds a group result to an accumulator in FP32 with RNE (R58): the FP32 code and the events. -/
def accAdd (acc g : Nat) : Nat × Flags :=
  let (s, f1) := Exact.sum [FloatFmt.f32.value acc, FloatFmt.f32.value g]
  let (c, f2) := roundFloat .f32 .rne 0 s
  (c, f1 ||| f2)

/-- The profile 3 window (R60): truncation toward zero to a multiple of 2^(emax - 38), where all products are finite. -/
def windowTruncate (ps : List Exact) : List Exact :=
  if ps.any fun x => x.isNan || x.isInf then ps
  else
    let nz := ps.filter fun x => !x.isZero
    match nz.map (fun x => match x with | .fin _ p q => Exact.flog2 p q | _ => 0) with
    | [] => ps
    | k :: ks =>
      let top := ks.foldl max k
      ps.map fun x => match x with
        | .fin n p q => Exact.scaled n (cutAt p q (top - 38)).1 (top - 38)
        | y => y

/-- One group of a profile: the exact sum of products, rounded once to FP32 with RNE (R58 to R60). -/
def groupSum (window : Bool) (ps : List (Exact × Flags)) : Nat × Flags :=
  let xs := ps.map Prod.fst
  let (s, f1) := Exact.sum (if window then windowTruncate xs else xs)
  let (c, f2) := roundFloat .f32 .rne 0 s
  (c, Flags.all (ps.map Prod.snd) ||| f1 ||| f2)

/-- Group size of a numerics profile (R59). -/
def profileG (prof : Nat) : Nat := if prof = 2 then 128 else if prof = 3 then 16 else 32

/-- Consecutive groups of n. -/
def chunks {α : Type} (n : Nat) : Nat → List α → List (List α)
  | 0, _ => []
  | _ + 1, [] => []
  | fuel + 1, l => l.take n :: chunks n fuel (l.drop n)

/-- Joins group results to the accumulator (R58). -/
def joinGroups : List (Nat × Flags) → Nat → Bool → Nat × Flags
  | [], acc, _ => (acc, 0)
  | (g, f) :: r, acc, fresh =>
    let (a, f1) := if fresh then (g, 0) else accAdd acc g
    let (a', f2) := joinGroups r a false
    (a', f ||| f1 ||| f2)

/-- ProfileDot over exact products (R58): the FP32 accumulator and the events. -/
def profileDot (prof : Nat) (ps : List (Exact × Flags)) (acc : Nat) (fresh : Bool) : Nat × Flags :=
  joinGroups ((chunks (profileG prof) ps.length ps).map (groupSum (decide (prof = 3)))) acc fresh

/-- One block pair under profile 4 (R61): the exact sum of element products, both scales applied exactly, rounded once. -/
def blockPair (ps : List (Exact × Flags)) (sa sb : Nat) : Nat × Flags :=
  if sa = 255 || sb = 255 then (FloatFmt.f32.nanCode, 0)
  else
    let (s, f1) := Exact.sum (ps.map Prod.fst)
    let (c, f2) := roundFloat .f32 .rne 0 (s.shift (((sa : Int) - 127) + ((sb : Int) - 127)))
    (c, Flags.all (ps.map Prod.snd) ||| f1 ||| f2)

end Sys2Proof.Machine
end

