-- ==== Sys2Proof/Machine/Functions.lean ====
section
/-! DEFINITION. The defined functions of the vector engine, step by step (R209 to R214), and the element of the optimiser
update (R216). -/

namespace Sys2Proof.Machine

namespace Fn

/-- The exact value of an FP32 encoding. -/
def val (c : Nat) : Exact := FloatFmt.f32.value c

/-- N(x): rounding to FP32 with RNE, flags discarded (R209). -/
def N (x : Exact) : Exact := val (roundFloat .f32 .rne 0 x).1

/-- F(x): the same rounding, flags reported (R209). -/
def F (x : Exact) : Nat × Flags := roundFloat .f32 .rne 0 x

/-- A two-term exact sum. -/
def add (x y : Exact) : Exact := (Exact.sum [x, y]).1

/-- An exact product. -/
def mul (x y : Exact) : Exact := (x.mul y).1

/-- The exact quotient of finite values, the divisor not zero. -/
def quo : Exact → Exact → Exact
  | .fin a p q, .fin b r s => .fin (a != b) (p * s) (q * r)
  | _, _ => .nan

/-- The floor of a finite value. -/
def floor : Exact → Int
  | .fin false p q => ((p / q : Nat) : Int)
  | .fin true p q => -(((p + q - 1) / q : Nat) : Int)
  | _ => 0

/-- The nearest integer, ties to even. -/
def nearest (x : Exact) : Int := (roundInt .rne 0 x).1

/-- x minus an integer. -/
def subInt (x : Exact) (n : Int) : Exact := add x (Exact.ofInt n).neg

/-- Horner's rule over coefficient encodings, highest first: p = N(p * x + c). -/
def horner (x : Exact) (p : Exact) (cs : List Nat) : Exact := cs.foldl (fun p c => N (add (mul p x) (val c))) p

/-- The canonical NaN without a flag. -/
def nan : Nat × Flags := (FloatFmt.f32.nanCode, 0)

/-- An infinity with a flag. -/
def inf (neg : Bool) (f : Flags) : Nat × Flags := (FloatFmt.f32.infCode + (if neg then FloatFmt.f32.signBit else 0), f)

/-- A zero with a flag. -/
def zero (neg : Bool) (f : Flags) : Nat × Flags := ((if neg then FloatFmt.f32.signBit else 0), f)

/-- The table T of R210. -/
def exp2T : List Nat :=
  [0x3F800000, 0x3F8B95C2, 0x3F9837F0, 0x3FA5FED7, 0x3FB504F3, 0x3FC5672A, 0x3FD744FD, 0x3FEAC0C7]

/-- Exp2 (R210). -/
def exp2 (x : Exact) : Nat × Flags :=
  match x with
  | .nan => nan
  | .inf false => inf false 0
  | .inf true => zero false 0
  | .fin neg p q =>
    if !neg && decide (128 * q ≤ p) then inf false (Flags.overflow ||| Flags.inexact)
    else if neg && decide (150 * q < p) then zero false (Flags.underflow ||| Flags.inexact)
    else
      let n := floor x
      let f := subInt x n
      let j := floor (f.shift 3)
      let r := add f ((Exact.ofInt j).shift (-3)).neg
      let pl := horner r (val 0x3AAEC3FF) [0x3C1D955B, 0x3D635847, 0x3E75FDF0, 0x3F317218]
      let qq := N (mul pl r)
      let t := val (exp2T.getD j.toNat 0)
      let y := N (add (mul t qq) t)
      F (y.shift n)

/-- Log2 (R211). -/
def log2 (x : Exact) : Nat × Flags :=
  match x with
  | .nan => nan
  | .inf false => inf false 0
  | .inf true => (FloatFmt.f32.nanCode, Flags.invalid)
  | .fin neg p q =>
    if p = 0 then inf true Flags.divzero
    else if neg then (FloatFmt.f32.nanCode, Flags.invalid)
    else
      let e0 := Exact.flog2 p q
      let m0 := x.shift (-e0)
      let big := match m0 with | .fin _ a b => decide (3 * b ≤ 2 * a) | _ => false
      let m := if big then m0.shift (-1) else m0
      let e := if big then e0 + 1 else e0
      let t := subInt m 1
      let u := N (add (Exact.ofInt 2) t)
      let s := N (quo t u)
      let w := N (mul s s)
      let pl := horner w (val 0x3E864D42) [0x3EA4258A, 0x3ED30BB1, 0x3F13BB63, 0x3F76384F, 0x4038AA3B]
      F (add (mul s pl) (Exact.ofInt e))

/-- The seeds of R212. -/
def rcpT : List Nat :=
  [0x3F710000, 0x3F580000, 0x3F430000, 0x3F320000, 0x3F240000, 0x3F180000, 0x3F0D0000, 0x3F040000]

/-- n Newton steps y = N(y * d + y) with d = N(1 - m * y) (R212). -/
def rcpSteps (m : Exact) : Nat → Exact → Exact
  | 0, y => y
  | n + 1, y =>
    let d := N (add (Exact.ofInt 1) (mul m y).neg)
    rcpSteps m n (N (add (mul y d) y))

/-- Rcp (R212). -/
def rcp (x : Exact) : Nat × Flags :=
  match x with
  | .nan => nan
  | .inf n => zero n 0
  | .fin neg p q =>
    if p = 0 then inf neg Flags.divzero
    else
      let e := Exact.flog2 p q
      let m := Exact.shift (-e) (.fin false p q)
      let j := floor ((subInt m 1).shift 3)
      let y := rcpSteps m 3 (val (rcpT.getD j.toNat 0))
      let z := y.shift (-e)
      F (if neg then z.neg else z)

/-- The seeds of R213. -/
def rsqT : List Nat := [0x3F650000, 0x3F420000, 0x3F2B0000, 0x3F1A0000, 0x3F0E0000, 0x3F040000]

/-- n Newton steps of R213. -/
def rsqSteps (m : Exact) : Nat → Exact → Exact
  | 0, y => y
  | n + 1, y =>
    let t := N (mul y y)
    let d := N (add (Exact.ofInt 1) (mul m t).neg)
    rsqSteps m n (N (add (mul y (d.shift (-1))) y))

/-- Rsqrt (R213). -/
def rsqrt (x : Exact) : Nat × Flags :=
  match x with
  | .nan => nan
  | .inf false => zero false 0
  | .inf true => (FloatFmt.f32.nanCode, Flags.invalid)
  | .fin neg p q =>
    if p = 0 then inf neg Flags.divzero
    else if neg then (FloatFmt.f32.nanCode, Flags.invalid)
    else
      let e0 := Exact.flog2 p q
      let e := e0 - e0 % 2
      let m := x.shift (-e)
      let j := floor (m.shift 1) - 2
      let y := rsqSteps m 4 (val (rsqT.getD j.toNat 0))
      F (y.shift (-(e / 2)))

/-- SinCosT (R214). -/
def sinCos (cosine : Bool) (x : Exact) : Nat × Flags :=
  match x with
  | .nan => nan
  | .inf _ => (FloatFmt.f32.nanCode, Flags.invalid)
  | .fin neg _ _ =>
    let n := nearest x
    let f0 := subInt x n
    let f := if f0.isZero then Exact.fin neg 0 1 else f0
    let q := nearest (f.shift 2)
    let r := if q = 0 then f else add f ((Exact.ofInt q).shift (-2)).neg
    let w := N (mul r r)
    let k := (q + (if cosine then 1 else 0)) % 4
    let v :=
      if k = 0 ∨ k = 2 then
        mul r (horner w (val 0x42283C1A) [0xC2996966, 0x42A335E3, 0xC2255DE7, 0x40C90FDB])
      else
        add (mul (horner w (val 0xC1D368F9) [0x4270FA83, 0xC2AAE9E4, 0x4281E0F8, 0xC19DE9E6]) w) (val 0x3F800000)
    let (y, fl) := F (if 2 ≤ k then v.neg else v)
    if y % FloatFmt.f32.signBit = 0 && !x.isZero then (0, fl) else (y, fl)

/-- The square root of R197: the exact value for a rounding, and the events. -/
def sqrt (x : Exact) : Exact × Flags :=
  match x with
  | .fin neg p q => if p = 0 then (x, 0) else if neg then (.nan, Flags.invalid) else (Exact.sqrtPos p q, 0)
  | .inf true => (.nan, Flags.invalid)
  | y => (y, 0)

/-- The quotient of R197 and its events. -/
def div (x y : Exact) : Exact × Flags :=
  match x, y with
  | .nan, _ | _, .nan => (.nan, 0)
  | .inf _, .inf _ => (.nan, Flags.invalid)
  | .inf a, .fin b _ _ => (.inf (a != b), 0)
  | .fin a _ _, .inf b => (.fin (a != b) 0 1, 0)
  | .fin a p q, .fin b r s =>
    if r = 0 then (if p = 0 then (.nan, Flags.invalid) else (.inf (a != b), Flags.divzero))
    else (.fin (a != b) (p * s) (q * r), 0)

end Fn

/-- The parameters of an optimiser update, FP32 encodings (R215). -/
structure UpdParams where
  lr : Nat
  b1 : Nat
  omb1 : Nat
  b2 : Nat
  omb2 : Nat
  eps : Nat
  wd : Nat
  c1 : Nat
  c2 : Nat
  deriving DecidableEq, Repr

/-- Rounds an exact sum to FP32 with RNE and reports every event. -/
def sumF32 (l : List (Exact × Flags)) : Nat × Flags :=
  let (s, f) := Exact.sum (l.map Prod.fst)
  let (c, f') := roundFloat .f32 .rne 0 s
  (c, Flags.all (l.map Prod.snd) ||| f ||| f')

/-- A product of FP32 values and further exact factors, with the events of the product. DESIGN CHOICE (log 103): it is formed from left to
right, two factors at a time. -/
def prod (l : List Exact) : Exact × Flags :=
  l.foldl (fun (a : Exact × Flags) x => let (y, f) := a.1.mul x; (y, a.2 ||| f)) (.fin false 1 1, 0)

/-- One element of vupd (R216): the weight, the moments and the events. g and w are exact; m and v are FP32 encodings. -/
def updElem (P : UpdParams) (ty : Fmt) (rm : RMode) (bits : Nat) (g w : Exact) (m v : Nat) :
    Nat × Nat × Nat × Flags :=
  let k := Fn.val
  let (m1, f1) := sumF32 [prod [k P.b1, k m], prod [k P.omb1, g]]
  let (v1, f2) := sumF32 [prod [k P.b2, k v], prod [k P.omb2, g, g]]
  let (mh, f3) := sumF32 [prod [k P.c1, k m1]]
  let (vh, f4) := sumF32 [prod [k P.c2, k v1]]
  let (d, f5) := sumF32 [(k vh, 0), (k P.eps, 0)]
  let (rs, f6) := Fn.rsqrt (k d)
  let (u, f7) := sumF32 [prod [k mh, k rs]]
  let t1 := prod [(k P.lr).neg, k u]
  let t2 := prod [(k P.lr).neg, k P.wd, w]
  let (s, f8) := Exact.sum [w, t1.1, t2.1]
  let (w1, f9) := roundTo ty rm bits s
  (w1, m1, v1, Flags.all [f1, f2, f3, f4, f5, f6, f7, t1.2, t2.2, f8, f9])

end Sys2Proof.Machine
end

