-- ==== Sys2Proof/Machine/Flurry.lean ====
section
/-! DEFINITION. Flurry generators: the register image, Sastrugi, keys, counters and values (R244 to R250). -/

namespace Sys2Proof.Machine

/-- A generator register: its 64-byte image as a 512-bit value, and the frequency table of a rotary register where one is
loaded (R244, R257). -/
structure Gen where
  img : BitVec 512
  freq : Option (List (BitVec 32))
  deriving DecidableEq, Repr

namespace Gen

/-- The register at task dispatch (R244). -/
def zero : Gen := ⟨0, none⟩

/-- A field of the image, by byte offset and size (R244). -/
def field (g : Gen) (off n : Nat) : Nat := (g.img.toNat >>> (8 * off)) % 2 ^ (8 * n)

/-- KEY. -/
def key (g : Gen) : Nat := g.field 0 16
/-- CTR. -/
def ctr (g : Gen) : Nat := g.field 16 16
/-- P0. -/
def p0 (g : Gen) : Nat := g.field 48 4
/-- P1. -/
def p1 (g : Gen) : Nat := g.field 52 4
/-- P2. -/
def p2 (g : Gen) : Nat := g.field 56 4
/-- KIND code. -/
def kind (g : Gen) : Nat := g.field 60 1 % 16
/-- SCOPE bits. -/
def scope (g : Gen) : Nat := g.field 61 1 % 16

/-- Replaces the field at a byte offset. -/
def withField (g : Gen) (off n v : Nat) : Gen :=
  { g with img := BitVec.ofNat 512 (g.img.toNat - (g.field off n) <<< (8 * off) + (v % 2 ^ (8 * n)) <<< (8 * off)) }

/-- The frequency-table address of a rotary register (R257). -/
def tableAddr (g : Gen) : Nat := g.p0 + (g.p1 % 2 ^ 25) * 2 ^ 32

/-- NF of a rotary register (R245). -/
def nf (g : Gen) : Nat := g.p2 % 512

/-- The image meets R245: KIND assigned, parameters in range, reserved bits zero. -/
def imageOk (g : Gen) : Bool :=
  decide (g.field 60 1 < 16) && decide (g.field 61 1 < 16) &&
    match g.kind with
    | 0 | 1 | 2 | 3 => decide (g.p0 = 0 ∧ g.p1 = 0 ∧ g.p2 = 0)
    | 4 | 5 => decide (g.p1 < 2 ^ 25 ∧ g.p2 < 512 ∧ 1 ≤ g.p2 ∧ g.p2 ≤ 256)
    | 6 => decide (g.p2 = 0)
    | 7 | 8 => decide (1 ≤ g.p2)
    | 9 => true
    | _ => false

/-- Is the kind a rotary one? -/
def isRotary (g : Gen) : Bool := decide (g.kind = 4 ∨ g.kind = 5)

/-- The register is valid (R245). -/
def valid (g : Gen) : Bool := g.imageOk && (!g.isRotary || g.freq.isSome)

/-- A valid register of an operand kind (R245). -/
def operand (g : Gen) : Bool := g.valid && decide (g.kind ≠ 0)

/-- A valid register of a drawable kind (R245). -/
def drawable (g : Gen) : Bool := g.valid && decide (g.kind ≤ 3 ∨ g.kind = 9)

end Gen

namespace Flurry

/-- Left rotation of a 32-bit word (R246). -/
def rotl (x : BitVec 32) (n : Nat) : BitVec 32 := (x <<< n) ||| (x >>> (32 - n))

/-- Four 32-bit words. -/
structure Quad where
  a : BitVec 32
  b : BitVec 32
  c : BitVec 32
  d : BitVec 32
  deriving DecidableEq, Repr

/-- The words of a 128-bit value. -/
def Quad.of (x : Nat) : Quad :=
  ⟨BitVec.ofNat 32 x, BitVec.ofNat 32 (x >>> 32), BitVec.ofNat 32 (x >>> 64), BitVec.ofNat 32 (x >>> 96)⟩

/-- The 128-bit value of four words. -/
def Quad.nat (q : Quad) : Nat := q.a.toNat + q.b.toNat <<< 32 + q.c.toNat <<< 64 + q.d.toNat <<< 96

/-- Rotation amounts of one round and the key word it adds (R246): RA, RB, RCON and q mod 4. -/
def rounds : List (Nat × Nat × Nat × Nat) :=
  [(16, 12, 0x9E3779B9, 0), (8, 7, 0x3C6EF372, 1), (13, 19, 0xDAA66D2B, 2), (5, 24, 0x78DDE6E4, 3),
   (11, 21, 0x1715609D, 0), (16, 12, 0xB54CDA56, 1), (8, 7, 0x5384540F, 2), (13, 19, 0xF1BBCDC8, 3),
   (5, 24, 0x8FF34781, 0), (11, 21, 0x2E2AC13A, 1)]

/-- A key word. -/
def Quad.word (k : Quad) : Nat → BitVec 32
  | 0 => k.a | 1 => k.b | 2 => k.c | _ => k.d

/-- One round of Sastrugi (R246). -/
def round (k : Quad) (x : Quad) (r : Nat × Nat × Nat × Nat) : Quad :=
  let x0 := x.a + x.b
  let x3 := rotl (x.d ^^^ x0) r.1
  let x2 := x.c + x3
  let x1 := rotl (x.b ^^^ x2) r.2.1
  let x0' := x0 + k.word r.2.2.2 + BitVec.ofNat 32 r.2.2.1
  ⟨x1, x2, x3, x0'⟩

/-- Sastrugi (R246). -/
def sastrugi (key ctr : Nat) : Nat :=
  let k := Quad.of key
  let c := Quad.of ctr
  let x := rounds.foldl (round k) ⟨c.a ^^^ k.a, c.b ^^^ k.b, c.c ^^^ k.c, c.d ^^^ k.d⟩
  Quad.nat ⟨x.a + k.a, x.b + k.b, x.c + k.c, x.d + k.d⟩

/-- The system registers that the scope bits fold in (R247). -/
structure Place where
  taskid : Nat
  coord : Nat
  deriving DecidableEq, Repr

/-- EffKey (R247); n is the slot of the register. -/
def effKey (pl : Place) (g : Gen) (n : Nat) : Nat :=
  if g.scope = 0 then g.key
  else
    let s := g.scope
    let f := (if s.testBit 0 then (pl.taskid % 2 ^ 32) <<< 96 else 0) + (if s.testBit 1 then (g.field 62 2) <<< 80 else 0) +
      (if s.testBit 2 then (pl.coord % 2 ^ 48) <<< 32 else 0) + (if s.testBit 3 then n % 8 else 0) + s <<< 4
    sastrugi g.key f

/-- An integer coordinate plus an offset, modulo 2^48 (R248). -/
def off48 (i : Int) (o : Nat) : Nat := ((i + o) % ((2 ^ 48 : Nat) : Int)).toNat

/-- Ctr (R248): the counter and the offset coordinates. -/
def ctrAt (g : Gen) (i j : Int) : Nat × Nat × Nat :=
  let ii := off48 i (g.field 32 6)
  let jj := off48 j (g.field 38 6)
  ((ii <<< 80) + (jj <<< 32) + g.field 44 4, ii, jj)

/-- The number of one bits of a number below 2^w. -/
def popc (x : Nat) : Nat → Nat
  | 0 => 0
  | w + 1 => x % 2 + popc (x / 2) w

/-- Val(P): the exact FP32 value (R249). -/
def valP (p : Nat) : Exact := FloatFmt.f32.value p

/-- The fractional part of a finite value. -/
def frac (x : Exact) : Exact := Fn.subInt x (Fn.floor x)

/-- KindValue for every kind but BITS (R249), as an FP32 encoding's exact value. -/
def kindValue (pl : Place) (g : Gen) (n c ii jj : Nat) : Exact :=
  let k := effKey pl g n
  let o := sastrugi k c
  let mask (inside : Bool) : Exact := if inside then valP g.p0 else valP g.p1
  match g.kind with
  | 1 => if o % 2 = 0 then Exact.ofInt 1 else Exact.ofInt (-1)
  | 2 => (Exact.ofInt ((popc o 64 : Int) - 32)).shift (-2)
  | 3 => (Exact.ofInt ((popc o 128 + popc (sastrugi (k ^^^ 2 ^ 127) c) 128 : Int) - 128)).shift (-3)
  | 4 | 5 =>
    let f := valP ((g.freq.getD []).getD (jj / 2 % (if g.nf = 0 then 1 else g.nf)) 0).toNat
    match f with
    | .fin _ _ _ =>
      let y := Fn.N (frac (Fn.mul (Exact.ofInt ii) f))
      Fn.val (Fn.sinCos (decide (g.kind = 4)) y).1
    | _ => .nan
  | 6 => mask (decide (jj ≤ ii))
  | 7 => mask (decide (jj ≤ ii) && decide (ii - jj < g.p2))
  | 8 => mask (decide (ii / g.p2 = jj / g.p2))
  | 9 => mask (decide (o % 2 ^ 32 < g.p2))
  | _ => .nan

/-- The value of BITS: 128 bits (R249). -/
def bitsValue (pl : Place) (g : Gen) (n c : Nat) : Nat := sastrugi (effKey pl g n) c

/-- An operand read at logical coordinates (R250). -/
def operandValue (pl : Place) (g : Gen) (n : Nat) (i j : Int) : Exact :=
  let (c, ii, jj) := ctrAt g i j
  kindValue pl g n c ii jj

/-- GenBits (R250), the low 24 bits, as stochastic rounding uses them (R50). -/
def genBits (pl : Place) (g : Gen) (n : Nat) (i j : Int) : Nat :=
  sastrugi (effKey pl g n) (ctrAt g i j).1 % 2 ^ 24

/-- The random signs of the Hadamard instructions under key HSEED (R172, R250). -/
def sign (hseed : Nat) (i j : Int) : Bool :=
  let ii := off48 i 0
  let jj := off48 j 0
  decide (sastrugi hseed ((ii <<< 80) + (jj <<< 32)) % 2 = 1)

end Flurry

end Sys2Proof.Machine
end

