-- ==== Sys2Proof/Machine/State.lean ====
section
/-! DEFINITION. The state of one L480 package: its cores and their engines, the scratchpads, the memory of record and the
caches before it, the engine commands in flight and what the control node sees. Plain data throughout. -/

namespace Sys2Proof.Machine

/-- Why a step can stop. -/
inductive Fault where
  /-- A control-node write or an event names a unit that the package does not have (R14). Raised by the events. Safe: the
  spec gives such an input no effect. -/
  | noSuchUnit
  deriving DecidableEq, Repr

/-- Why an instruction has no meaning in the model. -/
inductive Refusal where
  /-- No meaning yet. Raised by the dispatch. Safe. -/
  | notModelled (mnemonic : String)
  deriving DecidableEq, Repr

/-- A token: what the pushing engine had issued and joined, and what was ordered before that (R83, R272). clk lists, for each
engine in tag order, how many of its instructions the token orders before its pop. -/
structure Token where
  clk : List Nat
  joined : List Nat
  deriving DecidableEq, Repr

/-- A control-queue entry: the outcome, target or count, and the unfrozen cycle from which it is available (R89, R113). -/
structure CtlEntry where
  val : Word
  avail : Nat
  deriving DecidableEq, Repr

/-- A request for one line of another package that an instruction has still to send (R345): its elements as (byte offset in the
register, offset in the line), and the data and generation of a store. -/
structure LineTodo where
  pkg : BitVec 48
  va : Nat
  elems : List (Nat × Nat)
  data : List Byte
  mask : BitVec 128
  gen : Option (BitVec 32)
  recAddr : Word
  deriving DecidableEq, Repr

/-- A translation: the canonical address, the physical address, the attribute and the permissions. -/
structure Trans where
  va : Nat
  phys : Nat
  attr : Nat
  perm : BitVec 3
  deriving DecidableEq, Repr

/-- The generation that a store carries, and where the record counts its drops: an address of an address space, seen from a
core for the windows (R161). -/
structure GenRef where
  gen : BitVec 32
  asid : BitVec 12
  core : Nat
  recAddr : Nat
  deriving DecidableEq, Repr

/-- Where the bytes of one line that an access has checked lie: a key of the scratchpads, or a translation. -/
inductive Spot where
  | spad (key : Nat)
  | mem (t : Trans)
  deriving DecidableEq, Repr

/-- Bytes of a store that has passed its checks and is not performed yet (R145): where they go, whether the store is non-temporal, and
its generation. -/
structure TornUnit where
  spot : Spot
  data : List Byte
  nt : Bool
  gen : Option GenRef
  deriving DecidableEq, Repr

/-- A tensor-index access with elements on other packages: what it has read, its requests to send and its requests in flight
by tag (R345, R346). -/
structure LineOp where
  write : Bool
  vd : Nat
  width : Nat
  lanes : Mask
  val : Nat
  todo : List LineTodo
  sent : List (Nat × List (Nat × Nat))
  /-- Elements here that a load has still to read, by byte offset, address and size, and what a store has still to perform here (R145). -/
  later : List (Nat × Nat × Nat) := []
  rest : List TornUnit := []
  deriving DecidableEq, Repr

/-- A scalar access of the sequencer that has issued and is not performed yet (R141, R142): its number, which of the sequencer's
instructions it is and what was ordered before it, its place and size, the type and register of a load, the bytes of a store with the
scope of a release, and the older accesses that it comes after. -/
structure Late where
  id : Nat
  at_ : Nat
  clk : List Nat
  joined : List Nat
  va : Nat
  size : Nat
  spot : Spot
  load : Option (Fmt × Nat)
  data : List Byte
  rel : Option Scope
  after : List Nat
  deriving DecidableEq, Repr

/-- What a word does to bytes of a scratchpad indivisibly at their bank (R150, R186, R190): an atomic operation, a compare and swap, and
the updates of a phase barrier and of a ring. -/
inductive BankOp where
  | amo (op : AmoOp) (ty : Fmt)
  | cas (ty : Fmt)
  | bar (arrive : Bool)
  | claim
  | fill
  | release
  deriving DecidableEq, Repr

/-- A register that a timed instruction writes, or the bytes of the scratchpad (R85). -/
inductive Dest where
  | s (n : Nat) | v (n : Nat) | acc (n : Nat) | m (n : Nat) | map (n : Nat) | shadow (n : Nat)
  /-- A generator register; where the write says what becomes of its frequency table, the table or its loss (R252, R257). -/
  | gen (n : Nat) (freq : Option (Option (List (BitVec 32))))
  | flags
  | spad (key : Nat)
  /-- An operation at a bank, whose operand stands in Pend.val, and the scalar register that receives its result, 0 for none (R85). -/
  | bank (key : Nat) (op : BankOp) (sd : Nat)
  /-- The format queue takes an entry, whose three words stand in Pend.val (R231). -/
  | fmtq
  deriving DecidableEq, Repr

/-- What a waiting instruction waits for, with the operands it read (R127, R129, R188 to R191, R217, R233, R316). -/
inductive Wait where
  | yield (left : Nat)
  | renq (sd : SReg) (core : Nat) (block : List Byte)
  | barrier (addr : Word) (phase : Bool)
  | word (addr : Word) (value : Word)
  | claim (sd : SReg) (ring : Word)
  | filled (ring : Word) (ticket : BitVec 32)
  | credit (sd : SReg) (region : Word) (words : List Word)
  | tuple (seq : BitVec 32) (sd : SReg) (take : Bool)
  | tried (seq : BitVec 32) (sd : SReg) (group : SReg)
  | withdrawn (seq : BitVec 32) (sd : SReg)
  | update (desc : Word) (block : List Byte) (pos n : Nat) (ty : Fmt) (g : Gen)
  | nestRoom (resume : Bool)
  | remote (i : Instr)
  | lines (op : LineOp)
  /-- A load wider than 8 bytes that has still to read some of its aligned 8-byte units, with the register that it writes, where, and what
  it has read; and a store that has still to perform some of its own, with its events and the chunk counter of a counted drain (R145). -/
  | tornLoad (dst : Dest) (bm val : Nat) (later : List (Nat × Nat × Nat))
  | tornStore (rest : List TornUnit) (events : Flags) (count : Option Nat)
  | ended
  deriving DecidableEq, Repr

/-- One engine of a core (R15, R67, R78, R83, R92, R119). -/
structure EngSt where
  /-- Program counter. -/
  pc : Word
  /-- Loop registers lc0 to lc3. -/
  lc : Bank Word
  /-- Walk count (R92). -/
  walk : Nat
  /-- Unfrozen cycle of the last issue (R84). -/
  last : Nat
  /-- Address of the taken transfer that led to the word at pc, or 0 (R119). -/
  src : Word
  /-- Control queue, oldest first (R89). -/
  ctl : List CtlEntry
  /-- Tokens popped by the word that is executing, with their queues; a trap puts them back (R8, R82). -/
  popped : List (Nat × Token)
  /-- Push mask of the word that is executing (R81). -/
  push : BitVec 5
  /-- Pushes of finished words that a full queue still holds up (R82). -/
  owed : BitVec 5
  /-- Control entries that a full control queue still holds up, with the tag of the queue's engine (R89). -/
  owedCtl : List (Nat × CtlEntry)
  /-- Timed latency of the word that is executing (R86). -/
  lat : Nat
  /-- A started waiting instruction. -/
  wait : Option Wait
  /-- Instructions issued. -/
  issued : Nat
  /-- For each engine, how many of its instructions are ordered before the next word of this one (R83). -/
  clk : List Nat
  /-- Commands and nests joined for this engine's next access (R272). -/
  joined : List Nat
  /-- The two before the word that is executing took its tokens. -/
  clk0 : List Nat
  joined0 : List Nat
  deriving DecidableEq, Repr

/-- An engine before any task runs. -/
def EngSt.zero : EngSt :=
  { pc := 0, lc := [], walk := 0, last := 0, src := 0, ctl := [], popped := [], push := 0, owed := 0, owedCtl := [], lat := 0, wait := none,
    issued := 0, clk := [], joined := [], clk0 := [], joined0 := [] }

/-- A write that lands later in timed mode (R85): the bits of val where bm has ones. -/
structure Pend where
  due : Nat
  dst : Dest
  bm : Nat
  val : Nat
  deriving DecidableEq, Repr

/-- A write of an interlocked instruction that some engine of the core is not ordered after (R83): which register, who wrote
it as which of its instructions, what the register held before, and what was written where the bits of bm are one. -/
structure Race where
  dst : Dest
  writer : Nat
  at_ : Nat
  old : Nat
  bm : Nat
  val : Nat
  deriving DecidableEq, Repr

/-- The general registers (R5, R68). -/
structure Regs where
  s : Bank Word
  v : Bank VReg
  acc : Bank Tile
  m : Bank Mask
  g : Bank Gen
  map : Bank (BitVec 256)
  deriving DecidableEq, Repr

/-- Every general register zero (R262). -/
def Regs.zero : Regs := ⟨[], [], [], [], [], []⟩

/-- The system registers of a core (R54, R80, R93, R266, R276, R283, R284), but for those that are package state. -/
structure Sys where
  timed : Bool
  det : Bool
  toklost : BitVec 8
  flags : Flags
  slip : BitVec 13
  wdLimit : BitVec 32
  wdCount : BitVec 32
  taskid : BitVec 32
  asid : BitVec 12
  cls : Bool
  urgent : Bool
  next : BitVec 32
  rmark : BitVec 32
  trapvec : Word
  /-- SYS.TRAPCAUSE, ACTIVE and OVF included (R283). -/
  cause : Word
  trapaddr : Word
  trapsrc : Word
  mxprog : Word
  /-- SYS.CORE.PART (R22). -/
  part : BitVec 16
  deriving DecidableEq, Repr

/-- The system registers at reset (R22, R54, R80, R93, R283). -/
def Sys.zero : Sys :=
  { timed := false, det := false, toklost := 0, flags := 0, slip := 0x100, wdLimit := 0, wdCount := 0, taskid := 0, asid := 0,
    cls := false, urgent := false, next := 0, rmark := 0, trapvec := 0, cause := 0, trapaddr := 0, trapsrc := 0, mxprog := 0,
    part := 0xFFFF }

/-- A task command block (R260). -/
structure Tcb where
  entry : Word
  arg : Word
  shapebase : Word
  taskid : BitVec 32
  asid : BitVec 12
  cls : Bool
  det : Bool
  urgent : Bool
  pred0 : Option (BitVec 32)
  pred1 : Option (BitVec 32)
  seqbase : BitVec 32
  pages : Nat
  wdog : BitVec 32
  deriving DecidableEq, Repr

/-- The empty block. -/
def Tcb.zero : Tcb := ⟨0, 0, 0, 0, 0, false, false, false, none, none, 0, 0, 0⟩

/-- Who enqueued a block: the control node under a launch number, or a task by renq, by its instance here, or by its request from another
package (R261, R265). -/
inductive Origin where
  | launch (part : BitVec 16) (num : BitVec 32)
  | renq (inst : Nat)
  | away (pkg : BitVec 48) (tag : Nat)
  deriving DecidableEq, Repr

/-- An entry of a task queue (R262). -/
structure QEntry where
  tcb : Tcb
  org : Origin
  deriving DecidableEq, Repr

/-- What a core is doing (R262, R286, R288, R298). -/
inductive Phase where
  | idle | running | handler
  /-- The task is being abandoned under this fault code, from a handler or not. -/
  | abandoning (code : BitVec 8) (inHandler : Bool)
  /-- The task is quiesced and its save is being written. -/
  | saving
  deriving DecidableEq, Repr

/-- A format word (R230). -/
structure FmtWord where
  w0 : Word
  w1 : Word
  w2 : Word
  deriving DecidableEq, Repr

/-- An entry of a task's event queue (R287): the image of SYS.TRAPCAUSE and the address. -/
structure AsyncEv where
  cause : Word
  addr : Word
  deriving DecidableEq, Repr

/-- What an idem word snapshots (R295). -/
structure Snapshot where
  lcs : List (Bank Word)
  g : Bank Gen
  map : Bank (BitVec 256)
  next : BitVec 32
  pend0 : Option (BitVec 32)
  pend1 : Option (BitVec 32)
  timed : Bool
  /-- Nests accepted before (R299). -/
  nests : Nat
  deriving DecidableEq, Repr

/-- The snapshot of a core without a task. -/
def Snapshot.zero : Snapshot := ⟨[], [], [], 0, none, none, false, 0⟩

/-- The held trap frame (R294), kept while the handler runs: positions, control occupancies and token counts stay in the
engines and queues themselves; the frame adds what the handler changes. -/
structure Frame where
  pcs : List Word
  occupancy : List Nat
  tokens : List Nat
  mode : Word
  /-- The sequencer's walk count, last transfer and pending pushes, put back by tret. -/
  sq : EngSt
  /-- Tag of the faulting engine, whether the trap was asynchronous, and whether the faulting word's tag is 6 (R291). -/
  eng : Nat
  isAsync : Bool
  tag6 : Bool
  deriving DecidableEq, Repr

/-- A write-combining buffer (R149): one 128-byte line, its physical address, the bytes it holds, each plus 256, and the
generation that its stores carry. -/
structure Combine where
  asid : BitVec 12
  line : Nat
  phys : Nat
  bytes : Bank Nat
  gen : Option GenRef
  deriving DecidableEq, Repr

/-- What the overlap checker holds of an unjoined command or nest (R272): its own number among the joinable things (twice its
id; one more joins it whole), its command number, the scratchpad bytes it may read and write as [from, to) keys, and its
completion object. -/
structure Mark where
  id : Nat
  seq : Option (BitVec 32)
  rd : Option (Nat × Nat)
  wr : Option (Nat × Nat)
  obj : Option Word
  preds : List (BitVec 32)
  deriving DecidableEq, Repr

/-- A remote access that a core has sent and that has not been answered (R345, R346): its tag, what it asked for, and whether
it writes. -/
structure RemoteOut where
  tag : Nat
  dest : BitVec 48
  write : Bool
  eng : Nat
  /-- The command that it belongs to, where it is not an instruction's. -/
  cmd : Option (BitVec 32)
  deriving DecidableEq, Repr

/-- A push that a nest makes (R235): the peer, the nest's id for its consumed push and one more for its finish push, and the token. -/
structure NestPush where
  peer : Nat
  tag : Nat
  token : Token
  deriving DecidableEq, Repr

/-- A 64-byte chunk that a nest has read before its turn: of operand A for a row of a step, or of operand B, here 1, for the tile of a step; its
number and its bytes (R242). -/
structure Ahead where
  op : Nat
  step : Nat
  row : Nat
  chunk : Nat
  data : List Byte
  deriving DecidableEq, Repr

/-- An accepted matrix nest (R233 to R240). It keeps its place in the queue until its finish pushes are made (R302). -/
structure Nest where
  /-- The 32 words of its table and its format word. -/
  table : List Word
  fw : FmtWord
  /-- Its number for joins (Mark.id) and its acceptance count. -/
  id : Nat
  nseq : Nat
  /-- Generator snapshots of A, of B and of the drain (R251). -/
  ga : Gen
  gb : Gen
  gd : Gen
  started : Bool
  /-- STEP, ROW, RL, DR with DLV (R239). -/
  step : Nat
  row : Nat
  rl : Bool
  dr : Option Nat
  /-- fresh by accumulator and the ordinal of the next drain (R223, R236). -/
  fresh : BitVec 16
  dord : Nat
  flags : Flags
  /-- Peers to which the consumed push is due or made, and to which the finish push was made before a resumption (R302). -/
  consumed : BitVec 5
  finished : BitVec 5
  /-- Chunks of 64 bytes that it has read already for rows and tiles to come, and the numbers of those that the drain under way has
  written already (R242). -/
  ahead : List Ahead
  drained : List Nat := []
  /-- Timed mode (R243): the cycle before which it does not start, the cycle in which it takes effect, whether its work is done, and
  the accumulator elements and drain bytes that take effect then. -/
  timed : Bool
  issue : Nat
  ends : Option Nat
  complete : Bool
  work : List Pend
  /-- Pushes of discarded nests that follow its finish push (R241). -/
  after : List NestPush
  /-- What the matrix engine had issued and was ordered after at acceptance. -/
  clk : List Nat
  joined : List Nat
  deriving DecidableEq, Repr

/-- The held tile: its format, extents and values, row by row (R224). Once lost it serves only the nest that was running then, which
no cancellation discards (R118, R241). -/
structure HeldTile where
  fmt : Fmt
  kv : Nat
  nv : Nat
  rows : List (List Exact)
  lost : Bool
  deriving DecidableEq, Repr

/-- Where a Moraine command is: still to be sent, in flight to its home, there, or on its way back to be sent again (R318). -/
inductive MState where
  | unsent | flying | home | bounced
  deriving DecidableEq, Repr

/-- A Moraine command that is not finished at its requester (R317 to R324). -/
structure MCmd where
  msg : MoraineMsg
  inst : Nat
  mesh : Bool
  preds : List (BitVec 32)
  st : MState
  /-- A withdrawal is to travel, or has travelled (R324). -/
  withdraw : Bool
  withdrawn : Bool
  /-- It was returned once (R264, R318). -/
  again : Bool
  /-- The address of the word, its SYNC field in interlocked mode, and the base of the group that a delivery writes. -/
  pc : Word
  sync : Nat
  group : SReg
  deriving DecidableEq, Repr

/-- A synchronous trap that has been met and is delivered once the other engines have finished what they have started (R285). -/
structure TrapHeld where
  eng : Nat
  code : BitVec 8
  arg : BitVec 16
  tag6 : Bool
  deriving DecidableEq, Repr

/-- A core: its engines, its registers, its task and its queues (R12, R15, R19). -/
structure Core where
  phase : Phase := .idle
  /-- The six engines by tag. -/
  eng : Bank EngSt := []
  /-- The token queues: from engine e to its peer k at 5e + k, oldest first (R81, R82). -/
  tok : Bank (List Token) := []
  regs : Regs := Regs.zero
  sys : Sys := Sys.zero
  /-- The bound of SYS.SLIP before its last write, which governs the words of the cycle of that write (R93). The model's own. -/
  slipWas : Option (Nat × BitVec 13) := none
  /-- Unfrozen cycles of the timed region (R84, R87). -/
  cyc : Nat := 0
  /-- Writes of timed instructions that have not landed (R85). -/
  pend : List Pend := []
  /-- Writes that some engine is not ordered after (R83). -/
  races : List Race := []
  /-- The running task's block, its instance number and its origin. -/
  tcb : Tcb := Tcb.zero
  inst : Nat := 0
  org : Origin := .renq 0
  /-- Cores that the task has run on before (R184, R303). -/
  ran : List Nat := []
  /-- Byte offset of the task window in the cluster scratchpad; its size is tcb.pages x 64 KiB (R132). -/
  winBase : Nat := 0
  /-- Region entry, descriptor image and snapshot (R120, R295). -/
  regionEntry : Word := 0
  regionDesc : BitVec 512 := 0
  snap : Snapshot := Snapshot.zero
  /-- A trap that waits for the engines (R285), and the held trap frame (R294). -/
  trapHeld : Option TrapHeld := none
  frame : Option Frame := none
  /-- The event queue (R287) and the mask of tmask (R293). -/
  events : List AsyncEv := []
  tmask : Bool := false
  /-- The oldest event is delivered as soon as the request for which the sequencer waits is withdrawn or answered; no engine starts a word
  until then (R285, R324). -/
  eventHeld : Bool := false
  /-- Pending predecessors (R269). -/
  pend0 : Option (BitVec 32) := none
  pend1 : Option (BitVec 32) := none
  /-- Numbered commands issued and not retired (R268). -/
  live : List (BitVec 32) := []
  /-- The shadow table and the format queue (R231, R232). -/
  shadow : Bank Word := []
  fmtq : List FmtWord := []
  /-- The nest queue, the held tile and the acceptance count (R224, R233, R239). -/
  nests : List Nest := []
  tile : Option HeldTile := none
  nestCount : Nat := 0
  /-- Pushes of nests that a full queue holds up, in their order (R82, R235); and the cycle in which the last nest of timed mode
  ended (R243). -/
  nestOwed : List NestPush := []
  nestEnd : Nat := 0
  /-- The model's own: what registers held before the timed writes that have landed since the nest at work started (R228, R243); and the cycle
  by which the timed scratchpad stores of the sequencer land (R143). -/
  nestRaces : List Race := []
  spadDue : Nat := 0
  /-- The four write-combining buffers (R149). -/
  wc : List Combine := []
  /-- Task queues by class, 8 entries each, oldest first (R262). -/
  queue0 : List QEntry := []
  queue1 : List QEntry := []
  /-- Scalar accesses of the sequencer that its queues hold, in issue order (R141, R142). -/
  late : List Late := []
  /-- Numbers of the die's buffered stores by other cores that happen before the sequencer's next access through earlier acquires; and what
  fences have released to its later stores: a scope, and the numbers that happen before the fence (R146, R147, R155). -/
  hb : List Nat := []
  fenced : List (Scope × List Nat) := []
  /-- What plain loads have read of releases of other cores, by core and number: a later acquiring fence takes it over (R155). -/
  loaded : List (Nat × Nat) := []
  /-- Overlap checker (R272). -/
  marks : List Mark := []
  /-- Remote accesses in flight (R346). -/
  remote : List RemoteOut := []
  /-- Moraine commands under way, in issue order; the deposits among them hold the credits that are taken (R317). -/
  mcmds : List MCmd := []
  deriving DecidableEq, Repr

/-- Whose turn it is: a core, a slot (engines 0 to 5, then 6 for an event) and a unit number (a command number or a
near-memory core) for the events that take one. -/
structure Cur where
  core : Nat
  slot : Nat
  unit : Nat
  deriving DecidableEq, Repr

/-- Service levels (R29, R30). -/
inductive Level where
  | boot | reduced | full | halted
  deriving DecidableEq, Repr

/-- A line of a die cache (R133): the page's permissions and attribute come with the fill. -/
structure DieLine where
  asid : BitVec 12
  line : Nat
  /-- The physical line. -/
  phys : Nat
  data : List Byte
  perm : BitVec 3
  attr : Nat
  deriving DecidableEq, Repr

/-- A line of an LLC slice as far as it serves accesses without translation: its tag, the physical line, and the permissions and
attribute from the fill (R133). Its bytes are those of State.hbm at the physical line, the package's one copy of record (R139). -/
structure SliceLine where
  asid : BitVec 12
  line : Nat
  phys : Nat
  perm : BitVec 3
  attr : Nat
  deriving DecidableEq, Repr

/-- A store on its way to its home slice (R139): the stream it came from, its line, the physical address of the line and
the bytes by offset in it. A byte entry holds the byte plus 256, so that a zero byte is listed too. -/
structure BufStore where
  stream : Nat
  asid : BitVec 12
  line : Nat
  phys : Nat
  bytes : Bank Nat
  gen : Option GenRef
  /-- Which of its engine's instructions it is, its number among the stores of the die, and whether it is non-temporal (R83, R147,
  R149). -/
  at_ : Nat := 0
  no : Nat := 0
  nt : Bool := false
  deriving DecidableEq, Repr

/-- A value that a release of a core wrote, with what an acquire that reads it takes over: the place, the scope, and the numbers of the
stores of the die that happen before the release and were still in the write buffer (R146). -/
structure Sync where
  spot : Nat
  size : Nat
  core : Nat
  scope : Scope
  nos : List Nat
  deriving DecidableEq, Repr

/-- A compute die's cache, write buffer and remap filter (R133, R134, R139). -/
structure Die where
  lines : List DieLine
  buf : List BufStore
  /-- (asid, synonym page) to canonical page, pages in units of 64 KiB. -/
  filter : List (BitVec 12 × Nat × Nat)
  /-- Stores that have entered the write buffer, and what releases narrower than the package have published (R146). -/
  entered : Nat := 0
  syncs : List Sync := []
  deriving DecidableEq, Repr

/-- An empty die cache. -/
def Die.zero : Die := { lines := [], buf := [], filter := [] }

/-- A translation that the controllers hold: the leaf of a 64 KiB page (R135, R138). -/
structure TransEntry where
  asid : BitVec 12
  page : Nat
  leaf : Word
  level : Nat
  deriving DecidableEq, Repr

/-- A partition-table entry (R374). -/
structure Part where
  cmask : BitVec 40
  part : BitVec 16
  valid : Bool
  leadHere : Bool
  lcore : Nat
  lpkg : BitVec 48
  deriving DecidableEq, Repr

/-- An entry that has not been written. -/
def Part.zero : Part := ⟨0, 0, false, false, 0, 0⟩

/-- A launch slot: the block and the busy bit of its doorbell (R263, R373). -/
structure LaunchSlot where
  block : List Byte
  busy : Bool
  /-- The launch number of an accepted block that waits for an entry. -/
  number : BitVec 32
  deriving DecidableEq, Repr

/-- A resume slot: the save-area address and the busy bit (R306, R373). -/
structure ResumeSlot where
  area : Word
  busy : Bool
  deriving DecidableEq, Repr

/-- A task that has been pre-empted: its return entry, or the entry of a resume slot (R264, R303, R306). The save area holds
the rest. -/
structure Saved where
  /-- The core it left, or of the slot, and its class. -/
  core : Nat
  cls : Bool
  /-- Only this core resumes it. -/
  fixed : Bool
  ready : Bool
  area : Nat
  inst : Nat
  org : Origin
  taskid : BitVec 32
  asid : BitVec 12
  /-- Window pages that it asks for. -/
  pages : Nat
  next : BitVec 32
  live : List (BitVec 32)
  /-- Cores that it has run on, and the offset at which its signal log starts (R305). -/
  ran : List Nat
  logAt : Nat
  /-- Events of its commands that came while it was saved (R287, R298). -/
  late : List AsyncEv
  /-- What the overlap checker holds of the commands and nests that no engine had joined, the key of the first byte of the window that
  they name, and the ids of the nests saved (R272). -/
  marks : List Mark := []
  winKey : Nat := 0
  nestIds : List Nat := []
  deriving DecidableEq, Repr

/-- An event-log record (R375). -/
structure LogRec where
  sid : Word
  sseq : BitVec 32
  kind : Nat
  code : BitVec 8
  inHandler : Bool
  task : BitVec 32
  aux : BitVec 32
  addr : Word
  deriving DecidableEq, Repr

/-- The 32 bytes of a record (R375). -/
def LogRec.bytes (r : LogRec) : List Byte :=
  toBytes 8 r.sid.toNat ++ toBytes 4 r.sseq.toNat ++ toBytes 2 r.kind ++ toBytes 1 r.code.toNat ++ toBytes 1 (if r.inHandler then 1 else 0) ++
    toBytes 4 r.task.toNat ++ toBytes 4 r.aux.toNat ++ toBytes 8 r.addr.toNat

/-- The event log: the ring in host memory as the device wrote it, by slot, its counts, and what the package holds (R375). -/
structure EventLog where
  base : Word := 0
  entries : Nat := 0
  head : Nat := 0
  tail : Nat := 0
  ring : List (Nat × LogRec) := []
  held : List LogRec := []
  lost : Nat := 0
  deriving DecidableEq, Repr

/-- What the ring holds in host memory: the address of each slot that has been written, 32 bytes after the one before, and its record
(R375). -/
def EventLog.image (l : EventLog) : List (Nat × List Byte) := l.ring.map fun x => (l.base.toNat + 32 * x.1, x.2.bytes)

/-- A chunk counter (R355). -/
structure ChunkCtr where
  count : BitVec 16
  expect : BitVec 16
  armed : Bool
  deriving DecidableEq, Repr

/-- A counter at dispatch. -/
def ChunkCtr.zero : ChunkCtr := ⟨0, 0, false⟩

/-- A group slot of a task (R349, R350): the member words, SELF, HOLD and the next call number. -/
structure Group where
  inst : Nat
  slot : Nat
  gtag : BitVec 32
  members : List Word
  self : Nat
  hold : Nat
  call : BitVec 32
  deriving DecidableEq, Repr

/-- A copy that has been issued and has not retired (R177 to R184). -/
structure Copy where
  core : Nat
  inst : Nat
  seq : BitVec 32
  /-- 0 cpld, 1 cpst, 2 cpg, 3 cpsc, 4 cpmem. -/
  kind : Nat
  /-- The descriptor, with CNT cleared and BOX0 as counted. -/
  desc : List Byte
  asid : BitVec 12
  /-- The shape record read at issue, its address, the map and the row indices of cpg and cpsc. -/
  shape : List Byte
  shapeAddr : Nat
  map : BitVec 256
  rows : List Int
  /-- Its predecessors as P0 and P1 named them (R269, R302). -/
  pred0 : Option (BitVec 32)
  pred1 : Option (BitVec 32)
  /-- It was issued again at a resumption: what it reads at issue it reads when it starts (R303). -/
  again : Bool
  /-- The copy engine, once it has started (R181). -/
  engine : Option Nat
  /-- Parts of the destination that have landed, as ranges [from, to) of their numbers, and their bytes. -/
  landed : List (Nat × Nat)
  bytes : Nat
  events : Flags
  /-- Its remote signal is under way (R184). -/
  signalled : Bool
  /-- Requests in flight to other packages, by tag, package and line (R345), and the lines that have come. -/
  asked : List (Nat × BitVec 48 × Nat) := []
  lines : List (BitVec 48 × Nat × List Byte) := []
  /-- The source bytes of a cpmem whose regions overlap, as they were when it started (R179). -/
  kept : List Byte := []
  /-- Its fault after issue and the address, while its writes to other packages are not yet performed (R143, R183). -/
  failing : Option (BitVec 8 × Nat) := none
  deriving DecidableEq, Repr

/-- What an adder keeps until the next hop has acknowledged its output: the port, the format, the packet that came and this package's
blocks; and whether the sum was refused and is to be formed again (R359). -/
structure HopKept where
  port : Nat
  fmt : Fmt
  input : Packet
  own : List Payload
  redo : Bool := false
  deriving DecidableEq, Repr

/-- A reshard of this package (R333 to R337). -/
structure Reshard where
  core : Nat
  inst : Nat
  seq : BitVec 32
  task : BitVec 32
  asid : BitVec 12
  tid : Nat
  /-- The record read at issue, its address, and what tells it apart. -/
  shape : List Byte
  shapeAddr : Nat
  key : Nat × Nat
  ms : Nat
  md : Nat
  mapS : BitVec 256
  mapD : BitVec 256
  dst : Nat
  obj : Nat
  prof : Nat
  /-- How many reshards of the tensor the task issued before (R334). -/
  ordinal : Nat
  preds : List (BitVec 32)
  /-- The task's tensor-index writes that were under way at issue: tags of remote accesses and numbers of copies; and whether the other
  packages have been shown the call since (R334). -/
  tags : List Nat := []
  writes : List (BitVec 32) := []
  /-- Engines whose word was still writing lines of the tensor at issue, each with the number of that word (R334). -/
  engs : List (Nat × Nat) := []
  /-- The task runs in deterministic mode (R34). -/
  det : Bool := false
  shown : Bool := false
  started : Bool
  /-- Positions of the destination buffer that have been written, as ranges. -/
  landed : List (Nat × Nat)
  switched : Bool
  events : Flags
  /-- Absent members since their hold window opened, and members whose part has ended by a fault (R334). -/
  absent : List (BitVec 48)
  faulted : List (BitVec 48) := []
  /-- Scale codes of an MX destination by block, that is position / 32, each plus 1: written at the switch. -/
  scales : Bank Nat
  deriving DecidableEq, Repr

/-- A collective call of this package's member (R351 to R355, R362 to R365). -/
structure Call where
  core : Nat
  inst : Nat
  seq : BitVec 32
  task : BitVec 32
  asid : BitVec 12
  /-- The descriptor, the PERM table and the generation of record GTID, as read at issue. -/
  desc : List Byte
  perm : List Nat
  gen : Option GenRef
  /-- The group as it was at issue, and the number of the call in it. -/
  grp : Group
  num : BitVec 32
  preds : List (BitVec 32)
  started : Bool
  /-- Chunks of the source that have been read, with their element bytes and scale bytes: what the member contributes and keeps. -/
  own : List (Nat × List Byte × List Byte)
  /-- Chunks complete at this member, and the element bytes written. -/
  complete : List Nat
  bytes : Nat
  events : Flags
  /-- Least chunk with a NaN and least chunk rescaled. -/
  nan : Option Nat
  rescaled : Option Nat
  /-- A member was absent and returned; and the members absent now. -/
  back : Bool
  absent : List (BitVec 48)
  /-- Members whose part has ended by a fault (R364). -/
  faulted : List (BitVec 48) := []
  deriving DecidableEq, Repr

/-- A fabric port (R341, R343): STATE, whether its link has failed (R342), the spare lane, RETRIES, and adder mismatches so far
(R359). -/
structure Port where
  st : Nat
  failed : Bool
  spare : Bool
  retries : BitVec 32
  mismatches : Nat
  deriving DecidableEq, Repr

/-- A port at reset: unconnected. -/
def Port.zero : Port := ⟨0, false, false, 0, 0⟩

/-- A near-memory launch that has not retired (R368 to R372). -/
structure Launch where
  core : Nat
  inst : Nat
  seq : BitVec 32
  task : BitVec 32
  asid : BitVec 12
  desc : List Byte
  preds : List (BitVec 32)
  /-- Near-memory cores that have still to start it, and those that run it. -/
  waiting : BitVec 24
  running : BitVec 24
  /-- Faults by core, lowest first, and the OR of the fflags of the cores that have ended. -/
  faults : List (Nat × BitVec 8 × Word)
  fflags : BitVec 5
  deriving DecidableEq, Repr

/-- A near-memory core (R366, R369): the launch that it runs, its registers, its reservation, and the end that its kernel has
met. -/
structure NmCore where
  launch : Option (Nat × BitVec 32) := none
  pc : Word := 0
  x : Bank Word := []
  f : Bank Word := []
  v : Bank (BitVec 1024) := []
  /-- fflags in [4:0] and frm in [7:5]. -/
  fcsr : BitVec 8 := 0
  vl : Nat := 0
  /-- vtype; none for vill. -/
  vtype : Option (BitVec 8) := none
  vstart : Nat := 0
  /-- vxsat in [0] and vxrm in [2:1]. -/
  vcsr : BitVec 3 := 0
  ended : Option KernelEnd := none
  deriving DecidableEq, Repr

/-- A declared Moraine region (R307). -/
structure MRegion where
  /-- The declaration slot. -/
  slot : Nat
  rid : Nat
  base : Nat
  size : Nat
  asid : BitVec 12
  mesh : Bool
  deriving DecidableEq, Repr

/-- A tuple of a bag: its region, its stamp, whether it is held, and the deposit that brought it (R314, R317). -/
structure MTuple where
  rid : Nat
  stamp : Nat
  held : Bool
  dep : MoraineMsg
  deriving DecidableEq, Repr

/-- A home slice: its stamp counter, the bags of its regions, its parked-request table in park order, and the commands of other packages
that it has returned and that have not come again, by package, task and number (R314 to R318). -/
structure MSlice where
  stamp : Nat
  bag : List MTuple
  parked : List MoraineMsg
  back : List (BitVec 48 × BitVec 32 × BitVec 32) := []
  deriving DecidableEq, Repr

/-- A slice after reset. -/
def MSlice.zero : MSlice := { stamp := 0, bag := [], parked := [] }

/-- What the package has sent to other packages. -/
inductive Out where
  | line (r : LineReq)
  | lineReply (pkg : BitVec 48) (core tag : Nat) (data : List Byte)
  | moraine (m : MoraineMsg)
  | moraineWithdraw (m : MoraineMsg)
  | moraineReply (m : MoraineRep)
  | signal (pkg : BitVec 48) (tag : Nat) (g : Signal)
  | signalDone (g : Signal) (ok : Bool)
  | renq (pkg : BitVec 48) (r : RenqReq)
  | renqDone (pkg : BitVec 48) (core tag status : Nat)
  /-- A command has retired that a block placed at a package names as its predecessor (R265). -/
  | retired (pkg : BitVec 48) (tag : Nat) (p : BitVec 32)
  /-- A part of a chunk of a call, from its first element or block on: at most 64 flits (R347, R352, R358). -/
  | chunk (pkg : BitVec 48) (call : BitVec 32) (gtag : BitVec 32) (chunk first : Nat) (data : List Payload)
  /-- A hub's answer to the sum of the previous hop, by the stamp of its packet: taken, or refused for its residue (R359). -/
  | hopAck (sid : Word) (sseq : BitVec 32) (ok : Bool)
  /-- A command of a task that has come here from another package has retired (R265). -/
  | moved (pkg : BitVec 48) (task : BitVec 32) (p : BitVec 32)
  | hello (pkg : BitVec 48) (h : CallHello)
  | reshard (h : ReshardHello)
  | packet (port : Nat) (p : Packet)
  /-- COLL_LOST for a member that has come back too late, or whose part has ended: the group tag and the call (R365). -/
  | lost (pkg : BitVec 48) (gtag call : BitVec 32)
  /-- This member's part of a call or a reshard has ended by a fault (R334, R364). -/
  | ended (pkg : BitVec 48) (gtag call : BitVec 32)
  /-- What the control node reads: bytes of the memory window, or an attestation report (R385, R377). -/
  | hostRead (off : Nat) (data : List Byte)
  | report (nonce : List Byte) (level : Level) (data : List Byte)
  deriving DecidableEq, Repr

/-- Something sent, with what its packet header says of it: TYPE, the virtual channel, the stamp of its source and the route (R280, R344,
R347). -/
structure Sent where
  type : Nat
  vc : Nat
  /-- LEN: the payload flits that follow the header (R347). -/
  len : Nat
  sid : Word
  sseq : BitVec 32
  nhop : Nat
  route : List (BitVec 16)
  out : Out
  deriving DecidableEq, Repr

/-- A predecessor that a block on another package waits for: the issuing task, the number, and the request that placed the block
(R265). A task that came from another package has no request here: its watches name its task id alone. -/
structure Watch where
  inst : Nat
  pred : BitVec 32
  pkg : BitVec 48
  task : BitVec 32
  tag : Option Nat
  deriving DecidableEq, Repr

/-- The package. -/
structure State where
  /-- Plain data that says which moves come next; with none left the cursor rotates. The model's own. -/
  agenda : List Move := []
  cur : Cur := ⟨0, 6, 0⟩
  /-- Rounds of the cursor, which say which of the events that need nothing from outside is next. The model's own. -/
  beat : Nat := 0
  /-- Counter behind the free values; every step advances it. The model's own. -/
  free : Nat := 0
  /-- Service level, its generation count and the arithmetic clock in MHz (R26, R29). -/
  level : Level := .boot
  gen : BitVec 32 := 0
  clock : Nat := 875
  /-- SYS.MESH and SYS.COORD (R22). -/
  mesh : Word := 0
  coord : Word := 0
  cores : Bank Core := []
  /-- Cluster scratchpads: byte b of cluster k at key k x 2^24 + b. -/
  spad : List Host.Cell := []
  /-- The package's copy of record by physical address (R139). -/
  hbm : List Host.Cell := []
  dies : Bank Die := []
  /-- Lines of the LLC slices (R133). -/
  llc : List SliceLine := []
  /-- Generation tags by physical line, each plus 1 (R161). -/
  tags : Bank Nat := []
  /-- Lines whose non-temporal stores are at their home slice and not yet in HBM: the storing core and the physical line (R149). -/
  ntDue : List (Nat × Nat) := []
  trans : List TransEntry := []
  /-- Page-table roots by address-space id: root in [56:16], valid in [0] (R131, R373). -/
  roots : Bank Word := []
  /-- Next task instance number and next number of a nest or command for joins. The model's own. -/
  nextInst : Nat := 1
  nextId : Nat := 1
  /-- Partition table (R374), next launch number and launches not retired by PART (R263). -/
  parts : Bank Part := []
  launchNext : Bank (BitVec 32) := []
  launchLive : List (BitVec 16 × BitVec 32) := []
  /-- Launch and resume slots (R373). -/
  slots : Bank LaunchSlot := []
  resumes : Bank ResumeSlot := []
  /-- Save-pool base, reshard reserve base, WINASID and WINVA (R300, R335, R373). -/
  savePool : Word := 0
  reserve : Word := 0
  winAsid : BitVec 12 := 0
  winVa : Word := 0
  /-- The event log and the event counts of the units, by class x 256 + number (R280, R375). -/
  log : EventLog := {}
  counts : Bank (BitVec 32) := []
  /-- Records of command events, by task instance, that wait until every command with a lower number has retired (R280). -/
  logWait : List (Nat × LogRec) := []
  /-- Pre-empted tasks (R264). -/
  saved : List Saved := []
  /-- Launch and retirement records of the launched tasks of a PART that wait for those of lower launch numbers (R280). -/
  launchWait : List (BitVec 16 × LogRec) := []
  /-- Chunk counters by task instance x 32 + number (R355), and counted drains whose bytes are in the die cache but which no
  counter has counted yet: the instance and the number. -/
  chunks : Bank ChunkCtr := []
  chunkDue : List (Nat × Nat) := []
  /-- Group slots (R350). -/
  groups : List Group := []
  /-- Moraine regions, home slices by number, and replies in flight inside this package (R307, R313, R314). -/
  regions : List MRegion := []
  slices : Bank MSlice := []
  mreplies : List MoraineRep := []
  /-- Copies and reshards that have not retired. -/
  copies : List Copy := []
  reshards : List Reshard := []
  /-- Reshards that a task has issued, by instance x 65536 + tensor (R334). -/
  ordinals : Bank Nat := []
  /-- Collective calls that have not retired, and near-memory launches in arrival order (R353, R369). -/
  calls : List Call := []
  launches : List Launch := []
  /-- Near-memory cores by number (R366). -/
  nmcs : Bank NmCore := []
  /-- Their reservations: the core, the physical address and the size of the datum (R366). -/
  resvs : List (Nat × Nat × Nat) := []
  /-- Fabric ports (R343) and the HBM stacks that have trained (R378). -/
  ports : Bank Port := []
  hbmUp : BitVec 12 := 0
  /-- Packets that the hubs hold, and packets that have been delivered to a unit of this package (R348). -/
  hub : List Packet := []
  inbox : List Packet := []
  /-- What the adders keep of sums that are not acknowledged yet, oldest first (R359). -/
  kept : List HopKept := []
  /-- Requests to enqueue that the hubs hold for a full queue, and those whose named predecessors this package watches or has been told
  of (R129, R265). -/
  renqs : List RenqReq := []
  watches : List Watch := []
  notices : List (BitVec 48 × Nat × BitVec 32) := []
  /-- Absent packages (R342), and calls that they have lost (R365): package, group tag and call. -/
  absent : List (BitVec 48) := []
  lost : List (BitVec 48 × BitVec 32 × BitVec 32) := []
  /-- The flash counter page, the version and the core map of the configuration image, with failed cores bound to spares (R376, R379). -/
  flash : Nat := 0
  version : Nat := 0
  coreMap : List Nat := []
  /-- The SHA-256 measurements of the firmware and of the configuration image (R376, R377). -/
  fwHash : BitVec 256 := 0
  imgHash : BitVec 256 := 0
  /-- Everything sent to other packages, oldest first. -/
  outbox : List Sent := []
  deriving DecidableEq, Repr

/-- The machine right after reset: boot level, nothing granted, nothing queued (R22, R26, R30). -/
def State.reset : State := {}

end Sys2Proof.Machine
end

