-- ==== Sys2Proof/Machine/Loop.lean ====
section
/-! DEFINITION. The loop-nest table: its fields, its iteration space and the cycles that a nest takes (R219 to R224, R230, R239,
R243). -/

namespace Sys2Proof.Machine

/-- A little-endian field of n bytes at an offset of a block. -/
def fieldAt (b : List Byte) (off n : Nat) : Nat := ofBytes ((b.drop off).take n)

/-- A table's 256 bytes with its format word. Operand 0 is A, 1 is B and 2 is the output. -/
structure Loop where
  b : List Byte
  fw : FmtWord
  deriving DecidableEq, Repr

namespace Loop

/-- The loop of 32 table words. -/
def of (table : List Word) (fw : FmtWord) : Loop := ⟨table.flatMap fun w => toBytes 8 w.toNat, fw⟩

/-- Source byte of an operand (R221). -/
def src (l : Loop) (i : Nat) : Nat := fieldAt l.b i 1
/-- KIND: address, registers or generator. -/
def kind (l : Loop) (i : Nat) : Nat := l.src i % 4
/-- GEN. -/
def genNo (l : Loop) (i : Nat) : Nat := l.src i / 4 % 8
/-- TRN. -/
def trn (l : Loop) (i : Nat) : Bool := (l.src i).testBit 5
/-- DIR = 1: reverse (R219). -/
def reverse (l : Loop) : Bool := (fieldAt l.b 2 1).testBit 0
/-- KEEPB. -/
def keepb (l : Loop) : Bool := (fieldAt l.b 2 1).testBit 1
/-- PROF. -/
def prof (l : Loop) : Nat := fieldAt l.b 2 1 / 4 % 16
/-- ACCBASE. -/
def accBase (l : Loop) : Nat := fieldAt l.b 3 1 % 16
/-- ACCN. -/
def accN (l : Loop) : Nat := fieldAt l.b 3 1 / 16 + 1
/-- MV. -/
def mv (l : Loop) : Nat := fieldAt l.b 4 1
/-- KV. -/
def kv (l : Loop) : Nat := fieldAt l.b 5 1
/-- NV. -/
def nv (l : Loop) : Nat := fieldAt l.b 6 1
/-- CCID. -/
def ccid (l : Loop) : Nat := fieldAt l.b 7 1 % 32
/-- CCEN. -/
def ccen (l : Loop) : Bool := (fieldAt l.b 7 1).testBit 5
/-- CPUSH. -/
def cpush (l : Loop) : BitVec 5 := BitVec.ofNat 5 (fieldAt l.b 8 1)
/-- FPUSH. -/
def fpush (l : Loop) : BitVec 5 := BitVec.ofNat 5 (fieldAt l.b 9 1)
/-- ABASE, BBASE or OBASE. -/
def base (l : Loop) (i : Nat) : Nat := fieldAt l.b (16 + 8 * i) 8
/-- ARS, BRS or ORS. -/
def rs (l : Loop) (i : Nat) : Nat := fieldAt l.b (40 + 4 * i) 4
/-- A field of a level record (R222). -/
def lev (l : Loop) (L off n : Nat) : Nat := fieldAt l.b (64 + 32 * L + off) n
/-- TRIP. -/
def trip (l : Loop) (L : Nat) : Nat := l.lev L 0 4
/-- An action bit of a level: 0 RELOAD, 1 FRESH, 2 DRAIN. -/
def act (l : Loop) (L n : Nat) : Bool := (l.lev L 4 1).testBit n
/-- ASTR, BSTR or OSTR. -/
def strd (l : Loop) (L i : Nat) : Int := signedOf 64 (l.lev L (8 + 8 * i) 8)
/-- AFMT, BFMT or OFMT (R230). -/
def fmt (l : Loop) (i : Nat) : Fmt :=
  (Fmt.ofCode (if i = 0 then slice l.fw.w0 4 0 else if i = 1 then slice l.fw.w0 9 5 else slice l.fw.w0 19 15)).getD .f32
/-- RM of a drain. -/
def rm (l : Loop) : RMode := (RMode.ofCode (slice l.fw.w0 22 20)).getD .rne
/-- G of a drain. -/
def drainGen (l : Loop) : Nat := slice l.fw.w0 25 23
/-- HAD. -/
def had (l : Loop) : Bool := bit l.fw.w0 26
/-- ASCALE or BSCALE. -/
def scaleBase (l : Loop) (i : Nat) : Nat := if i = 0 then l.fw.w1.toNat else l.fw.w2.toNat
/-- Contraction positions of a step (R219). -/
def cn (l : Loop) : Nat := if l.reverse then l.nv else l.kv
/-- Output columns of a step. -/
def oc (l : Loop) : Nat := if l.reverse then l.kv else l.nv

/-- The six levels. -/
def levels : List Nat := [0, 1, 2, 3, 4, 5]
/-- Product of the trip counts below a level: a level begins at the steps that it divides. -/
def below (l : Loop) (L : Nat) : Nat := ((levels.filter fun i => decide (i < L)).map l.trip).prod
/-- Steps of the nest. -/
def total (l : Loop) : Nat := l.below 6
/-- The level indices of a step, level 0 first (R239). -/
def digits (l : Loop) (step : Nat) : List Nat := levels.map fun L => step / l.below L % (if l.trip L = 0 then 1 else l.trip L)
/-- The lowest level with RELOAD, or 6. -/
def lowReload (l : Loop) : Nat := (levels.find? fun L => l.act L 0).getD 6
/-- The lowest level with DRAIN, or 6. -/
def lowDrain (l : Loop) : Nat := (levels.find? fun L => l.act L 2).getD 6
/-- The indices that count for W: those of the levels from the lowest RELOAD up. At a RELOAD the levels below it have not begun; a tile that
was lost is loaded from the same place, so that the nest's result is that of one that never stopped (R223, R240). -/
def wDigits (l : Loop) (step : Nat) : List Nat :=
  (levels.zip (l.digits step)).map fun x => if x.1 < l.lowReload then 0 else x.2
/-- The indices at and above a level (R223, DrainAddr). -/
def fromLevel (L : Nat) (idx : List Nat) : List Nat := (levels.zip idx).map fun x => if x.1 < L then 0 else x.2
/-- AddrX(i): an address or a register number (R223). -/
def place (l : Loop) (i : Nat) (idx : List Nat) : Int :=
  (l.base i : Int) + ((levels.zip idx).map fun x => l.strd x.1 i * (x.2 : Int)).sum
/-- The coordinates that a generator operand starts from (R229). -/
def coords (l : Loop) (i : Nat) (idx : List Nat) : Int × Int :=
  let part (sh : Nat) : Int := signedOf 32 (l.base i / 2 ^ sh) +
    ((levels.zip idx).map fun x => signedOf 32 (l.lev x.1 (8 + 8 * i) 8 / 2 ^ sh) * (x.2 : Int)).sum
  (part 0, part 32)
/-- The accumulator of a step (R223). -/
def accOf (l : Loop) (step : Nat) : Nat :=
  l.accBase + ((levels.zip (l.digits step)).map fun x => l.lev x.1 5 1 * x.2).sum % l.accN
/-- The levels with an action that begin at a step. -/
def begins (l : Loop) (step n : Nat) : Bool := levels.any fun L => l.act L n && decide (step % l.below L = 0)
/-- The drains after a step, inner levels first: a level drains after each of its iterations (R223). -/
def drainsAfter (l : Loop) (step : Nat) : List Nat := levels.filter fun L => l.act L 2 && decide ((step + 1) % l.below L = 0)
/-- The accumulators of the rotation, as a mask. -/
def rotation (l : Loop) : BitVec 16 := BitVec.ofNat 16 ((2 ^ l.accN - 1) * 2 ^ l.accBase)
/-- Bytes of a block of an MX format (R42). -/
def blockBytes (f : Fmt) : Nat := 4 * f.bits
/-- Streamed rows per cycle for a format (R63, R220). -/
def rate : Fmt → Nat
  | .e4m3 | .e5m2 | .mxi4 | .mxf8 => 4
  | .mxf4 => 8
  | _ => 1
/-- Rows per cycle of the nest (R64, R220). -/
def rho (l : Loop) : Nat := min (rate (l.fmt 0)) (rate (l.fmt 1))

/-- Numbers in [a, b) that n divides. -/
def multiples (n a b : Nat) : Nat := ceilDiv b n - ceilDiv a n

/-- Cycles of R243 for what remains of a nest; usable says that KEEPB finds its tile. -/
def span (l : Loop) (n : Nest) (usable : Bool) : Nat :=
  let loads :=
    if n.started then
      -- after a pending drain the next step loads what it begins with, or a tile that was lost (R223, R240)
      let begun := (levels.filter fun L => l.act L 0 && decide (n.step % l.below L = 0)).length
      let next := if n.dr.isSome ∧ n.step < l.total then (if begun = 0 ∧ usable = false then 1 else begun) else 0
      (if n.rl then 1 else 0) + next + ((levels.filter fun L => l.act L 0).map fun L => multiples (l.below L) (n.step + 1) l.total).sum
    else
      let all := ((levels.filter fun L => l.act L 0).map fun L => multiples (l.below L) 0 l.total).sum
      if l.keepb then all - (levels.filter fun L => l.act L 0).length + (if usable then 0 else 1)
      else if l.lowReload = 6 then 1 else all
  let rows := if n.step < l.total then ceilDiv (l.mv - n.row) l.rho + (l.total - n.step - 1) * ceilDiv l.mv l.rho else 0
  let later := ((levels.filter fun L => l.act L 2).map fun L => l.total / l.below L - n.step / l.below L).sum
  let pending := match n.dr with
    | some d => ((l.drainsAfter (n.step - 1)).filter fun L => decide (d ≤ L)).length
    | none => 0
  128 * loads + rows + 36 * l.accN * (later + pending) + 12

end Loop

/-- The loop of a nest. -/
def Nest.loop (n : Nest) : Loop := Loop.of n.table n.fw

/-- The array holds a tile of a nest's format and extents. -/
def Core.tileFits (k : Core) (l : Loop) : Bool :=
  match k.tile with
  | some t => decide (t.fmt = l.fmt 1 ∧ t.kv = l.kv ∧ t.nv = l.nv)
  | none => false

/-- The held tile serves a nest that starts (R224). -/
def Core.usable (k : Core) (l : Loop) : Bool := k.tileFits l && match k.tile with | some t => !t.lost | none => false

/-- The cycle in which the nest at the head starts in timed mode (R243). -/
def Core.nestStarts (k : Core) (n : Nest) : Nat := max n.issue k.nestEnd

end Sys2Proof.Machine
end

