-- ==== Sys2Proof/Machine/Memory.lean ====
section
/-! DEFINITION. Addresses, windows, page tables, die caches and the accesses that instructions and commands make (R9, R111,
R130 to R150). Nothing here is a step: every operation is a function of the state that a meaning calls. -/

namespace Sys2Proof.Machine

/-- Fault codes (R282). -/
abbrev Code := BitVec 8

namespace Code
/-- ILLEGAL -/
def illegal : Code := 0x01
/-- PROFILE -/
def profile : Code := 0x02
/-- FMTQ_EMPTY -/
def fmtqEmpty : Code := 0x03
/-- FMTQ_FULL -/
def fmtqFull : Code := 0x04
/-- ADDR_RANGE -/
def addrRange : Code := 0x05
/-- MISALIGN -/
def misalign : Code := 0x06
/-- TRANSLATION -/
def translation : Code := 0x07
/-- MORAINE_ACCESS -/
def moraineAccess : Code := 0x08
/-- ATOMIC_PAGE -/
def atomicPage : Code := 0x09
/-- TIMED_GLOBAL -/
def timedGlobal : Code := 0x0A
/-- OOB -/
def oob : Code := 0x0B
/-- BOUND -/
def bound : Code := 0x0C
/-- PARTIAL_READ -/
def partialRead : Code := 0x0D
/-- HALO_WRITE -/
def haloWrite : Code := 0x0E
/-- OVERLAP -/
def overlap : Code := 0x0F
/-- WATCHDOG -/
def watchdog : Code := 0x10
/-- IDEM_TOKENS -/
def idemTokens : Code := 0x11
/-- BARRIER -/
def barrier : Code := 0x12
/-- RING -/
def ring : Code := 0x13
/-- SOFTWARE -/
def software : Code := 0x14
/-- MAP_LOCKED -/
def mapLocked : Code := 0x15
/-- NMC_WINDOW -/
def nmcWindow : Code := 0x16
/-- COLL_MISMATCH -/
def collMismatch : Code := 0x17
/-- COLL_LOST -/
def collLost : Code := 0x18
/-- TARGET_ABSENT -/
def targetAbsent : Code := 0x19
end Code

/-- Base of the task window (R132). -/
def taskWindow : Nat := 0x01FFFF0000000000
/-- Base of the cluster window (R132). -/
def clusterWindow : Nat := 0x01FFFF0100000000
/-- Size of the cluster window and of the largest task window (R132). -/
def windowSize : Nat := 0x1000000

/-- What an access does. -/
inductive Kind where
  | read | write | fetch | atomic
  deriving DecidableEq, Repr

/-- Where an address leads: bytes of a cluster scratchpad by key, or global memory. -/
inductive Place where
  | spad (key : Nat)
  | glob
  deriving DecidableEq, Repr

/-- The cluster of a core (R14). -/
def clusterOf (core : Nat) : Nat := core / 4

/-- The compute die of a core (R14). -/
def dieOf (core : Nat) : Nat := core / 20

namespace State

/-- A core of the package. -/
def core (s : State) (c : Nat) : Core := Bank.get {} s.cores c

/-- Replaces a core. -/
def setCore (s : State) (c : Nat) (k : Core) : State := { s with cores := Bank.set {} s.cores c k }

/-- The core under the cursor. -/
def here (s : State) : Core := s.core s.cur.core

/-- Changes the core under the cursor. -/
def upd (s : State) (f : Core → Core) : State := s.setCore s.cur.core (f s.here)

/-- A compute die. -/
def die (s : State) (d : Nat) : Die := Bank.get Die.zero s.dies d

/-- Replaces a compute die. -/
def setDie (s : State) (d : Nat) (x : Die) : State := { s with dies := Bank.set Die.zero s.dies d x }

end State

/-- An address lies in a scratchpad window (R132). -/
def inScratch (va : Nat) : Bool :=
  decide (taskWindow ≤ va ∧ va < taskWindow + windowSize ∨ clusterWindow ≤ va ∧ va < clusterWindow + windowSize)

/-- The window checks of R111, R130 and R132 for n bytes at va, of a core whose task window has a base and a size. -/
def window (c : Nat) (k : Core) (va n : Nat) : Except Code Place :=
  if 2 ^ 57 ≤ va then .error .addrRange
  else if taskWindow ≤ va ∧ va < taskWindow + windowSize then
    if va - taskWindow + n ≤ k.tcb.pages * 65536 then
      .ok (.spad (clusterOf c * windowSize + k.winBase + (va - taskWindow)))
    else .error .translation
  else if clusterWindow ≤ va ∧ va < clusterWindow + windowSize then
    if va - clusterWindow + n ≤ windowSize then .ok (.spad (clusterOf c * windowSize + (va - clusterWindow)))
    else .error .translation
  else .ok .glob

/-- A field of a page-table entry or another word. -/
def wfield (w : Word) (hi lo : Nat) : Nat := slice w hi lo

/-- Bytes of one leaf's page at a level (R136). -/
def pageSize : Nat → Nat
  | 2 => 2 ^ 30
  | 1 => 2 ^ 21
  | _ => 2 ^ 16

/-- The index that a level takes from a virtual address (R136). -/
def tableIndex (lvl va : Nat) : Nat :=
  match lvl with
  | 4 => nslice va 56 48 | 3 => nslice va 47 39 | 2 => nslice va 38 30 | 1 => nslice va 29 21 | _ => nslice va 20 16

/-- A leaf found by a walk: the entry and its level. -/
structure Leaf where
  entry : Word
  level : Nat
  deriving DecidableEq, Repr

namespace Leaf
/-- FRAME as an address. -/
def frame (l : Leaf) : Nat := wfield l.entry 56 16 * 65536
/-- ALIAS. -/
def isAlias (l : Leaf) : Bool := bit l.entry 8
/-- ATTR (R137). -/
def attr (l : Leaf) : Nat := wfield l.entry 7 5
/-- Permissions: read 1, write 2, execute 4. -/
def perm (l : Leaf) : BitVec 3 := BitVec.ofNat 3 (wfield l.entry 4 2)
/-- FRAME plus the offset within the leaf's page. -/
def address (l : Leaf) (va : Nat) : Nat := l.frame + va % pageSize l.level
end Leaf

/-- One entry of a page table (R136): a failure or a leaf on the left, the next table's address on the right. -/
def walkEntry (hbm : List Host.Cell) (base va lvl : Nat) : Sum (Except Code Leaf) Nat :=
  let e : Word := BitVec.ofNat 64 (ofBytes (Bank.getRun 0 hbm (base + 8 * tableIndex lvl va) 8))
  if bit e 0 = false ∨ wfield e 63 57 ≠ 0 ∨ wfield e 15 9 ≠ 0 then .inl (.error .translation)
  else if bit e 1 then
    if 3 ≤ lvl ∨ wfield e 56 16 * 65536 % pageSize lvl ≠ 0 ∨ 5 ≤ wfield e 7 5 then .inl (.error .translation)
    else .inl (.ok ⟨e, lvl⟩)
  else .inr (wfield e 56 16 * 65536)

/-- The walk of a page table from a table of a level at a physical address (R136). -/
def walk (hbm : List Host.Cell) (base va : Nat) : Nat → Except Code Leaf
  | 0 =>
    match walkEntry hbm base va 0 with
    | .inl r => r
    | .inr _ => .error .translation
  | l + 1 =>
    match walkEntry hbm base va (l + 1) with
    | .inl r => r
    | .inr next => walk hbm next va l

/-- The walk of an address space (R131, R136). -/
def walkSpace (s : State) (asid : BitVec 12) (va : Nat) : Except Code Leaf :=
  let root := Bank.get 0 s.roots asid.toNat
  if bit root 0 then walk s.hbm (wfield root 56 16 * 65536) va 4 else .error .translation

/-- The leaf that a walk of an address finds: where the controllers still hold older ones for the page, the device takes the one in the
table or one of those (R135, R138). -/
def leafChoice (s : State) (asid : BitVec 12) (va : Nat) : Except Code Leaf :=
  let new := walkSpace s asid va
  let olds := (s.trans.filter fun t => t.asid = asid ∧ t.page = va / 65536).map fun t => Except.ok ⟨t.leaf, t.level⟩
  match olds.filter fun o => decide (o ≠ new) with
  | [] => new
  | o :: os => (new :: o :: os).getD (Config.pick s.free va % (os.length + 2)) new

/-- The translation of a canonical or synonym address, with one alias resolved (R134, R136). -/
def translateFresh (s : State) (asid : BitVec 12) (va : Nat) : Except Code Trans :=
  match leafChoice s asid va with
  | .error c => .error c
  | .ok l =>
    if l.isAlias then
      match leafChoice s asid (l.address va) with
      | .error c => .error c
      | .ok l' =>
        if l'.isAlias then .error .translation
        else .ok ⟨l.address va, l'.address (l.address va), l'.attr, l'.perm⟩
    else .ok ⟨va, l.address va, l.attr, l.perm⟩

/-- CanonVA: the remap filter of a die (R9, R134). -/
def canonVA (s : State) (d : Nat) (asid : BitVec 12) (va : Nat) : Nat :=
  match (s.die d).filter.find? fun f => f.1 = asid ∧ f.2.1 = va / 65536 with
  | some f => f.2.2 * 65536 + va % 65536
  | none => va

/-- The line of an LLC slice that holds a canonical address, as a translation (R133). -/
def sliceHit (s : State) (asid : BitVec 12) (cva : Nat) : Option Trans :=
  (s.llc.find? fun l => decide (l.asid = asid) && decide (l.line = cva / 128)).map fun l =>
    ⟨cva, l.phys * 128 + cva % 128, l.attr, l.perm⟩

/-- How an access from a die that misses in its die cache finds its bytes: a hit in the home slice needs no translation (R133); an
alias is re-sent under its canonical address, where it may hit (R134). -/
def translate (s : State) (d : Nat) (asid : BitVec 12) (va : Nat) : Except Code Trans :=
  if s.level ≠ .full then .error .translation
  else
    let cva := canonVA s d asid va
    match sliceHit s asid cva with
    | some t => .ok t
    | none =>
      match translateFresh s asid cva with
      | .error c => .error c
      | .ok t => .ok ((sliceHit s asid t.va).getD t)

/-- HomeSlice (R9) of a canonical address. -/
def homeSlice (asid : BitVec 12) (va : Nat) : Nat :=
  let v := asid.toNat <<< 50 + nslice va 56 7
  let f := nslice v 15 0 ^^^ nslice v 31 16 ^^^ nslice v 47 32 ^^^ nslice v 61 48
  (f * 192) >>> 16

/-- HomeSlice of an address that a die uses, after its remap filter (R9). -/
def homeOf (s : State) (d : Nat) (asid : BitVec 12) (va : Nat) : Nat := homeSlice asid (canonVA s d asid va)

/-- The hub die of a slice and its number there (R9). -/
def sliceAt (n : Nat) : Nat × Nat := (n / 48, n % 48)

/-- The permission bit that a kind of access needs; an atomic is checked as a write (R152). -/
def Kind.bit : Kind → Nat
  | .read => 0 | .write => 1 | .fetch => 2 | .atomic => 1

/-- The page checks of R111 and R150 on a translation. -/
def pageCheck (kind : Kind) (t : Trans) : Except Code Trans :=
  if t.attr = 1 then .error .translation
  else if !(bit t.perm kind.bit) then .error .translation
  else if t.attr = 2 then .error .moraineAccess
  else if t.attr = 4 && kind = .atomic then .error .atomicPage
  else .ok t

/-- The line of a die cache that holds an address, if present. -/
def dieLine (s : State) (d : Nat) (asid : BitVec 12) (cva : Nat) : Option DieLine :=
  (s.die d).lines.find? fun l => l.asid = asid ∧ l.line = cva / 128

/-- Translation and checks for one line: a hit in the die cache needs no translation and brings its own permissions (R133). -/
def lineAccess (s : State) (d : Nat) (asid : BitVec 12) (va : Nat) (kind : Kind) : Except Code Trans :=
  if s.level ≠ .full then .error .translation
  else
    let cva := canonVA s d asid va
    match dieLine s d asid cva with
    | some l =>
      match pageCheck kind ⟨cva, 0, l.attr, l.perm⟩ with
      | .error c => .error c
      | .ok t => .ok { t with phys := l.phys * 128 + cva % 128 }
    | none =>
      match translate s d asid va with
      | .error c => .error c
      | .ok t => pageCheck kind t

/-- Overlays the bytes of a buffered store on 128 bytes of a line. -/
def overlay (b : Bank Nat) (l : List Byte) : List Byte :=
  (List.range l.length).zipWith (fun i x => let y := Bank.get 0 b i; if y = 0 then x else BitVec.ofNat 8 y) l

/-- The 128 bytes of a line as its home slice holds them. -/
def homeLine (s : State) (phys : Nat) : List Byte := Bank.getRun 0 s.hbm (phys / 128 * 128) 128

/-- The 128 bytes that a load from a die sees: the die's copy, or the home's under the die's own buffered stores (R139). -/
def viewLine (s : State) (d : Nat) (asid : BitVec 12) (t : Trans) : List Byte :=
  match dieLine s d asid t.va with
  | some l => l.data
  | none =>
    ((s.die d).buf.filter fun b => b.phys = t.phys / 128 * 128).foldl (fun l b => overlay b.bytes l) (homeLine s t.phys)

/-- A load's line enters the die cache; lines of a write-combining page do not (R133, R137). -/
def fill (s : State) (d : Nat) (asid : BitVec 12) (t : Trans) : State :=
  match dieLine s d asid t.va with
  | some _ => s
  | none =>
    if t.attr = 4 then s
    else
      let x := s.die d
      s.setDie d { x with lines := ⟨asid, t.va / 128, t.phys / 128, viewLine s d asid t, t.perm, t.attr⟩ :: x.lines }

/-- Keeps the leaf that a walk has used in the controllers' caches, an alias too (R134, R135). -/
def keepTrans (s : State) (asid : BitVec 12) (va : Nat) : State :=
  match leafChoice s asid va with
  | .ok l =>
    let e : TransEntry := ⟨asid, va / 65536, l.entry, l.level⟩
    if s.trans.contains e then s else { s with trans := e :: s.trans }
  | .error _ => s

/-- The remap filter of a die with a mapping of pages: 1,024 entries, of which the device drops one where it needs room (R134). -/
def installAlias (tick : Nat) (l : List (BitVec 12 × Nat × Nat)) (asid : BitVec 12) (page canon : Nat) : List (BitVec 12 × Nat × Nat) :=
  if page = canon ∨ l.any (fun f => f.1 = asid ∧ f.2.1 = page) then l
  else (asid, page, canon) :: (if l.length < 1024 then l else l.eraseIdx (Config.pick tick page % 1024))

/-- What an access leaves behind it beyond the die: the translation at the controller, and the line in its LLC slice unless the access
allocates in no cache (R133, R135, R149). -/
def learnHome (s : State) (asid : BitVec 12) (t : Trans) (alloc : Bool := true) : State :=
  if (sliceHit s asid t.va).isSome then s
  else
    let s := keepTrans s asid t.va
    if t.attr = 4 || !alloc then s else { s with llc := ⟨asid, t.va / 128, t.phys / 128, t.perm, t.attr⟩ :: s.llc }

/-- What an access from a die leaves behind it: where it met an alias, the alias leaf at the controller and the mapping in the die's remap
filter, also where the line is then found in the die cache (R134, R135). -/
def learn (s : State) (d : Nat) (asid : BitVec 12) (va : Nat) (t : Trans) (alloc : Bool := true) : State :=
  let walked := decide (canonVA s d asid va / 65536 ≠ t.va / 65536)
  let s := if walked then keepTrans s asid va else s
  let x := s.die d
  let s := s.setDie d { x with filter := installAlias s.free x.filter asid (va / 65536) (t.va / 65536) }
  match dieLine s d asid t.va with
  | some _ => s
  | none => learnHome s asid t alloc

/-- The bytes of a write-combining buffer of this core over a line (R149). -/
def combined (k : Core) (asid : BitVec 12) (cva : Nat) (l : List Byte) : List Byte :=
  (k.wc.filter fun b => b.asid = asid ∧ b.line = cva / 128).foldl (fun l b => overlay b.bytes l) l

/-- A piece of an access within one line: the address and the number of bytes. -/
abbrev Piece := Nat × Nat

/-- Cuts n bytes at va into pieces, one for each 128-byte line. -/
def pieces : Nat → Nat → Nat → List Piece
  | 0, _, _ => []
  | _ + 1, _, 0 => []
  | f + 1, va, n => let m := min n (128 - va % 128); (va, m) :: pieces f (va + m) (n - m)

/-- The check of one piece of an access by a core's task. An access that begins below a window can reach into it: a piece that lies in
a window resolves there, and no line straddles a window's base (R132). -/
def checkPiece (s : State) (c : Nat) (asid : BitVec 12) (kind : Kind) (p : Piece) : Option Code :=
  match window c (s.core c) p.1 p.2 with
  | .error x => some x
  | .ok (.spad _) => none
  | .ok .glob =>
    match lineAccess s (dieOf c) asid p.1 kind with
    | .error x => some x
    | .ok _ => none

/-- Of several faults that one access meets the one with the lowest code (R383). -/
def leastFault : Option Code → Option Code → Option Code
  | none, b => b
  | some a, none => some a
  | some a, some b => some (if b.toNat < a.toNat then b else a)

/-- The fault of an access by a core's task, over all its pieces (R111, R383). -/
def pieceFault (s : State) (c : Nat) (asid : BitVec 12) (kind : Kind) : List Piece → Option Code
  | [] => none
  | p :: r => leastFault (checkPiece s c asid kind p) (pieceFault s c asid kind r)

/-- The checks of every piece of an access by a core's task. -/
def checkPieces (s : State) (c : Nat) (asid : BitVec 12) (kind : Kind) (l : List Piece) : Except Code Unit :=
  match pieceFault s c asid kind l with
  | some x => .error x
  | none => .ok ()

/-- Reads the pieces of a checked access, filling the die cache. -/
def readPieces (c : Nat) (asid : BitVec 12) : List Piece → State → List Byte × State
  | [], s => ([], s)
  | (va, n) :: r, s =>
    let d := dieOf c
    match window c (s.core c) va n with
    | .error _ => ([], s)
    | .ok (.spad key) =>
      let (bs, s) := readPieces c asid r s
      (Bank.getRun 0 s.spad key n ++ bs, s)
    | .ok .glob =>
      match lineAccess s d asid va .read with
      | .error _ => ([], s)
      | .ok t =>
        let l := combined (s.core c) asid t.va (viewLine s d asid t)
        let s := fill (learn s d asid va t) d asid t
        let (bs, s) := readPieces c asid r s
        ((l.drop (t.va % 128)).take n ++ bs, s)

/-- Marks bytes for a buffered store: offset and byte plus 256. -/
def markBytes (off : Nat) (bs : List Byte) : Bank Nat := Bank.setRun 0 [] off (bs.map fun b => b.toNat + 256)

/-- Writes the bytes of a buffered store to memory. -/
def landBytes (hbm : List Host.Cell) (phys : Nat) : Bank Nat → List Host.Cell
  | [] => hbm
  | (o, b) :: r => landBytes (Bank.set 0 hbm (phys + o) (BitVec.ofNat 8 b)) phys r

/-- The copy of record changes, by a store to n bytes at a physical address: reservations of near-memory cores there are lost (R139,
R366). -/
def homeTo (s : State) (hbm : List Host.Cell) (a n : Nat) : State :=
  { s with hbm := hbm, resvs := s.resvs.filter fun r => decide (r.2.1 + r.2.2 ≤ a ∨ a + n ≤ r.2.1) }

/-- Bytes are stored in the copy of record. -/
def putHome (s : State) (a : Nat) (bs : List Byte) : State := homeTo s (Bank.setRun 0 s.hbm a bs) a bs.length

/-- The marked bytes of a line are stored in the copy of record. -/
def landHome (s : State) (phys : Nat) (bytes : Bank Nat) : State := homeTo s (landBytes s.hbm phys bytes) phys 128

/-- Adds 1 to the drop count of a shape record, as a package-scope reduction (R161). -/
def countDrop (s : State) (g : GenRef) : State :=
  let va := g.recAddr + 84
  match window g.core (s.core g.core) va 4 with
  | .ok (.spad key) =>
    let n := ofBytes (Bank.getRun 0 s.spad key 4)
    { s with spad := Bank.setRun 0 s.spad key (toBytes 4 (n + 1)) }
  | .ok .glob =>
    match translate s (dieOf g.core) g.asid va with
    | .ok t =>
      let n := ofBytes (Bank.getRun 0 s.hbm t.phys 4)
      putHome s t.phys (toBytes 4 (n + 1))
    | .error _ => s
  | .error _ => s

/-- The generation check of a store at a physical line (R161): goes through with the line's new tag, or is dropped. -/
def admitGen (s : State) (line : Nat) (g : Option GenRef) : Bool × State :=
  match g with
  | none => (true, s)
  | some r =>
    let old := Bank.get 0 s.tags line
    if old ≠ 0 ∧ 2 ^ 31 ≤ (r.gen - BitVec.ofNat 32 (old - 1)).toNat then (false, countDrop s r)
    else (true, { s with tags := Bank.set 0 s.tags line (r.gen.toNat + 1) })

/-- Entry n of a die's write buffer reaches its home slice. A store that the generation check drops leaves no copy behind in
the die cache. -/
def drainAt (s : State) (d n : Nat) : State :=
  let x := s.die d
  match x.buf[n]? with
  | none => s
  | some b =>
    let (ok, s) := admitGen s (b.phys / 128) b.gen
    if ok then
      let s := if b.nt then { s with ntDue := s.ntDue ++ [(b.stream / 6, b.phys / 128)] } else s
      (landHome s b.phys b.bytes).setDie d { x with buf := x.buf.eraseIdx n }
    else s.setDie d { x with buf := x.buf.eraseIdx n, lines := x.lines.filter fun l => decide (l.phys ≠ b.phys / 128) }

/-- The n oldest entries of a die's write buffer reach home, oldest first. -/
def drainOldest (d : Nat) : Nat → State → State
  | 0, s => s
  | n + 1, s => drainOldest d n (drainAt s d 0)

/-- The first entry of a write buffer that has to reach home before one that is needed can: the oldest of its line (R139). -/
def neededAt (buf : List BufStore) (need : BufStore → Bool) : Option Nat :=
  buf.findIdx? fun b => buf.any fun x => decide (x.phys = b.phys) && need x && decide (b.no ≤ x.no)

/-- The buffered stores of a die that are needed reach home, each after the older stores to its line (R139, R147). -/
def drainNeeded (d : Nat) (need : BufStore → Bool) : Nat → State → State
  | 0, s => s
  | n + 1, s =>
    match neededAt (s.die d).buf need with
    | some i => drainNeeded d need n (drainAt s d i)
    | none => s

/-- Every buffered store of a die reaches its home slice. -/
def drainDie (s : State) (d : Nat) : State := drainOldest d (s.die d).buf.length s

/-- The buffered stores of one line reach home, in the order in which they entered (R139). -/
def drainLine (d phys : Nat) : Nat → State → State
  | 0, s => s
  | n + 1, s =>
    match (s.die d).buf.findIdx? fun b => decide (b.phys = phys) with
    | some i => drainLine d phys n (drainAt s d i)
    | none => s

/-- Room in a die's write buffer for a store to a line: the buffer holds stores of 16 lines, and where a further line needs room the
line of the oldest store goes home (R139). -/
def makeRoom (s : State) (d phys : Nat) : State :=
  let buf := (s.die d).buf
  if buf.length < 16 ∨ (buf.any fun b => decide (b.phys = phys)) = true ∨ (buf.map fun b => b.phys).eraseDups.length < 16 then s
  else
    match buf with
    | b :: _ => drainLine d b.phys buf.length s
    | [] => s

/-- Puts bytes of one line into a die's write buffer (R139). -/
def bufStore (s : State) (d stream : Nat) (asid : BitVec 12) (t : Trans) (bs : List Byte) (gen : Option GenRef := none) (nt : Bool := false) :
    State :=
  let s := makeRoom s d (t.phys / 128 * 128)
  let x := s.die d
  let at_ := (Bank.get EngSt.zero (s.core (stream / 6)).eng (stream % 6)).issued
  let e : BufStore := ⟨stream, asid, t.va / 128, t.phys / 128 * 128, markBytes (t.va % 128) bs, gen, at_, x.entered, nt⟩
  s.setDie d { x with buf := x.buf ++ [e], entered := x.entered + 1 }

/-- Replaces bytes of a line held by a die cache. -/
def patchLine (s : State) (d : Nat) (asid : BitVec 12) (cva : Nat) (bs : List Byte) : State :=
  let x := s.die d
  s.setDie d { x with lines := x.lines.map fun l =>
    if l.asid = asid ∧ l.line = cva / 128 then { l with data := overlay (markBytes (cva % 128) bs) l.data } else l }

/-- The bytes of a write-combining buffer reach their home slice, unless the generation check drops them (R149, R161). -/
def landCombine (s : State) (b : Combine) : State :=
  let (ok, s) := admitGen s (b.phys / 128) b.gen
  if ok then landHome s b.phys b.bytes else s

/-- The write-combining buffers of a core that meet a condition drain, oldest first (R149). -/
def drainWc (s : State) (c : Nat) (p : Combine → Bool) : State :=
  let k := s.core c
  ((k.wc.filter p).foldl landCombine s).setCore c { k with wc := k.wc.filter fun b => !p b }

/-- The oldest of a core's four write-combining buffers drains where all are in use (R149). -/
def drainOldestWc (s : State) (c : Nat) : State :=
  match (s.core c).wc with
  | b :: r => if 3 ≤ r.length then (landCombine s b).setCore c { s.core c with wc := r } else s
  | [] => s

/-- A write-combining store: it joins the bytes of its line and generation, else it takes a further buffer, for which the oldest drains
where all four are in use; another generation's bytes of the line drain first, and a buffer that fills drains (R149). -/
def combineStore (s : State) (c : Nat) (asid : BitVec 12) (t : Trans) (bs : List Byte) (gen : Option GenRef := none) : State :=
  let line := t.va / 128
  let mk := markBytes (t.va % 128) bs
  let ours := fun (b : Combine) => decide (b.asid = asid) && decide (b.line = line)
  let s := drainWc s c fun b => ours b && decide (b.gen ≠ gen)
  let k := s.core c
  let s :=
    if k.wc.any ours then
      let join := fun (b : Combine) => if ours b then { b with bytes := mk.foldl (fun a e => Bank.set 0 a e.1 e.2) b.bytes } else b
      s.setCore c { k with wc := k.wc.map join }
    else
      let s := drainOldestWc s c
      let k := s.core c
      s.setCore c { k with wc := k.wc ++ [⟨asid, line, t.phys / 128 * 128, mk, gen⟩] }
  drainWc s c fun b => decide (128 ≤ b.bytes.length)

/-- Every write-combining buffer of a core drains (R149). -/
def drainCombine (s : State) (c : Nat) : State := drainWc s c fun _ => true

/-- The write-combining buffers of a core over a physical line drain: a release store is performed at its own scope (R149, R151). -/
def drainCombineLine (s : State) (c line : Nat) : State := drainWc s c fun b => decide (b.phys / 128 = line)

/-- Where a piece of an access by a core's task lies, after its checks (R111, R132, R133). -/
def spotOf (s : State) (c : Nat) (asid : BitVec 12) (kind : Kind) (p : Piece) : Except Code Spot :=
  match window c (s.core c) p.1 p.2 with
  | .error x => .error x
  | .ok (.spad key) => .ok (.spad key)
  | .ok .glob =>
    match lineAccess s (dieOf c) asid p.1 kind with
    | .error x => .error x
    | .ok t => .ok (.mem t)

/-- What the check of a piece at a spot leaves in the caches that translate (R134, R135, R149). -/
def learnSpot (s : State) (c : Nat) (asid : BitVec 12) (va : Nat) (nt : Bool) : Spot → State
  | .spad _ => s
  | .mem t => learn s (dieOf c) asid va t !nt

/-- A store of a stream is performed at its spot at core scope: in the bank, in a write-combining buffer, or in the die cache and its write
buffer (R139, R140, R149). -/
def putSpot (s : State) (c stream : Nat) (asid : BitVec 12) (spot : Spot) (bs : List Byte) (gen : Option GenRef := none) (nt : Bool := false) :
    State :=
  match spot with
  | .spad key => { s with spad := Bank.setRun 0 s.spad key bs }
  | .mem t =>
    if t.attr = 4 then combineStore s c asid t bs gen
    else bufStore (patchLine s (dieOf c) asid t.va bs) (dieOf c) stream asid t bs gen nt

/-- Writes the pieces of a checked access from a stream. -/
def writePieces (c stream : Nat) (asid : BitVec 12) (gen : Option GenRef := none) (nt : Bool := false) :
    List Piece → List Byte → State → State
  | [], _, s => s
  | (va, n) :: r, bs, s =>
    match spotOf s c asid .write (va, n) with
    | .error _ => s
    | .ok p => writePieces c stream asid gen nt r (bs.drop n) (putSpot (learnSpot s c asid va nt p) c stream asid p (bs.take n) gen nt)

/-- An acquire of package scope or wider: every global line of the die cache becomes absent (R139, R148). -/
def dropLines (s : State) (d : Nat) : State := s.setDie d { s.die d with lines := [] }

/-- What a core holds back of the bytes of an access reaches its home slice: the lines leave the die's write buffer and the core's
write-combining buffers (R143, R149). -/
def performLines (c : Nat) (asid : BitVec 12) : List Piece → State → State
  | [], s => s
  | (va, n) :: r, s =>
    let d := dieOf c
    match window c (s.core c) va n with
    | .ok .glob =>
      match lineAccess s d asid va .write with
      | .ok t => performLines c asid r (drainCombineLine (drainLine d (t.phys / 128 * 128) (s.die d).buf.length s) c (t.phys / 128))
      | .error _ => performLines c asid r s
    | _ => performLines c asid r s

/-- Checks of an access of n bytes at va by a core's task (R111), windows first. -/
def checkAccess (s : State) (c : Nat) (va n : Nat) (kind : Kind) : Except Code Place :=
  match window c (s.core c) va n with
  | .error e => .error e
  | .ok (.spad key) => .ok (.spad key)
  | .ok .glob =>
    match checkPieces s c (s.core c).sys.asid kind (pieces n va n) with
    | .error e => .error e
    | .ok _ => .ok .glob

/-- Reads n bytes at va for a core's task, after the checks. -/
def readMem (s : State) (c : Nat) (va n : Nat) : List Byte × State :=
  match window c (s.core c) va n with
  | .ok (.spad key) => (Bank.getRun 0 s.spad key n, s)
  | .ok .glob => readPieces c (s.core c).sys.asid (pieces n va n) s
  | .error _ => ([], s)

/-- Writes bytes at va for a stream of a core's task, after the checks. The stream is 6 x core + engine. -/
def writeMem (s : State) (c stream : Nat) (va : Nat) (bs : List Byte) (nt : Bool := false) : State :=
  match window c (s.core c) va bs.length with
  | .ok (.spad key) => { s with spad := Bank.setRun 0 s.spad key bs }
  | .ok .glob => writePieces c stream (s.core c).sys.asid none nt (pieces bs.length va bs.length) bs s
  | .error _ => s

/-- What the pieces of an access by a core's task leave in the caches that translate (R134, R135). -/
def learnPieces (c : Nat) (asid : BitVec 12) : List Piece → State → State
  | [], s => s
  | (va, n) :: r, s =>
    match window c (s.core c) va n with
    | .ok .glob =>
      match translate s (dieOf c) asid va with
      | .ok t => learnPieces c asid r (learn s (dieOf c) asid va t)
      | .error _ => s
    | _ => learnPieces c asid r s

/-- The bytes that an instruction fetch sees; it fills no die cache (R31, R119). -/
def fetchBytes (s : State) (c : Nat) (va : Nat) : Except Code (List Byte) :=
  match window c (s.core c) va 8 with
  | .error e => .error e
  | .ok (.spad key) => .ok (Bank.getRun 0 s.spad key 8)
  | .ok .glob =>
    match lineAccess s (dieOf c) (s.core c).sys.asid va .fetch with
    | .error e => .error e
    | .ok t => .ok (((viewLine s (dieOf c) (s.core c).sys.asid t).drop (t.va % 128)).take 8)

/-- What a fetch leaves in the caches that translate (R134, R135). -/
def State.fetched (s : State) (c va : Nat) : State :=
  match window c (s.core c) va 8 with
  | .ok .glob =>
    match lineAccess s (dieOf c) (s.core c).sys.asid va .fetch with
    | .ok t => learn s (dieOf c) (s.core c).sys.asid va t
    | .error _ => s
  | _ => s

/-- The bytes of global memory at package scope, as a command of a core reads them (R143); a piece in a window lies there (R132). -/
def readHome (s : State) (c : Nat) (asid : BitVec 12) : List Piece → Except Code (List Byte)
  | [] => .ok []
  | (va, n) :: r =>
    match window c (s.core c) va n with
    | .error x => .error x
    | .ok (.spad key) =>
      match readHome s c asid r with
      | .error x => .error x
      | .ok bs => .ok (Bank.getRun 0 s.spad key n ++ bs)
    | .ok .glob =>
      match translate s (dieOf c) asid va with
      | .error x => .error x
      | .ok t =>
        match pageCheck .read t with
        | .error x => .error x
        | .ok t =>
          match readHome s c asid r with
          | .error x => .error x
          | .ok bs => .ok (Bank.getRun 0 s.hbm t.phys n ++ bs)

/-- Writes bytes of global memory at package scope for a command of a core (R143); a piece in a window lies there (R132). -/
def writeHome (c : Nat) (asid : BitVec 12) : List Piece → List Byte → State → Except Code State
  | [], _, s => .ok s
  | (va, n) :: r, bs, s =>
    match window c (s.core c) va n with
    | .error x => .error x
    | .ok (.spad key) => writeHome c asid r (bs.drop n) { s with spad := Bank.setRun 0 s.spad key (bs.take n) }
    | .ok .glob =>
      match translate s (dieOf c) asid va with
      | .error x => .error x
      | .ok t =>
        match pageCheck .write t with
        | .error x => .error x
        | .ok t =>
          let s := learn s (dieOf c) asid va t
          writeHome c asid r (bs.drop n) (putHome s t.phys (bs.take n))

end Sys2Proof.Machine
end

