-- ==== Sys2Proof/Machine/Banks.lean ====
section
/-! DEFINITION. What words and commands do indivisibly at a scratchpad bank: atomic operations, phase barriers and scratch rings (R150,
R152, R186 to R191). -/

namespace Sys2Proof.Machine

/-! Atomic operations -/

/-- A loaded value of an integer type or of FP32, extended to a register (R111, R152). -/
def extend (ty : Fmt) (v : Nat) : Word :=
  if ty.isSigned then BitVec.ofInt 64 (signedOf ty.bits v) else BitVec.ofNat 64 (v % 2 ^ ty.bits)

/-- Integer minimum or maximum by signedness (R195). -/
def intPick (ty : Fmt) (greatest : Bool) (a b : Nat) : Nat :=
  let v (x : Nat) : Int := if ty.isSigned then signedOf ty.bits x else x
  if (decide (v a < v b)) = greatest then b else a

/-- NewValue of an atomic operation on values of one type (R152). -/
def newValue (op : AmoOp) (ty : Fmt) (old x : Nat) : Nat :=
  match op with
  | .add => (old + x) % 2 ^ ty.bits
  | .and => old &&& x
  | .or => old ||| x
  | .xor => old ^^^ x
  | .min => intPick ty false old x
  | .max => intPick ty true old x
  | .swap => x
  | .fadd =>
    (roundFloat .f32 .rne 0 (Exact.sum [FloatFmt.f32.value old, FloatFmt.f32.value x]).1).1

/-! Phase barriers (R186, R188) -/

/-- n bytes of a scratchpad as a number. -/
def State.spadNat (s : State) (key n : Nat) : Nat := ofBytes (Bank.getRun 0 s.spad key n)

/-- Writes n bytes of a scratchpad. -/
def State.setSpad (s : State) (key n v : Nat) : State := { s with spad := Bank.setRun 0 s.spad key (toBytes n v) }

/-- PHASE of a barrier (R186). -/
def State.phaseAt (s : State) (key : Nat) : Bool := (s.spadNat (key + 12) 1).testBit 0

/-- The reserved bits of a barrier are zero (R3, R186). -/
def State.barrierOk (s : State) (key : Nat) : Bool := decide (s.spadNat (key + 12) 4 < 2)

/-- BarUpdate in one indivisible step: ILLEGAL where a reserved bit is set (R3), BARRIER where an arrival finds none pending (R188). -/
def State.barUpdate (s : State) (key : Nat) (darr : Bool) (dbytes : BitVec 32) : Except Code State :=
  let arr := s.spadNat (key + 4) 2
  if !s.barrierOk key then .error .illegal
  else if darr && decide (arr = 0) then .error .barrier
  else
    let arr := if darr then arr - 1 else arr
    let n := (BitVec.ofNat 32 (s.spadNat key 4) + dbytes).toNat
    if arr = 0 ∧ n = 0 then
      let s' := (s.setSpad (key + 4) 2 (s.spadNat (key + 6) 2)).setSpad key 4 (s.spadNat (key + 8) 4)
      .ok (s'.setSpad (key + 12) 4 (s.spadNat (key + 12) 4 ^^^ 1))
    else .ok ((s.setSpad (key + 4) 2 arr).setSpad key 4 n)

/-! Scratch rings (R190, R191) -/

/-- A scratch ring's counters (R190). -/
structure Ring where
  nslot : Nat
  head : BitVec 32
  tail : BitVec 32
  claimed : BitVec 32
  filled : BitVec 32
  deriving DecidableEq, Repr

/-- The ring at a key; none where NSLOT or SLOTSZ is out of range (R190, R191). -/
def State.ringAt (s : State) (key : Nat) : Option Ring :=
  let f (o : Nat) : Nat := s.spadNat (key + o) 4
  if f 8 = 0 ∨ f 8 % 64 ≠ 0 ∨ f 12 = 0 ∨ 32 < f 12 then none
  else some ⟨f 12, BitVec.ofNat 32 (f 16), BitVec.ofNat 32 (f 20), BitVec.ofNat 32 (f 24), BitVec.ofNat 32 (f 28)⟩

/-- Writes a ring's counters. -/
def State.setRing (s : State) (key : Nat) (r : Ring) : State :=
  s.setSpad (key + 16) 16 (r.head.toNat + r.tail.toNat * 2 ^ 32 + r.claimed.toNat * 2 ^ 64 + r.filled.toNat * 2 ^ 96)

/-- Claims of timed code on a ring that have issued and not landed: each takes a slot (R85, R191). -/
def State.claiming (s : State) (key : Nat) : Nat :=
  (s.cores.map fun x => (x.2.pend.filter fun p => match p.dst with | .bank k .claim _ => decide (k = key) | _ => false).length).sum

/-- A slot is free beyond those that claims under way take (R191). -/
def Ring.free (r : Ring) (claiming : Nat) : Bool := decide ((r.claimed - r.head).toNat + claiming < r.nslot)

/-- The ring takes a claim of its next ticket (R191). -/
def Ring.claim (r : Ring) : Ring := { r with claimed := r.claimed + 1 }

/-- Publishes filled slots in ticket order (R191). -/
def publish : Nat → Ring → Ring
  | 0, r => r
  | n + 1, r => if bit r.filled 0 then publish n { r with tail := r.tail + 1, filled := r.filled >>> 1 } else r

/-- The ring with a ticket's slot filled; none where the ticket is not claimed, or filled already (R191). -/
def Ring.fill (r : Ring) (ticket : BitVec 32) : Option Ring :=
  let n := (ticket - r.tail).toNat
  if (r.claimed - r.tail).toNat ≤ n ∨ 32 ≤ n ∨ bit r.filled n then none
  else some (publish 32 { r with filled := r.filled ||| BitVec.ofNat 32 (2 ^ n) })

/-- The ring with its oldest ticket released; none for any other (R191). -/
def Ring.release (r : Ring) (ticket : BitVec 32) : Option Ring :=
  if ticket ≠ r.head then none else some { r with head := r.head + 1 }

/-! Operations at a bank -/

/-- Replaces a ring, or the RING fault of what it refuses. -/
def State.onRing (s : State) (key : Nat) (f : Ring → Option Ring) : Except Code (Nat × State) :=
  match s.ringAt key with
  | none => .error .ring
  | some r => match f r with | some r' => .ok (r.claimed.toNat, s.setRing key r') | none => .error .ring

/-- What an atomic operation leaves of an old value; none where it writes nothing (R152, R153). -/
def BankOp.next (op : BankOp) (x old : Nat) : Option Nat :=
  match op with
  | .amo op ty => some (newValue op ty old x)
  | .cas _ => if old = x % 2 ^ 64 then some (x / 2 ^ 64) else none
  | _ => none

/-- One indivisible operation at a bank on an operand: its result, which is the old value, PHASE or the ticket claimed, and the state after
it (R150, R188, R191). The operand of a compare and swap is the value compared, with the new value above its 64 bits. -/
def State.bankOp (s : State) (key : Nat) (op : BankOp) (x : Nat) : Except Code (Nat × State) :=
  match op with
  | .amo op ty =>
    let n := ty.bits / 8
    .ok ((extend ty (s.spadNat key n)).toNat, s.setSpad key n (newValue op ty (s.spadNat key n) x))
  | .cas ty =>
    let n := ty.bits / 8
    let old := s.spadNat key n
    .ok ((extend ty old).toNat, if old = x % 2 ^ 64 then s.setSpad key n (x / 2 ^ 64) else s)
  | .bar arrive =>
    match s.barUpdate key arrive (BitVec.ofNat 32 x) with
    | .ok t => .ok (if s.phaseAt key then 1 else 0, t)
    | .error c => .error c
  | .claim => s.onRing key fun r => some r.claim
  | .fill => s.onRing key fun r => r.fill (BitVec.ofNat 32 x)
  | .release => s.onRing key fun r => r.release (BitVec.ofNat 32 x)

end Sys2Proof.Machine
end

