-- ==== Sys2Proof/Machine/Ops.lean ====
section
/-! DEFINITION. The operations that meanings share: registers, tokens and control queues, finishing a word, taking a trap and
returning from one (R8, R69 to R71, R81 to R93, R285 to R292). -/

namespace Sys2Proof.Machine

/-- The outcome of an instruction or a step. -/
abbrev Res := Host.Outcome State Fault Refusal

/-! Engines -/

/-- An engine of a core. -/
def Core.en (k : Core) (e : Eng) : EngSt := Bank.get EngSt.zero k.eng e.tag

/-- Replaces an engine of a core. -/
def Core.setEn (k : Core) (e : Eng) (x : EngSt) : Core := { k with eng := Bank.set EngSt.zero k.eng e.tag x }

/-- Changes an engine of a core. -/
def Core.onEn (k : Core) (e : Eng) (f : EngSt → EngSt) : Core := k.setEn e (f (k.en e))

/-- Changes all six engines of a core. -/
def Core.onAll (k : Core) (f : EngSt → EngSt) : Core := Eng.all.foldl (fun k e => k.onEn e f) k

/-- The engine under the cursor. -/
def State.engHere (s : State) : Eng := Eng.ofTag s.cur.slot

/-- An engine of the core under the cursor. -/
def State.en (s : State) (e : Eng) : EngSt := s.here.en e

/-- The stream number of an engine of the core under the cursor. -/
def State.stream (s : State) (e : Eng) : Nat := 6 * s.cur.core + e.tag

/-- The core runs a task: normally or in its handler. -/
def Core.runs (k : Core) : Bool :=
  match k.phase with
  | .running | .handler => true
  | _ => false

/-! Peers and tokens -/

/-- The engine that peer k of an engine names (R81). -/
def peerTag (e k : Nat) : Nat := if k < e then k else k + 1

/-- The number that engine e gives its peer f (R81). -/
def peerOf (e f : Nat) : Nat := if f < e then f else f - 1

/-- The queue from engine e to engine f. -/
def queueNo (e f : Nat) : Nat := 5 * e + peerOf e f

/-- Tokens of a queue, oldest first. -/
def Core.tokens (k : Core) (q : Nat) : List Token := Bank.get [] k.tok q

/-- Replaces a token queue. -/
def Core.setTokens (k : Core) (q : Nat) (l : List Token) : Core := { k with tok := Bank.set [] k.tok q l }

/-- The queues from which a pop mask of engine f takes a token (R82). -/
def popQueues (f : Nat) (mask : Nat) : List Nat :=
  ((List.range 5).filter fun k => mask.testBit k).map fun k => queueNo (peerTag f k) f

/-- Every queue of a pop mask holds a token. -/
def Core.canPop (k : Core) (f mask : Nat) : Bool := (popQueues f mask).all fun q => !(k.tokens q).isEmpty

/-- Elementwise maximum of two clocks. -/
def joinClk (a b : List Nat) : List Nat := (List.range 6).map fun i => max (a.getD i 0) (b.getD i 0)

/-- Takes the oldest token of a queue into an engine's hands (R82, R83). -/
def Core.popOne (f : Eng) (k : Core) (q : Nat) : Core :=
  match k.tokens q with
  | [] => k
  | t :: r =>
    (k.setTokens q r).onEn f fun x =>
      { x with popped := x.popped ++ [(q, t)], clk := joinClk x.clk t.clk, joined := (x.joined ++ t.joined).dedup }

/-- Puts the tokens of a word that had no effect back at the heads of their queues (R8). -/
def Core.unpop (k : Core) (e : Eng) : Core :=
  let x := k.en e
  (x.popped.foldl (fun (k : Core) qt => k.setTokens qt.1 (qt.2 :: k.tokens qt.1)) k).onEn e fun x =>
    { x with popped := [], push := 0, clk := x.clk0, joined := x.joined0 }

/-- The token that an engine pushes now (R83). -/
def EngSt.token (x : EngSt) (e : Nat) : Token :=
  ⟨(List.range 6).map fun i => if i = e then x.issued else x.clk.getD i 0, x.joined⟩

/-- Appends a token to a queue with room, else leaves the queue (R82). -/
def Core.pushOne (e : Eng) (k : Core) (p : Nat) : Core :=
  let q := 5 * e.tag + p
  if (k.tokens q).length < 16 then
    (k.setTokens q (k.tokens q ++ [(k.en e).token e.tag])).onEn e fun x => { x with owed := x.owed &&& ~~~(BitVec.ofNat 5 (2 ^ p)) }
  else k

/-- Makes the pushes an engine owes, as far as the queues have room (R82). -/
def Core.pushOwed (k : Core) (e : Eng) : Core :=
  ((List.range 5).filter fun p => ((k.en e).owed).toNat.testBit p).foldl (Core.pushOne e) k

/-- Appends a control entry where its queue has room, else owes it (R89). -/
def Core.appendCtl (k : Core) (t : Nat) (c : CtlEntry) : Core :=
  let e := Eng.ofTag t
  if ((k.en e).ctl).length < 32 then k.onEn e fun x => { x with ctl := x.ctl ++ [c] }
  else k.onEn .sq fun x => { x with owedCtl := x.owedCtl ++ [(t, c)] }

/-- Appends the control entries that the sequencer owes, as far as there is room (R89). -/
def Core.pushCtl (k : Core) : Core :=
  let l := (k.en .sq).owedCtl
  l.foldl (fun k tc => k.appendCtl tc.1 tc.2) (k.onEn .sq fun x => { x with owedCtl := [] })

/-- The sequencer appends one entry to each of the five control queues (R89). -/
def Core.appendAll (k : Core) (c : CtlEntry) : Core := [1, 2, 3, 4, 5].foldl (fun k t => k.appendCtl t c) k

/-- Some push of a nest still waits for room. -/
def Core.owes (k : Core) (id : Nat) : Bool := k.nestOwed.any fun p => decide (p.tag / 2 * 2 = id)

/-- Nests that have completed and made their pushes leave the queue. -/
def Core.leaveNests (k : Core) : Core := { k with nests := k.nests.filter fun n => n.timed || !n.complete || k.owes n.id }

/-- Makes the pushes that nests owe, in their order toward each peer, as far as the queues have room (R82, R235). -/
def Core.pushNests (k : Core) : Core :=
  (k.nestOwed.foldl (fun (k : Core) (p : NestPush) =>
    let q := 5 * Eng.mx.tag + p.peer
    if (k.nestOwed.all fun x => decide (x.peer ≠ p.peer)) && decide ((k.tokens q).length < 16) then k.setTokens q (k.tokens q ++ [p.token])
    else { k with nestOwed := k.nestOwed ++ [p] }) { k with nestOwed := [] }).leaveNests

/-- Some push that a nest owes finds room. -/
def Core.nestPushReady (k : Core) : Bool := k.nestOwed.any fun p => decide ((k.tokens (5 * Eng.mx.tag + p.peer)).length < 16)

/-! Registers -/

/-- A number that tells registers apart in free choices. -/
def Dest.code : Dest → Nat
  | .s n => n | .v n => 1000 + n | .acc n => 2000 + n | .m n => 3000 + n | .map n => 4000 + n | .shadow n => 5000 + n
  | .gen n _ => 6000 + n | .flags => 7000 | .fmtq => 8000 | .spad k => 10000 + 2 * k | .bank k _ _ => 10001 + 2 * k

/-- Same register, whatever the value it carries. -/
def Dest.same (a b : Dest) : Bool := decide (a.code = b.code)

/-- Width of one lane whose bits stay together in an unordered pair of accesses, and the lanes (R83). DESIGN CHOICE (log 13): a generator
register is one lane of 512 bits. -/
def Dest.lanes : Dest → Nat × Nat
  | .v _ => (32, 256) | .acc _ => (32, 4096) | .m _ => (32, 8) | .gen _ _ => (512, 1) | .map _ => (256, 1)
  | _ => (64, 1)

/-- What a register holds, as a number. -/
def Core.regNat (k : Core) : Dest → Nat
  | .s n => (Bank.get 0 k.regs.s n).toNat
  | .v n => (Bank.get 0 k.regs.v n).toNat
  | .acc n => (Bank.get 0 k.regs.acc n).toNat
  | .m n => (Bank.get 0 k.regs.m n).toNat
  | .map n => (Bank.get 0 k.regs.map n).toNat
  | .shadow n => (Bank.get 0 k.shadow n).toNat
  | .gen n _ => (Bank.get Gen.zero k.regs.g n).img.toNat
  | .flags => k.sys.flags.toNat
  | .fmtq | .spad _ | .bank _ _ _ => 0

/-- Writes a register whole; a generator's table stays where the write does not say what becomes of it (R252, R257). -/
def Core.setReg (k : Core) (d : Dest) (x : Nat) : Core :=
  match d with
  | .s n => if n = 0 then k else { k with regs := { k.regs with s := Bank.set 0 k.regs.s n (BitVec.ofNat 64 x) } }
  | .v n => { k with regs := { k.regs with v := Bank.set 0 k.regs.v n (BitVec.ofNat 8192 x) } }
  | .acc n => { k with regs := { k.regs with acc := Bank.set 0 k.regs.acc n (BitVec.ofNat 131072 x) } }
  | .m n => { k with regs := { k.regs with m := Bank.set 0 k.regs.m n (BitVec.ofNat 256 x) } }
  | .map n => { k with regs := { k.regs with map := Bank.set 0 k.regs.map n (BitVec.ofNat 256 x) } }
  | .shadow n => { k with shadow := Bank.set 0 k.shadow n (BitVec.ofNat 64 x) }
  | .gen n f => { k with regs := { k.regs with g := Bank.set Gen.zero k.regs.g n ⟨BitVec.ofNat 512 x, f.getD (Bank.get Gen.zero k.regs.g n).freq⟩ } }
  | .flags => { k with sys := { k.sys with flags := BitVec.ofNat 7 x } }
  | .fmtq => { k with fmtq := k.fmtq ++ [⟨BitVec.ofNat 64 x, BitVec.ofNat 64 (x >>> 64), BitVec.ofNat 64 (x >>> 128)⟩] }
  | .spad _ | .bank _ _ _ => k

/-- The bits of new where the mask has ones, of old elsewhere. -/
def blend (old new bm : Nat) : Nat := (new &&& bm) ||| (old ^^^ (old &&& bm))

/-- n one bits. -/
def ones (n : Nat) : Nat := 2 ^ n - 1

/-- Chooses old or new for each lane, freely (R83). -/
def mixLanes (tick reg w : Nat) : Nat → Nat → Nat → Nat
  | 0, _, new => new
  | n + 1, old, new =>
    let r := mixLanes tick reg w n old new
    if Config.lane tick reg n then blend r old (ones w <<< (w * n)) else r

/-- The whole lanes of a register that a bit mask touches. -/
def laneCover (w : Nat) : Nat → Nat → Nat
  | 0, _ => 0
  | n + 1, bm => laneCover w n bm ||| (if (bm >>> (w * n)) % 2 ^ w = 0 then 0 else ones w <<< (w * n))

/-- The whole lanes of a register that a write touches (R83). -/
def Dest.touched (d : Dest) (bm : Nat) : Nat := laneCover d.lanes.1 d.lanes.2 bm

/-- Chooses old or new, freely, for each lane in a mask of whole lanes, and new elsewhere. -/
def Dest.mix (d : Dest) (tick salt old new mask : Nat) : Nat :=
  if mask = 0 then new else blend new (mixLanes tick (d.code + salt) d.lanes.1 d.lanes.2 old new) mask

/-- Is a recorded write ordered before the next word of engine e (R83)? A nest's write is ordered by its joined token. -/
def ordered (x : EngSt) (e : Nat) (r : Race) : Bool :=
  decide (r.writer = e) || (if r.writer < 6 then decide (r.at_ ≤ x.clk.getD r.writer 0) else x.joined.contains (r.writer - 6))

/-- What a read can find in a register beside its content, as values and the lanes for which they stand: for each recorded write that
is not ordered before the read, newest first, its value, and what stood before it unless a later write is ordered before the
read; and the value of an ordered write over which an earlier unordered one may still fall (R83). sup holds the lanes that
later ordered writes touch. -/
def Dest.found (d : Dest) (unord : Race → Bool) : Nat → List Race → List (Nat × Nat)
  | _, [] => []
  | sup, r :: l =>
    let m := d.touched r.bm
    let free := m ^^^ (m &&& sup)
    if unord r then (r.val, m) :: (r.old, free) :: d.found unord sup l
    else (r.val, free &&& (l.filter unord).foldl (fun a u => a ||| d.touched u.bm) 0) :: d.found unord (sup ||| m) l

/-- Chooses freely, lane by lane, among a value and further ones that stand for some lanes. -/
def Dest.pickAmong (d : Dest) (tick : Nat) : Nat → List (Nat × Nat) → Nat → Nat
  | _, [], x => x
  | salt, a :: l, x => d.pickAmong tick (salt + 1000000) l (d.mix tick salt a.1 x a.2)

/-- What engine e reads from a register: where a write of another engine is not ordered before the read, each lane is old or
new (R83). -/
def Core.readReg (k : Core) (tick : Nat) (e : Eng) (d : Dest) : Nat :=
  let unord (r : Race) : Bool := !ordered (k.en e) e.tag r
  let rs := k.races.filter fun r => r.dst.same d
  if rs.any unord then d.pickAmong tick 0 (d.found unord 0 rs) (k.regNat d) else k.regNat d

/-- An interlocked write by an engine or a nest (writer 6 + id): each lane that an unordered write of another engine touches keeps
one of the two values, and the write is recorded for the readers that are not ordered after it (R83). A generator is
written at one point, which every reader is before or after (R251). -/
def Core.writeRace (k : Core) (tick writer at_ : Nat) (unord : Race → Bool) (d : Dest) (bm x : Nat) : Core :=
  let old := k.regNat d
  let new := blend old x bm
  let rs := k.races.filter fun r => r.dst.same d
  match d with
  | .gen _ _ => k.setReg d new
  | _ =>
    if new = old ∧ rs = [] then k
    else
      let clash := (rs.filter unord).foldl (fun a r => a ||| d.touched r.bm) 0
      { k.setReg d (if clash = 0 then new else d.mix tick 100000 old new (clash &&& d.touched bm)) with
        races := ⟨d, writer, at_, old, bm, new⟩ :: k.races }

/-- A write of the word that engine e executes: it lands at once in interlocked mode and after its latency in timed mode
(R85). The bits of x where bm has ones are written. -/
def Core.writeReg (k : Core) (tick : Nat) (e : Eng) (d : Dest) (bm x : Nat) : Core :=
  if k.sys.timed then { k with pend := k.pend ++ [⟨k.cyc + (k.en e).lat, d, bm, x⟩] }
  else k.writeRace tick e.tag (k.en e).issued (fun r => !ordered (k.en e) e.tag r) d bm x

/-! SYS.FLAGS, whose contributions a read or a write of the sequencer may come before or after (R56) -/

/-- A completion ORs its events into SYS.FLAGS; the record of it holds what the register held before. -/
def Core.orFlags (k : Core) (writer at_ : Nat) (f : Flags) : Core :=
  { k with sys := { k.sys with flags := k.sys.flags ||| f }, races := ⟨.flags, writer, at_, k.sys.flags.toNat, f.toNat, f.toNat⟩ :: k.races }

/-- The recorded contributions, newest first. -/
def Core.flagRaces (k : Core) : List Race := k.races.filter fun r => r.dst.same .flags

/-- The contributions that come before an access of the sequencer: those that are ordered before it, and of the others those that the device
chooses. -/
def Core.flagsBefore (k : Core) (tick : Nat) : List Race :=
  (k.flagRaces.zipIdx.filter fun r => ordered (k.en .sq) 0 r.1 || Config.lane tick 7000 r.2).map Prod.fst

/-- The OR of contributions. -/
def flagBits (l : List Race) : Flags := BitVec.ofNat 7 (l.foldl (fun a r => a ||| r.val) 0)

/-- The register without its recorded contributions. -/
def Core.flagBase (k : Core) : Flags :=
  match k.flagRaces.getLast? with
  | some r => BitVec.ofNat 7 r.old
  | none => k.sys.flags

/-- Some contributions need no record any longer; the others stand over a value. -/
def Core.keepFlags (k : Core) (gone : List Race) (base : Flags) : Core :=
  { k with races := (k.races.filter fun r => !gone.contains r).map fun r => if r.dst.same .flags then { r with old := base.toNat } else r }

/-- A read of SYS.FLAGS, which later reads do not go back behind; in timed mode a write that has still to land may be in it already. -/
def Core.readFlags (k : Core) (tick : Nat) : Flags × Core :=
  if k.sys.timed then
    let l := (k.pend.zipIdx.filter fun p => p.1.dst.same .flags && Config.lane tick 7000 p.2).foldl (fun a p => a ||| p.1.val) 0
    let v := k.sys.flags ||| BitVec.ofNat 7 l
    (v, { k with sys := { k.sys with flags := v } })
  else
    let b := k.flagsBefore tick
    let v := k.flagBase ||| flagBits b
    (v, k.keepFlags b v)

/-- A write of SYS.FLAGS: a contribution that comes before it is overwritten, one that comes after it stays. -/
def Core.writeFlags (k : Core) (tick : Nat) (v : Flags) : Core :=
  let b := k.flagsBefore tick
  let rest := k.flagRaces.filter fun r => !b.contains r
  { k.keepFlags b v with sys := { k.sys with flags := v ||| flagBits rest } }

/-! Timed landing -/

/-- Writes that landed in the cycle of a write and go to the same register or byte. -/
def Pend.siblings (p : Pend) (seen : List Pend) : List Pend := seen.filter fun r => decide (r.due = p.due) && r.dst.same p.dst

/-- Lands one timed write of a register; two that land in one cycle on one lane leave either, of a generator register with its table (R85,
R257). seen holds those that landed before it. -/
def Core.land (tick : Nat) (seen : List Pend) (k : Core) (p : Pend) : Core :=
  match p.dst with
  | .flags => k.setReg .flags (k.regNat .flags ||| p.val)
  | .fmtq => k.setReg .fmtq p.val
  | d =>
    let clash := (p.siblings seen).foldl (fun a r => a ||| d.touched r.bm) 0
    let old := k.regNat d
    let new := blend old p.val p.bm
    let stays := d.mix tick (200000 + 1000000 * seen.length) old new (clash &&& d.touched p.bm)
    match d with
    | .gen _ _ => if clash ≠ 0 ∧ stays = old ∧ new ≠ old then k else k.setReg d new
    | _ => k.setReg d (if clash = 0 then new else stays)

/-- A timed write of a register that lands while a nest of timed mode is at work: each lane of the register that the nest reads from then on is
old or new (R228, R243). -/
def Core.landSeen (tick : Nat) (seen : List Pend) (k : Core) (p : Pend) : Core :=
  let t := k.land tick seen p
  match p.dst, k.nests.find? fun n => n.timed && n.started && !n.complete with
  | .v _, some n | .acc _, some n => { t with nestRaces := ⟨p.dst, 6 + n.id + 1, 0, k.regNat p.dst, p.bm, t.regNat p.dst⟩ :: t.nestRaces }
  | _, _ => t

/-- Lands one timed write of a core: of a register, of a scratchpad byte, or an operation at a bank, which takes place and writes its
register as it lands (R85). -/
def State.landOne (s : State) (c : Nat) (seen : List Pend) (p : Pend) : State :=
  match p.dst with
  | .spad key =>
    if !(p.siblings seen).isEmpty && Config.lane s.free (p.dst.code + 200000) seen.length then s
    else { s with spad := Bank.set 0 s.spad key (BitVec.ofNat 8 (p.val % 256)) }
  | .bank key op sd =>
    match s.bankOp key op p.val with
    | .ok (x, t) => t.setCore c ((s.core c).landSeen s.free seen ⟨p.due, .s sd, ones 64, x⟩)
    | .error _ => s
  | _ => s.setCore c ((s.core c).landSeen s.free seen p)

/-- The registers and bytes that a timed write lands on (R85). -/
def Pend.marks (p : Pend) : List Pend :=
  match p.dst with
  | .bank _ _ sd => [{ p with dst := .s sd, bm := ones 64 }]
  | _ => [p]

/-- Lands timed writes of a core one after another. -/
def State.landSeq (c : Nat) : List Pend → List Pend → State → State
  | _, [], s => s
  | seen, p :: r, s => State.landSeq c (p.marks ++ seen) r (s.landOne c seen p)

/-- Inserts by due cycle, later entries after earlier ones of the same cycle. -/
def insertPend (p : Pend) : List Pend → List Pend
  | [] => [p]
  | q :: r => if q.due ≤ p.due then q :: insertPend p r else p :: q :: r

/-- Sorts by due cycle. -/
def sortPend (l : List Pend) : List Pend := l.foldl (fun a p => insertPend p a) []

/-- Lands every write of a core due by a cycle, in the order of their cycles. -/
def State.landDue (s : State) (c due : Nat) : State :=
  let k := s.core c
  State.landSeq c [] (sortPend (k.pend.filter fun p => decide (p.due ≤ due)))
    (s.setCore c { k with pend := k.pend.filter fun p => decide (due < p.due) })

/-- Lands every timed write of a core. -/
def State.landPend (s : State) (c : Nat) : State := s.landDue c ((s.core c).pend.foldl (fun m p => max m p.due) 0)

/-- The writes of a nest take effect in a cycle in which others have landed: on one lane or byte either stays (R85, R243). -/
def State.landWork (c : Nat) (seen : List Pend) (e : Nat) (work : List Pend) (s : State) : State :=
  work.foldl (fun s p => s.landOne c seen { p with due := e }) s

/-- The cycle up to which writes may land for a word of a cycle: not past one in which the nest at the head has still to start or to end
(R243). -/
def Core.landCap (k : Core) (due : Nat) : Nat :=
  match k.nests with
  | n :: _ =>
    if n.timed && !n.complete && !bit k.sys.mxprog 63 then
      match n.ends with
      | some e => min due e
      | none => min due (k.nestStarts n)
    else due
  | [] => due

/-- The nests of timed mode that are done by a cycle take effect: their accumulator elements, drain bytes and flags (R237,
R243). -/
def State.sweep (c due : Nat) : Nat → State → State
  | 0, s => s.landDue c ((s.core c).landCap due)
  | f + 1, s =>
    match (s.core c).nests with
    | n :: r =>
      match n.ends with
      | some e =>
        if n.complete && decide (e ≤ due) then
          let seen := ((s.core c).pend.filter fun p => decide (p.due = e)).flatMap Pend.marks
          let s := State.landWork c seen e n.work (s.landDue c e)
          let k := s.core c
          State.sweep c due f
            (s.setCore c { k with nests := r, nestEnd := e, sys := { k.sys with flags := k.sys.flags ||| n.flags } })
        else s.landDue c ((s.core c).landCap due)
      | none => s.landDue c ((s.core c).landCap due)
    | [] => s.landDue c due

/-- Writes and finished nests of a core that are due by a cycle take effect (R85, R243). -/
def State.catchUp (s : State) (c due : Nat) : State := State.sweep c due 5 s

/-- A word that issues in a cycle of timed mode comes after the nest at the head: the nest must first start or finish (R243). -/
def Core.nestFirst (k : Core) (due : Nat) : Bool :=
  match k.nests with
  | [] => false
  | n :: _ =>
    n.timed && !bit k.sys.mxprog 63 &&
      match n.ends with
      | some e => decide (e ≤ due)
      | none => decide (k.nestStarts n < due)

namespace State

/-- Engine e of the core under the cursor reads a scalar register; s0 reads 0 (R68, R101). -/
def rdS (s : State) (e : Eng) (r : SReg) : Word :=
  if r = 0 then 0 else BitVec.ofNat 64 (s.here.readReg s.free e (.s r.toNat))

/-- A vector register. -/
def rdV (s : State) (e : Eng) (v : VNo) : VReg := BitVec.ofNat 8192 (s.here.readReg s.free e (.v v.toNat))

/-- A vector register by number. -/
def rdVn (s : State) (e : Eng) (v : Nat) : VReg := BitVec.ofNat 8192 (s.here.readReg s.free e (.v v))

/-- An accumulator. -/
def rdAcc (s : State) (e : Eng) (a : Nat) : Tile := BitVec.ofNat 131072 (s.here.readReg s.free e (.acc a))

/-- A mask register as a source (R68). -/
def rdM (s : State) (e : Eng) (m : MaskNo) : Mask := BitVec.ofNat 256 (s.here.readReg s.free e (.m m.toNat))

/-- A predicate: field 0 makes every lane active (R68, R71). -/
def pred (s : State) (e : Eng) (m : MaskNo) : Mask := if m = 0 then BitVec.allOnes 256 else s.rdM e m

/-- A generator register with its table (R251). -/
def rdG (s : State) (e : Eng) (g : Nat) : Gen :=
  ⟨BitVec.ofNat 512 (s.here.readReg s.free e (.gen g none)), (Bank.get Gen.zero s.here.regs.g g).freq⟩

/-- A sharding-map register. -/
def rdMap (s : State) (e : Eng) (m : Nat) : BitVec 256 := BitVec.ofNat 256 (s.here.readReg s.free e (.map m))

/-- Writes a register of the core under the cursor where the bit mask has ones. -/
def wr (s : State) (e : Eng) (d : Dest) (bm x : Nat) : State := s.upd fun k => k.writeReg s.free e d bm x

/-- Writes a scalar register; s0 discards (R69). -/
def wrS (s : State) (e : Eng) (r : SReg) (x : Word) : State :=
  if r = 0 then s else s.wr e (.s r.toNat) (ones 64) x.toNat

/-- Spreads the bits of a predicate over lanes of 32 bits. -/
def spread : Nat → Nat → Nat
  | 0, _ => 0
  | n + 1, m => (if m % 2 = 1 then ones 32 else 0) + (spread n (m / 2)) <<< 32

/-- Writes the active lanes of a vector register (R71). -/
def wrV (s : State) (e : Eng) (v : Nat) (lanes : Mask) (x : Nat) : State := s.wr e (.v v) (spread 256 lanes.toNat) x

/-- Writes the active bits of a mask register. -/
def wrM (s : State) (e : Eng) (m : MaskNo) (bits : Mask) (x : Nat) : State := s.wr e (.m m.toNat) bits.toNat x

/-- ORs events into SYS.FLAGS at the completion of the word (R55); in interlocked mode the contribution is recorded for the reads and writes
that are not ordered after it (R56). -/
def orFlags (s : State) (e : Eng) (f : Flags) : State :=
  s.upd fun k =>
    if f = 0 then k
    else if k.sys.timed then { k with pend := k.pend ++ [⟨k.cyc + (k.en e).lat, .flags, 0, f.toNat⟩] }
    else k.orFlags e.tag (k.en e).issued f

/-- Stores bytes for an instruction of engine e: scratchpad bytes land after the latency in timed mode (R85). -/
def store (s : State) (e : Eng) (va : Nat) (bs : List Byte) (nt : Bool := false) : State :=
  let c := s.cur.core
  if s.here.sys.timed then
    match window c s.here va bs.length with
    | .ok (.spad key) =>
      s.upd fun k =>
        let due := k.cyc + (k.en e).lat
        { k with pend := k.pend ++ (List.range bs.length).zipWith (fun i b => ⟨due, .spad (key + i), 255, b.toNat⟩) bs
                 spadDue := if e = .sq then max k.spadDue due else k.spadDue }
    | _ => writeMem s c (s.stream e) va bs nt
  else writeMem s c (s.stream e) va bs nt

/-- An operation of a word of the sequencer at a bank, its result going to sd: at once, or in timed mode at the end of the word's latency,
where what it faults on is judged at issue over what lands by then (R85, R150, R188, R191). -/
def atBank (s : State) (key : Nat) (op : BankOp) (x : Nat) (sd : SReg) : Except Code State :=
  if s.here.sys.timed then
    let due := s.here.cyc + (s.en .sq).lat
    match (s.landDue s.cur.core due).bankOp key op x with
    | .error c => .error c
    | .ok _ => .ok (s.upd fun k => { k with pend := k.pend ++ [⟨due, .bank key op sd.toNat, 0, x⟩], spadDue := max k.spadDue due })
  else
    match s.bankOp key op x with
    | .error c => .error c
    | .ok (v, t) => .ok (t.wrS .sq sd (BitVec.ofNat 64 v))

/-- Reads bytes for an instruction of the core under the cursor. -/
def load (s : State) (va n : Nat) : List Byte × State := readMem s s.cur.core va n

/-- The checks of an access of the core under the cursor. -/
def check (s : State) (va n : Nat) (kind : Kind) : Except Code Place := checkAccess s s.cur.core va n kind

end State

/-! The order of accesses (R141 to R149) -/

/-- Scopes of package or wider (R140). -/
def Scope.wide : Scope → Bool
  | .pkg | .mesh | .sys => true
  | _ => false

/-- Scopes of mesh or wider. -/
def Scope.beyond : Scope → Bool
  | .mesh | .sys => true
  | _ => false

/-- One core lies within a scope of another (R14, R140). -/
def Scope.reaches : Scope → Nat → Nat → Bool
  | .core, a, b => decide (a = b)
  | .clus, a, b => decide (clusterOf a = clusterOf b)
  | .die, a, b => decide (dieOf a = dieOf b)
  | _, _, _ => true

/-- Two byte ranges [a, b) share a byte. -/
def rangesMeet (x y : Nat × Nat) : Bool := decide (x.1 < y.2 ∧ y.1 < x.2)

/-- Where an access really lies, as one number: bytes of the scratchpads stand above every physical address. -/
def Spot.code : Spot → Nat
  | .spad key => 2 ^ 64 + key
  | .mem t => t.phys

/-- A buffered store of the die happens before the next access of the core's sequencer: a store of its own, one of another engine of the core
that a token orders, or one that it took over through an acquire (R83, R145, R147). -/
def Core.follows (k : Core) (c : Nat) (b : BufStore) : Bool :=
  if b.stream / 6 = c then decide (b.stream % 6 = 0) || decide (b.at_ ≤ (k.en .sq).clk.getD (b.stream % 6) 0)
  else k.hb.contains b.no

namespace State

/-- Every buffered store that happens before the next access of a core's sequencer reaches home (R143, R147). -/
def performBefore (s : State) (c : Nat) : State :=
  drainNeeded (dieOf c) ((s.core c).follows c) (s.die (dieOf c)).buf.length s

/-- A release: every write that happens before it is performed at the scope (R147 to R149). -/
def release (s : State) (sc : Scope) : State :=
  let s := if sc = .sys then drainCombine s s.cur.core else s
  if Scope.wide sc then s.performBefore s.cur.core else s

/-- What of a die's write buffer happens before the next access of a core's sequencer (R146). -/
def pendingBefore (s : State) (c : Nat) : List Nat :=
  ((s.die (dieOf c)).buf.filter ((s.core c).follows c)).map fun b => b.no

/-- A release has written size bytes at a spot. An atomic keeps what earlier releases published there, a store does not (R146). -/
def published (s : State) (c : Nat) (sc : Scope) (spot size : Nat) (atomic : Bool) (nos : List Nat) : State :=
  let x := s.die (dieOf c)
  let keep := x.syncs.filter fun y => atomic || !rangesMeet (y.spot, y.spot + y.size) (spot, spot + size)
  let new := if nos.isEmpty then [] else [⟨spot, size, c, sc, nos⟩]
  if new = [] ∧ keep = x.syncs then s else s.setDie (dieOf c) { x with syncs := new ++ keep }

/-- A store of the sequencer has written size bytes at a spot: what earlier fences have released goes with it, and what stood there before
is overwritten (R146, R155). -/
def publishFences (s : State) (c : Nat) (spot size : Nat) : State :=
  (s.core c).fenced.foldl (fun s f => s.published c f.1 spot size true f.2) (s.published c .core spot size false [])

/-- An acquire of a core has read size bytes at a spot: where a release of a scope that holds the core wrote them, and the acquire's scope
holds the releasing core, what happens before the release happens before what follows (R146). -/
def observe (s : State) (c : Nat) (sc : Scope) (spot size : Nat) : State :=
  let nos := ((s.die (dieOf c)).syncs.filter fun y => rangesMeet (y.spot, y.spot + y.size) (spot, spot + size) &&
    Scope.reaches y.scope y.core c && Scope.reaches sc c y.core).flatMap fun y => y.nos
  if nos.isEmpty then s else s.setCore c { s.core c with hb := (nos ++ (s.core c).hb).dedup }

/-- A plain load of a core has read size bytes at a spot: what a release had written there stands ready for a later acquiring fence (R155). -/
def saw (s : State) (c : Nat) (spot size : Nat) : State :=
  let l := ((s.die (dieOf c)).syncs.filter fun y => rangesMeet (y.spot, y.spot + y.size) (spot, spot + size) &&
    Scope.reaches y.scope y.core c).flatMap fun y => y.nos.map fun n => (y.core, n)
  if l.isEmpty then s else s.setCore c { s.core c with loaded := (l ++ (s.core c).loaded).dedup }

/-- An acquiring fence of a core takes over what its loads have read of releases within its scope (R155). -/
def fenceLoaded (s : State) (c : Nat) (sc : Scope) : State :=
  let k := s.core c
  if k.loaded.isEmpty then s
  else s.setCore c { k with hb := ((k.loaded.filter fun x => Scope.reaches sc c x.1).map Prod.snd ++ k.hb).dedup }

/-- The line of a release's store leaves the write-combining buffers of the core (R149, R151). -/
def spotCombined (s : State) (c : Nat) : Spot → State
  | .mem t => drainCombineLine s c (t.phys / 128)
  | .spad _ => s

/-- Bytes at a spot as a load of a core sees them; their line enters the die cache (R139). -/
def readSpot (s : State) (c : Nat) (asid : BitVec 12) (n : Nat) : Spot → List Byte × State
  | .spad key => (Bank.getRun 0 s.spad key n, s)
  | .mem t =>
    let l := combined (s.core c) asid t.va (viewLine s (dieOf c) asid t)
    ((l.drop (t.va % 128)).take n, fill s (dieOf c) asid t)

/-- An access that the sequencer's queues hold is performed (R141). -/
def performOne (c : Nat) (s : State) (l : Late) : State :=
  let asid := (s.core c).sys.asid
  match l.load with
  | some (ty, sd) =>
    let (bs, s) := s.readSpot c asid l.size l.spot
    let s := s.saw c l.spot.code l.size
    let k := s.core c
    let x := { k.en .sq with clk := l.clk, joined := l.joined }
    if sd = 0 then s
    else s.setCore c (k.writeRace s.free 0 l.at_ (fun r => !ordered x 0 r) (.s sd) (ones 64) (extend ty (ofBytes bs)).toNat)
  | none =>
    match l.rel with
    | none => (putSpot s c (6 * c) asid l.spot l.data).publishFences c l.spot.code l.size
    | some sc =>
      let here := s.cur
      let s := ({ s with cur := ⟨c, 0, 0⟩ } : State).release sc
      let s := (putSpot s c (6 * c) asid l.spot l.data).spotCombined c l.spot
      let nos := s.pendingBefore c
      { (s.release sc).published c sc l.spot.code l.size false nos with cur := here }

/-- What has to be performed for some of the accesses that a core holds back, by number: they and what they come after. -/
def closureOf (l : List Late) (p : Late → Bool) : List Nat :=
  l.reverse.foldl (fun w x => if w.contains x.id || p x then x.id :: (x.after ++ w) else w) []

/-- Those accesses of a core that meet a condition are performed, each after what it comes after (R141, R142). -/
def performQueue (s : State) (c : Nat) (p : Late → Bool) : State :=
  let k := s.core c
  let w := closureOf k.late p
  if w.isEmpty then s
  else
    (k.late.filter fun x => w.contains x.id).foldl (State.performOne c)
      (s.setCore c { k with late := k.late.filter fun x => !w.contains x.id })

/-- Every access that a core holds back is performed. -/
def performAll (s : State) (c : Nat) : State := s.performQueue c fun _ => true

/-- What a core has started takes effect: the accesses that it holds back and its timed writes. -/
def landAll (s : State) (c : Nat) : State := (s.performAll c).landPend c

/-- The device may hold an access back: its choice, outside deterministic and timed mode (R141, R145). -/
def holdsBack (s : State) (n : Nat) : Bool := !s.here.sys.det && !s.here.sys.timed && Config.choose s.free n

/-- Where an access lies, as far as the remap filter of the die tells: its bytes of the scratchpads, above every address, or of memory
(R141). -/
def canonRange (s : State) (va size : Nat) : Nat × Nat :=
  match window s.cur.core s.here va size with
  | .ok (.spad key) => (2 ^ 64 + key, 2 ^ 64 + key + size)
  | _ =>
    let cva := canonVA s (dieOf s.cur.core) s.here.sys.asid va
    (cva, cva + size)

/-- A scalar access of the sequencer comes after an older one that shares a byte with it, as the remap filter tells now, and after an older one
of its own queue; but of two accesses to one byte through synonyms that the filter does not tell, either comes first (R141, R142). -/
def comesAfter (s : State) (l : Late) (va size : Nat) (spot : Spot) (isLoad : Bool) : Bool :=
  rangesMeet (s.canonRange l.va l.size) (s.canonRange va size) ||
    (decide (l.load.isSome = isLoad) && !rangesMeet (l.spot.code, l.spot.code + l.size) (spot.code, spot.code + size))

/-- A scalar access of the sequencer enters its queue. It is performed now, after what it comes after, or stays behind (R141, R142). -/
def issueAccess (s : State) (va size : Nat) (spot : Spot) (load : Option (Fmt × Nat)) (data : List Byte) (rel : Option Scope) : State :=
  let c := s.cur.core
  let x := s.en .sq
  let after := s.here.late.filter fun l => s.comesAfter l va size spot load.isSome
  let id := s.nextId
  let l : Late := ⟨id, x.issued, x.clk, x.joined, va, size, spot, load, data, rel, after.map fun l => l.id⟩
  let t := { learnSpot s c s.here.sys.asid va false spot with nextId := id + 1 }
  let t := t.upd fun k => { k with late := k.late ++ [l] }
  if s.holdsBack 0 then t else t.performQueue c fun y => decide (y.id = id)

/-- The bookkeeping of releases and acquires for size bytes at va of the core under the cursor, where there is any. -/
def atSpot (s : State) (va size : Nat) (f : State → Nat → State) : State :=
  if (s.die (dieOf s.cur.core)).syncs.isEmpty && s.here.fenced.isEmpty then s
  else
    match spotOf s s.cur.core s.here.sys.asid .read (va, size) with
    | .ok p => f s p.code
    | .error _ => s

/-- The scalar access goes through the queues: the device holds something back, or holds this access back. -/
def queues (s : State) : Bool := s.holdsBack 0 || !s.here.late.isEmpty

end State

/-! Accesses wider than 8 bytes -/

/-- Cuts an access of n bytes at va, with its offset in a register, at the multiples of 8 (R145). -/
def units : Nat → Nat → Nat → Nat → List (Nat × Nat × Nat)
  | 0, _, _, _ => []
  | _ + 1, _, _, 0 => []
  | f + 1, off, va, n => let m := min n (8 - va % 8); (off, va, m) :: units f (off + m) (va + m) (n - m)

/-- Loads runs into a number by their byte offsets. -/
def loadRuns : List (Nat × Nat × Nat) → State → Nat × State
  | [], s => (0, s)
  | (off, va, n) :: r, s =>
    let (bs, s) := s.load va n
    let (x, s) := loadRuns r s
    (x + (ofBytes bs) <<< (8 * off), s)

/-- Of the units of a load's runs those that it reads now and those that it reads later: the device's choice (R145). -/
def State.tearLoad (s : State) (runs : List (Nat × Nat × Nat)) : List (Nat × Nat × Nat) × List (Nat × Nat × Nat) :=
  if s.holdsBack 1 then
    let l := (runs.flatMap fun r => units r.2.2 r.1 r.2.1 r.2.2).zipIdx
    ((l.filter fun x => !Config.lane s.free 50000 x.2).map Prod.fst, (l.filter fun x => Config.lane s.free 50000 x.2).map Prod.fst)
  else (runs, [])

/-- Stores bytes of a tensor or of any other place for engine e; a store into memory carries its generation (R161). -/
def State.storeGen (s : State) (e : Eng) (gen : Option GenRef) (nt : Bool) (va : Nat) (bs : List Byte) : State :=
  match gen, window s.cur.core s.here va bs.length with
  | some _, .ok .glob => writePieces s.cur.core (s.stream e) s.here.sys.asid gen nt (pieces bs.length va bs.length) bs s
  | _, _ => s.store e va bs nt

/-- Stores units one after another, of which the device may leave some for later: a unit that meets one that waits comes after it. The
result is what waits, in order (R145). -/
def tearUnits (e : Eng) (gen : Option GenRef) (nt : Bool) (tick : Nat) :
    List (Nat × Nat × List Byte) → List (Nat × Nat) → List TornUnit → State → List TornUnit × State
  | [], _, rest, s => (rest, s)
  | (n, va, bs) :: r, held, rest, s =>
    match Config.lane tick 60000 n || held.any (rangesMeet (va, va + bs.length)),
        spotOf s s.cur.core s.here.sys.asid .write (va, bs.length) with
    | true, .ok spot =>
      tearUnits e gen nt tick r ((va, va + bs.length) :: held) (rest ++ [⟨spot, bs, nt, gen⟩])
        (learnSpot s s.cur.core s.here.sys.asid va nt spot)
    | _, _ => tearUnits e gen nt tick r held rest (s.storeGen e gen nt va bs)

/-- Performs stores one after another; where the device tears them, what waits (R145). -/
def State.tearStores (s : State) (e : Eng) (gen : Option GenRef) (nt : Bool) (l : List (Nat × List Byte)) : List TornUnit × State :=
  if s.holdsBack 1 then
    let us := l.flatMap fun x => (units x.2.length 0 x.1 x.2.length).map fun u => (u.2.1, (x.2.drop u.1).take u.2.2)
    tearUnits e gen nt s.free (us.zipIdx.map fun x => (x.2, x.1.1, x.1.2)) [] [] s
  else ([], l.foldl (fun s x => s.storeGen e gen nt x.1 x.2) s)

/-- What waits of a store is performed (R145). -/
def State.performTorn (s : State) (e : Eng) (l : List TornUnit) : State :=
  l.foldl (fun s u => putSpot s s.cur.core (s.stream e) s.here.sys.asid u.spot u.data u.gen u.nt) s

/-! Finishing a word -/

/-- A word of engine e finishes: its tokens are gone, its pushes are made or owed, and the engine passes to a word (R67, R82,
R92, R119). src is the address of a taken transfer, or 0. -/
def Core.leave (k : Core) (e : Eng) (dst src : Word) : Core :=
  let k := k.onEn e fun x =>
    { x with pc := dst, walk := x.walk + 1, last := k.cyc, src := src, popped := [], clk0 := x.clk,
             joined0 := x.joined, owed := x.owed ||| x.push, push := 0, wait := none }
  k.pushOwed e

/-- A word of engine e finishes and the engine goes on at the next word. -/
def State.done (s : State) (e : Eng) : Res := .next (s.upd fun k => k.leave e ((k.en e).pc + 8) 0)

/-- A word that cannot start leaves no trace (R82): it is met again. -/
def State.stall (s : State) (e : Eng) : Res := .next (s.upd fun k => k.unpop e)

/-- A word of engine e has started and waits. -/
def State.await (s : State) (e : Eng) (w : Wait) : Res := .next (s.upd fun k => k.onEn e fun x => { x with wait := some w })

/-- A load has what it reads now and finishes, or has still to read some units (R145). -/
def State.loaded (s : State) (e : Eng) (d : Dest) (bm val : Nat) (later : List (Nat × Nat × Nat)) : Res :=
  if later.isEmpty then (s.wr e d bm val).done e else s.await e (.tornLoad d bm val later)

/-- A load of runs into a register where the bit mask has ones (R145, R163). -/
def State.loadInto (s : State) (e : Eng) (d : Dest) (bm : Nat) (runs : List (Nat × Nat × Nat)) : Res :=
  let p := s.tearLoad runs
  let (x, s) := loadRuns p.1 s
  s.loaded e d bm x p.2

/-- A store has performed its bytes and finishes: its events reach SYS.FLAGS, and a counted drain is due at its counter (R55, R355). It has
still to perform some units otherwise (R145). -/
def State.storedAll (s : State) (e : Eng) (rest : List TornUnit) (events : Flags) (count : Option Nat) : Res :=
  if rest.isEmpty then
    let s := s.orFlags e events
    (match count with
      | some n => { s with chunkDue := s.chunkDue ++ [(s.here.inst, n)] }
      | none => s).done e
  else s.await e (.tornStore rest events count)

/-- A store of bytes at addresses, in order (R145, R163). -/
def State.storeAll (s : State) (e : Eng) (nt : Bool) (l : List (Nat × List Byte)) (events : Flags := 0) (count : Option Nat := none) : Res :=
  let (rest, s) := s.tearStores e none nt l
  s.storedAll e rest events count

/-! Traps -/

/-- The image of SYS.TRAPCAUSE at a delivery: OVF is left alone, ACTIVE comes separately (R283). -/
def causeWord (old : Word) (code : Code) (eng : Nat) (isAsync : Bool) (arg : BitVec 16) (cseq : BitVec 32) : Word :=
  BitVec.ofNat 64 (code.toNat + eng % 8 * 2 ^ 8 + (if isAsync then 2 ^ 11 else 0) + (if bit old 14 then 2 ^ 14 else 0) +
    (if bit old 15 then 2 ^ 15 else 0) + arg.toNat * 2 ^ 16 + cseq.toNat * 2 ^ 32)

/-- Sets or clears ACTIVE (R283). -/
def setActive (c : Word) (a : Bool) : Word := if a then c ||| 0x8000 else c &&& ~~~0x8000

/-- SYS.MODE as it reads (R80). -/
def Sys.mode (y : Sys) : Word :=
  BitVec.ofNat 64 (y.toklost.toNat * 256 + (if y.det then 2 else 0) + (if y.timed then 1 else 0))

/-- A started instruction that is no waiting instruction: it finishes before a trap is delivered (R285). -/
def Wait.finishes : Wait → Bool
  | .lines _ | .tornLoad _ _ _ _ | .tornStore _ _ _ | .tried _ _ _ | .withdrawn _ _ | .remote _ => true
  | _ => false

/-- Another engine than e is still finishing an instruction that it has started (R285). -/
def Core.finishing (k : Core) (e : Option Eng) : Bool :=
  Eng.all.any fun f => decide (some f ≠ e) && match (k.en f).wait with | some w => w.finishes | none => false

/-- The sequencer waits for a request that is with its home or on its way: before a trap is delivered the request is withdrawn, and the
outcome decides the held position (R324). -/
def Core.requesting (k : Core) : Bool :=
  match (k.en .sq).wait with
  | some (.tuple seq _ _) => k.mcmds.any fun m => decide (m.inst = k.inst) && decide (m.msg.seq = seq)
  | _ => false

/-- A request for which the sequencer waits is to be withdrawn (R324). -/
def Core.withdrawWait (k : Core) : Core :=
  match (k.en .sq).wait with
  | some (.tuple seq _ _) =>
    { k with mcmds := k.mcmds.map fun m => if m.inst = k.inst ∧ m.msg.seq = seq then { m with withdraw := true } else m }
  | _ => k

/-- The other engines stop: a waiting instruction is abandoned and becomes the held position, its tokens back in their
queues (R285); a request for which it waits is withdrawn (R324). -/
def Core.stopOthers (k : Core) : Core :=
  Eng.all.foldl (fun (k : Core) e => (k.unpop e).onEn e fun x => { x with wait := none }) k.withdrawWait

/-- The frame held at a trap (R294). -/
def Core.holdFrame (k : Core) (eng : Nat) (isAsync tag6 : Bool) : Frame :=
  { pcs := Eng.all.map fun e => (k.en e).pc
    occupancy := Eng.all.map fun e => (k.en e).ctl.length
    tokens := (List.range 30).map fun q => (k.tokens q).length
    mode := k.sys.mode
    sq := k.en .sq
    eng := eng
    isAsync := isAsync
    tag6 := tag6 }

/-- Enters handler mode at TRAPVEC.ADDR (R284, R286). -/
def Core.enterHandler (k : Core) (eng : Nat) (isAsync tag6 : Bool) : Core :=
  let f := k.holdFrame eng isAsync tag6
  let k := k.onEn .sq fun x => { x with pc := k.sys.trapvec &&& 0x01FFFFFFFFFFFFC0, src := 0, owed := 0, owedCtl := [] }
  { k with phase := .handler, frame := some f,
           sys := { k.sys with cause := setActive k.sys.cause true, timed := false } }

/-- Delivers a trap whose registers are written: to the handler, or to abandonment where no handler is enabled or one is
already running (R286, R288). -/
def Core.deliver (k : Core) (code : Code) (eng : Nat) (isAsync tag6 : Bool) : Core :=
  let k := { k.stopOthers with eventHeld := false }
  if k.phase = .handler then { k with phase := .abandoning code true }
  else if bit k.sys.trapvec 0 then k.enterHandler eng isAsync tag6
  else { k with phase := .abandoning code false }

/-- A trap of engine e waits while another engine finishes an instruction that it has started, or the request of a waiting sequencer is
withdrawn: the word has no effect, and no engine starts another (R285, R324). -/
def Core.holdTrap (k : Core) (e : Eng) (t : TrapHeld) : Core :=
  { (k.unpop e).withdrawWait with trapHeld := match k.trapHeld with | some u => some u | none => some t }

/-- Trap(cause) on engine e at the word it has reached (R8, R119, R283, R285). Timed writes of started words land first. -/
def State.trap (s : State) (e : Eng) (code : Code) (arg : BitVec 16 := 0) (tag6 : Bool := false) : Res :=
  if s.here.finishing (some e) || s.here.requesting then .next (s.upd fun k => k.holdTrap e ⟨e.tag, code, arg, tag6⟩)
  else
  let s := s.landAll s.cur.core
  .next (s.upd fun k =>
    let x := k.en e
    let k := { k with trapHeld := none, sys := { k.sys with
      cause := causeWord k.sys.cause code e.tag false arg 0, trapaddr := x.pc, trapsrc := x.src } }
    k.deliver code e.tag false tag6)

/-- The trap that waits is delivered, where nothing holds it any longer (R285). -/
def State.heldTrap (s : State) (t : TrapHeld) : Res := s.trap (Eng.ofTag t.eng) t.code t.arg t.tag6

/-- The return from a trap: the held frame goes back, with the sequencer at a word (R291). -/
def Core.resumeFrame (k : Core) (f : Frame) : Core :=
  let k := k.onEn .sq fun x => { f.sq with issued := x.issued, clk := x.clk, joined := x.joined, popped := [], push := 0 }
  { k with phase := .running, frame := none,
           sys := { k.sys with cause := setActive k.sys.cause false, timed := bit f.mode 0 } }

/-- Appends an asynchronous event, or sets OVF where the queue is full (R287). -/
def Core.pushEvent (k : Core) (ev : AsyncEv) : Core :=
  if k.events.length < 16 then { k with events := k.events ++ [ev] }
  else { k with sys := { k.sys with cause := k.sys.cause ||| 0x4000 } }

/-- A check in a meaning: goes on where it holds, else traps on engine e. -/
def need (s : State) (e : Eng) (c : Bool) (code : Code) (k : Res) : Res := if c then k else s.trap e code

/-- Continues with the value of a check, or traps on engine e. -/
def orTrap {α : Type} (s : State) (e : Eng) (x : Except Code α) (k : α → Res) : Res :=
  match x with
  | .ok a => k a
  | .error c => s.trap e c

end Sys2Proof.Machine
end

