-- ==== Sys2Proof/Machine/Operands.lean ====
section
/-! DEFINITION. Operand forms: immediates, targets, row and lane addresses, element views of registers, and the timed latency
of each instruction (R72, R86, R111, R162 to R168, R194). -/

namespace Sys2Proof.Machine

/-- An immediate sign-extended to 64 bits (R72). -/
def sx {w : Nat} (x : BitVec w) : Word := x.signExtend 64

/-- An immediate zero-extended to 64 bits. -/
def zx {w : Nat} (x : BitVec w) : Word := x.setWidth 64

/-- The target of a branch offset in words (R66). -/
def target {w : Nat} (pc : Word) (off : BitVec w) : Word := pc + sx off * 8

/-- The 64-bit sum of an address and an offset, as a number (R111). -/
def addr (base : Word) (off : Int) : Nat := (base + BitVec.ofInt 64 off).toNat

/-- The eight row addresses of a strided access: A + i x sb with A = sa + 128 x off (R164). -/
def rowAddrs (sa sb : Word) (off : BitVec 13) : List Nat :=
  let A := addr sa (128 * off.toInt)
  (List.range 8).map fun (i : Nat) => addr (BitVec.ofNat 64 A) (i * sb.toInt)

/-- n row addresses A + i x sb, for accumulators and other tiles (R168, R174). -/
def tileAddrs (sa sb : Word) (n : Nat) : List Nat := (List.range n).map fun (i : Nat) => addr sa (i * sb.toInt)

/-- Bytes of a format's elements, for 8, 16 and 32 bits. -/
def Fmt.width (f : Fmt) : Nat := f.bits / 8

/-- Elements of a register (R162, R194). -/
def elems (f : Fmt) (x : VReg) : List Nat := (List.range (8192 / f.bits)).map fun k => elemOf f.bits x.toNat k

/-- The lane that holds element k of a format (R162). -/
def laneOf (f : Fmt) (k : Nat) : Nat := k * f.bits / 32

/-- Lane L of a register, 32 bits. -/
def laneBits (x : VReg) (L : Nat) : Nat := elemOf 32 x.toNat L

/-- The 1,024 bytes of a register. -/
def vbytes (x : VReg) : List Byte := toBytes 1024 x.toNat

/-- Element (r, c) of an accumulator tile, an FP32 encoding (R219). -/
def tileElem (t : Tile) (r c : Nat) : Nat := elemOf 32 t.toNat (128 * r + c)

/-- A row of an accumulator tile. -/
def tileRow (t : Tile) (r : Nat) : List Nat := (List.range 128).map fun c => tileElem t r c

/-- Packs MX element codes by R42: 8-bit elements in bytes, 4-bit two to a byte, 6-bit four to three bytes. -/
def packMx (f : Fmt) (codes : List Nat) : Nat := packElems f.bits codes

/-- Packs w-bit elements at their places in a long row; as packElems, in halves so that it stays shallow. -/
def packRow (w : Nat) (l : List Nat) : Nat := packElems w l

/-- Does an instruction's class give it latency 2 or 4 by its type (R86, R218)? -/
def vlat (ty : Fmt) : Nat := if ty.isVInt then 2 else 4

/-- The timed latency of an instruction (R86, R126, R157, R178, R185, R188, R231, R232, R241, R259, R279, R289, R318, R333,
R350, R367): what the tables name, and 1 otherwise. -/
def latency : Instr → Nat
  | .mul _ _ _ | .mulh _ _ _ _ | .muli _ _ _ => 3
  | .div _ _ _ _ | .rem _ _ _ _ => 24
  | .ld _ _ _ _ | .ldacq _ _ _ _ _ | .amo _ | .amocas _ _ _ _ _ _ _ => 6
  | .vld _ | .vldg _ | .vldb _ | .vldm _ _ _ | .vlda _ _ _ | .vldx _ => 8
  | .vldt _ => 10
  | .xunpk _ _ _ | .xpk _ _ _ | .xperm _ _ _ | .xcat _ _ _ _ => 4
  | .xtr _ _ _ => 6
  | .xhq _ _ _ _ _ _ _ | .xhdq _ _ _ _ _ _ _ => 12
  | .vadd o | .vsub o | .vmul o | .vfma o | .vfms o | .vmin o | .vmax o | .vabs o | .vneg o => vlat o.ty
  | .vadds _ | .vsubs _ | .vand _ | .vor _ | .vxor _ | .vnot _ | .vshl _ | .vshr _ | .vsra _ => 2
  | .vcvt _ _ _ src _ ty _ _ => if src.isVInt && ty.isVInt then 2 else 4
  | .vcvtmx _ | .vdqmx _ => 4
  | .vcmp _ _ _ _ _ _ ty => vlat ty
  | .vcmpi _ _ _ _ _ _ => 2
  | .vsel _ _ _ _ _ _ | .vmov _ | .vbcast _ _ _ _ | .vperm _ | .vslide _ _ _ _ _ | .viota _ | .vaddi _ | .vmuli _ => 2
  | .vandi _ | .vori _ | .vshli _ | .vshri _ | .vli _ => 2
  | .vmand _ _ _ _ | .vmor _ _ _ _ | .vmxor _ _ _ _ | .vmnot _ _ _ | .vmpop _ _ _ | .vmfirst _ _ _ => 2
  | .vaccr _ _ _ _ | .vaccw _ _ _ _ => 2
  | .vdiv _ | .vsqrt _ => 16
  | .vredsum _ | .vredmax _ | .vredmin _ | .vdot _ => 10
  | .vexp2 _ | .vlog2 _ | .vrcp _ | .vrsqrt _ | .vsinT _ | .vcosT _ => 14
  | .vst _ | .vsc _ | .vsm _ _ _ | .vsa _ _ _ _ | .vsx _ => 6
  | .vsdrain _ _ _ _ _ _ _ _ _ _ _ => 36
  | .barinit _ _ _ | .barexp _ _ | .barar _ _ _ | .bartry _ _ _ => 6
  | .cpld _ _ | .cpst _ _ | .cpg _ _ | .cpsc _ _ | .cpmem _ _ => 6
  | .cpcancel _ | .renq _ _ _ | .clrun _ _ | .rshd _ _ _ _ _ _ _ => 6
  | .rgclaim _ _ | .rgtry _ _ | .rgfill _ _ | .rgrel _ _ => 6
  | .barwait _ _ | .rgwaitf _ _ | .waita _ _ => 6
  | .mxcfgl _ => 8
  | .clchunk _ _ | .clstatCc _ _ | .clstatGrp _ _ => 2
  | .mapld _ _ | .mapst _ _ | .mapbind _ _ | .mapbindU _ => 6
  | .rshdq _ _ _ _ _ => 40
  | .mxcancel _ | .mxcancelAll _ | .mxprog _ | .mxprogQ _ => 2
  | .gsave _ _ | .gload _ _ => 6
  | .gkey _ _ _ | .gdraw _ _ => 12
  | .gfill _ _ _ _ _ | .gfillS _ _ _ _ => 12
  | .seqget _ _ _ => 2
  | .appt _ _ _ _ => 40
  | .tsave _ => 6
  | .mdep _ _ _ | .mrd _ _ _ | .mtake _ _ _ | .mtrydep _ _ _ | .mtryrd _ _ _ | .mtrytk _ _ _ | .mwithdraw _ _ _ => 6
  | .clgrp _ _ _ => 40
  | .nmrun _ _ | .nmstat _ _ | .nmstop _ _ => 6
  | _ => 1

end Sys2Proof.Machine
end

