-- ==== Sys2Proof/Machine/Flags.lean ====
section
/-! DEFINITION. Conditions and flags: the sequencer's condition codes, the vector compare conditions and what compares and
selections of exact values give (R54 to R56, R102, R198, R201). -/

namespace Sys2Proof.Machine

/-- A condition code on two 64-bit values (R102). -/
def evalCond (c : Cond) (a b : Word) : Bool :=
  match c with
  | .eq => a == b
  | .ne => a != b
  | .lti => a.slt b
  | .gei => !a.slt b
  | .ltn => a.ult b
  | .gen => !a.ult b
  | .gti => b.slt a
  | .lei => !b.slt a
  | .gtn => b.ult a
  | .len => !b.ult a

/-- A vector compare condition on two exact values (R201). -/
def evalVCond (c : VCond) (a b : Exact) : Bool :=
  match c with
  | .eq => Exact.eqv a b
  | .ne => !Exact.eqv a b
  | .lt => Exact.lt a b
  | .le => Exact.lt a b || Exact.eqv a b
  | .gt => Exact.lt b a
  | .ge => Exact.lt b a || Exact.eqv a b
  | .uno => a.isNan || b.isNan
  | .ord => !a.isNan && !b.isNan

/-- Floating minimum or maximum of two encodings of one format: NaN gives the canonical NaN, and minus zero lies below plus
zero (R198). -/
def floatPick (f : FloatFmt) (greatest : Bool) (a b : Nat) : Nat :=
  let x := f.value a
  let y := f.value b
  if x.isNan || y.isNan then f.nanCode
  else
    let less := Exact.lt x y || (Exact.eqv x y && x.isNeg && !y.isNeg)
    if less = greatest then b else a

/-- SYS.FLAGS as it reads (R54). -/
def Sys.flagsWord (y : Sys) : Word := y.flags.setWidth 64

end Sys2Proof.Machine
end

