-- ==== Sys2Proof/Machine/Tasks.lean ====
section
/-! DEFINITION. Tasks: blocks, queues, readiness, dispatch, retirement, sequence numbers and the event log (R260 to R268, R280,
R375). -/

namespace Sys2Proof.Machine

/-! Messages and the event log -/

/-- TYPE of what is sent (R347): 0 and 1 read and write requests, 2 data, 3 acknowledgements, 4 collective and 5 reshard data, 6 Moraine,
7 signals, 8 a NACK, 9 management. -/
def Out.type : Out → Nat
  | .line r => if r.write then 1 else 0
  | .lineReply _ _ _ data => if data = [] then 3 else 2
  | .moraine _ | .moraineWithdraw _ | .moraineReply _ => 6
  | .signal _ _ _ => 7
  | .signalDone _ ok => if ok then 3 else 8
  | .renq _ _ => 1
  | .renqDone _ _ _ _ => 3
  | .chunk _ _ _ _ _ _ | .hello _ _ => 4
  | .reshard _ => 5
  | .packet _ p => p.type.toNat
  | .hopAck _ _ ok => if ok then 3 else 8
  | .retired _ _ _ | .moved _ _ _ | .lost _ _ _ | .ended _ _ _ => 9
  | .hostRead _ _ | .report _ _ _ => 2

/-- Bytes of a payload block (R42, R358, R359): a wire block has 32 significands of 80 bits, the exponent, four masks and the residue, an MX
block its codes, its scale and the residue. -/
def Payload.size (f : Fmt) : Payload → Nat
  | .none => 0
  | .block _ => 340
  | .mx _ codes _ => ceilDiv (codes.length * f.bits) 8 + 3
  | .ints xs => 4 * xs.length
  | .bytes bs => bs.length

/-- Bytes of one flit (R347). -/
def flitBytes : Nat := 64

/-- Payload flits that some blocks of a format take (R347). -/
def payloadFlits (f : Fmt) (l : List Payload) : Nat := ceilDiv ((l.map (Payload.size f)).sum) flitBytes

/-- The virtual channel of a packet type; Moraine replies travel with the other replies (R344). -/
def channelOf (type : Nat) (reply : Bool) : Nat :=
  if type = 0 ∨ type = 1 ∨ type = 7 then 0
  else if type = 2 ∨ type = 3 ∨ type = 8 then 1
  else if type = 4 ∨ type = 5 then 2
  else if type = 6 then (if reply then 1 else 0)
  else 3

/-- The virtual channel of what is sent (R344). -/
def Out.vc (o : Out) : Nat := channelOf o.type (match o with | .moraineReply _ => true | _ => false)

/-- It does not leave through the fabric. -/
def Out.isHost : Out → Bool
  | .hostRead _ _ | .report _ _ _ => true
  | _ => false

/-- LEN of what is sent, where the spec says what follows the header (R345, R347): lines, chunks and packets. -/
def Out.len (o : Out) (f : Fmt) : Nat :=
  match o with
  | .line r => if r.write then ceilDiv r.data.length flitBytes else 0
  | .lineReply _ _ _ data => ceilDiv data.length flitBytes
  | .renq _ r => ceilDiv r.block.length flitBytes
  | .chunk _ _ _ _ _ data => payloadFlits f data
  | .packet _ p => p.len.toNat
  | _ => 0

/-- A fabric port. -/
def State.port (s : State) (n : Nat) : Port := Bank.get Port.zero s.ports n

/-- Replaces a fabric port. -/
def State.setPort (s : State) (n : Nat) (p : Port) : State := { s with ports := Bank.set Port.zero s.ports n p }

/-- The ports that are up and have no failed link. -/
def State.goodPorts (s : State) : List Nat := (List.range 48).filter fun n => decide ((s.port n).st = 2 ∧ (s.port n).failed = false)

/-- A port is a failed link: retired, or its peer has stopped responding (R342). -/
def Port.down (x : Port) : Bool := decide (x.st = 3) || x.failed

/-- Entry 0 of a route list is rewritten where its port is a failed link and another port is up (R342, R348). -/
def State.rerouteHead (s : State) (l : List (BitVec 16)) : List (BitVec 16) :=
  match l with
  | [] => []
  | e :: r =>
    let port := slice e 5 0
    let good := s.goodPorts
    if slice e 7 6 ≠ 3 ∧ (s.port port).down = true ∧ good ≠ [] then
      BitVec.ofNat 16 (good.getD (Config.pick s.free port % good.length) 0 + slice e 7 6 * 64) :: r
    else l

/-- A route list of one leg: the table of routes is the control node's and the spec gives no layout of it, so that the hops before the
last, which delivers, are free (R348). -/
def legRoute (tick k : Nat) : Nat × List (BitVec 16) :=
  let n := 1 + Config.pick tick (16 * k) % 8
  (n, (List.range 8).map fun i =>
    if i + 1 = n then 0x00C0
    else if n ≤ i then 0
    else BitVec.ofNat 16 (Config.pick tick (16 * k + 1 + i) % 48 + 64 * (Config.pick tick (16 * k + 8 + i) % 3)))

namespace State

/-- The source id of a unit (R280, R347). -/
def sid (s : State) (cls num : Nat) : Word :=
  BitVec.ofNat 64 (slice s.coord 47 0 + (Config.unitClass cls).toNat * 2 ^ 48 + num % 256 * 2 ^ 52)

/-- Writes a record to the ring, holds it, or counts it in LOST (R375). The ring's bytes are those of EventLog.image. -/
def putRec (s : State) (r : LogRec) : State :=
  let l := s.log
  if l.held.isEmpty && decide (l.head < l.tail + l.entries) then
    let n := l.head % l.entries
    { s with log := { l with head := l.head + 1, ring := (n, r) :: l.ring.filter fun x => decide (x.1 ≠ n) } }
  else if l.held.length < 1024 then { s with log := { l with held := l.held ++ [r] } }
  else { s with log := { l with lost := l.lost + 1 } }

/-- The held records that the ring takes after TAIL has moved (R375). -/
def drainLog : Nat → State → State
  | 0, s => s
  | n + 1, s =>
    match s.log.held with
    | [] => s
    | r :: rest =>
      if s.log.head < s.log.tail + s.log.entries then
        let s := { s with log := { s.log with held := [] } }
        let s := s.putRec r
        drainLog n { s with log := { s.log with held := rest } }
      else s

/-- Logs an event that carries a number of its own (R280). -/
def logNum (s : State) (cls num : Nat) (sseq : BitVec 32) (kind : Nat) (code : BitVec 8) (inH : Bool) (task aux : BitVec 32)
    (addr : Word) : State :=
  s.putRec ⟨s.sid cls num, sseq, kind, code, inH, task, aux, addr⟩

/-- Logs an event under its unit's own count (R280). -/
def logOwn (s : State) (cls num kind : Nat) (code : BitVec 8) (inH : Bool) (task aux : BitVec 32) (addr : Word) : State :=
  let n := Bank.get 0 s.counts (cls * 256 + num)
  { s with counts := Bank.set 0 s.counts (cls * 256 + num) (n + 1) }.logNum cls num n kind code inH task aux addr

/-- A refusal at the Berku port (R373, R374). -/
def logRefused (s : State) (addr : Word) : State := s.logOwn 5 0 6 0 false 0 0 addr

/-- A unit sends a message under a number, or under its own count (R280, R347); f is the format of a chunk's elements. -/
def post (s : State) (cls num : Nat) (seq : Option (BitVec 32)) (o : Out) (f : Fmt := .f32) : State :=
  let n := seq.getD (Bank.get 0 s.counts (cls * 256 + num))
  let leg := if o.isHost then (0, []) else legRoute s.free s.outbox.length
  { s with
    outbox := s.outbox ++ [⟨o.type, o.vc, o.len f, s.sid cls num, n, leg.1, s.rerouteHead leg.2, o⟩]
    counts := if seq.isSome then s.counts else Bank.set 0 s.counts (cls * 256 + num) (n + 1) }

/-! Sequence numbers -/

/-- The core on which a task instance runs, is abandoned or is being saved. -/
def coreOf (s : State) (inst : Nat) : Option Nat :=
  (s.cores.find? fun ck => decide (ck.2.phase ≠ .idle) && decide (ck.2.inst = inst)).map Prod.fst

/-- The pre-empted task of an instance. -/
def savedOf (s : State) (inst : Nat) : Option Saved := s.saved.find? fun v => decide (v.inst = inst)

end State

/-- Number p counted back from NEXT names an issued number (R268, R270). -/
def issuedNo (next p : BitVec 32) : Bool := decide (1 ≤ (next - p).toNat) && decide ((next - p).toNat ≤ 2 ^ 31)

/-- A number of a task has retired (R268). -/
def retiredNo (next : BitVec 32) (live : List (BitVec 32)) (p : BitVec 32) : Bool := issuedNo next p && !live.contains p

/-- RMARK after numbers have retired (R266, R268). -/
def markOf (next : BitVec 32) (live : List (BitVec 32)) : BitVec 32 := live.headD next

/-- A number of the running task retires (R268). -/
def Core.retireNo (k : Core) (p : BitVec 32) : Core :=
  let live := k.live.filter fun q => decide (q ≠ p)
  { k with live := live, sys := { k.sys with rmark := markOf k.sys.next live } }

namespace State

/-- The numbers of a task instance that have not retired (R268). -/
def liveOf (s : State) (inst : Nat) : List (BitVec 32) :=
  match s.coreOf inst with
  | some c => (s.core c).live
  | none => match s.savedOf inst with | some v => v.live | none => []

/-- Writes the held records of a task's commands, in the order of their numbers, as far as no lower number is still to retire
(R280). -/
def flushLog (s : State) (inst : Nat) : State :=
  let live := s.liveOf inst
  let early (r : LogRec) : Bool := live.any fun p => decide (p ≠ r.sseq) && issuedNo r.sseq p
  let ready := (s.logWait.filter fun x => decide (x.1 = inst) && !early x.2).map Prod.snd
  let before (a b : LogRec) : Bool := issuedNo b.sseq a.sseq
  (ready.mergeSort fun a b => !before b a).foldl putRec
    { s with logWait := s.logWait.filter fun x => !(decide (x.1 = inst) && !early x.2) }

/-- Writes the held launch records of a PART, in the order of their launch numbers, as far as no launch of a lower number is still to retire
(R280). -/
def flushLaunch (s : State) (part : BitVec 16) : State :=
  let early (r : LogRec) : Bool := s.launchLive.any fun x => decide (x.1 = part) && decide (x.2 ≠ r.sseq) && issuedNo r.sseq x.2
  let ready := (s.launchWait.filter fun x => decide (x.1 = part) && !early x.2).map Prod.snd
  let before (a b : LogRec) : Bool := issuedNo b.sseq a.sseq
  (ready.mergeSort fun a b => !before b a).foldl putRec
    { s with launchWait := s.launchWait.filter fun x => !(decide (x.1 = part) && !early x.2) }

/-- A launch, retire or launch-failed record of a task: the launch numbers of a PART ascend (R280, R375). -/
def logTask (s : State) (c kind : Nat) (code : BitVec 8) (inH : Bool) (task : BitVec 32) (org : Origin) (addr : Word) : State :=
  match org with
  | .launch p n => ({ s with launchWait := s.launchWait ++ [(p, ⟨s.sid 0 c, n, kind, code, inH, task, n, addr⟩)] } : State).flushLaunch p
  | .renq _ | .away _ _ => s.logOwn 0 c kind code inH task 0xFFFFFFFF addr

/-- Logs an event of a numbered command: within one source the numbers ascend (R280). -/
def logCommand (s : State) (inst : Nat) (r : LogRec) : State := ({ s with logWait := s.logWait ++ [(inst, r)] } : State).flushLog inst

/-- Blocks on other packages that name a number of a task hear that it has retired, by the request that placed the block here or, of a task
that came from there, by its task id (R265). -/
def tellWatchers (s : State) (gone : Watch → Bool) : State :=
  (s.watches.filter gone).foldl (fun s w =>
    s.post 0 0 none (match w.tag with | some tag => .retired w.pkg tag w.pred | none => .moved w.pkg w.task w.pred))
    { s with watches := s.watches.filter fun w => !gone w }

/-- A number of a task instance retires, wherever the task is (R265, R268). -/
def retire (s : State) (inst : Nat) (p : BitVec 32) : State :=
  let drop (v : Saved) : Saved := if v.inst = inst then { v with live := v.live.filter fun q => decide (q ≠ p) } else v
  let s := match s.coreOf inst with
    | some c => s.setCore c ((s.core c).retireNo p)
    | none => ({ s with saved := s.saved.map drop } : State)
  (s.tellWatchers fun w => decide (w.inst = inst) && decide (w.pred = p)).flushLog inst

/-- Has a number of a task instance retired? A task that has ended has retired them all (R128, R265). -/
def hasRetired (s : State) (inst : Nat) (p : BitVec 32) : Bool :=
  match s.coreOf inst with
  | some c => retiredNo (s.core c).sys.next (s.core c).live p
  | none =>
    match s.savedOf inst with
    | some v => retiredNo v.next v.live p
    | none => true

/-- Has a launch number of a partition retired (R261, R263)? -/
def launchRetired (s : State) (part : BitVec 16) (n : BitVec 32) : Bool :=
  issuedNo (Bank.get 0 s.launchNext part.toNat) n && !s.launchLive.contains (part, n)

/-! Blocks -/

end State

/-- The task command block of 64 bytes, or none where it is malformed (R3, R260). -/
def readTcb (b : List Byte) : Option Tcb :=
  let fl := fieldAt b 30 1
  let p0 : Bool := fl.testBit 3
  let p1 : Bool := fl.testBit 4
  if fieldAt b 0 8 % 64 ≠ 0 ∨ fieldAt b 16 8 % 128 ≠ 0 ∨ fieldAt b 28 2 ≥ 4096 ∨ fl ≥ 32 ∨ fieldAt b 31 1 ≠ 0 ∨
      fieldAt b 36 4 > 256 ∨ (p0 = false ∧ fieldAt b 40 4 ≠ 0) ∨ (p1 = false ∧ fieldAt b 44 4 ≠ 0) ∨ fieldAt b 52 12 ≠ 0 then none
  else some {
    entry := BitVec.ofNat 64 (fieldAt b 0 8)
    arg := BitVec.ofNat 64 (fieldAt b 8 8)
    shapebase := BitVec.ofNat 64 (fieldAt b 16 8)
    taskid := BitVec.ofNat 32 (fieldAt b 24 4)
    asid := BitVec.ofNat 12 (fieldAt b 28 2)
    cls := fl.testBit 0
    det := fl.testBit 1
    urgent := fl.testBit 2
    pred0 := if p0 then some (BitVec.ofNat 32 (fieldAt b 40 4)) else none
    pred1 := if p1 then some (BitVec.ofNat 32 (fieldAt b 44 4)) else none
    seqbase := BitVec.ofNat 32 (fieldAt b 32 4)
    pages := fieldAt b 36 4
    wdog := BitVec.ofNat 32 (fieldAt b 48 4) }

/-- The 64 bytes of a block (R260). -/
def tcbBytes (t : Tcb) : List Byte :=
  let b (x : Bool) (n : Nat) : Nat := if x then n else 0
  toBytes 8 t.entry.toNat ++ toBytes 8 t.arg.toNat ++ toBytes 8 t.shapebase.toNat ++ toBytes 4 t.taskid.toNat ++
    toBytes 2 t.asid.toNat ++
    toBytes 1 (b t.cls 1 + b t.det 2 + b t.urgent 4 + b t.pred0.isSome 8 + b t.pred1.isSome 16) ++ toBytes 1 0 ++
    toBytes 4 t.seqbase.toNat ++ toBytes 4 t.pages ++ toBytes 4 (t.pred0.getD 0).toNat ++ toBytes 4 (t.pred1.getD 0).toNat ++
    toBytes 4 t.wdog.toNat ++ toBytes 12 0

namespace State

/-- The block's predecessors, under the numbering of whoever enqueued it (R261). -/
def predsRetired (s : State) (q : QEntry) : Bool :=
  (q.tcb.pred0.toList ++ q.tcb.pred1.toList).all fun p =>
    match q.org with
    | .launch part _ => s.launchRetired part p
    | .renq inst => s.hasRetired inst p
    | .away pkg tag => s.notices.contains (pkg, tag, p)

/-- The partition of a cluster, 0xFFFF for none (R374). -/
def partOf (s : State) (cl : Nat) : BitVec 16 :=
  match s.parts.find? fun p => p.2.valid && bit p.2.cmask cl with
  | some p => p.2.part
  | none => 0xFFFF

/-- A core's cluster accepts tasks at the current level (R30, R382). -/
def accepts (s : State) (c : Nat) : Bool :=
  match s.level with
  | .full => decide (c < 160)
  | .reduced => decide (c < 4)
  | _ => false

/-- The window allocations of a cluster's cores, as [from, to) byte offsets (R132). -/
def windowsOf (s : State) (cl : Nat) : List (Nat × Nat) :=
  ((List.range 4).map fun i => s.core (4 * cl + i)).filterMap fun k =>
    if k.phase = .idle ∨ k.tcb.pages = 0 then none else some (k.winBase, k.winBase + k.tcb.pages * 65536)

/-- The bases at which a cluster can place a task window of a number of pages (R261). -/
def windowBases (s : State) (cl pages : Nat) : List Nat :=
  if pages = 0 then [0]
  else ((List.range (257 - pages)).map fun i => i * 65536).filter fun b =>
    (s.windowsOf cl).all fun w => decide (b + pages * 65536 ≤ w.1) || decide (w.2 ≤ b)

/-- An entry of a core's queue is ready (R261). -/
def readyEntry (s : State) (c : Nat) (q : QEntry) : Bool :=
  s.predsRetired q && !(s.windowBases (clusterOf c) q.tcb.pages).isEmpty

/-- The ready return entries of a class that a core considers (R262, R303). -/
def returnsFor (s : State) (c : Nat) (cls : Bool) : List Saved :=
  s.saved.filter fun v => v.ready && decide (v.cls = cls) &&
    (if v.fixed then decide (v.core = c) else decide (clusterOf v.core = clusterOf c)) &&
    !(s.windowBases (clusterOf c) v.pages).isEmpty

/-- What an idle core takes next (R262). -/
inductive Pick where
  | back (v : Saved)
  | entry (cls : Bool) (n : Nat) (q : QEntry)
  deriving DecidableEq, Repr

/-- The oldest ready entry of a queue, with its place. -/
def oldestReady (s : State) (c : Nat) : List QEntry → Nat → Option (Nat × QEntry)
  | [], _ => none
  | q :: r, n => if s.readyEntry c q then some (n, q) else s.oldestReady c r (n + 1)

/-- The choice of one class. -/
def pickClass (s : State) (c : Nat) (cls : Bool) (queue : List QEntry) : Option Pick :=
  match s.returnsFor c cls with
  | v :: vs => some (.back ((v :: vs).getD (Config.pick s.free c % (vs.length + 1)) v))
  | [] => (s.oldestReady c queue 0).map fun nq => .entry cls nq.1 nq.2

/-- The choice of an idle core that accepts tasks: class 1 before class 0 (R262). -/
def pickTask (s : State) (c : Nat) : Option Pick :=
  let k := s.core c
  if k.phase ≠ .idle ∨ s.accepts c = false then none
  else match s.pickClass c true k.queue1 with
    | some p => some p
    | none => s.pickClass c false k.queue0

/-- A pre-emption of the core's task is called for: a ready class-1 entry waits for a class-0 task, at full service, and the class's one
return entry is free (R31, R262, R264). -/
def preemptDue (s : State) (c : Nat) : Bool :=
  let k := s.core c
  decide (s.level = .full) && decide (k.phase = .running) && !k.sys.cls &&
    !(s.saved.any fun v => !v.fixed && decide (v.core = c ∧ v.cls = k.sys.cls)) &&
    (k.queue1.any (s.readyEntry c) || !(s.returnsFor c true).isEmpty)

/-- SYS.CORE of a core (R22). -/
def sysCore (c : Nat) (part : BitVec 16) : Word :=
  BitVec.ofNat 64 (part.toNat * 2 ^ 32 + c / 40 * 2 ^ 20 + c / 20 * 2 ^ 16 + c / 4 * 2 ^ 8 + c)

end State

/-- What a core keeps when its task is gone: its queues, its combining buffers, its remote accesses and what its system
registers show. -/
def Core.vacate (k : Core) : Core :=
  { sys := k.sys, queue0 := k.queue0, queue1 := k.queue1, wc := k.wc, remote := k.remote, mcmds := k.mcmds, nestCount := k.nestCount }

/-- A freshly dispatched task (R78, R262, R284, R293, R295). -/
def Core.dispatch (k : Core) (q : QEntry) (inst base : Nat) (part : BitVec 16) : Core :=
  let t := q.tcb
  let k := k.vacate
  let k := { k with
    phase := .running
    tcb := t
    inst := inst
    org := q.org
    winBase := base
    regionEntry := t.entry
    regionDesc := 2
    snap := { Snapshot.zero with next := t.seqbase, nests := k.nestCount }
    regs := { Regs.zero with s := Bank.set 0 [] 1 t.arg }
    sys := { Sys.zero with
      det := t.det, taskid := t.taskid, asid := t.asid, cls := t.cls, urgent := t.urgent
      next := t.seqbase, rmark := t.seqbase
      wdLimit := if t.wdog = 0 then 0x100000 else t.wdog
      part := part } }
  k.onAll fun x => { x with pc := t.entry }

namespace State

/-- Removes the launch of a task from those that have not retired (R263). -/
def launchEnds (s : State) (org : Origin) : State :=
  match org with
  | .launch p n => ({ s with launchLive := s.launchLive.filter fun x => decide (x ≠ (p, n)) } : State).flushLaunch p
  | .renq _ | .away _ _ => s

/-- Chunk counters and group slots end with their task (R350, R355). -/
def forget (s : State) (inst : Nat) : State :=
  let s := (s.tellWatchers fun w => decide (w.inst = inst)).flushLog inst
  { s with
    chunks := s.chunks.filter fun x => decide (x.1 / 32 ≠ inst)
    chunkDue := s.chunkDue.filter fun x => decide (x.1 ≠ inst)
    groups := s.groups.filter fun g => decide (g.inst ≠ inst)
    ordinals := s.ordinals.filter fun x => decide (x.1 / 65536 ≠ inst) }

/-- A task retires: its window and its state are freed and its retirement is logged (R128, R262, R375). -/
def retireTask (s : State) (c : Nat) : State :=
  let k := s.core c
  let s := s.logTask c 1 0 false k.sys.taskid k.org 0
  ((s.launchEnds k.org).forget k.inst).setCore c k.vacate

/-- Puts a block into a queue class of a core (R262). -/
def enqueue (s : State) (c : Nat) (q : QEntry) : State :=
  let k := s.core c
  s.setCore c (if q.tcb.cls then { k with queue1 := k.queue1 ++ [q] } else { k with queue0 := k.queue0 ++ [q] })

/-- Has a core's queue class room (R262)? -/
def queueRoom (s : State) (c : Nat) (cls : Bool) : Bool :=
  let k := s.core c
  decide ((if cls then k.queue1 else k.queue0).length < 8)

end State

/-- The watchdog count returns to 0 when a yield or a waiting instruction finishes (R276). -/
def Core.feed (k : Core) : Core := { k with sys := { k.sys with wdCount := 0 } }

end Sys2Proof.Machine
end

