-- ==== Sys2Proof/Machine/Elements.lean ====
section
/-! DEFINITION. What the vector, transpose and store engines share: active elements, stochastic bits, writing a register from
elements, blocks of MX formats (R50, R71, R162, R194, R206, R247). -/

namespace Sys2Proof.Machine

/-- The system registers that generators fold in, as they stand now (R247). -/
def State.place (s : State) : Flurry.Place := ⟨s.here.sys.taskid.toNat, s.coord.toNat⟩

/-- The stochastic bits by coordinates that a word rounds with: those of its generator where RM = 4; an invalid generator
raises ILLEGAL (R50, R251). -/
def State.roundBits (s : State) (e : Eng) (rm : RMode) (g : Nat) : Except Code (Int → Int → Nat) :=
  if rm = .sr then
    let gg := s.rdG e g
    if gg.valid then .ok (Flurry.genBits s.place gg g) else .error .illegal
  else .ok fun _ _ => 0

/-- Element k of a format lies in an active lane (R71, R194). -/
def activeElem (lanes : Mask) (ty : Fmt) (k : Nat) : Bool := bit lanes (laneOf ty k)

/-- The elements of a register for which a word computes: each active element's code and events (R55, R194). -/
def mapActive (lanes : Mask) (ty : Fmt) (f : Nat → Nat × Flags) : List (Nat × Flags) :=
  (List.range (8192 / ty.bits)).map fun k => if activeElem lanes ty k then f k else (0, 0)

/-- Writes the active lanes of vd from elements, ORs the events and finishes the word of engine e (R55, R71). -/
def writeElems (e : Eng) (ty : Fmt) (vd : VNo) (lanes : Mask) (rs : List (Nat × Flags)) (s : State) : Res :=
  ((s.wrV e vd.toNat lanes (packElems ty.bits (rs.map Prod.fst))).orFlags e (Flags.all (rs.map Prod.snd))).done e

/-- The packed form of eight MX blocks: elements from byte 0, scales at bytes 256 to 263 (R172, R206). -/
def packedForm (f : Fmt) (blocks : List (Nat × List Nat)) : Nat :=
  packMx f (blocks.flatMap Prod.snd) + (packElems 8 (blocks.map Prod.fst)) <<< 2048

/-- The scale byte of block b of a packed register. -/
def packedScale (x : Nat) (b : Nat) : Nat := elemOf 8 x (256 + b)

/-- The exact value of element k of a packed register (R206). -/
def packedValue (f : Fmt) (x k : Nat) : Exact := mxValue f (elemOf f.bits x k) (packedScale x (k / 32))

/-- Quantises 32 x n exact values as n blocks, with the stochastic bits of each element (R47). -/
def quantBlocks (f : Fmt) (rm : RMode) (n : Nat) (xs : List Exact) (us : List Nat) : List (Nat × List Nat × Flags) :=
  (List.range n).map fun b => mxQuant f rm ((xs.drop (32 * b)).take 32) ((us.drop (32 * b)).take 32)

end Sys2Proof.Machine
end

