-- ==== Sys2Proof/Machine/ScalarMem.lean ====
section
/-! DEFINITION. The sequencer's memory instructions: loads, stores, prefetch, acquire and release accesses, atomics, fences
(R110 to R112, R140, R146 to R157), and the overlap check of an access (R272). -/

namespace Sys2Proof.Machine

/-- Does an access of engine e conflict with an unjoined command or nest (R272)? ranges are scratchpad keys [from, to). -/
def State.conflicts (s : State) (e : Eng) (ranges : List (Nat × Nat)) (writes : Bool) : Bool :=
  let j := (s.en e).joined
  s.here.sys.det && s.here.marks.any fun m =>
    !j.contains (m.id + 1) && ranges.any fun r =>
      (match m.wr with | some w => rangesMeet w r | none => false) ||
        (writes && !j.contains m.id && match m.rd with | some w => rangesMeet w r | none => false)

/-- The checks of ScalarAccess in their order, then the overlap checker (R111, R272). -/
def State.scalarCheck (s : State) (e : Eng) (va size : Nat) (kind : Kind) : Except Code Place :=
  if 2 ^ 57 ≤ va then .error .addrRange
  else if va % size ≠ 0 then .error .misalign
  else
    match s.check va size kind with
    | .error c => .error c
    | .ok (.spad key) => if s.conflicts e [(key, key + size)] (decide (kind ≠ .read)) then .error .overlap else .ok (.spad key)
    | .ok p => .ok p

/-- An acquire (R139, R148). -/
def State.acquire (s : State) (sc : Scope) : State := if Scope.wide sc then dropLines s (dieOf s.cur.core) else s

/-- A remote write of the package has not been acknowledged. A release of mesh scope waits for all of them, those that happen before it
through earlier acquires among them; that it waits for others too is seen in timing only (R147). -/
def State.remoteWrites (s : State) : Bool := s.cores.any fun x => x.2.remote.any fun r => r.write

/-- The address of a scalar access (R111). -/
def scalarAddr {w : Nat} (base : Word) (imm : BitVec w) : Nat := (base + sx imm).toNat

/-- A checked scalar access of the sequencer goes into its queue (R141). -/
def State.queued (s : State) (kind : Kind) (va size : Nat) (load : Option (Fmt × Nat)) (data : List Byte) (rel : Option Scope) : Res :=
  orTrap s .sq (spotOf s s.cur.core s.here.sys.asid kind (va, size)) fun spot => (s.issueAccess va size spot load data rel).done .sq

/-- sd = the value at sa + imm, extended by TY (R110, R111). -/
def execLd (ty : Fmt) (sd sa : SReg) (imm : BitVec 27) (s : State) : Res :=
  let va := scalarAddr (s.rdS .sq sa) imm
  let n := ty.bits / 8
  orTrap s .sq (s.scalarCheck .sq va n .read) fun _ =>
    if s.queues then s.queued .read va n (some (ty, sd.toNat)) [] none
    else
      let (bs, s) := s.load va n
      ((s.atSpot va n fun s x => s.saw s.cur.core x n).wrS .sq sd (extend ty (ofBytes bs))).done .sq

/-- The low bytes of sc go to sa + imm (R110, R111). -/
def execSt (ty : Fmt) (sc sa : SReg) (imm : BitVec 27) (s : State) : Res :=
  let va := scalarAddr (s.rdS .sq sa) imm
  let n := ty.bits / 8
  let bs := toBytes n (s.rdS .sq sc).toNat
  orTrap s .sq (s.scalarCheck .sq va n .write) fun _ =>
    if s.queues then s.queued .write va n none bs none
    else ((s.store .sq va bs).atSpot va n fun s x => s.publishFences s.cur.core x n).done .sq

/-- A prefetch hint; the device may drop it (R112). -/
def execPf (_llc : Bool) (_sa : SReg) (_imm : BitVec 27) (s : State) : Res := s.done .sq

/-- An acquire load (R151): it comes after the older loads and after the older stores to its bytes; its own read is an access of its scope,
which no stale line of the die cache serves (R139, R143), and later accesses come after the acquire. -/
def execLdacq (ty : Fmt) (sc : Scope) (sd sa : SReg) (imm : BitVec 24) (s : State) : Res :=
  let va := scalarAddr (s.rdS .sq sa) imm
  let n := ty.bits / 8
  orTrap s .sq (s.scalarCheck .sq va n .read) fun _ =>
    let range := s.canonRange va n
    let s := s.performQueue s.cur.core fun l => l.load.isSome || rangesMeet (s.canonRange l.va l.size) range
    let (bs, t) := (s.acquire sc).load va n
    let t := t.atSpot va n fun t x => t.observe t.cur.core sc x n
    ((t.wrS .sq sd (extend ty (ofBytes bs))).acquire sc).done .sq

/-- The store of a release is performed at its scope: its line leaves the write-combining buffers of the core (R149, R151). -/
def State.performed (s : State) (va : Nat) : State :=
  match window s.cur.core s.here va 1, lineAccess s (dieOf s.cur.core) s.here.sys.asid va .write with
  | .ok .glob, .ok t => drainCombineLine s s.cur.core (t.phys / 128)
  | _, _ => s

/-- A system-scope release waits for the non-temporal stores of its core that are not in HBM yet (R149). -/
def State.ntWaits (s : State) (sc : Scope) : Bool := decide (sc = .sys) && s.ntDue.any fun x => decide (x.1 = s.cur.core)

/-- A release store, performed at its scope (R147, R149, R151): at mesh scope it waits for remote acknowledgements, at system scope for
non-temporal stores. Younger loads may be performed before it. -/
def execStrel (ty : Fmt) (sc : Scope) (src sa : SReg) (imm : BitVec 24) (s : State) : Res :=
  let va := scalarAddr (s.rdS .sq sa) imm
  let n := ty.bits / 8
  orTrap s .sq (s.scalarCheck .sq va n .write) fun _ =>
    if Scope.beyond sc && s.remoteWrites then s.stall .sq
    else if (s.release sc).ntWaits sc then (s.release sc).stall .sq
    else
      let bs := toBytes n (s.rdS .sq src).toNat
      if s.queues then s.queued .write va n none bs (some sc)
      else
        let s := s.release sc
        let nos := s.pendingBefore s.cur.core
        let t := ((s.store .sq va bs).performed va).release sc
        (match spotOf t t.cur.core t.here.sys.asid .write (va, n) with
          | .ok x => t.published t.cur.core sc x.code n false nos
          | .error _ => t).done .sq

/-- The old value and the state after one indivisible update of size bytes at the execution point (R150): the bank for a
scratchpad, the home slice for wide scopes and system-atomic pages, else the die cache. The die's earlier stores to the line come
first (R141). -/
def atomicUpdate (s : State) (e : Eng) (va size : Nat) (sc : Scope) (f : Nat → Option Nat) : Nat × State :=
  let c := s.cur.core
  let d := dieOf c
  match window c s.here va size with
  | .ok (.spad key) =>
    let old := ofBytes (Bank.getRun 0 s.spad key size)
    (old, match f old with | some v => { s with spad := Bank.setRun 0 s.spad key (toBytes size v) } | none => s)
  | _ =>
    let asid := s.here.sys.asid
    match lineAccess s d asid va .atomic with
    | .error _ => (0, s)
    | .ok t =>
      let s := learn s d asid va t
      if Scope.wide sc || decide (t.attr = 3) then
        let s := drainLine d (t.phys / 128 * 128) (s.die d).buf.length s
        let x := s.die d
        let s := s.setDie d { x with lines := x.lines.filter fun l => !decide (l.asid = asid ∧ l.line = t.va / 128) }
        let old := ofBytes (Bank.getRun 0 s.hbm t.phys size)
        (old, match f old with | some v => putHome s t.phys (toBytes size v) | none => s)
      else
        let s := fill s d asid t
        let old := ofBytes (((viewLine s d asid t).drop (t.va % 128)).take size)
        (old, match f old with
          | some v => bufStore (patchLine s d asid t.va (toBytes size v)) d (s.stream e) asid t (toBytes size v)
          | none => s)

/-- Does ORD hold a release, and an acquire (R152)? -/
def ordRelease (o : BitVec 2) : Bool := decide (2 ≤ o.toNat)

/-- Does ORD hold an acquire (R152)? -/
def ordAcquire (o : BitVec 2) : Bool := decide (o.toNat % 2 = 1)

/-- The bookkeeping of an atomic's release and acquire at its place (R146, R152). -/
def State.atomicOrder (s : State) (va size : Nat) (sc : Scope) (o : BitVec 2) (nos : List Nat) : State :=
  match spotOf s s.cur.core s.here.sys.asid .atomic (va, size) with
  | .ok x =>
    let s := if ordAcquire o then s.observe s.cur.core sc x.code size else s
    if ordRelease o then s.published s.cur.core sc x.code size true nos else s
  | .error _ => s

/-- Amo (R152): checks, release, the indivisible update, acquire, and the old value into sd. In timed mode the update of a bank takes place
at the end of the latency (R85, R157). -/
def atomicWord (sd : Option SReg) (ty : Fmt) (sc : Scope) (o : BitVec 2) (va : Nat) (op : BankOp) (x : Nat) (s : State) : Res :=
  let n := ty.bits / 8
  orTrap s .sq (s.scalarCheck .sq va n .atomic) fun place =>
    if ordRelease o && Scope.beyond sc && s.remoteWrites then s.stall .sq
    else
      let s := if ordRelease o then s.release sc else s
      if ordRelease o && s.ntWaits sc then s.stall .sq
      else
        let nos := s.pendingBefore s.cur.core
        match (if s.here.sys.timed then place else .glob) with
        | .spad key =>
          orTrap s .sq (s.atBank key op x (sd.getD 0)) fun t => (if ordAcquire o then t.acquire sc else t).done .sq
        | .glob =>
          let (old, s) := atomicUpdate s .sq va n sc (op.next x)
          let s := if ordAcquire o then s.acquire sc else s
          let s := if decide (o = 0) then s else s.atomicOrder va n sc o nos
          match sd with
          | some sd => (s.wrS .sq sd (extend ty old)).done .sq
          | none => s.done .sq

/-- An atomic read-modify-write that returns the old value (R152). -/
def execAmo (a : Atomic) (s : State) : Res :=
  let x := (s.rdS .sq a.sb).toNat % 2 ^ a.ty.bits
  atomicWord (some a.sd) a.ty a.scope a.ord (s.rdS .sq a.sa).toNat (.amo a.op a.ty) x s

/-- Compare and swap (R153). -/
def execAmocas (sd sa sb sc : SReg) (ty : Fmt) (scope : Scope) (ord : BitVec 2) (s : State) : Res :=
  let want := (s.rdS .sq sb).toNat % 2 ^ ty.bits
  let new := (s.rdS .sq sc).toNat % 2 ^ ty.bits
  atomicWord (some sd) ty scope ord (s.rdS .sq sa).toNat (.cas ty) (want + new * 2 ^ 64) s

/-- An atomic reduction that returns nothing (R154). -/
def execRed (a : Atomic) (s : State) : Res :=
  let x := (s.rdS .sq a.sb).toNat % 2 ^ a.ty.bits
  atomicWord none a.ty a.scope a.ord (s.rdS .sq a.sa).toNat (.amo a.op a.ty) x s

/-- What a releasing fence leaves to the later stores: what happens before it and is not at home yet (R146, R155). -/
def State.fenceStores (s : State) (sc : Scope) : State :=
  let nos := s.pendingBefore s.cur.core
  if nos.isEmpty then s else s.upd fun k => { k with fenced := (sc, nos) :: k.fenced }

/-- A fence (R155): an acquiring one comes after the older loads, and a releasing one after every older access. -/
def execFence (k : FenceKind) (sc : Scope) (s : State) : Res :=
  if decide (k ≠ .acq) && Scope.beyond sc && s.remoteWrites then s.stall .sq
  else
    let s := if k = .acq then s.performQueue s.cur.core fun l => l.load.isSome else (s.release sc).fenceStores sc
    if decide (k ≠ .acq) && s.ntWaits sc then s.stall .sq
    else
      let s := if k = .rel then s else (s.fenceLoaded s.cur.core sc).acquire sc
      s.done .sq

/-- Orders both queues of the stream: what they hold is performed before it, as before every word that is no load, store or arithmetic word
(standsBefore, R141, R156). -/
def execQalign (s : State) : Res := s.done .sq

end Sys2Proof.Machine
end

