-- ==== Sys2Proof/Machine/LoadStore.lean ====
section
/-! DEFINITION. The load and store engines: strided, gathered and transposed accesses, masks and accumulators (R162 to R168). -/

namespace Sys2Proof.Machine

/-- The place of a fault in the order in which R163 lists its checks; elsewhere the lowest code decides (R383). -/
def Code.rank (c : Code) : Nat := if c = Code.timedGlobal then 13 else 2 * c.toNat

/-- The fault of an access that R163 puts first. -/
def worst : List (Option Code) → Option Code
  | [] => none
  | none :: r => worst r
  | some c :: r =>
    match worst r with
    | some d => some (if c.rank ≤ d.rank then c else d)
    | none => some c

/-- The checks of one access of n bytes at va, with its alignment: of the addresses of its lanes first, then of its place (R88, R111,
R163). -/
def State.pieceCheck (s : State) (kind : Kind) (align : Nat) (a : Nat × Nat) : Option Code :=
  if 2 ^ 57 ≤ a.1 ∨ 2 ^ 57 + Nat.max 4 align ≤ a.1 + a.2 then some Code.addrRange
  else if a.1 % align ≠ 0 then some Code.misalign
  else if 2 ^ 57 < a.1 + a.2 then some Code.addrRange
  else if s.here.sys.timed && !decide (taskWindow ≤ a.1 ∧ a.1 + a.2 ≤ taskWindow + windowSize) then some Code.timedGlobal
  else
    match s.check a.1 a.2 kind with
    | .ok _ => none
    | .error c => some c

/-- The scratchpad keys of the part of a byte range that lies in the windows of a core. -/
def spadPart (c : Nat) (k : Core) (p : Int × Int) : List (Nat × Nat) :=
  let cut (base size key : Nat) : List (Nat × Nat) :=
    let lo := max p.1 (base : Int)
    let hi := min p.2 ((base + size : Nat) : Int)
    if lo < hi then [(key + (lo - (base : Int)).toNat, key + (hi - (base : Int)).toNat)] else []
  cut taskWindow (k.tcb.pages * 65536) (clusterOf c * windowSize + k.winBase) ++
    cut clusterWindow windowSize (clusterOf c * windowSize)

/-- The scratchpad bytes of accesses. -/
def State.spadRanges (s : State) (l : List (Nat × Nat)) : List (Nat × Nat) :=
  l.flatMap fun a => spadPart s.cur.core s.here ((a.1 : Int), ((a.1 + a.2 : Nat) : Int))

/-- The checks of a load-engine or store-engine word over all its accesses, the overlap checker last (R163, R272). -/
def State.accessCheck (s : State) (e : Eng) (kind : Kind) (align : Nat) (l : List (Nat × Nat)) : Option Code :=
  match worst (l.map (s.pieceCheck kind align)) with
  | some c => some c
  | none => if s.conflicts e (s.spadRanges l) (decide (kind = .write)) then some Code.overlap else none

/-- Goes on where no check of the accesses fails. -/
def afterChecks (s : State) (e : Eng) (kind : Kind) (align : Nat) (l : List (Nat × Nat)) (k : Res) : Res :=
  match s.accessCheck e kind align l with
  | some c => s.trap e c
  | none => k

/-- The runs of active lanes of row i, as (first lane in the row, lanes). -/
def runsOf (lanes : Mask) (i : Nat) : List (Nat × Nat) :=
  let step (acc : List (Nat × Nat)) (j : Nat) : List (Nat × Nat) :=
    if bit lanes (32 * i + j) then
      match acc with
      | (a, n) :: r => if a + n = j then (a, n + 1) :: r else (j, 1) :: acc
      | [] => [(j, 1)]
    else acc
  ((List.range 32).foldl step []).reverse

/-- The accesses of a strided word: the register's byte offset, the address and the bytes of each run of active lanes. -/
def stridedRuns (rows : List Nat) (lanes : Mask) : List (Nat × Nat × Nat) :=
  (List.range 8).flatMap fun i => (runsOf lanes i).map fun r => (128 * i + 4 * r.1, (rows.getD i 0 + 4 * r.1) % 2 ^ 64, 4 * r.2)

/-- The accesses of runs. -/
def accessesOf (l : List (Nat × Nat × Nat)) : List (Nat × Nat) := l.map fun r => (r.2.1, r.2.2)

/-- The bytes that runs of a register store, by address. -/
def runBytes (x : Nat) (l : List (Nat × Nat × Nat)) : List (Nat × List Byte) :=
  l.map fun r => (r.2.1, toBytes r.2.2 (x >>> (8 * r.1)))

/-- The bits of a register in the active lanes (R71). -/
def laneMask (lanes : Mask) : Nat := State.spread 256 lanes.toNat

/-- Alignment of the rows that active lanes reach (R163). -/
def rowsAligned (rows : List Nat) (lanes : Mask) (w : Nat) : Bool :=
  (List.range 8).all fun i => (runsOf lanes i).isEmpty || decide (rows.getD i 0 % w = 0)

/-- Loads a register from eight rows (R164). -/
def execVld (o : Strided) (s : State) : Res :=
  let lanes := s.pred .ld o.pm
  let rows := rowAddrs (s.rdS .ld o.sa) (s.rdS .ld o.sb) o.off
  let runs := stridedRuns rows lanes
  let al := if rowsAligned rows lanes (Fmt.width o.ty) then 1 else 0
  afterChecks s .ld .read al (accessesOf runs) (s.loadInto .ld (.v o.vd.toNat) (laneMask lanes) runs)

/-- Stores a register to eight rows, in row order (R164). -/
def execVst (o : Strided) (s : State) : Res :=
  let lanes := s.pred .st o.pm
  let rows := rowAddrs (s.rdS .st o.sa) (s.rdS .st o.sb) o.off
  let runs := stridedRuns rows lanes
  let al := if rowsAligned rows lanes (Fmt.width o.ty) then 1 else 0
  afterChecks s .st .write al (accessesOf runs)
    (s.storeAll .st o.nt (runBytes (s.rdV .st o.vd).toNat runs))

/-- Every element of a register = one element of memory (R164). -/
def execVldb (o : Strided) (s : State) : Res :=
  let lanes := s.pred .ld o.pm
  let w := Fmt.width o.ty
  let A := addr (s.rdS .ld o.sa) (128 * o.off.toInt)
  if lanes = 0 then s.done .ld
  else
    afterChecks s .ld .read w [(A, w)]
      (let (bs, s) := s.load A w
       (s.wrV .ld o.vd.toNat lanes (packElems o.ty.bits (List.replicate (8192 / o.ty.bits) (ofBytes bs)))).done .ld)

/-- A prefetch hint, which the device may drop (R112, R164). -/
def execVlpf (_o : Strided) (s : State) : Res := s.done .ld

/-- The active lanes of an indexed word: the lane and its address (R165). -/
def indexedAddrs (base : Word) (ix : VReg) (lanes : Mask) (w : Nat) : List (Nat × Nat) :=
  ((List.range 256).filter fun L => bit lanes L).map fun L => (L, addr base (signedOf 32 (laneBits ix L) * (w : Int)))

/-- Gathers one element for each active lane (R165). -/
def execVldg (o : Indexed) (s : State) : Res :=
  let lanes := s.pred .ld o.pm
  let w := Fmt.width o.ty
  let ads := indexedAddrs (s.rdS .ld o.sa) (s.rdV .ld o.va) lanes w
  afterChecks s .ld .read w (ads.map fun a => (a.2, w))
    (s.loadInto .ld (.v o.vd.toNat) (laneMask lanes) (ads.map fun a => (4 * a.1, a.2, w)))

/-- Scatters one element for each active lane, in ascending order (R165). -/
def execVsc (o : Indexed) (s : State) : Res :=
  let lanes := s.pred .st o.pm
  let w := Fmt.width o.ty
  let ads := indexedAddrs (s.rdS .st o.sa) (s.rdV .st o.va) lanes w
  afterChecks s .st .write w (ads.map fun a => (a.2, w))
    (s.storeAll .st o.nt (runBytes (s.rdV .st o.vd).toNat (ads.map fun a => (4 * a.1, a.2, w))))

/-- Loads the transpose of 128/w rows of eight elements (R167). A source row is read where an active lane needs it. -/
def execVldt (o : Strided) (s : State) : Res :=
  let lanes := s.pred .ld o.pm
  let w := Nat.max 1 (Fmt.width o.ty)
  let W := 128 / w
  let A := addr (s.rdS .ld o.sa) (128 * o.off.toInt)
  let sb := s.rdS .ld o.sb
  -- element (i, j) of vd comes from byte i x w of source row j
  let srcs := (List.range W).flatMap fun j => ((List.range 8).filter fun i => bit lanes ((128 * i + j * w) / 4)).map fun i =>
    (128 * i + j * w, addr (BitVec.ofNat 64 A) (j * sb.toInt + (i * w : Nat)), w)
  let rowsOk := (List.range W).all fun j =>
    !(srcs.any fun r => decide (r.1 % 128 = j * w)) || decide (addr (BitVec.ofNat 64 A) (j * sb.toInt) % w = 0)
  afterChecks s .ld .read (if rowsOk then 1 else 0) (accessesOf srcs)
    (s.loadInto .ld (.v o.vd.toNat) (laneMask lanes) srcs)

/-- Loads a mask (R168). -/
def execVldm (md : MaskNo) (sa : SReg) (imm : BitVec 34) (s : State) : Res :=
  let va := addr (s.rdS .ld sa) imm.toInt
  afterChecks s .ld .read 32 [(va, 32)] (s.loadInto .ld (.m md.toNat) (ones 256) [(0, va, 32)])

/-- Stores a mask (R168). -/
def execVsm (ms : MaskNo) (sa : SReg) (imm : BitVec 34) (s : State) : Res :=
  let va := addr (s.rdS .st sa) imm.toInt
  afterChecks s .st .write 32 [(va, 32)]
    (s.storeAll .st false [(va, toBytes 32 (s.rdM .st ms).toNat)])

/-- The row accesses of an accumulator: byte offset in the tile, address, bytes. -/
def tileRuns (sa sb : Word) : List (Nat × Nat × Nat) :=
  (List.range 32).zipWith (fun i a => (512 * i, a, 512)) (tileAddrs sa sb 32)

/-- Loads an accumulator (R168). -/
def execVlda (acc : AccNo) (sa sb : SReg) (s : State) : Res :=
  let b := s.rdS .ld sb
  let runs := tileRuns (s.rdS .ld sa) b
  afterChecks s .ld .read (if b.toNat % 4 = 0 then 4 else 0) (accessesOf runs)
    (s.loadInto .ld (.acc acc.toNat) (ones 131072) runs)

/-- Stores an accumulator (R168). -/
def execVsa (acc : AccNo) (sa sb : SReg) (nt : Bool) (s : State) : Res :=
  let b := s.rdS .st sb
  let runs := tileRuns (s.rdS .st sa) b
  afterChecks s .st .write (if b.toNat % 4 = 0 then 4 else 0) (accessesOf runs)
    (s.storeAll .st nt (runBytes (s.rdAcc .st acc.toNat).toNat runs))

end Sys2Proof.Machine
end

