-- ==== Sys2Proof/Machine/Drain.lean ====
section
/-! DEFINITION. The accumulator drain and the chunk counters (R173 to R176, R355, R356). -/

namespace Sys2Proof.Machine

/-- A row of FP32 encodings converted for a drain (R174, R236): its bytes and the events. us gives the stochastic bits of each
column. -/
def drainRow (ty : Fmt) (rm : RMode) (row : List Nat) (us : List Nat) : List Byte × Flags :=
  let xs := row.map (elemValue .f32)
  if ty.isMx then
    let bl := quantBlocks ty rm (row.length / 32) xs us
    (toBytes (row.length * ty.bits / 8) (packMx ty (bl.flatMap fun b => b.2.1)) ++ bl.map (fun b => BitVec.ofNat 8 b.1),
      Flags.all (bl.map fun b => b.2.2))
  else
    let rs := List.zipWith (fun x u => roundTo ty rm u x) xs us
    (rs.flatMap fun r => toBytes (ty.bits / 8) r.1, Flags.all (rs.map Prod.snd))

/-- Does FP32 encoding a come before b in a top-k drain? Larger first, NaN last (R175). -/
def ranksBefore (a b : Nat) : Bool :=
  let x := elemValue .f32 a
  let y := elemValue .f32 b
  !x.isNan && (y.isNan || Exact.lt y x)

/-- Inserts a column behind every column that it does not come before, so that ties stay in ascending order. -/
def insertTop (x : Nat × Nat) : List (Nat × Nat) → List (Nat × Nat)
  | [] => [x]
  | y :: r => if ranksBefore x.2 y.2 then x :: y :: r else y :: insertTop x r

/-- The k records of a row: value and index (R175). -/
def topRow (k base : Nat) (row : List Nat) : List Byte :=
  let cols := (List.range row.length).zip row
  ((cols.foldl (fun a x => insertTop x a) []).take k).flatMap fun x =>
    toBytes 4 (if (elemValue .f32 x.2).isNan then FloatFmt.f32.nanCode else x.2) ++ toBytes 4 (base + x.1)

/-- Bytes that a drain writes for a row (R174, R175). -/
def drainBytes (ty : Fmt) (k : Nat) : Nat := if k = 0 then 128 * ty.bits / 8 + (if ty.isMx then 4 else 0) else 8 * k

/-- Some of n bytes at va lie in a scratchpad window (R132). -/
def touchesScratch (va n : Nat) : Bool := decide (0 < n) && (inScratch va || inScratch (va + n - 1))

/-- Drains an accumulator to memory (R173 to R176). -/
def execVsdrain (acc : AccNo) (sa sb sc : SReg) (ty : Fmt) (rm : RMode) (g : GenNo) (k : BitVec 4) (cc nt : Bool)
    (ccid : BitVec 5) (s : State) : Res :=
  let A := s.rdS .st sa
  let C := s.rdS .st sc
  let ads := tileAddrs A (s.rdS .st sb) 32
  if cc && ads.any fun a => touchesScratch a (drainBytes ty k.toNat) then s.trap .st .illegal
  else
    orTrap s .st (s.roundBits .st rm g.toNat) fun bits =>
      let t := s.rdAcc .st acc.toNat
      let ri := slice C 63 32
      let ci := slice C 31 0
      let rows := (List.range 32).map fun i =>
        let row := tileRow t i
        if k = 0 then drainRow ty rm row ((List.range 128).map fun c => bits (ri + i : Nat) (ci + c : Nat))
        else (topRow k.toNat ci row, 0)
      let w := if k = 0 then (if ty.isMx then 1 else ty.bits / 8) else 4
      afterChecks s .st .write w (List.zipWith (fun a r => (a, r.1.length)) ads rows)
        (s.storeAll .st nt (List.zipWith (fun a r => (a, r.1)) ads rows) (Flags.all (rows.map Prod.snd))
          (if cc then some ccid.toNat else none))

/-- A chunk counter of a task instance. -/
def State.chunkCtr (s : State) (inst n : Nat) : ChunkCtr := Bank.get ChunkCtr.zero s.chunks (inst * 32 + n)

/-- Replaces a chunk counter. -/
def State.setChunkCtr (s : State) (inst n : Nat) (x : ChunkCtr) : State :=
  { s with chunks := Bank.set ChunkCtr.zero s.chunks (inst * 32 + n) x }

/-- The task id of an instance. -/
def State.taskOf (s : State) (inst : Nat) : Option (BitVec 32) :=
  match s.coreOf inst with
  | some c => some (s.core c).sys.taskid
  | none => (s.savedOf inst).map fun v => v.taskid

/-- The cores on which a task runs and has run (R355): its counted drains went through them and their dies. -/
def State.taskCores (s : State) (inst : Nat) : List Nat :=
  match s.coreOf inst with
  | some d => d :: (s.core d).ran
  | none => match s.savedOf inst with | some v => v.core :: v.ran | none => []

/-- A counted drain whose bytes are in the die cache, out of the write-combining buffers, adds one to its counter, which saturates (R149, R176,
R355). -/
def execChunkCountIncrement (task : BitVec 32) (n : Nat) (s : State) : Res :=
  match s.chunkDue.find? fun x => decide (x.2 = n) && decide (s.taskOf x.1 = some task) with
  | none => .next s
  | some x =>
    let s := (s.taskCores x.1).foldl drainCombine s
    let c := s.chunkCtr x.1 n
    .next ({ s with chunkDue := s.chunkDue.erase x }.setChunkCtr x.1 n
      { c with count := if c.count = 0xFFFF then c.count else c.count + 1 })

/-- Sets EXPECT of a chunk counter (R356). -/
def execClchunk (sa sb : SReg) (s : State) : Res :=
  let a := (s.rdS .sq sa).toNat
  let b := (s.rdS .sq sb).toNat
  let inst := s.here.inst
  if a = 0 ∨ 65536 ≤ a ∨ 32 ≤ b ∨ (s.chunkCtr inst b).armed then s.trap .sq .illegal
  else (s.setChunkCtr inst b ⟨0, BitVec.ofNat 16 a, false⟩).done .sq

/-- Reads a chunk counter (R356). -/
def execClstatCc (sd sb : SReg) (s : State) : Res :=
  let b := (s.rdS .sq sb).toNat
  if 32 ≤ b then s.trap .sq .illegal
  else
    let c := s.chunkCtr s.here.inst b
    (s.wrS .sq sd (BitVec.ofNat 64 (c.count.toNat + c.expect.toNat * 2 ^ 16 + (if c.armed then 2 ^ 32 else 0)))).done .sq

/-- Reads a group slot (R356). -/
def execClstatGrp (sd sb : SReg) (s : State) : Res :=
  let b := (s.rdS .sq sb).toNat
  if 16 ≤ b then s.trap .sq .illegal
  else
    let v : Nat := match s.groups.find? fun g => decide (g.inst = s.here.inst) && decide (g.slot = b) with
      | some g => g.call.toNat + g.members.length % 2 ^ 16 * 2 ^ 32 + 2 ^ 48
      | none => 0
    (s.wrS .sq sd (BitVec.ofNat 64 v)).done .sq

end Sys2Proof.Machine
end

