-- ==== Sys2Proof/Machine/Generators.lean ====
section
/-! DEFINITION. The generator instructions of the sequencer (R251 to R257). -/

namespace Sys2Proof.Machine

/-- The bits of one 64-bit word of an image. -/
def imageWord (w : Nat) : Nat := ones 64 <<< (64 * w)

/-- Writes word W of a generator, whose table is then not loaded (R252). -/
def execGset (g : GenNo) (w : BitVec 3) (sa : SReg) (s : State) : Res :=
  let x := s.rdS .sq sa
  if w = 7 ∧ (slice x 39 36 ≠ 0 ∨ slice x 47 44 ≠ 0) then s.trap .sq .illegal
  else (s.wr .sq (.gen g.toNat (some none)) (imageWord w.toNat) (x.toNat <<< (64 * w.toNat))).done .sq

/-- Reads word W of a generator (R252). -/
def execGget (sd : SReg) (g : GenNo) (w : BitVec 3) (s : State) : Res :=
  (s.wrS .sq sd (BitVec.ofNat 64 (elemOf 64 (s.rdG .sq g.toNat).img.toNat w.toNat))).done .sq

/-- The counter bits and the key bits of an image (R244). -/
def ctrBits : Nat := ones 128 <<< 128
def keyBits : Nat := ones 128

/-- Two registers as a 128-bit number, sb high (R253, R254). -/
def State.pair (s : State) (sa sb : SReg) : Nat := (s.rdS .sq sa).toNat + (s.rdS .sq sb).toNat * 2 ^ 64

/-- Advances CTR (R253). -/
def execGskip (g : GenNo) (sa sb : SReg) (s : State) : Res :=
  let r := s.rdG .sq g.toNat
  (s.wr .sq (.gen g.toNat none) ctrBits (((r.ctr + s.pair sa sb) % 2 ^ 128) <<< 128)).done .sq

/-- Derives a key (R254). -/
def execGkey (g : GenNo) (sa sb : SReg) (s : State) : Res :=
  let r := s.rdG .sq g.toNat
  (s.wr .sq (.gen g.toNat none) keyBits (Flurry.sastrugi r.key (s.pair sa sb))).done .sq

/-- The result of one draw (R250, R255). -/
def drawValue (pl : Flurry.Place) (r : Gen) (n : Nat) : Nat :=
  if r.kind = 0 then Flurry.bitsValue pl r n r.ctr % 2 ^ 64
  else (roundFloat .f32 .rne 0 (Flurry.kindValue pl r n r.ctr 0 0)).1

/-- Draws one value (R255). -/
def execGdraw (sd : SReg) (g : GenNo) (s : State) : Res :=
  let r := s.rdG .sq g.toNat
  if !r.drawable then s.trap .sq .illegal
  else
    let s := s.wrS .sq sd (BitVec.ofNat 64 (drawValue s.place r g.toNat))
    (s.wr .sq (.gen g.toNat none) ctrBits (((r.ctr + 1) % 2 ^ 128) <<< 128)).done .sq

/-- The place of a sequencer access of n bytes with its alignment (R111, R256). -/
def State.blockPlace (s : State) (va n align : Nat) (kind : Kind) : Except Code Place :=
  if 2 ^ 57 ≤ va then .error .addrRange
  else if va % align ≠ 0 then .error .misalign
  else if 2 ^ 57 < va + n then .error .addrRange
  else s.check va n kind

/-- The checks of such an access, the overlap checker last (R272, R383). -/
def State.blockCheck (s : State) (va n align : Nat) (kind : Kind) : Except Code Unit :=
  match s.blockPlace va n align kind with
  | .error c => .error c
  | .ok (.spad key) => if s.conflicts .sq [(key, key + n)] (decide (kind ≠ .read)) then .error .overlap else .ok ()
  | .ok .glob => .ok ()

/-- Stores the image (R256). -/
def execGsave (g : GenNo) (sa : SReg) (s : State) : Res :=
  let va := (s.rdS .sq sa).toNat
  orTrap s .sq (s.blockCheck va 64 64 .write) fun _ =>
    (s.store .sq va (toBytes 64 (s.rdG .sq g.toNat).img.toNat)).done .sq

/-- Loads an image, and the frequency table of a rotary one (R256, R257). -/
def execGload (g : GenNo) (sa : SReg) (s : State) : Res :=
  let va := (s.rdS .sq sa).toNat
  orTrap s .sq (s.blockCheck va 64 64 .read) fun _ =>
    let (bs, s') := s.load va 64
    let r : Gen := ⟨BitVec.ofNat 512 (ofBytes bs), none⟩
    if !r.imageOk then s.trap .sq .illegal
    else if r.isRotary then
      orTrap s .sq (s.blockCheck r.tableAddr (4 * r.nf) 4 .read) fun _ =>
        let (t, s') := s'.load r.tableAddr (4 * r.nf)
        let f := (List.range r.nf).map fun i => BitVec.ofNat 32 (fieldAt t (4 * i) 4)
        (s'.wr .sq (.gen g.toNat (some (some f))) (ones 512) r.img.toNat).done .sq
    else (s'.wr .sq (.gen g.toNat (some none)) (ones 512) r.img.toNat).done .sq

end Sys2Proof.Machine
end

