-- ==== Sys2Proof/Machine/Control.lean ====
section
/-! DEFINITION. Control flow, modes and regions: the words of tag 6, and words that are no instructions (R77 to R79, R84, R89,
R113 to R123). -/

namespace Sys2Proof.Machine

/-- Continues engine e at a target by a taken transfer (R119). -/
def State.jumpTo (s : State) (e : Eng) (dst : Word) : Res := .next (s.upd fun k => k.leave e dst (k.en e).pc)

/-- In timed mode a full control queue freezes the core before the word; else entries may be owed (R87, R89). -/
def Core.ctlFull (k : Core) : Bool := k.sys.timed && [1, 2, 3, 4, 5].any fun t => decide (32 ≤ (k.en (Eng.ofTag t)).ctl.length)

/-- The sequencer of a task outside its handler appends an entry, which other engines see two cycles later (R89, R113). -/
def State.appendEntry (s : State) (v : Word) : State :=
  if s.here.phase = .handler then s else s.upd fun k => k.appendAll ⟨v, if k.sys.timed then k.cyc + 2 else 0⟩

/-- Another engine takes its oldest control entry, or finds none that is available (R87, R90, R113). -/
def State.takeEntry (s : State) (e : Eng) : Option (Word × State) :=
  match (s.en e).ctl with
  | [] => none
  | c :: r =>
    if s.here.sys.timed && decide (s.here.cyc < c.avail) then none
    else some (c.val, s.upd fun k => k.onEn e fun x => { x with ctl := r })

/-- Conditional branch (R113). -/
def execBr (c : Cond) (sa sb : SReg) (off : BitVec 26) (s : State) : Res :=
  let e := s.engHere
  let pc := (s.en e).pc
  if e = .sq then
    if s.here.ctlFull && decide (s.here.phase ≠ .handler) then s.stall e
    else
      let t := evalCond c (s.rdS .sq sa) (s.rdS .sq sb)
      let s := s.appendEntry (if t then 1 else 0)
      if t then s.jumpTo e (target pc off) else s.done e
  else
    match s.takeEntry e with
    | none => s.stall e
    | some (v, s) => if v = 1 then s.jumpTo e (target pc off) else s.done e

/-- Jump with a link that the sequencer writes (R114). -/
def execJmp (sd : SReg) (off : BitVec 38) (s : State) : Res :=
  let e := s.engHere
  let pc := (s.en e).pc
  let s := if e = .sq then s.wrS .sq sd (pc + 8) else s
  s.jumpTo e (target pc off)

/-- Jump to the address in a register (R115). -/
def execJmpr (sd sa : SReg) (s : State) : Res :=
  let e := s.engHere
  let pc := (s.en e).pc
  if e = .sq then
    let dst := s.rdS .sq sa
    if dst.toNat % 8 ≠ 0 then s.trap e .misalign 0 true
    else if s.here.ctlFull && decide (s.here.phase ≠ .handler) then s.stall e
    else ((s.wrS .sq sd (pc + 8)).appendEntry dst).jumpTo e dst
  else
    match s.takeEntry e with
    | none => s.stall e
    | some (v, s) => s.jumpTo e v

/-- Sets loop register lcN of an engine. -/
def Core.setLc (k : Core) (e : Eng) (n : BitVec 2) (v : Word) : Core :=
  k.onEn e fun x => { x with lc := Bank.set 0 x.lc n.toNat v }

/-- Sets a loop register on every engine (R116). -/
def execLpset (lc : BitVec 2) (fromReg : Bool) (sa : SReg) (imm : BitVec 32) (s : State) : Res :=
  let e := s.engHere
  if e = .sq then
    if s.here.ctlFull then s.stall e
    else
      let v := if fromReg then s.rdS .sq sa else zx imm
      ((s.appendEntry v).upd fun k => k.setLc e lc v).done e
  else
    match s.takeEntry e with
    | none => s.stall e
    | some (v, s) => (s.upd fun k => k.setLc e lc v).done e

/-- Closes a counted loop on the engine's own loop register (R117). -/
def execLpend (lc : BitVec 2) (off : BitVec 38) (s : State) : Res :=
  let e := s.engHere
  let n := Bank.get 0 (s.en e).lc lc.toNat
  if 1 < n.toNat then (s.upd fun k => k.setLc e lc (n - 1)).jumpTo e (target (s.en e).pc off)
  else (s.upd fun k => k.setLc e lc 0).done e

/-! Words that all six engines execute together -/

/-- Every engine has reached the word of engine e, and none waits or owes anything for an earlier one (R79, R84, R121). -/
def Core.gathered (k : Core) (e : Eng) : Bool :=
  let pc := (k.en e).pc
  Eng.all.all fun f =>
    let x := k.en f
    decide (x.pc = pc) && decide (x.wait = none ∨ x.wait = some .ended) && decide (x.owed = 0) && x.owedCtl.isEmpty

/-- Every control queue is empty. -/
def Core.ctlEmpty (k : Core) : Bool := Eng.all.all fun f => (k.en f).ctl.isEmpty

/-- Tokens left in the 30 queues. -/
def Core.tokensLeft (k : Core) : Nat := ((List.range 30).map fun q => (k.tokens q).length).sum

/-- The writes of engines are all behind a point where every earlier instruction has finished: they are ordered before every word
that follows, and are kept only where a nest's write of the same register still is not. -/
def Core.settle (k : Core) : Core :=
  let open_ (r : Race) : Bool := k.races.any fun q => decide (6 ≤ q.writer) && q.dst.same r.dst
  { k with races := (k.races.filter open_).map fun r => if r.writer < 6 then { r with at_ := 0 } else r }

/-- The cycle in which a word of all six engines issues: its idle count after every engine has issued every earlier word, and
not before the writes in flight (R79, R84). -/
def Core.meetCycle (k : Core) (n : Nat) (landed : Bool) : Nat :=
  let c := (Eng.all.foldl (fun m f => max m (k.en f).last) 0) + 1 + n
  if landed then (k.nests.filterMap Nest.ends).foldl max (k.pend.foldl (fun m p => max m p.due) c) else c

/-- Every nest of the core has completed and made its pushes. -/
def Core.nestsDone (k : Core) : Bool := (k.nests.all fun n => n.complete) && k.nestOwed.isEmpty

/-- The six engines leave a word together in a cycle. -/
def Core.leaveAll (k : Core) (c : Nat) : Core :=
  Eng.all.foldl (fun (k : Core) f => k.leave f ((k.en f).pc + 8) 0) { k with cyc := c }

/-- The SYNC field of the word that an engine has reached (R65). -/
def State.syncHere (s : State) (e : Eng) : Nat :=
  match fetchBytes s s.cur.core (s.en e).pc.toNat with
  | .ok bs => slice (BitVec.ofNat 64 (ofBytes bs) : Word) 60 51
  | .error _ => 0

/-- Changes the mode once every engine is there, all earlier work of the engines and every nest is done and the control
queues are empty (R79). -/
def setMode (timed : Bool) (s : State) : Res :=
  let e := s.engHere
  let k := s.here
  if k.gathered e && k.ctlEmpty && k.nestsDone then
    let c := k.meetCycle (if k.sys.timed then s.syncHere e else 0) true
    let s := s.catchUp s.cur.core c
    .next (s.upd fun k =>
      let lost := Nat.min 255 (k.sys.toklost.toNat + k.tokensLeft)
      let k := { k with races := [], tok := [], sys := { k.sys with timed := timed, toklost := BitVec.ofNat 8 lost } }
      (k.leaveAll c).onAll fun x => { x with walk := 0, last := c })
  else s.stall e

/-- mode.timed (R78, R79). -/
def execModeTimed (s : State) : Res := setMode true s

/-- mode.inter (R78, R79). -/
def execModeInter (s : State) : Res := setMode false s

/-- start: issues on all six engines together (R84). -/
def execStart (s : State) : Res :=
  let e := s.engHere
  let k := s.here
  let c := k.meetCycle (s.syncHere e) false
  let s' := if k.sys.timed then s.catchUp s.cur.core c else s
  if !k.gathered e then s.stall e
  else if k.sys.timed && s'.here.nestFirst c then s'.stall e
  else .next (s'.upd fun k => k.leaveAll (if k.sys.timed then c else k.cyc))

/-- nop (R123). -/
def execNop (s : State) : Res := s.done s.engHere

/-- A word that is no instruction: ILLEGAL on the engine that reaches it first (R76, R77). -/
def execUnassignedEncoding (w : Word) (s : State) : Res := s.trap s.engHere .illegal 0 (decide (slice w 63 61 = 6))

/-! Regions -/

/-- A region descriptor obeys R120 in a window of a size. -/
def descriptorOk (d : BitVec 512) (window : Nat) : Bool :=
  let f (off n : Nat) : Nat := (d.toNat >>> (8 * off)) % 2 ^ (8 * n)
  let span (i : Nat) : Bool :=
    let v := f (8 + 4 * i) 4
    decide (v / 2 ^ 18 = 0) && decide (v % 512 + v / 512 % 512 ≤ 384)
  span 0 && span 1 && span 2 && span 3 && decide (f 26 6 = 0) && decide (f 32 4 % 64 = 0) && decide (f 36 4 % 64 = 0) &&
    decide (f 32 4 ≤ f 36 4) && decide (f 36 4 ≤ window) && decide (f 40 24 = 0)

/-- What a region snapshot holds (R295). -/
def Core.snapshot (k : Core) : Snapshot :=
  ⟨Eng.all.map fun e => (k.en e).lc, k.regs.g, k.regs.map, k.sys.next, k.pend0, k.pend1, k.sys.timed, k.nestCount⟩

/-- Opens an idempotent region (R91, R120 to R122, R295). -/
def execIdem (off : BitVec 38) (s : State) : Res :=
  let e := s.engHere
  let k := s.here
  if k.gathered e && k.ctlEmpty then
    let c := k.meetCycle (if k.sys.timed then s.syncHere e else 0) false
    let c := if k.sys.timed then k.pend.foldl (fun m p => max m p.due) c else c
    if k.tokensLeft ≠ 0 || !k.nestOwed.isEmpty then s.trap .sq .idemTokens 0 true
    else if s.preemptDue s.cur.core then s.stall e
    else if k.sys.timed && (s.catchUp s.cur.core c).here.nestFirst c then (s.catchUp s.cur.core c).stall e
    else
      let s := if k.sys.timed then s.catchUp s.cur.core c else s
      let pc := (s.en .sq).pc
      let va := (target pc off).toNat
      if va % 64 ≠ 0 then s.trap .sq .illegal 0 true
      else
        match s.check va 64 .read with
        | .error code => s.trap .sq code 0 true
        | .ok _ =>
          let (bs, s) := s.load va 64
          let d : BitVec 512 := BitVec.ofNat 512 (ofBytes bs)
          if !descriptorOk d (s.here.tcb.pages * 65536) then s.trap .sq .illegal 0 true
          else .next (s.upd fun k =>
            let k := { k.settle with regionEntry := pc, regionDesc := d, snap := k.snapshot }
            k.leaveAll (if k.sys.timed then c else k.cyc))
  else s.stall e

end Sys2Proof.Machine
end

