-- ==== Sys2Proof/Machine/Sched.lean ====
section
/-! DEFINITION. Yield, task end, remote enqueue, sequence-number words, priority, apportioning, dispatch and the watchdog (R127
to R129, R262, R269, R270, R274, R276, R278). -/

namespace Sys2Proof.Machine

/-- A waiting instruction of engine e finishes; the watchdog starts again (R127, R276). -/
def State.finishWait (s : State) (e : Eng) : Res := .next (s.upd fun k => (k.leave e ((k.en e).pc + 8) 0).feed)

/-- Stops issuing for max(n, 1) cycles (R127). -/
def execYield (n : BitVec 8) (s : State) : Res := s.await .sq (.yield (Nat.max n.toNat 1))

/-- The cycles of a yield have passed (R127). -/
def execYieldEnd (s : State) : Res :=
  match (s.en .sq).wait with
  | some (.yield _) => if s.here.runs then s.finishWait .sq else .next s
  | _ => .next s

/-- Retires the task once every engine is there, every nest and every forked command is done; it is a waiting instruction only while it
waits for commands (R128). -/
def execTend (s : State) : Res :=
  let k := s.here
  if k.gathered .sq && k.nestsDone then
    if k.live.isEmpty then
      let s := s.catchUp s.cur.core (k.meetCycle 0 true)
      .next ((s.landAll s.cur.core).retireTask s.cur.core)
    else s.await .sq .ended
  else s.stall .sq

/-- A scratchpad-window operand: ADDR_RANGE, MISALIGN, TRANSLATION in the order of their codes (R129, R274, R383). -/
def State.windowOperand (s : State) (va n align : Nat) : Except Code Nat :=
  if 2 ^ 57 ≤ va then .error .addrRange
  else if va % align ≠ 0 then .error .misalign
  else
    match window s.cur.core s.here va n with
    | .ok (.spad key) => .ok key
    | .ok .glob => .error .translation
    | .error c => .error c

/-- An operand in the task's own window (R129, R132). -/
def State.taskOperand (s : State) (va n align : Nat) : Except Code Nat :=
  match s.windowOperand va n align with
  | .ok key => if clusterWindow ≤ va then .error .translation else .ok key
  | .error c => .error c

/-- The coordinates of a package lie inside the mesh (R23, R129). -/
def coordOk (mesh : Word) (pkg : BitVec 48) : Bool :=
  [0, 12, 24, 36].all fun o => decide (slice pkg (o + 11) o ≤ slice mesh (o + 11) o)

/-- The coordinates of this package (R22). -/
def State.package (s : State) : BitVec 48 := BitVec.ofNat 48 (slice s.coord 47 0)

/-- What a renq does with its block: the status, or the local queue to wait for, or a remote package (R129). -/
inductive Enqueue where
  | status (n : Nat)
  | placed (core : Nat) (t : Tcb)
  | waits (core : Nat)
  | remote (pkg : BitVec 48)
  deriving DecidableEq, Repr

/-- The statuses of R129 in their order. -/
def State.enqueueStatus (s : State) (block : List Byte) (sb : Word) : Enqueue :=
  let tgt := slice sb 7 0
  let pkg : BitVec 48 := BitVec.ofNat 48 (slice sb 55 8)
  match readTcb block with
  | none => .status 3
  | some t =>
    if slice sb 63 56 ≠ 0 ∨ 159 < tgt ∨ coordOk s.mesh pkg = false then .status 3
    else if pkg ≠ s.package then .remote pkg
    else if s.accepts tgt = false then .status 1
    else
      let p := s.partOf (clusterOf s.cur.core)
      if p = 0xFFFF ∨ s.partOf (clusterOf tgt) ≠ p then .status 2
      else if s.queueRoom tgt t.cls then .placed tgt t
      else if tgt = s.cur.core then .status 4
      else .waits tgt

/-- Sends a request of the core under the cursor to another package under a fresh tag, in a slot of its own: an instruction's under the
core's count, a command's under its number (R280, R346). -/
def State.sendOut (s : State) (pkg : BitVec 48) (eng : Nat) (write : Bool) (cmd : Option (BitVec 32)) (f : Nat → Out) : State :=
  let r : RemoteOut := ⟨s.nextId, pkg, write, eng, cmd⟩
  (({ s with nextId := s.nextId + 1 } : State).post 0 s.cur.core cmd (f s.nextId)).upd fun k => { k with remote := k.remote ++ [r] }

/-- Free slots of the core for a request to a package: eight for each destination and 32 responses (R346). -/
def Core.slotFree (k : Core) (pkg : BitVec 48) : Bool :=
  decide ((k.remote.filter fun r => decide (r.dest = pkg)).length < 8) && decide (k.remote.length < 32)

/-- The notices of retirement that a block placed on another package will need: one for each predecessor, sent as it retires (R265). -/
def State.watchPreds (s : State) (pkg : BitVec 48) (block : List Byte) : State :=
  match readTcb block with
  | none => s
  | some t =>
    let w := (t.pred0.toList ++ t.pred1.toList).map fun p => (⟨s.here.inst, p, pkg, s.here.sys.taskid, some s.nextId⟩ : Watch)
    ({ s with watches := s.watches ++ w } : State).tellWatchers fun x => w.contains x && s.hasRetired x.inst x.pred

/-- Places a task command block on a core's queue (R129, R296). -/
def execRenq (sd sa sb : SReg) (s : State) : Res :=
  let va := (s.rdS .sq sa).toNat
  if s.here.sys.urgent then s.trap .sq .illegal
  else
    orTrap s .sq (s.taskOperand va 64 64) fun key =>
      if s.conflicts .sq [(key, key + 64)] false then s.trap .sq .overlap
      else
        let (block, s) := s.load va 64
        match s.enqueueStatus block (s.rdS .sq sb) with
        | .status n => (s.wrS .sq sd (BitVec.ofNat 64 n)).done .sq
        | .placed c t => ((s.enqueue c ⟨t, .renq s.here.inst⟩).wrS .sq sd 0).done .sq
        | .waits c => s.await .sq (.renq sd c block)
        | .remote pkg =>
          if s.here.slotFree pkg then
            ((s.watchPreds pkg block).sendOut pkg 0 false none fun tag =>
              Out.renq pkg ⟨s.package, s.cur.core, tag, s.partOf (clusterOf s.cur.core), slice (s.rdS .sq sb) 7 0, block⟩).await .sq
              (.remote (Instr.renq sd sa sb))
          else s.stall .sq

/-- What the target core of a renq from another package answers: the status, or none where the request waits for its queue; statuses 1
and 2 come first (R129, R382). -/
def State.takeRenq (s : State) (r : RenqReq) : Option State :=
  let answer (s : State) (n : Nat) : State := s.post 6 0 none (.renqDone r.pkg r.core r.tag n)
  match readTcb r.block with
  | none => some (answer s 3)
  | some t =>
    if s.accepts r.target = false then some (answer s 1)
    else if r.part = 0xFFFF ∨ s.partOf (clusterOf r.target) ≠ r.part then some (answer s 2)
    else if s.queueRoom r.target t.cls then some (answer (s.enqueue r.target ⟨t, .away r.pkg r.tag⟩) 0)
    else none

/-- A renq of another package arrives: it is answered, or held until its queue has room (R129). -/
def arriveRenq (r : RenqReq) (s : State) : Res :=
  match s.takeRenq r with
  | some t => .next t
  | none => .next { s with renqs := s.renqs ++ [r] }

/-- The oldest held request of another package to the core under the cursor enters its queue, where there is room (R129). -/
def heldRenq (s : State) : Res :=
  match s.renqs.find? fun r => decide (r.target = s.cur.core) with
  | some r =>
    match ({ s with renqs := s.renqs.erase r } : State).takeRenq r with
    | some t => .next t
    | none => .next s
  | none => .next s

/-- The queue that a renq waits for has room (R129): a renq of this core, else one of another package to this core. -/
def execRenqQueueRoom (s : State) : Res :=
  match (s.en .sq).wait with
  | some (.renq sd c block) =>
    match readTcb block with
    | some t =>
      if s.here.runs && s.queueRoom c t.cls then
        ((s.enqueue c ⟨t, .renq s.here.inst⟩).wrS .sq sd 0).finishWait .sq
      else heldRenq s
    | none => heldRenq s
  | _ => heldRenq s

/-- Sets the pending predecessors (R269). -/
def execSeqw (sa sb : SReg) (s : State) : Res :=
  let p (r : SReg) : Option (BitVec 32) := if r = 0 then none else some ((s.rdS .sq r).setWidth 32)
  (s.upd fun k => { k with pend0 := p sa, pend1 := p sb }).done .sq

/-- Engine e joins marks: their accesses are ordered before its next word (R272). -/
def Core.join (k : Core) (e : Eng) (f : Mark → Bool) : Core :=
  let ids := (k.marks.filter f).flatMap fun m => [m.id, m.id + 1]
  k.onEn e fun x => { x with joined := (x.joined ++ ids).dedup }

/-- Asks whether a command has retired; a 1 is an acquire and its join edge (R270). -/
def execSeqget (sc : Scope) (sd sa : SReg) (s : State) : Res :=
  let p : BitVec 32 := (s.rdS .sq sa).setWidth 32
  let k := s.here
  if !issuedNo k.sys.next p then (s.wrS .sq sd 2).done .sq
  else if k.live.contains p then (s.wrS .sq sd 0).done .sq
  else (((s.acquire sc).wrS .sq sd 1).upd fun k => k.join .sq fun m => decide (m.seq = some p)).done .sq

/-- Reads and writes CLASS and URGENT (R278). -/
def execPrio (sd sa : SReg) (s : State) : Res :=
  let a := s.rdS .sq sa
  let y := s.here.sys
  if 4 ≤ a.toNat then s.trap .sq .illegal
  else
    let old : Nat := (if y.cls then 1 else 0) + (if y.urgent then 2 else 0)
    let s := s.upd fun k => { k with sys := { k.sys with cls := bit a 0, urgent := bit a 1 } }
    (s.wrS .sq sd (BitVec.ofNat 64 old)).done .sq

/-! Apportioning (R274) -/

/-- The position of the largest remainder among entries that still wait for one, lowest first. -/
def largestRem : List (Nat × Nat × Bool) → Option (Nat × Nat) → Option (Nat × Nat)
  | [], best => best
  | (i, rem, open_) :: r, best =>
    largestRem r (if open_ && (match best with | some b => decide (b.2 < rem) | none => true) then some (i, rem) else best)

/-- Adds one for each of l remainders, largest first, ties to the lower index. -/
def giveExtra : Nat → List (Nat × Nat × Bool) → List Nat → List Nat
  | 0, _, a => a
  | l + 1, rems, a =>
    match largestRem rems none with
    | none => a
    | some (i, _) => giveExtra l (rems.map fun x => if x.1 = i then (x.1, x.2.1, false) else x) (a.set i (a.getD i 0 + 1))

/-- One cluster for each of the c lowest entries with tokens. -/
def firstOnes : Nat → List Nat → List Nat
  | _, [] => []
  | c, x :: r => if 0 < x ∧ 0 < c then 1 :: firstOnes (c - 1) r else 0 :: firstOnes c r

/-- Appt: the counts and the status (R274). -/
def apportion (n : List Nat) (c : Nat) : List Nat × Nat :=
  let z := (n.filter fun x => decide (0 < x)).length
  if z = 0 then (n.map fun _ => 0, 0)
  else if c < z then (firstOnes c n, 1)
  else
    let r := c - z
    let t := n.sum
    let a := n.map fun x => if 0 < x then 1 + r * x / t else 0
    let l := r - (n.map fun x => r * x / t).sum
    let rems := (List.range n.length).zipWith (fun i x => (i, r * x % t, decide (0 < x))) n
    (giveExtra l rems a, 0)

/-- Apportions clusters to experts (R274). -/
def execAppt (sd sa sb sc : SReg) (s : State) : Res :=
  let b := s.rdS .sq sb
  let e := slice b 8 0
  let va := (s.rdS .sq sa).toNat
  let vc := (s.rdS .sq sc).toNat
  if e < 1 ∨ 256 < e ∨ slice b 15 9 ≠ 0 ∨ slice b 63 32 ≠ 0 then s.trap .sq .illegal
  else if 2 ^ 57 ≤ va ∨ 2 ^ 57 ≤ vc then s.trap .sq .addrRange
  else if va % 4 ≠ 0 ∨ vc % 2 ≠ 0 then s.trap .sq .misalign
  else
    orTrap s .sq (s.windowOperand va (4 * e) 4) fun ka =>
      orTrap s .sq (s.windowOperand vc (2 * e) 2) fun kc =>
        if s.conflicts .sq [(ka, ka + 4 * e)] false || s.conflicts .sq [(kc, kc + 2 * e)] true then s.trap .sq .overlap
        else
          let (bs, s) := s.load va (4 * e)
          let n := (List.range e).map fun i => fieldAt bs (4 * i) 4
          let (a, st) := apportion n (slice b 31 16)
          ((s.store .sq vc (a.flatMap fun x => toBytes 2 x)).wrS .sq sd (BitVec.ofNat 64 st)).done .sq

/-! Dispatch and the watchdog -/

/-- An idle core takes the oldest ready entry of its queue (R262). -/
def execTaskDispatch (s : State) : Res :=
  let c := s.cur.core
  match s.pickTask c with
  | some (.entry cls n q) =>
    let cl := clusterOf c
    let bases := s.windowBases cl q.tcb.pages
    let base := bases.getD (Config.pick s.free c % bases.length) 0
    let k := s.core c
    let k := if cls then { k with queue1 := k.queue1.eraseIdx n } else { k with queue0 := k.queue0.eraseIdx n }
    .next ({ s with nextInst := s.nextInst + 1 }.setCore c (k.dispatch q s.nextInst base (s.partOf cl)))
  | _ => .next s

/-- A waiting instruction, which holds the watchdog (R87, R127, R129, R276): no wait of an access for other packages (R346), and of the
Moraine instructions only mdep, mrd and mtake (R321). -/
def Wait.holdsWatchdog : Wait → Bool
  | .nestRoom _ | .update _ _ _ _ _ _ | .lines _ | .tried _ _ _ | .withdrawn _ _ | .remote _ => false
  | _ => true

/-- An instruction that may be a waiting instruction at the moment: a renq whose request is at another package waits there for a full queue,
or is on its way (R129, R382). -/
def Wait.mayHold : Wait → Bool
  | .remote (.renq _ _ _) => true
  | _ => false

/-- Some engine's wait holds the watchdog: where only the other package knows, the device's state is free (R129, R276). -/
def State.watchdogHeld (s : State) : Bool :=
  Eng.all.any fun e => match (s.en e).wait with | some w => w.holdsWatchdog || (w.mayHold && Config.choose s.free 20) | none => false

/-- The word at an engine's position has tag 6. -/
def State.atTag6 (s : State) (e : Eng) : Bool :=
  match fetchBytes s s.cur.core (s.en e).pc.toNat with
  | .ok bs => decide (slice (BitVec.ofNat 64 (ofBytes bs) : Word) 63 61 = 6)
  | .error _ => false

/-- A unit of 1,024 cycles has passed on a core: COUNT advances, and at LIMIT the sequencer raises WATCHDOG (R276). -/
def execWatchdog (s : State) : Res :=
  let k := s.here
  if !k.runs || k.finishing (some .sq) || s.watchdogHeld then .next s
  else
    let n := k.sys.wdCount + 1
    if n = k.sys.wdLimit then
      (s.upd fun k => { k with sys := { k.sys with wdCount := 0 } }).trap .sq .watchdog 0 (s.atTag6 .sq)
    else .next (s.upd fun k => { k with sys := { k.sys with wdCount := n } })

end Sys2Proof.Machine
end

