-- ==== Sys2Proof/Decode.lean ====
section
/-! DEFINITION. The decoder, total on every 64-bit word, and the encoder, both written from the encoding tables of the spec
(R65, R73, R75 and each instruction's own field table). -/

namespace Sys2Proof

/-- Sum of field widths. -/
def widthSum : List Nat → Nat
  | [] => 0
  | w :: ws => w + widthSum ws

/-- Cuts a number into fields, the highest first. -/
def cut : List Nat → Nat → List Nat
  | [], _ => []
  | w :: ws, x => (x >>> widthSum ws) % 2 ^ w :: cut ws x

/-- Joins fields (width, value), the highest first. -/
def glue : List (Nat × Nat) → Nat
  | [] => 0
  | (w, v) :: r => v % 2 ^ w * 2 ^ widthSum (r.map Prod.fst) + glue r

/-- Why a word is no instruction of the engine that reaches it (R77). -/
inductive Reject where
  /-- A reserved value or a nonzero must-be-zero bit, in a word of this tag: ILLEGAL on the engine of the tag. -/
  | reservedField (tag : Nat)
  deriving DecidableEq, Repr

namespace Dec

/-- Form SS with FN and MBZ zero and three registers. -/
def ss (f : SReg → SReg → SReg → Instr) (x : Nat) : Option Instr :=
  match cut [6, 6, 6, 26] x with
  | [d, a, b, 0] => some (f (.ofNat 6 d) (.ofNat 6 a) (.ofNat 6 b))
  | _ => none

/-- Form SS with the signedness variant in FN[0]. -/
def su (f : Bool → SReg → SReg → SReg → Instr) (x : Nat) : Option Instr :=
  match cut [6, 6, 6, 5, 1, 20] x with
  | [d, a, b, 0, u, 0] => some (f (u == 1) (.ofNat 6 d) (.ofNat 6 a) (.ofNat 6 b))
  | _ => none

/-- Form SS with a fourth register in FN. -/
def s4 (f : SReg → SReg → SReg → SReg → Instr) (x : Nat) : Option Instr :=
  match cut [6, 6, 6, 6, 20] x with
  | [d, a, b, c, 0] => some (f (.ofNat 6 d) (.ofNat 6 a) (.ofNat 6 b) (.ofNat 6 c))
  | _ => none

/-- Form SS, sd and sa only. -/
def da (f : SReg → SReg → Instr) (x : Nat) : Option Instr :=
  match cut [6, 6, 32] x with
  | [d, a, 0] => some (f (.ofNat 6 d) (.ofNat 6 a))
  | _ => none

/-- Form SS, sa and sb only. -/
def ab (f : SReg → SReg → Instr) (x : Nat) : Option Instr :=
  match cut [6, 6, 6, 26] x with
  | [0, a, b, 0] => some (f (.ofNat 6 a) (.ofNat 6 b))
  | _ => none

/-- sa only, in [37:32]. -/
def a1 (f : SReg → Instr) (x : Nat) : Option Instr :=
  match cut [6, 6, 32] x with
  | [0, a, 0] => some (f (.ofNat 6 a))
  | _ => none

/-- sd only, in [43:38]. -/
def d1 (f : SReg → Instr) (x : Nat) : Option Instr :=
  match cut [6, 38] x with
  | [d, 0] => some (f (.ofNat 6 d))
  | _ => none

/-- No operand. -/
def op0 (i : Instr) (x : Nat) : Option Instr := if x = 0 then some i else none

/-- sd and one variant bit [0]. -/
def d1v (f g : SReg → Instr) (x : Nat) : Option Instr :=
  match cut [6, 37, 1] x with
  | [d, 0, v] => some ((if v = 1 then g else f) (.ofNat 6 d))
  | _ => none

/-- Form SI with a 32-bit immediate. -/
def si (f : SReg → SReg → BitVec 32 → Instr) (x : Nat) : Option Instr :=
  match cut [6, 6, 32] x with
  | [d, a, m] => some (f (.ofNat 6 d) (.ofNat 6 a) (.ofNat 32 m))
  | _ => none

/-- Form SI with a shift count in imm[5:0] (R104). -/
def sh (f : SReg → SReg → BitVec 6 → Instr) (x : Nat) : Option Instr :=
  match cut [6, 6, 26, 6] x with
  | [d, a, 0, n] => some (f (.ofNat 6 d) (.ofNat 6 a) (.ofNat 6 n))
  | _ => none

/-- Form SL. -/
def sl (f : SReg → BitVec 38 → Instr) (x : Nat) : Option Instr :=
  match cut [6, 38] x with
  | [d, m] => some (f (.ofNat 6 d) (.ofNat 38 m))
  | _ => none

/-- Register, base, type and a 27-bit offset (R110). -/
def mem (f : Fmt → SReg → SReg → BitVec 27 → Instr) (x : Nat) : Option Instr :=
  match cut [6, 6, 5, 27] x with
  | [d, a, t, m] => (Fmt.ofCode t).map fun ty => f ty (.ofNat 6 d) (.ofNat 6 a) (.ofNat 27 m)
  | _ => none

/-- ldacq and strel (R151). -/
def ord (f : Fmt → Scope → SReg → SReg → BitVec 24 → Instr) (x : Nat) : Option Instr :=
  match cut [6, 6, 5, 3, 24] x with
  | [d, a, t, s, m] =>
    match Fmt.ofCode t, Scope.ofCode s with
    | some ty, some sc => some (f ty sc (.ofNat 6 d) (.ofNat 6 a) (.ofNat 24 m))
    | _, _ => none
  | _ => none

/-- amo and red (R152, R154). -/
def atomic (f : Atomic → Instr) (x : Nat) : Option Instr :=
  match cut [6, 6, 6, 4, 5, 3, 2, 12] x with
  | [d, a, b, o, t, s, r, 0] =>
    match AmoOp.ofCode o, Fmt.ofCode t, Scope.ofCode s with
    | some op, some ty, some sc => some (f ⟨.ofNat 6 d, .ofNat 6 a, .ofNat 6 b, op, ty, sc, .ofNat 2 r⟩)
    | _, _, _ => none
  | _ => none

/-- System register access: sd, sa and the number (R125). -/
def sys (x : Nat) : Option (SReg × SReg × BitVec 12) :=
  match cut [6, 6, 12, 20] x with
  | [d, a, n, 0] => some (.ofNat 6 d, .ofNat 6 a, .ofNat 12 n)
  | _ => none

/-- Generator in [43:41] and two registers (R251). -/
def gab (f : GenNo → SReg → SReg → Instr) (x : Nat) : Option Instr :=
  match cut [3, 3, 6, 6, 26] x with
  | [g, 0, a, b, 0] => some (f (.ofNat 3 g) (.ofNat 6 a) (.ofNat 6 b))
  | _ => none

/-- Generator in [43:41] and sa (R251). -/
def ga (f : GenNo → SReg → Instr) (x : Nat) : Option Instr :=
  match cut [3, 3, 6, 32] x with
  | [g, 0, a, 0] => some (f (.ofNat 3 g) (.ofNat 6 a))
  | _ => none

/-- Map in [43:40] and sa (R332). -/
def ma (f : MapNo → SReg → Instr) (x : Nat) : Option Instr :=
  match cut [4, 2, 6, 32] x with
  | [m, 0, a, 0] => some (f (.ofNat 4 m) (.ofNat 6 a))
  | _ => none

/-- Form VV (R73, R74). -/
def vv (f : VV → Instr) (x : Nat) : Option Instr :=
  match cut [9, 9, 9, 4, 5, 3, 2, 3] x with
  | [d, a, b, m, t, r, 0, g] =>
    match Fmt.ofCode t, RMode.ofCode r with
    | some ty, some rm => some (f ⟨.ofNat 9 d, .ofNat 9 a, .ofNat 9 b, .ofNat 4 m, ty, rm, .ofNat 3 g⟩)
    | _, _ => none
  | _ => none

/-- Form VI (R73). -/
def vi (f : VI → Instr) (x : Nat) : Option Instr :=
  match cut [9, 9, 4, 5, 17] x with
  | [d, a, m, t, n] => (Fmt.ofCode t).map fun ty => f ⟨.ofNat 9 d, .ofNat 9 a, .ofNat 4 m, ty, .ofNat 17 n⟩
  | _ => none

/-- Strided accesses (R164). -/
def strided (f : Strided → Instr) (x : Nat) : Option Instr :=
  match cut [9, 6, 6, 4, 5, 1, 13] x with
  | [d, a, b, m, t, n, o] =>
    (Fmt.ofCode t).map fun ty => f ⟨.ofNat 9 d, .ofNat 6 a, .ofNat 6 b, .ofNat 4 m, ty, n == 1, .ofNat 13 o⟩
  | _ => none

/-- Gather and scatter (R165). -/
def indexed (f : Indexed → Instr) (x : Nat) : Option Instr :=
  match cut [9, 9, 6, 4, 5, 1, 10] x with
  | [d, v, a, m, t, n, 0] =>
    (Fmt.ofCode t).map fun ty => f ⟨.ofNat 9 d, .ofNat 9 v, .ofNat 6 a, .ofNat 4 m, ty, n == 1⟩
  | _ => none

/-- Tensor-index accesses (R166). -/
def tensor (f : TensorIx → Instr) (x : Nat) : Option Instr :=
  match cut [9, 6, 6, 4, 5, 1, 13] x with
  | [d, a, b, m, t, n, 0] =>
    (Fmt.ofCode t).map fun ty => f ⟨.ofNat 9 d, .ofNat 6 a, .ofNat 6 b, .ofNat 4 m, ty, n == 1⟩
  | _ => none

/-- Reductions (R207). -/
def reduce (f : Reduce → Instr) (x : Nat) : Option Instr :=
  match cut [9, 9, 9, 4, 5, 3, 1, 4] x with
  | [d, a, b, m, t, 0, w, p] =>
    (Fmt.ofCode t).map fun ty => f ⟨.ofNat 9 d, .ofNat 9 a, .ofNat 9 b, .ofNat 4 m, ty, .ofNat 4 p, w == 1⟩
  | _ => none

/-- Type, vd and va of the transpose engine (R169). -/
def xp (f : Fmt → VNo → VNo → Instr) (x : Nat) : Option Instr :=
  match cut [9, 9, 5, 21] x with
  | [d, a, t, 0] => (Fmt.ofCode t).map fun ty => f ty (.ofNat 9 d) (.ofNat 9 a)
  | _ => none

/-- Hadamard quantisation (R172). -/
def hq (f : Fmt → RMode → GenNo → VNo → VNo → SReg → SReg → Instr) (x : Nat) : Option Instr :=
  match cut [9, 9, 6, 6, 5, 3, 3, 3] x with
  | [d, a, p, q, t, r, g, 0] =>
    match Fmt.ofCode t, RMode.ofCode r with
    | some ty, some rm => some (f ty rm (.ofNat 3 g) (.ofNat 9 d) (.ofNat 9 a) (.ofNat 6 p) (.ofNat 6 q))
    | _, _ => none
  | _ => none

/-- Masks: md and two mask sources in the va and vb fields, TY, RM and AUX zero (R202). -/
def mask2 (f : MaskNo → MaskNo → MaskNo → MaskNo → Instr) (x : Nat) : Option Instr :=
  match cut [4, 5, 5, 4, 5, 4, 4, 13] x with
  | [d, 0, 0, a, 0, b, m, 0] => some (f (.ofNat 4 d) (.ofNat 4 a) (.ofNat 4 b) (.ofNat 4 m))
  | _ => none

/-- A mask source and a vector destination, TY 0x10 (R202). -/
def maskv (f : VNo → MaskNo → MaskNo → Instr) (x : Nat) : Option Instr :=
  match cut [9, 5, 4, 9, 4, 5, 8] x with
  | [d, 0, a, 0, m, 16, 0] => some (f (.ofNat 9 d) (.ofNat 4 a) (.ofNat 4 m))
  | _ => none

/-- A mask and an offset (R168). -/
def mo (f : MaskNo → SReg → BitVec 34 → Instr) (x : Nat) : Option Instr :=
  match cut [4, 6, 34] x with
  | [m, a, n] => some (f (.ofNat 4 m) (.ofNat 6 a) (.ofNat 34 n))
  | _ => none

/-- The operands of one opcode, or none where the opcode is unassigned. -/
abbrev Row := Option (Nat → Option Instr)

/-- A row. -/
def row (f : Nat → Option Instr) : Row := some f

/-- n unassigned opcodes. -/
def gap (n : Nat) : List Row := List.replicate n none

/-- Sequencer opcodes 0x00 to 0x0F (R103). -/
def sq0 : List Row :=
  [row (ss .add), row (ss .sub), row (ss .mul), row (su .mulh), row (su .div), row (su .rem), row (ss .and), row (ss .or),
   row (ss .xor), row (ss .shl), row (ss .shr), row (ss .sra), row (su .min), row (su .max),
   row fun x => match cut [6, 6, 6, 2, 4, 20] x with
     | [d, a, b, 0, c, 0] => (Cond.ofCode c).map fun k => .cmp k (.ofNat 6 d) (.ofNat 6 a) (.ofNat 6 b)
     | _ => none,
   row (s4 .sel)]

/-- Sequencer opcodes 0x10 to 0x1F (R104 to R109). -/
def sq1 : List Row :=
  [row (si .addi), row (si .muli), row (si .andi), row (si .ori), row (si .xori), row (sh .shli), row (sh .shri),
   row (sh .srai),
   row fun x => match cut [6, 6, 4, 28] x with
     | [d, a, c, m] => (Cond.ofCode c).map fun k => .cmpi k (.ofNat 6 d) (.ofNat 6 a) (.ofNat 28 m)
     | _ => none,
   row (sl .li), row (sl .lui), row (da .clz), row (da .popc),
   row fun x => match cut [6, 6, 6, 3, 23] x with
     | [d, a, b, s, m] => some (.lea (.ofNat 6 d) (.ofNat 6 a) (.ofNat 6 b) (.ofNat 3 s) (.ofNat 23 m))
     | _ => none,
   row fun x => match cut [6, 6, 6, 6, 1, 19] x with
     | [d, a, p, l, s, 0] => some (.ext (s == 1) (.ofNat 6 d) (.ofNat 6 a) (.ofNat 6 p) (.ofNat 6 l))
     | _ => none] ++ gap 1

/-- Sequencer opcodes 0x20 to 0x2F (R110, R151 to R156). -/
def sq2 : List Row :=
  [row (mem .ld), row (mem .st), row (ord .ldacq), row (ord .strel), row (atomic .amo),
   row fun x => match cut [6, 6, 6, 6, 5, 3, 2, 10] x with
     | [d, a, b, c, t, s, r, 0] =>
       match Fmt.ofCode t, Scope.ofCode s with
       | some ty, some sc => some (.amocas (.ofNat 6 d) (.ofNat 6 a) (.ofNat 6 b) (.ofNat 6 c) ty sc (.ofNat 2 r))
       | _, _ => none
     | _ => none,
   row (atomic .red),
   row fun x => match cut [2, 3, 39] x with
     | [k, s, 0] =>
       match FenceKind.ofCode k, Scope.ofCode s with
       | some kd, some sc => some (.fence kd sc)
       | _, _ => none
     | _ => none,
   row (op0 .qalign),
   row fun x => match cut [6, 6, 2, 3, 27] x with
     | [0, a, l, 0, m] => if l < 2 then some (.pf (l == 1) (.ofNat 6 a) (.ofNat 27 m)) else none
     | _ => none] ++ gap 6

/-- Sequencer opcodes 0x30 to 0x3F (R125 to R129, R269, R270, R274, R278, R289). -/
def sq3 : List Row :=
  [row fun x => match sys x with
     | some (d, a, n) => if a = 0 then some (.rsys d n) else none
     | _ => none,
   row fun x => match sys x with
     | some (d, a, n) => if d = 0 then some (.wsys n a) else none
     | _ => none,
   row fun x => match sys x with
     | some (d, a, n) => some (.xsys d n a)
     | _ => none,
   row fun x => match cut [36, 8] x with
     | [0, n] => some (.yield (.ofNat 8 n))
     | _ => none,
   row (op0 .tend), row (ss .renq), row (ab .seqw),
   row fun x => match cut [6, 6, 6, 3, 3, 20] x with
     | [d, a, 0, 0, s, 0] => (Scope.ofCode s).map fun sc => .seqget sc (.ofNat 6 d) (.ofNat 6 a)
     | _ => none,
   row (da .prio), row (s4 .appt),
   row fun x => match cut [28, 16] x with
     | [0, n] => some (.trap (.ofNat 16 n))
     | _ => none,
   row fun x => match x with
     | 0 => some .tret | 1 => some .tretSkip | 2 => some .tretAbandon | _ => none,
   row (d1 .tack), row (da .tmask), row (a1 .tsave)] ++ gap 1

/-- Sequencer opcodes 0x40 to 0x50 (R178, R185, R187, R189, R191). -/
def sq4 : List Row :=
  [row (da .cpld), row (da .cpst), row (da .cpg), row (da .cpsc), row (da .cpmem), row (d1 .cpcancel),
   row fun x => match cut [6, 6, 6, 6, 20] x with
     | [0, a, b, c, 0] => some (.barinit (.ofNat 6 a) (.ofNat 6 b) (.ofNat 6 c))
     | _ => none,
   row (ab .barexp), row (ss .barar), row (ss .bartry), row (ab .barwait), row (ab .waita), row (da .rgclaim),
   row (ab .rgfill), row (ab .rgwaitf), row (ab .rgrel), row (da .rgtry)]

/-- Sequencer opcodes 0x51 to 0x5F (R231, R232, R241, R251). -/
def sq5 : List Row :=
  [row fun x => match cut [6, 6, 6, 6, 20] x with
     | [0, a, b, c, 0] => some (.mxfmt (.ofNat 6 a) (.ofNat 6 b) (.ofNat 6 c))
     | _ => none,
   row fun x => match cut [6, 6, 27, 5] x with
     | [0, a, 0, n] => some (.mxcfg (.ofNat 5 n) (.ofNat 6 a))
     | _ => none,
   row (a1 .mxcfgl), row (d1v .mxcancel .mxcancelAll), row (d1v .mxprog .mxprogQ),
   row fun x => match cut [3, 3, 6, 32] x with
     | [g, w, a, 0] => some (.gset (.ofNat 3 g) (.ofNat 3 w) (.ofNat 6 a))
     | _ => none,
   row fun x => match cut [6, 3, 3, 32] x with
     | [d, g, w, 0] => some (.gget (.ofNat 6 d) (.ofNat 3 g) (.ofNat 3 w))
     | _ => none,
   row (gab .gskip), row (ga .gsave), row (ga .gload),
   row fun x => match cut [6, 3, 35] x with
     | [d, g, 0] => some (.gdraw (.ofNat 6 d) (.ofNat 3 g))
     | _ => none,
   row (gab .gkey)] ++ gap 3

/-- Sequencer opcodes 0x60 to 0x6F (R319, R332, R333, R340). -/
def sq6 : List Row :=
  [row (ss .mdep), row (ss .mrd), row (ss .mtake), row (ss .mtrydep), row (ss .mtryrd), row (ss .mtrytk),
   row (ss .mwithdraw), row (ma .mapld), row (ma .mapst),
   row fun x => match cut [4, 2, 6, 3, 29] x with
     | [m, 0, a, d, 0] => some (.mapset (.ofNat 4 m) (.ofNat 3 d) (.ofNat 6 a))
     | _ => none,
   row fun x => match cut [6, 6, 4, 1, 27] x with
     | [0, a, m, 0, 0] => some (.mapbind (.ofNat 6 a) (.ofNat 4 m))
     | [0, a, 0, 1, 0] => some (.mapbindU (.ofNat 6 a))
     | _ => none,
   row fun x => match cut [6, 6, 6, 6, 4, 4, 4, 8] x with
     | [d, a, b, c, ms, md, p, 0] =>
       some (.rshd (.ofNat 6 d) (.ofNat 6 a) (.ofNat 6 b) (.ofNat 6 c) (.ofNat 4 ms) (.ofNat 4 md) (.ofNat 4 p))
     | _ => none,
   row fun x => match cut [6, 6, 6, 6, 4, 4, 12] x with
     | [d, a, b, 0, ms, md, 0] => some (.rshdq (.ofNat 6 d) (.ofNat 6 a) (.ofNat 6 b) (.ofNat 4 ms) (.ofNat 4 md))
     | _ => none] ++ gap 3

/-- Sequencer opcodes 0x70 to 0x76 (R350, R353, R356, R367). -/
def sq7 : List Row :=
  [row (ss .clgrp), row (da .clrun), row (ab .clchunk),
   row fun x => match cut [6, 6, 6, 6, 20] x with
     | [d, 0, b, 0, 0] => some (.clstatCc (.ofNat 6 d) (.ofNat 6 b))
     | [d, 0, b, 1, 0] => some (.clstatGrp (.ofNat 6 d) (.ofNat 6 b))
     | _ => none,
   row (da .nmrun), row (da .nmstat), row (da .nmstop)]

/-- The sequencer's opcodes (R75). -/
def sq : List Row := sq0 ++ sq1 ++ sq2 ++ sq3 ++ sq4 ++ sq5 ++ sq6 ++ sq7

/-- The load engine's opcodes (R164 to R168). -/
def ld : List Row :=
  [row (strided .vld), row (indexed .vldg), row (tensor .vldx), row (strided .vldt), row (strided .vldb), row (mo .vldm),
   row fun x => match cut [4, 6, 6, 28] x with
     | [c, a, b, 0] => some (.vlda (.ofNat 4 c) (.ofNat 6 a) (.ofNat 6 b))
     | _ => none,
   row (strided .vlpf)]

/-- The transpose engine's opcodes (R169 to R172). -/
def xpRows : List Row :=
  [row (xp .xtr), row (xp .xunpk), row (xp .xpk), row (hq .xhq), row (hq .xhdq),
   row fun x => match cut [9, 9, 24, 2] x with
     | [d, a, p, 0] => some (.xperm (.ofNat 9 d) (.ofNat 9 a) (.ofNat 24 p))
     | _ => none,
   row fun x => match cut [9, 9, 9, 8, 9] x with
     | [d, a, b, n, 0] => some (.xcat (.ofNat 9 d) (.ofNat 9 a) (.ofNat 9 b) (.ofNat 8 n))
     | _ => none]

/-- The matrix engine's opcodes (R233, R241). -/
def mx : List Row :=
  [row fun x => match cut [1, 43] x with
     | [r, 0] => some (if r = 1 then .mxgoResume else .mxgo)
     | _ => none,
   row fun x => match cut [4, 4, 36] x with
     | [c, n, 0] => some (.mxzero (.ofNat 4 c) (.ofNat 4 n))
     | _ => none,
   row (op0 .mxsync)]

/-- Vector opcodes 0x00 to 0x0F (R195, R199). -/
def ve0 : List Row :=
  [row (vv .vadd), row (vv .vsub), row (vv .vmul), row (vv .vfma), row (vv .vfms), row (vv .vmin), row (vv .vmax),
   row (vv .vabs), row (vv .vneg), row (vv .vdiv), row (vv .vsqrt), row (vv .vand), row (vv .vor), row (vv .vxor),
   row (vv .vnot), row (vv .vshl)]

/-- Vector opcodes 0x10 to 0x1F (R199 to R206). -/
def ve1 : List Row :=
  [row (vv .vshr), row (vv .vsra), row (vv .vadds), row (vv .vsubs),
   row fun x => match cut [9, 9, 2, 2, 5, 4, 5, 3, 2, 3] x with
     | [d, a, p, 0, s, m, t, r, 0, g] =>
       match Fmt.ofCode s, Fmt.ofCode t, RMode.ofCode r with
       | some src, some ty, some rm =>
         some (.vcvt (.ofNat 9 d) (.ofNat 9 a) (.ofNat 2 p) src (.ofNat 4 m) ty rm (.ofNat 3 g))
       | _, _, _ => none
     | _ => none,
   row (vv .vcvtmx), row (vv .vdqmx),
   row fun x => match cut [4, 5, 9, 9, 4, 5, 3, 1, 4] x with
     | [d, 0, a, b, m, t, 0, h, c] =>
       match Fmt.ofCode t, VCond.ofCode c with
       | some ty, some k => some (.vcmp k (h == 1) (.ofNat 4 d) (.ofNat 9 a) (.ofNat 9 b) (.ofNat 4 m) ty)
       | _, _ => none
     | _ => none,
   row fun x => match cut [9, 9, 9, 4, 5, 3, 1, 4] x with
     | [d, a, b, m, t, 0, 0, s] =>
       (Fmt.ofCode t).map fun ty => .vsel (.ofNat 9 d) (.ofNat 9 a) (.ofNat 9 b) (.ofNat 4 s) (.ofNat 4 m) ty
     | _ => none,
   row (vv .vmov),
   row fun x => match cut [9, 6, 6, 4, 5, 14] x with
     | [d, a, 0, m, t, 0] => (Fmt.ofCode t).map fun ty => .vbcast (.ofNat 9 d) (.ofNat 6 a) (.ofNat 4 m) ty
     | _ => none,
   row (vv .vperm),
   row fun x => match cut [9, 9, 4, 5, 1, 8, 8] x with
     | [d, a, m, 16, u, 0, n] => some (.vslide (u == 1) (.ofNat 8 n) (.ofNat 9 d) (.ofNat 9 a) (.ofNat 4 m))
     | _ => none,
   row (vi .viota), row (vi .vaddi), row (vi .vmuli)]

/-- Vector opcodes 0x20 to 0x2F (R200 to R202, R207). -/
def ve2 : List Row :=
  [row (vi .vandi), row (vi .vori), row (vi .vshli), row (vi .vshri),
   row fun x => match cut [4, 5, 9, 4, 5, 4, 13] x with
     | [d, 0, a, m, t, c, n] =>
       match Fmt.ofCode t, VCond.ofCode c with
       | some ty, some k => some (.vcmpi k (.ofNat 13 n) (.ofNat 4 d) (.ofNat 9 a) (.ofNat 4 m) ty)
       | _, _ => none
     | _ => none,
   row (vi .vli), row (mask2 .vmand), row (mask2 .vmor), row (mask2 .vmxor),
   row fun x => match cut [4, 5, 5, 4, 9, 4, 13] x with
     | [d, 0, 0, a, 0, m, 0] => some (.vmnot (.ofNat 4 d) (.ofNat 4 a) (.ofNat 4 m))
     | _ => none,
   row (maskv .vmpop), row (maskv .vmfirst), row (reduce .vredsum), row (reduce .vredmax), row (reduce .vredmin),
   row (reduce .vdot)]

/-- Vector opcodes 0x30 to 0x39 (R204, R209, R215, R258). -/
def ve3 : List Row :=
  [row (vv .vexp2), row (vv .vlog2), row (vv .vrcp), row (vv .vrsqrt), row (vv .vsinT), row (vv .vcosT),
   row fun x => match cut [9, 6, 6, 4, 5, 14] x with
     | [0, a, b, 0, t, 0] => (Fmt.ofCode t).map fun ty => .vupd ty (.ofNat 6 a) (.ofNat 6 b)
     | _ => none,
   row fun x => match cut [9, 3, 6, 1, 5, 4, 16] x with
     | [d, g, a, 0, t, m, 0] =>
       (Fmt.ofCode t).map fun ty => .gfill (.ofNat 9 d) (.ofNat 3 g) (.ofNat 6 a) ty (.ofNat 4 m)
     | [d, g, 0, 1, t, m, 0] => (Fmt.ofCode t).map fun ty => .gfillS (.ofNat 9 d) (.ofNat 3 g) ty (.ofNat 4 m)
     | _ => none,
   row fun x => match cut [9, 4, 4, 4, 23] x with
     | [d, a, p, m, 0] => some (.vaccr (.ofNat 9 d) (.ofNat 4 a) (.ofNat 4 p) (.ofNat 4 m))
     | _ => none,
   row fun x => match cut [4, 5, 9, 4, 4, 18] x with
     | [a, 0, v, p, m, 0] => some (.vaccw (.ofNat 4 a) (.ofNat 9 v) (.ofNat 4 p) (.ofNat 4 m))
     | _ => none]

/-- The vector engine's opcodes (R75). -/
def ve : List Row := ve0 ++ ve1 ++ ve2 ++ ve3

/-- The store engine's opcodes (R164 to R168, R173). -/
def st : List Row :=
  [row (strided .vst), row (indexed .vsc), row (tensor .vsx),
   row fun x => match cut [4, 6, 6, 6, 5, 3, 3, 4, 1, 1, 5] x with
     | [c, a, b, k, t, r, g, n, cc, nt, id] =>
       match Fmt.ofCode t, RMode.ofCode r with
       | some ty, some rm =>
         some (.vsdrain (.ofNat 4 c) (.ofNat 6 a) (.ofNat 6 b) (.ofNat 6 k) ty rm (.ofNat 3 g) (.ofNat 4 n) (cc == 1)
           (nt == 1) (.ofNat 5 id))
       | _, _ => none
     | _ => none,
   row (mo .vsm),
   row fun x => match cut [4, 6, 6, 1, 27] x with
     | [c, a, b, n, 0] => some (.vsa (.ofNat 4 c) (.ofNat 6 a) (.ofNat 6 b) (n == 1))
     | _ => none]

/-- The tag-6 opcodes (R113 to R123). -/
def all : List Row :=
  [row fun x => match cut [4, 2, 6, 6, 26] x with
     | [c, 0, a, b, o] => (Cond.ofCode c).map fun k => .br k (.ofNat 6 a) (.ofNat 6 b) (.ofNat 26 o)
     | _ => none,
   row fun x => match cut [6, 38] x with
     | [d, o] => some (.jmp (.ofNat 6 d) (.ofNat 38 o))
     | _ => none,
   row (da .jmpr),
   row fun x => match cut [2, 1, 3, 6, 32] x with
     | [l, s, 0, a, m] => some (.lpset (.ofNat 2 l) (s == 1) (.ofNat 6 a) (.ofNat 32 m))
     | _ => none,
   row fun x => match cut [2, 4, 38] x with
     | [l, 0, o] => some (.lpend (.ofNat 2 l) (.ofNat 38 o))
     | _ => none,
   row fun x => match cut [6, 38] x with
     | [0, o] => some (.idem (.ofNat 38 o))
     | _ => none,
   row fun x => match x with
     | 0 => some .modeInter | 1 => some .modeTimed | _ => none,
   row (op0 .start), row (op0 .nop)]

/-- The opcode spaces by tag; tag 7 has none (R76). -/
def rows : Nat → List Row
  | 0 => sq | 1 => ld | 2 => xpRows | 3 => mx | 4 => ve | 5 => st | 6 => all | _ => []

end Dec

/-- The opcode is assigned under its tag (R75, R76). -/
def assigned (tag op : Nat) : Bool :=
  match (Dec.rows tag)[op]? with
  | some (some _) => true
  | _ => false

/-- Decodes the operands of an assigned opcode. -/
def decodeOperands (tag op x : Nat) : Option Instr :=
  match (Dec.rows tag)[op]? with
  | some (some f) => f x
  | _ => none

/-- Decodes a word: the SYNC field and the instruction. A word whose tag is 7 or whose opcode is unassigned is the row
UNASSIGNED_ENCODING (R77); a reserved value or a nonzero must-be-zero bit is rejected by name, with the word's tag. -/
def decodeWord (w : Word) : Except Reject (Nat × Instr) :=
  match cut [3, 10, 7, 44] w.toNat with
  | [tag, sync, op, x] =>
    if assigned tag op then
      match decodeOperands tag op x with
      | some i => if i.ok then .ok (sync, i) else .error (.reservedField tag)
      | none => .error (.reservedField tag)
    else .ok (sync, .unassignedEncoding w)
  | _ => .ok (0, .unassignedEncoding w)

/-- The instruction of a table word: this hardware's words have 64 bits and are stored little-endian (R66), so bit 0 of w
is bit 0 of the word. -/
def decodeTableWord (_nbits w : Nat) : Option Instr :=
  match decodeWord (BitVec.ofNat 64 w) with
  | .ok (_, i) => some i
  | .error _ => none

namespace Enc

/-- Fields of an operand layout, (width, value), highest first. -/
abbrev Fields := List (Nat × Nat)

/-- A Bool as a field. -/
def b (x : Bool) : Nat × Nat := (1, if x then 1 else 0)

/-- A bit vector as a field. -/
def v {w : Nat} (x : BitVec w) : Nat × Nat := (w, x.toNat)

/-- n zero bits. -/
def z (n : Nat) : Nat × Nat := (n, 0)

/-- A format field. -/
def ty (t : Fmt) : Nat × Nat := (5, t.code)

/-- A rounding field. -/
def rm (r : RMode) : Nat × Nat := (3, r.code)

/-- Form VV. -/
def vv (o : VV) : Fields := [v o.vd, v o.va, v o.vb, v o.pm, ty o.ty, rm o.rm, z 2, v o.g]

/-- Form VI. -/
def vi (o : VI) : Fields := [v o.vd, v o.va, v o.pm, ty o.ty, v o.imm]

/-- Strided accesses. -/
def strided (o : Strided) : Fields := [v o.vd, v o.sa, v o.sb, v o.pm, ty o.ty, b o.nt, v o.off]

/-- Gather and scatter. -/
def indexed (o : Indexed) : Fields := [v o.vd, v o.va, v o.sa, v o.pm, ty o.ty, b o.nt, z 10]

/-- Tensor-index accesses. -/
def tensor (o : TensorIx) : Fields := [v o.vd, v o.sa, v o.sb, v o.pm, ty o.ty, b o.nt, z 13]

/-- Reductions. -/
def reduce (o : Reduce) : Fields := [v o.vd, v o.va, v o.vb, v o.pm, ty o.ty, z 3, b o.row, v o.prof]

/-- Atomics. -/
def atomic (a : Atomic) : Fields :=
  [v a.sd, v a.sa, v a.sb, (4, a.op.code), ty a.ty, (3, a.scope.code), v a.ord, z 12]

/-- Three registers, form SS. -/
def ss (d a s : SReg) : Fields := [v d, v a, v s, z 26]

/-- Three registers and a signedness bit. -/
def su (u : Bool) (d a s : SReg) : Fields := [v d, v a, v s, z 5, b u, z 20]

/-- Tag, opcode and operand fields of an instruction; none for an event, which has no encoding. -/
def layout : Instr → Option (Nat × Nat × Fields)
  | .add d a s => some (0, 0x00, ss d a s)
  | .sub d a s => some (0, 0x01, ss d a s)
  | .mul d a s => some (0, 0x02, ss d a s)
  | .mulh u d a s => some (0, 0x03, su u d a s)
  | .div u d a s => some (0, 0x04, su u d a s)
  | .rem u d a s => some (0, 0x05, su u d a s)
  | .and d a s => some (0, 0x06, ss d a s)
  | .or d a s => some (0, 0x07, ss d a s)
  | .xor d a s => some (0, 0x08, ss d a s)
  | .shl d a s => some (0, 0x09, ss d a s)
  | .shr d a s => some (0, 0x0A, ss d a s)
  | .sra d a s => some (0, 0x0B, ss d a s)
  | .min u d a s => some (0, 0x0C, su u d a s)
  | .max u d a s => some (0, 0x0D, su u d a s)
  | .cmp c d a s => some (0, 0x0E, [v d, v a, v s, z 2, (4, c.code), z 20])
  | .sel d a s c => some (0, 0x0F, [v d, v a, v s, v c, z 20])
  | .addi d a m => some (0, 0x10, [v d, v a, v m])
  | .muli d a m => some (0, 0x11, [v d, v a, v m])
  | .andi d a m => some (0, 0x12, [v d, v a, v m])
  | .ori d a m => some (0, 0x13, [v d, v a, v m])
  | .xori d a m => some (0, 0x14, [v d, v a, v m])
  | .shli d a n => some (0, 0x15, [v d, v a, z 26, v n])
  | .shri d a n => some (0, 0x16, [v d, v a, z 26, v n])
  | .srai d a n => some (0, 0x17, [v d, v a, z 26, v n])
  | .cmpi c d a m => some (0, 0x18, [v d, v a, (4, c.code), v m])
  | .li d m => some (0, 0x19, [v d, v m])
  | .lui d m => some (0, 0x1A, [v d, v m])
  | .clz d a => some (0, 0x1B, [v d, v a, z 32])
  | .popc d a => some (0, 0x1C, [v d, v a, z 32])
  | .lea d a s h m => some (0, 0x1D, [v d, v a, v s, v h, v m])
  | .ext sg d a p l => some (0, 0x1E, [v d, v a, v p, v l, b sg, z 19])
  | .ld t d a m => some (0, 0x20, [v d, v a, ty t, v m])
  | .st t c a m => some (0, 0x21, [v c, v a, ty t, v m])
  | .ldacq t s d a m => some (0, 0x22, [v d, v a, ty t, (3, s.code), v m])
  | .strel t s c a m => some (0, 0x23, [v c, v a, ty t, (3, s.code), v m])
  | .amo a => some (0, 0x24, atomic a)
  | .amocas d a s c t sc o => some (0, 0x25, [v d, v a, v s, v c, ty t, (3, sc.code), v o, z 10])
  | .red a => some (0, 0x26, atomic a)
  | .fence k s => some (0, 0x27, [(2, k.code), (3, s.code), z 39])
  | .qalign => some (0, 0x28, [z 44])
  | .pf l a m => some (0, 0x29, [z 6, v a, (2, if l then 1 else 0), z 3, v m])
  | .rsys d n => some (0, 0x30, [v d, z 6, v n, z 20])
  | .wsys n a => some (0, 0x31, [z 6, v a, v n, z 20])
  | .xsys d n a => some (0, 0x32, [v d, v a, v n, z 20])
  | .yield n => some (0, 0x33, [z 36, v n])
  | .tend => some (0, 0x34, [z 44])
  | .renq d a s => some (0, 0x35, ss d a s)
  | .seqw a s => some (0, 0x36, ss 0 a s)
  | .seqget s d a => some (0, 0x37, [v d, v a, z 6, z 3, (3, s.code), z 20])
  | .prio d a => some (0, 0x38, [v d, v a, z 32])
  | .appt d a s c => some (0, 0x39, [v d, v a, v s, v c, z 20])
  | .trap n => some (0, 0x3A, [z 28, v n])
  | .tret => some (0, 0x3B, [(44, 0)])
  | .tretSkip => some (0, 0x3B, [(44, 1)])
  | .tretAbandon => some (0, 0x3B, [(44, 2)])
  | .tack d => some (0, 0x3C, [v d, z 38])
  | .tmask d a => some (0, 0x3D, [v d, v a, z 32])
  | .tsave a => some (0, 0x3E, [z 6, v a, z 32])
  | .cpld d a => some (0, 0x40, [v d, v a, z 32])
  | .cpst d a => some (0, 0x41, [v d, v a, z 32])
  | .cpg d a => some (0, 0x42, [v d, v a, z 32])
  | .cpsc d a => some (0, 0x43, [v d, v a, z 32])
  | .cpmem d a => some (0, 0x44, [v d, v a, z 32])
  | .cpcancel d => some (0, 0x45, [v d, z 38])
  | .barinit a s c => some (0, 0x46, [z 6, v a, v s, v c, z 20])
  | .barexp a s => some (0, 0x47, ss 0 a s)
  | .barar d a s => some (0, 0x48, ss d a s)
  | .bartry d a s => some (0, 0x49, ss d a s)
  | .barwait a s => some (0, 0x4A, ss 0 a s)
  | .waita a s => some (0, 0x4B, ss 0 a s)
  | .rgclaim d a => some (0, 0x4C, [v d, v a, z 32])
  | .rgfill a s => some (0, 0x4D, ss 0 a s)
  | .rgwaitf a s => some (0, 0x4E, ss 0 a s)
  | .rgrel a s => some (0, 0x4F, ss 0 a s)
  | .rgtry d a => some (0, 0x50, [v d, v a, z 32])
  | .mxfmt a s c => some (0, 0x51, [z 6, v a, v s, v c, z 20])
  | .mxcfg n a => some (0, 0x52, [z 6, v a, z 27, v n])
  | .mxcfgl a => some (0, 0x53, [z 6, v a, z 32])
  | .mxcancel d => some (0, 0x54, [v d, z 37, (1, 0)])
  | .mxcancelAll d => some (0, 0x54, [v d, z 37, (1, 1)])
  | .mxprog d => some (0, 0x55, [v d, z 37, (1, 0)])
  | .mxprogQ d => some (0, 0x55, [v d, z 37, (1, 1)])
  | .gset g w a => some (0, 0x56, [v g, v w, v a, z 32])
  | .gget d g w => some (0, 0x57, [v d, v g, v w, z 32])
  | .gskip g a s => some (0, 0x58, [v g, z 3, v a, v s, z 26])
  | .gsave g a => some (0, 0x59, [v g, z 3, v a, z 32])
  | .gload g a => some (0, 0x5A, [v g, z 3, v a, z 32])
  | .gdraw d g => some (0, 0x5B, [v d, v g, z 35])
  | .gkey g a s => some (0, 0x5C, [v g, z 3, v a, v s, z 26])
  | .mdep d a s => some (0, 0x60, ss d a s)
  | .mrd d a s => some (0, 0x61, ss d a s)
  | .mtake d a s => some (0, 0x62, ss d a s)
  | .mtrydep d a s => some (0, 0x63, ss d a s)
  | .mtryrd d a s => some (0, 0x64, ss d a s)
  | .mtrytk d a s => some (0, 0x65, ss d a s)
  | .mwithdraw d a s => some (0, 0x66, ss d a s)
  | .mapld m a => some (0, 0x67, [v m, z 2, v a, z 32])
  | .mapst m a => some (0, 0x68, [v m, z 2, v a, z 32])
  | .mapset m d a => some (0, 0x69, [v m, z 2, v a, v d, z 29])
  | .mapbind a m => some (0, 0x6A, [z 6, v a, v m, (1, 0), z 27])
  | .mapbindU a => some (0, 0x6A, [z 6, v a, z 4, (1, 1), z 27])
  | .rshd d a s c m1 m2 p => some (0, 0x6B, [v d, v a, v s, v c, v m1, v m2, v p, z 8])
  | .rshdq d a s m1 m2 => some (0, 0x6C, [v d, v a, v s, z 6, v m1, v m2, z 12])
  | .clgrp d a s => some (0, 0x70, ss d a s)
  | .clrun d a => some (0, 0x71, [v d, v a, z 32])
  | .clchunk a s => some (0, 0x72, ss 0 a s)
  | .clstatCc d s => some (0, 0x73, [v d, z 6, v s, (6, 0), z 20])
  | .clstatGrp d s => some (0, 0x73, [v d, z 6, v s, (6, 1), z 20])
  | .nmrun d a => some (0, 0x74, [v d, v a, z 32])
  | .nmstat d a => some (0, 0x75, [v d, v a, z 32])
  | .nmstop d a => some (0, 0x76, [v d, v a, z 32])
  | .vld o => some (1, 0x00, strided o)
  | .vldg o => some (1, 0x01, indexed o)
  | .vldx o => some (1, 0x02, tensor o)
  | .vldt o => some (1, 0x03, strided o)
  | .vldb o => some (1, 0x04, strided o)
  | .vldm m a n => some (1, 0x05, [v m, v a, v n])
  | .vlda c a s => some (1, 0x06, [v c, v a, v s, z 28])
  | .vlpf o => some (1, 0x07, strided o)
  | .xtr t d a => some (2, 0x00, [v d, v a, ty t, z 21])
  | .xunpk t d a => some (2, 0x01, [v d, v a, ty t, z 21])
  | .xpk t d a => some (2, 0x02, [v d, v a, ty t, z 21])
  | .xhq t r g d a p q => some (2, 0x03, [v d, v a, v p, v q, ty t, rm r, v g, z 3])
  | .xhdq t r g d a p q => some (2, 0x04, [v d, v a, v p, v q, ty t, rm r, v g, z 3])
  | .xperm d a p => some (2, 0x05, [v d, v a, v p, z 2])
  | .xcat d a s n => some (2, 0x06, [v d, v a, v s, v n, z 9])
  | .mxgo => some (3, 0x00, [(1, 0), z 43])
  | .mxgoResume => some (3, 0x00, [(1, 1), z 43])
  | .mxzero c n => some (3, 0x01, [v c, v n, z 36])
  | .mxsync => some (3, 0x02, [z 44])
  | .vadd o => some (4, 0x00, vv o)
  | .vsub o => some (4, 0x01, vv o)
  | .vmul o => some (4, 0x02, vv o)
  | .vfma o => some (4, 0x03, vv o)
  | .vfms o => some (4, 0x04, vv o)
  | .vmin o => some (4, 0x05, vv o)
  | .vmax o => some (4, 0x06, vv o)
  | .vabs o => some (4, 0x07, vv o)
  | .vneg o => some (4, 0x08, vv o)
  | .vdiv o => some (4, 0x09, vv o)
  | .vsqrt o => some (4, 0x0A, vv o)
  | .vand o => some (4, 0x0B, vv o)
  | .vor o => some (4, 0x0C, vv o)
  | .vxor o => some (4, 0x0D, vv o)
  | .vnot o => some (4, 0x0E, vv o)
  | .vshl o => some (4, 0x0F, vv o)
  | .vshr o => some (4, 0x10, vv o)
  | .vsra o => some (4, 0x11, vv o)
  | .vadds o => some (4, 0x12, vv o)
  | .vsubs o => some (4, 0x13, vv o)
  | .vcvt d a p s m t r g => some (4, 0x14, [v d, v a, v p, z 2, ty s, v m, ty t, rm r, z 2, v g])
  | .vcvtmx o => some (4, 0x15, vv o)
  | .vdqmx o => some (4, 0x16, vv o)
  | .vcmp c h d a s m t => some (4, 0x17, [v d, z 5, v a, v s, v m, ty t, z 3, b h, (4, c.code)])
  | .vsel d a s k m t => some (4, 0x18, [v d, v a, v s, v m, ty t, z 3, z 1, v k])
  | .vmov o => some (4, 0x19, vv o)
  | .vbcast d a m t => some (4, 0x1A, [v d, v a, z 6, v m, ty t, z 14])
  | .vperm o => some (4, 0x1B, vv o)
  | .vslide u n d a m => some (4, 0x1C, [v d, v a, v m, (5, 16), b u, z 8, v n])
  | .viota o => some (4, 0x1D, vi o)
  | .vaddi o => some (4, 0x1E, vi o)
  | .vmuli o => some (4, 0x1F, vi o)
  | .vandi o => some (4, 0x20, vi o)
  | .vori o => some (4, 0x21, vi o)
  | .vshli o => some (4, 0x22, vi o)
  | .vshri o => some (4, 0x23, vi o)
  | .vcmpi c n d a m t => some (4, 0x24, [v d, z 5, v a, v m, ty t, (4, c.code), v n])
  | .vli o => some (4, 0x25, vi o)
  | .vmand d x y m => some (4, 0x26, [v d, z 5, z 5, v x, z 5, v y, v m, z 13])
  | .vmor d x y m => some (4, 0x27, [v d, z 5, z 5, v x, z 5, v y, v m, z 13])
  | .vmxor d x y m => some (4, 0x28, [v d, z 5, z 5, v x, z 5, v y, v m, z 13])
  | .vmnot d x m => some (4, 0x29, [v d, z 5, z 5, v x, z 9, v m, z 13])
  | .vmpop d x m => some (4, 0x2A, [v d, z 5, v x, z 9, v m, (5, 16), z 8])
  | .vmfirst d x m => some (4, 0x2B, [v d, z 5, v x, z 9, v m, (5, 16), z 8])
  | .vredsum o => some (4, 0x2C, reduce o)
  | .vredmax o => some (4, 0x2D, reduce o)
  | .vredmin o => some (4, 0x2E, reduce o)
  | .vdot o => some (4, 0x2F, reduce o)
  | .vexp2 o => some (4, 0x30, vv o)
  | .vlog2 o => some (4, 0x31, vv o)
  | .vrcp o => some (4, 0x32, vv o)
  | .vrsqrt o => some (4, 0x33, vv o)
  | .vsinT o => some (4, 0x34, vv o)
  | .vcosT o => some (4, 0x35, vv o)
  | .vupd t a s => some (4, 0x36, [z 9, v a, v s, z 4, ty t, z 14])
  | .gfill d g a t m => some (4, 0x37, [v d, v g, v a, (1, 0), ty t, v m, z 16])
  | .gfillS d g t m => some (4, 0x37, [v d, v g, z 6, (1, 1), ty t, v m, z 16])
  | .vaccr d a p m => some (4, 0x38, [v d, v a, v p, v m, z 23])
  | .vaccw a s p m => some (4, 0x39, [v a, z 5, v s, v p, v m, z 18])
  | .vst o => some (5, 0x00, strided o)
  | .vsc o => some (5, 0x01, indexed o)
  | .vsx o => some (5, 0x02, tensor o)
  | .vsdrain c a s k t r g n cc nt id =>
    some (5, 0x03, [v c, v a, v s, v k, ty t, rm r, v g, v n, b cc, b nt, v id])
  | .vsm m a n => some (5, 0x04, [v m, v a, v n])
  | .vsa c a s nt => some (5, 0x05, [v c, v a, v s, b nt, z 27])
  | .br c a s o => some (6, 0x00, [(4, c.code), z 2, v a, v s, v o])
  | .jmp d o => some (6, 0x01, [v d, v o])
  | .jmpr d a => some (6, 0x02, [v d, v a, z 32])
  | .lpset l s a m => some (6, 0x03, [v l, b s, z 3, v a, v m])
  | .lpend l o => some (6, 0x04, [v l, z 4, v o])
  | .idem o => some (6, 0x05, [z 6, v o])
  | .modeTimed => some (6, 0x06, [(44, 1)])
  | .modeInter => some (6, 0x06, [(44, 0)])
  | .start => some (6, 0x07, [z 44])
  | .nop => some (6, 0x08, [z 44])
  | _ => none

end Enc

/-- The word of an instruction with its SYNC field (R65); an unassigned encoding is its own word, and an event has none. -/
def encode (sync : BitVec 10) (i : Instr) : Option Word :=
  match i with
  | .unassignedEncoding w => some w
  | i => (Enc.layout i).map fun (tag, op, fs) => BitVec.ofNat 64 (glue ((3, tag) :: Enc.v sync :: (7, op) :: fs))

end Sys2Proof
end

