-- ==== Sys2Proof/Machine/Sequence.lean ====
section
/-! DEFINITION. How an engine comes to a word: fetching, passing the words of other engines, the slip bound, tokens, the timed
schedule and the checks that stand before every instruction (R66, R67, R77, R81 to R93, R286). -/

namespace Sys2Proof.Machine

/-- What an engine does next: it is finished with its move, or it runs an instruction from a state. -/
inductive Plan where
  | over (r : Res)
  | run (i : Instr) (s : State)

/-- The operands of a word of form VV. -/
def vvOf : Instr → Option VV
  | .vadd o | .vsub o | .vmul o | .vfma o | .vfms o | .vdiv o | .vsqrt o | .vcvtmx o | .vdqmx o => some o
  | _ => none

/-- The shadow table as it stands once the writes in flight that are due by a cycle have landed (R85, R232). -/
def Core.tableAt (k : Core) (due : Nat) : List Word :=
  (List.range 32).map fun n =>
    match ((sortPend (k.pend.filter fun p => decide (p.dst = .shadow n ∧ p.due ≤ due))).getLast?) with
    | some p => BitVec.ofNat 64 p.val
    | none => Bank.get 0 k.shadow n

/-- Format word j of the queue, those in flight behind those that are there (R231). -/
def Core.fmtAt (k : Core) (j : Nat) : Option FmtWord :=
  (k.fmtq ++ (sortPend (k.pend.filter fun p => decide (p.dst = .fmtq))).map fun p =>
    (⟨BitVec.ofNat 64 p.val, BitVec.ofNat 64 (p.val >>> 64), BitVec.ofNat 64 (p.val >>> 128)⟩ : FmtWord))[j]?

/-- The generator registers that a nest of a table and a format word takes (R229, R251). -/
def nestGens (table : List Word) (fw : FmtWord) : List Nat :=
  let l := Loop.of table fw
  (([0, 1].filter fun i => decide (l.kind i = 2)).map fun i => l.genNo i) ++ (if l.rm = .sr then [l.drainGen] else [])

/-- The generator registers that a word reads or writes; those of vupd as its descriptor now stands, and those of an mxgo that issues by a cycle,
with format word j (R251). -/
def gensOf (s : State) (c : Nat) (j due : Nat) (i : Instr) : List Nat :=
  let sr (rm : RMode) (g : GenNo) : List Nat := if rm = .sr then [g.toNat] else []
  match i with
  | .gset g _ _ | .gget _ g _ | .gskip g _ _ | .gsave g _ | .gload g _ | .gdraw _ g | .gkey g _ _ => [g.toNat]
  | .gfill _ g _ _ _ | .gfillS _ g _ _ => [g.toNat]
  | .vcvt _ _ _ _ _ _ rm g | .xhq _ rm g _ _ _ _ | .xhdq _ rm g _ _ _ _ => sr rm g
  | .vsdrain _ _ _ _ _ rm g _ _ _ _ => sr rm g
  | .mxgo => match (s.core c).fmtAt j with | some fw => nestGens ((s.core c).tableAt due) fw | none => []
  | .vupd _ sa _ =>
    match readMem s c ((Bank.get 0 (s.core c).regs.s sa.toNat).toNat + 69) 1 with
    | ([b], _) => if b.toNat % 8 = 4 then [b.toNat / 8 % 8] else []
    | _ => []
  | i => match vvOf i with | some o => sr o.rm o.g | none => []

/-- The next n words of an engine's path from a word that it has not passed, each with how many of the n are left behind it. The path
follows the engine's control entries and its loop registers, as far as they reach. -/
def pathWords (s : State) (c : Nat) : Nat → Word → Bank Word → List CtlEntry → List (Nat × Word × Instr)
  | 0, _, _, _ => []
  | n + 1, pc, lc, ctl =>
    match fetchBytes s c pc.toNat with
    | .error _ => []
    | .ok bs =>
      let w : Word := BitVec.ofNat 64 (ofBytes bs)
      match decodeWord w with
      | .error _ => pathWords s c n (pc + 8) lc ctl
      | .ok (_, i) =>
        (n, w, i) ::
          match i, ctl with
          | .br _ _ _ off, x :: r => pathWords s c n (if x.val = 1 then pc + sx off * 8 else pc + 8) lc r
          | .jmpr _ _, x :: r => pathWords s c n x.val lc r
          | .lpset j _ _ _, x :: r => pathWords s c n (pc + 8) (Bank.set 0 lc j.toNat x.val) r
          | .br _ _ _ _, [] | .jmpr _ _, [] | .lpset _ _ _ _, [] => []
          | .jmp _ off, ctl => pathWords s c n (pc + sx off * 8) lc ctl
          | .lpend j off, ctl =>
            let v := Bank.get 0 lc j.toNat
            if 1 < v.toNat then pathWords s c n (pc + sx off * 8) (Bank.set 0 lc j.toNat (v - 1)) ctl
            else pathWords s c n (pc + 8) (Bank.set 0 lc j.toNat 0) ctl
          | _, ctl => pathWords s c n (pc + 8) lc ctl

/-- The words of an engine itself that it has still to issue before a walk count. -/
def ownPath (s : State) (c : Nat) (f : Eng) (walk : Nat) : List (Nat × Word × Instr) :=
  let x := (s.core c).en f
  (pathWords s c (walk - x.walk) x.pc x.lc x.ctl).filter fun y => decide (slice y.2.1 63 61 = f.tag)

/-- The scalar registers that a word of plain sequencer arithmetic or control flow reads or writes; none for any other word. -/
def scalarsOf : Instr → Option (List SReg)
  | .add d a b | .sub d a b | .mul d a b | .mulh _ d a b | .div _ d a b | .rem _ d a b => some [d, a, b]
  | .and d a b | .or d a b | .xor d a b | .shl d a b | .shr d a b | .sra d a b | .min _ d a b | .max _ d a b => some [d, a, b]
  | .cmp _ d a b | .lea d a b _ _ => some [d, a, b]
  | .sel d a b c => some [d, a, b, c]
  | .addi d a _ | .muli d a _ | .andi d a _ | .ori d a _ | .xori d a _ | .cmpi _ d a _ => some [d, a]
  | .shli d a _ | .shri d a _ | .srai d a _ | .clz d a | .popc d a | .ext _ d a _ _ => some [d, a]
  | .li d _ | .lui d _ => some [d]
  | .br _ a b _ => some [a, b]
  | .jmp d _ => some [d]
  | .jmpr d a => some [d, a]
  | .lpset _ _ a _ => some [a]
  | .lpend _ _ | .nop => some []
  | _ => none

/-- A word of the sequencer may change a scalar register or memory. -/
def mayChange (r : SReg) : Instr → Bool
  | .br _ _ _ _ | .lpset _ _ _ _ | .pf _ _ _ => false
  | .ld _ d _ _ | .ldacq _ _ d _ _ => decide (d = r)
  | i => match scalarsOf i with | some l => decide (l.head? = some r) | none => true

/-- The generator registers of a word before a walk count that an engine has still to issue, with j mxgo words before it; first says that it
is the engine's next. All eight stand for those that are not known yet: where the sequencer has still to write the table or the format word of
an mxgo, or something before a vupd may change its descriptor (R251). -/
def pendingGens (s : State) (c : Nat) (walk j : Nat) (first : Bool) (sync : Nat) (i : Instr) : List Nat :=
  let k := s.core c
  let sq := (ownPath s c .sq walk).map fun y => y.2.2
  match i with
  | .mxgo =>
    let fmt (i : Instr) : Bool := match i with | .mxfmt _ _ _ => true | _ => false
    let table (i : Instr) : Bool := match i with | .mxcfg _ _ | .mxcfgl _ => true | _ => false
    if sq.any table || ((k.fmtAt j).isNone && sq.any fmt) then List.range 8
    else
      let last := k.pend.foldl (fun m p => max m p.due) 0
      if first then gensOf s c j ((k.en .mx).last + 1 + sync) i else gensOf s c j k.cyc i ++ gensOf s c j last i
  | .vupd _ sa _ =>
    let flying (p : Pend) : Bool := match p.dst with | .spad _ | .bank _ _ _ => true | d => decide (d = .s sa.toNat)
    if sq.any (mayChange sa) || !(ownPath s c .st walk).isEmpty || k.pend.any flying || !k.late.isEmpty then List.range 8 else gensOf s c 0 0 i
  | i => gensOf s c 0 0 i

/-- In deterministic mode a generator access waits for every access to the register at an earlier word of the path (R251): the access
is of engine e, at the word whose walk count is at. -/
def genWaits (s : State) (c : Nat) (e : Eng) (at_ : Nat) (i : Instr) : Bool :=
  let k := s.core c
  let gs := if k.sys.det then gensOf s c 0 ((k.en e).last + 1) i else []
  !gs.isEmpty && Eng.all.any fun f =>
    let own := ownPath s c f at_
    decide (f ≠ e) && own.zipIdx.any fun y =>
      let j := ((own.take y.2).filter fun z => decide (z.2.2 = .mxgo)).length
      (pendingGens s c (at_ - y.1.1 - 1) j (decide (y.2 = 0)) (slice y.1.2.1 60 51) y.1.2.2).any gs.contains

/-- Numbered commands (R267). -/
def numbered : Instr → Bool
  | .cpld _ _ | .cpst _ _ | .cpg _ _ | .cpsc _ _ | .cpmem _ _ => true
  | .mdep _ _ _ | .mrd _ _ _ | .mtake _ _ _ | .mtrydep _ _ _ | .mtryrd _ _ _ | .mtrytk _ _ _ | .mwithdraw _ _ _ => true
  | .rshd _ _ _ _ _ _ _ | .clrun _ _ | .nmrun _ _ => true
  | _ => false

/-- Words that all six engines execute in one cycle, or that no engine passes alone (R79, R84, R121, R128). -/
def meets : Instr → Bool
  | .start | .modeTimed | .modeInter | .idem _ | .tend => true
  | _ => false

/-- Words that a handler may not execute although their tag is 0 (R286): waiting instructions, numbered commands, renq, trap
and tend. -/
def barredInHandler : Instr → Bool
  | .yield _ | .renq _ _ _ | .trap _ | .tend | .barwait _ _ | .waita _ _ | .rgclaim _ _ | .rgwaitf _ _ => true
  | i => numbered i

/-- Tag-6 words that a handler may execute (R286). -/
def handlerFlow : Instr → Bool
  | .br _ _ _ _ | .jmp _ _ | .jmpr _ _ | .nop => true
  | _ => false

/-- The formats that a word names (R30, R37). -/
def formatsOf : Instr → List Fmt
  | .vld o | .vldt o | .vldb o | .vlpf o | .vst o => [o.ty]
  | .vldg o | .vsc o => [o.ty]
  | .vldx o | .vsx o => [o.ty]
  | .xtr ty _ _ | .xunpk ty _ _ | .xpk ty _ _ | .xhq ty _ _ _ _ _ _ | .xhdq ty _ _ _ _ _ _ => [ty]
  | .vcvt _ _ _ src _ ty _ _ => [src, ty]
  | .vcvtmx o | .vdqmx o | .vmov o => [o.ty]
  | .vsel _ _ _ _ _ ty | .vbcast _ _ _ ty => [ty]
  | .vsdrain _ _ _ _ ty _ _ _ _ _ _ => [ty]
  | _ => []

/-- The word at an address, as a fetch sees it (R66, R119). -/
def fetchWord (s : State) (c : Nat) (pc : Word) : Except Code Word :=
  match fetchBytes s c pc.toNat with
  | .ok bs => .ok (BitVec.ofNat 64 (ofBytes bs))
  | .error x => .error x

/-- The tag of a word (R65). -/
def tagOf (w : Word) : Nat := slice w 63 61

/-- The next word that an engine executes: its idle count, its instruction and the words that it passes before; none where that word
waits for all six engines (R84). -/
def nextOwn (s : State) (c e : Nat) : Nat → Nat → Word → Option (Nat × Instr × Nat)
  | 0, n, _ => some (0, .nop, n)
  | f + 1, n, pc =>
    match fetchWord s c pc with
    | .error _ => some (0, .nop, n)
    | .ok w =>
      match decodeWord w with
      | .error (.reservedField t) => if t = 6 ∨ t = e then some (0, .nop, n) else nextOwn s c e f (n + 1) (pc + 8)
      | .ok (sync, i) =>
        match i with
        | .unassignedEncoding _ => some (0, .nop, n)
        | _ =>
          if tagOf w = 6 ∨ tagOf w = e ∨ i = .tend then (if meets i then none else some (sync, i, n))
          else nextOwn s c e f (n + 1) (pc + 8)

/-- The unfrozen cycle in which an engine issues a word with an idle count: the one in which it is due (R84); for a numbered command the first in
which the earlier scratchpad stores of the sequencer have landed (R143); in deterministic mode the first in which every earlier write of its
generator registers has landed (R251). -/
def issueCycle (s : State) (c : Nat) (e : Eng) (sync : Nat) (i : Instr) : Nat :=
  let k := s.core c
  let next := (k.en e).last + 1 + sync
  let due := if numbered i then max next k.spadDue else next
  let gs := if k.sys.det then gensOf s c 0 due i else []
  if gs.isEmpty then due
  else k.pend.foldl (fun m p => match p.dst with | .gen n _ => if gs.contains n then max m p.due else m | _ => m) (max due k.cyc)

/-- The unfrozen cycle in which an engine is due to issue its next word (R84); none where that word waits. -/
def dueOf (s : State) (c : Nat) (e : Eng) : Option Nat :=
  let x := (s.core c).en e
  match nextOwn s c e.tag 4097 0 x.pc with
  | none => none
  | some (sync, i, n) => if genWaits s c e (x.walk + n) i then none else some (issueCycle s c e sync i)

/-- No other engine is due before this one; of those due in one cycle the lowest tag goes first (R77, R84). DESIGN CHOICE (log 16): a word
of a higher tag that is held does not hold those of lower tags in its cycle. -/
def isFirst (s : State) (c : Nat) (e : Eng) (due : Nat) : Bool :=
  Eng.all.all fun f => decide (f = e) ||
    match dueOf s c f with
    | none => true
    | some d => decide (due < d) || (decide (due = d) && decide (e.tag < f.tag))

/-- The smallest walk count (R92). -/
def Core.minWalk (k : Core) : Nat := (Eng.all.map fun e => (k.en e).walk).foldl min (k.en .sq).walk

/-- The slip bound in a cycle of timed mode: in the cycle of a write an engine that the old bound holds goes on after a frozen cycle, under the
new one (R87, R93). -/
def Core.slipAt (k : Core) (cycle : Nat) : Nat :=
  match k.slipWas with
  | some (c, b) => if k.sys.timed && decide (cycle ≤ c) then max b.toNat k.sys.slip.toNat else k.sys.slip.toNat
  | none => k.sys.slip.toNat

/-- May an engine pass its next word under the slip bound, in a cycle (R92)? -/
def Core.slipOk (k : Core) (e : Eng) (cycle : Nat) : Bool := decide ((k.en e).walk + 1 - k.minWalk ≤ k.slipAt cycle)

/-- May an engine of the core under the cursor pass a word of another engine? In timed mode it passes it by the cycle in which it is due
itself (R92, R93). -/
def State.passOk (s : State) (e : Eng) : Bool :=
  let k := s.here
  k.slipOk e (if k.slipWas.isSome && k.sys.timed then (dueOf s s.cur.core e).getD (k.cyc + 1) else k.cyc + 1)

/-- An engine passes a word of another engine: no cycle, no effect (R67, R92). -/
def Core.pass (k : Core) (e : Eng) : Core :=
  k.onEn e fun x => { x with pc := x.pc + 8, walk := x.walk + 1, src := 0 }

/-- An engine starts a word: it takes its tokens and the word's SYNC and latency stand ready (R82, R84). -/
def Core.begin (k : Core) (e : Eng) (i : Instr) (sync : Nat) : Core :=
  let k := k.onEn e fun x => { x with issued := x.issued + 1, clk0 := x.clk, joined0 := x.joined, popped := [], push := 0,
                                      lat := latency i }
  if k.sys.timed || decide (k.phase = .handler) then k
  else ((popQueues e.tag (sync / 32)).foldl (Core.popOne e) k).onEn e fun x => { x with push := BitVec.ofNat 5 sync }

/-- The scalar registers of a word beside which accesses that the sequencer's queues hold may stay there: arithmetic and control flow, loads and
stores, prefetches, acquiring loads and acquiring fences; none for a word that stands after every older access (R141, R144, R147, R155,
R156). -/
def passesQueues : Instr → Option (List SReg)
  | .ld _ d a _ | .st _ d a _ | .ldacq _ _ d a _ => some [d, a]
  | .pf _ a _ => some [a]
  | .fence .acq _ => some []
  | i => scalarsOf i

/-- An access that the sequencer's queues hold stands before a word: every one where the word pushes a token or orders what comes after it,
else a load of a register that the word reads or writes (R83, R141). -/
def standsBefore (i : Instr) (sync : Nat) (l : Late) : Bool :=
  match passesQueues i with
  | none => true
  | some rs => decide (sync % 32 ≠ 0) || match l.load with | some (_, d) => decide (d ≠ 0) && (rs.map BitVec.toNat).contains d | none => false

/-- The checks that a handler puts before a word (R286). -/
def handlerBars (k : Core) (i : Instr) (tag sync : Nat) : Bool :=
  decide (k.phase = .handler) &&
    (decide (sync ≠ 0) || barredInHandler i || (if tag = 6 then !handlerFlow i else decide (tag ≠ 0)))

/-- The word names a format outside the service level (R30, R77). -/
def State.formatBarred (s : State) (i : Instr) : Bool := decide (s.level = .reduced) && (formatsOf i).any Fmt.isFullOnly

/-- A word that engine e issues in a cycle of timed mode: no engine is due before it, what the cycle lands has landed, and the nest that
comes first has started or finished (R84, R85, R243). -/
def startTimed (s : State) (e : Eng) (i : Instr) (tag6 : Bool) (sync : Nat) : Plan :=
  let c := s.cur.core
  let due := issueCycle s c e sync i
  let s' := s.catchUp c due
  if genWaits s c e (s.en e).walk i || !isFirst s c e due || !s.here.slipOk e due then .over (.next s)
  else if s'.here.nestFirst due then .over (.next s')
  else
    let s' := s'.upd fun k => { k with cyc := due }
    if s.formatBarred i then .over (s'.trap e .illegal 0 tag6) else .run i (s'.upd fun k => k.begin e i sync)

/-- The move of engine e of the core under the cursor at a word that is its own or of tag 6. -/
def startWord (s : State) (e : Eng) (i : Instr) (tag sync : Nat) : Plan :=
  let c := s.cur.core
  let k := s.here
  let tag6 := decide (tag = 6)
  let slips := k.phase = .running && !k.slipOk e (k.cyc + 1)
  if decide (e = .sq) && k.late.any (standsBefore i sync) then .over (.next (s.performQueue c (standsBefore i sync)))
  else if handlerBars k i tag sync then .over (s.trap e .illegal 0 tag6)
  else if k.sys.timed then
    if meets i then (if slips then .over (.next s) else .run i (s.upd fun k => k.begin e i sync)) else startTimed s e i tag6 sync
  else if tag6 && decide (sync ≠ 0) then .over (s.trap e .illegal 0 tag6)
  else if slips then .over (.next s)
  else if s.formatBarred i then .over (s.trap e .illegal 0 tag6)
  else if k.phase = .running && genWaits s c e (k.en e).walk i then .over (.next s)
  else if k.phase = .handler || k.canPop e.tag (sync / 32) then .run i (s.upd fun k => k.begin e i sync)
  else .over (.next s)

/-- A word that is no instruction is reached in the cycle in which its engine is due, in timed mode after every engine that is due earlier and
every engine of lower tag that is due then (R77, R84). -/
def reach (s : State) (e : Eng) (p : State → Plan) : Plan :=
  let k := s.here
  let due := (k.en e).last + 1
  if !k.sys.timed then p s
  else if !isFirst s s.cur.core e due then .over (.next s)
  else
    let s' := s.catchUp s.cur.core due
    if s'.here.nestFirst due then .over (.next s') else p (s'.upd fun k => { k with cyc := due })

/-- The move of engine e of the core under the cursor. -/
def plan (s : State) (e : Eng) : Plan :=
  let c := s.cur.core
  let k := s.here
  let x := k.en e
  if decide (160 ≤ c) || !k.runs || (decide (k.phase = .handler) && decide (e ≠ .sq)) then .over (.next s)
  else if k.eventHeld then .over (.next s)
  else if k.trapHeld.isSome then .over (match k.trapHeld with | some t => s.heldTrap t | none => .next s)
  else if x.wait = some .ended then .run .tend s
  else if x.wait.isSome || (k.sys.timed && Eng.all.any fun f => (k.en f).wait.isSome) then .over (.next s)
  else if !x.owedCtl.isEmpty then .over (.next (s.upd fun k => k.pushCtl))
  else if x.owed ≠ 0 then .over (.next (s.upd fun k => k.pushOwed e))
  else if k.nestPushReady then .over (.next (s.upd fun k => k.pushNests))
  else
    match fetchWord s c x.pc with
    | .error code => reach s e fun s => .over (s.trap e code)
    | .ok w =>
      let s := s.fetched c x.pc.toNat
      let tag := tagOf w
      match decodeWord w with
      | .error (.reservedField t) =>
        if t = 6 ∨ t = e.tag ∨ k.phase = .handler then reach s e fun s => .over (s.trap e .illegal 0 (decide (t = 6)))
        else if s.passOk e then .over (.next (s.upd fun k => k.pass e)) else .over (.next s)
      | .ok (sync, i) =>
        match i with
        | .unassignedEncoding w => reach s e fun s => .run (.unassignedEncoding w) s
        | i =>
          if tag = 6 ∨ tag = e.tag ∨ k.phase = .handler then startWord s e i tag sync
          else if i = .tend then .over (.next s)
          else if s.passOk e then .over (.next (s.upd fun k => k.pass e)) else .over (.next s)

end Sys2Proof.Machine
end

