-- ==== Sys2Proof/Machine/Matrix.lean ====
section
/-! DEFINITION. The matrix engine: format words, the shadow table, nests, their steps, drains, tokens and faults (R219 to R243). -/

namespace Sys2Proof.Machine

/-! Format words and the shadow table -/

/-- A matrix operand format (R64). -/
def isMatrixFmt (c : Nat) : Bool := [1, 2, 3, 5, 6, 7, 8, 9].contains c

/-- Word 0 of a format word obeys R230; at reduced service it names BF16 operands and an FP32 or BF16 output (R30, R37). -/
def formatWordOk (w0 : Word) (reduced : Bool) : Bool :=
  let rm := slice w0 22 20
  decide (slice w0 63 27 = 0) && decide (rm ≤ 4) && (decide (rm = 4) || decide (slice w0 25 23 = 0)) &&
    ([0, 1, 2, 3, 5, 6, 7, 8, 9].contains (slice w0 19 15)) && decide (slice w0 14 10 = 0) &&
    (if reduced then decide (slice w0 4 0 = 1 ∧ slice w0 9 5 = 1 ∧ slice w0 19 15 ≤ 1)
      else isMatrixFmt (slice w0 4 0) && isMatrixFmt (slice w0 9 5))

/-- Format words of the queue, with those that timed words are still to bring into it (R231). -/
def Core.fmtCount (k : Core) : Nat := k.fmtq.length + (k.pend.filter fun p => decide (p.dst = .fmtq)).length

/-- Pushes a format word (R231). -/
def execMxfmt (sa sb sc : SReg) (s : State) : Res :=
  let f : FmtWord := ⟨s.rdS .sq sa, s.rdS .sq sb, s.rdS .sq sc⟩
  if !formatWordOk f.w0 (decide (s.level = .reduced)) || decide (2 ^ 57 ≤ f.w1.toNat) || decide (2 ^ 57 ≤ f.w2.toNat) then
    s.trap .sq .illegal
  else if 16 ≤ s.here.fmtCount then (if s.here.sys.timed then s.trap .sq .fmtqFull else s.stall .sq)
  else
    let x := f.w0.toNat + f.w1.toNat * 2 ^ 64 + f.w2.toNat * 2 ^ 128
    (s.upd fun k => if k.sys.timed then { k with pend := k.pend ++ [⟨k.cyc + (k.en .sq).lat, .fmtq, 0, x⟩] }
      else { k with fmtq := k.fmtq ++ [f] }).done .sq

/-- Shadow word n = sa (R232). -/
def execMxcfg (n : BitVec 5) (sa : SReg) (s : State) : Res :=
  (s.wr .sq (.shadow n.toNat) (ones 64) (s.rdS .sq sa).toNat).done .sq

/-- Shadow = the 256 bytes at sa (R232). -/
def execMxcfgl (sa : SReg) (s : State) : Res :=
  let va := (s.rdS .sq sa).toNat
  orTrap s .sq (s.blockCheck va 256 64 .read) fun _ =>
    let (bs, s) := s.load va 256
    ((List.range 32).foldl (fun (s : State) n => s.wr .sq (.shadow n) (ones 64) (fieldAt bs (8 * n) 8)) s).done .sq

/-! Checks at mxgo -/

/-- The lowest and highest value of XBASE plus strides over the levels from L up (R223). -/
def Loop.extent (l : Loop) (i L : Nat) : Int × Int :=
  let t := (Loop.levels.filter fun j => decide (L ≤ j)).map fun j => ((l.trip j : Int) - 1) * l.strd j i
  ((l.base i : Int) + (t.map fun x => min 0 x).sum, (l.base i : Int) + (t.map fun x => max 0 x).sum)

/-- The level from which an operand's address counts: all for A, RELOAD for B, DRAIN for the output. -/
def Loop.fromOf (l : Loop) (i : Nat) : Nat := if i = 0 then 0 else if i = 1 then l.lowReload else l.lowDrain

/-- Rows and elements of a row that an operand has at one place. -/
def Loop.shape (l : Loop) (i : Nat) : Nat × Nat :=
  if i = 0 then (l.mv, l.cn) else if i = 1 then (l.nv, l.kv) else (32 * (l.accN - 1) + l.mv, l.oc)

/-- Bytes of n elements of a format in memory, without scales. -/
def Loop.rowBytes (f : Fmt) (n : Nat) : Nat := (n * f.bits + 7) / 8

/-- The byte ranges [from, to) that an operand can touch (R226, R227, R236). -/
def Loop.spans (l : Loop) (i : Nat) : List (Int × Int) :=
  let e := l.extent i (l.fromOf i)
  let (rows, n) := l.shape i
  let f := l.fmt i
  let tail : Nat := (rows - 1) * l.rs i + Loop.rowBytes f n + (if i = 2 ∧ f.isMx then n / 32 else 0)
  if i = 2 then (if l.lowDrain = 6 then [] else [(e.1, e.2 + tail)])
  else if l.kind i ≠ 0 then []
  else
    let bb : Int := Loop.blockBytes f
    let sc : Int := l.scaleBase i
    let b : Int := l.base i
    (e.1, e.2 + tail) :: (if f.isMx then [(sc + (e.1 - b) / bb, sc + (e.2 + tail - b) / bb)] else [])

/-- The registers of a register source stay in v0 to v383 (R228). -/
def Loop.registersOk (l : Loop) (i : Nat) : Bool :=
  let e := l.extent i (l.fromOf i)
  let rows := (l.shape i).1
  let n : Nat := if (l.fmt i).isMx then (rows + 1) / 2 else ceilDiv (rows * (l.fmt i).bits * 16) 1024
  decide (0 ≤ e.1) && decide (e.2 + n ≤ 384)

/-- The ILLEGAL conditions of the shadow and the oldest format word (R221, R222, R226, R228 to R230, R233). -/
def Loop.illegal (l : Loop) (g : Nat → Gen) : Bool :=
  let f (off n : Nat) : Nat := fieldAt l.b off n
  let two : List Nat := [0, 1]
  let inWin (a : Nat) : Bool := decide (taskWindow ≤ a ∧ a < taskWindow + windowSize ∨ clusterWindow ≤ a ∧ a < clusterWindow + windowSize)
  (two.any fun i => decide (64 ≤ l.src i) || decide (l.kind i = 3) || (decide (l.kind i ≠ 2) && decide (4 ≤ l.src i))) ||
    decide (64 ≤ f 2 1) || decide (16 < l.accBase + l.accN) || decide (l.mv = 0 ∨ 32 < l.mv) || decide (l.kv = 0 ∨ 128 < l.kv) ||
    decide (l.nv = 0 ∨ 128 < l.nv) || decide (64 ≤ f 7 1) || (!l.ccen && decide (l.ccid ≠ 0)) || decide (32 ≤ f 8 1) ||
    decide (32 ≤ f 9 1) || decide (f 10 6 ≠ 0) || decide (f 52 12 ≠ 0) ||
    (two.any fun i => decide (l.kind i ≠ 0) && decide (l.rs i ≠ 0)) ||
    (two.any fun i => decide (l.kind i = 1) && decide (512 ≤ l.base i)) ||
    (two.any fun i => decide (l.scaleBase i ≠ 0) && !(decide (l.kind i = 0) && (l.fmt i).isMx)) ||
    (Loop.levels.any fun L => decide (l.trip L = 0) || decide (8 ≤ l.lev L 4 1) || decide (16 ≤ l.lev L 5 1) || decide (l.lev L 6 2 ≠ 0)) ||
    decide (2 ^ 40 < l.total) ||
    (two.any fun i => decide (l.kind i = 1) && !l.registersOk i) ||
    (two.any fun i => decide (l.kind i = 2) && (decide (l.fmt i ≠ .bf16) || !(g (l.genNo i)).operand)) ||
    (decide (l.rm = .sr) && !(g l.drainGen).valid) ||
    ((l.fmt 2).isMx && decide (l.oc % 32 ≠ 0)) || (l.ccen && inWin (l.base 2)) ||
    ((l.fmt 1).isMx && decide (l.kv % 32 ≠ 0)) || ((l.fmt 0).isMx && decide (l.cn % 32 ≠ 0))

/-- The profile is published and its conditions hold (R57, R61, R225). -/
def Loop.profileOk (l : Loop) : Bool :=
  decide (1 ≤ l.prof) && decide (l.prof ≤ 4) &&
    (decide (l.prof ≠ 4) || (!l.reverse && (l.fmt 0).isMx && (l.fmt 1).isMx && decide (l.kv % 32 = 0)))

/-- The bases and strides of address operands are aligned (R226). -/
def Loop.aligned (l : Loop) : Bool :=
  [0, 1, 2].all fun i =>
    let m : Nat := if (l.fmt i).isMx then Nat.lcm 64 (Loop.blockBytes (l.fmt i)) else 64
    (decide (i < 2) && decide (l.kind i ≠ 0)) ||
      (decide (l.base i % m = 0) && decide (l.rs i % m = 0) && Loop.levels.all fun L => decide (l.strd L i % (m : Int) = 0))

/-- The checks of mxgo in their order (R233). -/
def Loop.check (l : Loop) (g : Nat → Gen) (timed reduced : Bool) (window : Nat) : Option Code :=
  let spans := [0, 1, 2].flatMap l.spans
  if l.illegal g || !formatWordOk l.fw.w0 reduced then some .illegal
  else if !l.profileOk then some .profile
  else if !l.aligned then some .misalign
  else if timed && (decide (l.cpush ≠ 0) || decide (l.fpush ≠ 0) || l.ccen) then some .illegal
  else if timed && spans.any (fun p => decide (p.1 < (taskWindow : Int)) || decide (((taskWindow + windowSize : Nat) : Int) < p.2)) then
    some .timedGlobal
  else if timed && spans.any (fun p => decide (((taskWindow + window : Nat) : Int) < p.2)) then some .translation
  else none

/-! Overlap at issue (R272) -/

/-- The smallest range that covers ranges. -/
def hull (l : List (Nat × Nat)) : Option (Nat × Nat) :=
  match l with
  | [] => none
  | x :: r => some (r.foldl (fun a b => (min a.1 b.1, max a.2 b.2)) x)

/-- The command numbers that precede a set of predecessors, through chains. -/
def Core.chain (k : Core) : Nat → List (BitVec 32) → List (BitVec 32)
  | 0, l => l
  | f + 1, l => k.chain f ((l ++ (k.marks.filter fun m => match m.seq with | some q => l.contains q | none => false).flatMap
      fun m => m.preds).dedup)

/-- At the issue of a command or nest by engine e: an unjoined command or nest conflicts with it and is not ordered before it (R272). -/
def State.issueConflict (s : State) (e : Eng) (rd wr : Option (Nat × Nat)) (preds : List (BitVec 32)) : Bool :=
  let k := s.here
  let before := k.chain k.marks.length preds
  let meet (a b : Option (Nat × Nat)) : Bool := match a, b with | some x, some y => rangesMeet x y | _, _ => false
  k.sys.det && k.marks.any fun m =>
    !((s.en e).joined.contains (m.id + 1)) &&
      !(match m.seq with | some q => before.contains q | none => false) &&
      (meet wr m.wr || meet rd m.wr || (meet wr m.rd && !((s.en e).joined.contains m.id)))

/-! Accepting a nest -/

/-- The nest that the shadow and the oldest format word describe (R233, R251). -/
def State.newNest (s : State) (table : List Word) (fw : FmtWord) : Nest :=
  let l := Loop.of table fw
  let k := s.here
  let x := k.en .mx
  let snap (on : Bool) (g : Nat) : Gen := if on then s.rdG .mx g else Gen.zero
  { table := table, fw := fw, id := 2 * s.nextId, nseq := k.nestCount
    ga := snap (decide (l.kind 0 = 2)) (l.genNo 0), gb := snap (decide (l.kind 1 = 2)) (l.genNo 1)
    gd := snap (decide (l.rm = .sr)) l.drainGen
    started := false, step := 0, row := 0, rl := false, dr := none, fresh := 0, dord := 0, flags := 0, consumed := 0, finished := 0, ahead := []
    timed := k.sys.timed, issue := k.cyc + 4, ends := none, complete := false, work := [], after := []
    clk := (x.token Eng.mx.tag).clk, joined := x.joined }

/-- Queues the nest that the shadow and the oldest format word describe (R233). -/
def execMxgo (s : State) : Res :=
  let k := s.here
  if 4 ≤ k.nests.length then (s.upd fun k => k.unpop .mx).await .mx (.nestRoom false)
  else
    match k.fmtq with
    | [] => s.trap .mx .fmtqEmpty
    | fw :: rest =>
      let table := (List.range 32).map fun n => BitVec.ofNat 64 (k.readReg s.free .mx (.shadow n))
      let l := Loop.of table fw
      match l.check (fun g => s.rdG .mx g) k.sys.timed (decide (s.level = .reduced)) (k.tcb.pages * 65536) with
      | some c => s.trap .mx c
      | none =>
        let part (is : List Nat) := hull ((is.flatMap l.spans).flatMap (spadPart s.cur.core k))
        let rd := part [0, 1]
        let wr := part [2]
        if s.issueConflict .mx rd wr [] then s.trap .mx .overlap
        else
          let n := s.newNest table fw
          let mark : List Mark := if k.sys.det then [⟨n.id, none, rd, wr, none, []⟩] else []
          let s : State := { s with nextId := s.nextId + 1 }
          (s.upd fun k => { k with fmtq := rest, nests := k.nests ++ [n], nestCount := k.nestCount + 1
                                   marks := k.marks ++ mark }).done .mx

/-- An mxgo that waits on a full nest queue is met again once an entry is free (R233). -/
def execMxgoQueueRoom (s : State) : Res :=
  match (s.en .mx).wait with
  | some (.nestRoom _) =>
    if s.here.runs && decide (s.here.nests.length < 4) then
      .next (s.upd fun k => k.onEn .mx fun x => { x with wait := none, issued := x.issued - 1 })
    else .next s
  | _ => .next s

/-! Progress -/

/-- SYS.MXPROG's image of a nest (R239). -/
def Nest.progress (n : Nest) (cause : Nat) : Word :=
  let b (x : Bool) (i : Nat) : Nat := if x then 2 ^ i else 0
  BitVec.ofNat 64 (b (decide (cause ≠ 0)) 63 + cause * 2 ^ 60 + b n.rl 59 + b n.dr.isSome 58 + n.row % 32 * 2 ^ 53 +
    n.nseq % 256 * 2 ^ 45 + n.dr.getD 0 * 2 ^ 42 + n.step % 2 ^ 41)

/-- A nest is held (R239). -/
def Core.held (k : Core) : Bool := bit k.sys.mxprog 63

/-- The held nest: the first that has work left. -/
def Core.heldNest (k : Core) : Option Nest := if k.held then k.nests.find? fun n => !n.complete else none

/-- Releases the held nest (R240). A tile that was lost comes back before the first remaining step. -/
def execMxgoResume (s : State) : Res :=
  let k := s.here
  if !k.held then s.trap .mx .illegal
  else
    (s.upd fun k =>
      { k with
        sys := { k.sys with mxprog := 0 }
        nests := k.nests.map fun (n : Nest) =>
          if k.heldNest ≠ some n then n
          else
            { n with
              issue := k.cyc + 4, timed := k.sys.timed, ends := none, ahead := [], drained := []
              rl := n.rl || (n.dr.isNone && decide (n.step < n.loop.total) && !k.usable n.loop) } }).done .mx

/-- Appends pushes that nests make to those that the queues still have to take, and lets the queues take them (R235). -/
def Core.nestPush (k : Core) (l : List NestPush) : Core := ({ k with nestOwed := k.nestOwed ++ l }).pushNests

/-- The pushes of a mask with one token. -/
def maskPushes (m : BitVec 5) (tag : Nat) (t : Token) : List NestPush := ((List.range 5).filter fun p => bit m p).map fun p => ⟨p, tag, t⟩

/-- The consumed token and the finish token of a nest (R83, R235, R272). -/
def Nest.consumedToken (n : Nest) : Token := ⟨n.clk, (n.joined ++ [n.id]).dedup⟩
def Nest.finishToken (n : Nest) : Token := ⟨n.clk, (n.joined ++ [n.id, n.id + 1]).dedup⟩

/-- The pushes that a nest has not made yet, in their order. -/
def Nest.pushesLeft (n : Nest) : List NestPush :=
  maskPushes (n.loop.cpush &&& ~~~n.consumed) n.id n.consumedToken ++
    maskPushes (n.loop.fpush &&& ~~~n.finished) (n.id + 1) n.finishToken

/-- The events of an interlocked nest reach SYS.FLAGS, under the number of its finish token (R56, R237). -/
def Core.nestFlags (k : Core) (n : Nest) : Core := if n.flags = 0 then k else k.orFlags (6 + n.id + 1) 0 n.flags

/-- A tile that is lost to later nests (R224, R241). -/
def HeldTile.lose (t : HeldTile) : HeldTile := { t with lost := true }

/-- Discards accepted nests: those that have not started, and with all the held one too (R237, R241). -/
def Core.cancelNests (k : Core) (all : Bool) : Core × Nat :=
  let gone (n : Nest) : Bool := if n.started then all && decide (k.heldNest = some n) else true
  let out := k.nests.filter gone
  let kept := k.nests.filter fun n => !gone n
  let pushes := out.flatMap fun n => n.pushesLeft ++ n.after
  let k := (out.filter fun n => n.started).foldl (fun (k : Core) n => k.nestFlags n) k
  let k := { k with sys := { k.sys with mxprog := if all then 0 else k.sys.mxprog }
                    tile := if all then (if kept.any Nest.started then k.tile.map HeldTile.lose else none) else k.tile }
  match kept.reverse with
  | [] => (({ k with nests := [] }).nestPush pushes, out.length)
  | last :: r =>
    if last.complete && !last.timed then (({ k with nests := kept }).nestPush pushes, out.length)
    else ({ k with nests := (r.reverse ++ [{ last with after := last.after ++ pushes }]) }, out.length)

/-- mxcancel and mxcancel.all (R241). -/
def cancelWord (all : Bool) (sd : SReg) (s : State) : Res :=
  let (k, n) := s.here.cancelNests all
  ((s.setCore s.cur.core k).wrS .sq sd (BitVec.ofNat 64 n)).done .sq

/-- Discards every accepted nest that has not started (R241). -/
def execMxcancel (sd : SReg) (s : State) : Res := cancelWord false sd s

/-- Discards the held nest too, and clears SYS.MXPROG (R241). -/
def execMxcancelAll (sd : SReg) (s : State) : Res := cancelWord true sd s

/-- The running nest of a core; in timed mode a nest runs until it takes effect (R243). -/
def Core.running (k : Core) : Option Nest := k.nests.find? fun n => n.started && (n.timed || !n.complete)

/-- SYS.MXPROG where a nest is held, else a snapshot of the running nest (R241). -/
def execMxprog (sd : SReg) (s : State) : Res :=
  let k := s.here
  let v := if k.held then k.sys.mxprog else match k.running with | some n => n.progress 0 | none => 0
  (s.wrS .sq sd v).done .sq

/-- The numbers of queued nests and format words (R241). -/
def execMxprogQ (sd : SReg) (s : State) : Res :=
  let k := s.here
  (s.wrS .sq sd (BitVec.ofNat 64 (k.nests.length + k.fmtq.length * 16))).done .sq

/-- Every accepted nest has completed (R241). -/
def Core.nestsRun (k : Core) : Bool := k.nests.all fun n => n.complete && !n.timed

/-- Sets the matrix engine's last issue so that the word it waits at is due in the cycle in which the nest at the head ends. -/
def Core.dueAtEnd (k : Core) : Core :=
  match k.nests with
  | n :: _ =>
    let e := match n.ends with
      | some e => e
      | none => k.nestStarts n + n.loop.span n (k.usable n.loop)
    k.onEn .mx fun x => { x with last := x.last + (e - k.cyc) }
  | [] => k

/-- Zeroes accumulators after every accepted nest (R241). -/
def execMxzero (acc : AccNo) (nm1 : BitVec 4) (s : State) : Res :=
  if 16 < acc.toNat + nm1.toNat + 1 then s.trap .mx .illegal
  else if s.here.nestsRun then
    ((List.range (nm1.toNat + 1)).foldl (fun (s : State) i => s.wr .mx (.acc (acc.toNat + i)) (ones 131072) 0) s).done .mx
  else .next (s.upd fun k => (if k.sys.timed then k.dueAtEnd else k).unpop .mx)

/-- Waits for every accepted nest and joins them (R241, R272). -/
def execMxsync (s : State) : Res :=
  if s.here.sys.timed then s.trap .mx .illegal
  else if s.here.nestsRun then (s.upd fun k => k.join .mx fun m => m.seq.isNone).done .mx
  else s.stall .mx

/-! A nest at work -/

/-- The core as a nest sees it: its accesses come after what the matrix engine was ordered after at acceptance, and after the
nests before it (R143, R234). In timed mode what has landed since the nest started is not ordered against it (R228, R243). -/
def Core.nestView (k : Core) (n : Nest) : Core :=
  ({ k with races := if n.timed then k.nestRaces else k.races.map fun (r : Race) => if r.writer < 6 then r else { r with writer := Eng.mx.tag } }).onEn .mx fun x =>
    { x with clk := n.clk, joined := n.joined }

/-- The checks of a nest's access; a fault comes with its address (R226, R238). -/
def State.nestCheck (s : State) (va n : Nat) (kind : Kind) : Except (Code × Word) Unit :=
  if 2 ^ 57 < va + n then .error (.addrRange, BitVec.ofNat 64 va)
  else
    match s.check va n kind with
    | .ok _ => .ok ()
    | .error c => .error (c, BitVec.ofNat 64 va)

/-- What a nest has read before its turn for row r of operand i at its step: the rows of a tile share its chunks (R242). -/
def Nest.aheadFor (n : Nest) (i r : Nat) : List Ahead :=
  n.ahead.filter fun a => decide (a.op = i ∧ a.step = n.step) && (decide (i = 1) || decide (a.row = r))

/-- Bytes that a nest reads for a row or a tile: where it has read a 64-byte chunk already, those it read then (R242). -/
def overAhead (l : List Ahead) (va : Nat) (bs : List Byte) : List Byte :=
  bs.zipIdx.map fun b => match l.find? fun a => decide (a.chunk = (va + b.2) / 64) with
    | some a => a.data.getD ((va + b.2) % 64) b.1
    | none => b.1

/-- The exact values of n elements of packed bytes (R42). -/
def plainValues (f : Fmt) (bs : Nat) (n : Nat) : List Exact := (List.range n).map fun x => elemValue f (elemOf f.bits bs x)

/-- Row r of operand i at level indices: n exact values (R226 to R229). -/
def State.operandRow (s : State) (n : Nest) (i : Nat) (idx : List Nat) (r count : Nat) : Except (Code × Word) (List Exact × State) :=
  let l := n.loop
  let f := l.fmt i
  if l.kind i = 2 then
    let (i0, j0) := l.coords i idx
    let g := if i = 0 then n.ga else n.gb
    .ok ((List.range count).map fun (x : Nat) =>
      let (a, b) : Int × Int := if i = 0 then (i0 + (r : Int), j0 + (x : Int)) else (i0 + (x : Int), j0 + (r : Int))
      let (a, b) := if l.trn i then (b, a) else (a, b)
      Flurry.operandValue s.place g (l.genNo i) a b, s)
  else if l.kind i = 1 then
    let v0 := (l.place i idx).toNat
    let k := s.here.nestView n
    let reg (v : Nat) : Nat := k.readReg s.free .mx (.v v)
    if f.isMx then
      let x := reg (v0 + r / 2)
      .ok ((List.range count).map fun e => packedValue f x (128 * (r % 2) + e), s)
    else
      let per := 8192 / f.bits
      .ok ((List.range count).map fun e =>
        let at_ := 128 * r + e
        elemValue f (elemOf f.bits (reg (v0 + at_ / per)) (at_ % per)), s)
  else
    let va := addr 0 (l.place i idx + ((r * l.rs i : Nat) : Int))
    let bytes := Loop.rowBytes f count
    match s.nestCheck va bytes .read with
    | .error e => .error e
    | .ok _ =>
      if f.isMx then
        let sva := addr 0 ((l.scaleBase i : Int) + (l.place i idx + ((r * l.rs i : Nat) : Int) - (l.base i : Int)) / (Loop.blockBytes f : Nat))
        match s.nestCheck sva (count / 32) .read with
        | .error e => .error e
        | .ok _ =>
          let (bs, s) := s.load va bytes
          let (ss, s) := s.load sva (count / 32)
          let x := ofBytes (overAhead (n.aheadFor i r) va bs)
          let ss := overAhead (n.aheadFor i r) sva ss
          .ok ((List.range count).map fun e => mxValue f (elemOf f.bits x e) (ss.getD (e / 32) 0).toNat, s)
      else
        let (bs, s) := s.load va bytes
        .ok (plainValues f (ofBytes (overAhead (n.aheadFor i r) va bs)) count, s)

/-- The addresses of the 64-byte chunks that some rows of operand i take up, scale bytes included (R226, R227, R242). -/
def Nest.chunksOf (n : Nest) (i : Nat) (idx : List Nat) (rows : List Nat) (count : Nat) : List Nat :=
  let l := n.loop
  let f := l.fmt i
  let run (va b : Nat) : List Nat := if b = 0 then [] else (List.range ((va + b - 1) / 64 - va / 64 + 1)).map fun j => va / 64 + j
  if l.kind i ≠ 0 then []
  else (rows.flatMap fun r =>
    let at_ : Int := l.place i idx + ((r * l.rs i : Nat) : Int)
    run (addr 0 at_) (Loop.rowBytes f count) ++
      (if f.isMx then run (addr 0 ((l.scaleBase i : Int) + (at_ - (l.base i : Int)) / (Loop.blockBytes f : Nat))) (count / 32) else [])).dedup

/-- The nest reads one 64-byte chunk of operand i, of the row or the tile of a step, before its turn (R242). -/
def State.readAhead (s : State) (n : Nest) (i step row : Nat) (chunk : Option Nat) : Res :=
  match chunk with
  | some a =>
    if n.ahead.any fun x => decide (x.op = i ∧ x.step = step ∧ x.row = row ∧ x.chunk = a) then .next s
    else
      match s.nestCheck (64 * a) 64 .read with
      | .error _ => .next s
      | .ok _ =>
        let (bs, s) := s.load (64 * a) 64
        .next (s.upd fun k => { k with nests := k.nests.map fun m => if m.id = n.id then { n with ahead := n.ahead ++ [⟨i, step, row, a, bs⟩] } else m })
  | none => .next s

/-- The rows of W, loaded in order (R226, R228, R229). -/
def State.loadTile (s : State) (n : Nest) (idx : List Nat) : Nat → Except (Code × Word) (List (List Exact) × State)
  | 0 => .ok ([], s)
  | r + 1 =>
    match s.loadTile n idx r with
    | .error e => .error e
    | .ok (rows, s) =>
      match s.operandRow n 1 idx r n.loop.kv with
      | .error e => .error e
      | .ok (row, s) => .ok (rows ++ [row], s)

/-- One group of a nest's sum: the exact sum, scaled by 2^-5 under the Hadamard flag, rounded once (R58 to R61, R225). -/
def nestGroup (prof : Nat) (had : Bool) (ps : List (Exact × Flags)) : Nat × Flags :=
  let xs := ps.map Prod.fst
  let (x, f1) := Exact.sum (if prof = 3 then windowTruncate xs else xs)
  let (c, f2) := roundFloat .f32 .rne 0 (if had then x.shift (-5) else x)
  (c, Flags.all (ps.map Prod.snd) ||| f1 ||| f2)

/-- ProfileDot of a nest (R58, R225). -/
def nestDot (prof : Nat) (had : Bool) (ps : List (Exact × Flags)) (acc : Nat) (fresh : Bool) : Nat × Flags :=
  joinGroups ((chunks (profileG prof) ps.length ps).map (nestGroup prof had)) acc fresh

/-- Wv(x, col) (R223). -/
def Loop.wv (l : Loop) (rows : List (List Exact)) (x col : Nat) : Exact :=
  let get (n k : Nat) : Exact := (rows.getD n []).getD k .nan
  if l.reverse then get x col else get col x

/-- One streamed row: each output column's accumulator value and events (R223). -/
def Loop.rowResult (l : Loop) (rows : List (List Exact)) (a : List Exact) (acc : Nat → Nat) (fresh : Bool) : List (Nat × Flags) :=
  (List.range l.oc).map fun col =>
    nestDot l.prof l.had ((List.range l.cn).map fun x => (a.getD x .nan).mul (l.wv rows x col)) (acc col) fresh

/-- Adds a write to a timed nest's work: one entry for each accumulator or byte. -/
def addWork (p : Pend) : List Pend → List Pend
  | [] => [p]
  | q :: r => if q.dst = p.dst then { q with bm := q.bm ||| p.bm, val := blend q.val p.val p.bm } :: r else q :: addWork p r

/-- The accumulator that a nest adds to, as a number (R83, R243). -/
def State.nestAcc (s : State) (n : Nest) (c : Nat) : Nat :=
  n.work.foldl (fun v p => if p.dst = .acc c then blend v p.val p.bm else v) ((s.here.nestView n).readReg s.free .mx (.acc c))

/-- A nest writes part of an accumulator: at once, or in its work in timed mode. -/
def State.nestWrite (s : State) (n : Nest) (c bm val : Nat) : State × Nest :=
  if n.timed then (s, { n with work := addWork ⟨0, .acc c, bm, val⟩ n.work })
  else
    let x := (s.here.nestView n).en .mx
    (s.upd fun k => k.writeRace s.free (6 + n.id + 1) 0 (fun r => decide (r.writer < 6) && !ordered x Eng.mx.tag r) (.acc c) bm val, n)

/-- Puts the nest under work back at its place. -/
def Core.putNest (k : Core) (n : Nest) : Core := { k with nests := k.nests.map fun m => if m.id = n.id then n else m }

/-- The actions before a step: the load that is pending then, and fresh starts (R223, R240). has says that the array holds the nest's
tile. -/
def Nest.prime (n : Nest) (has : Bool) : Nest :=
  let l := n.loop
  let first := decide (n.step = 0) && l.keepb
  { n with
    rl := (l.begins n.step 0 && !first) || (decide (n.step = 0) && !l.keepb && decide (l.lowReload = 6)) || !has
    fresh := if l.begins n.step 1 then n.fresh ||| l.rotation else n.fresh }

/-- A nest that has no work left completes: its flags, its pushes and those behind it (R235, R237, R241). -/
def Core.completeNest (k : Core) (n : Nest) : Core :=
  if n.timed then k.putNest { n with complete := true }
  else
    let k := k.putNest { n with complete := true, flags := 0, consumed := n.loop.cpush, after := [] }
    (k.nestFlags n).nestPush (n.pushesLeft ++ n.after)

/-- After a step or a drain: the consumed pushes after the last operand read, then the next step or the end (R223, R235). -/
def Core.nestOn (k : Core) (n : Nest) : Core :=
  let l := n.loop
  let last := decide (n.step = l.total)
  let k := if last && decide (n.consumed ≠ l.cpush) then k.nestPush (maskPushes (l.cpush &&& ~~~n.consumed) n.id n.consumedToken) else k
  let n := if last then { n with consumed := l.cpush } else n
  match n.dr with
  | some _ => k.putNest n
  | none => if last then k.completeNest n else k.putNest (n.prime (k.tileFits l))

/-- A fault holds the nest and queues an event for the task (R238, R287). -/
def Core.holdNest (k : Core) (n : Nest) (f : Code × Word) : Core :=
  let k := k.putNest n
  ({ k with sys := { k.sys with mxprog := n.progress 1 } }).pushEvent
    ⟨BitVec.ofNat 64 (f.1.toNat + Eng.mx.tag * 2 ^ 8 + 2 ^ 11), f.2⟩

/-- The first nest that is not complete, where nests make progress: not while one is held, nor in a freeze (R87, R238), nor while the
one before has finish pushes to make; a task that is being abandoned starts none (R288). -/
def State.nestHere (s : State) : Option Nest :=
  let k := s.here
  let last := match k.phase with | .abandoning _ _ => true | _ => false
  if !(k.runs || last) || k.held || (k.sys.timed && Eng.all.any fun e => (k.en e).wait.isSome) then none
  else
    match k.nests.find? fun n => !n.complete || !n.timed with
    | some n => if n.complete || (last && !n.started) then none else some n
    | none => none

/-- In timed mode no engine is due before a cycle (R243). -/
def State.allDue (s : State) (c cyc : Nat) : Bool :=
  Eng.all.all fun e => match dueOf s c e with | none => true | some d => decide (cyc ≤ d)

/-- The nest at the head of the queue starts, or in timed mode goes on after a resumption (R234, R243). One that was resumed with its
pushes alone left completes (R302). -/
def execNestStart (s : State) : Res :=
  match s.nestHere with
  | some n =>
    if n.started && (!n.timed || n.ends.isSome) then
      .next (if n.dr.isNone && decide (n.loop.total ≤ n.step) then s.upd fun k => k.completeNest n else s)
    else
      let c := s.cur.core
      let prev := ((s.here.nests.filterMap Nest.ends).foldl max s.here.nestEnd)
      let S := max n.issue prev
      if n.timed && !s.allDue c S then .next s
      else
        -- the nests before it have taken effect, and so has what lands by then (R85, R234)
        let s := if n.timed then (s.catchUp c S).upd fun k => { k with nestRaces := [] } else s
        let n' := { n with started := true, ends := if n.timed then some (S + n.loop.span n (s.here.usable n.loop)) else none }
        .next (s.upd fun k => k.putNest (if n.started then n' else n'.prime (k.usable n.loop)))
  | none => .next s

/-- A pending load of W takes place (R223, R224, R238). At a unit other than 0, which counts chunks and, in steps of 1024, steps of the nest, it
reads one chunk of the tile of this or a later step before its turn (R242). -/
def execNestLoadW (s : State) : Res :=
  match s.nestHere with
  | some n =>
    let l := n.loop
    if !n.started || (n.timed && n.ends.isNone) then .next s
    else if s.cur.unit ≠ 0 then
      let step := n.step + (s.cur.unit - 1) / 1024
      if l.total ≤ step ∨ !(decide (step = n.step) && n.rl || decide (n.step < step) && l.begins step 0) then .next s
      else s.readAhead n 1 step 0 ((n.chunksOf 1 (l.wDigits step) (List.range l.nv) l.kv)[(s.cur.unit - 1) % 1024]?)
    else if !n.rl then .next s
    else
      match s.loadTile n (l.wDigits n.step) l.nv with
      | .error f => .next (s.upd fun k => k.holdNest n f)
      | .ok (rows, s) => .next (s.upd fun k => { k with tile := some ⟨l.fmt 1, l.kv, l.nv, rows, false⟩ }.putNest { n with rl := false, ahead := n.ahead.filter fun a => decide (a.op = 0 ∨ a.step ≠ n.step) })
  | none => .next s

/-- The nest streams a row (R219, R223, R238). At a unit other than 0, which counts chunks of a row, in steps of 64 rows, and in steps of 2048
steps of the nest, it reads one chunk of that row before its turn (R242). -/
def execNestRow (s : State) : Res :=
  match s.nestHere, s.here.tile with
  | some n, some t =>
    let l := n.loop
    if !n.started || decide (l.total ≤ n.step) || (n.timed && n.ends.isNone) then .next s
    else if s.cur.unit ≠ 0 then
      let u := s.cur.unit - 1
      let step := n.step + u / 2048
      let row := u / 64 % 32
      if l.total ≤ step ∨ l.mv ≤ row ∨ (step = n.step ∧ row < n.row) then .next s
      else s.readAhead n 0 step row ((n.chunksOf 0 (l.digits step) [row] l.cn)[u % 64]?)
    else if n.rl || n.dr.isSome then .next s
    else
      match s.operandRow n 0 (l.digits n.step) n.row l.cn with
      | .error f => .next (s.upd fun k => k.holdNest n f)
      | .ok (a, s) =>
        let c := l.accOf n.step
        let old := s.nestAcc n c
        let rs := l.rowResult t.rows a (fun col => elemOf 32 old (128 * n.row + col)) (bit n.fresh c)
        let sh := 4096 * n.row
        let (s, n) := s.nestWrite n c (ones (32 * l.oc) <<< sh) (packElems 32 (rs.map Prod.fst) <<< sh)
        let n := { n with flags := n.flags ||| Flags.all (rs.map Prod.snd), ahead := n.ahead.filter fun a => decide (a.op = 1 ∨ a.step ≠ n.step ∨ a.row ≠ n.row) }
        if n.row + 1 < l.mv then .next (s.upd fun k => k.putNest { n with row := n.row + 1 })
        else
          let n := { n with row := 0, step := n.step + 1, fresh := n.fresh &&& ~~~(BitVec.ofNat 16 (2 ^ c))
                            dr := (l.drainsAfter n.step).head? }
          .next (s.upd fun k => k.nestOn n)
  | _, _ => .next s

/-- The rows of a drain: address, bytes and events (R236). -/
def State.drainRows (s : State) (n : Nest) (L : Nat) : List (Nat × List Byte × Flags) :=
  let l := n.loop
  let base := l.place 2 (Loop.fromLevel L (l.digits (n.step - 1)))
  (List.range l.accN).flatMap fun p =>
    let t := s.nestAcc n (l.accBase + p)
    (List.range l.mv).map fun r =>
      let i := 32 * (l.accN * n.dord + p) + r
      let row := (List.range l.oc).map fun c => elemOf 32 t (128 * r + c)
      let us := (List.range l.oc).map fun c => if l.rm = .sr then Flurry.genBits s.place n.gd l.drainGen (i : Nat) (c : Nat) else 0
      let d := drainRow (l.fmt 2) l.rm row us
      (addr 0 (base + (((32 * p + r) * l.rs 2 : Nat) : Int)), d.1, d.2)

/-- The first fault of the accesses of a drain. -/
def State.drainFault (s : State) : List (Nat × List Byte × Flags) → Option (Code × Word)
  | [] => none
  | (va, bs, _) :: r =>
    match s.nestCheck va bs.length .write with
    | .error f => some f
    | .ok _ => s.drainFault r

/-- Writes of a nest's drain: scratchpad bytes in its bank, global bytes at package scope with the die's copy following (R235,
R236). -/
def State.drainWrite (s : State) (n : Nest) (va : Nat) (bs : List Byte) : State × Nest :=
  let c := s.cur.core
  match window c s.here va bs.length with
  | .ok (.spad key) =>
    if n.timed then
      (s, { n with work := (List.range bs.length).zip bs |>.foldl (fun w ib => addWork ⟨0, .spad (key + ib.1), 255, ib.2.toNat⟩ w) n.work })
    else ({ s with spad := Bank.setRun 0 s.spad key bs }, n)
  | _ => (performLines c s.here.sys.asid (pieces bs.length va bs.length) (writeMem s c (s.stream .mx) va bs), n)

/-- Bytes at an address as runs that each lie in one 64-byte chunk. -/
def chunkRuns (va : Nat) (bs : List Byte) : List (Nat × List Byte) :=
  if bs.isEmpty then []
  else (List.range ((va % 64 + bs.length + 63) / 64)).map fun i =>
    let lo := max va ((va / 64 + i) * 64)
    (lo, (bs.drop (lo - va)).take ((va / 64 + i + 1) * 64 - lo))

/-- A pending drain is written (R236, R238). At a unit other than 0 it writes one 64-byte chunk before the others: other readers and writers meet
its bytes by whole chunks (R242). -/
def execNestDrain (s : State) : Res :=
  match s.nestHere with
  | some n =>
    match n.dr with
    | some L =>
      if !n.started || (n.timed && n.ends.isNone) then .next s
      else
        let l := n.loop
        let rows := s.drainRows n L
        match s.drainFault rows with
        | some f => .next (s.upd fun k => k.holdNest { n with drained := [] } f)
        | none =>
          let runs := (rows.flatMap fun r => chunkRuns r.1 r.2.1).filter fun r => !n.drained.contains (r.1 / 64)
          let put (l : List (Nat × List Byte)) : State × Nest := l.foldl (fun (sn : State × Nest) r => sn.1.drainWrite sn.2 r.1 r.2) (s, n)
          if s.cur.unit ≠ 0 then
            match runs[s.cur.unit - 1]? with
            | some r =>
              if n.timed then .next s
              else
                let (s, n) := put (runs.filter fun q => decide (q.1 / 64 = r.1 / 64))
                .next (s.upd fun k => { k with nests := k.nests.map fun m => if m.id = n.id then { n with drained := n.drained ++ [r.1 / 64] } else m })
            | none => .next s
          else
          let (s, n) := put runs
          let n := { n with flags := n.flags ||| Flags.all (rows.map fun r => r.2.2), dord := n.dord + 1, drained := []
                            dr := ((l.drainsAfter (n.step - 1)).filter fun M => decide (L < M)).head? }
          let s := if l.ccen then { s with chunkDue := s.chunkDue ++ [(s.here.inst, l.ccid)] } else s
          .next (s.upd fun k => k.nestOn n)
    | none => .next s
  | none => .next s

end Sys2Proof.Machine
end

