-- ==== Sys2Proof/Machine/Signals.lean ====
section
/-! DEFINITION. Phase barriers, completion words, scratch rings and the signals that reach tasks (R184, R186 to R191, R305). -/

namespace Sys2Proof.Machine

/-! Phase barriers -/

/-- The key of a barrier operand whose reserved bits are zero (R3, R186, R187). -/
def State.barrierOf (s : State) (sa : SReg) : Except Code Nat :=
  match s.windowOperand (s.rdS .sq sa).toNat 16 16 with
  | .ok key => if s.barrierOk key then .ok key else .error .illegal
  | .error c => .error c

/-- An instruction that waits on a completion object joins the commands that have completed on it (R272). -/
def Core.joinObject (k : Core) (key : Nat) : Core :=
  k.join .sq fun m => decide (m.obj = some (BitVec.ofNat 64 key)) && match m.seq with | some p => !k.live.contains p | none => false

/-- A word writes bytes of a scratchpad: at once, or in timed mode after its latency (R85). -/
def State.putSpad (s : State) (key n v : Nat) : State :=
  if s.here.sys.timed then
    s.upd fun k => { k with pend := k.pend ++ (toBytes n v).zipIdx.map fun b => ⟨k.cyc + (k.en .sq).lat, .spad (key + b.2), 255, b.1.toNat⟩ }
  else s.setSpad key n v

/-- A word of the sequencer updates a barrier, PHASE before the update going to sd (R85, R188). -/
def State.updateBarrier (s : State) (key : Nat) (arrive : Bool) (dbytes : BitVec 32) (sd : SReg) : Res :=
  orTrap s .sq (s.atBank key (.bar arrive) dbytes.toNat sd) fun t => t.done .sq

/-- A waiting instruction has read size bytes at a key: an acquire of cluster scope (R143, R146). -/
def State.acquired (s : State) (key size : Nat) : State := s.observe s.cur.core .clus (2 ^ 64 + key) size

/-- Sets every field of a barrier (R187). -/
def execBarinit (sa sb sc : SReg) (s : State) : Res :=
  orTrap s .sq (s.windowOperand (s.rdS .sq sa).toNat 16 16) fun key =>
    let b := slice (s.rdS .sq sb) 15 0
    let c := slice (s.rdS .sq sc) 31 0
    (s.putSpad key 16 (c + b * 2 ^ 32 + b * 2 ^ 48 + c * 2 ^ 64)).done .sq

/-- Expects bytes on a barrier (R187). -/
def execBarexp (sa sb : SReg) (s : State) : Res :=
  orTrap s .sq (s.barrierOf sa) fun key => s.updateBarrier key false ((s.rdS .sq sb).setWidth 32) 0

/-- Arrives at a barrier and expects bytes (R187, R188). -/
def execBarar (sd sa sb : SReg) (s : State) : Res :=
  orTrap s .sq (s.barrierOf sa) fun key => s.updateBarrier key true ((s.rdS .sq sb).setWidth 32) sd

/-- Asks whether a barrier has left a phase; a 1 is an acquire of cluster scope and a join edge (R187, R272). -/
def execBartry (sd sa sb : SReg) (s : State) : Res :=
  orTrap s .sq (s.barrierOf sa) fun key =>
    if s.phaseAt key ≠ bit (s.rdS .sq sb) 0 then (((s.wrS .sq sd 1).upd fun k => k.joinObject key).acquired key 16).done .sq
    else (s.wrS .sq sd 0).done .sq

/-- Waits until a barrier leaves a phase (R187). -/
def execBarwait (sa sb : SReg) (s : State) : Res :=
  orTrap s .sq (s.barrierOf sa) fun key =>
    let p := bit (s.rdS .sq sb) 0
    if s.phaseAt key ≠ p then ((s.upd fun k => k.joinObject key).acquired key 16).finishWait .sq
    else s.await .sq (.barrier (BitVec.ofNat 64 key) p)

/-- A waiting barwait sees the phase change (R187). -/
def execBarwaitSatisfied (s : State) : Res :=
  match (s.en .sq).wait with
  | some (.barrier key p) =>
    if s.here.runs && decide (s.phaseAt key.toNat ≠ p) then
      ((s.upd fun k => k.joinObject key.toNat).acquired key.toNat 16).finishWait .sq
    else .next s
  | _ => .next s

/-- Waits until a word has a value (R189). -/
def execWaita (sa sb : SReg) (s : State) : Res :=
  orTrap s .sq (s.windowOperand (s.rdS .sq sa).toNat 8 8) fun key =>
    let v := s.rdS .sq sb
    if s.spadNat key 8 = v.toNat then ((s.upd fun k => k.joinObject key).acquired key 8).finishWait .sq
    else s.await .sq (.word (BitVec.ofNat 64 key) v)

/-- A waiting waita sees its value (R189). -/
def execWaitaSatisfied (s : State) : Res :=
  match (s.en .sq).wait with
  | some (.word key v) =>
    if s.here.runs && decide (s.spadNat key.toNat 8 = v.toNat) then
      ((s.upd fun k => k.joinObject key.toNat).acquired key.toNat 8).finishWait .sq
    else .next s
  | _ => .next s

/-! Scratch rings -/

/-- A ring operand, in the cluster window (R190). -/
def State.ringOf (s : State) (sa : SReg) : Except Code Nat :=
  let va := (s.rdS .sq sa).toNat
  if 2 ^ 57 ≤ va then .error .addrRange
  else if va % 32 ≠ 0 then .error .misalign
  else if taskWindow ≤ va ∧ va < taskWindow + windowSize then .error .translation
  else s.windowOperand va 32 32

/-- The ring operand with its counters, or the fault. -/
def State.ringWord (s : State) (sa : SReg) : Except Code (Nat × Ring) :=
  match s.ringOf sa with
  | .error c => .error c
  | .ok key => match s.ringAt key with | some r => .ok (key, r) | none => .error .ring

/-- Claims a ticket, waiting for a free slot (R191). -/
def execRgclaim (sd sa : SReg) (s : State) : Res :=
  orTrap s .sq (s.ringWord sa) fun kr =>
    if kr.2.free (s.claiming kr.1) then orTrap s .sq (s.atBank kr.1 .claim 0 sd) fun t => t.finishWait .sq
    else s.await .sq (.claim sd (BitVec.ofNat 64 kr.1))

/-- A waiting rgclaim finds a free slot: it takes effect as its wait ends (R191). -/
def execRgclaimSatisfied (s : State) : Res :=
  match (s.en .sq).wait with
  | some (.claim sd key) =>
    match s.ringAt key.toNat with
    | some r =>
      if s.here.runs && r.free (s.claiming key.toNat) then ((s.setRing key.toNat r.claim).wrS .sq sd (zx r.claimed)).finishWait .sq
      else .next s
    | none => .next s
  | _ => .next s

/-- Claims a ticket if a slot is free (R191). -/
def execRgtry (sd sa : SReg) (s : State) : Res :=
  orTrap s .sq (s.ringWord sa) fun kr =>
    if kr.2.free (s.claiming kr.1) then orTrap s .sq (s.atBank kr.1 .claim 0 sd) fun t => t.done .sq
    else (s.wrS .sq sd 0xFFFFFFFFFFFFFFFF).done .sq

/-- A release of cluster scope at a ring (R146, R191). -/
def State.releasedAt (s : State) (key : Nat) : State :=
  s.published s.cur.core .clus (2 ^ 64 + key) 32 true (s.pendingBefore s.cur.core)

/-- Fills a slot (R191). -/
def execRgfill (sa sb : SReg) (s : State) : Res :=
  orTrap s .sq (s.ringWord sa) fun kr =>
    orTrap s .sq (s.atBank kr.1 .fill ((s.rdS .sq sb).setWidth 32 : BitVec 32).toNat 0) fun t => (t.releasedAt kr.1).done .sq

/-- The ticket has been published (R191). -/
def Ring.published (r : Ring) (ticket : BitVec 32) : Bool :=
  let d := (r.tail - ticket).toNat
  decide (1 ≤ d ∧ d < 2 ^ 31)

/-- Waits until a ticket is published (R191). -/
def execRgwaitf (sa sb : SReg) (s : State) : Res :=
  orTrap s .sq (s.ringWord sa) fun kr =>
    let t : BitVec 32 := (s.rdS .sq sb).setWidth 32
    if kr.2.published t then (s.acquired kr.1 32).finishWait .sq else s.await .sq (.filled (BitVec.ofNat 64 kr.1) t)

/-- A waiting rgwaitf sees its ticket published (R191). -/
def execRgwaitfSatisfied (s : State) : Res :=
  match (s.en .sq).wait with
  | some (.filled key t) =>
    match s.ringAt key.toNat with
    | some r => if s.here.runs && r.published t then (s.acquired key.toNat 32).finishWait .sq else .next s
    | none => .next s
  | _ => .next s

/-- Releases the oldest ticket (R191). -/
def execRgrel (sa sb : SReg) (s : State) : Res :=
  orTrap s .sq (s.ringWord sa) fun kr =>
    orTrap s .sq (s.atBank kr.1 .release ((s.rdS .sq sb).setWidth 32 : BitVec 32).toNat 0) fun t => t.done .sq

/-! Signals -/

/-- Reads n bytes of physical memory as a number. -/
def State.physNat (s : State) (a n : Nat) : Nat := ofBytes (Bank.getRun 0 s.hbm a n)

/-- Writes bytes of physical memory. -/
def State.setPhys (s : State) (a : Nat) (bs : List Byte) : State := putHome s a bs

/-- Byte offset of a directory entry of a save area (R301). -/
def dirAt (n : Nat) : Nat := 1984 + 8 * n

/-- Signals that a task's log may hold (R305). -/
def signalMax : Nat := 4096

/-- A request of a task is still being withdrawn (R324). -/
def State.withdrawing (s : State) (inst : Nat) : Bool :=
  s.cores.any fun ck => ck.2.mcmds.any fun m => m.withdraw && decide (m.inst = inst)

/-- Appends an entry to the signal log of a saved task; none where the log is full, or where what comes before it in the area is not
written yet (R305). -/
def State.logSignal (s : State) (v : Saved) (addr : Nat) (write : Bool) (value : Word) : Option State :=
  let n := s.physNat (v.area + 76) 4
  if signalMax ≤ n ∨ s.withdrawing v.inst then none
  else
    let e := toBytes 8 (addr % 2 ^ 57 + (if write then 2 ^ 63 else 0)) ++ toBytes 8 value.toNat
    let s := s.setPhys (v.area + v.logAt + 16 * n) e
    let s := s.setPhys (v.area + 76) (toBytes 4 (n + 1))
    some (s.setPhys (v.area + dirAt 7) (toBytes 4 v.logAt ++ toBytes 4 (16 * (n + 1))))

/-- A command or a signal subtracts from the barrier at a key, or writes a value there (R184, R188). A barrier with a reserved bit set
takes no update. -/
def State.applyAt (s : State) (key : Nat) (write : Bool) (value : Word) : State :=
  if write then s.setSpad key 8 value.toNat
  else match s.barUpdate key false (-(value.setWidth 32)) with | .ok t => t | .error _ => s

/-- Applies a subtraction or a write at a window address of a core (R184, R188). DESIGN CHOICE (log 101): beyond the target's own pages it
changes nothing and counts as applied. -/
def State.applySignal (s : State) (c : Nat) (addr : Nat) (write : Bool) (value : Word) : State :=
  match window c (s.core c) addr (if write then 8 else 16) with
  | .ok (.spad key) => s.applyAt key write value
  | _ => s

/-- A signal to a task instance of this package, wherever it is: applied, logged, or neither where the task has ended; none
where its log is full (R184, R305). -/
def State.signalInst (s : State) (inst : Nat) (addr : Nat) (write : Bool) (value : Word) : Option (Bool × State) :=
  match s.coreOf inst with
  | some c => some (true, s.applySignal c addr write value)
  | none =>
    match s.savedOf inst with
    | some v =>
      if taskWindow ≤ addr ∧ addr < taskWindow + windowSize then (s.logSignal v addr write value).map fun s => (true, s)
      else
        -- the cluster window is applied directly
        match window v.core (s.core v.core) addr (if write then 8 else 16) with
        | .ok (.spad key) => some (true, s.applyAt key write value)
        | _ => some (true, s)
    | none => some (false, s)

/-- The instance of the task that a signal names: on the named core, or where it has gone within the cluster (R184, R303). -/
def State.signalTarget (s : State) (core : Nat) (task : BitVec 32) : Option Nat :=
  match s.cores.find? fun ck => decide (ck.2.phase ≠ .idle ∧ ck.2.inst ≠ 0 ∧ ck.2.sys.taskid = task) &&
      (decide (ck.1 = core) || ck.2.ran.contains core) with
  | some ck => some ck.2.inst
  | none => (s.saved.find? fun v => decide (v.taskid = task) && (decide (v.core = core) || v.ran.contains core)).map fun v => v.inst

/-- The fate of a signal to a core and a task of this package: true for applied or logged, false for a NACK; none where it has
to wait (R184, R305, R382). -/
def State.deliverSignal (s : State) (g : Signal) : Option (Bool × State) :=
  if s.accepts g.core = false then some (false, s)
  else
    match s.signalTarget g.core g.task with
    | none => some (false, s)
    | some inst => s.signalInst inst g.addr.toNat g.write g.value

/-- A signal of another package arrives and its fate goes back (R184). -/
def remoteSignal (g : Signal) (s : State) : Res :=
  if 160 ≤ g.core then .fault .noSuchUnit
  else
    match s.deliverSignal g with
    | none => .next s
    | some (ok, s) => .next (s.post 0 g.core none (.signalDone g ok))

end Sys2Proof.Machine
end

