-- ==== Sys2Proof/Machine/Resolve.lean ====
section
/-! DEFINITION. Shape records, map registers and Resolve (R10, R158 to R160, R325 to R331). -/

namespace Sys2Proof.Machine

/-- A shape record (R159). -/
structure Shape where
  /-- Its address. -/
  recVa : Nat
  rank : Nat
  fmt : Fmt
  mapb : Nat
  permit : Bool
  genchk : Bool
  blkdim : Nat
  base : Nat
  scale : Nat
  ext : List Nat
  strd : List Nat
  boundn : Nat
  fill : Nat
  gen : BitVec 32
  hseed : Nat
  deriving DecidableEq, Repr

/-- Reads 128 bytes as a shape record; none where it is malformed (R3, R37, R159). -/
def shapeOf (addr : Nat) (b : List Byte) : Option Shape :=
  let rank := fieldAt b 0 1
  let ext := (List.range 6).map fun d => fieldAt b (24 + 4 * d) 4
  let strd := (List.range 6).map fun d => fieldAt b (48 + 6 * d) 6
  match Fmt.ofCode (fieldAt b 1 1) with
  | none => none
  | some f =>
    if rank < 1 ∨ 6 < rank ∨ fieldAt b 2 1 / 16 % 8 ≠ 0 ∨ 4 ≤ fieldAt b 3 1 ∨ rank ≤ fieldAt b 4 1 ∨
        (f.isMx = false ∧ (fieldAt b 4 1 ≠ 0 ∨ fieldAt b 16 8 ≠ 0)) ∨ fieldAt b 5 3 ≠ 0 ∨
        (ext.take rank).any (fun x => decide (x = 0)) ∨ (ext.drop rank).any (fun x => decide (x ≠ 0)) ∨
        (strd.drop rank).any (fun x => decide (x ≠ 0)) ∨ 2 ^ f.bits ≤ fieldAt b 96 4 ∨ fieldAt b 104 8 ≠ 0 then none
    else some {
      recVa := addr, rank := rank, fmt := f, mapb := fieldAt b 2 1, permit := bit (BitVec.ofNat 8 (fieldAt b 3 1)) 0
      genchk := bit (BitVec.ofNat 8 (fieldAt b 3 1)) 1, blkdim := fieldAt b 4 1, base := fieldAt b 8 8, scale := fieldAt b 16 8
      ext := ext.take rank, strd := strd.take rank, boundn := fieldAt b 88 8, fill := fieldAt b 96 4
      gen := BitVec.ofNat 32 (fieldAt b 100 4), hseed := fieldAt b 112 16 }

namespace Shape
/-- MAPPED (R159). -/
def mapped (t : Shape) : Bool := decide (128 ≤ t.mapb)
/-- The map register that MAPB names. -/
def mapNo (t : Shape) : Nat := t.mapb % 16
/-- Extent of a dimension. -/
def extent (t : Shape) (d : Nat) : Nat := t.ext.getD d 1
/-- The dimensions. -/
def dims (t : Shape) : List Nat := List.range t.rank
end Shape

/-! Map registers -/

/-- A dimension word of a map register (R325). -/
def mapDim (m : BitVec 256) (d : Nat) : Nat := nslice m.toNat (32 * d + 31) (32 * d)
/-- NAX. -/
def mapNax (m : BitVec 256) (d : Nat) : Nat := mapDim m d % 8
/-- The split axes, outermost first (R326). -/
def mapAxes (m : BitVec 256) (d : Nat) : List Nat :=
  (List.range (min 4 (mapNax m d))).map fun i => nslice (mapDim m d) (5 + 2 * i) (4 + 2 * i)
/-- PER. -/
def mapPer (m : BitVec 256) (d : Nat) : Bool := (mapDim m d).testBit 3
/-- HLO. -/
def mapLo (m : BitVec 256) (d : Nat) : Nat := nslice (mapDim m d) 17 12
/-- HHI. -/
def mapHi (m : BitVec 256) (d : Nat) : Nat := nslice (mapDim m d) 23 18
/-- PARTIAL: bit a for axis a (R325). -/
def mapPartial (m : BitVec 256) : Nat := nslice m.toNat 199 192

/-- Size of a mesh axis (R22). -/
def axisSize (mesh : Word) (a : Nat) : Nat := slice mesh (12 * a + 11) (12 * a) + 1
/-- A coordinate. -/
def axisCoord (coord : Nat) (a : Nat) : Nat := nslice coord (12 * a + 11) (12 * a)
/-- Number of chunks of a dimension (R326). -/
def mapN (mesh : Word) (m : BitVec 256) (d : Nat) : Nat := ((mapAxes m d).map (axisSize mesh)).prod
/-- Chunk of a dimension (R326). -/
def mapChunk (mesh : Word) (t : Shape) (m : BitVec 256) (d : Nat) : Nat := ceilDiv (t.extent d) (mapN mesh m d)
/-- Local extent of a dimension (R326). -/
def localExt (mesh : Word) (t : Shape) (m : BitVec 256) (d : Nat) : Nat := mapChunk mesh t m d + mapLo m d + mapHi m d

/-- Condition 1 of R327: reserved bits and unused AX entries. -/
def mapReservedOk (m : BitVec 256) : Bool :=
  decide (mapPartial m < 16) && decide (m.toNat / 2 ^ 200 = 0) && (List.range 6).all fun d =>
    decide (mapDim m d < 2 ^ 24) && decide (mapNax m d ≤ 4) && decide (nslice (mapDim m d) 11 4 / 4 ^ mapNax m d = 0)

/-- A map is valid for a shape record (R327). -/
def mapValid (mesh : Word) (t : Shape) (m : BitVec 256) : Bool :=
  let axes := t.dims.flatMap (mapAxes m)
  mapReservedOk m && axes.Nodup && (axes.all fun a => !(mapPartial m).testBit a) &&
    ((List.range 6).all fun d => decide (d < t.rank) || decide (mapDim m d = 0)) &&
    t.dims.all fun d =>
      let c := mapChunk mesh t m d
      decide (mapLo m d ≤ c ∧ mapHi m d ≤ c) && (!mapPer m d || decide (t.extent d % mapN mesh m d = 0)) &&
        (!(t.fmt.isMx && decide (d = t.blkdim)) || decide (c % 32 = 0 ∧ mapLo m d % 32 = 0 ∧ mapHi m d % 32 = 0))

/-! Resolve -/

/-- Kinds of resolution (R10). -/
inductive RKind where
  | read | write | reduce
  deriving DecidableEq, Repr

/-- Where an element lies (R10). -/
inductive Located where
  | outside
  | at_ (pkg : BitVec 48) (pos : List Nat)
  deriving DecidableEq, Repr

/-- MixedIndex (R10). -/
def mixedIndex (mesh : Word) (coord : Nat) (axes : List Nat) : Nat :=
  axes.foldl (fun k a => k * axisSize mesh a + axisCoord coord a) 0

/-- Replaces one coordinate. -/
def setAxis (coord a v : Nat) : Nat := coord - axisCoord coord a * 2 ^ (12 * a) + v * 2 ^ (12 * a)

/-- SetMixed (R10): the innermost axis takes the lowest digit. -/
def setMixed (mesh : Word) (coord : Nat) (axes : List Nat) (k : Nat) : Nat :=
  (axes.reverse.foldl (fun (p : Nat × Nat) a => (setAxis p.1 a (p.2 % axisSize mesh a), p.2 / axisSize mesh a)) (coord, k)).1

/-- The position of index i in this package's own chunk with its halos, where it lies there (R10, InHalo). -/
def inHalo (i own chunk lo hi ext : Nat) (per : Bool) : Option Nat :=
  let try_ (j : Int) : Option Nat :=
    if (own * chunk : Nat) - (lo : Int) ≤ j ∧ j < ((own + 1) * chunk + hi : Nat) then some (j - (own * chunk : Nat) + (lo : Int)).toNat
    else none
  match try_ i with
  | some p => some p
  | none =>
    if per then
      match try_ ((i : Int) - ext) with
      | some p => some p
      | none => try_ ((i : Int) + ext)
    else none

/-- HaloReach (R331). -/
def haloReach (mesh : Word) (t : Shape) (m : BitVec 256) (d i : Nat) : Bool :=
  let n := mapN mesh m d
  let c := mapChunk mesh t m d
  let e := t.extent d
  let hit (q : Int) : Bool := decide ((if mapPer m d then q % (e : Int) else q) = (i : Int))
  (List.range n).any fun k => decide (k ≠ i / c) &&
    ((List.range (mapLo m d)).any (fun j => hit (((k * c : Nat) : Int) - (mapLo m d : Int) + (j : Int))) ||
      (List.range (mapHi m d)).any (fun j => hit (((k + 1) * c + j : Nat) : Int)))

/-- One dimension of Resolve: the coordinates so far and the local index (R10). -/
def resolveDim (mesh : Word) (self : Nat) (t : Shape) (m : BitVec 256) (kind : RKind) (coord d i : Nat) : Nat × Nat :=
  let c := mapChunk mesh t m d
  let own := mixedIndex mesh self (mapAxes m d)
  let near := if kind = .read then inHalo i own c (mapLo m d) (mapHi m d) (t.extent d) (mapPer m d) else none
  match near with
  | some p => (coord, p)
  | none => (setMixed mesh coord (mapAxes m d) (i / c), i % c + mapLo m d)

/-- Resolve (R10), with the fault of a write into a halo (R331). self is SYS.COORD[47:0]. -/
def resolve (mesh : Word) (self : Nat) (t : Shape) (m : BitVec 256) (kind : RKind) (idx : List Int) : Except Code Located :=
  if kind = .read ∧ mapPartial m ≠ 0 then .error .partialRead
  else if t.dims.any fun d => let i := idx.getD d 0; decide (i < 0 ∨ (t.extent d : Int) ≤ i) then
    (if t.permit then .ok .outside else .error .oob)
  else
    let ix (d : Nat) : Nat := (idx.getD d 0).toNat
    if kind = .write && t.dims.any fun d => haloReach mesh t m d (ix d) then .error .haloWrite
    else
      let (coord, pos) := t.dims.foldl (fun (p : Nat × List Nat) d =>
        let (c, l) := resolveDim mesh self t m kind p.1 d (ix d)
        (c, p.2 ++ [l])) (self, [])
      .ok (.at_ (BitVec.ofNat 48 coord) pos)

/-- The linear offset of a local index (R160). -/
def Shape.linear (t : Shape) (pos : List Nat) : Nat := (pos.zip t.strd).foldl (fun e x => e + x.1 * x.2) 0

/-- The linear offset, which has to lie below BOUNDN (R160). -/
def Shape.offset (t : Shape) (pos : List Nat) : Except Code Nat :=
  let e := t.linear pos
  if t.boundn ≤ e then .error .bound else .ok e

/-- The bit address of the element at a linear offset (R42, R160): byte address times 8 plus the bit in it. -/
def Shape.elemBit (t : Shape) (e : Nat) : Nat := 8 * t.base + e * t.fmt.bits

/-! Reading records and maps at issue -/

/-- What tells records of the package apart: an address of an address space, or bytes of a cluster's scratchpad. -/
def State.recKey (s : State) (rec : Nat) : Nat × Nat :=
  match window s.cur.core s.here rec 128 with
  | .ok (.spad key) => (4096, key)
  | _ => (s.here.sys.asid.toNat, rec)

/-- The record as it was at issue, where a running reshard has switched it already: reads are served from the source buffers until the
reshard completes (R336). -/
def State.lockShape (s : State) (key : Nat × Nat) : Option (List Byte) :=
  (s.reshards.find? fun r => decide (r.key = key) && r.switched).map fun r => r.shape

/-- The record of a tensor id, read at issue (R158). -/
def State.readShape (s : State) (tid : Nat) : Except Code (Shape × State) :=
  let va := (s.here.tcb.shapebase.toNat + 128 * tid) % 2 ^ 64
  if 2 ^ 57 < va + 128 then .error .addrRange
  else
    match s.check va 128 .read with
    | .error c => .error c
    | .ok _ =>
      let (b, s) := s.load va 128
      match shapeOf va ((s.lockShape (s.recKey va)).getD b) with
      | none => .error .illegal
      | some t => if s.level = .reduced && t.fmt.isFullOnly then .error .illegal else .ok (t, s)

/-- The record at an address lies in bytes that an unjoined command or nest may write: OVERLAP, the last of the checks (R272, R383). -/
def State.recordBusy (s : State) (e : Eng) (va : Nat) : Bool := s.conflicts e (s.spadRanges [(va, 128)]) false

/-- The map through which a locked record resolves: the snapshot that a running reshard took (R336). -/
def State.lockOf (s : State) (key : Nat × Nat) : Option (BitVec 256) :=
  (s.reshards.find? fun r => decide (r.key = key)).map fun r => r.mapS

/-- A map register of the task on a core that a running reshard of the task locks (R336). -/
def State.mapLocked (s : State) (c n : Nat) : Bool :=
  s.reshards.any fun r => decide (r.inst = (s.core c).inst) && (decide (r.ms = n) || decide (r.md = n))

/-- The map of a record (R10, R160, R327, R336): none for an invalid one. -/
def State.mapOf (s : State) (e : Eng) (t : Shape) : Except Code (BitVec 256) :=
  if !t.mapped then .ok 0
  else
    match s.lockOf (s.recKey t.recVa) with
    | some m => .ok m
    | none =>
      let m := s.rdMap e t.mapNo
      if mapValid s.mesh t m then .ok m else .error .illegal

/-- SYS.COORD[47:0] as a number. -/
def State.self (s : State) : Nat := slice s.coord 47 0

end Sys2Proof.Machine
end

