-- ==== Sys2Proof/Machine/Transpose.lean ====
section
/-! DEFINITION. The transpose engine: transposes, unpacking and packing, rearrangement (R169 to R171). -/

namespace Sys2Proof.Machine

/-- Writes n whole registers from v. -/
def writeGroup (e : Eng) (v : Nat) : List Nat → State → State
  | [], s => s
  | x :: r, s => writeGroup e (v + 1) r (s.wr e (.v v) (ones 8192) x)

/-- The n registers from v as one number, the first lowest. -/
def readGroup (s : State) (e : Eng) (v n : Nat) : Nat :=
  (List.range n).foldl (fun x i => x + (s.rdVn e (v + i)).toNat <<< (8192 * i)) 0

/-- Transposes a 32 x 32 matrix in w registers (R169). -/
def execXtr (ty : Fmt) (vd va : VNo) (s : State) : Res :=
  let w := Fmt.width ty
  let x := readGroup s .xp va.toNat w
  let y := packElems (8 * w) ((List.range 1024).map fun n => elemOf (8 * w) x (n % 32 * 32 + n / 32))
  (writeGroup .xp vd.toNat ((List.range w).map fun i => elemOf 8192 y i) s).done .xp

/-- An unpacked element in a byte: sign-extended for MXINT (R170). -/
def unpackElem (ty : Fmt) (c : Nat) : Nat := if ty = .mxf4 then c else wrapNat 8 (signedOf ty.bits c)

/-- Unpacks 4-bit or 6-bit elements to bytes (R170). -/
def execXunpk (ty : Fmt) (vd va : VNo) (s : State) : Res :=
  let x := (s.rdV .xp va).toNat
  if ty = .mxi6 then
    let y := packElems 8 ((List.range 1024).map fun k => unpackElem ty (elemOf 6 x k))
    (writeGroup .xp vd.toNat [y] s).done .xp
  else
    let y (h : Nat) : Nat := packElems 8 ((List.range 1024).map fun k => unpackElem ty (elemOf 4 x (2 * k + h)))
    (writeGroup .xp vd.toNat [y 0, y 1] s).done .xp

/-- A packed element from a byte, clamped for MXINT, and its event (R170). -/
def packElem (ty : Fmt) (c : Nat) : Nat × Flags :=
  if ty = .mxf4 then (c % 16, 0)
  else
    let i := signedOf 8 c
    let lim : Int := ((2 ^ (ty.bits - 1) : Nat) : Int)
    let j := if lim - 1 < i then lim - 1 else if i < -lim then -lim else i
    (wrapNat ty.bits j, Flags.when (decide (i ≠ j)) Flags.saturate)

/-- Packs bytes into 4-bit or 6-bit elements (R170). -/
def execXpk (ty : Fmt) (vd va : VNo) (s : State) : Res :=
  let x := (s.rdV .xp va).toNat
  if ty = .mxi6 then
    let rs := (List.range 1024).map fun k => packElem ty (elemOf 8 x k)
    ((writeGroup .xp vd.toNat [packElems 6 (rs.map Prod.fst)] s).orFlags .xp (Flags.all (rs.map Prod.snd))).done .xp
  else
    let z := (s.rdVn .xp (va.toNat + 1)).toNat
    let lo := (List.range 1024).map fun k => packElem ty (elemOf 8 x k)
    let hi := (List.range 1024).map fun k => packElem ty (elemOf 8 z k)
    let y := packElems 8 (List.zipWith (fun a b => a.1 + 16 * b.1) lo hi)
    ((writeGroup .xp vd.toNat [y] s).orFlags .xp (Flags.all (lo.map Prod.snd ++ hi.map Prod.snd))).done .xp

/-- Rearranges the rows of a register (R171). -/
def execXperm (vd va : VNo) (p : BitVec 24) (s : State) : Res :=
  let x := (s.rdV .xp va).toNat
  let y := packElems 1024 ((List.range 8).map fun i => elemOf 1024 x (slice p (3 * i + 2) (3 * i)))
  (writeGroup .xp vd.toNat [y] s).done .xp

/-- 256 lanes of two registers from lane n (R171). -/
def execXcat (vd va vb : VNo) (n : BitVec 8) (s : State) : Res :=
  let x := (s.rdV .xp va).toNat + (s.rdV .xp vb).toNat <<< 8192
  (writeGroup .xp vd.toNat [(x >>> (32 * n.toNat)) % 2 ^ 8192] s).done .xp

end Sys2Proof.Machine
end

