-- ==== Sys2Proof/Machine/Tensor.lean ====
section
/-! DEFINITION. Tensor-index accesses with their remote elements, the Hadamard instructions and the map instructions (R161, R166,
R172, R332, R345, R346). -/

namespace Sys2Proof.Machine

/-! Tensor-index accesses -/

/-- What one element of a tensor-index access reaches: nothing, an address here, or one of another package. -/
inductive Reach where
  | fill
  | here (va : Nat)
  | there (pkg : BitVec 48) (va : Nat)
  deriving DecidableEq, Repr

/-- Resolution of an element, with the checks of R88, R160, R163 and R166 in their order: its address, TIMED_GLOBAL, its place, its
bound, and last that a write meets no halo (R383). -/
def State.reach (s : State) (t : Shape) (m : BitVec 256) (kind : RKind) (idx : List Int) (w : Nat) : Except Code Reach :=
  let r := resolve s.mesh s.self t m kind idx
  let halo := decide (r = .error .haloWrite)
  match (if halo then resolve s.mesh s.self t m .reduce idx else r) with
  | .error c => .error c
  | .ok .outside => .ok .fill
  | .ok (.at_ pkg pos) =>
    let va := (t.base + t.linear pos * w) % 2 ^ 64
    let place : Option Code :=
      if pkg = s.package then s.pieceCheck (if kind = .write then .write else .read) w (va, w)
      else if 2 ^ 57 ≤ va then some .addrRange
      else if va % w ≠ 0 then some .misalign
      else if s.here.sys.timed && !decide (taskWindow ≤ va ∧ va < taskWindow + windowSize) then some .timedGlobal
      else if inScratch t.base || inScratch t.scale then some .translation
      else none
    match place, t.offset pos with
    | some c, _ => .error c
    | none, .error c => .error c
    | none, .ok _ => if halo then .error .haloWrite else .ok (if pkg = s.package then .here va else .there pkg va)

/-- The elements of a tensor-index word in active lanes: the byte offset in the register and where the element lies. -/
def State.tensorElems (s : State) (e : Eng) (t : Shape) (m : BitVec 256) (kind : RKind) (sb : SReg) (lanes : Mask) (w : Nat) :
    List (Nat × Except Code Reach) :=
  let base := (List.range t.rank).map fun d => (s.rdS e (BitVec.ofNat 6 (sb.toNat + d))).toInt
  ((List.range (1024 / w)).filter fun k => bit lanes (k * w / 4)).map fun k =>
    (k * w, s.reach t m kind (base.set (t.rank - 1) (base.getD (t.rank - 1) 0 + (k : Int))) w)

/-- The first fault of a list of results, in the order of R163. -/
def faultOf {α : Type} (l : List (Except Code α)) : Option Code :=
  worst (l.map fun x => match x with | .error c => some c | .ok _ => none)

/-- Adds an element to the request of its line and package (R345). -/
def addLine (pkg : BitVec 48) (va off w : Nat) (bs : List Byte) (gen : Option (BitVec 32)) (recAddr : Word) :
    List LineTodo → List LineTodo
  | [] => [⟨pkg, va / 128 * 128, [(off, va % 128)], List.replicate (va % 128) 0 ++ bs ++ List.replicate (128 - va % 128 - bs.length) 0,
      BitVec.ofNat 128 (ones w <<< (va % 128)), gen, recAddr⟩]
  | q :: r =>
    if q.pkg = pkg ∧ q.va = va / 128 * 128 then
      { q with elems := q.elems ++ [(off, va % 128)], mask := q.mask ||| BitVec.ofNat 128 (ones w <<< (va % 128))
               data := q.data.take (va % 128) ++ bs ++ q.data.drop (va % 128 + bs.length) } :: r
    else q :: addLine pkg va off w bs gen recAddr r

/-- Sends the next line of an access to another package (R345, R346). -/
def State.sendLine (s : State) (e : Eng) (write : Bool) (q : LineTodo) : State :=
  s.sendOut q.pkg e.tag write none fun tag =>
    .line ⟨s.package, s.cur.core, s.here.sys.asid, BitVec.ofNat 64 q.va, write, q.mask, q.data, q.gen, q.recAddr, tag⟩

/-- Sends what the slots allow, in order (R346). -/
def State.pumpLines (e : Eng) : Nat → LineOp → State → LineOp × State
  | 0, op, s => (op, s)
  | f + 1, op, s =>
    match op.todo with
    | [] => (op, s)
    | q :: r =>
      if s.here.slotFree q.pkg then
        let tag := s.nextId
        State.pumpLines e f { op with todo := r, sent := op.sent ++ [(tag, q.elems)] } (s.sendLine e op.write q)
      else (op, s)

/-- An access to other packages goes on: it finishes when a load has every line and when a store has sent every request (R82,
R346). -/
def State.lineNext (s : State) (e : Eng) (op : LineOp) : State :=
  let (op, s) := State.pumpLines e op.todo.length op s
  if op.todo.isEmpty && op.later.isEmpty && op.rest.isEmpty && (op.write || op.sent.isEmpty) then
    (if op.write then s else s.wrV e op.vd op.lanes op.val).upd fun k => k.leave e ((k.en e).pc + 8) 0
  else s.upd fun k => k.onEn e fun x => { x with wait := some (.lines op) }

/-- Starts an access with elements on other packages. -/
def State.lineStep (s : State) (e : Eng) (op : LineOp) : Res := .next (s.lineNext e op)

/-- An engine of a core whose next request waits for a slot sends it where one is free now (R346). -/
def State.resumeLine (c : Nat) (s : State) (e : Eng) : State :=
  match ((s.core c).en e).wait with
  | some (.lines op) =>
    if (s.core c).runs && !op.todo.isEmpty then
      { ({ s with cur := { s.cur with core := c } } : State).lineNext e op with cur := s.cur }
    else s
  | _ => s

/-- A slot of a core has been returned: its engines that wait for one go on (R346). -/
def State.resumeLines (s : State) (c : Nat) : State := [Eng.ld, .st].foldl (State.resumeLine c) s

/-- The slots of a core's requests that meet a condition are returned (R346). -/
def State.freeSlots (s : State) (c : Nat) (p : RemoteOut → Bool) : State :=
  (s.setCore c { s.core c with remote := (s.core c).remote.filter fun r => !p r }).resumeLines c

/-- Puts loaded elements into a register image. -/
def putElems (w : Nat) (bs : List Byte) (val : Nat) (elems : List (Nat × Nat)) : Nat :=
  elems.foldl (fun v x => blend v (ofBytes ((bs.drop x.2).take w) <<< (8 * x.1)) (ones (8 * w) <<< (8 * x.1))) val

/-- The checks that stand before a tensor-index access: the id, the record, the format and the index registers (R166). -/
def State.tensorShape (s : State) (e : Eng) (o : TensorIx) : Except Code (Shape × State) :=
  let a := s.rdS e o.sa
  if 65536 ≤ a.toNat then .error .illegal
  else
    match s.readShape a.toNat with
    | .error c => .error c
    | .ok (t, s) => if t.fmt ≠ o.ty ∨ 63 < o.sb.toNat + t.rank - 1 then .error .illegal else .ok (t, s)

/-- Loads one row of a tensor by its global index (R166). -/
def execVldx (o : TensorIx) (s : State) : Res :=
  orTrap s .ld (s.tensorShape .ld o) fun ts =>
    let t := ts.1
    let w := Fmt.width o.ty
    orTrap s .ld (ts.2.mapOf .ld t) fun m =>
      let lanes := s.pred .ld o.pm
      let el := s.tensorElems .ld t m .read o.sb lanes w
      match faultOf (el.map Prod.snd) with
      | some c => s.trap .ld c
      | none =>
        let mine := el.filterMap fun x => match x.2 with | .ok (.here va) => some (x.1, va, w) | _ => none
        if s.conflicts .ld (s.spadRanges ((t.recVa, 128) :: accessesOf mine)) false then s.trap .ld .overlap
        else
          let p := s.tearLoad mine
          let fills := el.filterMap fun x => match x.2 with | .ok .fill => some x.1 | _ => none
          let (v, s) := loadRuns p.1 ts.2
          let v := fills.foldl (fun v off => v + (t.fill <<< (8 * off))) v
          let todo := el.foldl (fun l x => match x.2 with
            | .ok (.there pkg va) => addLine pkg va x.1 w (List.replicate w 0) none 0 l
            | _ => l) []
          s.lineStep .ld ⟨false, o.vd.toNat, w, lanes, v, todo, [], p.2, []⟩

/-- The generation that stores into a tensor carry (R161). -/
def State.genOf (s : State) (t : Shape) : Option GenRef :=
  if t.genchk then some ⟨t.gen, s.here.sys.asid, s.cur.core, t.recVa⟩ else none

/-- Stores one row of a tensor by its global index (R166). -/
def execVsx (o : TensorIx) (s : State) : Res :=
  orTrap s .st (s.tensorShape .st o) fun ts =>
    let t := ts.1
    let w := Fmt.width o.ty
    orTrap s .st (ts.2.mapOf .st t) fun m =>
      let lanes := s.pred .st o.pm
      let el := s.tensorElems .st t m .write o.sb lanes w
      match faultOf (el.map Prod.snd) with
      | some c => s.trap .st c
      | none =>
        let mine := el.filterMap fun x => match x.2 with | .ok (.here va) => some (x.1, va, w) | _ => none
        if s.recordBusy .st t.recVa || s.conflicts .st (s.spadRanges (accessesOf mine)) true then s.trap .st .overlap
        else if (s.lockOf (s.recKey t.recVa)).isSome then s.trap .st .mapLocked
        else
            let x := (s.rdV .st o.vd).toNat
            let g := s.genOf t
            let todo := el.foldl (fun l y => match y.2 with
              | .ok (.there pkg va) =>
                addLine pkg va y.1 w (toBytes w (x >>> (8 * y.1))) (g.map fun r => r.gen) (BitVec.ofNat 64 t.recVa) l
              | _ => l) []
            let (rest, u) := ts.2.tearStores .st g o.nt (runBytes x mine)
            u.lineStep .st ⟨true, 0, w, lanes, 0, todo, [], [], rest⟩

/-! Remote accesses -/

/-- The bytes of a mask that are ones, as runs of offsets. -/
def maskRuns (mask : BitVec 128) : List Nat := (List.range 128).filter fun i => bit mask i

/-- Bytes of which nothing is known. -/
def freeBytes (tick n : Nat) : List Byte := (List.range n).map fun i => BitVec.ofNat 8 (Config.pick tick i)

/-- A line request of another package is performed here at package scope, by the slice that homes its aligned line, and its response or
acknowledgement goes back; the answer to one whose page does not allow it is free, and a store to it does nothing (R161, R345). -/
def lineRequest (r : LineReq) (s : State) : State :=
  let va := r.va.toNat / 128 * 128
  let answer (s : State) (data : List Byte) : State :=
    s.post 4 (homeSlice r.asid va) none (.lineReply r.pkg r.core r.tag data)
  let allowed := match translate s 8 r.asid va with
    | .ok t => pageCheck (if r.write then .write else .read) t
    | .error c => .error c
  match allowed with
  | .error _ => answer s (if r.write then [] else freeBytes s.free 128)
  | .ok t =>
    let s := learnHome s r.asid t
    if r.write then
      let (ok, s) := admitGen s (t.phys / 128) (r.gen.map fun g => ⟨g, r.asid, 0, r.recAddr.toNat⟩)
      let hbm := if ok then (maskRuns r.mask).foldl (fun h i => Bank.set 0 h (t.phys + i) (r.data.getD i 0)) s.hbm else s.hbm
      answer (homeTo s hbm t.phys 128) []
    else answer s (homeLine s t.phys)

/-- Delivers a line to a load, or an acknowledgement (R346), or the status of a renq (R129). -/
def State.deliverLine (s : State) (e : Eng) (tag : Nat) (data : List Byte) : Res :=
  match (s.en e).wait with
  | some (.lines op) =>
    let got := op.sent.filter fun x => decide (x.1 = tag)
    s.lineStep e { op with
      val := if op.write then op.val else got.foldl (fun v x => putElems op.width data v x.2) op.val
      sent := op.sent.filter fun x => decide (x.1 ≠ tag) }
  | some (.remote (.renq sd _ _)) =>
    -- it has been a waiting instruction where it waited for the queue, which only the other package knows (R129, R276)
    let waited := decide (data.headD 3 = 0) && Config.choose s.free 20
    if e = .sq then
      let t := s.wrS .sq sd (BitVec.ofNat 64 (data.headD 3).toNat)
      if waited then t.finishWait .sq else t.done .sq
    else .next s
  | _ => .next s

/-- A response or an acknowledgement of an instruction is delivered and its slots return (R346); an answer to a renq carries its
status (R129). -/
def wordResponse (core : Nat) (tag : Nat) (data : List Byte) (s : State) : Res :=
  if 160 ≤ core then .fault .noSuchUnit
  else
    let s := { s with cur := { s.cur with core := core } }
    match s.here.remote.find? fun r => decide (r.tag = tag) with
    | none => .next s
    | some r =>
      let s := s.upd fun k => { k with remote := k.remote.filter fun x => decide (x.tag ≠ tag) }
      if !s.here.runs then .next s
      else
        match s.deliverLine (Eng.ofTag r.eng) tag data with
        | .next s => .next (s.resumeLines core)
        | r => r

/-! Hadamard -/

/-- Entry of the 32-point Sylvester matrix: negative where the indices share an odd number of ones (R172). -/
def sylvester (a b : Nat) : Bool := decide (Flurry.popc (a &&& b) 5 % 2 = 1)

/-- The sum of the signed terms of a 32-point transform, and its events (R53). -/
def hadamard (row : Nat) (xs : List Exact) : Exact × Flags :=
  Exact.sum ((List.range 32).zipWith (fun b x => if sylvester row b then x.neg else x) xs)

/-- The operands of a Hadamard word, all of whose checks are made before the one with the lowest code decides (R172, R383): the record of
the tensor id, the block of the first element's linear index, and the rounding bits. -/
def State.hadamardShape (s : State) (sa sb : SReg) (rm : RMode) (g : GenNo) : Except Code (Shape × Nat × (Int → Int → Nat) × State) :=
  let a := s.rdS .xp sa
  let e0 := (s.rdS .xp sb).toNat
  let shape : Except Code (Shape × State) := if 65536 ≤ a.toNat then .error .illegal else s.readShape a.toNat
  let aligned := if e0 % 32 ≠ 0 then some Code.misalign else none
  match shape, s.roundBits .xp rm g.toNat, aligned with
  | .ok (t, u), .ok bits, none => if s.recordBusy .xp t.recVa then .error .overlap else .ok (t, e0 / 32, bits, u)
  | x, y, z =>
    let code {α : Type} (r : Except Code α) : Option Code := match r with | .error c => some c | .ok _ => none
    .error ((leastFault (leastFault (code x) (code y)) z).getD .illegal)

/-- Quantises through a Hadamard transform (R172). -/
def execXhq (ty : Fmt) (rm : RMode) (g : GenNo) (vd va : VNo) (sa sb : SReg) (s : State) : Res :=
  orTrap s .xp (s.hadamardShape sa sb rm g) fun (t, i0, bits, u) =>
    let x := (s.rdV .xp va).toNat
    let blocks := (List.range 8).map fun blk =>
      let i : Int := ((i0 + blk : Nat) : Int)
      let xs := (List.range 32).map fun b =>
        let v := elemValue .f32 (elemOf 32 x (32 * blk + b))
        if Flurry.sign t.hseed i (b : Nat) then v.neg else v
      let ys := (List.range 32).map fun a => hadamard a xs
      (mxQuant ty rm (ys.map Prod.fst) ((List.range 32).map fun j => bits i (j : Nat)), Flags.all (ys.map Prod.snd))
    let s := writeGroup .xp vd.toNat [packedForm ty (blocks.map fun b => (b.1.1, b.1.2.1))] u
    (s.orFlags .xp (Flags.all (blocks.map fun b => b.1.2.2 ||| b.2))).done .xp

/-- Inverts a Hadamard quantisation (R172). -/
def execXhdq (ty : Fmt) (rm : RMode) (g : GenNo) (vd va : VNo) (sa sb : SReg) (s : State) : Res :=
  orTrap s .xp (s.hadamardShape sa sb rm g) fun (t, i0, bits, u) =>
    let x := (s.rdV .xp va).toNat
    let rs := (List.range 256).map fun k =>
      let i : Int := ((i0 + k / 32 : Nat) : Int)
      let ys := (List.range 32).map fun a => packedValue ty x (k / 32 * 32 + a)
      let h := hadamard (k % 32) ys
      let v := h.1.shift (-5)
      let r := roundFloat .f32 rm (bits i ((k % 32 : Nat) : Int)) (if Flurry.sign t.hseed i ((k % 32 : Nat) : Int) then v.neg else v)
      (r.1, r.2 ||| h.2)
    let s := writeGroup .xp vd.toNat [packElems 32 (rs.map Prod.fst)] u
    (s.orFlags .xp (Flags.all (rs.map Prod.snd))).done .xp

/-! Map instructions -/

/-- Loads a map register (R332, R336). -/
def execMapld (m : MapNo) (sa : SReg) (s : State) : Res :=
  let va := (s.rdS .sq sa).toNat
  orTrap s .sq (s.blockCheck va 32 32 .read) fun _ =>
    let (bs, s') := s.load va 32
    let v : BitVec 256 := BitVec.ofNat 256 (ofBytes bs)
    if !mapReservedOk v then s.trap .sq .illegal
    else if s.mapLocked s.cur.core m.toNat then s.trap .sq .mapLocked
    else (s'.wr .sq (.map m.toNat) (ones 256) v.toNat).done .sq

/-- Stores a map register (R332). -/
def execMapst (m : MapNo) (sa : SReg) (s : State) : Res :=
  let va := (s.rdS .sq sa).toNat
  orTrap s .sq (s.blockCheck va 32 32 .write) fun _ => (s.store .sq va (toBytes 32 (s.rdMap .sq m.toNat).toNat)).done .sq

/-- Sets one dimension word of a map, or PARTIAL (R332). -/
def execMapset (m : MapNo) (d : BitVec 3) (sa : SReg) (s : State) : Res :=
  let x := (s.rdS .sq sa).toNat
  let (bm, v) : Nat × Nat := if d = 6 then (ones 8 <<< 192, (x % 2 ^ 8) <<< 192) else (ones 32 <<< (32 * d.toNat), (x % 2 ^ 32) <<< (32 * d.toNat))
  let new : BitVec 256 := BitVec.ofNat 256 (blend (s.rdMap .sq m.toNat).toNat v bm)
  if !mapReservedOk new then s.trap .sq .illegal
  else if s.mapLocked s.cur.core m.toNat then s.trap .sq .mapLocked
  else (s.wr .sq (.map m.toNat) bm v).done .sq

/-- Writes the MAPB byte of a record, unless a reshard has locked it (R332, R336). -/
def bindByte (va : Nat) (b : Byte) (s : State) : Res :=
  orTrap s .sq (s.blockCheck (va + 2) 1 1 .write) fun _ =>
    if (s.lockOf (s.recKey va)).isSome then s.trap .sq .mapLocked else (s.store .sq (va + 2) [b]).done .sq

/-- Binds a record to a map register (R332). -/
def execMapbind (sa : SReg) (m : MapNo) (s : State) : Res :=
  let a := s.rdS .sq sa
  if 65536 ≤ a.toNat then s.trap .sq .illegal
  else
    orTrap s .sq (s.readShape a.toNat) fun ts =>
      if mapValid s.mesh ts.1 (s.rdMap .sq m.toNat) then
        if s.recordBusy .sq ts.1.recVa then s.trap .sq .overlap else bindByte ts.1.recVa (BitVec.ofNat 8 (128 + m.toNat)) ts.2
      else s.trap .sq .illegal

/-- Unbinds a record; beyond its address nothing of it is checked (R332). -/
def execMapbindU (sa : SReg) (s : State) : Res :=
  let a := s.rdS .sq sa
  let va := (s.here.tcb.shapebase.toNat + 128 * a.toNat) % 2 ^ 64
  if 65536 ≤ a.toNat then s.trap .sq .illegal
  else orTrap s .sq (s.blockCheck va 128 1 .read) fun _ => bindByte va 0 s

end Sys2Proof.Machine
end

