-- ==== Sys2Proof/Machine/Copies.lean ====
section
/-! DEFINITION. Numbered commands and copies: the checks at issue, numbers and predecessors, the copy thread, records and
completion (R143, R161, R177 to R185, R267, R268, R272, R275). -/

namespace Sys2Proof.Machine

/-! Numbered commands -/

/-- The pending predecessors. -/
def Core.preds (k : Core) : List (BitVec 32) := k.pend0.toList ++ k.pend1.toList

/-- Each pending predecessor may precede the next number (R268). -/
def Core.predsOk (k : Core) : Bool := k.preds.all (issuedNo k.sys.next)

/-- The next number fits the window of 256 (R268). -/
def Core.canNumber (k : Core) : Bool := decide ((k.sys.next + 1 - k.sys.rmark).toNat ≤ 256)

/-- A numbered command issues: its number goes to sd, its predecessors are consumed and the overlap checker takes its ranges;
every earlier access of the issuing stream is performed (R143, R267, R272). -/
def State.takeNumber (s : State) (sd : SReg) (rd wr : Option (Nat × Nat)) (obj : Option Nat) : State :=
  let k := s.here
  let n := k.sys.next
  let mark : List Mark := if k.sys.det then [⟨2 * s.nextId, some n, rd, wr, obj.map (BitVec.ofNat 64), k.preds⟩] else []
  let s := s.performBefore s.cur.core
  let s : State := { s with nextId := s.nextId + 1 }
  (s.upd fun k =>
    let live := k.live ++ [n]
    { k with live := live, pend0 := none, pend1 := none, marks := k.marks ++ mark
             sys := { k.sys with next := n + 1, rmark := markOf (n + 1) live } }).wrS .sq sd (zx n)

/-- The number that the next command takes. -/
def State.nextNumber (s : State) : BitVec 32 := s.here.sys.next

/-- A number retires for its task, wherever it is. -/
def State.retireCmd (s : State) (inst : Nat) (seq : BitVec 32) : State := s.retire inst seq

/-- An asynchronous event reaches a task, wherever it is; a task that has ended has none (R287). -/
def State.taskEvent (s : State) (inst : Nat) (ev : AsyncEv) : State :=
  match s.coreOf inst with
  | some c => s.setCore c ((s.core c).pushEvent ev)
  | none => { s with saved := s.saved.map fun v => if v.inst = inst then { v with late := v.late ++ [ev] } else v }

/-- The event of a fault of a numbered command (R283, R287). -/
def commandCause (code : Code) (eng : Nat) (seq : BitVec 32) (addr : Nat) : AsyncEv :=
  ⟨BitVec.ofNat 64 (code.toNat + eng * 2 ^ 8 + 2 ^ 11 + seq.toNat * 2 ^ 32), BitVec.ofNat 64 addr⟩

/-- A fault of a numbered command of a task that issued on core c: the event log records it and the task has an asynchronous
event (R280, R287, R375). -/
def State.commandEvent (s : State) (c inst : Nat) (task : BitVec 32) (code : Code) (eng : Nat) (seq : BitVec 32) (addr : Nat) : State :=
  (s.logCommand inst ⟨s.sid 0 c, seq, 5, code, false, task, 0, BitVec.ofNat 64 addr⟩).taskEvent inst
    (commandCause code eng seq addr)

/-! Descriptors -/

namespace Copy
/-- CFLAGS and its bits (R177). -/
def flags (c : Copy) : Nat := fieldAt c.desc 2 1
/-- DUP. -/
def dup (c : Copy) : Bool := c.flags.testBit 1
/-- DONE. -/
def doneKind (c : Copy) : Nat := c.flags / 8 % 4
/-- REMOTE. -/
def isRemote (c : Copy) : Bool := c.flags.testBit 5
/-- ORIGIN of a dimension. -/
def origin (c : Copy) (d : Nat) : Int := signedOf 32 (fieldAt c.desc (8 + 4 * d) 4)
/-- BOX of a dimension. -/
def box (c : Copy) (d : Nat) : Nat := fieldAt c.desc (32 + 4 * d) 4
/-- SCR. -/
def scr (c : Copy) : Nat := fieldAt c.desc 56 8
/-- DADDR. -/
def daddr (c : Copy) : Nat := fieldAt c.desc 64 8
/-- DVAL. -/
def dval (c : Copy) : Word := BitVec.ofNat 64 (fieldAt c.desc 72 8)
/-- RECADDR. -/
def recaddr (c : Copy) : Nat := fieldAt c.desc 120 8
/-- SRC, DST and LEN of cpmem. -/
def src (c : Copy) : Nat := fieldAt c.desc 96 8
def dst (c : Copy) : Nat := fieldAt c.desc 104 8
def len (c : Copy) : Nat := fieldAt c.desc 112 8
/-- Does the copy write the tensor? -/
def writes (c : Copy) : Bool := decide (c.kind = 1 ∨ c.kind = 3)
/-- Does it take its rows by index? -/
def byRow (c : Copy) : Bool := decide (c.kind = 2 ∨ c.kind = 3)
end Copy

/-- The fields of a descriptor that R177 reserves for a kind are zero, and DONE and DTGT name something. -/
def copyDescOk (kind : Nat) (d : List Byte) : Bool :=
  let cf := fieldAt d 2 1
  let z (o n : Nat) : Bool := decide (fieldAt d o n = 0)
  decide (cf < 64) && decide (cf / 8 % 4 ≠ 3) && z 3 1 && (decide (kind = 3) || !cf.testBit 1) &&
    (if kind = 4 then !cf.testBit 0 && z 0 2 && z 8 48 && z 56 8 && z 88 8 else z 104 16) &&
    (decide (2 ≤ kind) || z 96 8) && (!cf.testBit 5 || (z 87 1 && decide (fieldAt d 80 1 < 160)))

/-! The box -/

/-- The coordinates of element n of a box, last dimension fastest. -/
def boxCoords : List Nat → Nat → List Nat
  | [], _ => []
  | b :: r, n => (n / (r.prod)) % (if b = 0 then 1 else b) :: boxCoords r n

/-- The number of an element from its coordinates. -/
def boxNumber (box coords : List Nat) : Nat := (box.zip coords).foldl (fun n x => n * x.1 + x.2) 0

/-- The extents of the box of a copy of a tensor. -/
def Copy.boxOf (c : Copy) (t : Shape) : List Nat := t.dims.map c.box

/-- Elements of the box. -/
def Copy.elements (c : Copy) (t : Shape) : Nat := (c.boxOf t).prod

/-- The global index of element n of the box (R179). -/
def Copy.index (c : Copy) (t : Shape) (n : Nat) : List Int :=
  (t.dims.zip (boxCoords (c.boxOf t) n)).map fun x =>
    if x.1 = 0 ∧ c.byRow then c.rows.getD x.2 0 else c.origin x.1 + (x.2 : Int)

/-- The box in blocks along the blocking dimension (R42). -/
def Copy.blockBox (c : Copy) (t : Shape) : List Nat := t.dims.map fun d => if d = t.blkdim then c.box d / 32 else c.box d

/-- Units that a copy moves one by one: bytes of cpmem, elements, or whole blocks of an MX tensor with their scale. -/
def Copy.units (c : Copy) (t : Shape) : Nat :=
  if c.kind = 4 then c.len else if t.fmt.isMx then (c.blockBox t).prod else c.elements t

/-- The elements of a unit. -/
def Copy.unitElems (c : Copy) (t : Shape) (u : Nat) : List Nat :=
  if t.fmt.isMx then
    let b := boxCoords (c.blockBox t) u
    (List.range 32).map fun i =>
      boxNumber (c.boxOf t) ((t.dims.zip b).map fun x => if x.1 = t.blkdim then 32 * x.2 + i else x.2)
  else [u]

/-- Bytes of the first u units, as the barrier counts them (R183): element bytes and scale bytes. -/
def Copy.bytesTo (c : Copy) (t : Shape) (u : Nat) : Nat :=
  if c.kind = 4 then u else if t.fmt.isMx then u * (Loop.blockBytes t.fmt + 1) else (u * t.fmt.bits + 7) / 8

/-- Bytes of the scratchpad image: the elements, and an MX tensor's scales from the next 64-byte boundary (R179). -/
def Copy.imageBytes (c : Copy) (t : Shape) : Nat :=
  let e := (c.elements t * t.fmt.bits + 7) / 8
  if t.fmt.isMx then (e + 63) / 64 * 64 + c.units t else e

/-- Where an element lies, or none outside (R10, R160): the package and the linear offset; and the faults met on the way, a write into a
halo among them, which hides none of the others (R178, R383). -/
def State.copyPlace (s : State) (c : Copy) (t : Shape) (n : Nat) : List Code × Option (BitVec 48 × Nat) :=
  let r := resolve s.mesh s.self t c.map (if c.writes then .write else .read) (c.index t n)
  let halo := decide (r = .error .haloWrite)
  match (if halo then resolve s.mesh s.self t c.map .reduce (c.index t n) else r) with
  | .error e => ([e], none)
  | .ok .outside => ([], none)
  | .ok (.at_ pkg pos) =>
    let off := t.linear pos
    ((if halo then [Code.haloWrite] else []) ++ (if t.boundn ≤ off then [Code.bound] else []) ++
      (if pkg ≠ s.package && (inScratch t.base || inScratch t.scale) then [Code.translation] else []), some (pkg, off))

/-! Checks at issue -/

/-- The check of a window object of n bytes (R178). -/
def State.windowCheck (s : State) (va n align : Nat) : Option Code :=
  match s.windowOperand va n align with | .ok _ => none | .error c => some c

/-- The check of an address range that may lie in a window or in global memory, which is translated only later (R178, R183), but gives no
access at reduced service (R31). -/
def State.lateCheck (s : State) (va n align : Nat) : Option Code :=
  if 2 ^ 57 ≤ va then some .addrRange
  else if va % align ≠ 0 then some .misalign
  else if 2 ^ 57 < va + n then some .addrRange
  else if inScratch va then (match window s.cur.core s.here va n with | .error c => some c | .ok _ => none)
  else if s.level ≠ .full then some .translation
  else none

/-- The lowest of some fault codes (R383). -/
def lowest : List (Option Code) → Option Code
  | [] => none
  | none :: r => lowest r
  | some c :: r => match lowest r with | some d => some (if c.toNat ≤ d.toNat then c else d) | none => some c

/-- The first byte, the bytes and the shift of w bits from a bit address. -/
def bitSpan (b w : Nat) : Nat × Nat × Nat := (b / 8, (b % 8 + w + 7) / 8, b % 8)

/-- What a copy moves as one: an element or a block's scale, at a bit of the scratchpad image, and its place in the tensor: the package
and the bit address, or none outside (R160, R179). -/
structure CopyItem where
  place : Option (BitVec 48 × Nat)
  image : Nat
  width : Nat
  /-- The element's number, or the block's. -/
  scale : Bool
  no : Nat
  deriving DecidableEq, Repr

/-- The byte address of the scale of the block at a linear offset of its first element (R160). -/
def Shape.scaleVa (t : Shape) (e : Nat) : Nat := t.scale + e / 32

/-- An element of a copy, after its faults. -/
def State.elemItem (s : State) (c : Copy) (t : Shape) (n : Nat) : List Code × CopyItem :=
  let p := s.copyPlace c t n
  (p.1, ⟨p.2.map fun x => (x.1, t.elemBit x.2 % 2 ^ 67), n * t.fmt.bits, t.fmt.bits, false, n⟩)

/-- The scale of a block of a copy of an MX tensor, which lies with the block's first element. -/
def State.scaleItem (s : State) (c : Copy) (t : Shape) (u : Nat) : List Code × CopyItem :=
  let p := s.copyPlace c t ((c.unitElems t u).headD 0)
  (p.1, ⟨p.2.map fun x => (x.1, 8 * (t.scaleVa x.2 % 2 ^ 64)), 8 * (((c.elements t * t.fmt.bits + 7) / 8 + 63) / 64 * 64 + u), 8, true, u⟩)

/-- Everything that a copy of a tensor moves: its elements in order, then its scales (R179), each after the faults of its place. -/
def State.copyItems (s : State) (c : Copy) (t : Shape) : List (List Code × CopyItem) :=
  (List.range (c.elements t)).map (s.elemItem c t) ++ (if t.fmt.isMx then (List.range (c.units t)).map (s.scaleItem c t) else [])

/-- Those without a fault. -/
def State.goodItems (s : State) (c : Copy) (t : Shape) : List CopyItem :=
  ((s.copyItems c t).filter fun x => x.1.isEmpty).map fun x => x.2

/-- The check of the place of an element or a scale (R160, R178): the lowest of its faults and its address's. At reduced service global
memory raises TRANSLATION (R31). -/
def State.itemCheck (s : State) (x : List Code × CopyItem) : Option Code :=
  let address : Option Code :=
    match x.2.place with
    | none => none
    | some (pkg, b) =>
      let (va, n, _) := bitSpan b x.2.width
      let al := if x.2.width % 8 = 0 then n else 1
      if pkg = s.package then s.lateCheck va n al
      else if 2 ^ 57 ≤ va then some .addrRange
      else if va % al ≠ 0 then some .misalign
      else if 2 ^ 57 < va + n then some .addrRange
      else if s.level ≠ .full then some .translation
      else none
  lowest (address :: x.1.map some)

/-- The checks of a copy's completion object and record (R177, R178, R184). -/
def State.doneChecks (s : State) (c : Copy) : List (Option Code) :=
  let n := if c.doneKind = 1 then 16 else 8
  let obj : Option Code :=
    if c.doneKind = 0 then none
    else if c.isRemote then
      (if 2 ^ 57 ≤ c.daddr then some .addrRange
       else if c.daddr % n ≠ 0 then some .misalign
       else if taskWindow ≤ c.daddr ∧ c.daddr < taskWindow + windowSize then none else some .translation)
    else s.windowCheck c.daddr n n
  [obj, if c.recaddr = 0 then none else s.lateCheck c.recaddr 32 32]

/-- The checks of a tensor copy that come after its record, count and indices have been read (R178, R179, R336). -/
def State.boxChecks (s : State) (c : Copy) (t : Shape) : Option Code :=
  let high := (List.range 6).any fun d => decide (t.rank ≤ d) && (decide (c.origin d ≠ 0) || decide (c.box d ≠ 0))
  let n := c.elements t
  if high || (c.byRow && decide (4096 < c.box 0)) || decide (2 ^ 31 - 1 < c.imageBytes t) ||
      (decide (c.kind = 3) && !c.dup && t.fmt.isMx) ||
      (t.fmt.isMx && (decide (c.box t.blkdim % 32 ≠ 0) || decide (c.origin t.blkdim % 32 ≠ 0))) then some .illegal
  else
    lowest ([if t.boundn < n then some Code.bound else none, s.windowCheck c.scr (Nat.max 1 (c.imageBytes t)) 64] ++
      (s.copyItems c t).map s.itemCheck ++ s.doneChecks c)

/-- The scratchpad bytes of a copy, what it may read and what it may write, its completion object and record among them (R272). -/
def State.copyRanges (s : State) (c : Copy) (t : Shape) : Option (Nat × Nat) × Option (Nat × Nat) :=
  let k := s.here
  let part (va n : Nat) : List (Nat × Nat) := spadPart s.cur.core k ((va : Int), ((va + n : Nat) : Int))
  let ends := (if c.doneKind = 0 ∨ c.isRemote then [] else part c.daddr (if c.doneKind = 1 then 16 else 8)) ++
    (if c.recaddr = 0 then [] else part c.recaddr 32)
  if c.kind = 4 then (hull (part c.src c.len), hull (part c.dst c.len ++ ends))
  else
    let image := part c.scr (c.imageBytes t)
    let side := (s.goodItems c t).flatMap fun x =>
      match x.place with
      | some (pkg, b) => if pkg = s.package then let (va, n, _) := bitSpan b x.width; part va n else []
      | none => []
    if c.writes then (hull image, hull (side ++ ends)) else (hull side, hull (image ++ ends))

/-- Replaces a little-endian field of a block. -/
def putField (b : List Byte) (off n v : Nat) : List Byte := b.take off ++ toBytes n v ++ b.drop (off + n)

/-- Reads the count under CNT and the row indices of a copy (R177, R178). The overlap checker sees these reads at the issue. -/
def State.readRows (s : State) (c : Copy) : Except Code (Copy × State) :=
  let cnt : Except Code (Copy × State) :=
    if c.kind ≠ 4 ∧ c.flags.testBit 0 then
      match s.blockPlace (fieldAt c.desc 88 8) 4 4 .read with
      | .error e => .error e
      | .ok _ =>
        let (b, s) := s.load (fieldAt c.desc 88 8) 4
        .ok ({ c with desc := putField (putField c.desc 2 1 (c.flags - 1)) 32 4 (ofBytes b) }, s)
    else .ok (c, s)
  match cnt with
  | .error e => .error e
  | .ok (c, s) =>
    if c.byRow then
      if 4096 < c.box 0 then .error .illegal
      else if c.box 0 = 0 then .ok (c, s)
      else
        match s.blockPlace c.src (4 * c.box 0) 4 .read with
        | .error e => .error e
        | .ok _ =>
          let (b, s) := s.load c.src (4 * c.box 0)
          .ok ({ c with rows := (List.range (c.box 0)).map fun i => signedOf 32 (fieldAt b (4 * i) 4) }, s)
    else .ok (c, s)

/-- A copy as its descriptor gives it, before the record and the rows are read. -/
def State.newCopy (s : State) (kind : Nat) (desc : List Byte) : Copy :=
  { core := s.cur.core, inst := s.here.inst, seq := s.nextNumber, kind := kind, desc := desc, asid := s.here.sys.asid
    shape := [], shapeAddr := 0, map := 0, rows := [], pred0 := s.here.pend0, pred1 := s.here.pend1, again := false, engine := none
    landed := [], bytes := 0, events := 0, signalled := false }

/-- Its predecessors. -/
def Copy.preds (c : Copy) : List (BitVec 32) := c.pred0.toList ++ c.pred1.toList

/-- The shape of a copy, an empty one for cpmem. -/
def Copy.shapeRec (c : Copy) : Shape :=
  (shapeOf c.shapeAddr c.shape).getD
    ⟨0, 1, .n8, 0, false, false, 0, 0, 0, [1], [1], 0, 0, 0, 0⟩

/-- The copy that an issue forks, with every check of R178 made, or the fault (R177 to R179). -/
def State.prepareCopy (s : State) (c : Copy) : Except Code (Copy × State) :=
  if !copyDescOk c.kind c.desc then .error .illegal
  else if c.kind = 4 then
    if 2 ^ 31 - 1 < c.len then .error .illegal
    else
      match lowest ([s.lateCheck c.src c.len 1, s.lateCheck c.dst c.len 1] ++ s.doneChecks c) with
      | some e => .error e
      | none => .ok (c, s)
  else
    match s.readShape (fieldAt c.desc 0 2) with
    | .error e => .error e
    | .ok (t, s) =>
      match s.mapOf .sq t, s.readRows c with
      | .error e, _ => .error e
      | _, .error e => .error e
      | .ok m, .ok (c, s) =>
        let (b, s) := s.load t.recVa 128
        let c := { c with shape := (s.lockShape (s.recKey t.recVa)).getD b, shapeAddr := t.recVa, map := m }
        match s.boxChecks c t with
        | some e => .error e
        | none => .ok (c, s)

/-- The key of a copy's completion object in a scratchpad window, by which waiting instructions join it (R272). -/
def State.completionKey (s : State) (c : Copy) : Option Word :=
  match s.windowOperand c.daddr 8 8 with
  | .ok key => if c.doneKind = 0 ∨ c.isRemote then none else some (BitVec.ofNat 64 key)
  | .error _ => none

/-- What the issue of a copy reads: its descriptor, its record, the count and the row indices (R178). -/
def Copy.issueReads (c : Copy) (va : Nat) (desc : List Byte) : List (Nat × Nat) :=
  [(va, 128)] ++ (if c.kind = 4 then [] else [(c.shapeAddr, 128)]) ++
    (if c.kind ≠ 4 ∧ (fieldAt desc 2 1).testBit 0 then [(fieldAt desc 88 8, 4)] else []) ++ (if c.byRow then [(c.src, 4 * c.box 0)] else [])

/-- Issues a copy of a kind: its checks, the overlap checker and the lock of a record that a reshard moves last, by their codes (R178,
R272, R336, R383). -/
def copyWord (kind : Nat) (sd sa : SReg) (s : State) : Res :=
  let va := (s.rdS .sq sa).toNat
  if !s.here.predsOk then s.trap .sq .illegal
  else if !s.here.canNumber then s.stall .sq
  else
    orTrap s .sq (s.blockPlace va 128 128 .read) fun _ =>
      let (desc, s') := s.load va 128
      orTrap s .sq (s'.prepareCopy (s'.newCopy kind desc)) fun cs =>
        let c := cs.1
        let (rd, wr) := s.copyRanges c c.shapeRec
        if s.conflicts .sq (s.spadRanges (c.issueReads va desc)) false || s.issueConflict .sq rd wr s.here.preds then
          s.trap .sq .overlap
        else if c.writes && (s.lockOf (s.recKey c.shapeAddr)).isSome then s.trap .sq .mapLocked
        else
          let s := cs.2.takeNumber sd rd wr ((s.completionKey c).map BitVec.toNat)
          ({ s with copies := s.copies ++ [c] } : State).done .sq

/-- Copies a box of a tensor to the scratchpad (R179). -/
def execCpld (sd sa : SReg) (s : State) : Res := copyWord 0 sd sa s
/-- Copies a scratchpad image to a box of a tensor (R179). -/
def execCpst (sd sa : SReg) (s : State) : Res := copyWord 1 sd sa s
/-- Gathers rows of a tensor (R179). -/
def execCpg (sd sa : SReg) (s : State) : Res := copyWord 2 sd sa s
/-- Scatters rows to a tensor (R179, R180). -/
def execCpsc (sd sa : SReg) (s : State) : Res := copyWord 3 sd sa s
/-- Copies bytes (R179). -/
def execCpmem (sd sa : SReg) (s : State) : Res := copyWord 4 sd sa s

/-! The copy thread -/

/-- The 32 bytes of a completion record (R182). -/
def recordBytes (seq : BitVec 32) (core status : Nat) (fault : Code) (faddr bytes events : Nat) : List Byte :=
  toBytes 4 seq.toNat ++ toBytes 2 core ++ toBytes 1 status ++ [fault] ++ toBytes 8 faddr ++ toBytes 8 bytes ++ toBytes 4 events ++
    toBytes 4 0

/-- Writes bytes at a window address of a core or at package scope in global memory (R143). -/
def State.commandWrite (s : State) (c : Nat) (asid : BitVec 12) (va : Nat) (bs : List Byte) : Except Code State :=
  if 2 ^ 57 < va + bs.length then .error .addrRange
  else
    match window c (s.core c) va bs.length with
    | .ok (.spad key) => .ok { s with spad := Bank.setRun 0 s.spad key bs }
    | .ok .glob => writeHome c asid (pieces bs.length va bs.length) bs s
    | .error e => .error e

/-- Reads bytes as commandWrite writes them. -/
def State.commandRead (s : State) (c : Nat) (asid : BitVec 12) (va n : Nat) : Except Code (List Byte) :=
  if 2 ^ 57 < va + n then .error .addrRange
  else
    match window c (s.core c) va n with
    | .ok (.spad key) => .ok (Bank.getRun 0 s.spad key n)
    | .ok .glob => readHome s c asid (pieces n va n)
    | .error e => .error e

/-- Removes a copy and retires its number (R268). -/
def State.endCopy (s : State) (c : Copy) : State :=
  ({ s with copies := s.copies.filter fun d => !decide (d.inst = c.inst ∧ d.seq = c.seq) }).retireCmd c.inst c.seq

/-- The asynchronous event of a copy (R183, R184). -/
def State.copyEvent (s : State) (c : Copy) (code : Code) (addr : Nat) : State :=
  s.commandEvent c.core c.inst ((s.taskOf c.inst).getD 0) code 0 c.seq addr

/-- A copy writes its record, where it has one, and ends, with an action between the two; a record that cannot be written is a fault
after issue (R182, R183). -/
def State.closeCopy (s : State) (c : Copy) (status : Nat) (fault : Code) (faddr : Nat) (act : State → State) : State :=
  if c.recaddr = 0 then (act s).endCopy c
  else
    match s.commandWrite c.core c.asid c.recaddr (recordBytes c.seq c.core status fault faddr c.bytes c.events.toNat) with
    | .ok s => (act s).endCopy c
    | .error e => (s.endCopy c).copyEvent c e c.recaddr

/-- Puts a copy back among the others. -/
def State.putCopy (s : State) (c : Copy) : State :=
  { s with copies := s.copies.map fun d => if d.inst = c.inst ∧ d.seq = c.seq then c else d }

/-- Writes of a copy to other packages that are not yet performed there (R143). -/
def State.copyWriting (s : State) (c : Copy) : Bool :=
  (s.core c.core).remote.any fun r => r.write && decide (r.eng = 8 ∧ r.cmd = some c.seq)

/-- A fault after issue ends the copy once every write that it has sent is performed (R143, R183); of its record and its event, the event
is left where the record cannot be written. -/
def State.failCopy (s : State) (c : Copy) (code : Code) (faddr : Nat) : State :=
  if s.copyWriting c then s.putCopy { c with failing := some (code, faddr) }
  else
    let s := match s.commandWrite c.core c.asid c.recaddr (recordBytes c.seq c.core 1 code faddr c.bytes c.events.toNat) with
      | .ok t => if c.recaddr = 0 then s else t
      | .error _ => s
    (s.endCopy c).copyEvent c code faddr

/-- A copy of a task of a core, by its number. -/
def State.copyOf (s : State) (core : Nat) (seq : BitVec 32) : Option Copy :=
  s.copies.find? fun c => decide (c.core = core ∧ c.seq = seq)

/-- Why the record cannot be written, a fault that comes before a signal (R183, R184). -/
def State.recordFault (s : State) (c : Copy) : Option Code :=
  if c.recaddr = 0 then none
  else match s.commandWrite c.core c.asid c.recaddr (List.replicate 32 0) with | .ok _ => none | .error e => some e

/-- The signal of a copy that moved a number of bytes (R184). -/
def Copy.signal (c : Copy) (total : Nat) : Signal :=
  ⟨fieldAt c.desc 80 1, BitVec.ofNat 32 (fieldAt c.desc 4 4), BitVec.ofNat 64 c.daddr, decide (c.doneKind = 2),
    if c.doneKind = 1 then BitVec.ofNat 64 total else c.dval⟩

/-- The package that a remote signal goes to. -/
def Copy.target (c : Copy) : BitVec 48 := BitVec.ofNat 48 (fieldAt c.desc 81 6)

/-- Bytes of the box: elements and scales, or those of cpmem (R183). -/
def Copy.total (c : Copy) (t : Shape) : Nat :=
  if c.kind = 4 then c.len else (c.elements t * t.fmt.bits + 7) / 8 + (if t.fmt.isMx then c.units t else 0)

/-- The fate of a copy's remote signal: its record, then it retires (R184). -/
def State.signalFate (s : State) (c : Copy) (ok : Bool) : State :=
  if ok then s.closeCopy c 0 0 0 id else (s.closeCopy c 3 0 0 id).copyEvent c .targetAbsent 0

/-- A copy's remote signal goes out, where its core has a slot for it (R184, R346). -/
def State.sendSignal (s : State) (c : Copy) (total : Nat) : State :=
  let g := c.signal total
  let pkg := c.target
  if pkg = s.package then
    match s.deliverSignal g with
    | none => s.putCopy { c with signalled := true }
    | some (ok, s) => s.signalFate c ok
  else if (s.core c.core).slotFree pkg then
    let u := ({ s with cur := { s.cur with core := c.core } } : State).sendOut pkg 8 true (some c.seq) fun tag => .signal pkg tag g
    ({ u with cur := s.cur } : State).putCopy { c with signalled := true }
  else s.putCopy c

/-- Everything has landed: the record, then the action on the completion object; last is the byte count that the last packet
subtracts (R183, R184). -/
def State.finishCopy (s : State) (c : Copy) (total last : Nat) : State :=
  match s.recordFault c with
  | some e => s.failCopy c e c.recaddr
  | none =>
    if c.isRemote ∧ c.doneKind ≠ 0 then s.sendSignal c total
    else
      s.closeCopy c 0 0 0 fun s =>
        match c.doneKind with
        | 1 => s.applySignal c.core c.daddr false (BitVec.ofNat 64 last)
        | 2 => s.applySignal c.core c.daddr true c.dval
        | _ => s

/-- What a copy that is issued again reads when it starts, or the fault and its address (R303). -/
def State.rereadCopy (s : State) (c : Copy) : Except (Code × Nat) (Copy × State) :=
  if !c.again ∨ c.kind = 4 then .ok (c, s)
  else
    let va := (s.here.tcb.shapebase.toNat + 128 * fieldAt c.desc 0 2) % 2 ^ 64
    match s.readShape (fieldAt c.desc 0 2) with
    | .error e => .error (e, va)
    | .ok (t, s) =>
      match s.mapOf .sq t, s.readRows c with
      | .error e, _ => .error (e, va)
      | _, .error e => .error (e, c.src)
      | .ok m, .ok (c, s) =>
        let (b, s) := s.load t.recVa 128
        .ok ({ c with shape := (s.lockShape (s.recKey t.recVa)).getD b, shapeAddr := t.recVa, map := m }, s)

/-! Landing. A copy lands by parts of its destination: by 64-byte chunks here, each of which is wholly old or wholly new (R192), and by
lines of another package, for each of which there is one request (R345). -/

/-- A part of a copy's destination: a chunk of this package, or a line of another. -/
inductive CopyPart where
  | chunk (va : Nat)
  | line (pkg : BitVec 48) (va : Nat)
  deriving DecidableEq, Repr

namespace CopyPart
/-- First bit and bits of a part. -/
def base : CopyPart → Nat
  | .chunk va => 8 * va
  | .line _ va => 8 * va
/-- Bits of a part. -/
def size : CopyPart → Nat
  | .chunk _ => 512
  | .line _ _ => 1024
end CopyPart

/-- The chunks of n bytes at va. -/
def chunksAt (va n : Nat) : List CopyPart :=
  if n = 0 then [] else (List.range ((va % 64 + n + 63) / 64)).map fun i => .chunk ((va / 64 + i) * 64)

/-- The parts that an item of a writing copy lies in. -/
def State.itemParts (s : State) (i : CopyItem) : List CopyPart :=
  match i.place with
  | none => []
  | some (pkg, b) =>
    let (va, n, _) := bitSpan b i.width
    if pkg = s.package then chunksAt va n else ([va, va + n - 1].map fun a => CopyPart.line pkg (a / 128 * 128)).eraseDups

/-- The parts of a copy's destination, in their order. -/
def State.copyParts (s : State) (c : Copy) (t : Shape) : List CopyPart :=
  if c.kind = 4 then chunksAt c.dst c.len
  else if c.writes then ((s.goodItems c t).flatMap s.itemParts).eraseDups
  else chunksAt c.scr (c.imageBytes t)

/-- Does a copy write an item's bits, and where: the bit address, in the image or in the tensor, if it lies in the part. -/
def State.landsIn (s : State) (c : Copy) (p : CopyPart) (i : CopyItem) : Option Nat :=
  let at_ : Option Nat :=
    match c.writes, p, i.place with
    | false, .chunk _, _ => some (8 * c.scr + i.image)
    | true, .chunk _, some (pkg, b) => if pkg = s.package then some b else none
    | true, .line q _, some (pkg, b) => if pkg = q ∧ pkg ≠ s.package then some b else none
    | _, _, _ => none
  match at_ with
  | some b => if b < p.base + p.size ∧ p.base < b + i.width then some b else none
  | none => none

/-- Bits at a bit address as they lie in a part. -/
def CopyPart.shift (p : CopyPart) (b x : Nat) : Nat := (if p.base ≤ b then x <<< (b - p.base) else x >>> (p.base - b)) % 2 ^ p.size

/-- The bits of a part that a copy writes. -/
def State.partMask (s : State) (c : Copy) (t : Shape) (p : CopyPart) : Nat :=
  (s.goodItems c t).foldl (fun m i => match s.landsIn c p i with | some b => m ||| p.shift b (ones i.width) | none => m) 0

/-- Bytes of a part that a cpmem writes: from the destination's offset, and how many. -/
def Copy.memSpan (c : Copy) (va : Nat) : Nat × Nat := (Nat.max c.dst va - c.dst, Nat.min (c.dst + c.len) (va + 64) - Nat.max c.dst va)

/-- Bytes that the packet of a part counts (R183). -/
def State.partBytes (s : State) (c : Copy) (t : Shape) (p : CopyPart) : Nat :=
  match c.kind, p with
  | 4, .chunk va => (c.memSpan va).2
  | _, _ => ((List.range p.size).filter fun i => (s.partMask c t p).testBit i).length / 8

/-- Parts of a range have not landed yet. -/
def Copy.fresh (c : Copy) (first count : Nat) : Bool := c.landed.all fun x => decide (first + count ≤ x.1 ∨ x.2 ≤ first)

/-- Parts that have landed. -/
def Copy.landedUnits (c : Copy) : Nat := (c.landed.map fun x => x.2 - x.1).sum

/-- Choices of a copy: in deterministic mode they do not depend on when it runs (R34). -/
def State.copyTick (s : State) (c : Copy) : Nat := if (s.core c.core).sys.det then 2 ^ 64 + c.seq.toNat else s.free

/-- The generation that a copy's writes carry (R161). -/
def Copy.gen (c : Copy) (t : Shape) : Option GenRef := if t.genchk then some ⟨t.gen, c.asid, c.core, t.recVa⟩ else none

/-- The bytes of other packages that a copy has fetched. -/
def Copy.fetched (c : Copy) (pkg : BitVec 48) (va : Nat) : Byte :=
  match c.lines.find? fun l => decide (l.1 = pkg ∧ l.2.1 = va / 128 * 128) with
  | some l => l.2.2.getD (va % 128) 0
  | none => 0

/-- Reads w bits at a bit address for a command (R160). -/
def State.readBits (s : State) (c : Nat) (asid : BitVec 12) (b w : Nat) : Except (Code × Nat) Nat :=
  let (va, n, sh) := bitSpan b w
  match s.commandRead c asid va n with
  | .ok bs => .ok (ofBytes bs / 2 ^ sh % 2 ^ w)
  | .error e => .error (e, va)

/-- Such a read leaves its translations behind (R134, R138). -/
def State.learnBits (s : State) (c : Nat) (asid : BitVec 12) (b w : Nat) : State :=
  let (va, n, _) := bitSpan b w
  learnPieces c asid (pieces n va n) s

/-- A row of cpsc is combined with the rows of the same index: the rows that contribute to row r, of which the last writes (R180). -/
def Copy.group (c : Copy) (r : Nat) : List Nat :=
  (List.range (c.box 0)).filter fun i => decide (c.rows.getD i 0 = c.rows.getD r 0)

/-- The value that a scatter without DUP writes for element n, from every row of its index, and its events (R180). -/
def State.combined (s : State) (c : Copy) (t : Shape) (n : Nat) : Except (Code × Nat) (Nat × Flags) :=
  let per := ((c.boxOf t).drop 1).prod
  let vals := (c.group (n / per)).map fun i => s.readBits c.core c.asid (8 * c.scr + (i * per + n % per) * t.fmt.bits) t.fmt.bits
  match vals.find? fun v => match v with | .error _ => true | .ok _ => false with
  | some (.error e) => .error e
  | _ =>
    let xs := vals.map fun v => match v with | .ok x => elemValue t.fmt x | .error _ => .nan
    if t.fmt.isInt then .ok (wrapNat t.fmt.bits (xs.map (Exact.numer 1)).sum, 0)
    else
      let (x, f1) := Exact.sum xs
      let (y, f2) := roundTo t.fmt .rne 0 x
      .ok (y, f1 ||| f2)

/-- The value that a copy moves for an item, and its events: FILL outside, and a free scale (R179). -/
def State.itemValue (s : State) (c : Copy) (t : Shape) (i : CopyItem) : Except (Code × Nat) (Nat × Flags) :=
  let plain (x : Except (Code × Nat) Nat) : Except (Code × Nat) (Nat × Flags) := match x with | .ok v => .ok (v, 0) | .error e => .error e
  if c.writes then
    if c.kind = 3 ∧ c.dup = false ∧ i.scale = false then s.combined c t i.no else plain (s.readBits c.core c.asid (8 * c.scr + i.image) i.width)
  else
    match i.place with
    | none => .ok (if i.scale then Config.pick (s.copyTick c) i.no % 256 else t.fill, 0)
    | some (pkg, b) =>
      if pkg = s.package then plain (s.readBits c.core c.asid b i.width)
      else
        let (va, n, sh) := bitSpan b i.width
        .ok (ofBytes ((List.range n).map fun j => c.fetched pkg (va + j)) / 2 ^ sh % 2 ^ i.width, 0)

/-- The value of a part, the bits that it writes, and the events. Items come in ascending order, so that of several for one element the
last is left (R180). -/
def State.partValue (s : State) (c : Copy) (t : Shape) (p : CopyPart) : List CopyItem → Nat × Nat × Flags → Except (Code × Nat) (Nat × Nat × Flags)
  | [], acc => .ok acc
  | i :: r, (v, m, f) =>
    match s.landsIn c p i with
    | none => s.partValue c t p r (v, m, f)
    | some b =>
      match s.itemValue c t i with
      | .error e => .error e
      | .ok (x, g) => s.partValue c t p r (blend v (p.shift b x) (p.shift b (ones i.width)), m ||| p.shift b (ones i.width), f ||| g)

/-- What a copy reads of this package for a part leaves its translations behind (R135). -/
def State.partLearn (s : State) (c : Copy) (p : CopyPart) (items : List CopyItem) : State :=
  if c.writes then s
  else
    items.foldl (fun s i =>
      match s.landsIn c p i, i.place with
      | some _, some (pkg, b) =>
        if pkg = s.package then s.learnBits c.core c.asid b i.width else s
      | _, _ => s) s

/-- The lines of other packages that a part needs: the sources of a reading copy, and of a line of which a writing copy writes only part
of a byte, the line itself. -/
def State.partNeeds (s : State) (c : Copy) (t : Shape) (p : CopyPart) (items : List CopyItem) : List (BitVec 48 × Nat) :=
  if c.writes then
    match p with
    | .line pkg va =>
      let m := s.partMask c t p
      if (List.range 128).all fun i => decide ((m >>> (8 * i)) % 256 = 0 ∨ (m >>> (8 * i)) % 256 = 255) then [] else [(pkg, va)]
    | .chunk _ => []
  else
    (items.flatMap fun i => match s.landsIn c p i, i.place with
      | some _, some (pkg, b) =>
        let (va, n, _) := bitSpan b i.width
        if pkg = s.package then [] else [(pkg, va / 128 * 128), (pkg, (va + n - 1) / 128 * 128)]
      | _, _ => []).eraseDups

/-- The bytes that a mask touches, by offset. -/
def touchedBytes (n m : Nat) : List Nat := (List.range n).filter fun i => decide ((m >>> (8 * i)) % 256 ≠ 0)

/-- New bytes over old ones by a bit mask. -/
def mergeBytes (get : Nat → Byte) (set : Nat → Byte → State → State) (v m n : Nat) (s : State) : State :=
  (touchedBytes n m).foldl (fun s i =>
    set i (BitVec.ofNat 8 (blend (get i).toNat ((v >>> (8 * i)) % 256) ((m >>> (8 * i)) % 256))) s) s

/-- Writes the bits of a chunk of this package for a copy, under the generation that it carries (R143, R161). -/
def State.writeChunk (s : State) (c : Copy) (g : Option GenRef) (va v m : Nat) : Except (Code × Nat) State :=
  if m = 0 then .ok s
  else
    match window c.core (s.core c.core) va 64 with
    | .error e => .error (e, va)
    | .ok (.spad key) =>
      .ok (mergeBytes (fun i => Bank.get 0 s.spad (key + i)) (fun i b s => { s with spad := Bank.set 0 s.spad (key + i) b }) v m 64 s)
    | .ok .glob =>
      let checked := match translate s (dieOf c.core) c.asid va with
        | .ok t => pageCheck .write t
        | .error e => .error e
      match checked with
      | .error e => .error (e, va + (touchedBytes 64 m).headD 0)
      | .ok t =>
        let (ok, s) := admitGen (learn s (dieOf c.core) c.asid va t) (t.phys / 128) g
        if ok then
          .ok (mergeBytes (fun i => Bank.get 0 s.hbm (t.phys + i)) (fun i b s => putHome s (t.phys + i) [b]) v m 64 s)
        else .ok s

/-- A byte of the destination lies in the source of a cpmem (R179). -/
def State.inSource (s : State) (c : Copy) (a : Nat) : Bool :=
  let key (va : Nat) : Option Nat := match window c.core (s.core c.core) va 1 with | .ok (.spad k) => some k | _ => none
  decide (c.src ≤ a ∧ a < c.src + c.len) || match key a, key c.src with | some x, some y => decide (y ≤ x ∧ x < y + c.len) | _, _ => false

/-- The regions of a cpmem overlap. -/
def State.selfOverlap (s : State) (c : Copy) : Bool := decide (0 < c.len) && (s.inSource c c.dst || s.inSource c (c.dst + c.len - 1))

/-- The chunk of a cpmem: each byte of an overlap is its old or its copied value (R179). -/
def State.memChunk (s : State) (c : Copy) (va : Nat) : Except (Code × Nat) State :=
  let (off, n) := c.memSpan va
  let src : Except (Code × Nat) (List Byte) :=
    if c.kept.isEmpty then match s.commandRead c.core c.asid (c.src + off) n with | .ok bs => .ok bs | .error e => .error (e, c.src + off)
    else .ok ((c.kept.drop off).take n)
  match src with
  | .error e => .error e
  | .ok bs =>
    let s := learnPieces c.core c.asid (pieces n (c.src + off) n) s
    let lo := c.dst + off - va
    let stays (i : Nat) : Bool := !c.kept.isEmpty && s.inSource c (c.dst + off + i) && Config.lane (s.copyTick c) 9000 (off + i)
    let m := ((List.range n).filter fun i => !stays i).foldl (fun m i => m ||| ones 8 <<< (8 * (lo + i))) 0
    s.writeChunk c none va (ofBytes bs <<< (8 * lo)) m

/-- Parts first to first + count - 1 have landed (R183): the barrier counts the packet's bytes, the last packet all the rest after the
record; with the last one the copy finishes. -/
def State.partsLanded (s : State) (c : Copy) (t : Shape) (parts first count n : Nat) : State :=
  let c := { c with landed := c.landed ++ [(first, first + count)] }
  let total := c.total t
  if c.landedUnits = parts then
    let done := { c with bytes := total }
    (s.putCopy done).finishCopy done total (total - c.bytes)
  else
    let c := { c with bytes := c.bytes + n }
    let s := s.putCopy c
    if c.doneKind = 1 ∧ c.isRemote = false then s.applySignal c.core c.daddr false (BitVec.ofNat 64 n) else s

/-- A request of a copy to another package, where its core has a slot (R345, R346). -/
def State.askLine (s : State) (c : Copy) (pkg : BitVec 48) (va : Nat) (write : Bool) (m v : Nat) (g : Option GenRef) (recVa : Nat) : State :=
  if (s.core c.core).slotFree pkg then
    let mask : BitVec 128 := (touchedBytes 128 m).foldl (fun a i => a ||| BitVec.ofNat 128 (2 ^ i)) 0
    let u := ({ s with cur := { s.cur with core := c.core } } : State).sendOut pkg 8 write (some c.seq) fun tag =>
      .line ⟨s.package, c.core, c.asid, BitVec.ofNat 64 va, write, mask, if write then toBytes 128 v else [], g.map fun x => x.gen,
        BitVec.ofNat 64 recVa, tag⟩
    ({ u with cur := s.cur } : State).putCopy { c with asked := c.asked ++ [(s.nextId, pkg, va)] }
  else s

/-- Does a copy wait for a line of another package? -/
def Copy.asks (c : Copy) (pkg : BitVec 48) (va : Nat) : Bool := c.asked.any fun x => decide (x.2 = (pkg, va))

/-- Has it come? -/
def Copy.hasLine (c : Copy) (x : BitVec 48 × Nat) : Bool := c.lines.any fun l => decide ((l.1, l.2.1) = x)

/-- Chunks of this package land one after another. -/
def State.landChunks (t : Shape) (items : List CopyItem) : List CopyPart → Copy → State → Except (Code × Nat) (Copy × State)
  | [], c, s => .ok (c, s)
  | .line _ _ :: r, c, s => State.landChunks t items r c s
  | .chunk va :: r, c, s =>
    if c.kind = 4 then
      match s.memChunk c va with
      | .ok s => State.landChunks t items r c s
      | .error e => .error e
    else
      match s.partValue c t (.chunk va) items (0, 0, 0) with
      | .error e => .error e
      | .ok (v, m, f) =>
        match (s.partLearn c (.chunk va) items).writeChunk c (if c.writes then c.gen t else none) va v m with
        | .ok s => State.landChunks t items r { c with events := c.events ||| f } s
        | .error e => .error e

/-- The first bound or index fault: what a copy that was issued again meets only as it runs (R303). -/
def State.itemFault (s : State) (c : Copy) (t : Shape) : Option Code :=
  if c.kind = 4 then none
  else if t.boundn < c.elements t then some .bound
  else (s.copyItems c t).findSome? fun x => lowest (x.1.map some)

/-- A part on another package: its line is fetched first where a byte of it is written in part, then the write goes out (R345). -/
def State.lineOut (s : State) (c : Copy) (t : Shape) (items : List CopyItem) (pkg : BitVec 48) (va : Nat) : State :=
  if c.asks pkg va then s
  else if !(s.partNeeds c t (.line pkg va) items).all c.hasLine then s.askLine c pkg va false 0 0 none 0
  else
    match s.partValue c t (.line pkg va) items (0, 0, 0) with
    | .error e => s.failCopy c e.1 e.2
    | .ok (v, m, f) =>
      let old := ofBytes ((List.range 128).map fun i => c.fetched pkg (va + i))
      s.askLine { c with events := c.events ||| f } pkg va true m (blend old v m) (c.gen t) t.recVa

/-- A packet of a copy from its copy engine: the parts of its destination from first to first + count - 1. Chunks here land at once, once the lines that they
read of other packages have come; a line of another package is written by a request and lands with its acknowledgement
(R181, R183, R345). When every part has landed, a signal that still waits for a slot is tried again. DESIGN CHOICE (log 102): FADDR of an
index check that fails here is the shape record's address. -/
def execCopyPacketLand (core : Nat) (seq : BitVec 32) (engine first count : Nat) (s : State) : Res :=
  if 160 ≤ core then .fault .noSuchUnit
  else if 4 ≤ engine then .fault .noSuchUnit
  else
    match s.copyOf core seq with
    | none => .next s
    | some c =>
      let t := c.shapeRec
      let parts := s.copyParts c t
      let us := (parts.drop first).take count
      if decide (c.engine ≠ some engine) || c.signalled || c.failing.isSome then .next s
      else if c.landedUnits = parts.length then .next (s.finishCopy c (c.total t) 0)
      else if decide (count = 0) || decide (parts.length < first + count) || !c.fresh first count then .next s
      else
        match s.itemFault c t with
        | some e => .next (s.failCopy c e t.recVa)
        | none =>
          let items := s.goodItems c t
          match us.find? fun p => match p with | .line _ _ => true | .chunk _ => false with
          | some (.line pkg va) => .next (if count = 1 then s.lineOut c t items pkg va else s)
          | _ =>
            let needs := (us.flatMap fun p => s.partNeeds c t p items).filter fun x => !c.hasLine x
            match needs.find? fun x => !c.asks x.1 x.2 with
            | some x => .next (s.askLine c x.1 x.2 false 0 0 none 0)
            | none =>
              if needs.isEmpty then
                match State.landChunks t items us c s with
                | .error (code, va) => .next (s.failCopy c code va)
                | .ok (c, s) => .next (s.partsLanded c t parts.length first count (us.map (s.partBytes c t)).sum)
              else .next s

/-- A forked copy starts on a copy engine once its predecessors have retired; an empty one completes (R181, R268, R275). -/
def execCopyStart (core : Nat) (seq : BitVec 32) (engine : Nat) (s : State) : Res :=
  if 160 ≤ core then .fault .noSuchUnit
  else if 4 ≤ engine then .fault .noSuchUnit
  else
    match s.copyOf core seq with
    | none => .next s
    | some c =>
      let s := { s with cur := { s.cur with core := core } }
      let gone := match s.here.phase with | .abandoning _ _ => decide (s.here.inst = c.inst) | _ => false
      if gone || c.engine.isSome || c.failing.isSome || !(c.preds.all (s.hasRetired c.inst)) || (s.here.sys.det && decide (engine ≠ seq.toNat % 4)) then .next s
      else
        match s.rereadCopy c with
        | .error e => .next (s.failCopy c e.1 e.2)
        | .ok (c, s) =>
          let c := { c with engine := some engine }
          if s.copyParts c c.shapeRec = [] then
            match s.itemFault c c.shapeRec with
            | some e => .next (s.failCopy c e c.shapeAddr)
            | none =>
              let c := { c with bytes := c.total c.shapeRec }
              .next ((s.putCopy c).finishCopy c c.bytes c.bytes)
          else if c.kind = 4 ∧ s.selfOverlap c = true then
            match s.commandRead c.core c.asid c.src c.len with
            | .ok bs => .next (s.putCopy { c with kept := bs })
            | .error e => .next (s.failCopy c e c.src)
          else .next (s.putCopy c)

/-- A remote completion signal arrives (R184): from another package, or from a copy of this package whose signal had to wait for
room in the target's log (R305). -/
def execSignalArrival (g : Signal) (s : State) : Res :=
  match s.copies.find? fun c => c.signalled && decide (c.target = s.package) && decide (c.signal (c.total c.shapeRec) = g) with
  | some c =>
    match s.deliverSignal g with
    | some (ok, s) => .next (s.signalFate c ok)
    | none => .next s
  | none => remoteSignal g s

/-- An answer to a copy: to its signal (R184), a line that it has asked for, or the acknowledgement of a line, which has landed then
(R143, R183). -/
def State.copyAnswered (s : State) (c : Copy) (r : RemoteOut) (data : List Byte) : State :=
  match c.asked.find? fun x => decide (x.1 = r.tag) with
  | some (_, pkg, va) =>
    let c := { c with asked := c.asked.filter fun x => decide (x.1 ≠ r.tag) }
    if r.write then
      let t := c.shapeRec
      let parts := s.copyParts c t
      match c.failing, parts.findIdx? fun p => decide (p = .line pkg va) with
      | some (code, faddr), _ => s.failCopy { c with bytes := c.bytes + s.partBytes c t (.line pkg va) } code faddr
      | none, some i => s.partsLanded c t parts.length i 1 (s.partBytes c t (.line pkg va))
      | none, none => s.putCopy c
    else s.putCopy { c with lines := c.lines ++ [(pkg, va, data)] }
  | none => if c.signalled && r.write then s.signalFate c true else s

/-- A response or an acknowledgement is delivered and its slots return (R346): to the instruction that waits for it, or to the
copy that it answers. -/
def execRemoteResponse (core : Nat) (tag : Nat) (data : List Byte) (s : State) : Res :=
  match (s.core core).remote.find? fun r => decide (r.tag = tag) with
  | some r =>
    if r.eng < 6 then wordResponse core tag data s
    else if r.eng = 8 ∧ core < 160 then
      let s := s.freeSlots core fun x => decide (x.tag = tag)
      match s.copies.find? fun c => decide (c.core = core ∧ r.cmd = some c.seq) with
      | some c => .next (s.copyAnswered c r data)
      | none => .next s
    else .next s
  | none => wordResponse core tag data s

/-- A NACK returns for the remote signal of the copy under the cursor (R184). -/
def execSignalNack (s : State) : Res :=
  match s.copyOf s.cur.core (BitVec.ofNat 32 s.cur.unit) with
  | some c =>
    if c.signalled then .next ((s.freeSlots s.cur.core fun r => decide (r.cmd = some c.seq)).signalFate c false) else .next s
  | none => .next s

/-- Discards the copies of a task that have not started: each writes its record with STATUS 2 and retires (R185). -/
def State.cancelCopies (s : State) (core : Nat) : State × Nat :=
  let out := s.copies.filter fun c => decide (c.core = core) && c.engine.isNone
  (out.foldl (fun s c => s.closeCopy c 2 0 0 id) s, out.length)

/-- Discards every copy of the task that has not started (R185). -/
def execCpcancel (sd : SReg) (s : State) : Res :=
  let (s, n) := s.cancelCopies s.cur.core
  (s.wrS .sq sd (BitVec.ofNat 64 n)).done .sq

end Sys2Proof.Machine
end

