-- ==== Sys2Proof/Machine/Moraine.lean ====
section
/-! DEFINITION. The Moraine tuple space: regions, homes, what a home slice does with each arrival, the seven instructions, replies
and withdrawals (R307 to R324). -/

namespace Sys2Proof.Machine

/-! Tuples and patterns -/

/-- A word of a group of eight. -/
def word (l : List Word) (n : Nat) : Word := l.getD n 0

/-- ARITY of a header (R310). -/
def arity (h : Word) : Nat := slice h 2 0
/-- TYPE k. -/
def fieldType (h : Word) (k : Nat) : Nat := slice h (5 + 2 * k) (4 + 2 * k)
/-- MODE k of a pattern. -/
def fieldMode (h : Word) (k : Nat) : Nat := slice h (21 + 2 * k) (20 + 2 * k)

/-- A header's checks that tuples and patterns share (R310). -/
def headerOk (h : Word) : Bool :=
  decide (slice h 63 32 = 0 ∧ slice h 19 16 = 0 ∧ slice h 3 3 = 0 ∧ arity h ≠ 7) && (List.range 6).all fun k => decide (fieldType h k ≠ 3)

/-- A well-formed tuple (R310). -/
def tupleOk (l : List Word) : Bool :=
  let h := word l 0
  headerOk h && decide (slice h 31 20 = 0) && (List.range 6).all fun k =>
    decide (k < arity h) || (decide (word l (2 + k) = 0) && decide (fieldType h k = 0))

/-- A well-formed pattern (R310). -/
def patternOk (l : List Word) : Bool :=
  let h := word l 0
  headerOk h && (List.range 6).all fun k =>
    decide (fieldMode h k ≠ 3) && (decide (fieldMode h k = 1) || decide (fieldType h k = 0)) &&
      (decide (k < arity h) || decide (fieldMode h k = 0 ∧ fieldType h k = 0))

/-- A tuple matches a pattern (R312). -/
def tupleMatches (t p : List Word) : Bool :=
  let h := word t 0
  let q := word p 0
  decide (word t 1 = word p 1) && decide (arity h = arity q) && (List.range (arity q)).all fun k =>
    decide (fieldMode q k ≠ 1) || decide (fieldType h k = fieldType q k ∧ word t (2 + k) = word p (2 + k))

/-- The header as it is written to a destination, with the low half of the stamp (R310). -/
def deliveredHeader (stamp : Nat) (t : List Word) : Word := BitVec.ofNat 64 (stamp % 2 ^ 32 * 2 ^ 32 + (word t 0).toNat % 2 ^ 16)

/-- What a delivery writes: the place in the group and the value (R321). -/
def deliveredWords (pattern t : List Word) (stamp : Nat) : List (Nat × Word) :=
  [(0, deliveredHeader stamp t), (1, word t 1)] ++
    ((List.range 6).filter fun k => decide (fieldMode (word pattern 0) k = 2)).map fun k => (2 + k, word t (2 + k))

/-! Regions and homes -/

/-- Packages of the mesh. -/
def meshCount (mesh : Word) : Nat := ((List.range 4).map (axisSize mesh)).prod

/-- The coordinates of a linear package index, as SYS.COORD[47:0] (R313). -/
def linearCoord (mesh : Word) (l : Nat) : BitVec 48 :=
  BitVec.ofNat 48 ((List.range 4).foldl (fun (p : Nat × Nat) a =>
    (p.1 + p.2 % axisSize mesh a * 2 ^ (12 * a), p.2 / axisSize mesh a)) (0, l)).1

/-- The packages of the mesh in ascending linear index. -/
def meshPackages (mesh : Word) : List (BitVec 48) := (List.range (meshCount mesh)).map (linearCoord mesh)

/-- The home slice number of a tag (R313). -/
def homeSliceOf (rid tag : Nat) : Nat :=
  let v := rid % 2 ^ 16 * 2 ^ 64 + tag % 2 ^ 64
  ((nslice v 15 0 ^^^ nslice v 31 16 ^^^ nslice v 47 32 ^^^ nslice v 63 48 ^^^ nslice v 79 64) * 192) >>> 16

/-- The home package of a tag of a mesh-wide region (R313). -/
def homePackage (mesh : Word) (rid tag : Nat) : BitVec 48 :=
  linearCoord mesh (((nslice tag 31 0 ^^^ nslice tag 63 32 ^^^ rid) * meshCount mesh) >>> 32)

/-- CAP of a region (R307). -/
def MRegion.cap (r : MRegion) : Nat := r.size / 64

/-- The region of an address in the task's address space, or the fault (R309). -/
def State.regionOf (s : State) (va : Nat) : Except Code MRegion :=
  if 2 ^ 57 ≤ va then .error .addrRange
  else
    match s.regions.find? fun r => decide (r.asid = s.here.sys.asid ∧ r.base ≤ va ∧ va < r.base + r.size) with
    | none => .error .translation
    | some r =>
      match translate s (dieOf s.cur.core) r.asid va with
      | .ok t => if t.attr = 2 then .ok r else .error .translation
      | .error c => .error c

/-! At a home slice -/

/-- A slice by its number. -/
def State.mslice (s : State) (n : Nat) : MSlice := Bank.get MSlice.zero s.slices n

/-- Replaces a slice. -/
def State.setSlice (s : State) (n : Nat) (x : MSlice) : State := { s with slices := Bank.set MSlice.zero s.slices n x }

/-- Sends an answer to the requester of a message. -/
def State.answer (s : State) (m : MoraineMsg) (a : MoraineAnswer) : State :=
  let r : MoraineRep := ⟨m.pkg, m.core, m.task, m.seq, a⟩
  if m.pkg = s.package then { s with mreplies := s.mreplies ++ [r] } else s.post 4 m.slice none (.moraineReply r)

/-- Tuples of a region that are stored on this package (R317). -/
def State.storedOf (s : State) (rid : Nat) : Nat :=
  (s.slices.map fun x => (x.2.bag.filter fun t => decide (t.rid = rid) && !t.held).length).sum

/-- The region is full (R317). -/
def State.regionFull (s : State) (r : MRegion) : Bool := decide (r.cap ≤ s.storedOf r.rid)

/-- The first element of a list that satisfies a test is changed. -/
def changeFirst {α : Type} (p : α → Bool) (f : α → α) : List α → List α
  | [] => []
  | x :: r => if p x then f x :: r else x :: changeFirst p f r

/-- Freed room stores one held tuple and acknowledges it; which slice's is free, and within a slice the oldest goes first
(R317). -/
def State.promote (s : State) (r : MRegion) : State :=
  let isHeld (t : MTuple) : Bool := t.held && decide (t.rid = r.rid)
  let cands := (s.slices.filter fun x => x.2.bag.any isHeld).map Prod.fst
  match cands with
  | [] => s
  | c :: cs =>
    if s.regionFull r then s
    else
      let n := (c :: cs).getD (Config.pick s.free (cs.length) % (cs.length + 1)) c
      let x := s.mslice n
      match x.bag.find? isHeld with
      | none => s
      | some t => (s.setSlice n { x with bag := changeFirst isHeld (fun t => { t with held := false }) x.bag }).answer t.dep .acked

/-- Promotes as often as room was freed. -/
def State.promoteN (r : MRegion) : Nat → State → State
  | 0, s => s
  | n + 1, s => State.promoteN r n (s.promote r)

/-- Is a request a take? -/
def MKind.takes : MKind → Bool
  | .take | .tryTake => true
  | _ => false

/-- Is it a try form of a request? -/
def MKind.tries : MKind → Bool
  | .tryRd | .tryTake => true
  | _ => false

/-- Is it a deposit? -/
def MKind.deposits : MKind → Bool
  | .dep | .tryDep => true
  | _ => false

/-- A request at its home slice: true where it was taken in, false where it is returned (R315, R318, R321). -/
def State.onRequest (s : State) (r : MRegion) (m : MoraineMsg) : Bool × State :=
  let x := s.mslice m.slice
  let hit (t : MTuple) : Bool := decide (t.rid = r.rid) && tupleMatches t.dep.words m.words
  if m.kind = .withdraw then
    let out := x.bag.filter hit
    let s := s.setSlice m.slice { x with bag := x.bag.filter fun t => !hit t }
    let s := out.foldl (fun s t => if t.held then s.answer t.dep .acked else s) s
    (true, (State.promoteN r out.length s).answer m (.count out.length))
  else
    match x.bag.find? hit with
    | some t =>
      let s := s.answer m (.tuple t.stamp t.dep.words)
      if MKind.takes m.kind then
        let s := s.setSlice m.slice { x with bag := x.bag.filter fun u => decide (u ≠ t) }
        let s := if t.held then s.answer t.dep .acked else s
        (true, s.promote r)
      else (true, s)
    | none =>
      if MKind.tries m.kind then (true, s.answer m .noMatch)
      else if 256 ≤ x.parked.length then (false, s.answer m .returned)
      else
        let s := s.setSlice m.slice { x with parked := x.parked ++ [m] }
        (true, if m.pkg = s.package then s else s.answer m .parked)

/-- Logs a deposit with its stamp (R280, R323). -/
def State.logDeposit (s : State) (m : MoraineMsg) (stamp : Nat) : State :=
  let sid : Word := BitVec.ofNat 64 (m.pkg.toNat + (Config.unitClass 0).toNat * 2 ^ 48 + m.core % 256 * 2 ^ 52)
  let r : LogRec := ⟨sid, m.seq, 4, 0, false, m.task, BitVec.ofNat 32 m.core, BitVec.ofNat 64 stamp⟩
  match if m.pkg = s.package then (s.core m.core).mcmds.find? fun n => decide (n.msg = m) else none with
  | some n => s.logCommand n.inst r
  | none => s.putRec r

/-- A deposit at its home slice: true where it was taken in or refused, false where it is returned (R316 to R318). -/
def State.onDeposit (s : State) (r : MRegion) (m : MoraineMsg) : Bool × State :=
  let x := s.mslice m.slice
  let fits (q : MoraineMsg) : Bool := decide (q.rid = r.rid) && tupleMatches m.words q.words
  let taker := x.parked.find? fun q => MKind.takes q.kind && fits q
  let full := s.regionFull r
  if m.kind = .tryDep ∧ taker.isNone ∧ full then (true, s.answer m .full)
  else if taker.isNone && full && decide (64 ≤ (x.bag.filter fun t => t.held).length) then (false, s.answer m .returned)
  else
    let copies := x.parked.filter fun q => !MKind.takes q.kind && fits q
    let s := s.logDeposit m x.stamp
    let s := copies.foldl (fun s q => s.answer q (.tuple x.stamp m.words)) s
    let s := if m.kind = .tryDep then s.answer m .accepted else s
    let left := x.parked.filter fun q => !copies.contains q
    match taker with
    | some q =>
      let s := (s.answer q (.tuple x.stamp m.words)).setSlice m.slice
        { x with stamp := x.stamp + 1, parked := left.filter fun p => decide (p ≠ q) }
      (true, s.answer m .acked)
    | none =>
      let s := s.setSlice m.slice { x with stamp := x.stamp + 1, bag := x.bag ++ [⟨r.rid, x.stamp, full, m⟩], parked := left }
      (true, if !full then s.answer m .acked else if m.pkg = s.package then s else s.answer m .parked)

/-- An arrival at its home slice (R314, R320). -/
def State.atHome (s : State) (m : MoraineMsg) : Bool × State :=
  match s.regions.find? fun r => decide (r.rid = m.rid) && (decide (m.pkg = s.package) || r.mesh) with
  | none => (true, s.answer m .undeclared)
  | some r => if MKind.deposits m.kind then s.onDeposit r m else s.onRequest r m

/-! The requester -/

/-- Every Moraine command of the package that is not finished, with its core. -/
def State.mcmdList (s : State) : List (Nat × MCmd) := s.cores.flatMap fun ck => ck.2.mcmds.map fun m => (ck.1, m)

/-- Changes a command of a core. -/
def State.onCmd (s : State) (c : Nat) (m : MCmd) (f : MCmd → MCmd) : State :=
  s.setCore c { s.core c with mcmds := (s.core c).mcmds.map fun n => if n.inst = m.inst ∧ n.msg.seq = m.msg.seq then f n else n }

/-- Removes a command of a core and its request slots. -/
def State.dropCmd (s : State) (c : Nat) (m : MCmd) : State :=
  s.setCore c { s.core c with mcmds := (s.core c).mcmds.filter fun n => !decide (n.inst = m.inst ∧ n.msg.seq = m.msg.seq) }

/-- Commands of the same task to the same slice that come before a command, on whichever core they were issued (R314). -/
def State.earlier (s : State) (m : MCmd) : List MCmd :=
  (s.mcmdList.map Prod.snd).filter fun n =>
    decide (n.inst = m.inst ∧ n.msg.home = m.msg.home ∧ n.msg.slice = m.msg.slice) && issuedNo m.msg.seq n.msg.seq

/-- May a command be sent now (R318, R322, R323, R346)? Not while an earlier one of its task for the slice is still to be sent again, or is on
its way there again. -/
def State.mayMoraineSend (s : State) (c : Nat) (m : MCmd) : Bool :=
  decide (m.st = .unsent) && !m.withdraw && m.preds.all (s.hasRetired m.inst) &&
    (s.earlier m).all (fun n => decide (n.st ≠ .unsent ∧ n.st ≠ .bounced) && !(n.again && decide (n.st = .flying))) &&
    !(m.mesh && MKind.deposits m.msg.kind && s.remoteWrites) &&
    (decide (m.msg.home = s.package) || (s.core c).slotFree m.msg.home)

/-- Sends a command to its home: within the package, or into the fabric with a request slot. -/
def State.moraineSend (s : State) (c : Nat) (m : MCmd) : State :=
  if !s.mayMoraineSend c m then s
  else
    let s := s.onCmd c m fun n => { n with st := .flying }
    if m.msg.home = s.package then s
    else
      let cur := s.cur
      let s := { s with cur := { s.cur with core := c } }
      { s.sendOut m.msg.home 6 false (some m.msg.seq) (fun _ => .moraine m.msg) with cur := cur }

/-- The coordinates of this package match the home of a command. -/
def MCmd.isOwn (m : MCmd) (s : State) : Bool := decide (m.msg.home = s.package)

/-- A message of another package is for a slice of this one; any other is not taken in. -/
def State.forSlice (s : State) (m : MoraineMsg) : Bool := decide (m.home = s.package ∧ m.pkg ≠ s.package ∧ m.slice < 192)

/-- The n-th command in flight inside this package: of this family of kinds, with no earlier one of its task to its slice still
in flight (R314). -/
def State.arrivingOwn (s : State) (deposits : Bool) (n : Nat) : Option (Nat × MCmd) :=
  match (s.mcmdList.filter fun cm => decide (cm.2.st = .flying) && cm.2.isOwn s)[n]? with
  | some (c, m) =>
    if MKind.deposits m.msg.kind = deposits && (s.earlier m).all (fun e => decide (e.st ≠ .flying)) then some (c, m) else none
  | none => none

/-- A command of this package reaches its home; behind a returned one of its task it is returned too (R318). -/
def State.arriveOwn (s : State) (c : Nat) (m : MCmd) : State :=
  if (s.earlier m).any fun e => decide (e.st = .unsent ∨ e.st = .bounced) then
    (s.onCmd c m fun n => { n with st := .bounced }).answer m.msg .returned
  else
    let (ok, s) := s.atHome m.msg
    s.onCmd c m fun n => { n with st := if ok then .home else .bounced }

/-- A command of another package reaches its home here; behind a returned one of its task it is returned too, until that one has come
again (R314, R318). -/
def State.arriveRemote (s : State) (m : MoraineMsg) : State :=
  let x := s.mslice m.slice
  let key := (m.pkg, m.task, m.seq)
  let mark (s : State) (on : Bool) : State :=
    let x := s.mslice m.slice
    let rest := x.back.filter fun b => decide (b ≠ key)
    s.setSlice m.slice { x with back := if on then rest ++ [key] else rest }
  if x.back.any fun b => decide (b.1 = m.pkg ∧ b.2.1 = m.task) && issuedNo m.seq b.2.2 then (mark s true).answer m .returned
  else
    let (ok, s) := s.atHome m
    mark s !ok

/-- A request arrives at its home slice (R315). -/
def execMoraineRequest (a : Arrival MoraineMsg) (s : State) : Res :=
  match a with
  | .own n => match s.arrivingOwn false n with | some (c, m) => .next (s.arriveOwn c m) | none => .next s
  | .remote m => .next (if s.forSlice m && !(MKind.deposits m.kind) then s.arriveRemote m else s)

/-- A deposit arrives at its home slice (R316). -/
def execMoraineDeposit (a : Arrival MoraineMsg) (s : State) : Res :=
  match a with
  | .own n => match s.arrivingOwn true n with | some (c, m) => .next (s.arriveOwn c m) | none => .next s
  | .remote m => .next (if s.forSlice m && MKind.deposits m.kind then s.arriveRemote m else s)

/-- A withdrawal is processed at a slice: the request leaves the table, or the slice forgets that it returned it; or nothing is found
(R318, R324). -/
def State.withdrawAt (s : State) (m : MoraineMsg) : State :=
  let x := s.mslice m.slice
  let mine (q : MoraineMsg) : Bool := decide (q.pkg = m.pkg ∧ q.core = m.core ∧ q.task = m.task ∧ q.seq = m.seq)
  let key := (m.pkg, m.task, m.seq)
  if x.parked.any mine then (s.setSlice m.slice { x with parked := x.parked.filter fun q => !mine q }).answer m .withdrawn
  else if x.back.contains key then (s.setSlice m.slice { x with back := x.back.filter fun b => decide (b ≠ key) }).answer m .withdrawn
  else s

/-- A request that was withdrawn without a match is over (R324). -/
def State.endWithdrawn (s : State) (c : Nat) (m : MCmd) : State := (s.dropCmd c m).retireCmd m.inst m.msg.seq

/-- A withdrawal arrives at the home slice (R324). One of this package follows its request; that of a request which its home
has never had ends it at once, and that of a request that went to another package's home leaves for the fabric where its core has a slot
(R346). -/
def execMoraineWithdrawal (a : Arrival MoraineMsg) (s : State) : Res :=
  match a with
  | .own n =>
    match (s.mcmdList.filter fun cm => cm.2.withdraw && !cm.2.withdrawn)[n]? with
    | some (c, m) =>
      if m.st = .unsent && (m.isOwn s || !m.again) then .next (s.endWithdrawn c m)
      else if m.isOwn s then
        if m.st = .flying then .next s else .next ((s.onCmd c m fun n => { n with withdrawn := true }).withdrawAt m.msg)
      else if (s.core c).slotFree m.msg.home then
        let u := ({ s.onCmd c m (fun n => { n with withdrawn := true }) with cur := { s.cur with core := c } } : State).sendOut m.msg.home 6 false
          (some m.msg.seq) fun _ => .moraineWithdraw m.msg
        .next { u with cur := s.cur }
      else .next s
    | none => .next s
  | .remote m => .next (if s.forSlice m then s.withdrawAt m else s)

/-- A requester sends a returned command again, or one that had to wait for its predecessors (R318, R323). -/
def execMoraineResend (s : State) : Res :=
  let c := s.cur.core
  match (s.core c).mcmds.find? fun m => decide (m.msg.seq.toNat = s.cur.unit) && s.mayMoraineSend c m with
  | some m => .next (s.moraineSend c m)
  | none => .next s

/-! Answers -/

/-- Is it a request for which its word waits (R321)? -/
def MKind.waits : MKind → Bool
  | .rd | .take => true
  | _ => false

/-- A Moraine word of the core under the cursor finishes after what its answer writes; where it is a waiting instruction the watchdog
starts again (R276, R321). -/
def State.leaveMoraine (s : State) (m : MCmd) (f : State → State) : State :=
  (f s).upd fun k =>
    let k := k.leave .sq ((k.en .sq).pc + 8) 0
    if MKind.waits m.msg.kind then k.feed else k

/-- The word finishes and its command retires. -/
def State.finishMoraine (s : State) (c : Nat) (m : MCmd) (f : State → State) : State :=
  ((s.leaveMoraine m f).dropCmd c m).retireCmd m.inst m.msg.seq

/-- Writes a delivery to the registers of its group (R321) and acquires (R322). -/
def State.writeGroup8 (s : State) (m : MCmd) (stamp : Nat) (t : List Word) : State :=
  let s := (deliveredWords m.msg.words t stamp).foldl (fun s x => s.wrS .sq (BitVec.ofNat 6 (m.group.toNat + x.1)) x.2) s
  s.acquire (if m.mesh then .mesh else .pkg)

/-- The sequencer waits for the answer to a command: its status register, none where it writes no status. -/
def Wait.answers (seq : BitVec 32) : Option Wait → Option SReg
  | some (.tuple n _ _) => if n = seq then some 0 else none
  | some (.tried n sd _) => if n = seq then some sd else none
  | some (.withdrawn n sd) => if n = seq then some sd else none
  | _ => none

/-- The MORAINE record of a save area, delivered = 1 (R302). -/
def moraineRecord (pc : Word) (stamp : Nat) (t : List Word) : List Byte :=
  toBytes 8 pc.toNat ++ toBytes 8 1 ++ toBytes 16 0 ++ toBytes 8 (deliveredHeader stamp t).toNat ++
    (t.drop 1).flatMap fun w => toBytes 8 w.toNat

/-- A tuple taken for a task that is abandoned is lost: the event log has its region with its tag, then with its stamp, under the number of
the mtake (R280, R324). -/
def State.logLost (s : State) (c : Nat) (m : MCmd) (stamp : Nat) (t : List Word) : State :=
  let rec_ (addr : Word) : LogRec := ⟨s.sid 0 c, m.msg.seq, 3, 0, false, m.msg.task, BitVec.ofNat 32 m.msg.rid, addr⟩
  if m.msg.kind = .take then (s.logCommand m.inst (rec_ (word t 1))).logCommand m.inst (rec_ (BitVec.ofNat 64 stamp)) else s

/-- A delivery for a request whose word no longer waits: it goes into the save area, or is lost with the task (R302, R324). -/
def State.matchedFirst (s : State) (c : Nat) (m : MCmd) (stamp : Nat) (t : List Word) : State :=
  let close (s : State) : State := (s.dropCmd c m).retireCmd m.inst m.msg.seq
  match s.savedOf m.inst with
  | some v =>
    -- the record follows the sections, and the signal log follows the record
    let at_ := (v.logAt + 63) / 64 * 64
    let move (w : Saved) : Saved := if w.inst = v.inst then { w with logAt := at_ + 96 } else w
    let s : State := { s with saved := s.saved.map move }
    let s := s.setPhys (v.area + at_) (moraineRecord m.pc stamp t)
    let s := s.setPhys (v.area + dirAt 6) (toBytes 4 at_ ++ toBytes 4 96)
    close (s.setPhys (v.area + 72) (toBytes 4 (s.physNat (v.area + 72) 4 ||| 8)))
  | none => close (s.logLost c m stamp t)

/-- An answer reaches the requester (R315 to R321, R324). DESIGN CHOICE (log 51): the TRANSLATION event of an undeclared home carries
address 0. -/
def State.applyAnswer (s : State) (c : Nat) (m : MCmd) (a : MoraineAnswer) : State :=
  let mine (r : RemoteOut) : Bool := decide (r.eng = 6 ∧ r.cmd = some m.msg.seq)
  let s :=
    if a = .parked then s
    else match a, (s.core c).remote.find? mine with
      | .returned, some q => s.freeSlots c fun r => decide (r.tag = q.tag)
      | _, _ => s.freeSlots c mine
  let s := { s with cur := { s.cur with core := c } }
  let k := s.here
  let waits := if k.inst = m.inst && k.runs then Wait.answers m.msg.seq (s.en .sq).wait else none
  let close (s : State) : State := (s.dropCmd c m).retireCmd m.inst m.msg.seq
  let status (v : Nat) : State :=
    match waits with | some sd => s.finishMoraine c m fun s => s.wrS .sq sd (BitVec.ofNat 64 v) | none => close s
  match a with
  | .returned =>
    if m.withdraw && m.isOwn s then s.endWithdrawn c m else s.onCmd c m fun n => { n with st := .unsent, again := true }
  | .withdrawn => s.endWithdrawn c m
  | .parked => s.onCmd c m fun n => if n.st = .flying then { n with st := .home } else n
  | .undeclared =>
    -- the asynchronous event is the only report (R320)
    let s := s.taskEvent m.inst (commandCause .translation 0 m.msg.seq 0)
    match waits with | some _ => s.finishMoraine c m id | none => close s
  | .tuple stamp t =>
    match waits with
    | some sd =>
      -- a trap that waits for this outcome and that no handler takes abandons the task
      let s := if m.withdraw && !bit k.sys.trapvec 0 then s.logLost c m stamp t else s
      s.finishMoraine c m fun s =>
        let s := s.writeGroup8 m stamp t
        if MKind.tries m.msg.kind then s.wrS .sq sd 0 else s
    | none => s.matchedFirst c m stamp t
  | .noMatch => status 1
  | .full => status 1
  | .count n => status n
  | .accepted =>
    -- the credit comes back with the acknowledgement
    match waits with
    | some sd => (s.leaveMoraine m fun s => s.wrS .sq sd 0).retireCmd m.inst m.msg.seq
    | none => s.retireCmd m.inst m.msg.seq
  | .acked => if m.msg.kind = .dep then close s else s.dropCmd c m

/-- The command that an answer is for. -/
def State.answered (s : State) (r : MoraineRep) : Option MCmd :=
  (s.core r.core).mcmds.find? fun m => decide (m.msg.task = r.task ∧ m.msg.seq = r.seq)

/-- Is an answer an acknowledgement or refusal of a deposit? -/
def MoraineAnswer.acks : MoraineAnswer → Bool
  | .acked | .full => true
  | _ => false

/-- An answer arrives: the n-th in flight inside this package, with no earlier one of its command, or one of another package. -/
def State.takeAnswer (s : State) (acks : Bool) (a : Arrival MoraineRep) : Res :=
  match a with
  | .own n =>
    match s.mreplies[n]? with
    | none => .next s
    | some r =>
      if MoraineAnswer.acks r.answer ≠ acks ∨
          (s.mreplies.take n).any (fun q => decide (q.core = r.core ∧ q.task = r.task ∧ q.seq = r.seq)) then .next s
      else
        let s := { s with mreplies := s.mreplies.eraseIdx n }
        match s.answered r with | some m => .next (s.applyAnswer r.core m r.answer) | none => .next s
  | .remote r =>
    match s.answered r with
    | some m => .next (if r.pkg = s.package ∧ m.isOwn s = false ∧ MoraineAnswer.acks r.answer = acks then s.applyAnswer r.core m r.answer else s)
    | none => .next s

/-- A delivery or a reply reaches the requester (R321). -/
def execMoraineReply (a : Arrival MoraineRep) (s : State) : Res := s.takeAnswer false a

/-- An acknowledgement or a refusal of a deposit returns (R317). -/
def execDepositAck (a : Arrival MoraineRep) (s : State) : Res := s.takeAnswer true a

/-! Instructions -/

/-- Free deposit credits of a core (R317). -/
def Core.credits (k : Core) : Nat := 16 - (k.mcmds.filter fun m => MKind.deposits m.msg.kind).length

/-- The eight words of a group (R311). -/
def State.group8 (s : State) (b : SReg) : List Word := (List.range 8).map fun i => s.rdS .sq (BitVec.ofNat 6 (b.toNat + i))

/-- A group base is in range (R311). -/
def groupOk (b : SReg) : Bool := decide (1 ≤ b.toNat ∧ b.toNat ≤ 56)

/-- The checks of R320: the region and the words of the group. -/
def State.moraineCheck (s : State) (deposit : Bool) (sa sb : SReg) (groups : List SReg) : Except Code (MRegion × List Word) :=
  let ws := s.group8 sb
  if s.here.sys.urgent || !(groups.all groupOk) || !(if deposit then tupleOk ws else patternOk ws) || !s.here.predsOk then .error .illegal
  else
    match s.regionOf (s.rdS .sq sa).toNat with
    | .ok r => .ok (r, ws)
    | .error c => .error c

/-- Issues a command: its number, and its message to the home (R313, R323). -/
def State.issueMoraine (s : State) (kind : MKind) (sd group : SReg) (r : MRegion) (ws : List Word) : State :=
  let k := s.here
  let tag := (word ws 1).toNat
  let msg : MoraineMsg :=
    { kind := kind, pkg := s.package, core := s.cur.core, task := k.sys.taskid, seq := s.nextNumber, rid := r.rid
      home := if r.mesh then homePackage s.mesh r.rid tag else s.package, slice := homeSliceOf r.rid tag, words := ws }
  let m : MCmd :=
    { msg := msg, inst := k.inst, mesh := r.mesh, preds := k.preds, st := .unsent, withdraw := false, withdrawn := false, again := false
      pc := (s.en .sq).pc, sync := if k.sys.timed then 0 else s.syncHere .sq, group := group }
  let s := (s.takeNumber sd none none none).upd fun k => { k with mcmds := k.mcmds ++ [m] }
  s.moraineSend s.cur.core m

/-- A blocking word ends its region: it becomes the entry and the snapshot is taken anew (R122, R295). At one word of the path every
engine has the loop registers that the sequencer has there (R116, R117). -/
def State.endRegion (s : State) : State :=
  s.upd fun k => { k with regionEntry := (k.en .sq).pc, snap := { k.snapshot with lcs := List.replicate 6 (k.en .sq).lc } }

/-- Deposits a tuple, waiting for a credit (R317, R321). -/
def execMdep (sd sa sb : SReg) (s : State) : Res :=
  orTrap s .sq (s.moraineCheck true sa sb [sb]) fun rw =>
    if !s.here.canNumber then s.stall .sq
    else if s.here.credits = 0 then s.endRegion.await .sq (.credit sd (s.rdS .sq sa) rw.2)
    else (s.endRegion.issueMoraine .dep sd sb rw.1 rw.2).finishWait .sq

/-- A credit is free for a waiting mdep (R317). -/
def execMdepCreditFree (s : State) : Res :=
  match (s.en .sq).wait with
  | some (.credit sd va ws) =>
    if s.here.runs && decide (0 < s.here.credits) then
      match s.regionOf va.toNat with
      | .ok r => (s.issueMoraine .dep sd sd r ws).finishWait .sq
      | .error c => (s.upd fun k => k.onEn .sq fun x => { x with wait := none }).trap .sq c
    else .next s
  | _ => .next s

/-- A request that waits until a tuple is delivered (R321). -/
def blockingRequest (kind : MKind) (sd sa sb : SReg) (s : State) : Res :=
  orTrap s .sq (s.moraineCheck false sa sb [sb, sd]) fun rw =>
    if !s.here.canNumber then s.stall .sq
    else (s.endRegion.issueMoraine kind 0 sd rw.1 rw.2).await .sq (.tuple s.nextNumber sd (MKind.takes kind))

/-- Copies the oldest matching tuple (R321). -/
def execMrd (sd sa sb : SReg) (s : State) : Res := blockingRequest .rd sd sa sb s

/-- Takes the oldest matching tuple (R321). -/
def execMtake (sd sa sb : SReg) (s : State) : Res := blockingRequest .take sd sa sb s

/-- A request that its home answers at once (R321). -/
def promptRequest (kind : MKind) (sa sb : SReg) (w : BitVec 32 → Wait) (s : State) : Res :=
  orTrap s .sq (s.moraineCheck false sa sb [sb]) fun rw =>
    if !s.here.canNumber then s.stall .sq else (s.issueMoraine kind 0 sb rw.1 rw.2).await .sq (w s.nextNumber)

/-- Copies a tuple if one matches (R321). -/
def execMtryrd (sd sa sb : SReg) (s : State) : Res := promptRequest .tryRd sa sb (fun n => .tried n sd sb) s

/-- Takes a tuple if one matches (R321). -/
def execMtrytk (sd sa sb : SReg) (s : State) : Res := promptRequest .tryTake sa sb (fun n => .tried n sd sb) s

/-- Removes every matching tuple and counts them (R321). -/
def execMwithdraw (sd sa sb : SReg) (s : State) : Res := promptRequest .withdraw sa sb (fun n => .withdrawn n sd) s

/-- Deposits a tuple unless its region is full; without a free credit it sends nothing (R317, R321). -/
def execMtrydep (sd sa sb : SReg) (s : State) : Res :=
  orTrap s .sq (s.moraineCheck true sa sb [sb]) fun rw =>
    let n := s.nextNumber
    if !s.here.canNumber then s.stall .sq
    else if s.here.credits = 0 then (((s.takeNumber 0 none none none).wrS .sq sd 2).retireCmd s.here.inst n).done .sq
    else (s.issueMoraine .tryDep 0 sb rw.1 rw.2).await .sq (.tried n sd sb)

end Sys2Proof.Machine
end

