-- ==== Sys2Proof/Machine/Network.lean ====
section
/-! DEFINITION. In-network reduction: wire blocks, MX blocks, the fixed tree and delivery (R357 to R361). -/

namespace Sys2Proof.Machine

namespace Net

/-- A 32-bit mask with one bit for each element. -/
def mask32 (l : List Bool) : BitVec 32 := BitVec.ofNat 32 (l.foldr (fun b n => 2 * n + (if b then 1 else 0)) 0)

/-- floor(log2 |x|) of a finite nonzero value. -/
def exponent : Exact → Option Int
  | .fin _ p q => if p = 0 then none else some (Exact.flog2 p q)
  | _ => none

/-- The greatest of some exponents. -/
def maxExp : List Int → Option Int
  | [] => none
  | x :: r => match maxExp r with | some y => some (max x y) | none => some x

/-- Truncation of |x| 2^(79 - E), with its sign, and whether a nonzero bit is lost (R358). -/
def significand (e : Int) : Exact → Int × Bool
  | .fin n p q =>
    let (m, rem, _) := cutAt p q (e - 79)
    (if n then -(m : Int) else (m : Int), decide (rem ≠ 0))
  | _ => (0, false)

/-- RES of the significands or codes and the exponent or scale of a block (R359). -/
def residue (s : List Int) (e : Int) : Nat := ((s.sum + e) % 65535).toNat

/-- RES of an MX block: of its codes and its scale (R359). -/
def residueMx (scale : Nat) (codes : List Nat) : Nat := (codes.sum + scale) % 65535

/-- A block of a format that holds n elements, as it travels: a wire block and an MX block hold 32, the short ones padded (R335, R358, R360). -/
def shaped (f : Fmt) (n : Nat) : Payload → Bool
  | .block b => !f.isMx && !f.isInt && decide (b.s.length = 32)
  | .mx s cs _ => f.isMx && decide (s < 256) && decide (cs.length = 32) && cs.all fun c => decide (c < 2 ^ f.bits)
  | .ints xs => f.isInt && decide (xs.length = n)
  | _ => false

/-- A block arrives with the residue of its contents (R359). -/
def sound : Payload → Bool
  | .block b => decide (b.res = residue b.s b.e)
  | .mx s cs r => decide (r = residueMx s cs)
  | _ => true

/-- One member's contribution as a wire block, padded with +0 terms, and its events (R358). -/
def toBlock (xs : List Exact) : WireBlock × Flags :=
  let xs := xs ++ List.replicate (32 - xs.length) Exact.zero
  let e := match maxExp (xs.filterMap exponent) with | some e => e + 13 | none => -32768
  let ss := xs.map (significand e)
  (⟨ss.map Prod.fst, e, mask32 (xs.map Exact.isNan), mask32 (xs.map fun x => decide (x = .inf false)),
    mask32 (xs.map fun x => decide (x = .inf true)), mask32 (xs.map fun x => x.isZero && x.isNeg), residue (ss.map Prod.fst) e⟩,
    Flags.when (ss.any Prod.snd) Flags.inexact)

/-- Tz: a shift toward zero, and whether it loses a nonzero bit (R358). -/
def tz (s : Int) (d : Nat) : Int × Bool :=
  let m := s.natAbs / 2 ^ d
  (if s < 0 then -(m : Int) else (m : Int), decide (s.natAbs % 2 ^ d ≠ 0))

/-- The exponent rises while a significand does not fit (R358). -/
def normalise : Nat → List Int → Int → List Int × Int × Bool
  | 0, s, e => (s, e, false)
  | n + 1, s, e =>
    if s.any fun x => decide (2 ^ 79 ≤ x.natAbs) then
      let t := s.map fun x => tz x 1
      let (s', e', l) := normalise n (t.map Prod.fst) (e + 1)
      (s', e', l || t.any Prod.snd)
    else (s, e, false)

/-- Adds two wire blocks (R358). The sum of two significands needs at most one step of the exponent. -/
def addBlock (a b : WireBlock) : WireBlock × Flags :=
  let e := max a.e b.e
  let x := a.s.map fun s => tz s (e - a.e).toNat
  let y := b.s.map fun s => tz s (e - b.e).toNat
  let sum := List.zipWith (fun p q => p.1 + q.1) x y
  let (s, e, lost) := normalise 2 sum e
  (⟨s, e, a.nan ||| b.nan, a.pinf ||| b.pinf, a.ninf ||| b.ninf, a.negz &&& b.negz, residue s e⟩,
    Flags.when (lost || x.any Prod.snd || y.any Prod.snd) Flags.inexact)

/-- Delivers element k of the root in a format: the encoding, the events, and whether it is NaN (R358, R361). -/
def deliver (f : Fmt) (b : WireBlock) (k : Nat) : Nat × Flags × Bool :=
  let fmt := Fmt.float f
  let nan := bit b.nan k
  let p := bit b.pinf k
  let n := bit b.ninf k
  let s := b.s.getD k 0
  if nan || (p && n) then (fmt.nanCode, Flags.when (!nan) Flags.invalid, true)
  else if p || n then (fmt.infCode + (if n then fmt.signBit else 0), 0, false)
  else if s = 0 then (if bit b.negz k then fmt.signBit else 0, 0, false)
  else
    let (c, fl) := roundFloat fmt .rne 0 (Exact.scaled (decide (s < 0)) s.natAbs (b.e - 79))
    (c, fl, false)

/-- Raises the scale until every element fits, from scale s (R360): the scale, the codes and the events. -/
def rescale (f : Fmt) (v : List Exact) : Nat → Nat → Nat × List Nat × Flags
  | 0, s => (s, v.map fun x => (quantElem f .rne ((s : Int) - 127) x 0).1, 0)
  | n + 1, s =>
    let q := v.map fun x => quantElem f .rne ((s : Int) - 127) x 0
    let fl := Flags.all (q.map Prod.snd)
    if fl &&& (Flags.overflow ||| Flags.saturate) = 0 ∨ s = 254 then (s, q.map Prod.fst, fl) else rescale f v n (s + 1)

/-- Adds two MX blocks (R360): the scale, the codes, the events and whether it was rescaled. -/
def addMx (f : Fmt) (a : Nat) (xs : List Nat) (b : Nat) (ys : List Nat) : (Nat × List Nat) × Flags × Bool :=
  if a = 255 ∨ b = 255 then ((255, xs.map fun _ => 0), Flags.nanblock, false)
  else
    let v := List.zipWith (fun x y => (Exact.sum [mxValue f x a, mxValue f y b]).1) xs ys
    let (s, q, fl) := rescale f v 255 (max a b)
    ((s, q), fl, decide (max a b < s))

/-- A contribution on its way up the tree: the block, the events so far and whether an MX scale was raised. -/
structure Part where
  block : Payload
  events : Flags
  rescaled : Bool
  deriving DecidableEq, Repr

/-- A NaN element of an MX block is the canonical NaN (R41, R45, R361). -/
def canonElem (f : Fmt) (code : Nat) : Nat := if (elemValue f code).isNan then (Fmt.float f).nanCode else code

/-- An MX block with its residue. -/
def mxPayload (scale : Nat) (codes : List Nat) : Payload := .mx scale codes (residueMx scale codes)

/-- A member's contribution of one block of elements: their encodings, and the scale code of an MX block, which +0 elements fill where it is cut
(R335, R358, R360). -/
def contribution (f : Fmt) (scale : Nat) (codes : List Nat) : Part :=
  if f.isMx then ⟨mxPayload scale (codes.map (canonElem f) ++ List.replicate (32 - codes.length) 0), 0, false⟩
  else if f.isInt then ⟨.ints (codes.map fun c => BitVec.ofNat 32 c), 0, false⟩
  else
    let (b, fl) := toBlock (codes.map (elemValue f))
    ⟨.block b, fl, false⟩

/-- Adds two blocks of one kind (R358, R360). -/
def add (f : Fmt) (x y : Part) : Part :=
  let ev := x.events ||| y.events
  let rs := x.rescaled || y.rescaled
  match x.block, y.block with
  | .block a, .block b => let (c, fl) := addBlock a b; ⟨.block c, ev ||| fl, rs⟩
  | .mx a xs _, .mx b ys _ => let (c, fl, r) := addMx f a xs b ys; ⟨mxPayload c.1 c.2, ev ||| fl, rs || r⟩
  | .ints xs, .ints ys => ⟨.ints (List.zipWith (· + ·) xs ys), ev, rs⟩
  | p, _ => ⟨p, ev, rs⟩

/-- One pass of Pair (R357). -/
def pairOnce {α : Type} (op : α → α → α) : List α → List α
  | a :: b :: r => op a b :: pairOnce op r
  | l => l

/-- Pair (R357). -/
def pair {α : Type} (op : α → α → α) : Nat → List α → List α
  | 0, l => l
  | n + 1, l => if l.length ≤ 1 then l else pair op n (pairOnce op l)

/-- Inserts a node number in ascending order. -/
def insertNode (x : Nat) : List Nat → List Nat
  | [] => [x]
  | y :: r => if x < y then x :: y :: r else if x = y then y :: r else y :: insertNode x r

/-- Reduce (R357): the contributions with the node numbers of their members, in ascending linear index. -/
def reduce {α : Type} (op : α → α → α) (l : List (Nat × α)) : List α :=
  let nodes := l.foldl (fun ns x => insertNode x.1 ns) []
  pair op nodes.length (nodes.flatMap fun n =>
    let xs := (l.filter fun x => decide (x.1 = n)).map Prod.snd
    pair op xs.length xs)

/-- What a root delivers: the encodings, the scale code, the events, whether it holds a NaN, and whether it was rescaled. -/
structure Root where
  codes : List Nat
  scale : Nat
  events : Flags
  nan : Bool
  rescaled : Bool
  deriving DecidableEq, Repr

/-- Delivery of the first n elements of a root (R358, R360, R361). -/
def root (f : Fmt) (n : Nat) (x : Part) : Root :=
  match x.block with
  | .block b =>
    let ds := (List.range n).map (deliver f b)
    ⟨ds.map fun d => d.1, 0, x.events ||| Flags.all (ds.map fun d => d.2.1), ds.any fun d => d.2.2, x.rescaled⟩
  | .mx s cs _ => ⟨cs.take n, s, x.events, (cs.take n).any fun c => (mxValue f c s).isNan, x.rescaled⟩
  | .ints xs => ⟨(xs.take n).map BitVec.toNat, 0, x.events, false, x.rescaled⟩
  | _ => ⟨[], 0, x.events, false, x.rescaled⟩

/-- Reduces the contributions to one block of n elements over members with their nodes (R357). -/
def reduceParts (f : Fmt) (n : Nat) (l : List (Nat × Part)) : Root :=
  match reduce (add f) l with
  | x :: _ => root f n x
  | [] => ⟨List.replicate n 0, 0, 0, false, false⟩

/-- Reduces one block of n elements over members with their nodes: each member's scale code and encodings (R357). -/
def reduceBlock (f : Fmt) (n : Nat) (l : List (Nat × Nat × List Nat)) : Root :=
  reduceParts f n (l.map fun x => (x.1, contribution f x.2.1 x.2.2))

/-- A reducing call or step takes the format with the profile (R333, R353): none where it does, else the fault of the format or
of the profile. -/
def pairFault (f : Fmt) (prof : Nat) : Option (BitVec 8) :=
  let want : Option Nat :=
    if f = .f32 ∨ f = .bf16 then some 1 else if f.isMx then some 4 else if f = .i32 then some 0 else none
  match want with
  | none => some 0x01
  | some p => if prof = p then none else some 0x02

end Net

end Sys2Proof.Machine
end

