-- ==== Sys2Proof/Machine/Commands.lean ====
section
/-! DEFINITION. What collective calls, reshards and near-memory launches share: element buffers of a command's thread, and records and
completion objects of a task that may be saved (R42, R143, R161, R183, R298, R305). -/

namespace Sys2Proof.Machine

/-! Element buffers -/

/-- The code packed at position i of a number. -/
def codeAt (w x i : Nat) : Nat := x / 2 ^ (w * i) % 2 ^ w

/-- Packs codes of w bits, the first in the low bits (R42). -/
def packCodes (w : Nat) : List Nat → Nat
  | [] => 0
  | c :: r => c % 2 ^ w + packCodes w r * 2 ^ w

/-- The codes in some bytes. -/
def codesIn (w n : Nat) (bs : List Byte) : List Nat := (List.range n).map (codeAt w (ofBytes bs))

/-- Bytes that n codes take. -/
def codeBytes (w n : Nat) : Nat := (n * w + 7) / 8

/-- Reads n elements of w bits of a dense array, from element off. -/
def State.readElems (s : State) (c : Nat) (asid : BitVec 12) (base w off n : Nat) : Except (Code × Nat) (List Nat) :=
  if n = 0 then .ok []
  else
    let b := 8 * base + off * w
    match s.commandRead c asid (b / 8) ((b % 8 + n * w + 7) / 8) with
    | .ok bs => .ok ((List.range n).map (codeAt w (ofBytes bs / 2 ^ (b % 8))))
    | .error e => .error (e, b / 8)

/-- Writes bytes of global memory at package scope, each line under the generation that the write carries (R143, R161). -/
def writeHomeGen (c : Nat) (asid : BitVec 12) (g : Option GenRef) : List Piece → List Byte → State → Except (Code × Nat) State
  | [], _, s => .ok s
  | (va, n) :: r, bs, s =>
    match window c (s.core c) va n with
    | .error x => .error (x, va)
    | .ok (.spad key) => writeHomeGen c asid g r (bs.drop n) { s with spad := Bank.setRun 0 s.spad key (bs.take n) }
    | .ok .glob =>
      match translate s (dieOf c) asid va with
      | .error x => .error (x, va)
      | .ok t =>
        match pageCheck .write t with
        | .error x => .error (x, va)
        | .ok t =>
          let (ok, s) := admitGen (learn s (dieOf c) asid va t) (t.phys / 128) g
          writeHomeGen c asid g r (bs.drop n) (if ok then putHome s t.phys (bs.take n) else s)

/-- Writes bytes for a command, in a window or in global memory. -/
def State.genWrite (s : State) (c : Nat) (asid : BitVec 12) (g : Option GenRef) (va : Nat) (bs : List Byte) : Except (Code × Nat) State :=
  if 2 ^ 57 < va + bs.length then .error (.addrRange, va)
  else
    match window c (s.core c) va bs.length with
    | .ok (.spad key) => .ok { s with spad := Bank.setRun 0 s.spad key bs }
    | .ok .glob => writeHomeGen c asid g (pieces bs.length va bs.length) bs s
    | .error e => .error (e, va)

/-- Writes elements of w bits of a dense array from element off; bits of other elements in the first and last byte stay. -/
def State.writeElems (s : State) (c : Nat) (asid : BitVec 12) (g : Option GenRef) (base w off : Nat) (codes : List Nat) :
    Except (Code × Nat) State :=
  if codes.isEmpty then .ok s
  else
    let b := 8 * base + off * w
    let n := (b % 8 + codes.length * w + 7) / 8
    if b % 8 = 0 ∧ codes.length * w % 8 = 0 then s.genWrite c asid g (b / 8) (toBytes n (packCodes w codes))
    else
      match s.commandRead c asid (b / 8) n with
      | .error e => .error (e, b / 8)
      | .ok bs =>
        s.genWrite c asid g (b / 8) (toBytes n (blend (ofBytes bs) (packCodes w codes <<< (b % 8)) (ones (codes.length * w) <<< (b % 8))))

/-- Reading n elements of a dense array leaves its translations behind (R134, R138). -/
def State.learnElems (s : State) (c : Nat) (asid : BitVec 12) (base w off n : Nat) : State :=
  if n = 0 then s else s.learnBits c asid (8 * base + off * w) (n * w)

/-- The first addresses of the 64 KiB pages that a range touches. -/
def pageStarts (va n : Nat) : List Nat :=
  (List.range ((va % 65536 + n + 65535) / 65536)).map fun i => if i = 0 then va else (va / 65536 + i) * 65536

/-- The check at issue of a global buffer whose every page must translate (R111, R353). -/
def State.bufferCheck (s : State) (va n align : Nat) (kind : Kind) : Option Code :=
  if 2 ^ 57 < va + n then some .addrRange
  else if va % align ≠ 0 then some .misalign
  else lowest ((pageStarts va n).map fun p =>
    match lineAccess s (dieOf s.cur.core) s.here.sys.asid p kind with | .ok _ => none | .error c => some c)

/-! Records and objects of a task that may be saved -/

/-- Where the save area of a task holds a byte of its window: in its SCR section, which begins at the region's first byte (R299, R303). -/
def State.imageByte (s : State) (v : Saved) (va : Nat) : Option Nat :=
  let off := va - taskWindow
  let lo := s.physNat (v.area + 1440) 4
  if lo ≤ off ∧ off < lo + s.physNat (v.area + dirAt 9 + 4) 4 then some (v.area + s.physNat (v.area + dirAt 9) 4 + (off - lo)) else none

/-- Bytes of the window of a saved task, as a resumption restores them: 0 where the save holds none (R303). -/
def State.imageRead (s : State) (v : Saved) (va n : Nat) : List Byte :=
  (List.range n).map fun i => match s.imageByte v (va + i) with | some p => Bank.get 0 s.hbm p | none => 0

/-- Writes bytes of the window of a saved task, so that a resumption restores them. -/
def State.imageWrite (s : State) (v : Saved) (va : Nat) (bs : List Byte) : State :=
  bs.zipIdx.foldl (fun s b => match s.imageByte v (va + b.2) with | some p => s.setPhys p [b.1] | none => s) s

/-- Writes that a saved task has to find in its window when it resumes, as entries of 8 bytes of its signal log (R305). -/
def State.logBytes (v : Saved) (va : Nat) : Nat → List Byte → State → Option State
  | 0, _, s => some s
  | n + 1, bs, s =>
    match s.logSignal v va true (BitVec.ofNat 64 (ofBytes (bs.take 8))) with
    | none => none
    | some s => State.logBytes v (va + 8) n (bs.drop 8) s

/-- Such writes of any bytes: the rest of the first and of the last entry is as the window has it. -/
def State.logRun (s : State) (v : Saved) (va : Nat) (bs : List Byte) : Option State :=
  let lo := va / 8 * 8
  let hi := (va + bs.length + 7) / 8 * 8
  State.logBytes v lo ((hi - lo) / 8) (s.imageRead v lo (va - lo) ++ bs ++ s.imageRead v (va + bs.length) (hi - (va + bs.length))) s

/-- Writes the record of a command for its task, wherever it is: a record in the window of a saved task goes to its signal log. None
where the log has no room (R305). -/
def State.taskStore (s : State) (inst c : Nat) (asid : BitVec 12) (va : Nat) (bs : List Byte) : Option (Except Code State) :=
  match s.coreOf inst with
  | some c' => some (s.commandWrite c' asid va bs)
  | none =>
    match s.savedOf inst with
    | some v =>
      if taskWindow ≤ va ∧ va < taskWindow + windowSize then (s.logRun v va bs).map Except.ok
      else some (s.commandWrite v.core asid va bs)
    | none => some (s.commandWrite c asid va bs)

/-- The save area that holds the task window of a command's task, where n bytes at va lie in that window (R298). -/
def State.imageOf (s : State) (inst va : Nat) : Option Saved :=
  match s.coreOf inst with
  | some _ => none
  | none => if taskWindow ≤ va ∧ va < taskWindow + windowSize then s.savedOf inst else none

/-- The core whose windows a command of a task sees: the task's, or the one that it left. -/
def State.cmdCore (s : State) (inst c : Nat) : Nat :=
  match s.coreOf inst with
  | some c' => c'
  | none => match s.savedOf inst with | some v => v.core | none => c

/-- Reads w bits at a bit address for a command that goes on while its task is saved (R160, R298). -/
def State.taskBits (s : State) (inst c : Nat) (asid : BitVec 12) (b w : Nat) : Except (Code × Nat) Nat :=
  let (va, n, sh) := bitSpan b w
  match s.imageOf inst va with
  | some v => if taskWindow + v.pages * 65536 < va + n then .error (.translation, va) else .ok (ofBytes (s.imageRead v va n) / 2 ^ sh % 2 ^ w)
  | none => s.readBits (s.cmdCore inst c) asid b w

/-- Writes an element of w bits of a dense array for such a command. -/
def State.taskElem (s : State) (inst c : Nat) (asid : BitVec 12) (base w off code : Nat) : Except (Code × Nat) State :=
  let (va, n, sh) := bitSpan (8 * base + off * w) w
  match s.imageOf inst va with
  | some v =>
    if taskWindow + v.pages * 65536 < va + n then .error (.translation, va)
    else .ok (s.imageWrite v va (toBytes n (blend (ofBytes (s.imageRead v va n)) (code % 2 ^ w <<< sh) (ones w <<< sh))))
  | none => s.writeElems (s.cmdCore inst c) asid none base w off [code]

/-- Writes a record where there is one; one that cannot be written is lost. None where it has to wait. -/
def State.taskRecord (s : State) (inst c : Nat) (asid : BitVec 12) (va : Nat) (bs : List Byte) : Option State :=
  if va = 0 then some s
  else
    match s.taskStore inst c asid va bs with
    | none => none
    | some (.ok s) => some s
    | some (.error _) => some s

/-- The action of DONE on a completion object (R183, R305): 1 subtracts a count from the barrier, 2 writes a value. -/
def State.doneAction (s : State) (inst kind : Nat) (addr count : Nat) (value : Word) : Option State :=
  match kind with
  | 1 => (s.signalInst inst addr false (BitVec.ofNat 64 count)).map Prod.snd
  | 2 => (s.signalInst inst addr true value).map Prod.snd
  | _ => some s

/-- The next state of an event that may have to wait. -/
def orWait (s : State) (x : Option State) : Res := .next (x.getD s)

end Sys2Proof.Machine
end

