-- ==== Sys2Proof/Machine/Collect.lean ====
section
/-! DEFINITION. Collective groups and calls (R349 to R356, R361 to R365). -/

namespace Sys2Proof.Machine

/-! Groups -/

/-- The linear index of a package (R349). -/
def linearIndex (mesh : Word) (pkg : BitVec 48) : Nat :=
  [3, 2, 1, 0].foldl (fun n a => n * axisSize mesh a + axisCoord pkg.toNat a) 0

/-- The package of a member word. -/
def memberPkg (w : Word) : BitVec 48 := BitVec.ofNat 48 (slice w 47 0)

/-- The list rises strictly. -/
def rising : List Nat → Bool
  | a :: b :: r => decide (a < b) && rising (b :: r)
  | _ => true

/-- The header of a group descriptor (R349). -/
def groupHeaderOk (h : List Byte) : Bool :=
  let n := fieldAt h 4 2
  decide (1 ≤ n ∧ n ≤ 4096) && decide (fieldAt h 6 2 < n) && decide (fieldAt h 8 2 ≤ 60000) && decide (fieldAt h 10 54 = 0)

/-- The members of a group descriptor, for the member self on a core of this package (R349). -/
def State.membersOk (s : State) (ms : List Word) (self : Nat) : Bool :=
  (ms.all fun w => decide (slice w 63 56 = 0) && decide (slice w 55 48 < 160) && coordOk s.mesh (memberPkg w)) &&
    rising (ms.map fun w => linearIndex s.mesh (memberPkg w)) &&
    decide (memberPkg (ms.getD self 0) = s.package ∧ slice (ms.getD self 0) 55 48 = s.cur.core)

/-- A task's group slot. -/
def State.groupOf (s : State) (inst slot : Nat) : Option Group :=
  s.groups.find? fun g => decide (g.inst = inst ∧ g.slot = slot)

/-- Empties a group slot. -/
def State.dropGroup (s : State) (inst slot : Nat) : State :=
  { s with groups := s.groups.filter fun g => !decide (g.inst = inst ∧ g.slot = slot) }

/-- Installs a group descriptor (R350). -/
def execClgrp (sd sa sb : SReg) (s : State) : Res :=
  let va := (s.rdS .sq sa).toNat
  let b := (s.rdS .sq sb).toNat
  let inst := s.here.inst
  if 16 ≤ b ∨ s.calls.any (fun c => decide (c.inst = inst ∧ c.grp.slot = b)) then s.trap .sq .illegal
  else if s.level = .reduced then s.trap .sq .translation
  else if inScratch va then s.trap .sq .illegal
  else
    orTrap s .sq (s.blockCheck va 64 64 .read) fun _ =>
      let (h, s') := s.load va 64
      if !groupHeaderOk h then s.trap .sq .illegal
      else
        let n := fieldAt h 4 2
        orTrap s .sq (s.blockCheck (va + 64) (8 * n) 8 .read) fun _ =>
          let (b8, s') := s'.load (va + 64) (8 * n)
          let ms : List Word := (List.range n).map fun i => BitVec.ofNat 64 (fieldAt b8 (8 * i) 8)
          let self := fieldAt h 6 2
          if !s.membersOk ms self then s.trap .sq .illegal
          else
            let hold := fieldAt h 8 2
            let g : Group := ⟨inst, b, BitVec.ofNat 32 (fieldAt h 0 4), ms, self, if hold = 0 then 200 else hold, 0⟩
            let s' := s'.dropGroup inst b
            (({ s' with groups := s'.groups ++ [g] } : State).wrS .sq sd (BitVec.ofNat 64 n)).done .sq

/-! Calls -/

namespace Call
/-- OP (R351, R352). -/
def op (c : Call) : Nat := fieldAt c.desc 0 1
/-- The operation reduces. -/
def reduces (c : Call) : Bool := decide (c.op ≤ 1)
/-- FMT; a descriptor that was accepted has one. -/
def fmt (c : Call) : Fmt := (Fmt.ofCode (fieldAt c.desc 2 1)).getD .f32
/-- PROF. -/
def prof (c : Call) : Nat := fieldAt c.desc 3 1 % 16
/-- CCEN. -/
def counted (c : Call) : Bool := (fieldAt c.desc 3 1).testBit 4
/-- GENV. -/
def genv (c : Call) : Bool := (fieldAt c.desc 3 1).testBit 5
/-- CCBASE. -/
def ccbase (c : Call) : Nat := fieldAt c.desc 4 1
/-- DONE. -/
def doneKind (c : Call) : Nat := fieldAt c.desc 5 1
/-- ROOT. -/
def root (c : Call) : Nat := fieldAt c.desc 6 2
/-- SRC and DST. -/
def src (c : Call) : Nat := fieldAt c.desc 8 8
def dst (c : Call) : Nat := fieldAt c.desc 16 8
/-- COUNT: the elements of a segment. -/
def count (c : Call) : Nat := fieldAt c.desc 24 8
/-- CHUNKE. -/
def chunke (c : Call) : Nat := fieldAt c.desc 32 4
/-- GTID. -/
def gtid (c : Call) : Nat := fieldAt c.desc 36 2
/-- DADDR, DVAL, RECADDR, BITMAP, PERM. -/
def daddr (c : Call) : Nat := fieldAt c.desc 40 8
def dval (c : Call) : Word := BitVec.ofNat 64 (fieldAt c.desc 48 8)
def recaddr (c : Call) : Nat := fieldAt c.desc 56 8
def bitmap (c : Call) : Nat := fieldAt c.desc 64 8
def permAddr (c : Call) : Nat := fieldAt c.desc 72 8
/-- SSCALE and DSCALE. -/
def sscale (c : Call) : Nat := fieldAt c.desc 80 8
def dscale (c : Call) : Nat := fieldAt c.desc 88 8
/-- Members. -/
def members (c : Call) : Nat := c.grp.members.length
/-- This member's index. -/
def self (c : Call) : Nat := c.grp.self
/-- Elements of SRC and of DST (R352). -/
def srcCount (c : Call) : Nat := if c.op = 1 ∨ c.op = 3 then c.members * c.count else c.count
def dstCount (c : Call) : Nat := if c.op = 2 ∨ c.op = 3 then c.members * c.count else c.count
/-- NCHUNK (R352). -/
def chunkCount (c : Call) : Nat := ceilDiv c.srcCount c.chunke
/-- The elements of SRC in a chunk. -/
def range (c : Call) (n : Nat) : Nat × Nat := (n * c.chunke, min c.srcCount ((n + 1) * c.chunke))
/-- Counter of a chunk (R355). -/
def counter (c : Call) (n : Nat) : Nat := (c.ccbase + n) % 32
/-- Counters that the call arms. -/
def counters (c : Call) : List Nat := if c.counted then (List.range (min c.chunkCount 32)).map c.counter else []
/-- This member reads its SRC. -/
def sends (c : Call) : Bool := decide (c.op ≠ 5 ∨ c.self = c.root)
/-- The package of a member. -/
def pkgOf (c : Call) (j : Nat) : BitVec 48 := memberPkg (c.grp.members.getD j 0)
/-- The other members. -/
def others (c : Call) : List Nat := (List.range c.members).filter fun j => decide (j ≠ c.self)
/-- The same call. -/
def same (a b : Call) : Bool := decide (a.inst = b.inst ∧ a.seq = b.seq)
/-- Bytes of n elements, scale bytes excluded. -/
def bytesOf (c : Call) (n : Nat) : Nat := codeBytes c.fmt.bits n
end Call

/-- The fields of a call descriptor that need no group (R3, R351). DESIGN CHOICE (log 92): format code 0x04 in a moving call stands for
4-bit elements. -/
def callDescOk (d : List Byte) : Bool :=
  let z (o n : Nat) : Bool := decide (fieldAt d o n = 0)
  let mx := match Fmt.ofCode (fieldAt d 2 1) with | some f => f.isMx | none => false
  let op := fieldAt d 0 1
  let n := fieldAt d 24 8
  let e := fieldAt d 32 4
  decide (op < 6) && decide (fieldAt d 1 1 < 16) && (Fmt.ofCode (fieldAt d 2 1)).isSome && decide (fieldAt d 3 1 < 64) &&
    decide (fieldAt d 4 1 < 32) && decide (fieldAt d 5 1 < 3) && (decide (op = 5) || z 6 2) && decide (1 ≤ n ∧ n ≤ 2 ^ 40) &&
    decide (e % 32 = 0 ∧ 1 ≤ e ∧ e ≤ 2 ^ 24) && z 38 2 && (decide (op = 4) || z 72 8) && (mx || (z 80 8 && z 88 8)) && z 96 32

/-- A PERM table is a permutation of the members. -/
def permOk (n : Nat) (p : List Nat) : Bool := decide (p.length = n) && (p.all fun j => decide (j < n)) && p.Nodup

/-- The descriptor's fields against its group, the formats and the counters: ILLEGAL and PROFILE (R353). -/
def State.callFault (s : State) (c : Call) : Option Code :=
  let glob (a : Nat) : Bool := !inScratch a
  let illegal :=
    (decide (c.op = 5) && decide (c.members ≤ c.root)) || (decide (c.op = 4) && !permOk c.members c.perm) ||
      !glob c.src || !glob c.dst || (decide (c.bitmap ≠ 0) && !glob c.bitmap) ||
      (decide (c.doneKind ≠ 0) && !inScratch c.daddr) || (!c.reduces && decide (c.prof ≠ 0)) ||
      (c.fmt.isMx && decide (c.count % 32 ≠ 0)) ||
      (c.counters.any fun n => let x := s.chunkCtr c.inst n; x.armed || decide (x.expect = 0))
  if illegal then some .illegal else if c.reduces then Net.pairFault c.fmt c.prof else none

/-- Alignment and translation of every buffer of a call (R353). DESIGN CHOICE (log 59): SRC and SSCALE of a broadcast are checked at ROOT
alone, which alone reads them. -/
def State.callBuffers (s : State) (c : Call) : Option Code :=
  let w := Nat.max 1 (c.fmt.bits / 8)
  let mx (a n : Nat) (k : Kind) : Option Code := if c.fmt.isMx then s.bufferCheck a (n / 32) 1 k else none
  lowest [if c.sends then s.bufferCheck c.src (c.bytesOf c.srcCount) w .read else none,
    s.bufferCheck c.dst (c.bytesOf c.dstCount) w .write,
    if c.sends then mx c.sscale c.srcCount .read else none, mx c.dscale c.dstCount .write,
    if c.doneKind = 0 then none else s.windowCheck c.daddr (if c.doneKind = 1 then 16 else 8) (if c.doneKind = 1 then 16 else 8),
    if c.recaddr = 0 then none else if inScratch c.recaddr then s.windowCheck c.recaddr 64 64 else s.bufferCheck c.recaddr 64 64 .write,
    if c.bitmap = 0 then none else s.bufferCheck c.bitmap (8 * ceilDiv c.chunkCount 64) 8 .write]

/-- The PERM table of a descriptor, read at issue. -/
def State.readPerm (s : State) (c : Call) : Except Code (List Nat × State) :=
  if c.op ≠ 4 then .ok ([], s)
  else
    match s.blockCheck c.permAddr (2 * c.members) 2 .read with
    | .error e => .error e
    | .ok _ =>
      let (b, s) := s.load c.permAddr (2 * c.members)
      .ok ((List.range c.members).map fun i => fieldAt b (2 * i) 2, s)

/-- The generation that GENV names, read at issue (R161, R363). -/
def State.readGen (s : State) (c : Call) : Except Code (Option GenRef × State) :=
  if !c.genv then .ok (none, s)
  else
    match s.readShape c.gtid with
    | .error e => .error e
    | .ok (t, s) => if s.recordBusy .sq t.recVa then .error .overlap else .ok (some ⟨t.gen, c.asid, c.core, t.recVa⟩, s)

/-- The call that an issue forks, with every check of R353 made, or the fault. -/
def State.prepareCall (s : State) (desc : List Byte) (g : Group) : Except Code (Call × State) :=
  let k := s.here
  let c : Call := { core := s.cur.core, inst := k.inst, seq := s.nextNumber, task := k.sys.taskid, asid := k.sys.asid, desc := desc, perm := []
                    gen := none, grp := g, num := g.call, preds := k.preds, started := false, own := [], complete := [], bytes := 0, events := 0
                    nan := none, rescaled := none, back := false
                    absent := (g.members.map memberPkg).filter fun p => s.absent.contains p }
  match s.readPerm c with
  | .error e => .error ((s.callFault { c with perm := List.range c.members }).getD e)
  | .ok (p, s) =>
    let c := { c with perm := p }
    match s.callFault c with
    | some e => .error e
    | none =>
      match s.callBuffers c with
      | some e => .error e
      | none =>
        match s.readGen c with
        | .error e => .error e
        | .ok (g, s) => .ok ({ c with gen := g }, s)

/-- What a member's first packet of a call shows (R354). -/
def Call.hello (c : Call) : CallHello :=
  { member := c.self, gtag := c.grp.gtag, call := c.num, op := BitVec.ofNat 3 c.op, fmt := BitVec.ofNat 5 (fieldAt c.desc 2 1)
    prof := BitVec.ofNat 4 c.prof, count := BitVec.ofNat 64 c.count, chunke := BitVec.ofNat 32 c.chunke, root := BitVec.ofNat 16 c.root
    permDigest := if c.op = 4 then Config.permDigest c.perm else 0 }

/-- A call sends a message to every other member, under its number (R280). -/
def State.tell (s : State) (c : Call) (f : BitVec 48 → Out) : State :=
  c.others.foldl (fun s j => s.post 0 c.core (some c.seq) (f (c.pkgOf j))) s

/-- Calls of a group that have not completed. -/
def State.callsOf (s : State) (inst slot : Nat) : List Call := s.calls.filter fun c => decide (c.inst = inst ∧ c.grp.slot = slot)

/-- Changes a chunk counter for each of a list of numbers. -/
def State.onCounters (s : State) (inst : Nat) (ns : List Nat) (f : ChunkCtr → ChunkCtr) : State :=
  ns.foldl (fun s n => s.setChunkCtr inst n (f (s.chunkCtr inst n))) s

/-- Runs a collective call (R353, R354). DESIGN CHOICE (log 59): a fifth call of a group waits for its place before the checks of its
fields and buffers are made. -/
def execClrun (sd sa : SReg) (s : State) : Res :=
  let va := (s.rdS .sq sa).toNat
  let inst := s.here.inst
  if s.here.sys.urgent || !s.here.predsOk then s.trap .sq .illegal
  else if !s.here.canNumber then s.stall .sq
  else if s.level = .reduced then s.trap .sq .translation
  else
    orTrap s .sq (s.blockCheck va 128 128 .read) fun _ =>
      let (desc, s') := s.load va 128
      if !callDescOk desc then s.trap .sq .illegal
      else
        match s.groupOf inst (fieldAt desc 1 1) with
        | none => s.trap .sq .illegal
        | some g =>
          if 4 ≤ (s.callsOf inst g.slot).length then s.stall .sq
          else
            orTrap s .sq (s'.prepareCall desc g) fun cs =>
              let c := cs.1
              let obj := if c.doneKind = 0 then none else match s.windowOperand c.daddr 8 8 with | .ok key => some key | .error _ => none
              let wr := obj.map fun key => (key, key + (if c.doneKind = 1 then 16 else 8))
              if s.issueConflict .sq none wr s.here.preds then s.trap .sq .overlap
              else
                let s := (cs.2.takeNumber sd none wr obj).onCounters inst c.counters fun x => { x with armed := true }
                let s : State :=
                  { s with
                    calls := s.calls ++ [c]
                    groups := s.groups.map fun h => if h.inst = inst ∧ h.slot = g.slot then { h with call := h.call + 1 } else h }
                (s.tell c fun pkg => .hello pkg c.hello).done .sq

/-! The life of a call -/

/-- A call by its core and number; where a saved task has another of the same, the device picks. -/
def State.callBy (s : State) (core : Nat) (seq : BitVec 32) : Option Call :=
  match s.calls.filter fun c => decide (c.core = core ∧ c.seq = seq) with
  | [c] => some c
  | l => l[Config.pick s.free seq.toNat % l.length]?

/-- Puts a call back among the others. -/
def State.putCall (s : State) (c : Call) : State := { s with calls := s.calls.map fun d => if d.same c then c else d }

/-- A call is held for an absent member, or for one whose part has ended (R364, R365). -/
def Call.isHeld (c : Call) : Bool := !c.absent.isEmpty || !c.faulted.isEmpty

/-- Another call of the group is held (R365). -/
def State.callHeld (s : State) (c : Call) : Bool :=
  (s.callsOf c.inst c.grp.slot).any fun d => !d.same c && d.isHeld

/-- The 64 bytes of a call's record (R362). -/
def Call.record (c : Call) (status : Nat) (fault : Code) (faddr : Nat) : List Byte :=
  recordBytes c.seq c.core status fault faddr c.bytes c.events.toNat ++ toBytes 4 (c.nan.getD 0xFFFFFFFF) ++
    toBytes 4 (c.rescaled.getD 0xFFFFFFFF) ++ toBytes 4 c.complete.length ++
    toBytes 4 ((if c.nan.isSome then 1 else 0) + (if c.rescaled.isSome then 2 else 0) + (if c.back then 4 else 0)) ++ toBytes 16 0

/-- The chunk bitmap, in whole words (R362). -/
def Call.bitmapBytes (c : Call) : List Byte :=
  toBytes (8 * ceilDiv c.chunkCount 64) ((List.range c.chunkCount).foldl (fun n i => if c.complete.contains i then n + 2 ^ i else n) 0)

/-- Writes a call's record and bitmap; none where they have to wait (R305, R362, R363). -/
def State.callRecord (s : State) (c : Call) (status : Nat) (fault : Code) (faddr : Nat) : Option State :=
  match s.taskRecord c.inst c.core c.asid c.recaddr (c.record status fault faddr) with
  | none => none
  | some s => s.taskRecord c.inst c.core c.asid c.bitmap c.bitmapBytes

/-- The first fault of writing a call's record or bitmap, with its address (R364). -/
def State.callRecordFault (s : State) (c : Call) : Option (Code × Nat) :=
  let try_ (va n : Nat) : Option (Code × Nat) :=
    if va = 0 then none
    else match s.taskStore c.inst c.core c.asid va (List.replicate n 0) with | some (.error e) => some (e, va) | _ => none
  (try_ c.recaddr 64).orElse fun _ => try_ c.bitmap c.bitmapBytes.length

/-- Removes a call: its counters disarm and its number retires (R268, R355). -/
def State.endCall (s : State) (c : Call) : State :=
  let s := s.onCounters c.inst c.counters fun x => { x with armed := false }
  ({ s with calls := s.calls.filter fun d => !d.same c }).retireCmd c.inst c.seq

/-- A call ends without its result: the record, the asynchronous event, and the group slot emptied where every member loses the call; of
a fault of this member the others hear (R354, R364, R365). None where the record has to wait. -/
def State.breakCall (s : State) (c : Call) (status : Nat) (code : Code) (faddr : Nat) : Option State :=
  match s.callRecord c status (if status = 1 then code else 0) faddr with
  | none => none
  | some s =>
    let s := if status = 1 then s.tell c fun pkg => .ended pkg c.grp.gtag c.num else s.dropGroup c.inst c.grp.slot
    some ((s.endCall c).commandEvent c.core c.inst c.task code 0 c.seq faddr)

/-- Every other member has shown its values exactly once. -/
def Call.allShown (c : Call) (hs : List CallHello) : Bool := c.others.all fun j => decide ((hs.filter fun h => decide (h.member = j)).length = 1)

/-- A member's fabric engine starts a call, or finds that the members' values differ (R353, R354). -/
def execCallStart (core : Nat) (seq : BitVec 32) (hellos : List CallHello) (s : State) : Res :=
  if 160 ≤ core then .fault .noSuchUnit
  else
    match s.callBy core seq with
    | none => .next s
    | some c =>
      let earlier := (s.callsOf c.inst c.grp.slot).any fun d => !d.started && decide (d.num ≠ c.num) && issuedNo c.num d.num
      if c.started || earlier || s.callHeld c || c.isHeld || !(c.preds.all (s.hasRetired c.inst)) || !c.allShown hellos then .next s
      else if (hellos.filter fun h => decide (h.member ≠ c.self)).all fun h => decide ({ h with member := c.self } = c.hello) then
        .next (s.putCall { c with started := true })
      else orWait s (s.breakCall c 5 .collMismatch 0)

/-- The part [a, b) of SRC of a chunk that goes to member j, as offsets in the chunk's own elements (R352). -/
def Call.toMember (c : Call) (n j : Nat) : Nat × Nat :=
  let (lo, hi) := c.range n
  if c.op = 3 then (max lo (j * c.count) - lo, min hi ((j + 1) * c.count) - lo)
  else if c.op = 4 ∧ c.perm.getD c.self 0 ≠ j then (0, 0) else (0, hi - lo)

/-- Some elements and scales of a chunk's bytes. -/
def Call.cut (c : Call) (x : List Byte × List Byte) (a b : Nat) : List Nat × List Nat :=
  (((List.range (b - a)).map fun i => codeAt c.fmt.bits (ofBytes x.1) (a + i)),
   if c.fmt.isMx then ((x.2.drop (a / 32)).take ((b - a) / 32)).map BitVec.toNat else [])

/-- The bytes of some elements and then of their scales, as a packet carries them. -/
def Call.payload (c : Call) (x : List Nat × List Nat) : List Byte :=
  toBytes (c.bytesOf x.1.length) (packCodes c.fmt.bits x.1) ++ x.2.map (BitVec.ofNat 8)

/-- What the dies and the write-combining buffers of a task hold of n bytes at va of global memory reaches home (R139, R143, R355). -/
def State.performSource (s : State) (asid : BitVec 12) (va n : Nat) (cores : List Nat) : State :=
  cores.foldl (fun s d => (pieces n va n).foldl (fun s p =>
    match translate s (dieOf d) asid p.1 with
    | .ok t => drainCombineLine (drainLine (dieOf d) (t.phys / 128 * 128) (s.die (dieOf d)).buf.length s) d (t.phys / 128)
    | .error _ => s) s) s

/-- The blocks in which a member's elements a to b of a chunk travel: for a reducing call wire blocks with their residues, MX blocks or
integers, 32 elements each; else the bytes, in runs that fill a packet (R347, R358 to R360). -/
def Call.blocks (c : Call) (x : List Byte × List Byte) (a b : Nat) : List Payload :=
  let y := c.cut x a b
  if c.reduces then
    (List.range (ceilDiv y.1.length 32)).map fun i => (Net.contribution c.fmt (y.2.getD i 0) ((y.1.drop (32 * i)).take 32)).block
  else
    let bs := c.payload y
    (chunks (64 * flitBytes) bs.length bs).map Payload.bytes

/-- The packets that carry some blocks, each with the number of its first block: as many blocks as 64 flits hold (R347). -/
def Call.packets (c : Call) (l : List Payload) : List (Nat × List Payload) :=
  let per := max 1 (64 * flitBytes / max 1 ((l.head?.map (Payload.size c.fmt)).getD 1))
  (chunks per l.length l).zipIdx.map fun x => (per * x.2, x.1)

/-- The chunk's earlier uses of its counter have been sent (R355). -/
def Call.counterTurn (c : Call) (n : Nat) : Bool :=
  (List.range n).all fun m => decide (c.counter m ≠ c.counter n) || c.own.any fun x => decide (x.1 = m)

/-- A chunk is read and sent, in a counted call once its counter has reached EXPECT (R355, R364). -/
def execChunkSend (core : Nat) (seq : BitVec 32) (chunk : Nat) (s : State) : Res :=
  if 160 ≤ core then .fault .noSuchUnit
  else
    match s.callBy core seq with
    | none => .next s
    | some c =>
      let x := s.chunkCtr c.inst (c.counter chunk)
      if !c.started || s.callHeld c || !c.sends || decide (c.chunkCount ≤ chunk) || (c.own.any fun o => decide (o.1 = chunk)) ||
          (c.counted && (decide (x.count.toNat < x.expect.toNat) || !c.counterTurn chunk)) then .next s
      else
        let (lo, hi) := c.range chunk
        let cores := (core :: s.taskCores c.inst).eraseDups
        let at_ := c.src + lo * c.fmt.bits / 8
        let s := s.performSource c.asid at_ (c.src + ceilDiv (hi * c.fmt.bits) 8 - at_) cores
        let s := if c.fmt.isMx then s.performSource c.asid (c.sscale + lo / 32) ((hi - lo) / 32) cores else s
        let scales := if c.fmt.isMx then s.readElems core c.asid c.sscale 8 (lo / 32) ((hi - lo) / 32) else .ok []
        match s.readElems core c.asid c.src c.fmt.bits lo (hi - lo), scales with
        | .error (e, va), _ => orWait s (s.breakCall c 1 e va)
        | _, .error (e, va) => orWait s (s.breakCall c 1 e va)
        | .ok xs, .ok ss =>
          let mine : List Byte × List Byte := (toBytes (c.bytesOf xs.length) (packCodes c.fmt.bits xs), ss.map (BitVec.ofNat 8))
          let s := if c.counted then s.setChunkCtr c.inst (c.counter chunk) { x with count := x.count - x.expect } else s
          let s := (s.learnElems core c.asid c.src c.fmt.bits lo (hi - lo)).learnElems core c.asid c.sscale 8 (lo / 32) ss.length
          let s := c.others.foldl (fun s j =>
            let (a, b) := c.toMember chunk j
            (c.packets (c.blocks mine a b)).foldl (fun s q =>
              s.post 0 c.core (some c.seq) (.chunk (c.pkgOf j) c.num c.grp.gtag chunk q.1 q.2) c.fmt) s) s
          .next (s.putCall { c with own := c.own ++ [(chunk, mine)] })

/-- The elements of a chunk that a delivery needs from member j: as offsets in j's chunk (R352). -/
def Call.fromMember (c : Call) (n j : Nat) : Nat × Nat :=
  let (lo, hi) := c.range n
  if c.op = 3 then (max lo (c.self * c.count) - lo, min hi ((c.self + 1) * c.count) - lo)
  else if (c.op = 4 ∧ c.perm.getD j 0 ≠ c.self) ∨ (c.op = 5 ∧ j ≠ c.root) then (0, 0) else (0, hi - lo)

/-- Members whose elements a chunk needs here. -/
def Call.needs (c : Call) (n : Nat) : List Nat := (List.range c.members).filter fun j => decide ((c.fromMember n j).1 < (c.fromMember n j).2)

/-- What arrived of a chunk from member j, or this member's own: the elements and scales of a moving call. -/
def Call.arrived (c : Call) (n : Nat) (others : List (Nat × List Payload × Flags)) (j : Nat) : Option (List Nat × List Nat) :=
  let (a, b) := c.fromMember n j
  if j = c.self then (c.own.find? fun o => decide (o.1 = n)).map fun o => c.cut o.2 a b
  else
    match others.find? fun o => decide (o.1 = j) with
    | some (_, ps, _) =>
      let bs := ps.flatMap fun p => match p with | .bytes l => l | _ => []
      if bs.length = c.bytesOf (b - a) + (if c.fmt.isMx then (b - a) / 32 else 0) then
        some (codesIn c.fmt.bits (b - a) (bs.take (c.bytesOf (b - a))), (bs.drop (c.bytesOf (b - a))).map BitVec.toNat)
      else none
    | none => none

/-- The contributions of member j to the blocks of a chunk of a reducing call: this member's own, or those that arrived, each of the shape and
with the residue of its contents; what a truncation at the other member has set comes with them (R358 to R360). -/
def Call.contributions (c : Call) (n : Nat) (others : List (Nat × List Payload × Flags)) (j : Nat) : Option (List Net.Part) :=
  let len := (c.range n).2 - (c.range n).1
  let size (i : Nat) : Nat := min 32 (len - 32 * i)
  if j = c.self then
    (c.own.find? fun o => decide (o.1 = n)).map fun o =>
      let y := c.cut o.2 0 len
      (List.range (ceilDiv len 32)).map fun i => Net.contribution c.fmt (y.2.getD i 0) ((y.1.drop (32 * i)).take (size i))
  else
    match others.find? fun o => decide (o.1 = j) with
    | some (_, ps, fl) =>
      if ps.length = ceilDiv len 32 && ps.zipIdx.all fun p => Net.shaped c.fmt (size p.2) p.1 && Net.sound p.1 then
        some (ps.map fun p => ⟨p, if c.fmt.isMx || c.fmt.isInt then 0 else fl &&& Flags.inexact, false⟩)
      else none
    | none => none

/-- The node number of a member (R21, R357). -/
def State.nodeOf (s : State) (pkg : BitVec 48) : Nat := if pkg = s.package then slice s.coord 59 48 else Config.node pkg

/-- Reduces the blocks of a chunk of n elements over the members with their contributions (R357, R358, R360): the result of each block of 32
elements. -/
def State.reduceChunk (s : State) (c : Call) (xs : List (Nat × List Net.Part)) (n : Nat) : List Net.Root :=
  (List.range (ceilDiv n 32)).map fun b =>
    Net.reduceParts c.fmt (min 32 (n - 32 * b)) (xs.map fun x => (s.nodeOf (c.pkgOf x.1), x.2.getD b ⟨.none, 0, false⟩))

/-- The pieces of DST that a chunk of a moving call fills: the first element, the codes and the scales (R352). -/
def Call.moved (c : Call) (n : Nat) (xs : List (Nat × List Nat × List Nat)) : List (Nat × List Nat × List Nat) :=
  let lo := (c.range n).1
  xs.map fun x =>
    let a := (c.fromMember n x.1).1
    ((if c.op = 2 then x.1 * c.count + lo else if c.op = 3 then x.1 * c.count + (lo + a - c.self * c.count) else lo), x.2)

/-- The piece of DST that a reduced chunk fills, as the first element, the codes and the scales (R352). -/
def Call.reducedPiece (c : Call) (n : Nat) (codes scales : List Nat) : Nat × List Nat × List Nat :=
  let (lo, hi) := c.range n
  if c.op = 0 then (lo, codes, scales)
  else
    let a := max lo (c.self * c.count)
    let b := min hi ((c.self + 1) * c.count)
    (a - c.self * c.count, (codes.drop (a - lo)).take (b - a), (scales.drop ((a - lo) / 32)).take ((b - a) / 32))

/-- Writes pieces of DST at mesh scope under the call's generation (R363). -/
def State.writePiecesOf (c : Call) : List (Nat × List Nat × List Nat) → State → Except (Code × Nat) State
  | [], s => .ok s
  | (off, xs, ss) :: r, s =>
    match s.writeElems c.core c.asid c.gen c.dst c.fmt.bits off xs with
    | .error e => .error e
    | .ok s =>
      match (if c.fmt.isMx then s.writeElems c.core c.asid c.gen c.dscale 8 (off / 32) ss else .ok s) with
      | .error e => .error e
      | .ok s => State.writePiecesOf c r s

/-- The lesser of two chunk numbers. -/
def leastChunk (a : Option Nat) (hit : Bool) (n : Nat) : Option Nat :=
  if hit then (match a with | some m => some (min m n) | none => some n) else a

/-- Some element of a piece is a NaN (R361, R362). -/
def Call.pieceNan (c : Call) (codes scales : List Nat) : Bool :=
  codes.zipIdx.any fun x =>
    (if c.fmt.isMx then mxValue c.fmt x.1 (scales.getD (x.2 / 32) 127) else elemValue c.fmt x.1).isNan

/-- Every contribution to a chunk has arrived: the chunk is reduced or moved and written to DST (R352, R358 to R361, R364). others holds,
for each other member that contributes, its index, its blocks and what their truncation has set; until they are all there, and sound, nothing
happens. -/
def execCallDelivery (core : Nat) (seq : BitVec 32) (chunk : Nat) (others : List (Nat × List Payload × Flags)) (s : State) : Res :=
  if 160 ≤ core then .fault .noSuchUnit
  else
    match s.callBy core seq with
    | none => .next s
    | some c =>
      let js := c.needs chunk
      if !c.started || s.callHeld c || decide (c.chunkCount ≤ chunk) || c.complete.contains chunk ||
          (js.contains c.self && !(c.own.any fun o => decide (o.1 = chunk))) then .next s
      else
        let xs := if c.reduces then [] else js.filterMap fun j => (c.arrived chunk others j).map fun x => (j, x.1, x.2)
        let parts := if c.reduces then js.filterMap fun j => (c.contributions chunk others j).map fun x => (j, x) else []
        if xs.length + parts.length ≠ js.length then .next s
        else
          let n := (c.range chunk).2 - (c.range chunk).1
          let rs := if c.reduces then s.reduceChunk c parts n else []
          let ps := if c.reduces then [c.reducedPiece chunk (rs.flatMap fun r => r.codes) (rs.map fun r => r.scale)] else c.moved chunk xs
          match State.writePiecesOf c ps s with
          | .error (e, va) => orWait s (s.breakCall c 1 e va)
          | .ok s =>
            .next (s.putCall { c with
              complete := c.complete ++ [chunk]
              bytes := c.bytes + (ps.map fun p => c.bytesOf p.2.1.length).sum
              events := c.events ||| Flags.all (rs.map fun r => r.events)
              nan := leastChunk c.nan (rs.any (fun r => r.nan) || ps.any fun p => c.pieceNan p.2.1 p.2.2) chunk
              rescaled := leastChunk c.rescaled (rs.any fun r => r.rescaled) chunk })

/-- Every chunk of a call is complete: the record, the bitmap, the completion object, and the number retires (R363); a record or bitmap
that cannot be written is a fault after issue (R364). The call is the unit under the cursor. -/
def execCallComplete (s : State) : Res :=
  match s.callBy s.cur.core (BitVec.ofNat 32 s.cur.unit) with
  | none => .next s
  | some c =>
    if !c.started || s.callHeld c || decide (c.complete.length < c.chunkCount) || (c.sends && decide (c.own.length < c.chunkCount)) then .next s
    else
      orWait s (match s.callRecordFault c with
        | some (e, va) => s.breakCall c 1 e va
        | none =>
        match s.callRecord c 0 0 0 with
        | none => none
        | some s => (s.doneAction c.inst c.doneKind c.daddr c.bytes c.dval).map fun s => s.endCall c)

/-- Members that have not come back learn that a call is lost: those that can be reached now, the others once they can (R334, R365). -/
def State.tellLost (s : State) (ps : List (BitVec 48)) (gtag call : BitVec 32) (seq : Option (BitVec 32)) (core : Nat) : State :=
  ps.eraseDups.foldl (fun s p =>
    if s.absent.contains p then { s with lost := s.lost ++ [(p, gtag, call)] } else s.post 0 core seq (.lost p gtag call)) s

/-- The hold window of a call with an absent member ends: COLL_LOST (R365). The call is the unit under the cursor. -/
def execCollHoldExpiry (s : State) : Res :=
  match s.callBy s.cur.core (BitVec.ofNat 32 s.cur.unit) with
  | none => .next s
  | some c =>
    if !c.isHeld then .next s
    else
      orWait s ((s.breakCall c 4 .collLost 0).map fun s => s.tellLost (c.absent ++ c.faulted) c.grp.gtag c.num (some c.seq) c.core)

/-- A package that was absent is back: the calls and reshards that were held for it alone go on (R334, R365). -/
def State.memberBack (s : State) (pkg : BitVec 48) : State :=
  { s with
    absent := s.absent.filter fun p => decide (p ≠ pkg)
    calls := s.calls.map fun c => if c.absent.contains pkg then { c with absent := c.absent.filter fun p => decide (p ≠ pkg), back := true } else c
    reshards := s.reshards.map fun r => { r with absent := r.absent.filter fun p => decide (p ≠ pkg) } }

/-- A call of this package by its group tag and number. -/
def State.callTagged (s : State) (gtag call : BitVec 32) : Option Call := s.calls.find? fun c => decide (c.grp.gtag = gtag ∧ c.num = call)

/-- A member's part of a call has ended by a fault: the call is held for it here (R364). -/
def State.memberEnded (s : State) (pkg : BitVec 48) (gtag call : BitVec 32) : State :=
  match s.callTagged gtag call with
  | some c => s.putCall { c with faulted := if c.faulted.contains pkg then c.faulted else c.faulted ++ [pkg] }
  | none => s

/-- The survivors have lost a call without this member: COLL_LOST where it still runs here, and the group slot is empty either way
(R365). None where the record has to wait. -/
def State.callLost (s : State) (gtag call : BitVec 32) : Option State :=
  match s.callTagged gtag call with
  | some c => s.breakCall c 4 .collLost 0
  | none => some { s with groups := s.groups.filter fun g => !decide (g.gtag = gtag ∧ issuedNo g.call call = true) }

/-- An absent member returns within the hold window (R334, R365). -/
def execMemberReturn (pkg : BitVec 48) (s : State) : Res := .next (s.memberBack pkg)

end Sys2Proof.Machine
end

