-- ==== Sys2Proof/Machine/Planner.lean ====
section
/-! DEFINITION. The reshard planner (R338, R339) and the image of a plan (R340). -/

namespace Sys2Proof.Machine

/-- The role of an axis in a map (R338). -/
inductive Role where
  | split (d : Nat)
  | part
  | replica
  deriving DecidableEq, Repr

/-- A step of a plan: its axes and dimensions (R338). -/
inductive PStep where
  | slice (a d : Nat)
  | scatter (axes : List (Nat × Nat))
  | exchange (a d d' : Nat)
  | permute (a d : Nat)
  | halo (d : Nat)
  | gather (a d : Nat)
  deriving DecidableEq, Repr

/-- A placed step and its bytes. -/
structure Placed where
  step : PStep
  bytes : Nat
  deriving DecidableEq, Repr

namespace Plan

/-- The role of axis a. -/
def role (t : Shape) (m : BitVec 256) (a : Nat) : Role :=
  if (mapPartial m).testBit a then .part
  else match t.dims.find? fun d => (mapAxes m d).contains a with
    | some d => .split d
    | none => .replica

/-- Packages of the mesh. -/
def packages (mesh : Word) : Nat := ((List.range 4).map (axisSize mesh)).prod

/-- The product of the sizes of some axes. -/
def sizes (mesh : Word) (l : List Nat) : Nat := (l.map (axisSize mesh)).prod

/-- The product of the sizes of the axes inner to a in a list. -/
def inner (mesh : Word) (l : List Nat) (a : Nat) : Nat := sizes mesh ((l.dropWhile fun x => decide (x ≠ a)).drop 1)

/-- The layout: for each dimension the axes that split it. -/
abbrev Layout := List (List Nat)

/-- The chunk of a dimension in a layout. -/
def chunk (mesh : Word) (t : Shape) (l : Layout) (d : Nat) : Nat := ceilDiv (t.extent d) (sizes mesh (l.getD d []))

/-- Elements of a package's part in a layout, padding counted. -/
def volume (mesh : Word) (t : Shape) (l : Layout) : Nat := (t.dims.map (chunk mesh t l)).prod

/-- The list of a dimension changes. -/
def onDim (l : Layout) (d : Nat) (f : List Nat → List Nat) : Layout := l.set d (f (l.getD d []))

/-- What a step leaves (R338). -/
def after (l : Layout) : PStep → Layout
  | .slice a d => onDim l d (· ++ [a])
  | .scatter axs => axs.foldl (fun l x => onDim l x.2 (· ++ [x.1])) l
  | .exchange a d d' => onDim (onDim l d fun x => x.filter fun b => decide (b ≠ a)) d' (· ++ [a])
  | .permute _ _ => l
  | .halo _ => l
  | .gather a d => onDim l d fun x => x.filter fun b => decide (b ≠ a)

/-- Halo positions along a dimension, summed over its chunks: those with an element at all, and those whose element another chunk
holds (R339). -/
def haloCounts (mesh : Word) (t : Shape) (md : BitVec 256) (d : Nat) : Nat × Nat :=
  let n := mapN mesh md d
  let c := mapChunk mesh t md d
  let e := t.extent d
  (List.range n).foldl (fun acc k =>
    let qs := ((List.range (mapLo md d)).map fun (j : Nat) => ((k * c : Nat) : Int) - (mapLo md d : Int) + (j : Int)) ++
      (List.range (mapHi md d)).map fun j => (((k + 1) * c + j : Nat) : Int)
    let real := (qs.map fun q => if mapPer md d then q % (e : Int) else q).filter fun q => decide (0 ≤ q ∧ q < (e : Int))
    (acc.1 + real.length, acc.2 + (real.filter fun q => decide (q.toNat / c ≠ k)).length)) (0, 0)

/-- Positions of dimension d whose coordinate along axis a differs between two maps, out of those that the first map lays out: a padding
position moves where the second has a chunk for it (R338, R339). -/
def permuted (mesh : Word) (t : Shape) (ms md : BitVec 256) (a d : Nat) : Nat :=
  let n0 := mapN mesh ms d
  let n1 := mapN mesh md d
  let c0 := mapChunk mesh t ms d
  let c1 := mapChunk mesh t md d
  let at_ (m : BitVec 256) (c i : Nat) : Nat := i / c / inner mesh (mapAxes m d) a % axisSize mesh a
  ((List.range (c0 * n0)).filter fun i => decide (i / c1 < n1) && decide (at_ ms c0 i ≠ at_ md c1 i)).length

/-- Elements that leave their package in a step, summed over the mesh (R339). halos are the dimensions whose halo permutes have
been placed before; a halo of a dimension that no axis splits needs no permute of its own, so its positions count with every other. -/
def elements (mesh : Word) (t : Shape) (ms md : BitVec 256) (l : Layout) (halos : List Nat) (p : PStep) : Nat :=
  let n := packages mesh
  match p with
  | .slice _ _ => 0
  | .scatter axs => n * (sizes mesh (axs.map Prod.fst) - 1) * volume mesh t (after l p)
  | .exchange a _ d' => n * (axisSize mesh a - 1) * volume mesh t (after l (.slice a d'))
  | .gather a _ => n * (axisSize mesh a - 1) * volume mesh t l
  | .permute a d =>
    permuted mesh t ms md a d * n / sizes mesh (l.getD d []) * ((t.dims.filter fun x => decide (x ≠ d)).map (chunk mesh t l)).prod
  | .halo d =>
    let others := t.dims.filter fun x => decide (x ≠ d)
    let across := (others.map fun x => mapN mesh md x * mapChunk mesh t md x + (if halos.contains x || decide (mapNax md x = 0) then (haloCounts mesh t md x).1 else 0)).prod
    (haloCounts mesh t md d).2 * across * n / (t.dims.map (mapN mesh md)).prod

/-- The bytes of a step. -/
def bytes (mesh : Word) (t : Shape) (ms md : BitVec 256) (l : Layout) (halos : List Nat) (p : PStep) : Nat :=
  elements mesh t ms md l halos p * t.fmt.bits / 8

/-- Kinds in the order of R339: slice, reduce-scatter, all-to-all, reordering permute, halo permute, all-gather. -/
def phase : PStep → Nat
  | .slice _ _ => 0 | .scatter _ => 1 | .exchange _ _ _ => 2 | .permute _ _ => 3 | .halo _ => 4 | .gather _ _ => 5

/-- The least of some numbers, 4 for none. -/
def least (l : List Nat) : Nat := l.foldl min 4

/-- The lowest axis and the dimension of a step, for ties (R339). -/
def tie (md : BitVec 256) : PStep → Nat × Nat
  | .slice a d => (a, d)
  | .scatter axs => (least (axs.map Prod.fst), 0)
  | .exchange a d _ => (a, d)
  | .permute a d => (a, d)
  | .halo d => (least (mapAxes md d), d)
  | .gather a d => (a, d)

/-- The step to place next: fewest bytes, then the lowest axis, then the lower dimension (R339). -/
def cheapest (cost : PStep → Nat) (md : BitVec 256) : List PStep → Option PStep
  | [] => none
  | p :: r =>
    match cheapest cost md r with
    | none => some p
    | some q =>
      let a := (cost p, (tie md p).1, (tie md p).2)
      let b := (cost q, (tie md q).1, (tie md q).2)
      if a.1 < b.1 ∨ (a.1 = b.1 ∧ (a.2.1 < b.2.1 ∨ (a.2.1 = b.2.1 ∧ a.2.2 ≤ b.2.2))) then some p else some q

/-- Places the steps of one kind one at a time (R339). -/
def placeKind (mesh : Word) (t : Shape) (ms md : BitVec 256) : Nat → List PStep → Layout → List Nat → List Placed → Layout × List Nat × List Placed
  | 0, _, l, hs, out => (l, hs, out)
  | f + 1, todo, l, hs, out =>
    match cheapest (bytes mesh t ms md l hs) md todo with
    | none => (l, hs, out)
    | some p =>
      let hs' := match p with | .halo d => d :: hs | _ => hs
      placeKind mesh t ms md f (todo.erase p) (after l p) hs' (out ++ [⟨p, bytes mesh t ms md l hs p⟩])

/-- The steps that the roles call for, with scatter dimensions for the axes that go from partial to replica; none where the plan is
illegal (R338). -/
def steps (mesh : Word) (t : Shape) (ms md : BitVec 256) (choice : List (Nat × Nat)) : Option (List PStep) :=
  let axes := (List.range 4).filter fun a => decide (axisSize mesh a ≠ 1)
  let pick (a : Nat) : Nat := ((choice.find? fun x => decide (x.1 = a)).map Prod.snd).getD 0
  if axes.any fun a => decide (role t ms a ≠ .part ∧ role t md a = .part) then none
  else
    let scat := axes.filterMap fun a => match role t ms a, role t md a with
      | .part, .split d => some (a, d)
      | .part, .replica => some (a, pick a)
      | _, _ => none
    let each := axes.filterMap fun a => match role t ms a, role t md a with
      | .part, .replica => some (PStep.gather a (pick a))
      | .replica, .split d => some (.slice a d)
      | .split d, .replica => some (.gather a d)
      | .split d, .split d' =>
        if d ≠ d' then some (.exchange a d d')
        else if mapN mesh ms d ≠ mapN mesh md d ∨ inner mesh (mapAxes ms d) a ≠ inner mesh (mapAxes md d) a then some (.permute a d)
        else none
      | _, _ => none
    let halos := (t.dims.filter fun d => decide (mapNax md d ≠ 0) && (decide (mapLo md d ≠ 0) || decide (mapHi md d ≠ 0))).map PStep.halo
    some ((if scat.isEmpty then [] else [.scatter scat]) ++ each ++ halos)

/-- The plan under one choice of scatter dimensions. -/
def build (mesh : Word) (t : Shape) (ms md : BitVec 256) (choice : List (Nat × Nat)) : Option (List Placed) :=
  (steps mesh t ms md choice).map fun todo =>
    ((List.range 6).foldl (fun acc k => placeKind mesh t ms md 16 (todo.filter fun p => decide (phase p = k)) acc.1 acc.2.1 acc.2.2)
      (t.dims.map (mapAxes ms), [], [])).2.2

/-- Every combination of dimensions for some axes, the lowest axis slowest. -/
def choices (rank : Nat) : List Nat → List (List (Nat × Nat))
  | [] => [[]]
  | a :: r => (List.range rank).flatMap fun d => (choices rank r).map fun c => (a, d) :: c

/-- TOTAL. -/
def total (l : List Placed) : Nat := (l.map fun p => p.bytes).sum

/-- The first plan with the fewest bytes. -/
def best : List (List Placed) → Option (List Placed)
  | [] => none
  | p :: r => match best r with | none => some p | some q => if total p ≤ total q then some p else some q

/-- The plan of a reshard, none where it is illegal (R338, R339). -/
def plan (mesh : Word) (t : Shape) (ms md : BitVec 256) : Option (List Placed) :=
  let free := (List.range 4).filter fun a => decide (axisSize mesh a ≠ 1 ∧ role t ms a = .part ∧ role t md a = .replica)
  best ((choices t.rank free).filterMap (build mesh t ms md))

/-- The plan reduces. -/
def reduces (l : List Placed) : Bool := l.any fun p => match p.step with | .scatter _ => true | _ => false

/-- The reduce-scatter's axes with their dimensions. -/
def scatterAxes (l : List Placed) : List (Nat × Nat) :=
  (l.map fun p => match p.step with | .scatter axs => axs | _ => []).flatten

/-- A mask of axes. -/
def mask (l : List Nat) : Nat := (l.map fun a => 2 ^ a).sum

/-- A step's 16 bytes (R340). -/
def entry (md : BitVec 256) (p : Placed) : List Byte :=
  let out (kind axes fr to_ halo scat : Nat) : List Byte :=
    toBytes 1 kind ++ toBytes 1 axes ++ toBytes 1 fr ++ toBytes 1 to_ ++ toBytes 1 halo ++ toBytes 2 scat ++ toBytes 1 0 ++ toBytes 8 p.bytes
  match p.step with
  | .slice a d => out 0 (2 ^ a) 255 d 0 0
  | .scatter axs =>
    let ds := (axs.map Prod.snd).dedup
    match ds with
    | [d] => out 1 (mask (axs.map Prod.fst)) 255 d 0 0
    | _ => out 1 (mask (axs.map Prod.fst)) 255 255 0 ((axs.map fun x => (x.2 + 1) * 16 ^ x.1).sum)
  | .exchange a d d' => out 2 (2 ^ a) d d' 0 0
  | .permute a d => out 3 (2 ^ a) d d 0 0
  | .halo d => out 3 (mask (mapAxes md d)) 255 d 1 0
  | .gather a d => out 4 (2 ^ a) d 255 0 0

/-- The plan buffer (R340). -/
def image (md : BitVec 256) (l : List Placed) : List Byte :=
  toBytes 1 l.length ++ toBytes 7 0 ++ toBytes 8 (total l) ++ l.flatMap (entry md)

end Plan

end Sys2Proof.Machine
end

