-- ==== Sys2Proof/Machine/Reshards.lean ====
section
/-! DEFINITION. Reshards: the checks at issue, the plan query, the tiles, the switch and the signal (R333 to R337, R340). -/

namespace Sys2Proof.Machine

/-! The words -/

/-- The tensor, the two maps and the plan of a reshard, in the order of the checks of R333, 1 to 4. -/
def State.reshardPlan (s : State) (sa : SReg) (ms md : MapNo) : Except Code (Shape × BitVec 256 × BitVec 256 × List Placed × State) :=
  let a := (s.rdS .sq sa).toNat
  if 65536 ≤ a then .error .illegal
  else
    match s.readShape a with
    | .error e => .error e
    | .ok (t, s') =>
      if !t.mapped ∨ t.mapNo ≠ ms.toNat then .error .illegal
      else
        let m := s.rdMap .sq ms.toNat
        let n := s.rdMap .sq md.toNat
        if !(mapValid s.mesh t m && mapValid s.mesh t n) then .error .illegal
        else
          match Plan.plan s.mesh t m n with
          | none => .error .illegal
          | some p => .ok (t, m, n, p, s')

/-- Elements of the local buffer of a map (R326, R328). -/
def localCount (mesh : Word) (t : Shape) (m : BitVec 256) : Nat := (t.dims.map (localExt mesh t m)).prod

/-- Bytes of the local buffer's element array: B of R337. -/
def localBytes (mesh : Word) (t : Shape) (m : BitVec 256) : Nat := codeBytes t.fmt.bits (localCount mesh t m)

/-- The check of the destination buffer (R333). -/
def State.destCheck (s : State) (va n : Nat) : Option Code := if inScratch va then s.windowCheck va n 64 else s.bufferCheck va n 64 .write

/-- PROF against the plan (R333, check 5). -/
def profFault (t : Shape) (p : List Placed) (prof : BitVec 4) : Option Code :=
  if Plan.reduces p then Net.pairFault t.fmt prof.toNat else if prof = 0 then none else some .illegal

/-- What another package has to show to join a reshard (R334). -/
def Reshard.hello (r : Reshard) (pkg : BitVec 48) (t : Shape) : ReshardHello :=
  { pkg := pkg, task := r.task, tensor := BitVec.ofNat 16 r.tid, ordinal := r.ordinal, extents := t.ext, fmt := BitVec.ofNat 5 (Fmt.code t.fmt)
    mapS := r.mapS, mapD := r.mapD }

/-- A word of an engine that is still sending or performing its writes of elements (R145, R346). -/
def EngSt.writing (x : EngSt) : Bool := match x.wait with | some (.lines op) => op.write | _ => false

/-- The tensor-index writes of the task that are under way: words that are still at theirs, by engine and number, remote accesses of its core,
and copies to the tensor (R334). -/
def State.writesUnderWay (s : State) (tid : Nat) : List (Nat × Nat) × List Nat × List (BitVec 32) :=
  let k := s.here
  ((Eng.all.filter fun e => (k.en e).writing).map fun e => (e.tag, (k.en e).issued),
    (k.remote.filter fun r => r.write && decide (r.eng < 6)).map RemoteOut.tag,
    (s.copies.filter fun c => decide (c.inst = k.inst) && (decide (c.kind = 1) || decide (c.kind = 3)) && decide (fieldAt c.desc 0 2 = tid)).map
      Copy.seq)

/-- The tensor-index writes that came before a reshard have been performed (R334): of a word that was still at them, when it is done and no write
of its engine is on its way. -/
def State.writesDone (s : State) (r : Reshard) : Bool :=
  let k := s.core r.core
  let at_ (x : Nat × Nat) : Bool := let e := k.en (Eng.ofTag x.1); decide (k.inst = r.inst) && e.writing && decide (e.issued = x.2)
  r.writes.all (s.hasRetired r.inst) && (k.remote.all fun x => !r.tags.contains x.tag) &&
    !r.engs.any at_ && k.remote.all fun x => !(x.write && r.engs.any fun y => decide (y.1 = x.eng))

/-- The stores of a core's store engine leave the die's write buffer, the tensor-index writes of a task to its own elements among them
(R334). -/
def State.performStores (s : State) (c : Nat) : State :=
  drainNeeded (dieOf c) (fun b => decide (b.stream = 6 * c + Eng.st.tag)) (s.die (dieOf c)).buf.length s

/-- A reshard shows the other packages its call (R334). -/
def State.showReshard (s : State) (r : Reshard) (t : Shape) : State :=
  s.post 0 r.core (some r.seq) (.reshard (r.hello s.package t))

/-- Issues a reshard (R333, R334, R336). -/
def execRshd (sd sa sb sc : SReg) (ms md : MapNo) (prof : BitVec 4) (s : State) : Res :=
  let k := s.here
  let b := (s.rdS .sq sb).toNat
  let c := (s.rdS .sq sc).toNat
  if k.sys.urgent || !k.predsOk then s.trap .sq .illegal
  else if !k.canNumber || decide (4 ≤ (s.reshards.filter fun r => decide (r.inst = k.inst)).length) then s.stall .sq
  else
    orTrap s .sq (s.reshardPlan sa ms md) fun (t, m, n, p, s') =>
      match profFault t p prof with
      | some e => s.trap .sq e
      | none =>
        let bytes := localBytes s.mesh t n
        match lowest [s.windowCheck c 64 32, s.destCheck b bytes, if s.level = .full then none else some .translation] with
        | some e => s.trap .sq e
        | none =>
          if (s.lockOf (s.recKey t.recVa)).isSome then s.trap .sq .mapLocked
          else
            let obj := match s.windowOperand c 16 16 with | .ok key => some key | .error _ => none
            let block := obj.map fun key => (key, key + 64)
            let buf := hull (spadPart s.cur.core k ((b : Int), ((b + bytes : Nat) : Int)))
            if s.recordBusy .sq t.recVa || s.issueConflict .sq none block k.preds || s.issueConflict .sq none buf k.preds then s.trap .sq .overlap
            else
              let tid := (s.rdS .sq sa).toNat
              let slot := k.inst * 65536 + tid
              let ordinal := Bank.get 0 s.ordinals slot
              let (rec128, s') := s'.load t.recVa 128
              let under := s.writesUnderWay tid
              let r : Reshard :=
                { core := s.cur.core, inst := k.inst, seq := s.nextNumber, task := k.sys.taskid, asid := k.sys.asid, tid := tid, shape := rec128
                  shapeAddr := t.recVa, key := s.recKey t.recVa, ms := ms.toNat, md := md.toNat, mapS := m, mapD := n, dst := b, obj := c
                  prof := prof.toNat, ordinal := ordinal, preds := k.preds, started := false, landed := [], switched := false, events := 0
                  absent := (meshPackages s.mesh).filter fun q => s.absent.contains q, scales := []
                  engs := under.1, tags := under.2.1, writes := under.2.2, det := k.sys.det
                  shown := under.1.isEmpty && under.2.1.isEmpty && under.2.2.isEmpty }
              let second : List Mark := if k.sys.det && buf.isSome then
                [⟨2 * (s'.nextId + 1), some s.nextNumber, none, buf, obj.map (BitVec.ofNat 64), k.preds⟩] else []
              let s' := (s'.takeNumber sd none block obj).performStores s.cur.core
              let s' := { s' with nextId := s'.nextId + 1 }.upd fun k => { k with marks := k.marks ++ second }
              let s' : State := { s' with reshards := s'.reshards ++ [r], ordinals := Bank.set 0 s'.ordinals slot (ordinal + 1) }
              (if r.shown then s'.showReshard r t else s').done .sq

/-- Writes the plan of a reshard (R340). -/
def execRshdq (sd sa sb : SReg) (ms md : MapNo) (s : State) : Res :=
  orTrap s .sq (s.reshardPlan sa ms md) fun (_, _, n, p, s') =>
    let b := (s.rdS .sq sb).toNat
    let bs := Plan.image n p
    orTrap s .sq (s.blockCheck b bs.length 16 .write) fun _ =>
      ((s'.store .sq b bs).wrS .sq sd (BitVec.ofNat 64 p.length)).done .sq

/-! Where elements come from -/

/-- A reshard with what its tiles need. -/
structure Tiling where
  r : Reshard
  t : Shape
  mesh : Word
  self : Nat
  scatter : List (Nat × Nat)
  deriving DecidableEq, Repr

namespace Tiling

/-- The owner of an index under a map, starting from the coordinates of a package (R10). -/
def owner (x : Tiling) (m : BitVec 256) (from_ : Nat) (g : List Nat) : Nat :=
  x.t.dims.foldl (fun c d => setMixed x.mesh c (mapAxes m d) (g.getD d 0 / mapChunk x.mesh x.t m d)) from_

/-- The global index of a position of the destination buffer; none for padding and an edge halo (R328, R329). -/
def index (x : Tiling) (pos : Nat) : Option (List Nat) :=
  let m := x.r.mapD
  (x.t.dims.zip (boxCoords (x.t.dims.map (localExt x.mesh x.t m)) pos)).mapM fun dp =>
    let d := dp.1
    let q : Int := ((mixedIndex x.mesh x.self (mapAxes m d) * mapChunk x.mesh x.t m d + dp.2 : Nat) : Int) - (mapLo m d : Int)
    let q := if mapPer m d then q % (x.t.extent d : Int) else q
    if 0 ≤ q ∧ q < (x.t.extent d : Int) then some q.toNat else none

/-- The package that holds an index once the steps before the halos and gathers are done (R338). -/
def holder (x : Tiling) (g : List Nat) : Nat := x.owner x.r.mapD x.self g

/-- The members that contribute to an index, by coordinates in ascending linear index: one where nothing is reduced (R335, R338). -/
def sources (x : Tiling) (g : List Nat) : List Nat :=
  let s0 := x.owner x.r.mapS (x.holder g) g
  let all := x.scatter.foldl (fun l a => l.flatMap fun c => (List.range (axisSize x.mesh a.1)).map fun v => setAxis c a.1 v) [s0]
  ((meshPackages x.mesh).map BitVec.toNat).filter fun c => all.contains c

/-- The coordinate along axis a that an index of dimension d has in a list of axes that splits it. -/
def coordIn (x : Tiling) (axes : List Nat) (d a i : Nat) : Nat :=
  i / ceilDiv (x.t.extent d) (Plan.sizes x.mesh axes) / Plan.inner x.mesh axes a % axisSize x.mesh a

/-- Two indices of the last dimension belong to the same package after the reduce-scatter (R335, R338). Where an axis goes from
partial to replica, it splits the dimension inside the axes that split it already. -/
def together (x : Tiling) (i j : Nat) : Bool :=
  let d := x.t.rank - 1
  let old := mapAxes x.r.mapS d
  let new := mapAxes x.r.mapD d
  let slices := new.filter fun a => decide (axisSize x.mesh a ≠ 1) && decide (Plan.role x.t x.r.mapS a = .replica)
  let mine := (x.scatter.filter fun a => decide (a.2 = d)).map Prod.fst
  let same (axes : List Nat) (a : Nat) : Bool := decide (x.coordIn axes d a i = x.coordIn axes d a j)
  decide (i / mapChunk x.mesh x.t x.r.mapS d = j / mapChunk x.mesh x.t x.r.mapS d) && slices.all (same new) &&
    mine.all fun a => if new.contains a then same new a else same (old ++ slices ++ mine) a

/-- The indices of the block that holds an index (R335): up to 32 consecutive last indices, counted from the first of the run that the package
owns; or of the block of R42 of an MX format those that lie in the extent. -/
def block (x : Tiling) (g : List Nat) : List (List Nat) :=
  if x.t.fmt.isMx then
    let i := g.getD x.t.blkdim 0
    ((List.range 32).filter fun j => decide (i / 32 * 32 + j < x.t.extent x.t.blkdim)).map fun j => g.set x.t.blkdim (i / 32 * 32 + j)
  else if x.scatter.isEmpty then [g]
  else
    let d := x.t.rank - 1
    let i := g.getD d 0
    let down := ((List.range (i + 1)).reverse.takeWhile (x.together i)).length
    let start := i + 1 - down + 32 * ((down - 1) / 32)
    let len := (((List.range 32).takeWhile fun j => decide (start + j < x.t.extent d) && x.together i (start + j))).length
    (List.range len).map fun j => g.set d (start + j)

/-- Bit address of an index in the source buffer of this package, and its linear offset (R160). -/
def sourceAt (x : Tiling) (g : List Nat) : Except Code (Nat × Nat) :=
  let m := x.r.mapS
  match x.t.offset (x.t.dims.map fun d => g.getD d 0 % mapChunk x.mesh x.t m d + mapLo m d) with
  | .ok e => .ok (x.t.elemBit e, e)
  | .error c => .error c

end Tiling

/-- The tiling of a reshard. -/
def State.tiling (s : State) (r : Reshard) : Option Tiling :=
  (shapeOf r.shapeAddr r.shape).map fun t =>
    let p := (Plan.plan s.mesh t r.mapS r.mapD).getD []
    ⟨r, t, s.mesh, s.self, Plan.scatterAxes p⟩

/-- A contribution of this package: its encoding, with 256 times the scale code of its block for an MX format. -/
def State.ownTerm (s : State) (x : Tiling) (g : List Nat) : Except (Code × Nat) Nat :=
  match x.sourceAt g with
  | .error e => .error (e, x.t.base)
  | .ok (b, e) =>
    match s.taskBits x.r.inst x.r.core x.r.asid b x.t.fmt.bits with
    | .error e => .error e
    | .ok v =>
      if x.t.fmt.isMx then
        match s.taskBits x.r.inst x.r.core x.r.asid (8 * x.t.scaleVa e) 8 with
        | .ok sc => .ok (v + 256 * sc)
        | .error e => .error e
      else .ok v

/-- Reading the contributions of this package leaves their translations behind (R134, R138). -/
def State.learnTerms (s : State) (x : Tiling) (gs : List (List Nat)) : State :=
  gs.foldl (fun s g => match x.sourceAt g with
    | .ok (b, _) => s.learnBits (s.cmdCore x.r.inst x.r.core) x.r.asid b x.t.fmt.bits
    | .error _ => s) s

/-- The contributions of one member to a block. -/
def State.terms (s : State) (x : Tiling) (gs : List (List Nat)) (others : List (BitVec 48 × Nat)) (pkg : Nat) : Except (Code × Nat) (Option (List Nat)) :=
  if pkg = x.self then
    match gs.mapM (s.ownTerm x) with
    | .ok l => .ok (some l)
    | .error e => .error e
  else
    let l := (others.filter fun o => decide (o.1.toNat = pkg)).map Prod.snd
    .ok (if l.length = gs.length then some l else none)

/-! The life of a reshard -/

/-- A reshard by its core and number; where a saved task has another of the same, the device picks. -/
def State.reshardBy (s : State) (core : Nat) (seq : BitVec 32) : Option Reshard :=
  match s.reshards.filter fun r => decide (r.core = core ∧ r.seq = seq) with
  | [r] => some r
  | l => l[Config.pick s.free seq.toNat % l.length]?

/-- The same reshard. -/
def Reshard.same (a b : Reshard) : Bool := decide (a.inst = b.inst ∧ a.seq = b.seq)

/-- Puts a reshard back among the others. -/
def State.putReshard (s : State) (r : Reshard) : State := { s with reshards := s.reshards.map fun q => if q.same r then r else q }

/-- Removes a reshard: its lock goes and its number retires. -/
def State.endReshard (s : State) (r : Reshard) : State :=
  ({ s with reshards := s.reshards.filter fun q => !q.same r }).retireCmd r.inst r.seq

/-- Writes that bind a record one way or the other: in the window of a saved task they go to its signal log (R305). None where it is full. -/
def State.bindWrites (s : State) (r : Reshard) (ws : List (Nat × List Byte)) : Option (Except Code State) :=
  ws.foldl (fun acc w => match acc with
    | some (.ok s) => s.taskStore r.inst r.core r.asid (r.shapeAddr + w.1) w.2
    | x => x) (some (.ok s))

/-- The binding of a record to MS, as the reshard found it: the fields that a switch writes (R334, R337). -/
def boundBefore (r : Reshard) : List (Nat × List Byte) :=
  [(2, 1), (8, 8), (48, 36), (88, 8)].map fun f => (f.1, (r.shape.drop f.1).take f.2)

/-- What names a reshard to every package: the task, and the tensor with the reshard's ordinal (R334). -/
def Reshard.tag (r : Reshard) : BitVec 32 × BitVec 32 := (r.task, BitVec.ofNat 32 (r.tid * 2 ^ 16 + r.ordinal % 2 ^ 16))

/-- A reshard is held for an absent member, or for one whose part has ended (R334). -/
def Reshard.isHeld (r : Reshard) : Bool := !r.absent.isEmpty || !r.faulted.isEmpty

/-- A fault of this package's own ends its part; the other members hear of it (R334). -/
def State.tellReshardEnded (s : State) (r : Reshard) : State :=
  (meshPackages s.mesh).foldl (fun s p => if p = s.package then s else s.post 0 r.core (some r.seq) (.ended p r.tag.1 r.tag.2)) s

/-- A reshard ends with STATUS 1: the record, the lock released, the asynchronous event; the barrier and the binding stay, the binding
also where this package has switched already (R334, R337). None where the record has to wait. -/
def State.breakReshard (s : State) (r : Reshard) (code : Code) (faddr : Nat) : Option State :=
  let bound : Option State :=
    if r.switched then (s.bindWrites r (boundBefore r)).map fun x => match x with | .ok t => t | .error _ => s else some s
  bound.bind fun s => (s.taskRecord r.inst r.core r.asid (r.obj + 32) (recordBytes r.seq r.core 1 code faddr 0 r.events.toNat)).map fun s =>
    ((if code = .collMismatch ∨ code = .collLost then s else s.tellReshardEnded r).endReshard r).commandEvent r.core r.inst r.task code 0 r.seq faddr

/-- Every other package of the mesh has shown its call exactly once (R334). -/
def State.allIssued (s : State) (hs : List ReshardHello) : Bool :=
  (meshPackages s.mesh).all fun p => decide (p = s.package) || decide ((hs.filter fun h => decide (h.pkg = p)).length = 1)

/-- Every member has issued: the steps begin, or the calls do not match. A member counts as having issued once its earlier writes of the
tensor have been performed (R334). -/
def execReshardStart (core : Nat) (seq : BitVec 32) (hellos : List ReshardHello) (s : State) : Res :=
  if 160 ≤ core then .fault .noSuchUnit
  else
    match s.reshardBy core seq with
    | none => .next s
    | some r =>
      match s.tiling r with
      | none => .next s
      | some x =>
        if !r.shown then
          .next (if s.writesDone r then ((s.performStores r.core).showReshard r x.t).putReshard { r with shown := true } else s)
        else if r.started || r.isHeld || !(r.preds.all (s.hasRetired r.inst)) || !s.allIssued hellos then .next s
        else if hellos.all fun h => decide (h = r.hello h.pkg x.t) then .next (s.putReshard { r with started := true })
        else orWait s (s.breakReshard r .collMismatch 0)

/-- A position of the destination buffer has been written. -/
def Reshard.hasLanded (r : Reshard) (pos : Nat) : Bool := r.landed.any fun x => decide (x.1 ≤ pos ∧ pos < x.2)

/-- Adds positions [a, b) to those that have landed. -/
def addRange (a b : Nat) : List (Nat × Nat) → List (Nat × Nat)
  | [] => [(a, b)]
  | (c, d) :: r => if d = a then addRange c b r else if b = c then addRange a d r else (c, d) :: addRange a b r

/-- The destination positions that a tile fills: one, or the 32 of an MX block with their distance along BLKDIM. -/
def Tiling.targets (x : Tiling) (pos : Nat) : List Nat :=
  if x.t.fmt.isMx then
    let stride := (((x.t.dims.drop (x.t.blkdim + 1)).map (localExt x.mesh x.t x.r.mapD))).prod
    (List.range 32).map fun j => pos + j * stride
  else [pos]

/-- Choices of a reshard: in deterministic mode they do not depend on when it runs (R34). -/
def State.reshardTick (s : State) (r : Reshard) : Nat := if r.det then 2 ^ 64 + r.seq.toNat else s.free

/-- Writes the codes of a tile, FILL in those of its positions that are padding or an edge halo, and keeps the scale of an MX block (R328,
R335). -/
def State.landTile (s : State) (x : Tiling) (pos : Nat) (codes : List Nat) (scale : Nat) (events : Flags) : Res :=
  let w := (x.targets pos).zipIdx.map fun p => (p.1, if (x.index p.1).isNone then x.t.fill else codes.getD p.2 0)
  let put : Except (Code × Nat) State := w.foldl (fun acc pc => match acc with
    | .error e => .error e
    | .ok s => s.taskElem x.r.inst x.r.core x.r.asid x.r.dst x.t.fmt.bits pc.1 pc.2) (.ok s)
  match put with
  | .error (e, va) => orWait s (s.breakReshard x.r e va)
  | .ok s =>
    let r := x.r
    .next (s.putReshard { r with
      landed := (x.targets pos).foldl (fun l p => addRange p (p + 1) l) r.landed
      events := r.events ||| events
      scales := if x.t.fmt.isMx then Bank.set 0 r.scales (pos / 32) (scale % 256 + 1) else r.scales })

/-- One tile of the plan's result: position pos of the destination buffer, or for an MX format the block that starts there (R335, R338). others holds the
contributions of other packages in ascending linear index, each member's block in order, as encodings plus 256 times the scale code of an MX block;
until they are all there the tile does not land. -/
def execReshardTile (core : Nat) (seq : BitVec 32) (pos : Nat) (others : List (BitVec 48 × Nat)) (s : State) : Res :=
  if 160 ≤ core then .fault .noSuchUnit
  else
    match s.reshardBy core seq with
    | none => .next s
    | some r =>
      match s.tiling r with
      | none => .next s
      | some x =>
        let head := decide (x.t.fmt.isMx = false) ||
          decide ((boxCoords (x.t.dims.map (localExt s.mesh x.t r.mapD)) pos).getD x.t.blkdim 0 % 32 = 0)
        if !r.started || r.switched || decide (localCount s.mesh x.t r.mapD ≤ pos) || r.hasLanded pos || !head then .next s
        else
          match x.index pos with
          | none => s.landTile x pos [] (Config.pick (s.reshardTick r) pos % 256) 0
          | some g =>
            let gs := x.block g
            let src := x.sources g
            match src.mapM (s.terms x gs others) with
            | .error (e, va) => orWait s (s.breakReshard r e va)
            | .ok ts =>
              if (ts.any fun t => t.isNone) || decide (others.length ≠ (src.filter fun p => decide (p ≠ s.self)).length * gs.length) then .next s
              else
                let s := if src.contains s.self then s.learnTerms x gs else s
                let xs := ts.map fun t => t.getD []
                let code (v : Nat) : Nat := v % 2 ^ x.t.fmt.bits
                if x.scatter.isEmpty then
                  let l := xs.headD []
                  s.landTile x pos (l.map code) (l.headD 0 / 256) 0
                else
                  let root := Net.reduceBlock x.t.fmt gs.length ((src.zip xs).map fun px =>
                    (s.nodeOf (BitVec.ofNat 48 px.1), px.2.headD 0 / 256, px.2.map code))
                  let codes := if x.t.fmt.isMx then root.codes else [root.codes.getD (gs.idxOf g) 0]
                  s.landTile x pos codes root.scale root.events

/-- Dense row-major strides of some extents (R337). -/
def denseStrides : List Nat → List Nat
  | [] => []
  | _ :: r => r.prod :: denseStrides r

/-- The writes that bind a record to MD: each an offset and its bytes (R337). -/
def switchWrites (mesh : Word) (t : Shape) (r : Reshard) : List (Nat × List Byte) :=
  let ext := t.dims.map (localExt mesh t r.mapD)
  let st := denseStrides ext
  [(2, [BitVec.ofNat 8 (128 + r.md)]), (8, toBytes 8 r.dst), (48, (List.range 6).flatMap fun d => toBytes 6 (st.getD d 0)), (88, toBytes 8 ext.prod)]

/-- Every destination buffer of the group is complete: the record is bound to MD in one step (R337). The reshard is the unit under the cursor. -/
def execReshardSwitch (s : State) : Res :=
  match s.reshardBy s.cur.core (BitVec.ofNat 32 s.cur.unit) with
  | none => .next s
  | some r =>
    match s.tiling r with
    | none => .next s
    | some x =>
      let total := localCount s.mesh x.t r.mapD
      if !r.started || r.switched || r.isHeld || decide ((r.landed.map fun p => p.2 - p.1).sum < total) then .next s
      else
        match s.bindWrites r (switchWrites s.mesh x.t r) with
        | none => .next s
        | some (.error e) => orWait s (s.breakReshard r e r.shapeAddr)
        | some (.ok s) => .next (s.putReshard { r with switched := true })

/-- The scale codes of an MX destination, written once no read is served from the source buffers any more. None where the signal log of a saved
task is full. -/
def State.landScales (s : State) (r : Reshard) (x : Tiling) : Option (Except Code State) :=
  if x.t.fmt.isMx then
    s.taskStore r.inst r.core r.asid x.t.scale
      ((List.range (localCount x.mesh x.t r.mapD / 32)).map fun i => BitVec.ofNat 8 (Bank.get 0 r.scales i - 1))
  else some (.ok s)

/-- A copy that has started and moves the tensor by the source map has not been served in full (R336, R337). -/
def State.sourceReads (s : State) (r : Reshard) : Bool :=
  s.copies.any fun c => c.engine.isSome && decide (c.kind ≠ 4) && decide (c.asid = r.asid ∧ c.shapeAddr = r.shapeAddr)

/-- Every member has switched and every access through the source map has been served: the lock goes, the completion block is written and
the number retires (R337); a scale that cannot be written is a fault after issue. The reshard is the unit under the cursor. -/
def execReshardSignal (s : State) : Res :=
  match s.reshardBy s.cur.core (BitVec.ofNat 32 s.cur.unit) with
  | none => .next s
  | some r =>
    match s.tiling r with
    | none => .next s
    | some x =>
      if !r.switched || r.isHeld || s.sourceReads r then .next s
      else
        let b := localBytes s.mesh x.t r.mapD
        orWait s (match s.landScales r x with
          | none => none
          | some (.error e) => s.breakReshard r e x.t.scale
          | some (.ok s) =>
            (s.taskRecord r.inst r.core r.asid (r.obj + 32) (recordBytes r.seq r.core 0 0 0 b r.events.toNat)).bind fun s =>
              (s.doneAction r.inst 1 r.obj b 0).map fun s => s.endReshard r)

/-- An absent member of a reshard has not come back within 200 ms: COLL_LOST (R334). The reshard is the unit under the cursor. -/
def execReshardHoldExpiry (s : State) : Res :=
  match s.reshardBy s.cur.core (BitVec.ofNat 32 s.cur.unit) with
  | none => .next s
  | some r =>
    if !r.isHeld then .next s
    else
      orWait s ((s.breakReshard r .collLost 0).map fun s => s.tellLost (r.absent ++ r.faulted) r.tag.1 r.tag.2 (some r.seq) r.core)

/-- A reshard of this package by what names it to every package. -/
def State.reshardTagged (s : State) (gtag call : BitVec 32) : Option Reshard := s.reshards.find? fun r => decide (r.tag = (gtag, call))

/-- A member's part of a reshard has ended by a fault: the reshard is held for it here (R334). -/
def State.reshardEnded (s : State) (pkg : BitVec 48) (gtag call : BitVec 32) : State :=
  match s.reshardTagged gtag call with
  | some r => s.putReshard { r with faulted := if r.faulted.contains pkg then r.faulted else r.faulted ++ [pkg] }
  | none => s

/-- The survivors have lost a reshard without this member: COLL_LOST here too (R334). None where the record has to wait. -/
def State.reshardLost (s : State) (gtag call : BitVec 32) : Option State :=
  match s.reshardTagged gtag call with
  | some r => s.breakReshard r .collLost 0
  | none => some s

/-- The first indices of n blocks of a reshard from an element on, in global index order (R335). -/
def Tiling.heads (x : Tiling) (first n : Nat) : List (List Nat) :=
  (((List.range (x.t.ext.prod - first)).map fun i => boxCoords x.t.ext (first + i)).filter fun g => decide ((x.block g).head? = some g)).take n

/-- This package's contributions to n blocks of a reshard, from the one whose first element has number chunk in row-major order: the format and
what goes into the sums (R335, R348). None before the steps have begun. -/
def State.reshardTerm (s : State) (gtag call : BitVec 32) (chunk n : Nat) : Option (Fmt × List Net.Part) :=
  (s.reshardTagged gtag call).bind fun r =>
    if !r.started || r.isHeld then none
    else
      (s.tiling r).bind fun x =>
        let parts := (x.heads chunk n).map fun g =>
          match (x.block g).mapM (s.ownTerm x) with
          | .ok vs => some (Net.contribution x.t.fmt (vs.headD 0 / 256) (vs.map fun v => v % 2 ^ x.t.fmt.bits))
          | .error _ => none
        if parts.length < n || parts.any fun p => p.isNone then none else some (x.t.fmt, parts.filterMap id)

end Sys2Proof.Machine
end

