-- ==== Sys2Proof/Machine/Fabric.lean ====
section
/-! DEFINITION. Ports, hops, absence and return (R341 to R348, R357 to R359). -/

namespace Sys2Proof.Machine

/-- One more flit replay or adder recompute: RETRIES saturates (R343). -/
def Port.retry (p : Port) : Port := { p with retries := if p.retries = 0xFFFFFFFF then p.retries else p.retries + 1 }

/-- A correction that no program sees is logged with KIND 7 (R379). -/
def State.logRepair (s : State) (cls num : Nat) (addr : Word) : State := s.logOwn cls num 7 0 false 0 0 addr

/-! Headers -/

/-- LEN is the number of flits that the payload blocks take, MX blocks in one of the formats (R347). -/
def packetLen (p : Packet) : Bool :=
  p.payload.isEmpty || [Fmt.f32, .mxi8, .mxi6, .mxi4, .mxf8, .mxf4].any fun f => decide (p.len.toNat = payloadFlits f p.payload)

/-- The header keeps its ranges, its reserved bits are 0, LEN is that of the payload, and CH is the channel of its TYPE (R344, R347, R348). -/
def packetOk (p : Packet) : Bool :=
  decide (p.type.toNat ≤ 9) && decide (p.ch.toNat = channelOf p.type.toNat false ∨ (p.type = 6 ∧ p.ch = 1)) &&
    decide (p.len.toNat ≤ 64) && packetLen p && decide (slice p.sid 63 60 = 0) && decide (p.nhop.toNat ≤ 8) && decide (p.rsv = 0) &&
    decide (p.route.length = 8) && p.route.all fun e => decide (slice e 15 8 = 0)

/-- Route entry 0. -/
def packetHead (p : Packet) : BitVec 16 := p.route.headD 0
/-- PORT and OP of entry 0 (R348). -/
def packetPort (p : Packet) : Nat := slice (packetHead p) 5 0
def packetOp (p : Packet) : Nat := slice (packetHead p) 7 6
/-- A hub acts on the packet with this operation. -/
def packetActs (p : Packet) (op : Nat) : Bool :=
  packetOk p && decide (1 ≤ p.nhop.toNat) && decide (packetOp p = op) && decide (if op = 3 then packetPort p = 0 else packetPort p < 48)
/-- The list is shifted down by one entry (R348). -/
def packetShift (p : Packet) : Packet := { p with nhop := p.nhop - 1, route := p.route.drop 1 ++ [0] }
/-- Packets of one source on one channel, which keep their order (R342). -/
def sameStream (p q : Packet) : Bool := decide (p.sid = q.sid ∧ p.ch = q.ch)

/-! Routes -/

/-- The hub rewrites entry 0 of a packet whose port is a failed link, where another port is up (R342). -/
def State.rerouted (s : State) (p : Packet) : Packet := { p with route := s.rerouteHead p.route }

/-- The routes of the packets that the hubs hold follow a failed link, those whose sum has to go out again among them (R342, R359). -/
def State.reroute (s : State) : State :=
  { s with hub := s.hub.map s.rerouted, kept := s.kept.map fun k => if k.redo then { k with input := s.rerouted k.input } else k }

/-- A hub holds a packet until it can act on it. -/
def State.hold (s : State) (p : Packet) : State := if s.hub.contains p then s else { s with hub := s.hub ++ [p] }

/-- An earlier packet of the same source and channel is still held, or its sum is not acknowledged yet and may have to be sent again (R342,
R359). -/
def State.behind (s : State) (p : Packet) : Bool :=
  ((s.hub.takeWhile fun q => decide (q ≠ p)).any (sameStream p)) || s.kept.any fun k => !k.redo && sameStream p k.input

/-- A packet leaves a hub on a port under the stamp of its source. -/
def State.emit (s : State) (port : Nat) (p : Packet) : State :=
  { s with outbox := s.outbox ++ [⟨p.type.toNat, p.ch.toNat, p.len.toNat, p.sid, p.sseq, p.nhop.toNat, p.route, .packet port p⟩] }

/-- The hub takes a packet that it may have held. -/
def State.unhold (s : State) (p : Packet) : State := { s with hub := s.hub.erase p }

/-- A packet goes out on the port of its first entry, another where that is a failed link, once it is up; else the hub holds it
(R341, R342, R348). It comes with the port. -/
def State.route (s : State) (p : Packet) (what : List Payload) : Option (State × Nat) :=
  let q := s.rerouted p
  let x := s.port (packetPort q)
  if x.st = 2 ∧ x.failed = false ∧ s.behind p = false then
    some ((s.unhold p).emit (packetPort q) (packetShift { q with payload := what }), packetPort q)
  else none

/-! Hops -/

/-- A hub answers the previous hop's packet of reduction data: taken, or refused for a residue (R359). -/
def State.ackHop (s : State) (p : Packet) (ok : Bool) : State :=
  if (p.type = 4 ∨ p.type = 5) ∧ p.payload ≠ [] then s.post 6 0 none (.hopAck p.sid p.sseq ok) else s

/-- Forwards a packet (R348). -/
def execHopForward (p : Packet) (s : State) : Res :=
  if !packetActs p 0 then .next s
  else .next (match s.route p p.payload with | some (t, _) => t.ackHop p true | none => s.hold p)

/-- This package's contribution to the blocks that a packet of a call or a reshard carries: a call's from the block that AUX numbers in the
chunk, a reshard's from the block that CHUNK names (R335, R348, R357). -/
def State.hopTerm (s : State) (p : Packet) : Option (Fmt × List Net.Part) :=
  if p.type = 5 then s.reshardTerm p.gtag p.call p.chunk.toNat p.payload.length
  else
    (s.calls.find? fun c => decide (c.grp.gtag = p.gtag ∧ c.num = p.call) && c.reduces).bind fun c =>
      (c.own.find? fun o => decide (o.1 = p.chunk.toNat)).map fun o =>
        let n := (c.range o.1).2 - (c.range o.1).1
        let x := c.cut o.2 0 n
        (c.fmt, (List.range p.payload.length).map fun i =>
          let b := p.aux.toNat + i
          Net.contribution c.fmt (x.2.getD b 0) ((x.1.drop (32 * b)).take 32))

/-- The sums of the blocks of a packet and of this package's (R348, R357). -/
def hopSum (f : Fmt) (ps : List Payload) (own : List Net.Part) : List Payload :=
  List.zipWith (fun p o => (Net.add f ⟨p, 0, false⟩ o).block) ps own

/-- An adder has met a residue that does not fit: RETRIES counts it, and a third on one port retires the port, whose traffic takes
other ports from then on (R342, R343, R359, R379). -/
def State.mismatch (s : State) (port : Nat) : State :=
  let x := (s.port port).retry
  let x := { x with mismatches := x.mismatches + 1 }
  ((s.setPort port (if 3 ≤ x.mismatches then { x with st := 3 } else x)).reroute).logRepair 6 port 0

/-- A sum that was refused goes out again: formed from the inputs that the adder has kept (R359). -/
def State.resend (s : State) (k : HopKept) : State :=
  match s.route k.input (hopSum k.fmt k.input.payload (k.own.map fun o => ⟨o, 0, false⟩)) with
  | none => s
  | some (t, port) => { t with kept := t.kept.map fun x => if x = k then { k with port := port, redo := false } else x }

/-- Adds this package's contribution to a packet and forwards the sums; the adder keeps its inputs (R348, R357, R359). A block whose residue
does not fit is refused: the hop that sent it does it again. Where the device meets a mismatch in its own sum, it recomputes it. -/
def execHopAdd (p : Packet) (s : State) : Res :=
  if !packetActs p 1 then .next s
  else
    match s.kept.find? fun k => k.redo && decide (k.input = p) with
    | some k => .next (s.resend k)
    | none =>
      if !p.payload.all Net.sound then .next (((s.unhold p).mismatch (packetPort p)).ackHop p false)
      else
        match s.hopTerm p with
        | none => .next (s.hold p)
        | some (f, own) =>
          match s.route p (hopSum f p.payload own) with
          | none => .next (s.hold p)
          | some (t, port) =>
            let t := ({ t with kept := t.kept ++ [⟨port, f, p, own.map Net.Part.block, false⟩] } : State).ackHop p true
            .next (if Config.choose s.free port then t.mismatch port else t)

/-- The next hop answers the oldest sum of a port: it is acknowledged, or refused, and then the hub holds the inputs again, ahead of what
follows them, until it has sent the sum once more (R342, R359). -/
def State.hopAnswer (s : State) (port : Nat) (ok : Bool) : State :=
  match s.kept.find? fun k => decide (k.port = port) && !k.redo with
  | none => s
  | some k =>
    if ok then { s with kept := s.kept.erase k }
    else
      ({ s with kept := s.kept.map (fun x => if x = k then { k with redo := true } else x), hub := k.input :: s.hub } : State).mismatch port

/-- Delivers a copy here and forwards the packet (R348). -/
def execHopMulticast (p : Packet) (s : State) : Res :=
  if !packetActs p 2 then .next s
  else
    match s.route p p.payload with
    | some (s, _) => .next (({ s with inbox := s.inbox ++ [p] } : State).ackHop p true)
    | none => .next (s.hold p)

/-- Delivers a packet here: to its unit, or at a relay, which gives it a new route list (R348). Which of the two it is, the header does
not say. -/
def execHopDeliver (p : Packet) (s : State) : Res :=
  if !packetActs p 3 then .next s
  else if s.behind p then .next (s.hold p)
  else if Config.choose s.free 0 then
    let leg := legRoute s.free 0
    let q := { p with nhop := BitVec.ofNat 8 leg.1, route := leg.2 }
    .next { s with hub := if s.hub.contains p then s.hub.map fun x => if x = p then q else x else s.hub ++ [q] }
  else .next (({ s.unhold p with inbox := s.inbox ++ [p] } : State).ackHop p true)

/-! What the hubs take in -/

/-- What a hub takes in: a line request, at full service (R345); a renq (R129, R382); the notice that a block's predecessor has retired,
or a number of a task that runs on another package now (R265); that a member's part of a call or a reshard has ended, or that it is
lost (R334, R364, R365); and the answer of a next hop (R359). -/
def execRemoteAccessRequest (r : HubReq) (s : State) : Res :=
  match r with
  | .line r => .next (if s.level = .full then lineRequest r s else s)
  | .renq r => arriveRenq r s
  | .retired pkg tag p => .next { s with notices := s.notices ++ [(pkg, tag, p)] }
  | .moved task p =>
    match s.saved.find? fun v => decide (v.taskid = task) with
    | some v => .next (s.retire v.inst p)
    | none => .next s
  | .ended pkg gtag call => .next ((s.memberEnded pkg gtag call).reshardEnded pkg gtag call)
  | .lost gtag call => orWait s ((s.callLost gtag call).bind fun s => s.reshardLost gtag call)
  | .hopAnswer port ok => .next (s.hopAnswer port ok)

/-! Links -/

/-- A flit that fails its check is replayed (R341, R343, R379). -/
def execFlitReplay (port : Nat) (s : State) : Res :=
  if 48 ≤ port then .fault .noSuchUnit else .next ((s.setPort port (s.port port).retry).logRepair 6 port 0)

/-- A lane fails: it retrains onto the spare lane, and a second failure retires the port, which stays retired (R341, R343). -/
def execLaneRetrain (port : Nat) (s : State) : Res :=
  if 48 ≤ port then .fault .noSuchUnit
  else
    let x := s.port port
    let y := if x.spare ∨ x.st = 3 then { x with st := 3 } else { x with st := 1, spare := true }
    .next (((s.setPort port y).reroute).logRepair 6 port 0)

/-- A port or, from number 48, an HBM stack finishes training (R343, R378). A retired port stays retired. -/
def execPortTrained (port : Nat) (s : State) : Res :=
  if port < 48 then .next (s.setPort port (let x := s.port port; if x.st = 3 then x else { x with st := 2 }))
  else if port < 60 then .next { s with hbmUp := s.hbmUp ||| BitVec.ofNat 12 (2 ^ (port - 48)) }
  else .fault .noSuchUnit

/-- A link has failed: its port takes no more traffic, and the packets that the hubs hold for it, and later ones, are given another port
(R342). -/
def execLinkReroute (port : Nat) (s : State) : Res :=
  if 48 ≤ port then .fault .noSuchUnit
  else
    .next (((s.setPort port { s.port port with failed := true }).reroute).logRepair 6 port 0)

/-! Absence -/

/-- Adds a package to a list of absent ones. -/
def addAbsent (pkg : BitVec 48) (l : List (BitVec 48)) : List (BitVec 48) := if l.contains pkg then l else l ++ [pkg]

/-- A package becomes absent: the calls and reshards that it is a member of are held (R334, R342, R365). -/
def execPackageAbsent (pkg : BitVec 48) (s : State) : Res :=
  if coordOk s.mesh pkg = false ∨ pkg = s.package then .fault .noSuchUnit
  else
    .next { s with
      absent := addAbsent pkg s.absent
      calls := s.calls.map fun c => if (c.grp.members.map memberPkg).contains pkg then { c with absent := addAbsent pkg c.absent } else c
      reshards := s.reshards.map fun r => { r with absent := addAbsent pkg r.absent } }

/-- An absent package can be reached again: what was held for it goes on, and it learns of the calls that it has lost (R342, R365). -/
def execPackageReachableAgain (pkg : BitVec 48) (s : State) : Res :=
  let s := s.memberBack pkg
  let late := s.lost.filter fun x => decide (x.1 = pkg)
  .next (late.foldl (fun s x => s.post 6 0 none (.lost pkg x.2.1 x.2.2))
    { s with lost := s.lost.filter fun x => decide (x.1 ≠ pkg) })

end Sys2Proof.Machine
end

