-- ==== Sys2Proof/Machine/Agenda.lean ====
section
/-! DEFINITION. What runs when the agenda is empty: the rotation of the cores and the background events; and the task that the
host's question places. -/

namespace Sys2Proof.Machine

/-- A core has a place in the rotation: its cluster holds a task or may take one back. -/
def State.inRotation (s : State) (c : Nat) : Bool :=
  s.cores.any (fun x => decide (clusterOf x.1 = clusterOf c)) || s.saved.any fun v => decide (clusterOf v.core = clusterOf c)

/-- The next core of the rotation after the cursor's, in ascending order and round again. -/
def nextCore (s : State) : Nat :=
  match (List.range 160).find? fun c => decide (s.cur.core < c) && s.inRotation c with
  | some c => c
  | none => ((List.range 160).find? fun c => s.inRotation c).getD 0

/-- The events of one core that need nothing from outside. -/
def coreEvents : List Instr :=
  [.yieldEnd, .renqQueueRoom, .barwaitSatisfied, .waitaSatisfied, .rgclaimSatisfied, .rgwaitfSatisfied, .mdepCreditFree, .mxgoQueueRoom,
    .vupdChunk, .asyncEventDelivery, .abandonmentComplete, .preemption, .saveComplete, .resumption, .taskDispatch, .nestStart,
    .nestLoadW, .nestDrain, .nestRow]

/-- The events of a copy: its start, and the landing of its first part that has neither landed nor been sent to its package. -/
def State.copyEvents (s : State) (c : Copy) : List Instr :=
  let asked : CopyPart → Bool := fun p => match p with | .line pkg va => c.asks pkg va | .chunk _ => false
  let open_ := (s.copyParts c c.shapeRec).zipIdx.find? fun p => c.fresh p.2 1 && !asked p.1
  [.copyStart c.core c.seq (c.seq.toNat % 4), .copyPacketLand c.core c.seq (c.engine.getD 0) (match open_ with | some p => p.2 | none => 0) 1]

/-- The events of a call that is a package's own: what comes from other members comes through the agenda. -/
def callEvents (c : Call) : List (Nat × Nat × Instr) :=
  let n := match (List.range c.chunkCount).find? (fun i => !(c.own.any fun o => decide (o.1 = i))) with | some i => i | none => 0
  let m := match (List.range c.chunkCount).find? (fun i => !c.complete.contains i) with | some i => i | none => 0
  [(c.core, 0, .callStart c.core c.seq []), (c.core, 0, .chunkSend c.core c.seq n), (c.core, 0, .callDelivery c.core c.seq m []),
    (c.core, c.seq.toNat, .callComplete)]

/-- The events of a reshard of a package's own: a switch and a signal wait for every member, so they are here where there is no other. -/
def reshardEvents (s : State) (r : Reshard) : List (Nat × Nat × Instr) :=
  let n := match s.tiling r with
    | some x => (match (List.range (localCount s.mesh x.t r.mapD)).find? (fun i => !r.hasLanded i) with | some i => i | none => 0)
    | none => 0
  let alone := decide (meshCount s.mesh = 1)
  [(r.core, 0, .reshardStart r.core r.seq []), (r.core, 0, .reshardTile r.core r.seq n [])] ++
    (if alone then [(r.core, r.seq.toNat, .reshardSwitch), (r.core, r.seq.toNat, .reshardSignal)] else [])

/-- What a hub does with a packet that it holds. -/
def hubEvents (p : Packet) : List Instr := [.hopForward p, .hopAdd p, .hopMulticast p, .hopDeliver p]

/-- The events of the package that need nothing from outside: their core, their unit and the event. -/
def packageEvents (s : State) : List (Nat × Nat × Instr) :=
  let c := s.cur.core
  (s.copies.flatMap s.copyEvents).map (fun i => (c, 0, i)) ++
    (s.chunkDue.filterMap fun x => (s.taskOf x.1).map fun t => (c, 0, Instr.chunkCountIncrement t x.2)) ++
    s.calls.flatMap callEvents ++ s.reshards.flatMap (reshardEvents s) ++
    (s.hub.flatMap hubEvents).map (fun i => (c, 0, i)) ++
    ((s.core c).mcmds.map fun m => (c, m.msg.seq.toNat, Instr.moraineResend)) ++
    [.moraineRequest (.own 0), .moraineDeposit (.own 0), .moraineWithdrawal (.own 0), .moraineReply (.own 0), .depositAck (.own 0)].map
      (fun i => (c, 0, i)) ++
    ((List.range 8).map fun d => (c, 0, Instr.accessPerformed (.drain d 0))) ++
    [.queue c 0, .rest c .ld, .rest c .st, .hbm c].map (fun a => (c, 0, Instr.accessPerformed a)) ++
    (s.slots.map fun x => (c, 0, Instr.launchDeferredAccept x.1)) ++
    ((List.range 24).flatMap fun n => [(c, n, .nmcKernelStart), (c, n, .nearMemoryKernelInstruction), (c, n, .nmcKernelEnd)]) ++
    [(c, 0, .fullServiceEntry)]

/-- The event that is next when the cursor comes by: the rounds of the cursor go through the core's events and the package's, and every 1,024th
counts one unit of the watchdog (R276). An event that is not enabled changes nothing. -/
def background (s : State) : Option (Nat × Nat × Instr) :=
  if s.beat % 1024 = 1023 then some (s.cur.core, 0, .watchdog)
  else
    let l := coreEvents.map (fun i => (s.cur.core, 0, i)) ++ packageEvents s
    l[s.beat % l.length]?

/-- Events that reach a package from outside, and the failures of its hardware: they take place at halted level too, as far as their own rules
let them (R30, R380, R382). -/
def fromOutside : Instr → Bool
  | .reset _ _ _ _ | .remoteAccessRequest (.renq _) | .signalArrival _ | .launchDoorbell _ | .resumeDoorbell | .partitionTableWrite _ _ | .pageTableRootWrite _ _
  | .meshConfigWrite _ _ | .moraineDeclaration _ _ | .purgeDoorbell _ _ _ | .eventLogTailWrite _ | .attestationRequest _
  | .memoryWindowRead _ _ | .memoryWindowWrite _ _ | .controlWindowWrite _ _ | .flitReplay _ | .laneRetrain _ | .linkReroute _
  | .portTrained _ | .packageAbsent _ | .packageReachableAgain _ | .hiddenRepair _ => true
  | _ => false

/-- A core on which a task has just been dispatched whose text starts at the cluster window (R132, R262). -/
def placeTask (k : Core) : Core :=
  let base : Word := BitVec.ofNat 64 clusterWindow
  let k := { k with
    phase := .running
    inst := 1
    sys := { k.sys with wdLimit := 0x100000, slip := 0x100 }
    regionEntry := base }
  k.onAll fun x => { x with pc := base }

end Sys2Proof.Machine
end

