-- ==== Sys2Proof/Machine/NearMemory.lean ====
section
/-! DEFINITION. Near-memory launches: the three words, the start and the end of a kernel on a core (R366 to R372). -/

namespace Sys2Proof.Machine

namespace Launch
/-- ENTRY, ARG, WLO, WHI, CMASK, DONE, DADDR, DVAL, RECADDR (R368). -/
def entry (l : Launch) : Nat := fieldAt l.desc 0 8
def arg (l : Launch) : Word := BitVec.ofNat 64 (fieldAt l.desc 8 8)
def wlo (l : Launch) : Nat := fieldAt l.desc 16 8
def whi (l : Launch) : Nat := fieldAt l.desc 24 8
def cmask (l : Launch) : BitVec 24 := BitVec.ofNat 24 (fieldAt l.desc 32 4)
def doneKind (l : Launch) : Nat := fieldAt l.desc 36 1
def daddr (l : Launch) : Nat := fieldAt l.desc 40 8
def dval (l : Launch) : Word := BitVec.ofNat 64 (fieldAt l.desc 48 8)
def recaddr (l : Launch) : Nat := fieldAt l.desc 56 8
/-- The same launch. -/
def same (a b : Launch) : Bool := decide (a.inst = b.inst ∧ a.seq = b.seq)
end Launch

/-- The number of ones in a mask of near-memory cores. -/
def maskCount (m : BitVec 24) : Nat := Flurry.popc m.toNat 24

/-- One bit of a mask of near-memory cores. -/
def maskBit (n : Nat) : BitVec 24 := BitVec.ofNat 24 (2 ^ n)

/-- A launch descriptor keeps its table (R368). -/
def launchDescOk (d : List Byte) : Bool :=
  let e := fieldAt d 0 8
  let lo := fieldAt d 16 8
  let hi := fieldAt d 24 8
  decide (e % 2 = 0 ∧ lo ≤ e ∧ e < hi) && decide (lo % 65536 = 0 ∧ hi % 65536 = 0 ∧ lo < hi) &&
    decide (1 ≤ fieldAt d 32 4 ∧ fieldAt d 32 4 < 2 ^ 24) && decide (fieldAt d 36 1 < 3) && decide (fieldAt d 37 3 = 0) &&
    (decide (fieldAt d 36 1 = 0) || inScratch (fieldAt d 40 8)) && decide (fieldAt d 56 8 % 32 = 0)

/-- Launches that wait in the package queue (R369). -/
def State.launchQueue (s : State) : Nat := (s.launches.filter fun l => decide (l.waiting ≠ 0)).length

/-- Queues a launch (R368, R369). -/
def execNmrun (sd sa : SReg) (s : State) : Res :=
  let va := (s.rdS .sq sa).toNat
  let k := s.here
  if k.sys.urgent || !k.predsOk then s.trap .sq .illegal
  else if !k.canNumber || decide (64 ≤ s.launchQueue) then s.stall .sq
  else
    orTrap s .sq (s.blockCheck va 64 64 .read) fun _ =>
      let (desc, s') := s.load va 64
      if !launchDescOk desc then s.trap .sq .illegal
      else
        let cm : BitVec 24 := BitVec.ofNat 24 (fieldAt desc 32 4)
        let l : Launch := ⟨s.cur.core, k.inst, s.nextNumber, k.sys.taskid, k.sys.asid, desc, k.preds, cm, 0, [], 0⟩
        let n := if l.doneKind = 1 then 16 else 8
        match lowest [if 2 ^ 57 < l.whi then some .addrRange else none, if l.doneKind = 0 then none else s.windowCheck l.daddr n n,
            if l.recaddr = 0 then none else s.lateCheck l.recaddr 32 32, if s.level = .full then none else some .translation] with
        | some e => s.trap .sq e
        | none =>
          let obj := if l.doneKind = 0 then none else match s.windowOperand l.daddr 8 8 with | .ok key => some key | .error _ => none
          let rec_ := if l.recaddr = 0 then [] else spadPart s.cur.core k ((l.recaddr : Int), ((l.recaddr + 32 : Nat) : Int))
          let wr := hull ((obj.map fun key => (key, key + n)).toList ++ rec_)
          if s.issueConflict .sq none wr k.preds then s.trap .sq .overlap
          else
            let s' := s'.takeNumber sd none wr obj
            ({ s' with launches := s'.launches ++ [l] } : State).done .sq

/-- The running task's launch of a number. -/
def State.launchOf (s : State) (p : BitVec 32) : Option Launch :=
  s.launches.find? fun l => decide (l.inst = s.here.inst ∧ l.seq = p)

/-- Asks which cores still run a launch and whether its number has retired (R372). -/
def execNmstat (sd sa : SReg) (s : State) : Res :=
  let p : BitVec 32 := (s.rdS .sq sa).setWidth 32
  let running : BitVec 24 := match s.launchOf p with | some l => l.running | none => 0
  let gone := !s.here.live.contains p
  (s.wrS .sq sd (BitVec.ofNat 64 (running.toNat + (if gone then 2 ^ 32 else 0)))).done .sq

/-- A near-memory core. -/
def State.nmc (s : State) (n : Nat) : NmCore := Bank.get {} s.nmcs n

/-- Replaces a near-memory core. -/
def State.setNmc (s : State) (n : Nat) (x : NmCore) : State := { s with nmcs := Bank.set {} s.nmcs n x }

/-- The reservations without those of a core (R366). -/
def State.unreserve (s : State) (n : Nat) : List (Nat × Nat × Nat) := s.resvs.filter fun r => decide (r.1 ≠ n)

/-- A near-memory core becomes idle. -/
def State.idleNmc (s : State) (n : Nat) : State := ({ s with resvs := s.unreserve n } : State).setNmc n {}

/-- The cores of a mask become idle. -/
def State.idleNmcs (s : State) (m : BitVec 24) : State :=
  ((List.range 24).filter fun n => bit m n).foldl State.idleNmc s

/-- fflags as SYS.FLAGS[4:0] has them: NV, DZ, OF, UF, NX (R54, R371). -/
def fflagEvents (f : BitVec 5) : Flags :=
  Flags.when (bit f 4) Flags.invalid ||| Flags.when (bit f 3) Flags.divzero ||| Flags.when (bit f 2) Flags.overflow |||
    Flags.when (bit f 1) Flags.underflow ||| Flags.when (bit f 0) Flags.inexact

/-- The record of a launch, or why it cannot be written; none where it has to wait (R182, R371). -/
def State.launchRecord (s : State) (l : Launch) (status : Nat) (fault : Code) (faddr : Nat) : Option (Except Code State) :=
  if l.recaddr = 0 then some (.ok s)
  else s.taskStore l.inst l.core l.asid l.recaddr (recordBytes l.seq l.core status fault faddr 0 (fflagEvents l.fflags).toNat)

/-- Removes a launch and retires its number. -/
def State.endLaunch (s : State) (l : Launch) : State :=
  ({ s with launches := s.launches.filter fun m => !m.same l }).retireCmd l.inst l.seq

/-- A launch ends with a fault: no completion object is touched, and the task receives the event (R183, R371). -/
def State.failLaunch (s : State) (l : Launch) (code : Code) (addr : Nat) : State :=
  (s.endLaunch l).commandEvent l.core l.inst l.task code 0 l.seq addr

/-- Stops a launch; a record that cannot be written is a fault after its issue (R183, R372). -/
def execNmstop (sd sa : SReg) (s : State) : Res :=
  match s.launchOf ((s.rdS .sq sa).setWidth 32) with
  | none => (s.wrS .sq sd 0).done .sq
  | some l =>
    match s.launchRecord l 2 0 0 with
    | none => s.stall .sq
    | some r =>
      let s := match r with | .ok t => (t.idleNmcs l.running).endLaunch l | .error e => (s.idleNmcs l.running).failLaunch l e l.recaddr
      (s.wrS .sq sd (BitVec.ofNat 64 (maskCount l.running))).done .sq

/-- Puts a launch back among the others. -/
def State.putLaunch (s : State) (l : Launch) : State := { s with launches := s.launches.map fun m => if m.same l then l else m }

/-- The near-memory core under the cursor starts the oldest launch that names it, once that launch's predecessors have retired (R268,
R369). vtype is 0, as every other register. -/
def execNmcKernelStart (s : State) : Res :=
  let n := s.cur.unit
  if 24 ≤ n then .fault .noSuchUnit
  else if (s.nmc n).launch.isSome then .next s
  else
    match s.launches.find? fun l => bit l.waiting n with
    | none => .next s
    | some l =>
      if !l.preds.all (s.hasRetired l.inst) then .next s
      else
      let x : Bank Word := Bank.set 0 (Bank.set 0 (Bank.set 0 (Bank.set 0 [] 2 (BitVec.ofNat 64 l.whi)) 10 l.arg) 11 (BitVec.ofNat 64 n)) 12
        (BitVec.ofNat 64 (maskCount l.cmask))
      let k : NmCore := { launch := some (l.inst, l.seq), pc := BitVec.ofNat 64 l.entry, x := x, vtype := some 0 }
      .next ((s.setNmc n k).putLaunch { l with waiting := l.waiting &&& ~~~maskBit n, running := l.running ||| maskBit n })

/-- Inserts a fault by core. -/
def insertFault (x : Nat × BitVec 8 × Word) : List (Nat × BitVec 8 × Word) → List (Nat × BitVec 8 × Word)
  | [] => [x]
  | y :: r => if x.1 < y.1 then x :: y :: r else y :: insertFault x r

/-- Every selected core of a launch has ended: the record, then the completion object or the asynchronous event; a record that cannot be
written is a fault of its own (R183, R371). None where it has to wait. -/
def State.finishLaunch (s : State) (l : Launch) : Option State :=
  match l.faults with
  | [] =>
    match s.launchRecord l 0 0 0 with
    | none => none
    | some (.error e) => some (s.failLaunch l e l.recaddr)
    | some (.ok s) => (s.doneAction l.inst l.doneKind l.daddr (maskCount l.cmask) l.dval).map fun s => s.endLaunch l
  | (_, code, addr) :: _ =>
    (s.launchRecord l 1 code addr.toNat).map fun r =>
      let s := match r with | .ok t => t | .error _ => s
      s.failLaunch l code addr.toNat

/-- The kernel on the near-memory core under the cursor ends; with the last of its launch the launch ends too (R371). -/
def execNmcKernelEnd (s : State) : Res :=
  let n := s.cur.unit
  let k := s.nmc n
  if 24 ≤ n then .fault .noSuchUnit
  else
    match k.launch, k.ended with
    | some (inst, seq), some e =>
      match s.launches.find? fun l => decide (l.inst = inst ∧ l.seq = seq) with
      | none => .next (s.idleNmc n)
      | some l =>
        let l := { l with
          running := l.running &&& ~~~maskBit n
          fflags := l.fflags ||| BitVec.ofNat 5 (k.fcsr.toNat % 32)
          faults := match e with | .ecall => l.faults | .fault c a => insertFault (n, c, a) l.faults }
        let s' := (s.idleNmc n).putLaunch l
        if l.running = 0 ∧ l.waiting = 0 then orWait s (s'.finishLaunch l) else .next s'
    | _, _ => .next s

end Sys2Proof.Machine
end

