-- ==== Sys2Proof/Machine/Preempt.lean ====
section
/-! DEFINITION. Abandonment, pre-emption, the save area, resumption and resume slots (R264, R288, R295 to R306). -/

namespace Sys2Proof.Machine

/-! Abandonment -/

/-- Numbers of the task that a completion record or a retirement still has to follow; a deposit that has issued is not waited for
(R288, R324). -/
def Core.unfinished (k : Core) : List (BitVec 32) :=
  k.live.filter fun p => !k.mcmds.any fun m => decide (m.inst = k.inst ∧ m.msg.seq = p)

/-- An abandoned task: unstarted copies and nests are discarded, and once every started command has written its record the event log
has the abandonment and the task retires as failed (R288). -/
def execAbandonmentComplete (s : State) : Res :=
  let c := s.cur.core
  match s.here.phase with
  | .abandoning code inHandler =>
    let (s, _) := s.cancelCopies c
    let s := s.upd fun k => (k.cancelNests true).1
    let k := s.here
    if !k.unfinished.isEmpty || k.nests.any (fun n => !n.complete) || s.withdrawing k.inst then .next s
    else
      let s := s.logOwn 0 c 3 code inHandler k.sys.taskid 0 k.sys.trapaddr
      let s := s.logTask c 2 code inHandler k.sys.taskid k.org k.sys.trapaddr
      .next (((s.launchEnds k.org).forget k.inst).setCore c k.vacate)
  | _ => .next s

/-! The save area -/

/-- A field of the region descriptor (R120). -/
def descField (d : BitVec 512) (off n : Nat) : Nat := (d.toNat >>> (8 * off)) % 2 ^ (8 * n)

/-- The vector registers of VSPAN0 to VSPAN3, in order. -/
def descVregs (d : BitVec 512) : List Nat :=
  (List.range 4).flatMap fun i => let v := descField d (8 + 4 * i) 4; List.range' (v % 512) (v / 512 % 512)

/-- Size of a save slot (R300). -/
def saveSlot : Nat := 18 * 2 ^ 20

/-- A format word's 24 bytes. -/
def fmtBytes (f : FmtWord) : List Byte := toBytes 8 f.w0.toNat ++ toBytes 8 f.w1.toNat ++ toBytes 8 f.w2.toNat

/-- The peers to which a push of a nest still waits for room. -/
def Core.owedTo (k : Core) (tag : Nat) : BitVec 5 :=
  (k.nestOwed.filter fun p => decide (p.tag = tag)).foldl (fun m p => m ||| BitVec.ofNat 5 (2 ^ p.peer)) 0

/-- The finish pushes that a nest has made. -/
def Core.finishMade (k : Core) (n : Nest) : BitVec 5 := if n.complete then n.loop.fpush &&& ~~~k.owedTo (n.id + 1) else n.finished

/-- A nest's record of 1,024 bytes (R302). -/
def Core.nestRecord (k : Core) (n : Nest) : List Byte :=
  (n.table.flatMap fun w => toBytes 8 w.toNat) ++ fmtBytes n.fw ++ toBytes 8 0 ++ toBytes 64 n.ga.img.toNat ++ toBytes 64 n.gb.img.toNat ++
    toBytes 1 (n.consumed &&& ~~~k.owedTo n.id).toNat ++ toBytes 1 (k.finishMade n).toNat ++ toBytes 2 n.fresh.toNat ++ toBytes 4 n.dord ++ toBytes 24 0 ++
    toBytes 64 n.gd.img.toNat ++ toBytes 512 0

/-- An optional number and its valid bit. -/
def optNo (p : Option (BitVec 32)) : Nat := (p.getD 0).toNat

/-- A copy's record of 160 bytes (R302). -/
def copySaved (c : Copy) : List Byte :=
  c.desc ++ toBytes 4 c.seq.toNat ++ toBytes 4 c.bytes ++ toBytes 4 (optNo c.pred0) ++ toBytes 4 (optNo c.pred1) ++
    toBytes 4 ((if c.pred0.isSome then 1 else 0) + (if c.pred1.isSome then 2 else 0)) ++ toBytes 2 c.core ++ toBytes 1 c.kind ++ toBytes 9 0

/-- The barriers that copies target, with the bytes that dropped copies have landed (R298, R299, R302). -/
def State.barRecords (s : State) (c : Nat) (all dropped : List Copy) : List Byte :=
  let onBar (d : Copy) : Bool := decide (d.doneKind = 1) && !d.isRemote
  ((all.filter onBar).map Copy.daddr).dedup.flatMap fun va =>
    match window c (s.core c) va 16 with
    | .ok (.spad key) =>
      let extra := ((dropped.filter fun d => onBar d && decide (d.daddr = va)).map fun d => d.bytes).sum
      toBytes 8 va ++ toBytes 4 (s.spadNat key 4 + extra) ++ Bank.getRun 0 s.spad (key + 4) 12 ++ toBytes 8 0
    | _ => []

/-- Places sections after the header: their directory entries, the bytes that follow the header, and the end. The sections start at
64-byte boundaries in entry order. -/
def placeSections : List (Nat × List Byte) → Nat → List (Nat × Nat × Nat) → List (Nat × List Byte) → List (Nat × Nat × Nat) × List (Nat × List Byte) × Nat
  | [], at_, dir, out => (dir, out, at_)
  | (n, bs) :: r, at_, dir, out =>
    if bs.isEmpty then placeSections r at_ dir out
    else
      let a := (at_ + 63) / 64 * 64
      placeSections r (a + bs.length) (dir ++ [(n, a, bs.length)]) (out ++ [(a, bs)])

/-- What a save decides before it writes (R297 to R299). -/
structure SavePlan where
  entry : Word
  discard : Bool
  lcs : List (Bank Word)
  g : Bank Gen
  map : Bank (BitVec 256)
  next : BitVec 32
  rmark : BitVec 32
  p0 : Option (BitVec 32)
  p1 : Option (BitVec 32)
  timed : Bool

/-- The header's 4,096 bytes (R301). -/
def saveHeader (k : Core) (p : SavePlan) (heldCause accs : Nat) (dir : List (Nat × Nat × Nat)) : List Byte :=
  let y := k.sys
  let b (x : Bool) (n : Nat) : Nat := if x then n else 0
  let tcb := { k.tcb with cls := y.cls, urgent := y.urgent }
  let lc (e n : Nat) : Nat := (Bank.get 0 (p.lcs.getD e []) n).toNat
  let six := List.range 6
  tcbBytes tcb ++ toBytes 8 p.entry.toNat ++
    toBytes 4 (b p.discard 1 + b (decide (heldCause = 1)) 2 + b (decide (heldCause = 2)) 4 + b p.p0.isSome 16 + b p.p1.isSome 32) ++
    toBytes 4 0 ++ toBytes 8 (p.rmark.toNat * 2 ^ 32 + p.next.toNat) ++ toBytes 4 (optNo p.p0) ++ toBytes 4 (optNo p.p1) ++
    toBytes 8 y.flags.toNat ++ toBytes 8 (Sys.mode { y with timed := p.timed }).toNat ++ toBytes 8 y.slip.toNat ++
    toBytes 8 y.wdLimit.toNat ++ toBytes 8 y.trapvec.toNat ++ toBytes 8 y.mxprog.toNat ++ toBytes 2 accs ++
    toBytes 1 (b k.tmask 1) ++ toBytes 45 0 ++
    (six.flatMap fun e => (List.range 4).flatMap fun n => toBytes 8 (lc e n)) ++
    ((List.range 8).flatMap fun n => toBytes 64 (Bank.get Gen.zero p.g n).img.toNat) ++
    ((List.range 16).flatMap fun n => toBytes 32 (Bank.get 0 p.map n).toNat) ++
    toBytes 64 k.regionDesc.toNat ++
    ((List.range 64).flatMap fun n => toBytes 8 (if bit k.regionDesc n then (Bank.get 0 k.regs.s n).toNat else 0)) ++
    ((List.range 16).flatMap fun n =>
      match dir.find? fun d => decide (d.1 = n) with | some d => toBytes 4 d.2.1 ++ toBytes 4 d.2.2 | none => toBytes 8 0) ++
    toBytes 1984 0

/-! Pre-emption -/

/-- A request is parked at its home, or waits to be sent again (R264). Of another package's home the answer says so. -/
def State.parkedCmd (s : State) (m : MCmd) : Bool :=
  (decide (m.st = .unsent) && m.again) ||
    (if m.isOwn s then (s.mslice m.msg.slice).parked.contains m.msg else decide (m.st = .home))

/-- The word at which a pre-emption is taken now, if it is (R122, R264, R297). -/
def State.preemptAt (s : State) : Option Word :=
  let k := s.here
  let q := k.en .sq
  if !s.preemptDue s.cur.core || k.finishing none || k.trapHeld.isSome then none
  else if k.sys.urgent then some k.regionEntry
  else
    match q.wait with
    | some (.tuple seq _ _) =>
      match k.mcmds.find? fun m => decide (m.inst = k.inst ∧ m.msg.seq = seq) with
      | some m => if s.parkedCmd m then some m.pc else none
      | none => none
    | _ =>
      match fetchBytes s s.cur.core q.pc.toNat with
      | .ok bs =>
        match decodeWord (BitVec.ofNat 64 (ofBytes bs)) with
        | .ok (_, .idem _) => if k.gathered .sq && k.ctlEmpty && decide (k.tokensLeft = 0) && k.nestOwed.isEmpty then some q.pc else none
        | _ => none
      | .error _ => none

/-- What has been done of a nest in timed mode takes effect where it stops; its events join SYS.FLAGS (R237, R298). -/
def State.stopNest (s : State) (c : Nat) (n : Nest) : State :=
  let k := n.work.foldl (fun k p => k.setReg p.dst (blend (k.regNat p.dst) p.val p.bm)) (s.core c)
  let k := (k.putNest { n with work := [], flags := 0 })
  n.work.foldl (fun (s : State) p => match p.dst with
    | .spad key => { s with spad := Bank.set 0 s.spad key (BitVec.ofNat 8 (p.val % 256)) }
    | _ => s) (s.setCore c { k with sys := { k.sys with flags := k.sys.flags ||| n.flags } })

/-- Stops every nest: those whose work is done take effect, and the one at work, or with finish pushes left, is held with CAUSE 2
(R298). -/
def State.stopNests (s : State) (c : Nat) : State :=
  let last := ((s.core c).nests.filterMap Nest.ends).foldl max (s.core c).cyc
  let s := s.catchUp c last
  let s := (s.core c).nests.foldl (fun s n => s.stopNest c n) s
  let k := s.core c
  match k.nests.find? Nest.started with
  | some n => if k.held then s else s.setCore c { k with sys := { k.sys with mxprog := n.progress 2 } }
  | none => s

/-- What is saved of the loop, generator and map registers, of the numbers and of the mode (R299). -/
def Core.savePlan (k : Core) (entry : Word) (parked : Bool) : SavePlan :=
  let y := k.sys
  if y.urgent then
    let n := k.snap.next
    let lower := decide ((y.rmark - n).toNat ≠ 0 ∧ (y.rmark - n).toNat < 2 ^ 31)
    ⟨entry, true, k.snap.lcs, k.snap.g, k.snap.map, n, if lower then n else y.rmark, k.snap.pend0, k.snap.pend1, k.snap.timed⟩
  else ⟨entry, false, if parked then k.snap.lcs else Eng.all.map fun e => (k.en e).lc, k.regs.g, k.regs.map, y.next, y.rmark, k.pend0, k.pend1, y.timed⟩

/-- A copy is at no packet boundary yet: it has landed in full, or a write of it to another package is not acknowledged (R298). -/
def State.copyEnding (s : State) (d : Copy) : Bool :=
  d.signalled || (d.engine.isSome && decide (d.landedUnits = (s.copyParts d d.shapeRec).length)) ||
    (s.core d.core).remote.any fun r => r.write && d.asked.any fun x => decide (x.1 = r.tag)

/-- What the overlap checker keeps of a saved task: marks that no engine has joined, without those of what the save drops (R272,
R299). -/
def Core.savedMarks (k : Core) (p : SavePlan) (nests : List Nest) : List Mark :=
  let joined := Eng.all.flatMap fun e => (k.en e).joined
  let stays (m : Mark) : Bool :=
    match m.seq with
    | some q => !p.discard || decide ((k.sys.next - p.next).toNat ≤ (q - p.next).toNat)
    | none => nests.any fun n => decide (n.id = m.id)
  (k.marks.filter fun m => stays m && !joined.contains (m.id + 1)).map fun m => { m with rd := if joined.contains m.id then none else m.rd }

/-- The stores of a core's task reach home, so that they come before what the task does where it goes on (R143, R298). -/
def State.taskHome (s : State) (c : Nat) : State :=
  let s := drainCombine s c
  drainNeeded (dieOf c) (fun b => decide (b.stream / 6 = c) || (s.core c).follows c b) (s.die (dieOf c)).buf.length s

/-- Takes a pre-emption: the task is quiesced, its save area is written, and signals to it go to its log from now on (R298 to
R302). It waits for the copies that are to complete. -/
def execPreemption (s : State) : Res :=
  let c := s.cur.core
  match s.preemptAt with
  | none => .next s
  | some entry =>
    if s.copies.any fun d => decide (d.inst = s.here.inst) && s.copyEnding d then .next s
    else
    let parked := match (s.en .sq).wait with | some (.tuple _ _ _) => true | _ => false
    let s := (s.landAll c).taskHome c
    let s := s.upd fun k => k.stopOthers
    let s := s.stopNests c
    let k := s.core c
    let p := k.savePlan entry parked
    let nests := k.nests.filter fun n => !p.discard || decide (n.nseq < k.snap.nests)
    let mine := s.copies.filter fun d => decide (d.inst = k.inst)
    let dropped := mine.filter fun d => p.discard && decide ((d.seq - p.next).toNat < (k.sys.next - p.next).toNat)
    let kept := mine.filter fun d => !dropped.contains d
    let heldCause := if k.held && (match nests with | n :: _ => n.started | [] => false) then slice k.sys.mxprog 62 60 else 0
    let k := { k with sys := { k.sys with mxprog := if heldCause = 0 then 0 else k.sys.mxprog } }
    let accs := nests.foldl (fun m n => m ||| n.loop.rotation.toNat) (descField k.regionDesc 24 2)
    let lo := descField k.regionDesc 32 4
    let hi := descField k.regionDesc 36 4
    let sections : List (Nat × List Byte) :=
      [ (0, (descVregs k.regionDesc).flatMap fun v => toBytes 1024 (Bank.get 0 k.regs.v v).toNat),
        (1, ((List.range 16).filter fun a => accs.testBit a).flatMap fun a => toBytes 16384 (Bank.get 0 k.regs.acc a).toNat),
        (2, nests.flatMap k.nestRecord),
        (3, k.fmtq.flatMap fmtBytes),
        (4, kept.flatMap copySaved),
        (5, s.barRecords c mine dropped),
        (8, k.events.flatMap fun ev => toBytes 8 ev.cause.toNat ++ toBytes 8 ev.addr.toNat),
        (9, Bank.getRun 0 s.spad (clusterOf c * windowSize + k.winBase + lo) (hi - lo)) ]
    let (dir, out, fin) := placeSections sections 4096 [] []
    let area := s.savePool.toNat + (2 * c + (if k.sys.cls then 1 else 0)) * saveSlot
    let s := s.setPhys area (saveHeader k p heldCause accs dir)
    let s := out.foldl (fun s x => s.setPhys (area + x.1) x.2) s
    let v : Saved :=
      { core := c, cls := k.sys.cls, fixed := false, ready := false, area := area, inst := k.inst, org := k.org, taskid := k.sys.taskid
        asid := k.sys.asid, pages := k.tcb.pages, next := p.next
        live := k.live.filter fun q => !p.discard || decide ((k.sys.next - p.next).toNat ≤ (q - p.next).toNat)
        ran := k.ran, logAt := (fin + 15) / 16 * 16, late := [], marks := k.savedMarks p nests
        winKey := clusterOf c * windowSize + k.winBase
        nestIds := nests.map Nest.id }
    let s := { s with copies := s.copies.filter fun d => !mine.contains d, saved := s.saved ++ [v] }
    .next (s.setCore c { k.vacate with phase := .saving, tcb := k.tcb, winBase := k.winBase })

/-- The save is complete: the saved SEQ has the numbers that have retired meanwhile, as that of a withdrawn request (R298, R324), the task's
return entry is ready and the core is free (R264). -/
def execSaveComplete (s : State) : Res :=
  let c := s.cur.core
  let k := s.here
  match s.saved.find? fun v => decide (v.core = c) && !v.ready && !v.fixed with
  | some v =>
    if k.phase ≠ .saving ∨ s.withdrawing v.inst then .next s
    else
      let l := s.saved.map fun (w : Saved) => if w.inst = v.inst then { w with ready := true } else w
      .next ((({ s with saved := l } : State).setPhys (v.area + 84) (toBytes 4 (markOf v.next v.live).toNat)).setCore c k.vacate)
  | none => .next s

/-! Resumption -/

/-- Restores a generator register as gload does, with the table of a rotary one read again (R257, R303). DESIGN CHOICE (log 98): where the
table cannot be read there is no word to trap; the image comes back with no table. -/
def State.restoreGen (s : State) (img : Nat) : Gen :=
  let r : Gen := ⟨BitVec.ofNat 512 img, none⟩
  if r.isRotary && r.imageOk then
    match s.blockPlace r.tableAddr (4 * r.nf) 4 .read with
    | .ok _ => { r with freq := some ((List.range r.nf).map fun i => BitVec.ofNat 32 (fieldAt (s.load r.tableAddr (4 * r.nf)).1 (4 * i) 4)) }
    | .error _ => r
  else r

/-- A bank of registers from numbers. -/
def bankOf {α : Type} [DecidableEq α] (d : α) (l : List (Nat × α)) : Bank α := l.foldl (fun b x => Bank.set d b x.1 x.2) []

/-- A nest from its record; the first of a held nest takes its progress from SYS.MXPROG (R239, R302, R303). DESIGN CHOICE (log 45): where
none was held the save area has no count, and NSEQ is the place in the queue. -/
def State.restoreNest (s : State) (b : List Byte) (i id : Nat) (mxprog : Word) (cause : Nat) (timed : Bool) : Nest :=
  let held := decide (i = 0 ∧ cause ≠ 0)
  let f (on : Bool) (hi lo : Nat) : Nat := if on then slice mxprog hi lo else 0
  let table := (List.range 32).map fun n => BitVec.ofNat 64 (fieldAt b (8 * n) 8)
  let fw : FmtWord := ⟨BitVec.ofNat 64 (fieldAt b 256 8), BitVec.ofNat 64 (fieldAt b 264 8), BitVec.ofNat 64 (fieldAt b 272 8)⟩
  let l := Loop.of table fw
  let step := f held 40 0
  let dr : Option Nat := if held && bit mxprog 58 then some (slice mxprog 44 42) else none
  { table := table, fw := fw, id := id, nseq := slice mxprog 52 45 + i
    ga := s.restoreGen (fieldAt b 288 64), gb := s.restoreGen (fieldAt b 352 64), gd := s.restoreGen (fieldAt b 448 64)
    started := held, step := step, row := f held 57 53
    -- the held tile is gone: the load comes back before the next step (R240)
    rl := held && dr.isNone && decide (step < l.total), dr := dr
    fresh := BitVec.ofNat 16 (fieldAt b 418 2), dord := fieldAt b 420 4, flags := 0, consumed := BitVec.ofNat 5 (fieldAt b 416 1)
    finished := BitVec.ofNat 5 (fieldAt b 417 1), ahead := []
    timed := timed, issue := 0, ends := none, complete := false, work := [], after := [], clk := [], joined := [] }

/-- A copy from its record, to be issued again in full (R303). -/
def restoreCopy (b : List Byte) (core inst : Nat) (asid : BitVec 12) : Copy :=
  let v := fieldAt b 144 4
  { core := core, inst := inst, seq := BitVec.ofNat 32 (fieldAt b 128 4), kind := fieldAt b 150 1, desc := b.take 128, asid := asid
    shape := [], shapeAddr := 0, map := 0, rows := []
    pred0 := if v.testBit 0 then some (BitVec.ofNat 32 (fieldAt b 136 4)) else none
    pred1 := if v.testBit 1 then some (BitVec.ofNat 32 (fieldAt b 140 4)) else none
    again := true, engine := none, landed := [], bytes := 0, events := 0, signalled := false }

/-- Records of a size in a section. -/
def records (b : List Byte) (size : Nat) : List (List Byte) :=
  (List.range (b.length / size)).map fun i => (b.drop (size * i)).take size

/-- A barrier written back with the bytes that its recorded copies had landed (R303, R304). -/
def State.recount (s : State) (c : Nat) (copies : List (List Byte)) (b : List Byte) : State :=
  let va := fieldAt b 0 8
  match window c (s.core c) va 16 with
  | .ok (.spad key) =>
    let mine := copies.filter fun x => decide (fieldAt x 2 1 / 8 % 4 = 1) && !(fieldAt x 2 1).testBit 5 && decide (fieldAt x 64 8 = va)
    let n := fieldAt b 8 4 + (mine.map fun x => fieldAt x 132 4).sum
    { s with spad := Bank.setRun 0 s.spad key (toBytes 4 n ++ (b.drop 12).take 12) }
  | _ => s

/-- The MORAINE section holds a delivered tuple (R302). -/
def delivered (m : List Byte) : Bool := (fieldAt m 8 1).testBit 0

/-- A delivered tuple goes to the group of the word that asked for it (R303, R324). -/
def State.restoreTuple (s : State) (m : List Byte) : State :=
  match fetchBytes s s.cur.core (fieldAt m 0 8) with
  | .ok bs =>
    let t := (List.range 8).map fun i => (BitVec.ofNat 64 (fieldAt m (32 + 8 * i) 8) : Word)
    let stamp := slice (word t 0) 63 32
    let give (sd sb : SReg) : State :=
      let pattern := (List.range 8).map fun i => (Bank.get 0 s.here.regs.s (sb.toNat + i) : Word)
      let s := s.upd fun k => (deliveredWords pattern t stamp).foldl (fun k x => k.setReg (.s (sd.toNat + x.1)) x.2.toNat) k
      s.acquire .mesh
    match decodeWord (BitVec.ofNat 64 (ofBytes bs)) with
    | .ok (_, .mrd sd _ sb) => give sd sb
    | .ok (_, .mtake sd _ sb) => give sd sb
    | _ => s
  | .error _ => s

/-- The registers of the header and the sections; every other register is 0 (R303). -/
def State.restoreCore (s : State) (c : Nat) (v : Saved) (t : Tcb) (h : List Byte) (sec : Nat → List Byte) (base : Nat) (part : BitVec 16) : Core :=
  let w (off n : Nat) : Nat := fieldAt h off n
  let fl : BitVec 32 := BitVec.ofNat 32 (w 72 4)
  let d : BitVec 512 := BitVec.ofNat 512 (w 1408 64)
  let accs := (List.range 16).filter fun a => (w 144 2).testBit a
  let vregs := descVregs d
  let mode : Word := BitVec.ofNat 64 (w 104 8)
  let entry : Word := BitVec.ofNat 64 (w 64 8 + if delivered (sec 6) then 8 else 0)
  let k := (s.core c).vacate
  let sys : Sys := { Sys.zero with
    timed := bit mode 0, det := bit mode 1, toklost := BitVec.ofNat 8 (slice mode 15 8), flags := BitVec.ofNat 7 (w 96 8)
    slip := BitVec.ofNat 13 (w 112 8), wdLimit := BitVec.ofNat 32 (w 120 4), taskid := t.taskid, asid := t.asid, cls := t.cls
    urgent := t.urgent, next := BitVec.ofNat 32 (w 80 4), rmark := BitVec.ofNat 32 (w 84 4), trapvec := BitVec.ofNat 64 (w 128 8) &&& 0x01FFFFFFFFFFFFC1
    mxprog := if bit fl 1 then BitVec.ofNat 64 (w 136 8) &&& 0xFFFFFDFFFFFFFFFF else 0, part := part }
  let k : Core := { k with
    phase := .running, tcb := t, inst := v.inst, org := v.org, ran := (v.core :: v.ran).dedup, winBase := base, sys := sys
    regionEntry := entry, regionDesc := d, tmask := bit (BitVec.ofNat 8 (w 146 1)) 0
    pend0 := if bit fl 4 then some (BitVec.ofNat 32 (w 88 4)) else none
    pend1 := if bit fl 5 then some (BitVec.ofNat 32 (w 92 4)) else none
    live := v.live
    fmtq := (records (sec 3) 24).map fun b => ⟨BitVec.ofNat 64 (fieldAt b 0 8), BitVec.ofNat 64 (fieldAt b 8 8), BitVec.ofNat 64 (fieldAt b 16 8)⟩
    events := (records (sec 8) 16).map fun b => ⟨BitVec.ofNat 64 (fieldAt b 0 8), BitVec.ofNat 64 (fieldAt b 8 8)⟩
    regs := { Regs.zero with
      s := bankOf 0 ((List.range' 1 63).map fun n => (n, BitVec.ofNat 64 (w (1472 + 8 * n) 8)))
      v := bankOf 0 ((List.range vregs.length).zipWith (fun i r => (r, BitVec.ofNat 8192 (fieldAt (sec 0) (1024 * i) 1024))) vregs)
      acc := bankOf 0 ((List.range accs.length).zipWith (fun i r => (r, BitVec.ofNat 131072 (fieldAt (sec 1) (16384 * i) 16384))) accs)
      map := bankOf 0 ((List.range 16).map fun n => (n, BitVec.ofNat 256 (w (896 + 32 * n) 32))) } }
  Eng.all.foldl (fun (k : Core) e => k.onEn e fun x => { x with
    pc := entry, lc := bankOf 0 ((List.range 4).map fun n => (n, BitVec.ofNat 64 (w (192 + 32 * e.tag + 8 * n) 8))) }) k

/-- Applies the signal log in order (R303, R305). -/
def State.replay (c : Nat) : List (List Byte) → State → State
  | [], s => s
  | b :: r, s =>
    let a := fieldAt b 0 8
    State.replay c r (s.applySignal c (a % 2 ^ 57) (a.testBit 63) (BitVec.ofNat 64 (fieldAt b 8 8)))

/-- A mark of a task whose window has moved (R272, R303). -/
def Mark.moved (m : Mark) (old new size : Nat) : Mark :=
  let at_ (r : Option (Nat × Nat)) : Option (Nat × Nat) :=
    match r with
    | some (a, b) => if old ≤ a ∧ b ≤ old + size then some (a - old + new, b - old + new) else some (a, b)
    | none => none
  let obj (o : Word) : Word := if old ≤ o.toNat ∧ o.toNat < old + size then BitVec.ofNat 64 (o.toNat - old + new) else o
  { m with rd := at_ m.rd, wr := at_ m.wr, obj := m.obj.map obj }

/-- What the overlap checker holds after a resumption: what it held of the task, and the recorded nests and copies of an area that came
from elsewhere (R272, R303). -/
def State.restoreMarks (s : State) (v : Saved) (copies : List Copy) : State :=
  let k := s.here
  let lo := clusterOf s.cur.core * windowSize
  let kept := v.marks.map fun m => m.moved v.winKey (lo + k.winBase) (k.tcb.pages * 65536)
  let part (is : List Nat) (l : Loop) : Option (Nat × Nat) := hull ((is.flatMap l.spans).flatMap (spadPart s.cur.core k))
  let nests : List Mark := (k.nests.filter fun n => !kept.any fun m => decide (m.id = n.id)).map fun n =>
    ⟨n.id, none, part [0, 1] n.loop, part [2] n.loop, none, []⟩
  let fresh := copies.filter fun c => !kept.any fun m => decide (m.seq = some c.seq)
  let marks : List Mark := fresh.zipIdx.filterMap fun x =>
    match s.rereadCopy x.1 with
    | .ok (c, _) =>
      let (rd, wr) := s.copyRanges c c.shapeRec
      some ⟨2 * (s.nextId + x.2), some c.seq, rd, wr, s.completionKey c, c.preds⟩
    | .error _ => none
  if k.sys.det then ({ s with nextId := s.nextId + fresh.length } : State).upd fun k => { k with marks := kept ++ nests ++ marks } else s

/-- A lower-numbered core of the cluster could take a return entry too: it has precedence (R262). -/
def State.yieldsTo (s : State) (c : Nat) (v : Saved) : Bool :=
  (List.range c).any fun d =>
    decide (clusterOf d = clusterOf c) &&
      match s.pickTask d with
      | some (.back w) => decide (w.cls = v.cls) && (s.returnsFor d v.cls).contains v
      | _ => false

/-- An idle core takes a return entry or a resume slot's task and restores it (R262, R303). -/
def execResumption (s : State) : Res :=
  let c := s.cur.core
  match s.pickTask c with
  | some (.back v) =>
    if s.yieldsTo c v then .next s
    else
    let h := Bank.getRun 0 s.hbm v.area 4096
    match readTcb (h.take 64) with
    | none => .next s
    | some t =>
      let sec (n : Nat) : List Byte := Bank.getRun 0 s.hbm (v.area + fieldAt h (dirAt n) 4) (fieldAt h (dirAt n + 4) 4)
      let cl := clusterOf c
      let bases := s.windowBases cl t.pages
      let base := bases.getD (Config.pick s.free c % bases.length) 0
      let lo := cl * windowSize + base
      let s := { s with
        saved := s.saved.filter fun w => decide (w.inst ≠ v.inst)
        resumes := if v.fixed then Bank.set ⟨0, false⟩ s.resumes v.core ⟨BitVec.ofNat 64 v.area, false⟩ else s.resumes
        spad := s.spad.filter fun x => decide (x.1 < lo ∨ lo + t.pages * 65536 ≤ x.1) }
      -- window and registers
      let s := s.setCore c (s.restoreCore c v t h sec base (s.partOf cl))
      let s := { s with spad := Bank.setRun 0 s.spad (lo + descField (BitVec.ofNat 512 (fieldAt h 1408 64)) 32 4) (sec 9) }
      let gens := bankOf Gen.zero ((List.range 8).map fun n => (n, s.restoreGen (fieldAt h (384 + 64 * n) 64)))
      let s := s.upd fun k => { k with regs := { k.regs with g := gens } }
      -- barriers, then signals
      let copies := records (sec 4) 160
      let s := (records (sec 5) 32).foldl (fun s b => s.recount c copies b) s
      let s := State.replay c (records (sec 7) 16) s
      -- events and nests
      let s := s.upd fun k => v.late.foldl Core.pushEvent k
      let fl := fieldAt h 72 4
      let cause := if fl.testBit 1 then 1 else if fl.testBit 2 then 2 else 0
      let nests := (List.range (sec 2).length).zipWith (fun i b =>
        s.restoreNest b i (v.nestIds.getD i (2 * (s.nextId + i))) (BitVec.ofNat 64 (fieldAt h 136 8)) cause s.here.sys.timed)
        (records (sec 2) 1024)
      let s : State := { s with nextId := s.nextId + nests.length }
      let s := s.upd fun k => { k with nests := nests, nestCount := (nests.map fun n => n.nseq + 1).foldl max k.nestCount }
      -- copies
      let again := copies.map fun b => restoreCopy b c v.inst t.asid
      let s := ({ s with copies := s.copies ++ again } : State).restoreMarks v again
      -- Moraine
      let s := if delivered (sec 6) then s.restoreTuple (sec 6) else s
      .next (s.upd fun k => { k with snap := k.snapshot, sys := { k.sys with rmark := markOf k.sys.next k.live } })
  | _ => .next s

/-- A doorbell of a resume slot: the save area that the slot names is to be resumed on the slot's core, the one under the cursor
(R306, R373). A task of this package that the area moves takes its identity along; for one from elsewhere every other package of the mesh
hears of its retirements, so that the notice follows the task (R265). -/
def execResumeDoorbell (s : State) : Res :=
  let c := s.cur.core
  let x := Bank.get ⟨0, false⟩ s.resumes c
  if 160 ≤ c then .fault .noSuchUnit
  else if x.busy then .next (s.logRefused 0x00300000)
  else
    let area := x.area.toNat
    let h := Bank.getRun 0 s.hbm area 4096
    match readTcb (h.take 64) with
    | none => .next (s.logRefused 0x00300000)
    | some t =>
      let seqs := (records (Bank.getRun 0 s.hbm (area + fieldAt h (dirAt 4) 4) (fieldAt h (dirAt 4 + 4) 4)) 160).map fun b =>
        (BitVec.ofNat 32 (fieldAt b 128 4) : BitVec 32)
      let old := s.saved.find? fun w => w.ready && !w.fixed && decide (w.area = area ∨ Bank.getRun 0 s.hbm w.area 72 = h.take 72)
      let v : Saved :=
        { core := c, cls := t.cls, fixed := true, ready := true, area := area, inst := s.nextInst, org := .renq 0, taskid := t.taskid
          asid := t.asid, pages := t.pages, next := BitVec.ofNat 32 (fieldAt h 80 4), live := seqs, ran := []
          logAt := if fieldAt h (dirAt 7 + 4) 4 = 0 then
              ((List.range 10).foldl (fun m n => max m (fieldAt h (dirAt n) 4 + fieldAt h (dirAt n + 4) 4)) 4096 + 15) / 16 * 16
            else fieldAt h (dirAt 7) 4
          late := [] }
      let v := match old with
        | some w =>
          { v with
            inst := w.inst, org := w.org, live := w.live, late := w.late, ran := (w.core :: w.ran).dedup, marks := w.marks
            winKey := w.winKey, nestIds := w.nestIds }
        | none => v
      -- the other packages of the mesh may hold blocks that name its numbers
      let told : List Watch := match old with
        | some _ => []
        | none => v.live.flatMap fun p => ((meshPackages s.mesh).filter fun q => decide (q ≠ s.package)).map fun q => ⟨v.inst, p, q, v.taskid, none⟩
      .next { s with
        nextInst := s.nextInst + 1
        watches := s.watches ++ told
        resumes := Bank.set ⟨0, false⟩ s.resumes c ⟨x.area, true⟩
        saved := (s.saved.filter fun w => decide (w.inst ≠ v.inst)) ++ [v] }

end Sys2Proof.Machine
end

