-- ==== Sys2Proof/Machine/Platform.lean ====
section
/-! DEFINITION. The control node's port, reset, service levels, failures and the accesses that complete on their own (R20, R23, R26, R29 to R31,
R131, R138, R139, R263, R307, R373 to R381, R385). -/

namespace Sys2Proof.Machine

/-! Levels -/

/-- The code of a service level (R29). -/
def Level.code : Level → Nat
  | .boot => 0 | .reduced => 1 | .full => 2 | .halted => 3

/-- The package gives service (R30). -/
def State.serves (s : State) : Bool := decide (s.level = .reduced ∨ s.level = .full)

/-- A change of level: GEN goes up once before it, and again at the next step, and KIND 9 is logged with the level in AUX (R26, R378). -/
def State.toLevel (s : State) (l : Level) (clock : Nat) : State :=
  { s with level := l, clock := clock, gen := s.gen + 1 }.logOwn 5 0 9 0 false 0 (BitVec.ofNat 32 (Level.code l)) 0

/-- What a step does before its own: a fresh place in the free values, and the second increment of GEN where the step before changed
entries of the capability list (R26). -/
def State.tick (s : State) : State :=
  { s with free := s.free + 1, gen := if s.gen.toNat % 2 = 1 then s.gen + 1 else s.gen }

/-- The sites of the logical cores by an image's map, whose first 160 entries are the sites and whose others are spares: a core that has
failed its self-check goes to the next spare, while there is one; and the cores that did (R376, R379). -/
def bindCores (map failed : List Nat) : List Nat × List Nat :=
  let hit := ((List.range 160).filter fun c => failed.contains c).zip (map.drop 160)
  (hit.foldl (fun m x => m.set x.1 x.2) (map.take 160), hit.map Prod.fst)

/-- A configuration image's map names a site of its own for each core (R376). -/
def mapOk (map : List Nat) : Bool := decide (160 ≤ map.length) && map.Nodup

/-- Reset: firmware and configuration image are hashed and verified, the version is held against the flash counter page, and cores are
bound to their sites; then reduced service begins (R376, R378, R379). A failure leaves the package at boot level and is reported with
KIND 8. -/
def execReset (fw img : BootCheck) (version : Nat) (sites : SiteMap) (s : State) : Res :=
  let z : State := { State.reset with agenda := s.agenda, cur := s.cur, free := s.free, flash := s.flash }
  if fw.ok && img.ok && decide (s.flash ≤ version) && mapOk sites.map then
    let (bound, moved) := bindCores sites.map sites.failed
    let z := { z with flash := version, version := version, coreMap := bound, fwHash := fw.hash, imgHash := img.hash }
    .next ((moved.foldl (fun (z : State) c => z.logRepair 0 c 0) z).toLevel .reduced 875)
  else .next (z.logOwn 5 0 8 0 false 0 0 0)

/-- Full service begins once every stack is up and every port is up or retired (R378). -/
def execFullServiceEntry (s : State) : Res :=
  if s.level = .reduced ∧ s.hbmUp = BitVec.allOnes 12 ∧ (List.range 48).all (fun n => decide (2 ≤ (s.port n).st)) then
    .next (s.toLevel .full 1750)
  else .next s

/-- The arithmetic clock goes down by 125 MHz (R26, R381). -/
def execClockStep (s : State) : Res :=
  if s.serves && decide (125 < s.clock) then .next (s.toLevel s.level (s.clock - 125)) else .next s

/-- A third failed symbol in a dirty line halts the package (R380). -/
def execHalt (asid : BitVec 12) (addr : Word) (s : State) : Res :=
  if s.serves then .next ((s.toLevel .halted s.clock).logOwn 5 0 8 0 false 0 (asid.setWidth 32) addr) else .next s

/-- An error is corrected and no program sees it (R379). -/
def execHiddenRepair (addr : Word) (s : State) : Res := .next (s.logRepair 4 0 addr)

/-! Launches -/

/-- An empty launch slot. -/
def LaunchSlot.zero : LaunchSlot := ⟨[], false, 0⟩

/-- A launch slot. -/
def State.slot (s : State) (i : Nat) : LaunchSlot := Bank.get LaunchSlot.zero s.slots i

/-- Replaces a launch slot. -/
def State.setSlot (s : State) (i : Nat) (x : LaunchSlot) : State := { s with slots := Bank.set LaunchSlot.zero s.slots i x }

/-- A partition-table entry. -/
def State.part (s : State) (i : Nat) : Part := Bank.get Part.zero s.parts i

/-- Address of a launch slot in the control window (R373). -/
def slotAddr (i : Nat) : Word := BitVec.ofNat 64 (0x00200000 + 128 * i)

/-- A launch slot's doorbell: the block is refused, or numbered and enqueued, or held for an entry (R263, R374). -/
def execLaunchDoorbell (slot : Nat) (s : State) : Res :=
  if 64 ≤ slot then .fault .noSuchUnit
  else
    let x := s.slot slot
    let p := s.part slot
    match readTcb (x.block ++ List.replicate (64 - x.block.length) 0) with
    | none => .next (s.logRefused (slotAddr slot))
    | some t =>
      if x.busy || !p.valid || !p.leadHere || !s.accepts p.lcore then .next (s.logRefused (slotAddr slot))
      else
        let n := Bank.get 0 s.launchNext p.part.toNat
        let q : QEntry := ⟨t, .launch p.part n⟩
        let s := { s with launchNext := Bank.set 0 s.launchNext p.part.toNat (n + 1), launchLive := s.launchLive ++ [(p.part, n)] }
        let s := s.logTask p.lcore 0 0 false t.taskid q.org 0
        if s.queueRoom p.lcore t.cls then .next (s.enqueue p.lcore q)
        else .next (s.setSlot slot { x with busy := true, number := n })

/-- A block that a full class held up enters the queue (R263). -/
def execLaunchDeferredAccept (slot : Nat) (s : State) : Res :=
  if 64 ≤ slot then .fault .noSuchUnit
  else
    let x := s.slot slot
    let p := s.part slot
    match readTcb (x.block ++ List.replicate (64 - x.block.length) 0) with
    | none => .next s
    | some t =>
      if x.busy && s.queueRoom p.lcore t.cls then
        .next ((s.enqueue p.lcore ⟨t, .launch p.part x.number⟩).setSlot slot { x with busy := false })
      else .next s

/-! Tables -/

/-- An entry's bytes (R374). -/
def partBytes (p : Part) : List Byte :=
  toBytes 5 p.cmask.toNat ++ toBytes 2 p.part.toNat ++ toBytes 1 ((if p.valid then 1 else 0) + (if p.leadHere then 2 else 0)) ++
    toBytes 1 p.lcore ++ toBytes 6 p.lpkg.toNat ++ toBytes 49 0

/-- A write of the first bytes of a block. -/
def overBytes (old data : List Byte) : List Byte := data.take old.length ++ old.drop data.length

/-- The entry that 64 bytes describe; none where a reserved field is not zero (R3, R374). -/
def partOfBytes (b : List Byte) : Option Part :=
  if fieldAt b 7 1 ≥ 4 ∨ fieldAt b 15 49 ≠ 0 then none
  else some ⟨BitVec.ofNat 40 (fieldAt b 0 5), BitVec.ofNat 16 (fieldAt b 5 2), (fieldAt b 7 1).testBit 0, (fieldAt b 7 1).testBit 1,
    fieldAt b 8 1, BitVec.ofNat 48 (fieldAt b 9 6)⟩

/-- A core holds a running or queued task (R20). A pre-empted task waits in its core's return entry. -/
def State.coreBusy (s : State) (c : Nat) : Bool :=
  let k := s.core c
  decide (k.phase ≠ .idle) || !k.queue0.isEmpty || !k.queue1.isEmpty || s.saved.any fun v => decide (v.core = c)

/-- A cluster has a core that holds a task. -/
def State.clusterBusy (s : State) (cl : Nat) : Bool := (List.range 4).any fun i => s.coreBusy (4 * cl + i)

/-- The other valid entries of the partition table. -/
def State.otherParts (s : State) (i : Nat) : List Part := (s.parts.filter fun p => decide (p.1 ≠ i) && p.2.valid).map Prod.snd

/-- A partition that the port grants, changes or revokes is one that R20 and R374 allow. -/
def State.partOk (s : State) (i : Nat) (new : Part) : Bool :=
  let old := s.part i
  let had : BitVec 40 := if old.valid then old.cmask else 0
  let has : BitVec 40 := if new.valid then new.cmask else 0
  let moved : BitVec 40 := if old.valid && new.valid && decide (old.part = new.part) then had ^^^ has else had ||| has
  ((List.range 40).all fun c => !bit moved c || !s.clusterBusy c) &&
    decide (new.part ≠ 0xFFFF) && (!new.valid || (decide (new.lcore < 160) &&
      (!new.leadHere || bit new.cmask (clusterOf new.lcore)) &&
      (s.otherParts i).all fun p => decide (p.part ≠ new.part) && decide (p.cmask &&& new.cmask = 0)))

/-- The control node writes an entry of the partition table, or its first bytes (R20, R374). -/
def execPartitionTableWrite (i : Nat) (entry : List Byte) (s : State) : Res :=
  if 64 ≤ i then .fault .noSuchUnit
  else
    let entry := overBytes (partBytes (s.part i)) entry
    let addr : Word := BitVec.ofNat 64 (0x00100000 + 64 * i)
    match partOfBytes entry with
    | none => .next (s.logRefused addr)
    | some new =>
      if s.serves && s.partOk i new then
        let old := s.part i
        let s := { s with parts := Bank.set Part.zero s.parts i new }
        if new.valid && !(old.valid && decide (old.part = new.part)) then
          .next { s with
            launchNext := Bank.set 0 s.launchNext new.part.toNat 0
            launchLive := s.launchLive.filter fun x => decide (x.1 ≠ new.part) }
        else .next s
      else .next (s.logRefused addr)

/-- The control node writes a page-table root (R131, R373). -/
def execPageTableRootWrite (asid : BitVec 12) (root : Word) (s : State) : Res :=
  .next { s with roots := Bank.set 0 s.roots asid.toNat (root &&& 0x01FFFFFFFFFF0001) }

/-- A mesh and coordinates that R22 and R23 allow. -/
def meshOk (mesh coord : Word) : Bool :=
  decide (slice mesh 63 48 = 0) && decide (slice coord 63 60 = 0) && decide (meshCount mesh ≤ 4096) &&
    (List.range 4).all fun a => decide (axisCoord coord.toNat a < axisSize mesh a)

/-- The control node sets SYS.MESH and SYS.COORD (R22, R23). -/
def execMeshConfigWrite (mesh coord : Word) (s : State) : Res :=
  if meshOk mesh coord then .next { s with mesh := mesh, coord := coord } else .next (s.logRefused 0x00500000)

/-- A region declaration in the layout of R308; none where a reserved field is not zero. -/
def regionOfBytes (i : Nat) (b : List Byte) : Option MRegion :=
  if fieldAt b 16 2 ≥ 4096 ∨ fieldAt b 18 1 ≥ 64 ∨ fieldAt b 19 1 ≥ 2 then none
  else some ⟨i, fieldAt b 18 1, fieldAt b 0 8, fieldAt b 8 8, BitVec.ofNat 12 (fieldAt b 16 2), (fieldAt b 19 1).testBit 0⟩

/-- A region that R307 allows: aligned, of Moraine pages, with an id of its own, apart from the other regions of its address space. -/
def State.regionOk (s : State) (r : MRegion) : Bool :=
  let rest := s.regions.filter fun q => decide (q.slot ≠ r.slot)
  decide (r.base % 65536 = 0 ∧ r.size % 65536 = 0 ∧ 1 ≤ r.size ∧ r.size ≤ 2 ^ 38 ∧ r.base + r.size ≤ 2 ^ 57) &&
    (rest.all fun q => decide (q.rid ≠ r.rid) && (decide (q.asid ≠ r.asid) || decide (q.base + q.size ≤ r.base ∨ r.base + r.size ≤ q.base))) &&
    (List.range (r.size / 65536)).all fun i => match translateFresh s r.asid (r.base + 65536 * i) with
      | .ok t => decide (t.attr = 2)
      | .error _ => false

/-- A declaration's bytes in the layout of R308; 0 where a slot has none. -/
def State.declaredBytes (s : State) (i : Nat) : List Byte :=
  match s.regions.find? fun q => decide (q.slot = i) with
  | some r => toBytes 8 r.base ++ toBytes 8 r.size ++ toBytes 2 r.asid.toNat ++ toBytes 1 r.rid ++ toBytes 1 (if r.mesh then 1 else 0) ++ toBytes 12 0
  | none => toBytes 32 0

/-- The control node declares a Moraine region, or writes the first bytes of a declaration (R307, R373). -/
def execMoraineDeclaration (i : Nat) (entry : List Byte) (s : State) : Res :=
  if 64 ≤ i then .fault .noSuchUnit
  else
    let entry := overBytes (s.declaredBytes i) entry
    match regionOfBytes i entry with
    | some r =>
      if s.level = .full ∧ s.regionOk r = true then .next { s with regions := (s.regions.filter fun q => decide (q.slot ≠ i)) ++ [r] }
      else .next (s.logRefused (BitVec.ofNat 64 (0x00600000 + 32 * i)))
    | none => .next (s.logRefused (BitVec.ofNat 64 (0x00600000 + 32 * i)))

/-- The compute dies. -/
def allDies : List Nat := List.range 8

/-- What every core holds back, every combining buffer and every die's stores on their way home are performed. -/
def State.drainAll (s : State) : State :=
  let s := s.cores.foldl (fun s c => s.performAll c.1) s
  allDies.foldl drainDie (s.cores.foldl (fun s c => drainCombine s c.1) s)

/-- The control node purges a page: what is dirty goes home, and every line, translation and alias of it is dropped (R138, R373). -/
def execPurgeDoorbell (asid : BitVec 12) (va size : Word) (s : State) : Res :=
  if !([2 ^ 16, 2 ^ 21, 2 ^ 30].contains size.toNat) || decide (va.toNat % size.toNat ≠ 0) || decide (2 ^ 57 ≤ va.toNat) then
    .next (s.logRefused 0x00700000)
  else
    let lo := va.toNat / 65536
    let hi := (va.toNat + size.toNat) / 65536
    let inside (a : BitVec 12) (page : Nat) : Bool := decide (a = asid ∧ lo ≤ page ∧ page < hi)
    let s := s.drainAll
    let s := allDies.foldl (fun s d =>
      let x := s.die d
      s.setDie d { x with lines := x.lines.filter fun l => !inside l.asid (l.line / 512)
                          filter := x.filter.filter fun f => !inside f.1 f.2.1 && !inside f.1 f.2.2 }) s
    .next { s with trans := s.trans.filter fun t => !inside t.asid t.page
                   llc := s.llc.filter fun l => !inside l.asid (l.line / 512) }

/-- The control node advances TAIL; records that the package holds go out (R375). -/
def execEventLogTailWrite (tail : Nat) (s : State) : Res :=
  if tail < s.log.tail ∨ s.log.head < tail then .next (s.logRefused 0x00800010)
  else .next (({ s with log := { s.log with tail := tail } }).drainLog s.log.held.length)

/-- What an attestation report says: the nonce, the package serial, the measurements and the service level (R377). -/
def State.reportBody (s : State) (nonce : List Byte) : List Byte :=
  nonce ++ toBytes 16 (Config.identity 0) ++ toBytes 32 s.fwHash.toNat ++ toBytes 32 s.imgHash.toNat ++ toBytes 1 (Level.code s.level)

/-- The control node asks for an attestation report, which ends with a signature of 7,856 bytes (R377). -/
def execAttestationRequest (nonce : List Byte) (s : State) : Res :=
  let nonce := overBytes (toBytes 32 0) nonce
  if s.level = .boot then .next (s.logRefused 0x00900000)
  else
    let body := s.reportBody nonce
    .next (s.post 5 0 none (.report nonce s.level (body ++ toBytes 7856 (Config.signature body))))

/-! The windows -/

/-- Where n bytes of the memory window lie: bytes of cluster 0's scratchpad or of memory (R31, R385). -/
inductive HostPlace where
  | spad (key : Nat)
  | phys (a : Nat)
  deriving DecidableEq, Repr

/-- An access of the control node through the memory window, inside one line: none where it is refused (R385). -/
def State.hostPlace (s : State) (va n : Nat) : Option HostPlace :=
  if !s.serves then none
  else if clusterWindow ≤ va ∧ va < clusterWindow + windowSize then
    if va + n ≤ clusterWindow + windowSize then some (.spad (va - clusterWindow)) else none
  else if inScratch va ∨ 2 ^ 57 ≤ va ∨ s.level = .reduced then none
  else
    match translate s 8 s.winAsid va with
    | .ok t => if t.attr = 1 ∨ t.attr = 2 then none else some (.phys t.phys)
    | .error _ => none

/-- A host access leaves its translation behind (R135, R138). -/
def State.hostLearn (s : State) (va : Nat) : State :=
  match translate s 8 s.winAsid va with
  | .ok t => if inScratch va then s else learnHome s s.winAsid t
  | .error _ => s

/-- The address that an offset of the memory window names. -/
def State.hostAddr (s : State) (off : Nat) : Nat := s.winVa.toNat + off

/-- Reads the pieces of a host access; a refused one reads zeros and is logged (R385). -/
def State.hostRead : List Piece → State → List Byte × State
  | [], s => ([], s)
  | (va, n) :: r, s =>
    let (bs, s) : List Byte × State := match s.hostPlace va n with
      | some (.spad k) => (Bank.getRun 0 s.spad k n, s)
      | some (.phys a) => (Bank.getRun 0 s.hbm a n, s.hostLearn va)
      | none => (List.replicate n 0, s.logRefused (BitVec.ofNat 64 va))
    let (rest, s) := State.hostRead r s
    (bs ++ rest, s)

/-- Writes the pieces of a host access; a refused one is dropped and logged (R385). -/
def State.hostWrite : List Piece → List Byte → State → State
  | [], _, s => s
  | (va, n) :: r, bs, s =>
    let s := match s.hostPlace va n with
      | some (.spad k) => { s with spad := Bank.setRun 0 s.spad k (bs.take n) }
      | some (.phys a) => putHome (s.hostLearn va) a (bs.take n)
      | none => s.logRefused (BitVec.ofNat 64 va)
    State.hostWrite r (bs.drop n) s

/-- Bytes of an access of n bytes at an offset that lie in the memory window of 1 GiB (R373). -/
def windowPart (off n : Nat) : Nat := min n (2 ^ 30 - off)

/-- Bytes beyond the memory window are refused and logged (R373, R375). -/
def State.pastWindow (s : State) (off n : Nat) : State :=
  if windowPart off n < n then s.logRefused (BitVec.ofNat 64 (0x40000000 + max off (2 ^ 30))) else s

/-- A host read through the memory window (R385); what lies beyond it reads zeros. -/
def execMemoryWindowRead (off n : Nat) (s : State) : Res :=
  let m := windowPart off n
  let (bs, s) := State.hostRead (pieces m (s.hostAddr off) m) s
  .next ((s.pastWindow off n).post 5 0 none (.hostRead off (bs ++ List.replicate (n - m) 0)))

/-- A host write through the memory window: performed at its home slice, no die cache loses its line (R385). -/
def execMemoryWindowWrite (off : Nat) (data : List Byte) (s : State) : Res :=
  let m := windowPart off data.length
  .next ((State.hostWrite (pieces m (s.hostAddr off) m) (data.take m) s).pastWindow off data.length)

/-- Replaces bytes of a block of 64. -/
def putBytes (b : List Byte) (off : Nat) (data : List Byte) : List Byte :=
  let b := b ++ List.replicate (64 - b.length) 0
  b.take off ++ data ++ b.drop (off + data.length)

/-- An 8-byte register of the control window that has no event of its own, and what a write of it does (R300, R306, R335, R373, R375).
The spec gives the place of the save-area addresses and WINASID; the offsets of the save-pool base, the reshard reserve base, WINVA, and
the ring's base and count are the model's. -/
inductive ControlReg where
  | resume (core : Nat)
  | savePool | reserve | winAsid | winVa | ringBase | ringSize
  deriving DecidableEq, Repr

/-- The register at an offset. -/
def controlReg (off : Nat) : Option ControlReg :=
  if 0x00300000 ≤ off ∧ off < 0x00302800 ∧ off % 64 = 0 then some (.resume ((off - 0x00300000) / 64))
  else if off = 0x00500010 then some .savePool
  else if off = 0x00500018 then some .reserve
  else if off = 0x00500040 then some .winAsid
  else if off = 0x00500048 then some .winVa
  else if off = 0x00800000 then some .ringBase
  else if off = 0x00800008 then some .ringSize
  else none

/-- A resume slot. -/
def State.resumeSlot (s : State) (c : Nat) : ResumeSlot := Bank.get ⟨0, false⟩ s.resumes c

/-- What a register of the control window holds. -/
def State.readControl (s : State) : ControlReg → Word
  | .resume c => (s.resumeSlot c).area
  | .savePool => s.savePool
  | .reserve => s.reserve
  | .winAsid => s.winAsid.setWidth 64
  | .winVa => s.winVa
  | .ringBase => s.log.base
  | .ringSize => BitVec.ofNat 64 s.log.entries

/-- Writes a register of the control window; a busy slot and a ring size that is no power of two refuse (R373, R375). -/
def State.writeControl (s : State) (r : ControlReg) (off : Nat) (v : Word) : State :=
  match r with
  | .resume c =>
    let x := s.resumeSlot c
    if x.busy then s.logRefused (BitVec.ofNat 64 off) else { s with resumes := Bank.set ⟨0, false⟩ s.resumes c { x with area := v } }
  | .savePool => { s with savePool := v }
  | .reserve => { s with reserve := v }
  | .winAsid => { s with winAsid := v.setWidth 12 }
  | .winVa => { s with winVa := v }
  | .ringBase => { s with log := { s.log with base := v } }
  | .ringSize =>
    let e := v.toNat
    if e ≠ 0 ∧ e = 2 ^ Nat.log2 e then ({ s with log := { s.log with entries := e } }).drainLog s.log.held.length
    else s.logRefused (BitVec.ofNat 64 off)

/-- A host write to a place of the control window that has no event of its own: bytes of a launch block, or the first bytes of a register
(R31, R263, R373). Any other place takes no write, which is refused and logged. -/
def execControlWindowWrite (off : Nat) (data : List Byte) (s : State) : Res :=
  let n := data.length
  let refused := s.logRefused (BitVec.ofNat 64 off)
  if 0x00200000 ≤ off ∧ off < 0x00202000 ∧ off % 128 + n ≤ 64 then
    let i := (off - 0x00200000) / 128
    let x := s.slot i
    .next (if x.busy then refused else s.setSlot i { x with block := putBytes x.block (off % 128) data })
  else
    match controlReg off with
    | some r => .next (if n ≤ 8 then s.writeControl r off (BitVec.ofNat 64 (ofBytes (overBytes (toBytes 8 (s.readControl r).toNat) data))) else refused)
    | none => .next refused

/-! Accesses that complete on their own -/

/-- What an engine of the core under the cursor has still to read or write of its access is performed, and the word finishes (R145). -/
def restPerformed (e : Eng) (s : State) : Res :=
  match (s.en e).wait with
  | some (.tornLoad d bm val later) =>
    let (x, s) := loadRuns later s
    s.loaded e d bm (val + x) []
  | some (.tornStore rest events count) => (s.performTorn e rest).storedAll e [] events count
  | some (.lines op) =>
    let (x, s) := loadRuns op.later s
    (s.performTorn e op.rest).lineStep e { op with val := op.val + x, later := [], rest := [] }
  | _ => .next s

/-- A store reaches its home slice, an access leaves a queue or goes on, a line or an entry leaves a cache, or a combining buffer drains, at a time that the device
chooses (R133 to R135, R139, R141, R142, R145, R149). -/
def execAccessPerformed (a : Access) (s : State) : Res :=
  match a with
  | .drain d n =>
    if 8 ≤ d then .fault .noSuchUnit
    else
      let b := (s.die d).buf
      -- stores to one line leave in the order in which they came
      if (b.take n).any fun x => decide (some x.phys = (b[n]?).map fun y => y.phys) then .next s else .next (drainAt s d n)
  | .evict d asid line =>
    if 8 ≤ d then .fault .noSuchUnit
    else .next (s.setDie d { s.die d with lines := (s.die d).lines.filter fun l => !decide (l.asid = asid ∧ l.line = line) })
  | .combine c n =>
    if 160 ≤ c then .fault .noSuchUnit
    else
      let k := s.core c
      match k.wc[n]? with
      | none => .next s
      | some b => .next ((landCombine s b).setCore c { k with wc := k.wc.eraseIdx n })
  | .unmap d asid page =>
    if 8 ≤ d then .fault .noSuchUnit
    else .next (s.setDie d { s.die d with filter := (s.die d).filter.filter fun f => !decide (f.1 = asid ∧ f.2.1 = page) })
  | .forget asid page => .next { s with trans := s.trans.filter fun t => !decide (t.asid = asid ∧ t.page = page) }
  | .slice asid line => .next { s with llc := s.llc.filter fun l => !decide (l.asid = asid ∧ l.line = line) }
  | .hbm c => if 160 ≤ c then .fault .noSuchUnit else .next { s with ntDue := s.ntDue.eraseP fun x => decide (x.1 = c) }
  | .queue c n =>
    if 160 ≤ c then .fault .noSuchUnit
    else
      match (s.core c).late[n]? with
      | none => .next s
      | some l => .next (s.performQueue c fun x => decide (x.id = l.id))
  | .rest c e => if 160 ≤ c then .fault .noSuchUnit else restPerformed e { s with cur := ⟨c, 6, 0⟩ }

end Sys2Proof.Machine
end

