-- ==== Sys2Proof/Machine/Vector.lean ====
section
/-! DEFINITION. The vector engine's arithmetic, bitwise, immediate, compare, selection, move and conversion words (R193 to
R206). -/

namespace Sys2Proof.Machine

/-- A form VV word: element k of vd from elements k of va, vb and the old vd, with the stochastic bits of (0, k) (R194). -/
def vecWord (o : VV) (f : Nat → Nat → Nat → Nat → Nat × Flags) (s : State) : Res :=
  orTrap s .ve (s.roundBits .ve o.rm o.g.toNat) fun bits =>
    let lanes := s.pred .ve o.pm
    let w := o.ty.bits
    let a := (s.rdV .ve o.va).toNat
    let b := (s.rdV .ve o.vb).toNat
    let d := (s.rdV .ve o.vd).toNat
    writeElems .ve o.ty o.vd lanes
      (mapActive lanes o.ty fun k => f (elemOf w a k) (elemOf w b k) (elemOf w d k) (bits 0 (k : Int))) s

/-- Rounds an exact result with the events that formed it (R196). -/
def roundElem (o : VV) (u : Nat) (x : Exact × Flags) : Nat × Flags :=
  let (c, f) := roundTo o.ty o.rm u x.1
  (c, x.2 ||| f)

/-- A word that computes an exact floating result or a wrapping integer (R195, R196). -/
def arithWord (o : VV) (fl : Exact → Exact → Exact → Exact × Flags) (int : Int → Int → Int → Int) (s : State) : Res :=
  vecWord o (fun a b d u =>
    if o.ty.isFloat then roundElem o u (fl (elemValue o.ty a) (elemValue o.ty b) (elemValue o.ty d))
    else (wrapNat o.ty.bits (int a b d), 0)) s

/-- The sum of a product and an addend, with both events. -/
def fused (p : Exact × Flags) (d : Exact) : Exact × Flags :=
  let (x, f) := Exact.sum [p.1, d]
  (x, p.2 ||| f)

/-- vd = va + vb (R195). -/
def execVadd (o : VV) (s : State) : Res := arithWord o (fun a b _ => Exact.sum [a, b]) (fun a b _ => a + b) s

/-- vd = va - vb (R195). -/
def execVsub (o : VV) (s : State) : Res := arithWord o (fun a b _ => Exact.sum [a, b.neg]) (fun a b _ => a - b) s

/-- vd = va x vb (R195). -/
def execVmul (o : VV) (s : State) : Res := arithWord o (fun a b _ => a.mul b) (fun a b _ => a * b) s

/-- vd = va x vb + vd (R195). -/
def execVfma (o : VV) (s : State) : Res := arithWord o (fun a b d => fused (a.mul b) d) (fun a b d => a * b + d) s

/-- vd = vd - va x vb (R195). -/
def execVfms (o : VV) (s : State) : Res :=
  arithWord o (fun a b d => let (p, f) := a.mul b; fused (p.neg, f) d) (fun a b d => d - a * b) s

/-- A lesser or greater element (R195, R198). -/
def pickElem (ty : Fmt) (greatest : Bool) (a b : Nat) : Nat :=
  if ty.isFloat then floatPick (Fmt.float ty) greatest a b else intPick ty greatest a b

/-- vd = the lesser (R198). -/
def execVmin (o : VV) (s : State) : Res := vecWord o (fun a b _ _ => (pickElem o.ty false a b, 0)) s

/-- vd = the greater (R198). -/
def execVmax (o : VV) (s : State) : Res := vecWord o (fun a b _ _ => (pickElem o.ty true a b, 0)) s

/-- A change of the sign bit, or the canonical NaN (R196). -/
def signWord (o : VV) (fl : FloatFmt → Nat → Nat) (int : Int → Int) (s : State) : Res :=
  vecWord o (fun a _ _ _ =>
    if o.ty.isFloat then
      let f := Fmt.float o.ty
      (if (f.value a).isNan then f.nanCode else fl f a, 0)
    else (wrapNat o.ty.bits (int (signedOf o.ty.bits a)), 0)) s

/-- vd = |va| (R195, R196); an unsigned element is its own magnitude. -/
def execVabs (o : VV) (s : State) : Res :=
  signWord o (fun f a => a % f.signBit) (fun a => if o.ty.isSigned then a.natAbs else a) s

/-- vd = -va (R195, R196). -/
def execVneg (o : VV) (s : State) : Res :=
  signWord o (fun f a => if a < f.signBit then a + f.signBit else a - f.signBit) (fun a => -a) s

/-- vd = va / vb (R197). -/
def execVdiv (o : VV) (s : State) : Res :=
  vecWord o (fun a b _ u => roundElem o u (Fn.div (elemValue o.ty a) (elemValue o.ty b))) s

/-- vd = the square root of va (R197). -/
def execVsqrt (o : VV) (s : State) : Res :=
  vecWord o (fun a _ _ u => roundElem o u (Fn.sqrt (elemValue o.ty a))) s

/-- A saturating result (R195, R196). -/
def saturated (ty : Fmt) (i : Int) : Nat × Flags :=
  let c := clampInt ty i
  (wrapNat ty.bits c, Flags.when (decide (c ≠ i)) Flags.saturate)

/-- The integer that an element holds, by its type's signedness (R48). -/
def intElem (ty : Fmt) (a : Nat) : Int := if ty.isSigned then signedOf ty.bits a else (a : Int)

/-- vd = va + vb, saturating (R195). -/
def execVadds (o : VV) (s : State) : Res := vecWord o (fun a b _ _ => saturated o.ty (intElem o.ty a + intElem o.ty b)) s

/-- vd = va - vb, saturating (R195). -/
def execVsubs (o : VV) (s : State) : Res := vecWord o (fun a b _ _ => saturated o.ty (intElem o.ty a - intElem o.ty b)) s

/-! Bitwise operations and shifts (R199) -/

/-- vd = va & vb. -/
def execVand (o : VV) (s : State) : Res := vecWord o (fun a b _ _ => (a &&& b, 0)) s

/-- vd = va or vb. -/
def execVor (o : VV) (s : State) : Res := vecWord o (fun a b _ _ => (a ||| b, 0)) s

/-- vd = va ^ vb. -/
def execVxor (o : VV) (s : State) : Res := vecWord o (fun a b _ _ => (a ^^^ b, 0)) s

/-- vd = ~va. -/
def execVnot (o : VV) (s : State) : Res := vecWord o (fun a _ _ _ => (ones o.ty.bits - a, 0)) s

/-- A right shift that fills with copies of the top bit. -/
def shiftRightSigned (w a n : Nat) : Nat := wrapNat w (signedOf w a / ((2 ^ n : Nat) : Int))

/-- vd = va << (vb mod 8w). -/
def execVshl (o : VV) (s : State) : Res := vecWord o (fun a b _ _ => ((a <<< (b % o.ty.bits)) % 2 ^ o.ty.bits, 0)) s

/-- vd = va >> (vb mod 8w), zeros. -/
def execVshr (o : VV) (s : State) : Res := vecWord o (fun a b _ _ => (a >>> (b % o.ty.bits), 0)) s

/-- vd = va >> (vb mod 8w), sign copies. -/
def execVsra (o : VV) (s : State) : Res := vecWord o (fun a b _ _ => (shiftRightSigned o.ty.bits a (b % o.ty.bits), 0)) s

/-! Immediate forms (R200) -/

/-- A form VI word: element k of vd from element k of va. -/
def immWord (o : VI) (f : Nat → Nat → Nat) (s : State) : Res :=
  let lanes := s.pred .ve o.pm
  let a := (s.rdV .ve o.va).toNat
  writeElems .ve o.ty o.vd lanes (mapActive lanes o.ty fun k => (f k (elemOf o.ty.bits a k), 0)) s

/-- The immediate, sign-extended from bit 16 and truncated to the element width. -/
def immElem (o : VI) : Nat := wrapNat o.ty.bits o.imm.toInt

/-- A lane slide. -/
def execVslide (up : Bool) (n : BitVec 8) (vd va : VNo) (mk : MaskNo) (s : State) : Res :=
  let lanes := s.pred .ve mk
  let a := s.rdV .ve va
  writeElems .ve .n32 vd lanes (mapActive lanes .n32 fun L =>
    (if up then (if L + n.toNat < 256 then laneBits a (L + n.toNat) else 0)
     else if n.toNat ≤ L then laneBits a (L - n.toNat) else 0, 0)) s

/-- vd[k] = imm + k. -/
def execViota (o : VI) (s : State) : Res := immWord o (fun k _ => (immElem o + k) % 2 ^ o.ty.bits) s

/-- vd = va + imm. -/
def execVaddi (o : VI) (s : State) : Res := immWord o (fun _ a => (a + immElem o) % 2 ^ o.ty.bits) s

/-- vd = the low half of va x imm. -/
def execVmuli (o : VI) (s : State) : Res := immWord o (fun _ a => (a * immElem o) % 2 ^ o.ty.bits) s

/-- vd = va & imm. -/
def execVandi (o : VI) (s : State) : Res := immWord o (fun _ a => a &&& immElem o) s

/-- vd = va or imm. -/
def execVori (o : VI) (s : State) : Res := immWord o (fun _ a => a ||| immElem o) s

/-- vd = va << imm[4:0]. -/
def execVshli (o : VI) (s : State) : Res := immWord o (fun _ a => (a <<< (o.imm.toNat % 32)) % 2 ^ o.ty.bits) s

/-- vd = va >> imm[4:0], by the signedness of TY. -/
def execVshri (o : VI) (s : State) : Res :=
  immWord o (fun _ a =>
    if o.ty.isSigned then shiftRightSigned o.ty.bits a (o.imm.toNat % 32) else a >>> (o.imm.toNat % 32)) s

/-- vd = imm, placed by TY. -/
def execVli (o : VI) (s : State) : Res :=
  immWord o (fun _ _ =>
    match o.ty with
    | .f32 => o.imm.toNat <<< 15
    | .bf16 => o.imm.toNat % 65536
    | _ => immElem o) s

/-! Compares, selection and masks (R201, R202) -/

/-- Packs one bit for each of 256 lanes. -/
def packBits (f : Nat → Bool) : Nat := (List.range 256).foldl (fun m L => if f L then m + 2 ^ L else m) 0

/-- Compares elements into a mask. -/
def execVcmp (c : VCond) (h : Bool) (md : MaskNo) (va vb : VNo) (mk : MaskNo) (ty : Fmt) (s : State) : Res :=
  let lanes := s.pred .ve mk
  let a := (s.rdV .ve va).toNat
  let b := (s.rdV .ve vb).toNat
  let at2 (L : Nat) : Nat := if ty.bits = 16 then 2 * L + (if h then 1 else 0) else L
  (s.wrM .ve md lanes (packBits fun L => bit lanes L &&
    evalVCond c (elemValue ty (elemOf ty.bits a (at2 L))) (elemValue ty (elemOf ty.bits b (at2 L))))).done .ve

/-- Compares elements with an immediate into a mask. -/
def execVcmpi (c : VCond) (imm : BitVec 13) (md : MaskNo) (va : VNo) (mk : MaskNo) (ty : Fmt) (s : State) : Res :=
  let lanes := s.pred .ve mk
  let a := (s.rdV .ve va).toNat
  let x := elemValue ty (wrapNat ty.bits imm.toInt)
  let at2 (L : Nat) : Nat := if ty.bits = 16 then 2 * L else L
  (s.wrM .ve md lanes (packBits fun L => bit lanes L &&
    evalVCond c (elemValue ty (elemOf ty.bits a (at2 L))) x)).done .ve

/-- Lane-wise selection by a mask. -/
def execVsel (vd va vb : VNo) (ms mk : MaskNo) (_ty : Fmt) (s : State) : Res :=
  let lanes := s.pred .ve mk
  let m := s.rdM .ve ms
  let a := s.rdV .ve va
  let b := s.rdV .ve vb
  writeElems .ve .n32 vd lanes (mapActive lanes .n32 fun L => (if bit m L then laneBits a L else laneBits b L, 0)) s

/-- A word that writes a mask from mask sources. -/
def maskWord (md mk : MaskNo) (x : Mask) (s : State) : Res := (s.wrM .ve md (s.pred .ve mk) x.toNat).done .ve

/-- md = ma & mb. -/
def execVmand (md ma mb mk : MaskNo) (s : State) : Res := maskWord md mk (s.rdM .ve ma &&& s.rdM .ve mb) s

/-- md = ma or mb. -/
def execVmor (md ma mb mk : MaskNo) (s : State) : Res := maskWord md mk (s.rdM .ve ma ||| s.rdM .ve mb) s

/-- md = ma ^ mb. -/
def execVmxor (md ma mb mk : MaskNo) (s : State) : Res := maskWord md mk (s.rdM .ve ma ^^^ s.rdM .ve mb) s

/-- md = ~ma. -/
def execVmnot (md ma mk : MaskNo) (s : State) : Res := maskWord md mk (~~~ s.rdM .ve ma) s

/-- Writes one 32-bit value to every active lane. -/
def spreadWord (vd : VNo) (mk : MaskNo) (x : Nat) (s : State) : Res :=
  let lanes := s.pred .ve mk
  writeElems .ve .n32 vd lanes (mapActive lanes .n32 fun _ => (x, 0)) s

/-- Every element = the number of ones of ma. -/
def execVmpop (vd : VNo) (ma mk : MaskNo) (s : State) : Res := spreadWord vd mk (Flurry.popc (s.rdM .ve ma).toNat 256) s

/-- The lowest set bit of a mask. -/
def lowestBit (m : Mask) : Nat :=
  match (List.range 256).find? fun L => bit m L with
  | some L => L
  | none => 0xFFFFFFFF

/-- Every element = the lowest set bit of ma. -/
def execVmfirst (vd : VNo) (ma mk : MaskNo) (s : State) : Res := spreadWord vd mk (lowestBit (s.rdM .ve ma)) s

/-! Moves, permutes, accumulators (R203, R204) -/

/-- vd = va, bit for bit. -/
def execVmov (o : VV) (s : State) : Res := vecWord o (fun a _ _ _ => (a, 0)) s

/-- Every element = the low bits of sa. -/
def execVbcast (vd : VNo) (sa : SReg) (mk : MaskNo) (ty : Fmt) (s : State) : Res :=
  let lanes := s.pred .ve mk
  let x := (s.rdS .ve sa).toNat % 2 ^ ty.bits
  writeElems .ve ty vd lanes (mapActive lanes ty fun _ => (x, 0)) s

/-- Lane L of vd = the lane of va that lane L of vb names. -/
def execVperm (o : VV) (s : State) : Res :=
  let lanes := s.pred .ve o.pm
  let a := s.rdV .ve o.va
  let b := s.rdV .ve o.vb
  writeElems .ve .n32 o.vd lanes (mapActive lanes .n32 fun L => (laneBits a (laneBits b L % 256), 0)) s

/-- Two accumulator rows into a register. -/
def execVaccr (vd : VNo) (acc pair mk : BitVec 4) (s : State) : Res :=
  let lanes := s.pred .ve mk
  (s.wrV .ve vd.toNat lanes (elemOf 8192 (s.rdAcc .ve acc.toNat).toNat pair.toNat)).done .ve

/-- A register into two accumulator rows. -/
def execVaccw (acc : AccNo) (vs : VNo) (pair mk : BitVec 4) (s : State) : Res :=
  let lanes := s.pred .ve mk
  let sh := 8192 * pair.toNat
  (s.wr .ve (.acc acc.toNat) ((State.spread 256 lanes.toNat) <<< sh) ((s.rdV .ve vs).toNat <<< sh)).done .ve

/-! Conversions (R205, R206) -/

/-- One converted element. -/
def convert (src ty : Fmt) (rm : RMode) (u c : Nat) : Nat × Flags :=
  if src.isVInt && ty.isVInt then saturated ty (intElem src c) else roundTo ty rm u (elemValue src c)

/-- Conversion between formats, one part of a register at a time. -/
def execVcvt (vd va : VNo) (part : BitVec 2) (src : Fmt) (mk : MaskNo) (ty : Fmt) (rm : RMode) (g : GenNo) (s : State) : Res :=
  orTrap s .ve (s.roundBits .ve rm g.toNat) fun bits =>
    let lanes := s.pred .ve mk
    let a := (s.rdV .ve va).toNat
    let ns := 8192 / src.bits
    let nd := 8192 / ty.bits
    let p := part.toNat
    let rs := (List.range (Nat.min ns nd)).map fun k =>
      let (dk, sk) := if ns < nd then (p * ns + k, k) else (k, p * nd + k)
      if activeElem lanes ty dk then (dk, some (convert src ty rm (bits 0 (dk : Int)) (elemOf src.bits a sk))) else (dk, none)
    let w := ty.bits
    let base := if ns < nd then w * p * ns else 0
    let val := packElems w (rs.map fun r => match r.2 with | some x => x.1 | none => 0) <<< base
    let bm := packElems w (rs.map fun r => if r.2.isSome then ones w else 0) <<< base
    let fl := Flags.all (rs.map fun r => match r.2 with | some x => x.2 | none => 0)
    ((s.wr .ve (.v vd.toNat) bm val).orFlags .ve fl).done .ve

/-- Quantises 256 FP32 elements into eight packed blocks. -/
def execVcvtmx (o : VV) (s : State) : Res :=
  orTrap s .ve (s.roundBits .ve o.rm o.g.toNat) fun bits =>
    let xs := (elems .f32 (s.rdV .ve o.va)).map (elemValue .f32)
    let us := (List.range 256).map fun (k : Nat) => bits 0 (k : Int)
    let bl := quantBlocks o.ty o.rm 8 xs us
    ((s.wr .ve (.v o.vd.toNat) (ones 8192) (packedForm o.ty (bl.map fun b => (b.1, b.2.1)))).orFlags .ve
      (Flags.all (bl.map fun b => b.2.2))).done .ve

/-- Decodes eight packed blocks into 256 FP32 elements. -/
def execVdqmx (o : VV) (s : State) : Res :=
  orTrap s .ve (s.roundBits .ve o.rm o.g.toNat) fun bits =>
    let lanes := s.pred .ve o.pm
    let a := (s.rdV .ve o.va).toNat
    writeElems .ve .f32 o.vd lanes (mapActive lanes .f32 fun k =>
      roundFloat .f32 o.rm (bits 0 (k : Int)) (packedValue o.ty a k)) s

end Sys2Proof.Machine
end

