-- ==== Sys2Proof/Machine/Reduce.lean ====
section
/-! DEFINITION. The vector engine's reductions, defined functions, optimiser update and generator fill (R207 to R217, R258). -/

namespace Sys2Proof.Machine

/-! Reductions (R207, R208) -/

/-- The active elements of one reduction: row i of eight, or the whole register. -/
def reduceElems (o : Reduce) (lanes : Mask) (row : Option Nat) : List Nat :=
  let n := 8192 / o.ty.bits
  let ks := match row with
    | some i => (List.range (n / 8)).map fun k => i * (n / 8) + k
    | none => List.range n
  ks.filter (activeElem lanes o.ty)

/-- A reduction word: each row's result in every element of the row, or one result in every element. -/
def reduceWord (o : Reduce) (f : List Nat → Nat × Flags) (s : State) : Res :=
  let lanes := s.pred .ve o.pm
  let rs := if o.row then (List.range 8).map fun i => f (reduceElems o lanes (some i)) else [f (reduceElems o lanes none)]
  let xs := if o.row then rs.flatMap fun r => List.replicate 32 r.1 else List.replicate 256 ((rs.map Prod.fst).headD 0)
  ((s.wr .ve (.v o.vd.toNat) (ones 8192) (packElems 32 xs)).orFlags .ve (Flags.all (rs.map Prod.snd))).done .ve

/-- A floating sum names one of profiles 1 to 3 (R207). -/
def profileOk (o : Reduce) : Bool := !o.ty.isFloat || decide (1 ≤ o.prof.toNat ∧ o.prof.toNat ≤ 3)

/-- The sum under a profile, starting fresh; no terms give +0 (R208). -/
def profileSum (prof : Nat) (ps : List (Exact × Flags)) : Nat × Flags :=
  if ps.isEmpty then (0, 0) else profileDot prof ps 0 true

/-- The sum of the active elements. -/
def execVredsum (o : Reduce) (s : State) : Res :=
  need s .ve (profileOk o) .profile
    (let a := (s.rdV .ve o.va).toNat
     let w := o.ty.bits
     reduceWord o (fun ks =>
       if o.ty.isFloat then profileSum o.prof.toNat (ks.map fun k => (elemValue o.ty (elemOf w a k), 0))
       else (wrapNat 32 (ks.foldl (fun t k => t + intElem o.ty (elemOf w a k)) 0), 0)) s)

/-- The sum of products of the active elements. -/
def execVdot (o : Reduce) (s : State) : Res :=
  need s .ve (profileOk o) .profile
    (let a := (s.rdV .ve o.va).toNat
     let b := (s.rdV .ve o.vb).toNat
     let w := o.ty.bits
     reduceWord o (fun ks =>
       if o.ty.isFloat then
         profileSum o.prof.toNat (ks.map fun k => (elemValue o.ty (elemOf w a k)).mul (elemValue o.ty (elemOf w b k)))
       else (wrapNat 32 (ks.foldl (fun t k => t + intElem o.ty (elemOf w a k) * intElem o.ty (elemOf w b k)) 0), 0)) s)

/-- An element as a 32-bit result: FP32, BF16 exactly, integers extended by signedness. -/
def widen (ty : Fmt) (c : Nat) : Nat :=
  match ty with
  | .f32 => c
  | .bf16 => c <<< 16
  | _ => wrapNat 32 (intElem ty c)

/-- The greatest or the least of the active elements. -/
def extremum (ty : Fmt) (greatest : Bool) (cs : List Nat) : Nat :=
  let start := if ty.isFloat then (if greatest then 0xFF800000 else 0x7F800000)
    else wrapNat 32 (if greatest then minInt ty else maxInt ty)
  let xs := cs.map (widen ty)
  if ty.isFloat then xs.foldl (floatPick .f32 greatest) start
  else xs.foldl (intPick (if ty.isSigned then .i32 else .n32) greatest) start

/-- The greatest active element. -/
def execVredmax (o : Reduce) (s : State) : Res :=
  let a := (s.rdV .ve o.va).toNat
  reduceWord o (fun ks => (extremum o.ty true (ks.map fun k => elemOf o.ty.bits a k), 0)) s

/-- The least active element. -/
def execVredmin (o : Reduce) (s : State) : Res :=
  let a := (s.rdV .ve o.va).toNat
  reduceWord o (fun ks => (extremum o.ty false (ks.map fun k => elemOf o.ty.bits a k), 0)) s

/-! Defined functions (R209) -/

/-- A defined function on the active FP32 elements. -/
def fnWord (o : VV) (f : Exact → Nat × Flags) (s : State) : Res :=
  let lanes := s.pred .ve o.pm
  let a := s.rdV .ve o.va
  writeElems .ve .f32 o.vd lanes (mapActive lanes .f32 fun k => f (Fn.val (laneBits a k))) s

/-- 2^x (R210). -/
def execVexp2 (o : VV) (s : State) : Res := fnWord o Fn.exp2 s

/-- log2 x (R211). -/
def execVlog2 (o : VV) (s : State) : Res := fnWord o Fn.log2 s

/-- 1 / x (R212). -/
def execVrcp (o : VV) (s : State) : Res := fnWord o Fn.rcp s

/-- 1 / square root of x (R213). -/
def execVrsqrt (o : VV) (s : State) : Res := fnWord o Fn.rsqrt s

/-- sin(2 pi x) (R214). -/
def execVsinT (o : VV) (s : State) : Res := fnWord o (Fn.sinCos false) s

/-- cos(2 pi x) (R214). -/
def execVcosT (o : VV) (s : State) : Res := fnWord o (Fn.sinCos true) s

/-! Generator fill (R258) -/

/-- The value of a generator at a fill position, as the element that vd takes. -/
def fillElem (pl : Flurry.Place) (g : Gen) (n : Nat) (ty : Fmt) (c : Nat) (i j : Int) (stream : Bool) : Nat × Flags :=
  if ty = .n32 then (Flurry.bitsValue pl g n c % 2 ^ 32, 0)
  else
    let v := if stream then Flurry.kindValue pl g n c 0 0 else Flurry.operandValue pl g n i j
    roundTo ty .rne 0 v

/-- BITS fills n32 and nothing else fills it (R258). -/
def fillKind (g : Gen) (ty : Fmt) : Bool := decide (g.kind = 0) == decide (ty = .n32)

/-- Fills a register from a generator at coordinates (R258). -/
def execGfill (vd : VNo) (g : GenNo) (sa : SReg) (ty : Fmt) (mk : MaskNo) (s : State) : Res :=
  let gg := s.rdG .ve g.toNat
  if !gg.operand || !fillKind gg ty then s.trap .ve .illegal
  else
    let a := s.rdS .ve sa
    let lanes := s.pred .ve mk
    let er := 1024 / ty.bits
    let pl := s.place
    writeElems .ve ty vd lanes (mapActive lanes ty fun k =>
      fillElem pl gg g.toNat ty 0 (signedOf 32 (slice a 31 0) + (k / er : Nat)) (signedOf 32 (slice a 63 32) + (k % er : Nat)) false) s

/-- Fills a register with draws of a generator (R250, R258). -/
def execGfillS (vd : VNo) (g : GenNo) (ty : Fmt) (mk : MaskNo) (s : State) : Res :=
  let gg := s.rdG .ve g.toNat
  if !gg.drawable || !fillKind gg ty then s.trap .ve .illegal
  else
    let lanes := s.pred .ve mk
    let n := 8192 / ty.bits
    let pl := s.place
    let after := gg.withField 16 16 (gg.ctr + n)
    let s := s.wr .ve (.gen g.toNat none) (ones 128 <<< 128) after.img.toNat
    writeElems .ve ty vd lanes (mapActive lanes ty fun k => fillElem pl gg g.toNat ty ((gg.ctr + k) % 2 ^ 128) 0 0 true) s

/-! The optimiser update (R215 to R217) -/

/-- The fault with the lowest code among checks (R383). -/
def firstFault {α : Type} : List (Except Code α) → Option Code
  | [] => none
  | .ok _ :: r => firstFault r
  | .error c :: r =>
    match firstFault r with
    | some d => some (if c.toNat ≤ d.toNat then c else d)
    | none => some c

/-- An array of an update: its address and element size. -/
structure UpdArray where
  addr : Nat
  size : Nat
  deriving DecidableEq, Repr

/-- The four arrays: weights, gradients, first and second moments (R215). -/
def updArrays (d : List Byte) (ty : Fmt) : List UpdArray :=
  [⟨fieldAt d 0 8, ty.bits / 8⟩, ⟨fieldAt d 8 8, if fieldAt d 68 1 = 0 then 4 else 2⟩, ⟨fieldAt d 16 8, 4⟩, ⟨fieldAt d 24 8, 4⟩]

/-- Does a range meet any of the ranges? -/
def meetsAny (x : Nat × Nat) (l : List (Nat × Nat)) : Bool := l.any fun y => decide (x.1 < y.2 ∧ y.1 < x.2)

/-- No two of the ranges share a byte. -/
def apart : List (Nat × Nat) → Bool
  | [] => true
  | x :: r => !meetsAny x r && apart r

/-- The ILLEGAL checks of an update descriptor for n elements (R217). -/
def updOk (d : List Byte) (ty : Fmt) (n : Nat) : Bool :=
  let arr := updArrays d ty
  decide (fieldAt d 68 1 ≤ 1) && decide (fieldAt d 69 1 < 64) && decide (fieldAt d 69 1 % 8 ≤ 4) && decide (fieldAt d 70 2 = 0) &&
    decide (fieldAt d 80 48 = 0) && apart (arr.map fun a => (a.addr, a.addr + n * a.size)) &&
    arr.all fun a => decide (a.addr % a.size = 0)

/-- Starts an optimiser update: the checks at issue, then chunks (R217). One that has nothing left to do evaluates no generator. -/
def execVupd (ty : Fmt) (sa sb : SReg) (s : State) : Res :=
  let b := s.rdS .ve sb
  let va := (s.rdS .ve sa).toNat
  if 2 ^ 32 ≤ b.toNat then s.trap .ve .illegal
  else if 2 ^ 57 ≤ va then s.trap .ve .addrRange
  else if va % 128 ≠ 0 then s.trap .ve .misalign
  else if s.here.sys.timed then s.trap .ve .timedGlobal
  else
    orTrap s .ve (s.check va 128 .read) fun _ =>
      let (d, s) := s.load va 128
      let g := s.rdG .ve (fieldAt d 69 1 / 8)
      if !updOk d ty b.toNat then s.trap .ve .illegal
      else if b.toNat ≤ fieldAt d 72 8 then s.done .ve
      else if decide (fieldAt d 69 1 % 8 = 4) && !g.valid then s.trap .ve .illegal
      else s.await .ve (.update (s.rdS .ve sa) d (fieldAt d 72 8) b.toNat ty g)

/-- The parameters of a descriptor (R215). -/
def updParams (d : List Byte) : UpdParams :=
  ⟨fieldAt d 32 4, fieldAt d 36 4, fieldAt d 40 4, fieldAt d 44 4, fieldAt d 48 4, fieldAt d 52 4, fieldAt d 56 4, fieldAt d 60 4,
   fieldAt d 64 4⟩

/-- The elements from..to of an array, as codes. -/
def loadElems (s : State) (a : UpdArray) (lo hi : Nat) : List Nat × State :=
  let (bs, s) := s.load (a.addr + lo * a.size) ((hi - lo) * a.size)
  ((List.range (hi - lo)).map fun i => fieldAt bs (i * a.size) a.size, s)

/-- One chunk of an update, and the end of the word after the last (R217); it stops before a chunk where a trap waits (R285). -/
def execVupdChunk (s : State) : Res :=
  match (s.en .ve).wait with
  | some (.update desc d pos n ty g) =>
    if !decide (s.here.phase = .running) || s.here.trapHeld.isSome then .next s
    else
      let hi := Nat.min n ((pos / 256 + 1) * 256)
      let arr := updArrays d ty
      let W := arr.getD 0 ⟨0, 4⟩
      let G := arr.getD 1 ⟨0, 4⟩
      let M := arr.getD 2 ⟨0, 4⟩
      let V := arr.getD 3 ⟨0, 4⟩
      let chk (a : UpdArray) (k : Kind) := s.check (a.addr + pos * a.size) ((hi - pos) * a.size) k
      match firstFault [chk W .read, chk W .write, chk G .read, chk M .read, chk M .write, chk V .read, chk V .write,
          s.check (desc.toNat + 72) 8 .write] with
      | some c => s.trap .ve c
      | none =>
        let (ws, s) := loadElems s W pos hi
        let (gs, s) := loadElems s G pos hi
        let (ms, s) := loadElems s M pos hi
        let (vs, s) := loadElems s V pos hi
        let gty : Fmt := if fieldAt d 68 1 = 0 then .f32 else .bf16
        let rm := (RMode.ofCode (fieldAt d 69 1 % 8)).getD .rne
        let gn := fieldAt d 69 1 / 8
        let pl := s.place
        let rs := (List.range (hi - pos)).map fun i =>
          updElem (updParams d) ty rm (if rm = .sr then Flurry.genBits pl g gn 0 ((pos + i : Nat) : Int) else 0)
            (elemValue gty (gs.getD i 0)) (elemValue ty (ws.getD i 0)) (ms.getD i 0) (vs.getD i 0)
        let put (a : UpdArray) (xs : List Nat) (s : State) : State :=
          s.store .ve (a.addr + pos * a.size) (xs.flatMap fun x => toBytes a.size x)
        let s := put W (rs.map fun r => r.1) s
        let s := put M (rs.map fun r => r.2.1) s
        let s := put V (rs.map fun r => r.2.2.1) s
        let s := s.store .ve (desc.toNat + 72) (toBytes 8 hi)
        let s := s.orFlags .ve (Flags.all (rs.map fun r => r.2.2.2))
        if hi = n then s.done .ve else s.await .ve (.update desc d hi n ty g)
  | _ => .next s

end Sys2Proof.Machine
end

