-- ==== Sys2Proof/Machine/RvFloat.lean ====
section
/-! DEFINITION. Floating arithmetic of the near-memory cores: the single and double formats under the RISC-V rounding modes and flags (R366). -/

namespace Sys2Proof.Machine

namespace Rv

/-- RISC-V rounding modes; rod rounds to odd, which only vfncvt.rod names. -/
inductive Rm where
  | rne | rtz | rdn | rup | rmm | rod
  deriving DecidableEq, Repr

/-- The mode of a code. -/
def Rm.ofCode : Nat → Option Rm
  | 0 => some .rne | 1 => some .rtz | 2 => some .rdn | 3 => some .rup | 4 => some .rmm | _ => none

/-- fflags: NX, UF, OF, DZ, NV. -/
abbrev Fl := BitVec 5
/-- Inexact. -/
def nx : Fl := 1
/-- Underflow. -/
def uf : Fl := 2
/-- Overflow. -/
def of_ : Fl := 4
/-- Divide by zero. -/
def dz : Fl := 8
/-- Invalid. -/
def nv : Fl := 16

/-- A flag where a condition holds. -/
def flag (c : Bool) (f : Fl) : Fl := if c then f else 0

/-- Double precision. -/
def f64 : FloatFmt := ⟨11, 52, 1023, true, true⟩

/-- The format of a width in bits. -/
def fmtOf (w : Nat) : FloatFmt := if w = 64 then f64 else .f32

/-- A magnitude goes up. -/
def bumpUp (rm : Rm) (neg : Bool) (n rem den : Nat) : Bool :=
  match rm with
  | .rne => decide (den < 2 * rem) || (decide (2 * rem = den) && decide (n % 2 = 1))
  | .rtz => false
  | .rdn => neg
  | .rup => !neg
  | .rmm => decide (den ≤ 2 * rem)
  | .rod => decide (n % 2 = 0)

/-- A magnitude p / (q 2^k) rounded to an integer, and whether it was inexact. -/
def roundAt (rm : Rm) (neg : Bool) (p q : Nat) (k : Int) : Nat × Bool :=
  let (n, rem, den) := cutAt p q k
  (if rem ≠ 0 && bumpUp rm neg n rem den then n + 1 else n, decide (rem ≠ 0))

/-- Rounds to a format; tininess is detected after rounding. -/
def round (f : FloatFmt) (rm : Rm) : Exact → Nat × Fl
  | .nan => (f.nanCode, 0)
  | .inf n => (f.infCode + (if n then f.signBit else 0), 0)
  | .fin neg p q =>
    let s := if neg then f.signBit else 0
    if p = 0 then (s, 0)
    else
      let e := Exact.flog2 p q
      let low : Int := 1 - (f.b : Int)
      let E := if e < low then low else e
      let (n, lost) := roundAt rm neg p q (E - f.m)
      let code := if n < 2 ^ f.m then n else (E + f.b).toNat * 2 ^ f.m + (n - 2 ^ f.m)
      if f.infCode ≤ code then
        let toInf := match rm with | .rne => true | .rmm => true | .rtz => false | .rup => !neg | .rdn => neg | .rod => false
        ((if toInf then f.infCode else f.maxCode) + s, of_ ||| nx)
      else
        let (m, _) := roundAt rm neg p q (e - f.m)
        let tiny := decide (e < low) && !(decide (e = low - 1) && decide (m = 2 ^ (f.m + 1)))
        (code + s, flag lost nx ||| flag (lost && tiny) uf)

/-- A signalling NaN. -/
def isSnan (f : FloatFmt) (c : Nat) : Bool :=
  decide (f.infCode < c % f.signBit) && !(c.testBit (f.m - 1))

/-- NV where an operand is a signalling NaN. -/
def snan (f : FloatFmt) (l : List Nat) : Fl := flag (l.any (isSnan f)) nv

/-- A zero sum of two terms of different sign is -0 toward minus infinity. -/
def sumOf (rm : Rm) (x y : Exact) : Exact × Fl :=
  let (z, ev) := Exact.sum [x, y]
  let z := match z with
    | .fin _ 0 q => if x.isNeg ≠ y.isNeg ∧ rm = .rdn then .fin true 0 q else z
    | _ => z
  (z, flag (decide (ev ≠ 0)) nv)

/-- The result of an arithmetic operation, with NV of signalling operands. -/
def finish (f : FloatFmt) (rm : Rm) (ops : List Nat) (x : Exact × Fl) : Nat × Fl :=
  let (c, fl) := round f rm x.1
  (c, fl ||| x.2 ||| snan f ops)

/-- Sum. -/
def add (f : FloatFmt) (rm : Rm) (a b : Nat) : Nat × Fl := finish f rm [a, b] (sumOf rm (f.value a) (f.value b))

/-- A code with its sign changed. -/
def negate (f : FloatFmt) (a : Nat) : Nat := a ^^^ f.signBit

/-- Difference. -/
def sub (f : FloatFmt) (rm : Rm) (a b : Nat) : Nat × Fl := finish f rm [a, b] (sumOf rm (f.value a) (f.value b).neg)

/-- Product. -/
def mul (f : FloatFmt) (rm : Rm) (a b : Nat) : Nat × Fl :=
  let (z, ev) := (f.value a).mul (f.value b)
  finish f rm [a, b] (z, flag (decide (ev ≠ 0)) nv)

/-- Quotient. -/
def div (f : FloatFmt) (rm : Rm) (a b : Nat) : Nat × Fl :=
  let x := f.value a
  let y := f.value b
  finish f rm [a, b] (match x, y with
    | .nan, _ | _, .nan => (.nan, 0)
    | .inf _, .inf _ => (.nan, nv)
    | .inf s, .fin t _ _ => (.inf (s != t), 0)
    | .fin s _ _, .inf t => (.fin (s != t) 0 1, 0)
    | .fin s p q, .fin t u v =>
      if u = 0 then (if p = 0 then (.nan, nv) else (.inf (s != t), dz)) else (.fin (s != t) (p * v) (q * u), 0))

/-- Square root. -/
def sqrt (f : FloatFmt) (rm : Rm) (a : Nat) : Nat × Fl :=
  finish f rm [a] (match f.value a with
    | .nan => (.nan, 0)
    | .inf true => (.nan, nv)
    | .inf false => (.inf false, 0)
    | .fin neg p q =>
      if p = 0 then (.fin neg 0 1, 0)
      else if neg then (.nan, nv)
      else
        let e := Exact.flog2 p q
        let k := e - e % 2
        match Exact.shift (-k) (.fin false p q) with
        | .fin _ r t => ((Exact.sqrtPos r t).shift (k / 2), 0)
        | x => (x, 0))

/-- a * b + c, or with signs changed; rounded once. -/
def fma (f : FloatFmt) (rm : Rm) (negProd negAdd : Bool) (a b c : Nat) : Nat × Fl :=
  let (z, ev) := (f.value a).mul (f.value b)
  let z := if negProd then z.neg else z
  let y := if negAdd then (f.value c).neg else f.value c
  let (s, fl) := sumOf rm z y
  finish f rm [a, b, c] (s, fl ||| flag (decide (ev ≠ 0)) nv)

/-- fmin and fmax: a NaN gives way, and -0 comes before +0. -/
def minMax (f : FloatFmt) (isMax : Bool) (a b : Nat) : Nat × Fl :=
  let x := f.value a
  let y := f.value b
  let fl := snan f [a, b]
  if x.isNan && y.isNan then (f.nanCode, fl)
  else if x.isNan then (b, fl)
  else if y.isNan then (a, fl)
  else
    let less := Exact.lt x y || (x.isZero && y.isZero && x.isNeg && !y.isNeg)
    (if less != isMax then a else b, fl)

/-- feq, flt and fle: the ordered comparisons signal on any NaN. -/
def compare (f : FloatFmt) (kind : Nat) (a b : Nat) : Bool × Fl :=
  let x := f.value a
  let y := f.value b
  let fl := if kind = 2 then snan f [a, b] else flag (x.isNan || y.isNan) nv
  (match kind with | 2 => Exact.eqv x y | 1 => Exact.lt x y | _ => Exact.lt x y || Exact.eqv x y, fl)

/-- The ten classes of fclass, one bit each. -/
def classify (f : FloatFmt) (a : Nat) : Nat :=
  let g := a % f.signBit
  let s := decide (f.signBit ≤ a % (2 * f.signBit))
  if f.infCode < g then (if isSnan f a then 2 ^ 8 else 2 ^ 9)
  else if g = f.infCode then (if s then 2 ^ 0 else 2 ^ 7)
  else if g = 0 then (if s then 2 ^ 3 else 2 ^ 4)
  else if g < 2 ^ f.m then (if s then 2 ^ 2 else 2 ^ 5)
  else (if s then 2 ^ 1 else 2 ^ 6)

/-- Conversion to an integer of w bits; out of range gives the nearest end and NV, a NaN the greatest value. -/
def toInt (f : FloatFmt) (rm : Rm) (signed : Bool) (w : Nat) (a : Nat) : Nat × Fl :=
  let lo : Int := if signed then -((2 ^ (w - 1) : Nat) : Int) else 0
  let hi : Int := if signed then ((2 ^ (w - 1) : Nat) : Int) - 1 else ((2 ^ w : Nat) : Int) - 1
  match f.value a with
  | .nan => (wrapNat w hi, nv)
  | .inf n => (wrapNat w (if n then lo else hi), nv)
  | .fin neg p q =>
    let (n, lost) := roundAt rm neg p q 0
    let i : Int := if neg then -(n : Int) else n
    if i < lo then (wrapNat w lo, nv) else if hi < i then (wrapNat w hi, nv) else (wrapNat w i, flag lost nx)

/-- Conversion from an integer. -/
def ofInt (f : FloatFmt) (rm : Rm) (i : Int) : Nat × Fl := round f rm (Exact.ofInt i)

/-- Conversion between formats. -/
def convert (f g : FloatFmt) (rm : Rm) (a : Nat) : Nat × Fl :=
  let (c, fl) := round g rm (f.value a)
  (c, fl ||| snan f [a])

end Rv

end Sys2Proof.Machine
end

