-- ==== Sys2Proof/Machine/RvScalar.lean ====
section
/-! DEFINITION. The scalar instructions of the near-memory cores: RV64GC with Zicsr and Zifencei in user mode (R366, R370, R371). The encodings
and meanings are those of the RISC-V unprivileged specification, which the spec names. -/

namespace Sys2Proof.Machine

namespace Rv

/-- A kernel on a core: the package, the core, its number, and its launch's address space and window. -/
structure Ctx where
  s : State
  k : NmCore
  n : Nat
  asid : BitVec 12
  lo : Nat
  hi : Nat
  deriving DecidableEq, Repr

/-- What an instruction gives: the next state, or a fault with its address (R371). -/
abbrev Out := Except (Code × Word) Ctx

/-- An illegal instruction. -/
def bad (c : Ctx) : Out := .error (.illegal, c.k.pc)

/-- Reads an integer register. -/
def x (c : Ctx) (r : Nat) : Word := Bank.get 0 c.k.x r

/-- Writes an integer register; x0 discards. -/
def setX (c : Ctx) (r : Nat) (v : Word) : Ctx := if r = 0 then c else { c with k := { c.k with x := Bank.set 0 c.k.x r v } }

/-- Reads a floating register of a width; a single that is not boxed reads as the canonical NaN. -/
def f (c : Ctx) (w r : Nat) : Nat :=
  let v := (Bank.get 0 c.k.f r).toNat
  if w = 64 then v else if v / 2 ^ 32 = 2 ^ 32 - 1 then v % 2 ^ 32 else FloatFmt.f32.nanCode

/-- Writes a floating register, boxing a single. -/
def setF (c : Ctx) (w r v : Nat) : Ctx :=
  let y : Word := BitVec.ofNat 64 (if w = 64 then v else v % 2 ^ 32 + (2 ^ 32 - 1) * 2 ^ 32)
  { c with k := { c.k with f := Bank.set 0 c.k.f r y } }

/-- Collects flags in fcsr. -/
def raise (c : Ctx) (fl : Fl) : Ctx := { c with k := { c.k with fcsr := c.k.fcsr ||| fl.setWidth 8 } }

/-- Goes to an address. -/
def goto (c : Ctx) (pc : Word) : Ctx := { c with k := { c.k with pc := pc } }

/-! Memory -/

/-- The page of an address that no unit of a cluster uses: the windows of R132 are never translated and an address of more than 57 bits has
no page (R130). -/
def page (c : Ctx) (kind : Kind) (va : Nat) : Except Code Trans :=
  if inScratch va ∨ 2 ^ 57 ≤ va then .error .translation
  else
    match translate c.s 8 c.asid va with
    | .error e => .error e
    | .ok t => pageCheck kind t

/-- The home slice of an access keeps its translation (R135, R138). -/
def touch (c : Ctx) (va : Nat) : Ctx :=
  match page c .read va with
  | .ok t => { c with s := learnHome c.s c.asid t }
  | .error _ => c

/-- The physical address of a kernel access, after its checks (R370, R371). -/
def place (c : Ctx) (kind : Kind) (va n : Nat) : Except (Code × Word) Nat :=
  let fault (e : Code) : Except (Code × Word) Nat := .error (e, BitVec.ofNat 64 va)
  if va % n ≠ 0 then fault .misalign
  else if va < c.lo ∨ c.hi < va + n then fault .nmcWindow
  else
    match page c kind va with
    | .error e => fault e
    | .ok t => if Config.stack (t.phys / 65536) = c.n / 2 then .ok t.phys else fault .nmcWindow

/-- Loads n bytes. -/
def load (c : Ctx) (va n : Nat) : Except (Code × Word) (Nat × Ctx) :=
  match place c .read va n with
  | .ok a => .ok (ofBytes (Bank.getRun 0 c.s.hbm a n), touch c va)
  | .error e => .error e

/-- Stores n bytes. DESIGN CHOICE (log 23): each access of a kernel is performed at its instruction, in program order, of what RVWMO allows. -/
def store (c : Ctx) (va n v : Nat) : Out :=
  match place c .write va n with
  | .ok a => let c := touch c va; .ok { c with s := putHome c.s a (toBytes n v) }
  | .error e => .error e

/-- Fetches 2 bytes of text: inside the window, on an executable page. A launch has one text for all its cores, so that the page may lie in any
stack. -/
def fetch2 (c : Ctx) (va : Nat) : Except (Code × Word) Nat :=
  let fault (e : Code) : Except (Code × Word) Nat := .error (e, BitVec.ofNat 64 va)
  if va < c.lo ∨ c.hi < va + 2 then fault .nmcWindow
  else
    match page c .fetch va with
    | .error e => fault e
    | .ok t => .ok (ofBytes (Bank.getRun 0 c.s.hbm t.phys 2))

/-! Fields of an encoding -/

/-- rd, rs1, rs2, rs3, funct3, funct7. -/
def rd (w : Nat) : Nat := nslice w 11 7
def rs1 (w : Nat) : Nat := nslice w 19 15
def rs2 (w : Nat) : Nat := nslice w 24 20
def rs3 (w : Nat) : Nat := nslice w 31 27
def f3 (w : Nat) : Nat := nslice w 14 12
def f7 (w : Nat) : Nat := nslice w 31 25

/-- Immediates, sign-extended to 64 bits. -/
def immOf (bits v : Nat) : Word := BitVec.ofInt 64 (signedOf bits v)
def immI (w : Nat) : Word := immOf 12 (nslice w 31 20)
def immS (w : Nat) : Word := immOf 12 (nslice w 31 25 * 32 + nslice w 11 7)
def immB (w : Nat) : Word := immOf 13 (nslice w 31 31 * 2 ^ 12 + nslice w 7 7 * 2 ^ 11 + nslice w 30 25 * 32 + nslice w 11 8 * 2)
def immU (w : Nat) : Word := immOf 32 (nslice w 31 12 * 4096)
def immJ (w : Nat) : Word := immOf 21 (nslice w 31 31 * 2 ^ 20 + nslice w 19 12 * 2 ^ 12 + nslice w 20 20 * 2 ^ 11 + nslice w 30 21 * 2)

/-! Integer arithmetic -/

/-- The low 32 bits, sign-extended. -/
def sext32 (v : Nat) : Word := immOf 32 v

/-- A quotient and a remainder of w-bit numbers, with the results that RISC-V defines for a zero divisor and for overflow. -/
def divRem (signed rem : Bool) (w a b : Nat) : Nat :=
  if b = 0 then (if rem then a else 2 ^ w - 1)
  else if signed then
    let i := signedOf w a
    let j := signedOf w b
    wrapNat w (if rem then i.tmod j else i.tdiv j)
  else if rem then a % b else a / b

/-- OP and OP-IMM on w bits (w is 64 or 32): funct3 with the alternative bit. -/
def alu (w f3 : Nat) (alt : Bool) (a b : Nat) : Nat :=
  let sh := b % w
  match f3 with
  | 0 => if alt then (a + 2 ^ w - b % 2 ^ w) % 2 ^ w else (a + b) % 2 ^ w
  | 1 => a * 2 ^ sh % 2 ^ w
  | 2 => if signedOf w a < signedOf w b then 1 else 0
  | 3 => if a < b then 1 else 0
  | 4 => a ^^^ b
  | 5 => if alt then wrapNat w (signedOf w a / ((2 ^ sh : Nat) : Int)) else a / 2 ^ sh
  | 6 => a ||| b
  | _ => a &&& b

/-- The M extension on w bits. -/
def mulDiv (w f3 a b : Nat) : Nat :=
  let i := signedOf w a
  let j := signedOf w b
  match f3 with
  | 0 => a * b % 2 ^ w
  | 1 => wrapNat w (i * j / ((2 ^ w : Nat) : Int))
  | 2 => wrapNat w (i * (b : Int) / ((2 ^ w : Nat) : Int))
  | 3 => a * b / 2 ^ w
  | 4 => divRem true false w a b
  | 5 => divRem false false w a b
  | 6 => divRem true true w a b
  | _ => divRem false true w a b

/-- Register-register and register-immediate words on 64 bits. -/
def op64 (c : Ctx) (w : Nat) (imm : Bool) : Option Word :=
  let a := (x c (rs1 w)).toNat
  let r (n : Nat) : Option Word := some (BitVec.ofNat 64 n)
  if imm then
    let b := (immI w).toNat
    match f3 w with
    | 1 => if nslice w 31 26 = 0 then r (alu 64 1 false a (nslice w 25 20)) else none
    | 5 =>
      if nslice w 31 26 = 0 then r (alu 64 5 false a (nslice w 25 20))
      else if nslice w 31 26 = 16 then r (alu 64 5 true a (nslice w 25 20)) else none
    | n => r (alu 64 n false a b)
  else
    let b := (x c (rs2 w)).toNat
    match f7 w with
    | 0 => r (alu 64 (f3 w) false a b)
    | 1 => r (mulDiv 64 (f3 w) a b)
    | 32 => if f3 w = 0 ∨ f3 w = 5 then r (alu 64 (f3 w) true a b) else none
    | _ => none

/-- Words on 32 bits, whose results are sign-extended. -/
def op32 (c : Ctx) (w : Nat) (imm : Bool) : Option Word :=
  let a := (x c (rs1 w)).toNat % 2 ^ 32
  let r (n : Nat) : Option Word := some (sext32 n)
  if imm then
    match f3 w, f7 w with
    | 0, _ => r (alu 32 0 false a ((immI w).toNat % 2 ^ 32))
    | 1, 0 => r (alu 32 1 false a (rs2 w))
    | 5, 0 => r (alu 32 5 false a (rs2 w))
    | 5, 32 => r (alu 32 5 true a (rs2 w))
    | _, _ => none
  else
    let b := (x c (rs2 w)).toNat % 2 ^ 32
    match f7 w, f3 w with
    | 0, 0 => r (alu 32 0 false a b)
    | 32, 0 => r (alu 32 0 true a b)
    | 0, 1 => r (alu 32 1 false a b)
    | 0, 5 => r (alu 32 5 false a b)
    | 32, 5 => r (alu 32 5 true a b)
    | 1, 0 => r (mulDiv 32 0 a b)
    | 1, 4 => r (mulDiv 32 4 a b)
    | 1, 5 => r (mulDiv 32 5 a b)
    | 1, 6 => r (mulDiv 32 6 a b)
    | 1, 7 => r (mulDiv 32 7 a b)
    | _, _ => none

/-- A branch is taken. -/
def branch (f3 a b : Nat) : Option Bool :=
  match f3 with
  | 0 => some (decide (a = b))
  | 1 => some (decide (a ≠ b))
  | 4 => some (decide (signedOf 64 a < signedOf 64 b))
  | 5 => some (decide (signedOf 64 b ≤ signedOf 64 a))
  | 6 => some (decide (a < b))
  | 7 => some (decide (b ≤ a))
  | _ => none

/-- Atomic memory operations on w bits. -/
def amoValue (f5 w old b : Nat) : Option Nat :=
  let i := signedOf w old
  let j := signedOf w b
  match f5 with
  | 0 => some ((old + b) % 2 ^ w)
  | 1 => some b
  | 4 => some (old ^^^ b)
  | 8 => some (old ||| b)
  | 12 => some (old &&& b)
  | 16 => some (if i < j then old else b)
  | 20 => some (if i < j then b else old)
  | 24 => some (min old b)
  | 28 => some (max old b)
  | _ => none

/-- The A extension; a store-conditional fails where a store to the datum has come between, and may fail for a reason of the device. -/
def amo (c : Ctx) (w : Nat) : Out :=
  let size := if f3 w = 3 then 8 else 4
  let bits := 8 * size
  let va := (x c (rs1 w)).toNat
  let b := (x c (rs2 w)).toNat % 2 ^ bits
  let ext (v : Nat) : Word := if size = 8 then BitVec.ofNat 64 v else sext32 v
  let f5 := nslice w 31 27
  if f3 w ≠ 2 ∧ f3 w ≠ 3 ∨ f5 ≠ 2 ∧ f5 ≠ 3 ∧ amoValue f5 bits 0 0 = none then bad c
  else if f5 = 2 then
    if rs2 w ≠ 0 then bad c
    else
      match place c .read va size with
      | .error e => .error e
      | .ok a =>
        let v := ofBytes (Bank.getRun 0 c.s.hbm a size)
        let c := touch c va
        .ok (setX { c with s := { c.s with resvs := (c.n, a, size) :: c.s.unreserve c.n } } (rd w) (ext v))
  else if f5 = 3 then
    match place c .atomic va size with
    | .error e => .error e
    | .ok a =>
      let held := c.s.resvs.contains (c.n, a, size) && !Config.choose c.s.free 1
      let c := touch { c with s := { c.s with resvs := c.s.unreserve c.n } } va
      if held then .ok (setX { c with s := putHome c.s a (toBytes size b) } (rd w) 0)
      else .ok (setX c (rd w) 1)
  else
    match place c .atomic va size with
    | .error e => .error e
    | .ok a =>
      let old := ofBytes (Bank.getRun 0 c.s.hbm a size)
      match amoValue f5 bits old b with
      | none => bad c
      | some v => let c := touch c va; .ok (setX { c with s := putHome c.s a (toBytes size v) } (rd w) (ext old))

/-! Control and status registers -/

/-- vtype as it reads: vill in the top bit. -/
def vtypeWord (k : NmCore) : Word := match k.vtype with | some v => v.setWidth 64 | none => 0x8000000000000000

/-- Reads a register of user mode; none for one that does not exist. -/
def readCsr (k : NmCore) (n : Nat) : Option Word :=
  match n with
  | 0x001 => some (BitVec.ofNat 64 (k.fcsr.toNat % 32))
  | 0x002 => some (BitVec.ofNat 64 (k.fcsr.toNat / 32))
  | 0x003 => some (k.fcsr.setWidth 64)
  | 0x008 => some (BitVec.ofNat 64 k.vstart)
  | 0x009 => some (BitVec.ofNat 64 (k.vcsr.toNat % 2))
  | 0x00A => some (BitVec.ofNat 64 (k.vcsr.toNat / 2))
  | 0x00F => some (k.vcsr.setWidth 64)
  | 0xC20 => some (BitVec.ofNat 64 k.vl)
  | 0xC21 => some (vtypeWord k)
  | 0xC22 => some 128
  | _ => none

/-- Writes a register of user mode; none for one that is read-only. -/
def writeCsr (k : NmCore) (n : Nat) (v : Word) : Option NmCore :=
  match n with
  | 0x001 => some { k with fcsr := BitVec.ofNat 8 (k.fcsr.toNat / 32 * 32 + v.toNat % 32) }
  | 0x002 => some { k with fcsr := BitVec.ofNat 8 (k.fcsr.toNat % 32 + v.toNat % 8 * 32) }
  | 0x003 => some { k with fcsr := v.setWidth 8 }
  | 0x008 => some { k with vstart := v.toNat % 1024 }
  | 0x009 => some { k with vcsr := BitVec.ofNat 3 (k.vcsr.toNat / 2 * 2 + v.toNat % 2) }
  | 0x00A => some { k with vcsr := BitVec.ofNat 3 (k.vcsr.toNat % 2 + v.toNat % 4 * 2) }
  | 0x00F => some { k with vcsr := v.setWidth 3 }
  | _ => none

/-- Zicsr. -/
def csr (c : Ctx) (w : Nat) : Out :=
  let n := nslice w 31 20
  let src : Word := if f3 w ≥ 4 then BitVec.ofNat 64 (rs1 w) else x c (rs1 w)
  let kind := f3 w % 4
  match readCsr c.k n with
  | none => bad c
  | some old =>
    if kind ≠ 1 ∧ rs1 w = 0 then .ok (setX c (rd w) old)
    else
      let new : Word := if kind = 1 then src else if kind = 2 then old ||| src else old &&& ~~~src
      match writeCsr c.k n new with
      | none => bad c
      | some k => .ok (setX { c with k := k } (rd w) old)

/-! Floating words -/

/-- The rounding mode of a word: its own, or fcsr's. -/
def rmOf (c : Ctx) (code : Nat) : Option Rm := if code = 7 then Rm.ofCode (c.k.fcsr.toNat / 32) else Rm.ofCode code

/-- A floating result of a width, with its flags. -/
def putF (c : Ctx) (w r : Nat) (v : Nat × Fl) : Out := .ok (raise (setF c w r v.1) v.2)

/-- OP-FP. -/
def fpOp (c : Ctx) (w : Nat) : Out :=
  let fw := if nslice w 26 25 = 1 then 64 else 32
  let g := fmtOf fw
  let a := f c fw (rs1 w)
  let b := f c fw (rs2 w)
  let d := rd w
  let xa := (x c (rs1 w)).toNat
  if 2 ≤ nslice w 26 25 then bad c
  else
    let withRm (k : Rm → Out) : Out := match rmOf c (f3 w) with | some m => k m | none => bad c
    let int (v : Nat × Fl) (wide : Bool) : Out := .ok (raise (setX c d (if wide then BitVec.ofNat 64 v.1 else sext32 v.1)) v.2)
    match nslice w 31 27 with
    | 0 => withRm fun m => putF c fw d (add g m a b)
    | 1 => withRm fun m => putF c fw d (sub g m a b)
    | 2 => withRm fun m => putF c fw d (mul g m a b)
    | 3 => withRm fun m => putF c fw d (div g m a b)
    | 11 => if rs2 w ≠ 0 then bad c else withRm fun m => putF c fw d (sqrt g m a)
    | 4 =>
      let low := a % g.signBit
      let sa := decide (g.signBit ≤ a)
      let sb := decide (g.signBit ≤ b)
      match f3 w with
      | 0 => .ok (setF c fw d (low + if sb then g.signBit else 0))
      | 1 => .ok (setF c fw d (low + if sb then 0 else g.signBit))
      | 2 => .ok (setF c fw d (low + if sa != sb then g.signBit else 0))
      | _ => bad c
    | 5 => if f3 w < 2 then putF c fw d (minMax g (decide (f3 w = 1)) a b) else bad c
    | 20 =>
      if f3 w < 3 then
        let (r, fl) := compare g (f3 w) a b
        .ok (raise (setX c d (if r then 1 else 0)) fl)
      else bad c
    | 8 =>
      -- between the two formats
      withRm fun m =>
        if fw = 32 ∧ rs2 w = 1 then putF c 32 d (convert f64 .f32 m (f c 64 (rs1 w)))
        else if fw = 64 ∧ rs2 w = 0 then putF c 64 d (convert .f32 f64 m (f c 32 (rs1 w)))
        else bad c
    | 24 =>
      withRm fun m => match rs2 w with
        | 0 => int (toInt g m true 32 a) false
        | 1 => int (toInt g m false 32 a) false
        | 2 => int (toInt g m true 64 a) true
        | 3 => int (toInt g m false 64 a) true
        | _ => bad c
    | 26 =>
      withRm fun m => match rs2 w with
        | 0 => putF c fw d (ofInt g m (signedOf 32 xa))
        | 1 => putF c fw d (ofInt g m ((xa % 2 ^ 32 : Nat) : Int))
        | 2 => putF c fw d (ofInt g m (signedOf 64 xa))
        | 3 => putF c fw d (ofInt g m (xa : Int))
        | _ => bad c
    | 28 =>
      if rs2 w ≠ 0 then bad c
      else match f3 w with
        | 0 =>
          let v := (Bank.get 0 c.k.f (rs1 w)).toNat
          .ok (setX c d (if fw = 64 then BitVec.ofNat 64 v else sext32 v))
        | 1 => .ok (setX c d (BitVec.ofNat 64 (classify g a)))
        | _ => bad c
    | 30 => if rs2 w = 0 ∧ f3 w = 0 then .ok (setF c fw d xa) else bad c
    | _ => bad c

/-- The fused multiply-adds: opcode 0x43 adds, 0x47 subtracts, 0x4B and 0x4F change the sign of the product. -/
def fpFma (c : Ctx) (w : Nat) : Out :=
  let fw := if nslice w 26 25 = 1 then 64 else 32
  if 2 ≤ nslice w 26 25 then bad c
  else
    match rmOf c (f3 w) with
    | none => bad c
    | some m =>
      let op := w % 128
      putF c fw (rd w) (fma (fmtOf fw) m (decide (op = 0x4B ∨ op = 0x4F)) (decide (op = 0x47 ∨ op = 0x4F))
        (f c fw (rs1 w)) (f c fw (rs2 w)) (f c fw (rs3 w)))

/-! Loads, stores and the whole word -/

/-- Scalar loads. -/
def loadWord (c : Ctx) (w : Nat) : Out :=
  let size := 2 ^ (f3 w % 4)
  if f3 w = 7 then bad c
  else
    match load c (x c (rs1 w) + immI w).toNat size with
    | .error e => .error e
    | .ok (v, c) => .ok (setX c (rd w) (if f3 w < 4 then immOf (8 * size) v else BitVec.ofNat 64 v))

/-- Scalar stores. -/
def storeWord (c : Ctx) (w : Nat) : Out :=
  if 4 ≤ f3 w then bad c else store c (x c (rs1 w) + immS w).toNat (2 ^ f3 w) (x c (rs2 w)).toNat

/-- The kernel ends (R371). -/
def stop (c : Ctx) (e : KernelEnd) : Ctx := { c with k := { c.k with ended := some e } }

/-- One 32-bit word other than a vector word; the next pc is already in place, and pc0 is the word's own. -/
def scalar (c : Ctx) (w : Nat) (pc0 : Word) : Out :=
  let put (v : Option Word) : Out := match v with | some v => .ok (setX c (rd w) v) | none => .error (.illegal, pc0)
  let legal (r : Out) : Out := match r with
    | .error (e, a) => .error (e, if e = .illegal then pc0 else a)
    | r => r
  match w % 128 with
  | 0x37 => put (some (immU w))
  | 0x17 => put (some (pc0 + immU w))
  | 0x6F => .ok (goto (setX c (rd w) c.k.pc) (pc0 + immJ w))
  | 0x67 =>
    if f3 w = 0 then .ok (goto (setX c (rd w) c.k.pc) ((x c (rs1 w) + immI w) &&& 0xFFFFFFFFFFFFFFFE)) else .error (.illegal, pc0)
  | 0x63 =>
    match branch (f3 w) (x c (rs1 w)).toNat (x c (rs2 w)).toNat with
    | some true => .ok (goto c (pc0 + immB w))
    | some false => .ok c
    | none => .error (.illegal, pc0)
  | 0x03 => legal (loadWord c w)
  | 0x23 => legal (storeWord c w)
  | 0x13 => put (op64 c w true)
  | 0x33 => put (op64 c w false)
  | 0x1B => put (op32 c w true)
  | 0x3B => put (op32 c w false)
  | 0x0F => if f3 w ≤ 1 then .ok c else .error (.illegal, pc0)
  | 0x2F => legal (amo c w)
  | 0x53 => legal (fpOp c w)
  | 0x43 | 0x47 | 0x4B | 0x4F => legal (fpFma c w)
  | 0x07 =>
    let size := 2 ^ f3 w
    if f3 w ≠ 2 ∧ f3 w ≠ 3 then .error (.illegal, pc0)
    else
      match load c (x c (rs1 w) + immI w).toNat size with
      | .ok (v, c) => .ok (setF c (8 * size) (rd w) v)
      | .error e => .error e
  | 0x27 =>
    if f3 w ≠ 2 ∧ f3 w ≠ 3 then .error (.illegal, pc0)
    else store c (x c (rs1 w) + immS w).toNat (2 ^ f3 w) (Bank.get 0 c.k.f (rs2 w)).toNat
  | 0x73 =>
    if f3 w = 0 then
      if w = 0x73 then (if x c 17 = 0 then .ok (stop c .ecall) else .error (.illegal, pc0)) else .error (.illegal, pc0)
    else if f3 w = 4 then .error (.illegal, pc0)
    else legal (csr c w)
  | _ => .error (.illegal, pc0)

/-! Compressed words -/

/-- A register field of three bits. -/
def cr (v : Nat) : Nat := 8 + v % 8

/-- Encodings of the words that compressed ones stand for. -/
def encI (op f3 rd rs1 imm : Nat) : Nat := op + rd * 2 ^ 7 + f3 * 2 ^ 12 + rs1 * 2 ^ 15 + (imm % 4096) * 2 ^ 20
def encR (op f3 f7 rd rs1 rs2 : Nat) : Nat := op + rd * 2 ^ 7 + f3 * 2 ^ 12 + rs1 * 2 ^ 15 + rs2 * 2 ^ 20 + f7 * 2 ^ 25
def encS (op f3 rs1 rs2 imm : Nat) : Nat :=
  op + (imm % 32) * 2 ^ 7 + f3 * 2 ^ 12 + rs1 * 2 ^ 15 + rs2 * 2 ^ 20 + (imm / 32 % 128) * 2 ^ 25
def encB (f3 rs1 rs2 imm : Nat) : Nat :=
  0x63 + (imm / 2 ^ 11 % 2) * 2 ^ 7 + (imm / 2 % 16) * 2 ^ 8 + f3 * 2 ^ 12 + rs1 * 2 ^ 15 + rs2 * 2 ^ 20 + (imm / 32 % 64) * 2 ^ 25 +
    (imm / 2 ^ 12 % 2) * 2 ^ 31
def encJ (rd imm : Nat) : Nat :=
  0x6F + rd * 2 ^ 7 + (imm / 2 ^ 12 % 256) * 2 ^ 12 + (imm / 2 ^ 11 % 2) * 2 ^ 20 + (imm / 2 % 1024) * 2 ^ 21 + (imm / 2 ^ 20 % 2) * 2 ^ 31

/-- A signed immediate of a number of bits, as 32 bits. -/
def simm (bits v : Nat) : Nat := wrapNat 32 (signedOf bits v)

/-- The 32-bit word that a compressed one stands for (the C extension of RV64); none for an illegal one. -/
def expand (h : Nat) : Option Nat :=
  let b (hi lo : Nat) : Nat := nslice h hi lo
  let r := b 11 7
  let r2 := b 6 2
  let d' := cr (b 4 2)
  let s' := cr (b 9 7)
  let imm6 := simm 6 (b 12 12 * 32 + b 6 2)
  let shamt := b 12 12 * 32 + b 6 2
  let offJ := simm 12 (b 12 12 * 2 ^ 11 + b 8 8 * 2 ^ 10 + b 10 9 * 2 ^ 8 + b 6 6 * 2 ^ 7 + b 7 7 * 2 ^ 6 + b 2 2 * 32 + b 11 11 * 16 + b 5 3 * 2)
  let offB := simm 9 (b 12 12 * 2 ^ 8 + b 6 5 * 2 ^ 6 + b 2 2 * 32 + b 11 10 * 8 + b 4 3 * 2)
  let offD := b 12 10 * 8 + b 6 5 * 64
  let offW := b 12 10 * 8 + b 6 6 * 4 + b 5 5 * 64
  match b 1 0, b 15 13 with
  | 0, 0 =>
    let n := b 12 11 * 16 + b 10 7 * 64 + b 6 6 * 4 + b 5 5 * 8
    if n = 0 then none else some (encI 0x13 0 d' 2 n)
  | 0, 1 => some (encI 0x07 3 d' s' offD)
  | 0, 2 => some (encI 0x03 2 d' s' offW)
  | 0, 3 => some (encI 0x03 3 d' s' offD)
  | 0, 5 => some (encS 0x27 3 s' d' offD)
  | 0, 6 => some (encS 0x23 2 s' d' offW)
  | 0, 7 => some (encS 0x23 3 s' d' offD)
  | 1, 0 => some (encI 0x13 0 r r imm6)
  | 1, 1 => if r = 0 then none else some (encI 0x1B 0 r r imm6)
  | 1, 2 => some (encI 0x13 0 r 0 imm6)
  | 1, 3 =>
    if r = 2 then
      let n := simm 10 (b 12 12 * 2 ^ 9 + b 6 6 * 16 + b 5 5 * 64 + b 4 3 * 128 + b 2 2 * 32)
      if n = 0 then none else some (encI 0x13 0 2 2 n)
    else if imm6 = 0 then none else some (0x37 + r * 2 ^ 7 + (imm6 % 2 ^ 20) * 2 ^ 12)
  | 1, 4 =>
    match b 11 10 with
    | 0 => some (encI 0x13 5 s' s' shamt)
    | 1 => some (encI 0x13 5 s' s' (shamt + 1024))
    | 2 => some (encI 0x13 7 s' s' imm6)
    | _ =>
      match b 12 12, b 6 5 with
      | 0, 0 => some (encR 0x33 0 32 s' s' d')
      | 0, 1 => some (encR 0x33 4 0 s' s' d')
      | 0, 2 => some (encR 0x33 6 0 s' s' d')
      | 0, _ => some (encR 0x33 7 0 s' s' d')
      | _, 0 => some (encR 0x3B 0 32 s' s' d')
      | _, 1 => some (encR 0x3B 0 0 s' s' d')
      | _, _ => none
  | 1, 5 => some (encJ 0 offJ)
  | 1, 6 => some (encB 0 s' 0 offB)
  | 1, 7 => some (encB 1 s' 0 offB)
  | 2, 0 => some (encI 0x13 1 r r shamt)
  | 2, 1 => some (encI 0x07 3 r 2 (b 12 12 * 32 + b 6 5 * 8 + b 4 2 * 64))
  | 2, 2 => if r = 0 then none else some (encI 0x03 2 r 2 (b 12 12 * 32 + b 6 4 * 4 + b 3 2 * 64))
  | 2, 3 => if r = 0 then none else some (encI 0x03 3 r 2 (b 12 12 * 32 + b 6 5 * 8 + b 4 2 * 64))
  | 2, 4 =>
    if b 12 12 = 0 then
      if r2 = 0 then (if r = 0 then none else some (encI 0x67 0 0 r 0)) else some (encR 0x33 0 0 r 0 r2)
    else if r2 = 0 then (if r = 0 then some 0x00100073 else some (encI 0x67 0 1 r 0))
    else some (encR 0x33 0 0 r r r2)
  | 2, 5 => some (encS 0x27 3 2 r2 (b 12 10 * 8 + b 9 7 * 64))
  | 2, 6 => some (encS 0x23 2 2 r2 (b 12 9 * 4 + b 8 7 * 64))
  | 2, 7 => some (encS 0x23 3 2 r2 (b 12 10 * 8 + b 9 7 * 64))
  | _, _ => none

/-- The word at an address and its length in bytes. -/
def fetch (c : Ctx) : Except (Code × Word) (Nat × Nat) :=
  match fetch2 c c.k.pc.toNat with
  | .error e => .error e
  | .ok h =>
    if h % 4 = 3 then
      match fetch2 c (c.k.pc.toNat + 2) with
      | .error e => .error e
      | .ok h2 => .ok (h + h2 * 65536, 4)
    else
      match expand h with
      | some w => .ok (w, 2)
      | none => .error (.illegal, c.k.pc)

end Rv

end Sys2Proof.Machine
end

