-- ==== Sys2Proof/Machine/RvVector.lean ====
section
/-! DEFINITION. The vector instructions of the near-memory cores: the V extension 1.0 at VLEN 1,024 and ELEN 64 (R366), as the RISC-V unprivileged
specification, which the spec names, gives them. A reserved encoding or register group is an illegal instruction. -/

namespace Sys2Proof.Machine

namespace Rv

/-! The configuration -/

/-- VLEN. -/
def vlen : Nat := 1024

/-- Eight times LMUL; none for the reserved code. -/
def lmul8 : Nat → Option Nat
  | 0 => some 8 | 1 => some 16 | 2 => some 32 | 3 => some 64 | 5 => some 1 | 6 => some 2 | 7 => some 4 | _ => none

/-- The vector state of a word: SEW, 8 LMUL, the agnostic policies, vl and vstart, and the word with its mask bit. -/
structure Vec where
  sew : Nat
  l8 : Nat
  ta : Bool
  ma : Bool
  vl : Nat
  vstart : Nat
  w : Nat
  deriving DecidableEq, Repr

/-- SEW and 8 LMUL of a vtype; none where it is not supported: SEW is at most LMUL times ELEN. -/
def vtypeOk (t : Nat) : Option (Nat × Nat) :=
  let sew := 8 * 2 ^ nslice t 5 3
  match lmul8 (nslice t 2 0) with
  | some l => if t < 256 ∧ sew ≤ 64 ∧ 8 * sew ≤ 64 * l then some (sew, l) else none
  | none => none

/-- VLMAX of an element width and a group. -/
def vlmaxOf (ew l8 : Nat) : Nat := vlen * l8 / (8 * ew)

/-- The vector state; none where vtype is vill. -/
def vecOf (c : Ctx) (w : Nat) : Option Vec :=
  match c.k.vtype with
  | none => none
  | some t =>
    match vtypeOk t.toNat with
    | some (sew, l8) => some ⟨sew, l8, bit t 6, bit t 7, c.k.vl, c.k.vstart, w⟩
    | none => none

/-- vm: the word is unmasked. -/
def vm (w : Nat) : Bool := w.testBit 25

/-- funct6. -/
def f6 (w : Nat) : Nat := nslice w 31 26

/-- The three instructions that set vtype and vl. -/
def setVector (c : Ctx) (w : Nat) : Out :=
  let imm := !w.testBit 31 || decide (nslice w 31 30 = 3)
  let t : Nat := if !w.testBit 31 then nslice w 30 20 else if nslice w 31 30 = 3 then nslice w 29 20 else (x c (rs2 w)).toNat
  if !imm && decide (nslice w 30 25 ≠ 0) then bad c
  else
    match vtypeOk t with
    | none => .ok (setX { c with k := { c.k with vtype := none, vl := 0, vstart := 0 } } (rd w) 0)
    | some (sew, l8) =>
      let n := vlmaxOf sew l8
      let keep := decide (nslice w 31 30 ≠ 3 ∧ rs1 w = 0 ∧ rd w = 0)
      let avl := if nslice w 31 30 = 3 then rs1 w else if rs1 w = 0 then (if rd w = 0 then c.k.vl else 2 * n) else (x c (rs1 w)).toNat
      let same := match c.k.vtype with
        | some o => (match vtypeOk o.toNat with | some (s, l) => decide (vlmaxOf s l = n) | none => false)
        | none => false
      if keep && !same then .ok { c with k := { c.k with vtype := none, vl := 0, vstart := 0 } }
      else
        let low := ceilDiv avl 2
        let vl := if avl ≤ n then avl else if 2 * n ≤ avl then n else low + Config.vectorLength avl n % (n - low + 1)
        .ok (setX { c with k := { c.k with vtype := some (BitVec.ofNat 8 t), vl := vl, vstart := 0 } } (rd w) (BitVec.ofNat 64 vl))

/-! Registers, groups and masks -/

/-- Element i of width ew of the group that begins at register r. -/
def ve (c : Ctx) (ew r i : Nat) : Nat :=
  let per := vlen / ew
  elemOf ew (Bank.get 0 c.k.v (r + i / per)).toNat (i % per)

/-- Bit i of a mask register. -/
def vbit (c : Ctx) (r i : Nat) : Bool := bit (Bank.get 0 c.k.v r) i

/-- An element is active. -/
def active (c : Ctx) (v : Vec) (i : Nat) : Bool := vm v.w || vbit c 0 i

/-- Writes elements 0, 1, ... of a group from a list. -/
def setGroup (c : Ctx) (ew r : Nat) (l : List Nat) : Ctx :=
  let per := vlen / ew
  let regs := chunks per (ceilDiv l.length per) l
  let v := (List.range regs.length).foldl (fun b j => Bank.set 0 b (r + j) (BitVec.ofNat 1024 (packElems ew (regs.getD j [])))) c.k.v
  { c with k := { c.k with v := v } }

/-- The registers of a group. -/
def regsOf (e8 : Nat) : Nat := max 1 (e8 / 8)

/-- A legal group: EMUL from 1/8 to 8, at an aligned register. -/
def groupOk (r e8 : Nat) : Bool := decide (1 ≤ e8 ∧ e8 ≤ 64 ∧ r % regsOf e8 = 0)

/-- A destination group against a source group: apart, of one element width, the lowest part of a wider source, or the highest part of a wider
destination. -/
def overlapOk (d d8 dw r r8 rw : Nat) : Bool :=
  decide (d + regsOf d8 ≤ r ∨ r + regsOf r8 ≤ d) || decide (dw = rw) || decide (dw < rw ∧ d = r) ||
    decide (rw < dw ∧ 8 ≤ r8 ∧ r + regsOf r8 = d + regsOf d8)

/-- Two groups have no register in common. -/
def apart (d d8 r r8 : Nat) : Bool := decide (d + regsOf d8 ≤ r ∨ r + regsOf r8 ≤ d)

/-- A masked word does not write over its mask. -/
def maskOk (v : Vec) (d : Nat) : Bool := vm v.w || decide (d ≠ 0)

/-- An agnostic element: as it was, or all ones, as the core chooses. -/
def agnostic (c : Ctx) (may : Bool) (ew d i old : Nat) : Nat := if may && Config.lane c.s.free (1000 + d) i then 2 ^ ew - 1 else old

/-- The end of a vector word: vstart is 0 again. -/
def finishV (c : Ctx) : Out := .ok { c with k := { c.k with vstart := 0 } }

/-- An element's result: its code, flags and vxsat. -/
structure El where
  val : Nat
  fl : Fl := 0
  sat : Bool := false
  deriving DecidableEq, Repr

/-- Writes a group from the results of its body elements from start on; the others follow their policy. Where vstart is not below vl nothing is
written. -/
def putGroup (c : Ctx) (v : Vec) (ew d8 start : Nat) (act : Nat → Bool) (res : Nat → El) : Out :=
  let d := rd v.w
  if v.vl ≤ v.vstart then finishV c
  else
    let total := regsOf d8 * (vlen / ew)
    let one (i : Nat) : El :=
      let old := ve c ew d i
      if i < start then ⟨old, 0, false⟩
      else if i < v.vl then (if act i then res i else ⟨agnostic c v.ma ew d i old, 0, false⟩)
      else ⟨agnostic c v.ta ew d i old, 0, false⟩
    let l := (List.range total).map one
    let c := setGroup c ew d (l.map El.val)
    let sat : BitVec 3 := if l.any El.sat then 1 else 0
    finishV (raise { c with k := { c.k with vcsr := c.k.vcsr ||| sat } } (l.foldl (fun f e => f ||| e.fl) 0))

/-- Writes a mask register; its tail is always agnostic. -/
def putMask (c : Ctx) (v : Vec) (act : Nat → Bool) (res : Nat → Bool × Fl) : Out :=
  let d := rd v.w
  if v.vl ≤ v.vstart then finishV c
  else
    let one (i : Nat) : El :=
      let old := if vbit c d i then 1 else 0
      if i < v.vstart then ⟨old, 0, false⟩
      else if i < v.vl then (if act i then (let r := res i; ⟨if r.1 then 1 else 0, r.2, false⟩) else ⟨agnostic c v.ma 1 d i old, 0, false⟩)
      else ⟨agnostic c true 1 d i old, 0, false⟩
    let l := (List.range vlen).map one
    finishV (raise (setGroup c 1 d (l.map El.val)) (l.foldl (fun f e => f ||| e.fl) 0))

/-- Writes element 0 of one register, as reductions and the moves to element 0 do; the rest is tail. -/
def putFirst (c : Ctx) (v : Vec) (ew : Nat) (r : El) : Out :=
  if v.vl ≤ v.vstart then finishV c else putGroup c { v with vl := 1, vstart := 0 } ew 8 0 (fun _ => true) (fun _ => r)

/-! Integer elements -/

/-- Rounds v / 2^d under vxrm. -/
def roundoff (rm : Nat) (v : Int) (d : Nat) : Int :=
  let q := v / ((2 ^ d : Nat) : Int)
  let r := (v % ((2 ^ d : Nat) : Int)).toNat
  let up : Bool := match rm with
    | 0 => decide (2 ^ d ≤ 2 * r ∧ r ≠ 0)
    | 1 => decide (2 ^ d < 2 * r ∨ (2 ^ d = 2 * r ∧ q % 2 = 1))
    | 2 => false
    | _ => decide (r ≠ 0 ∧ q % 2 = 0)
  if up then q + 1 else q

/-- Clips to a signed or an unsigned width. -/
def clip (signed : Bool) (w : Nat) (i : Int) : El :=
  let lo : Int := if signed then -((2 ^ (w - 1) : Nat) : Int) else 0
  let hi : Int := if signed then ((2 ^ (w - 1) : Nat) : Int) - 1 else ((2 ^ w : Nat) : Int) - 1
  if i < lo then ⟨wrapNat w lo, 0, true⟩ else if hi < i then ⟨wrapNat w hi, 0, true⟩ else ⟨wrapNat w i, 0, false⟩

/-- A vector-vector, vector-scalar and vector-immediate operation of one width: a is from vs2 and b from the other operand. -/
def intOp (rm w f6 a b : Nat) : Option El :=
  let i := signedOf w a
  let j := signedOf w b
  let sh := b % w
  let r (n : Nat) : Option El := some ⟨n % 2 ^ w, 0, false⟩
  let ri (n : Int) : Option El := some ⟨wrapNat w n, 0, false⟩
  match f6 with
  | 0 => r (a + b)
  | 2 => ri ((a : Int) - b)
  | 3 => ri ((b : Int) - a)
  | 4 => r (min a b)
  | 5 => ri (min i j)
  | 6 => r (max a b)
  | 7 => ri (max i j)
  | 9 => r (a &&& b)
  | 10 => r (a ||| b)
  | 11 => r (a ^^^ b)
  | 32 => some (clip false w ((a : Int) + b))
  | 33 => some (clip true w (i + j))
  | 34 => some (clip false w ((a : Int) - b))
  | 35 => some (clip true w (i - j))
  | 37 => r (a * 2 ^ sh)
  | 39 => some (clip true w (roundoff rm (i * j) (w - 1)))
  | 40 => r (a / 2 ^ sh)
  | 41 => ri (i / ((2 ^ sh : Nat) : Int))
  | 42 => ri (roundoff rm a sh)
  | 43 => ri (roundoff rm i sh)
  | _ => none

/-- The multiplying, dividing and averaging operations. -/
def mulOp (rm w f6 a b : Nat) : Option El :=
  let i := signedOf w a
  let j := signedOf w b
  let r (n : Nat) : Option El := some ⟨n % 2 ^ w, 0, false⟩
  let ri (n : Int) : Option El := some ⟨wrapNat w n, 0, false⟩
  match f6 with
  | 8 => ri (roundoff rm ((a : Int) + b) 1)
  | 9 => ri (roundoff rm (i + j) 1)
  | 10 => ri (roundoff rm ((a : Int) - b) 1)
  | 11 => ri (roundoff rm (i - j) 1)
  | 32 => r (divRem false false w a b)
  | 33 => r (divRem true false w a b)
  | 34 => r (divRem false true w a b)
  | 35 => r (divRem true true w a b)
  | 36 => r (a * b / 2 ^ w)
  | 37 => r (a * b)
  | 38 => ri (i * (b : Int) / ((2 ^ w : Nat) : Int))
  | 39 => ri (i * j / ((2 ^ w : Nat) : Int))
  | _ => none

/-- The operations with an addend of one width: d is the destination. -/
def madOp (w f6 a b d : Nat) : Option El :=
  let ri (n : Int) : Option El := some ⟨wrapNat w n, 0, false⟩
  match f6 with
  | 41 => ri ((b : Int) * d + a)
  | 43 => ri ((a : Int) - (b : Int) * d)
  | 45 => ri ((b : Int) * a + d)
  | 47 => ri ((d : Int) - (b : Int) * a)
  | _ => none

/-- The widening operations: a and b have w bits (a has 2w in the .w forms), d and the result 2w. -/
def widenOp (w f6 a b d : Nat) : Option El :=
  let i := signedOf w a
  let j := signedOf w b
  let ii := signedOf (2 * w) a
  let ri (n : Int) : Option El := some ⟨wrapNat (2 * w) n, 0, false⟩
  match f6 with
  | 48 => ri ((a : Int) + b)
  | 49 => ri (i + j)
  | 50 => ri ((a : Int) - b)
  | 51 => ri (i - j)
  | 52 => ri ((a : Int) + b)
  | 53 => ri (ii + j)
  | 54 => ri ((a : Int) - b)
  | 55 => ri (ii - j)
  | 56 => ri ((a : Int) * b)
  | 58 => ri (i * (b : Int))
  | 59 => ri (i * j)
  | 60 => ri ((d : Int) + (a : Int) * b)
  | 61 => ri ((d : Int) + i * j)
  | 62 => ri ((d : Int) + i * (b : Int))
  | 63 => ri ((d : Int) + (a : Int) * j)
  | _ => none

/-- The comparisons. -/
def cmpOp (w f6 a b : Nat) : Option Bool :=
  let i := signedOf w a
  let j := signedOf w b
  match f6 with
  | 24 => some (decide (a = b))
  | 25 => some (decide (a ≠ b))
  | 26 => some (decide (a < b))
  | 27 => some (decide (i < j))
  | 28 => some (decide (a ≤ b))
  | 29 => some (decide (i ≤ j))
  | 30 => some (decide (b < a))
  | 31 => some (decide (j < i))
  | _ => none

/-- An operation of the reductions. -/
def redOp (w f6 a b : Nat) : Nat :=
  let i := signedOf w a
  let j := signedOf w b
  match f6 with
  | 0 => (a + b) % 2 ^ w
  | 1 => a &&& b
  | 2 => a ||| b
  | 3 => a ^^^ b
  | 4 => min a b
  | 5 => wrapNat w (min i j)
  | 6 => max a b
  | _ => wrapNat w (max i j)

/-! Operands -/

/-- The second operand of width ew of element i: a vector element, a register or an immediate, by funct3. -/
def operandB (c : Ctx) (w ew : Nat) (unsigned : Bool) (i : Nat) : Nat :=
  match f3 w with
  | 0 | 1 | 2 => ve c ew (rs1 w) i
  | 3 => if unsigned then rs1 w else wrapNat ew (signedOf 5 (rs1 w))
  | 5 => f c ew (rs1 w)
  | _ => (x c (rs1 w)).toNat % 2 ^ ew

/-- The second operand is a vector. -/
def isVV (w : Nat) : Bool := decide (f3 w ≤ 2)

/-- The group checks of an operation with a destination of width dw and sources of widths aw and bw. -/
def groupsOk (v : Vec) (dw aw bw : Nat) : Bool :=
  let e8 (ew : Nat) : Nat := v.l8 * ew / v.sew
  let d := rd v.w
  let d8 := if dw = 1 then 8 else e8 dw
  let src (r ew : Nat) : Bool := groupOk r (e8 ew) && overlapOk d d8 dw r (e8 ew) ew
  decide (dw ≤ 64 ∧ aw ≤ 64 ∧ bw ≤ 64) && groupOk d d8 && src (rs2 v.w) aw && (!isVV v.w || src (rs1 v.w) bw) && (decide (dw = 1) || maskOk v d)

/-- A result of an option; an operation that does not exist is illegal. -/
def ifSome {α : Type} (c : Ctx) (o : Option α) (k : α → Out) : Out := match o with | some a => k a | none => bad c

/-- An operation on elements: the operation must exist, which its value at zeros tells. -/
def mapOp (c : Ctx) (v : Vec) (dw aw bw : Nat) (unsigned : Bool) (op : Nat → Nat → Nat → Option El) : Out :=
  if !groupsOk v dw aw bw then bad c
  else ifSome c (op 0 0 0) fun _ =>
    putGroup c v dw (v.l8 * dw / v.sew) v.vstart (active c v) fun i =>
      (op (ve c aw (rs2 v.w) i) (operandB c v.w bw unsigned i) (ve c dw (rd v.w) i)).getD ⟨0, 0, false⟩

/-- A comparison of elements into a mask. -/
def mapCmp (c : Ctx) (v : Vec) (op : Nat → Nat → Option (Bool × Fl)) : Out :=
  if !groupsOk v 1 v.sew v.sew then bad c
  else ifSome c (op 0 0) fun _ =>
    putMask c v (active c v) fun i => (op (ve c v.sew (rs2 v.w) i) (operandB c v.w v.sew false i)).getD (false, 0)

/-! Moves inside registers -/

/-- vslideup: elements below the offset stay. -/
def slideUp (c : Ctx) (v : Vec) (n : Nat) : Out :=
  if !groupsOk v v.sew v.sew v.sew || !apart (rd v.w) v.l8 (rs2 v.w) v.l8 then bad c
  else putGroup c v v.sew v.l8 (max v.vstart n) (active c v) fun i => ⟨ve c v.sew (rs2 v.w) (i - n), 0, false⟩

/-- vslidedown: beyond VLMAX elements are zero. -/
def slideDown (c : Ctx) (v : Vec) (n : Nat) : Out :=
  if !groupsOk v v.sew v.sew v.sew then bad c
  else putGroup c v v.sew v.l8 v.vstart (active c v) fun i =>
    ⟨if i + n < vlmaxOf v.sew v.l8 then ve c v.sew (rs2 v.w) (i + n) else 0, 0, false⟩

/-- vslide1up and vslide1down with a scalar. -/
def slideOne (c : Ctx) (v : Vec) (up : Bool) (b : Nat) : Out :=
  if !groupsOk v v.sew v.sew v.sew || (up && !apart (rd v.w) v.l8 (rs2 v.w) v.l8) then bad c
  else putGroup c v v.sew v.l8 v.vstart (active c v) fun i =>
    ⟨if up then (if i = 0 then b else ve c v.sew (rs2 v.w) (i - 1)) else if i + 1 = v.vl then b else ve c v.sew (rs2 v.w) (i + 1), 0, false⟩

/-- vrgather: an index from VLMAX on gives zero. -/
def gather (c : Ctx) (v : Vec) (iw : Nat) : Out :=
  let i8 := v.l8 * iw / v.sew
  let vv := isVV v.w
  let ok := groupOk (rd v.w) v.l8 && groupOk (rs2 v.w) v.l8 && apart (rd v.w) v.l8 (rs2 v.w) v.l8 && maskOk v (rd v.w) &&
    (!vv || (groupOk (rs1 v.w) i8 && apart (rd v.w) v.l8 (rs1 v.w) i8))
  if !ok then bad c
  else putGroup c v v.sew v.l8 v.vstart (active c v) fun i =>
    let n := if vv then ve c iw (rs1 v.w) i else if f3 v.w = 3 then rs1 v.w else (x c (rs1 v.w)).toNat
    ⟨if n < vlmaxOf v.sew v.l8 then ve c v.sew (rs2 v.w) n else 0, 0, false⟩

/-- vcompress. -/
def compress (c : Ctx) (v : Vec) : Out :=
  if !vm v.w || decide (v.vstart ≠ 0) || !groupOk (rd v.w) v.l8 || !groupOk (rs2 v.w) v.l8 || !apart (rd v.w) v.l8 (rs2 v.w) v.l8 ||
      !apart (rd v.w) v.l8 (rs1 v.w) 8 then bad c
  else
    let l := ((List.range v.vl).filter (vbit c (rs1 v.w))).map (ve c v.sew (rs2 v.w))
    if v.vl = 0 then finishV c
    else if l.length = 0 then putGroup c { v with ma := v.ta } v.sew v.l8 0 (fun _ => false) fun _ => ⟨0, 0, false⟩
    else putGroup c { v with vl := l.length } v.sew v.l8 0 (fun _ => true) fun i => ⟨l.getD i 0, 0, false⟩

/-- Merges and the moves that share their encoding: the mask chooses the second operand. -/
def merge (c : Ctx) (v : Vec) : Out :=
  if vm v.w then
    if rs2 v.w ≠ 0 ∨ !groupOk (rd v.w) v.l8 ∨ (isVV v.w ∧ !groupOk (rs1 v.w) v.l8) then bad c
    else putGroup c v v.sew v.l8 v.vstart (fun _ => true) fun i => ⟨operandB c v.w v.sew false i, 0, false⟩
  else if !groupsOk v v.sew v.sew v.sew then bad c
  else putGroup c v v.sew v.l8 v.vstart (fun _ => true) fun i =>
    ⟨if vbit c 0 i then operandB c v.w v.sew false i else ve c v.sew (rs2 v.w) i, 0, false⟩

/-- vadc and vsbc. -/
def carryOp (c : Ctx) (v : Vec) (minus : Bool) : Out :=
  if vm v.w || !groupsOk v v.sew v.sew v.sew then bad c
  else putGroup c v v.sew v.l8 v.vstart (fun _ => true) fun i =>
    let a : Int := ve c v.sew (rs2 v.w) i
    let b : Int := operandB c v.w v.sew false i
    let k : Int := if vbit c 0 i then 1 else 0
    ⟨wrapNat v.sew (if minus then a - b - k else a + b + k), 0, false⟩

/-- vmadc and vmsbc: the carry or the borrow. -/
def carryOut (c : Ctx) (v : Vec) (minus : Bool) : Out :=
  if !groupsOk v 1 v.sew v.sew then bad c
  else putMask c v (fun _ => true) fun i =>
    let a := ve c v.sew (rs2 v.w) i
    let b := operandB c v.w v.sew false i
    let k := if !vm v.w && vbit c 0 i then 1 else 0
    (if minus then decide (a < b + k) else decide (2 ^ v.sew ≤ a + b + k), 0)

/-! Reductions -/

/-- A reduction into element 0: from element 0 of vs1 over the active elements of vs2, in ascending order. -/
def reduce (c : Ctx) (v : Vec) (dw : Nat) (step : El → Nat → El) : Out :=
  if !groupOk (rs2 v.w) v.l8 || decide (v.vstart ≠ 0) || decide (64 < dw) then bad c
  else if v.vl = 0 then finishV c
  else
    let l := ((List.range v.vl).filter (active c v)).map (ve c v.sew (rs2 v.w))
    putFirst c v dw (l.foldl step ⟨ve c dw (rs1 v.w) 0, 0, false⟩)

/-! Masks -/

/-- The mask operations of two registers. -/
def maskLogic (f6 : Nat) (a b : Bool) : Bool :=
  match f6 with
  | 24 => a && !b
  | 25 => a && b
  | 26 => a || b
  | 27 => a != b
  | 28 => a || !b
  | 29 => !(a && b)
  | 30 => !(a || b)
  | _ => !(a != b)

/-- The first active element of the body whose bit in vs2 is set. -/
def firstSet (c : Ctx) (v : Vec) : Option Nat := (List.range v.vl).find? fun i => active c v i && vbit c (rs2 v.w) i

/-- vmsbf, vmsof, vmsif, viota and vid. -/
def maskUnary (c : Ctx) (v : Vec) : Out :=
  let d := rd v.w
  let set (p : Option Nat → Nat → Bool) : Out :=
    if v.vstart ≠ 0 ∨ d = rs2 v.w ∨ !maskOk v d then bad c
    else putMask c v (active c v) fun i => (p (firstSet c v) i, 0)
  match rs1 v.w with
  | 1 => set fun o i => match o with | some n => decide (i < n) | none => true
  | 2 => set fun o i => decide (o = some i)
  | 3 => set fun o i => match o with | some n => decide (i ≤ n) | none => true
  | 16 =>
    if v.vstart ≠ 0 ∨ !groupOk d v.l8 ∨ !apart d v.l8 (rs2 v.w) 8 ∨ !maskOk v d then bad c
    else putGroup c v v.sew v.l8 0 (active c v) fun i =>
      ⟨((List.range i).filter fun j => active c v j && vbit c (rs2 v.w) j).length % 2 ^ v.sew, 0, false⟩
  | 17 =>
    if rs2 v.w ≠ 0 ∨ !groupOk d v.l8 ∨ !maskOk v d then bad c
    else putGroup c v v.sew v.l8 v.vstart (active c v) fun i => ⟨i % 2 ^ v.sew, 0, false⟩
  | _ => bad c

/-- vzext and vsext. -/
def extend (c : Ctx) (v : Vec) : Out :=
  let n := match rs1 v.w / 2 with | 1 => 8 | 2 => 4 | 3 => 2 | _ => 0
  let aw := v.sew / max n 1
  if n = 0 ∨ rs1 v.w < 2 ∨ aw < 8 ∨ !groupOk (rd v.w) v.l8 ∨ !groupOk (rs2 v.w) (v.l8 / n) ∨
      !overlapOk (rd v.w) v.l8 v.sew (rs2 v.w) (v.l8 / n) aw ∨ !maskOk v (rd v.w) then bad c
  else putGroup c v v.sew v.l8 v.vstart (active c v) fun i =>
    let a := ve c aw (rs2 v.w) i
    ⟨if rs1 v.w % 2 = 1 then wrapNat v.sew (signedOf aw a) else a, 0, false⟩

/-! The integer words -/

/-- vxrm. -/
def vxrm (c : Ctx) : Nat := c.k.vcsr.toNat / 2

/-- OPIVV, OPIVX and OPIVI. -/
def opInt (c : Ctx) (v : Vec) : Out :=
  let n := f6 v.w
  let k := f3 v.w
  let rm := vxrm c
  let plain (unsigned : Bool) : Out := mapOp c v v.sew v.sew v.sew unsigned fun a b _ => intOp rm v.sew n a b
  let cmp : Out := mapCmp c v fun a b => (cmpOp v.sew n a b).map fun r => (r, 0)
  -- a narrowing shift, with or without clipping
  let narrow (op : Int → Nat → El) (signed : Bool) : Out :=
    mapOp c v v.sew (2 * v.sew) v.sew true fun a b _ => some (op (if signed then signedOf (2 * v.sew) a else a) (b % (2 * v.sew)))
  let offset := if k = 3 then rs1 v.w else (x c (rs1 v.w)).toNat
  match n with
  | 0 | 9 | 10 | 11 | 32 | 33 => plain false
  | 2 | 4 | 5 | 6 | 7 | 34 | 35 => if k = 3 then bad c else plain false
  | 3 => if k = 0 then bad c else plain false
  | 12 => gather c v v.sew
  | 14 => if k = 0 then gather c v 16 else slideUp c v offset
  | 15 => if k = 0 then bad c else slideDown c v offset
  | 16 => carryOp c v false
  | 17 => carryOut c v false
  | 18 => if k = 3 then bad c else carryOp c v true
  | 19 => if k = 3 then bad c else carryOut c v true
  | 23 => merge c v
  | 24 | 25 | 28 | 29 => cmp
  | 26 | 27 => if k = 3 then bad c else cmp
  | 30 | 31 => if k = 0 then bad c else cmp
  | 37 | 40 | 41 | 42 | 43 => plain true
  | 39 =>
    if k = 3 then
      -- vmv<nr>r.v: EMUL is the number of registers
      let nr := rs1 v.w + 1
      if !vm v.w || !(decide (nr = 1 ∨ nr = 2 ∨ nr = 4 ∨ nr = 8)) || decide (rd v.w % nr ≠ 0 ∨ rs2 v.w % nr ≠ 0) then bad c
      else putGroup c { v with vl := nr * (vlen / v.sew) } v.sew (8 * nr) v.vstart (fun _ => true) fun i => ⟨ve c v.sew (rs2 v.w) i, 0, false⟩
    else plain false
  | 44 => narrow (fun a s => ⟨wrapNat v.sew (a / ((2 ^ s : Nat) : Int)), 0, false⟩) false
  | 45 => narrow (fun a s => ⟨wrapNat v.sew (a / ((2 ^ s : Nat) : Int)), 0, false⟩) true
  | 46 => narrow (fun a s => clip false v.sew (roundoff rm a s)) false
  | 47 => narrow (fun a s => clip true v.sew (roundoff rm a s)) true
  | 48 | 49 =>
    if k ≠ 0 then bad c
    else
      let ext (a : Nat) : Nat := if n = 49 then wrapNat (2 * v.sew) (signedOf v.sew a) else a
      reduce c v (2 * v.sew) fun e a => ⟨(e.val + ext a) % 2 ^ (2 * v.sew), 0, false⟩
  | _ => bad c

/-- OPMVV and OPMVX. -/
def opMul (c : Ctx) (v : Vec) : Out :=
  let n := f6 v.w
  let vv := decide (f3 v.w = 2)
  let rm := vxrm c
  let b := (x c (rs1 v.w)).toNat % 2 ^ v.sew
  if n < 8 then (if vv then reduce c v v.sew fun e a => ⟨redOp v.sew n e.val a, 0, false⟩ else bad c)
  else if n < 12 then mapOp c v v.sew v.sew v.sew false fun a b _ => mulOp rm v.sew n a b
  else
    let wsc : Nat := (x c (rs1 v.w)).toNat
    match n with
    | 14 => if vv then bad c else slideOne c v true (wrapNat v.sew wsc)
    | 15 => if vv then bad c else slideOne c v false b
    | 16 =>
      if vv then
        match rs1 v.w with
        | 0 => if vm v.w then finishV (setX c (rd v.w) (immOf v.sew (ve c v.sew (rs2 v.w) 0))) else bad c
        | 16 =>
          if v.vstart ≠ 0 then bad c
          else finishV (setX c (rd v.w) (BitVec.ofNat 64 ((List.range v.vl).filter fun i => active c v i && vbit c (rs2 v.w) i).length))
        | 17 =>
          if v.vstart ≠ 0 then bad c
          else finishV (setX c (rd v.w) (match firstSet c v with | some i => BitVec.ofNat 64 i | none => 0xFFFFFFFFFFFFFFFF))
        | _ => bad c
      else if rs2 v.w = 0 ∧ vm v.w then putFirst c v v.sew ⟨b, 0, false⟩ else bad c
    | 18 => if vv then extend c v else bad c
    | 20 => if vv then maskUnary c v else bad c
    | 23 => if vv then compress c v else bad c
    | 24 | 25 | 26 | 27 | 28 | 29 | 30 | 31 =>
      if vv && vm v.w then putMask c v (fun _ => true) fun i => (maskLogic n (vbit c (rs2 v.w) i) (vbit c (rs1 v.w) i), 0) else bad c
    | 32 | 33 | 34 | 35 | 36 | 37 | 38 | 39 => mapOp c v v.sew v.sew v.sew false fun a b _ => mulOp rm v.sew n a b
    | 41 | 43 | 45 | 47 => mapOp c v v.sew v.sew v.sew false fun a b d => madOp v.sew n a b d
    | 52 | 53 | 54 | 55 => mapOp c v (2 * v.sew) (2 * v.sew) v.sew false fun a b d => widenOp v.sew n a b d
    | 62 => if vv then bad c else mapOp c v (2 * v.sew) v.sew v.sew false fun a b d => widenOp v.sew n a b d
    | _ => mapOp c v (2 * v.sew) v.sew v.sew false fun a b d => widenOp v.sew n a b d

/-! Floating words -/

/-- A zero, an infinity or a number with the sign of a code. -/
def signed (g : FloatFmt) (a v : Nat) : Nat := v + if g.signBit ≤ a then g.signBit else 0

/-- The exponent, at most 0 for a subnormal, and the fraction of a number. -/
def normal (g : FloatFmt) (a : Nat) : Int × Nat :=
  let m := a % g.signBit
  let e := m / 2 ^ g.m
  let t := m % 2 ^ g.m
  if e ≠ 0 then (e, t)
  else
    let z := g.m - 1 - Nat.log2 t
    (-(z : Int), t * 2 ^ (z + 1) % 2 ^ g.m)

/-- vfrec7: an estimate of 1/a good to 7 bits. The table's entry for fraction bits p is the 7-bit fraction nearest to twice the harmonic centre of
the interval of p. -/
def rec7 (g : FloatFmt) (rm : Rm) (a : Nat) : Nat × Fl :=
  match g.value a with
  | .nan => (g.nanCode, snan g [a])
  | .inf _ => (signed g a 0, 0)
  | .fin neg p _ =>
    if p = 0 then (signed g a g.infCode, dz)
    else
      let (e, t) := normal g a
      if e < -1 then
        let toInf := match rm with | .rne => true | .rmm => true | .rup => !neg | .rdn => neg | _ => false
        (signed g a (if toInf then g.infCode else g.maxCode), of_ ||| nx)
      else
        let i := t / 2 ^ (g.m - 7)
        let o := (2 * (128 * (255 - 2 * i)) + (257 + 2 * i)) / (2 * (257 + 2 * i))
        let oe : Int := 2 * (g.b : Int) - 1 - e
        let t := o * 2 ^ (g.m - 7)
        let full := 2 ^ g.m + t
        (signed g a (if 0 < oe then oe.toNat * 2 ^ g.m + t else if oe = 0 then full / 2 else full / 4), 0)

/-- vfrsqrt7: an estimate of 1/sqrt(a) good to 7 bits. The table's entry is the 7-bit fraction nearest to the centre, in the ratio of its errors, of
the interval of the exponent's low bit and the six fraction bits. -/
def rsqrt7 (g : FloatFmt) (a : Nat) : Nat × Fl :=
  match g.value a with
  | .nan => (g.nanCode, snan g [a])
  | .inf neg => if neg then (g.nanCode, nv) else (0, 0)
  | .fin neg p _ =>
    if p = 0 then (signed g a g.infCode, dz)
    else if neg then (g.nanCode, nv)
    else
      let (e, t) := normal g a
      let i := t / 2 ^ (g.m - 6)
      let odd := decide (e % 2 = 1)
      -- both ends of the interval as sixty-fourths, times 2^60, under the root
      let k := if odd then 1 else 2
      let s := Nat.sqrt (k * (64 + i) * 2 ^ 60) + Nat.sqrt (k * (65 + i) * 2 ^ 60)
      -- 128 (4 / (roots) - 1), to the nearest
      let o := (1024 * 2 ^ 33 / s - 256 + 1) / 2
      let oe : Int := (3 * (g.b : Int) - 1 - e) / 2
      (oe.toNat * 2 ^ g.m + o * 2 ^ (g.m - 7), 0)

/-- An element from a result and its flags. -/
def elF (r : Nat × Fl) : El := ⟨r.1, r.2, false⟩

/-- The sign injections 8, 9 and 10. -/
def injectSign (g : FloatFmt) (n a b : Nat) : Nat :=
  let sa := decide (g.signBit ≤ a)
  let sb := decide (g.signBit ≤ b)
  a % g.signBit + if (match n with | 8 => sb | 9 => !sb | _ => sa != sb) then g.signBit else 0

/-- The two-operand operations of one width. -/
def floatOp (g : FloatFmt) (rm : Rm) (n a b : Nat) : Option El :=
  match n with
  | 0 => some (elF (add g rm a b))
  | 2 => some (elF (sub g rm a b))
  | 4 => some (elF (minMax g false a b))
  | 6 => some (elF (minMax g true a b))
  | 8 | 9 | 10 => some ⟨injectSign g n a b, 0, false⟩
  | 32 => some (elF (div g rm a b))
  | 33 => some (elF (div g rm b a))
  | 36 => some (elF (mul g rm a b))
  | 39 => some (elF (sub g rm b a))
  | _ => none

/-- The comparisons. -/
def floatCmp (g : FloatFmt) (n a b : Nat) : Option (Bool × Fl) :=
  match n with
  | 24 => some (compare g 2 a b)
  | 25 => some (compare g 0 a b)
  | 27 => some (compare g 1 a b)
  | 28 => some (let r := compare g 2 a b; (!r.1, r.2))
  | 29 => some (compare g 1 b a)
  | 31 => some (compare g 0 b a)
  | _ => none

/-- A single as a double, with NV for a signalling NaN. -/
def wider (a : Nat) : Nat × Fl := convert .f32 f64 .rne a

/-- The widening operations of singles; wide says that a is a double already. -/
def floatWide (rm : Rm) (n a b d : Nat) : Option El :=
  let (a', fa) := wider a
  let (b', fb) := wider b
  let out (r : Nat × Fl) : Option El := some ⟨r.1, r.2 ||| fa ||| fb, false⟩
  match n with
  | 48 => out (add f64 rm a' b')
  | 50 => out (sub f64 rm a' b')
  | 52 => let r := add f64 rm a b'; some ⟨r.1, r.2 ||| fb, false⟩
  | 54 => let r := sub f64 rm a b'; some ⟨r.1, r.2 ||| fb, false⟩
  | 56 => out (mul f64 rm a' b')
  | 60 | 61 | 62 | 63 => out (fma f64 rm (decide (n % 2 = 1)) (decide (n = 61 ∨ n = 62)) b' a' d)
  | _ => none

/-- VFUNARY0: the conversions. The first of a pair of widths is the result's; a width of integers may be half a format's. -/
def floatConvert (c : Ctx) (v : Vec) (rm : Rm) : Out :=
  let n := rs1 v.w
  let isF (w : Nat) : Bool := decide (w = 32 ∨ w = 64)
  let mode := n % 8
  let rm' : Rm := if mode = 6 ∨ mode = 7 then .rtz else if n = 21 then .rod else rm
  let dw := if n / 8 = 1 then 2 * v.sew else v.sew
  let aw := if n / 8 = 2 then 2 * v.sew else v.sew
  let signed := decide (mode % 2 = 1)
  if 24 ≤ n ∨ !groupsOk { v with w := v.w - rs1 v.w * 2 ^ 15 + rs2 v.w * 2 ^ 15 } dw aw aw then bad c
  else
    let go (ok : Bool) (op : Nat → El) : Out :=
      if !ok then bad c
      else putGroup c v dw (v.l8 * dw / v.sew) v.vstart (active c v) fun i => op (ve c aw (rs2 v.w) i)
    match mode with
    | 0 | 1 | 6 | 7 => go (isF aw) fun a => elF (toInt (fmtOf aw) rm' signed dw a)
    | 2 => go (isF dw) fun a => elF (ofInt (fmtOf dw) rm' (a : Int))
    | 3 => go (isF dw) fun a => elF (ofInt (fmtOf dw) rm' (signedOf aw a))
    | 4 => go (decide (8 ≤ n) && isF dw && isF aw) fun a => elF (convert (fmtOf aw) (fmtOf dw) rm' a)
    | _ => go (decide (n = 21) && isF dw && isF aw) fun a => elF (convert (fmtOf aw) (fmtOf dw) rm' a)

/-- VFUNARY1. -/
def floatUnary (c : Ctx) (v : Vec) (rm : Rm) : Out :=
  let g := fmtOf v.sew
  let go (op : Nat → El) : Out :=
    if !groupOk (rd v.w) v.l8 || !groupOk (rs2 v.w) v.l8 || !maskOk v (rd v.w) then bad c
    else putGroup c v v.sew v.l8 v.vstart (active c v) fun i => op (ve c v.sew (rs2 v.w) i)
  match rs1 v.w with
  | 0 => go fun a => elF (sqrt g rm a)
  | 4 => go fun a => elF (rsqrt7 g a)
  | 5 => go fun a => elF (rec7 g rm a)
  | 16 => go fun a => ⟨classify g a, 0, false⟩
  | _ => bad c

/-- OPFVV and OPFVF. -/
def opFloat (c : Ctx) (v : Vec) : Out :=
  let n := f6 v.w
  let vv := decide (f3 v.w = 1)
  let g := fmtOf v.sew
  let isF := decide (v.sew = 32 ∨ v.sew = 64)
  match Rm.ofCode (c.k.fcsr.toNat / 32) with
  | none => bad c
  | some rm =>
    let sum (dw : Nat) (e : El) (a : Nat × Fl) : El := let r := add (fmtOf dw) rm e.val a.1; ⟨r.1, e.fl ||| r.2 ||| a.2, false⟩
    if n = 18 then (if vv then floatConvert c v rm else bad c)
    else if !isF then bad c
    else
      match n with
      | 0 | 2 | 4 | 6 | 8 | 9 | 10 | 32 | 36 => mapOp c v v.sew v.sew v.sew false fun a b _ => floatOp g rm n a b
      | 33 | 39 => if vv then bad c else mapOp c v v.sew v.sew v.sew false fun a b _ => floatOp g rm n a b
      | 1 | 3 => if vv then reduce c v v.sew fun e a => sum v.sew e (a, 0) else bad c
      | 5 | 7 => if vv then reduce c v v.sew fun e a => (let r := minMax g (decide (n = 7)) e.val a; ⟨r.1, e.fl ||| r.2, false⟩) else bad c
      | 14 => if vv then bad c else slideOne c v true (f c v.sew (rs1 v.w))
      | 15 => if vv then bad c else slideOne c v false (f c v.sew (rs1 v.w))
      | 16 =>
        if !vm v.w then bad c
        else if vv then (if rs1 v.w = 0 then finishV (setF c v.sew (rd v.w) (ve c v.sew (rs2 v.w) 0)) else bad c)
        else if rs2 v.w = 0 then putFirst c v v.sew ⟨f c v.sew (rs1 v.w), 0, false⟩
        else bad c
      | 19 => if vv then floatUnary c v rm else bad c
      | 23 => if vv then bad c else merge c v
      | 24 | 25 | 27 | 28 => mapCmp c v (floatCmp g n)
      | 29 | 31 => if vv then bad c else mapCmp c v (floatCmp g n)
      | 40 | 41 | 42 | 43 =>
        mapOp c v v.sew v.sew v.sew false fun a b d => some (elF (fma g rm (decide (n % 2 = 1)) (decide (n = 41 ∨ n = 42)) d b a))
      | 44 | 45 | 46 | 47 =>
        mapOp c v v.sew v.sew v.sew false fun a b d => some (elF (fma g rm (decide (n % 2 = 1)) (decide (n = 45 ∨ n = 46)) b a d))
      | 49 | 51 => if vv && decide (v.sew = 32) then reduce c v 64 fun e a => sum 64 e (wider a) else bad c
      | 52 | 54 => if v.sew = 32 then mapOp c v 64 64 32 false fun a b d => floatWide rm n a b d else bad c
      | _ => if v.sew = 32 then mapOp c v 64 32 32 false fun a b d => floatWide rm n a b d else bad c

/-! Loads and stores -/

/-- One element access: where it lies, the register group's first register and the element. -/
structure VAccess where
  addr : Nat
  reg : Nat
  elem : Nat
  deriving DecidableEq, Repr

/-- The kernel ends in the middle of a word. -/
def faulted (c : Ctx) (e : Code × Word) : Out := .ok (stop c (.fault e.1 e.2))

/-- Writes one element. -/
def setElem (c : Ctx) (ew r i v : Nat) : Ctx :=
  let per := vlen / ew
  let k := r + i / per
  let old := (Bank.get 0 c.k.v k).toNat
  let sh := ew * (i % per)
  { c with k := { c.k with v := Bank.set 0 c.k.v k (BitVec.ofNat 1024 (old + v * 2 ^ sh - elemOf ew old (i % per) * 2 ^ sh)) } }

/-- Performs accesses in element order; a fault ends the kernel there, or, for a fault-only-first load beyond element 0, cuts vl. -/
def vaccess (isLoad first : Bool) (ew : Nat) : List VAccess → Ctx → Out
  | [], c => finishV c
  | a :: r, c =>
    let fail (e : Code × Word) : Out :=
      if first && decide (a.elem ≠ 0) then finishV { c with k := { c.k with vl := a.elem } } else faulted c e
    if isLoad then
      match load c a.addr (ew / 8) with
      | .ok (v, c) => vaccess isLoad first ew r (setElem c ew a.reg a.elem v)
      | .error e => fail e
    else
      match store c a.addr (ew / 8) (ve c ew a.reg a.elem) with
      | .ok c => vaccess isLoad first ew r c
      | .error e => fail e

/-- The tail and the inactive elements of a load's groups follow their policy. -/
def settleLoad (c : Ctx) (v : Vec) (ew e8 nf : Nat) : Ctx :=
  if v.vl ≤ v.vstart then c
  else
    (List.range nf).foldl (fun c j =>
      let r := rd v.w + j * regsOf e8
      setGroup c ew r ((List.range (regsOf e8 * (vlen / ew))).map fun i =>
        let old := ve c ew r i
        if i < v.vstart then old else if i < v.vl then (if active c v i then old else agnostic c v.ma ew r i old) else agnostic c v.ta ew r i old)) c

/-- The accesses of the body elements from vstart on, by element and then by field of the segment. -/
def segments (c : Ctx) (v : Vec) (ew e8 nf : Nat) (addr : Nat → Nat) : List VAccess :=
  (((List.range v.vl).drop v.vstart).filter (active c v)).flatMap fun i =>
    (List.range nf).map fun j => ⟨(addr i + j * (ew / 8)) % 2 ^ 64, rd v.w + j * regsOf e8, i⟩

/-- Element widths of the vector accesses by funct3. -/
def eewOf : Nat → Option Nat
  | 0 => some 8 | 5 => some 16 | 6 => some 32 | 7 => some 64 | _ => none

/-- A vector load or store. -/
def vmem (c : Ctx) (w : Nat) (isLoad : Bool) : Out :=
  let base := (x c (rs1 w)).toNat
  let nf := nslice w 31 29 + 1
  let mop := nslice w 27 26
  let lumop := rs2 w
  match eewOf (f3 w) with
  | none => bad c
  | some ew =>
    if w.testBit 28 then bad c
    else if mop = 0 ∧ lumop = 8 then
      -- whole registers, under any vtype
      if !vm w || !(decide (nf = 1 ∨ nf = 2 ∨ nf = 4 ∨ nf = 8)) || decide (rd w % nf ≠ 0) || (!isLoad && decide (ew ≠ 8)) then bad c
      else
        let v : Vec := ⟨ew, 8 * nf, false, false, nf * (vlen / ew), c.k.vstart, w⟩
        vaccess isLoad false ew (segments c v ew (8 * nf) 1 fun i => base + i * (ew / 8)) c
    else
      match vecOf c w with
      | none => bad c
      | some v =>
        if mop = 0 ∧ lumop = 11 then
          -- a mask
          if !vm w || decide (ew ≠ 8 ∨ nf ≠ 1) then bad c
          else
            let v := { v with vl := ceilDiv v.vl 8, ta := true, l8 := 8 }
            let c := if isLoad then settleLoad c v 8 8 1 else c
            vaccess isLoad false 8 (segments c v 8 8 1 fun i => base + i) c
        else
          let indexed := decide (mop = 1 ∨ mop = 3)
          let dw := if indexed then v.sew else ew
          let d8 := v.l8 * dw / v.sew
          let i8 := v.l8 * ew / v.sew
          let whole := decide (mop = 0 ∧ lumop ≠ 0 ∧ lumop ≠ 16)
          let room := groupOk (rd w) d8 && decide (regsOf d8 * nf ≤ 8 ∧ rd w + regsOf d8 * nf ≤ 32) && (!isLoad || maskOk v (rd w))
          let indexOk := !indexed || (groupOk (rs2 w) i8 && (!isLoad ||
            (if nf = 1 then overlapOk (rd w) d8 dw (rs2 w) i8 ew else decide (rd w + regsOf d8 * nf ≤ rs2 w ∨ rs2 w + regsOf i8 ≤ rd w))))
          if whole || !room || !indexOk || (decide (mop = 0 ∧ lumop = 16) && !isLoad) then bad c
          else
            let stride : Nat := if mop = 2 then (x c (rs2 w)).toNat else nf * (ew / 8)
            let addr (i : Nat) : Nat := (base + if indexed then ve c ew (rs2 w) i else i * stride) % 2 ^ 64
            let l := segments c v dw d8 nf addr
            let c := if isLoad then settleLoad c v dw d8 nf else c
            vaccess isLoad (decide (mop = 0 ∧ lumop = 16)) dw l c

/-- One vector word. -/
def vector (c : Ctx) (w : Nat) (pc0 : Word) : Out :=
  let r : Out :=
    if w % 128 = 0x07 then vmem c w true
    else if w % 128 = 0x27 then vmem c w false
    else if f3 w = 7 then setVector c w
    else
      match vecOf c w with
      | none => bad c
      | some v =>
        match f3 w with
        | 0 | 3 | 4 => opInt c v
        | 2 | 6 => opMul c v
        | _ => opFloat c v
  match r with
  | .error _ => .error (.illegal, pc0)
  | r => r

/-- A word is a vector word. -/
def isVector (w : Nat) : Bool :=
  decide (w % 128 = 0x57) || (decide (w % 128 = 0x07 ∨ w % 128 = 0x27) && decide (f3 w = 0 ∨ 5 ≤ f3 w))

end Rv

/-- One instruction of the kernel on the near-memory core under the cursor (R366, R370, R371). -/
def execNearMemoryKernelInstruction (s : State) : Res :=
  let n := s.cur.unit
  if 24 ≤ n then .fault .noSuchUnit
  else
    let k := s.nmc n
    match k.launch, k.ended with
    | some (inst, seq), none =>
      match s.launches.find? fun l => decide (l.inst = inst ∧ l.seq = seq) with
      | none => .next s
      | some l =>
        let c : Rv.Ctx := ⟨s, k, n, l.asid, l.wlo, l.whi⟩
        let give (r : Rv.Out) : Res := match r with
          | .ok c => .next (c.s.setNmc n c.k)
          | .error (e, a) => .next (s.setNmc n { k with ended := some (.fault e a) })
        match Rv.fetch c with
        | .error e => give (.error e)
        | .ok (w, len) =>
          let c := Rv.goto (Rv.touch c k.pc.toNat) (k.pc + BitVec.ofNat 64 len)
          give (if Rv.isVector w then Rv.vector c w k.pc else Rv.scalar c w k.pc)
    | _, _ => .next s

end Sys2Proof.Machine
end

