-- ==== Sys2Proof/Machine/Scalar.lean ====
section
/-! DEFINITION. The sequencer's arithmetic (R101 to R109). -/

namespace Sys2Proof.Machine

/-- A sequencer word that only writes a scalar register: the register, then the end of the word (R69, R101). -/
def scalar (sd : SReg) (x : Word) (s : State) : Res := (s.wrS .sq sd x).done .sq

/-- Div (R103). -/
def divWord (uns : Bool) (a b : Word) : Word :=
  if b = 0 then BitVec.allOnes 64
  else if uns then BitVec.ofNat 64 (a.toNat / b.toNat)
  else BitVec.ofInt 64 (a.toInt.tdiv b.toInt)

/-- Rem (R103). -/
def remWord (uns : Bool) (a b : Word) : Word :=
  if b = 0 then a
  else if uns then BitVec.ofNat 64 (a.toNat % b.toNat)
  else BitVec.ofInt 64 (a.toInt.tmod b.toInt)

/-- The high half of the full product (R103). -/
def mulHigh (uns : Bool) (a b : Word) : Word :=
  if uns then BitVec.ofNat 64 (a.toNat * b.toNat / 2 ^ 64)
  else BitVec.ofInt 64 ((a.toInt * b.toInt).fdiv (2 ^ 64))

/-- The lesser value (R103). -/
def minWord (uns : Bool) (a b : Word) : Word := if (if uns then b.ult a else b.slt a) then b else a

/-- The greater value (R103). -/
def maxWord (uns : Bool) (a b : Word) : Word := if (if uns then a.ult b else a.slt b) then b else a

/-- A truth value as a register value (R103, R105). -/
def truth (c : Bool) : Word := if c then 1 else 0

/-- The number of leading zeros of a value of n bits (R107). -/
def leadingZeros (x : Nat) : Nat → Nat
  | 0 => 0
  | n + 1 => if x.testBit n then 0 else 1 + leadingZeros x n

/-- The field of len bits from pos, filled with zeros or with copies of its top bit (R109). -/
def extractField (signed : Bool) (a : Word) (pos len : Nat) : Word :=
  let f := (a.toNat >>> pos) % 2 ^ len
  if signed && f.testBit (len - 1) then BitVec.ofInt 64 ((f : Int) - (2 ^ len : Nat)) else BitVec.ofNat 64 f

/-- sd = sa + sb (R103). -/
def execAdd (sd sa sb : SReg) (s : State) : Res := scalar sd (s.rdS .sq sa + s.rdS .sq sb) s

/-- sd = sa - sb (R103). -/
def execSub (sd sa sb : SReg) (s : State) : Res := scalar sd (s.rdS .sq sa - s.rdS .sq sb) s

/-- sd = the low half of sa x sb (R103). -/
def execMul (sd sa sb : SReg) (s : State) : Res := scalar sd (s.rdS .sq sa * s.rdS .sq sb) s

/-- sd = the high half of sa x sb (R103). -/
def execMulh (uns : Bool) (sd sa sb : SReg) (s : State) : Res := scalar sd (mulHigh uns (s.rdS .sq sa) (s.rdS .sq sb)) s

/-- sd = the quotient (R103). -/
def execDiv (uns : Bool) (sd sa sb : SReg) (s : State) : Res := scalar sd (divWord uns (s.rdS .sq sa) (s.rdS .sq sb)) s

/-- sd = the remainder (R103). -/
def execRem (uns : Bool) (sd sa sb : SReg) (s : State) : Res := scalar sd (remWord uns (s.rdS .sq sa) (s.rdS .sq sb)) s

/-- sd = sa & sb (R103). -/
def execAnd (sd sa sb : SReg) (s : State) : Res := scalar sd (s.rdS .sq sa &&& s.rdS .sq sb) s

/-- sd = sa or sb (R103). -/
def execOr (sd sa sb : SReg) (s : State) : Res := scalar sd (s.rdS .sq sa ||| s.rdS .sq sb) s

/-- sd = sa ^ sb (R103). -/
def execXor (sd sa sb : SReg) (s : State) : Res := scalar sd (s.rdS .sq sa ^^^ s.rdS .sq sb) s

/-- sd = sa << sb[5:0] (R103). -/
def execShl (sd sa sb : SReg) (s : State) : Res := scalar sd (s.rdS .sq sa <<< slice (s.rdS .sq sb) 5 0) s

/-- sd = sa >> sb[5:0], zeros (R103). -/
def execShr (sd sa sb : SReg) (s : State) : Res := scalar sd (s.rdS .sq sa >>> slice (s.rdS .sq sb) 5 0) s

/-- sd = sa >> sb[5:0], sign copies (R103). -/
def execSra (sd sa sb : SReg) (s : State) : Res := scalar sd ((s.rdS .sq sa).sshiftRight (slice (s.rdS .sq sb) 5 0)) s

/-- sd = the lesser (R103). -/
def execMin (uns : Bool) (sd sa sb : SReg) (s : State) : Res := scalar sd (minWord uns (s.rdS .sq sa) (s.rdS .sq sb)) s

/-- sd = the greater (R103). -/
def execMax (uns : Bool) (sd sa sb : SReg) (s : State) : Res := scalar sd (maxWord uns (s.rdS .sq sa) (s.rdS .sq sb)) s

/-- sd = 1 if the condition holds on (sa, sb), else 0 (R103). -/
def execCmp (c : Cond) (sd sa sb : SReg) (s : State) : Res := scalar sd (truth (evalCond c (s.rdS .sq sa) (s.rdS .sq sb))) s

/-- sd = sa if sc is not 0, else sb (R103). -/
def execSel (sd sa sb sc : SReg) (s : State) : Res :=
  scalar sd (if s.rdS .sq sc ≠ 0 then s.rdS .sq sa else s.rdS .sq sb) s

/-- sd = sa + imm (R104). -/
def execAddi (sd sa : SReg) (imm : BitVec 32) (s : State) : Res := scalar sd (s.rdS .sq sa + sx imm) s

/-- sd = the low half of sa x imm (R104). -/
def execMuli (sd sa : SReg) (imm : BitVec 32) (s : State) : Res := scalar sd (s.rdS .sq sa * sx imm) s

/-- sd = sa & imm (R104). -/
def execAndi (sd sa : SReg) (imm : BitVec 32) (s : State) : Res := scalar sd (s.rdS .sq sa &&& sx imm) s

/-- sd = sa or imm (R104). -/
def execOri (sd sa : SReg) (imm : BitVec 32) (s : State) : Res := scalar sd (s.rdS .sq sa ||| sx imm) s

/-- sd = sa ^ imm (R104). -/
def execXori (sd sa : SReg) (imm : BitVec 32) (s : State) : Res := scalar sd (s.rdS .sq sa ^^^ sx imm) s

/-- sd = sa << n (R104). -/
def execShli (sd sa : SReg) (n : BitVec 6) (s : State) : Res := scalar sd (s.rdS .sq sa <<< n.toNat) s

/-- sd = sa >> n, zeros (R104). -/
def execShri (sd sa : SReg) (n : BitVec 6) (s : State) : Res := scalar sd (s.rdS .sq sa >>> n.toNat) s

/-- sd = sa >> n, sign copies (R104). -/
def execSrai (sd sa : SReg) (n : BitVec 6) (s : State) : Res := scalar sd ((s.rdS .sq sa).sshiftRight n.toNat) s

/-- sd = 1 if the condition holds on (sa, imm), imm sign-extended, else 0 (R105). -/
def execCmpi (c : Cond) (sd sa : SReg) (imm : BitVec 28) (s : State) : Res :=
  scalar sd (truth (evalCond c (s.rdS .sq sa) (sx imm))) s

/-- sd = imm, sign-extended (R106). -/
def execLi (sd : SReg) (imm : BitVec 38) (s : State) : Res := scalar sd (sx imm) s

/-- sd[63:26] = imm, sd[25:0] = 0 (R106). -/
def execLui (sd : SReg) (imm : BitVec 38) (s : State) : Res := scalar sd (zx imm <<< 26) s

/-- sd = leading zero bits of sa (R107). -/
def execClz (sd sa : SReg) (s : State) : Res := scalar sd (BitVec.ofNat 64 (leadingZeros (s.rdS .sq sa).toNat 64)) s

/-- sd = one bits of sa (R107). -/
def execPopc (sd sa : SReg) (s : State) : Res := scalar sd (BitVec.ofNat 64 (Flurry.popc (s.rdS .sq sa).toNat 64)) s

/-- sd = sa + (sb << sh) + imm (R108). -/
def execLea (sd sa sb : SReg) (sh : BitVec 3) (imm : BitVec 23) (s : State) : Res :=
  scalar sd (s.rdS .sq sa + (s.rdS .sq sb <<< sh.toNat) + sx imm) s

/-- sd = the field of sa of LEN bits at POS (R109). -/
def execExt (signed : Bool) (sd sa : SReg) (pos lenm1 : BitVec 6) (s : State) : Res :=
  scalar sd (extractField signed (s.rdS .sq sa) pos.toNat (lenm1.toNat + 1)) s

end Sys2Proof.Machine
end

