-- ==== Sys2Proof/Machine/System.lean ====
section
/-! DEFINITION. System registers (R22, R54, R80, R93, R124 to R126, R266, R276, R283, R284) and the writes inside them. -/

namespace Sys2Proof.Machine

/-- What a system register reads; none for an unassigned number (R124). -/
def State.readSys (s : State) (n : Nat) : Option Word :=
  let y := s.here.sys
  match n with
  | 0x000 => some y.mode
  | 0x001 => some y.flagsWord
  | 0x002 => some (y.slip.setWidth 64)
  | 0x003 => some (BitVec.ofNat 64 (y.wdCount.toNat * 2 ^ 32 + y.wdLimit.toNat))
  | 0x004 => some (BitVec.ofNat 64 ((if y.urgent then 2 ^ 49 else 0) + (if y.cls then 2 ^ 48 else 0) + y.asid.toNat * 2 ^ 32 +
      y.taskid.toNat))
  | 0x005 => some (BitVec.ofNat 64 (y.rmark.toNat * 2 ^ 32 + y.next.toNat))
  | 0x006 => some (State.sysCore s.cur.core y.part)
  | 0x007 => some s.coord
  | 0x008 => some s.mesh
  | 0x010 => some y.trapvec
  | 0x011 => some y.cause
  | 0x012 => some y.trapaddr
  | 0x013 => some y.trapsrc
  | 0x020 => some y.mxprog
  | _ => none

/-- A write of SYS.MODE: TOKLOST only (R80). -/
def Sys.writeMode (y : Sys) (v : Word) : Except Code Sys :=
  if bit v 0 = y.timed ∧ bit v 1 = y.det then .ok { y with toklost := BitVec.ofNat 8 (slice v 15 8) } else .error .illegal

/-- A write of SYS.SLIP (R93). -/
def Sys.writeSlip (y : Sys) (v : Word) : Except Code Sys :=
  let n := slice v 12 0
  if 1 ≤ n ∧ n ≤ 4096 then .ok { y with slip := BitVec.ofNat 13 n } else .error .illegal

/-- A write of SYS.WDOG: LIMIT, and COUNT returns to 0 (R276). -/
def Sys.writeWdog (y : Sys) (v : Word) : Except Code Sys :=
  let n := slice v 31 0
  if n = 0 then .error .illegal else .ok { y with wdLimit := BitVec.ofNat 32 n, wdCount := 0 }

/-- A write of SYS.TRAPCAUSE: every field but ACTIVE; a 0 clears OVF (R283). -/
def Sys.writeCause (y : Sys) (v : Word) : Except Code Sys :=
  .ok { y with cause := (v &&& 0xFFFFFFFFFFFF0FFF) ||| (y.cause &&& 0x8000) ||| (v &&& y.cause &&& 0x4000) }

/-- A write of one of the remaining writable registers (R54, R125, R284). -/
def Sys.writeOther (y : Sys) (n : Nat) (v : Word) : Except Code Sys :=
  match n with
  | 0x001 => .ok { y with flags := v.setWidth 7 }
  | 0x010 => .ok { y with trapvec := v &&& 0x01FFFFFFFFFFFFC1 }
  | 0x012 => .ok { y with trapaddr := v }
  | 0x013 => .ok { y with trapsrc := v }
  | _ => .error .illegal

/-- A write of a system register (R124, R125). -/
def Sys.write (y : Sys) (n : Nat) (v : Word) : Except Code Sys :=
  match n with
  | 0x000 => y.writeMode v
  | 0x002 => y.writeSlip v
  | 0x003 => y.writeWdog v
  | 0x011 => y.writeCause v
  | n => y.writeOther n v

/-- A read of a system register by the sequencer; of SYS.FLAGS it takes the contributions that come before it (R56). -/
def State.fetchSys (s : State) (n : Nat) : Option (Word × State) :=
  if n = 1 then some ((s.here.readFlags s.free).1.setWidth 64, s.upd fun k => (k.readFlags s.free).2)
  else (s.readSys n).map fun v => (v, s)

/-- sd = the system register (R125). -/
def execRsys (sd : SReg) (n : BitVec 12) (s : State) : Res :=
  match s.fetchSys n.toNat with
  | none => s.trap .sq .illegal
  | some (v, t) => (t.wrS .sq sd v).done .sq

/-- Writes the system registers of the core under the cursor. In timed mode a new slip bound applies from the cycle after the write
(R93). -/
def State.setSys (s : State) (y : Sys) : State :=
  s.upd fun k => { k with sys := y, slipWas := if k.sys.timed then some (k.cyc, k.sys.slip) else k.slipWas }

/-- A write of a system register; one of SYS.FLAGS stands between the contributions that come before it and those that come after (R56,
R125). -/
def State.putSys (s : State) (n : Nat) (v : Word) : Except Code State :=
  match s.here.sys.write n v with
  | .error c => .error c
  | .ok y => .ok (if n = 1 then s.upd fun k => k.writeFlags s.free (v.setWidth 7) else s.setSys y)

/-- A system register = sa (R125). -/
def execWsys (n : BitVec 12) (sa : SReg) (s : State) : Res :=
  orTrap s .sq (s.putSys n.toNat (s.rdS .sq sa)) fun t => t.done .sq

/-- Reads and writes a system register at one point (R125, R126). -/
def execXsys (sd : SReg) (n : BitVec 12) (sa : SReg) (s : State) : Res :=
  match s.fetchSys n.toNat with
  | none => s.trap .sq .illegal
  | some (v, _) => orTrap s .sq (s.putSys n.toNat (s.rdS .sq sa)) fun t => (t.wrS .sq sd v).done .sq

/-- The write inside a wsys or xsys of a running task: the register or the fault that its rule names (R125). -/
def sysWrite (n : Nat) (v : Word) (s : State) : Res :=
  if !s.here.runs then .next s else orTrap s .sq (s.putSys n v) .next

/-- A write to SYS.MODE (R80). -/
def execWriteSysMode (v : Word) (s : State) : Res := sysWrite 0x000 v s

/-- A write to SYS.SLIP (R93). -/
def execWriteSysSlip (v : Word) (s : State) : Res := sysWrite 0x002 v s

/-- A write to SYS.WDOG (R276). -/
def execWriteSysWdog (v : Word) (s : State) : Res := sysWrite 0x003 v s

/-- A write to SYS.TRAPCAUSE (R283). -/
def execWriteSysTrapcause (v : Word) (s : State) : Res := sysWrite 0x011 v s

/-- A write to SYS.FLAGS, TRAPVEC, TRAPADDR or TRAPSRC; any other number is none of them (R124, R125). -/
def execWriteSysRegister (n : BitVec 12) (v : Word) (s : State) : Res :=
  if [0x000, 0x002, 0x003, 0x011].contains n.toNat then (if !s.here.runs then .next s else s.trap .sq .illegal) else sysWrite n.toNat v s

end Sys2Proof.Machine
end

