-- ==== Sys2Proof/Machine/Traps.lean ====
section
/-! DEFINITION. Trap instructions and the delivery of asynchronous events (R287, R289 to R294). -/

namespace Sys2Proof.Machine

/-- Raises SOFTWARE with ARG = imm (R290). -/
def execTrap (imm : BitVec 16) (s : State) : Res := s.trap .sq .software imm

/-- The task is abandoned under a code: the core stops issuing (R288). -/
def Core.abandon (k : Core) (code : Code) (inHandler : Bool) : Core := { k.stopOthers with phase := .abandoning code inHandler }

/-- tret: every engine resumes at its held position (R291). -/
def execTret (s : State) : Res :=
  match s.here.phase, s.here.frame with
  | .handler, some f => .next (s.upd fun k => k.resumeFrame f)
  | _, _ => s.trap .sq .illegal

/-- tret.skip: the faulting engine resumes at the word after the faulting word (R291). -/
def execTretSkip (s : State) : Res :=
  match s.here.phase, s.here.frame with
  | .handler, some f =>
    if f.isAsync || f.tag6 then s.trap .sq .illegal
    else .next (s.upd fun k =>
      (k.resumeFrame f).onEn (Eng.ofTag f.eng) fun x => { x with pc := x.pc + 8, walk := x.walk + 1, src := 0 })
  | _, _ => s.trap .sq .illegal

/-- tret.abandon: the task is abandoned (R288, R291). -/
def execTretAbandon (s : State) : Res :=
  if s.here.phase = .handler then
    .next (s.upd fun k => k.abandon (BitVec.ofNat 8 (slice k.sys.cause 7 0)) true)
  else s.trap .sq .illegal

/-- An event into SYS.TRAPCAUSE and SYS.TRAPADDR; ACTIVE and OVF stay (R283, R292). -/
def Sys.takeEvent (y : Sys) (ev : AsyncEv) : Sys :=
  { y with cause := ((ev.cause ||| 0x0800) &&& 0xFFFFFFFFFFFF0FFF) ||| (y.cause &&& 0xC000), trapaddr := ev.addr }

/-- Counts the queued events and takes the oldest (R292). -/
def execTack (sd : SReg) (s : State) : Res :=
  let n : Word := BitVec.ofNat 64 s.here.events.length
  let s := match s.here.events with
    | [] => s
    | ev :: r => s.upd fun k => { k with events := r, sys := k.sys.takeEvent ev }
  (s.wrS .sq sd n).done .sq

/-- Reads and writes the mask of asynchronous events (R293). -/
def execTmask (sd sa : SReg) (s : State) : Res :=
  let a := s.rdS .sq sa
  if 2 ≤ a.toNat then s.trap .sq .illegal
  else
    let old : Word := if s.here.tmask then 1 else 0
    ((s.upd fun k => { k with tmask := bit a 0 }).wrS .sq sd old).done .sq

/-- The 128 bytes of the held frame (R294). -/
def frameBytes (f : Frame) (region : Word) : List Byte :=
  (f.pcs.flatMap fun w => toBytes 8 w.toNat) ++ (f.occupancy.flatMap fun n => toBytes 2 n) ++ toBytes 4 0 ++
    (f.tokens.map fun n => BitVec.ofNat 8 n) ++ toBytes 2 0 ++ toBytes 8 f.mode.toNat ++ toBytes 8 region.toNat ++ toBytes 16 0

/-- Writes the held frame to memory (R294). -/
def execTsave (sa : SReg) (s : State) : Res :=
  match s.here.phase, s.here.frame with
  | .handler, some f =>
    let va := (s.rdS .sq sa).toNat
    if 2 ^ 57 ≤ va then s.trap .sq .addrRange
    else if va % 64 ≠ 0 then s.trap .sq .misalign
    else
      orTrap s .sq (s.check va 128 .write) fun p =>
        let hit := match p with
          | .spad key => s.conflicts .sq [(key, key + 128)] true
          | .glob => false
        if hit then s.trap .sq .overlap
        else (s.store .sq va (frameBytes f s.here.regionEntry)).done .sq
  | _, _ => s.trap .sq .illegal

/-- The oldest event is delivered where no handler runs, the mask is clear and no synchronous trap waits (R285, R287); a request for which
the sequencer waits is withdrawn first, and its outcome decides the held position: no engine starts a word until then (R324). -/
def execAsyncEventDelivery (s : State) : Res :=
  let k := s.here
  match k.events with
  | [] => .next s
  | ev :: r =>
    if k.phase ≠ .running ∨ k.tmask ∨ k.finishing none ∨ k.trapHeld.isSome then .next s
    else if k.requesting then .next (s.upd fun k => { k.withdrawWait with eventHeld := true })
    else
      let s := s.landAll s.cur.core
      .next (s.upd fun k =>
        let k := { k with events := r, eventHeld := false, sys := { k.sys.takeEvent ev with trapsrc := 0 } }
        k.deliver (BitVec.ofNat 8 (slice ev.cause 7 0)) (slice ev.cause 10 8) true false)

end Sys2Proof.Machine
end

