-- ==== Sys2Proof/Machine/Dispatch.lean ====
section
/-! DEFINITION. One arm for each row of the opcode table, in the table's order: a direct call of the row's meaning. -/

namespace Sys2Proof.Machine

/-- The meaning of an instruction of the engine under the cursor, or of an event. -/
def exec (i : Instr) (s : State) : Host.Outcome State Fault Refusal :=
  match i with
  | .add x0 x1 x2 => Sys2Proof.Machine.execAdd x0 x1 x2 s
  | .sub x0 x1 x2 => Sys2Proof.Machine.execSub x0 x1 x2 s
  | .mul x0 x1 x2 => Sys2Proof.Machine.execMul x0 x1 x2 s
  | .mulh x0 x1 x2 x3 => Sys2Proof.Machine.execMulh x0 x1 x2 x3 s
  | .div x0 x1 x2 x3 => Sys2Proof.Machine.execDiv x0 x1 x2 x3 s
  | .rem x0 x1 x2 x3 => Sys2Proof.Machine.execRem x0 x1 x2 x3 s
  | .and x0 x1 x2 => Sys2Proof.Machine.execAnd x0 x1 x2 s
  | .or x0 x1 x2 => Sys2Proof.Machine.execOr x0 x1 x2 s
  | .xor x0 x1 x2 => Sys2Proof.Machine.execXor x0 x1 x2 s
  | .shl x0 x1 x2 => Sys2Proof.Machine.execShl x0 x1 x2 s
  | .shr x0 x1 x2 => Sys2Proof.Machine.execShr x0 x1 x2 s
  | .sra x0 x1 x2 => Sys2Proof.Machine.execSra x0 x1 x2 s
  | .min x0 x1 x2 x3 => Sys2Proof.Machine.execMin x0 x1 x2 x3 s
  | .max x0 x1 x2 x3 => Sys2Proof.Machine.execMax x0 x1 x2 x3 s
  | .cmp x0 x1 x2 x3 => Sys2Proof.Machine.execCmp x0 x1 x2 x3 s
  | .sel x0 x1 x2 x3 => Sys2Proof.Machine.execSel x0 x1 x2 x3 s
  | .addi x0 x1 x2 => Sys2Proof.Machine.execAddi x0 x1 x2 s
  | .muli x0 x1 x2 => Sys2Proof.Machine.execMuli x0 x1 x2 s
  | .andi x0 x1 x2 => Sys2Proof.Machine.execAndi x0 x1 x2 s
  | .ori x0 x1 x2 => Sys2Proof.Machine.execOri x0 x1 x2 s
  | .xori x0 x1 x2 => Sys2Proof.Machine.execXori x0 x1 x2 s
  | .shli x0 x1 x2 => Sys2Proof.Machine.execShli x0 x1 x2 s
  | .shri x0 x1 x2 => Sys2Proof.Machine.execShri x0 x1 x2 s
  | .srai x0 x1 x2 => Sys2Proof.Machine.execSrai x0 x1 x2 s
  | .cmpi x0 x1 x2 x3 => Sys2Proof.Machine.execCmpi x0 x1 x2 x3 s
  | .li x0 x1 => Sys2Proof.Machine.execLi x0 x1 s
  | .lui x0 x1 => Sys2Proof.Machine.execLui x0 x1 s
  | .clz x0 x1 => Sys2Proof.Machine.execClz x0 x1 s
  | .popc x0 x1 => Sys2Proof.Machine.execPopc x0 x1 s
  | .lea x0 x1 x2 x3 x4 => Sys2Proof.Machine.execLea x0 x1 x2 x3 x4 s
  | .ext x0 x1 x2 x3 x4 => Sys2Proof.Machine.execExt x0 x1 x2 x3 x4 s
  | .ld x0 x1 x2 x3 => Sys2Proof.Machine.execLd x0 x1 x2 x3 s
  | .st x0 x1 x2 x3 => Sys2Proof.Machine.execSt x0 x1 x2 x3 s
  | .pf x0 x1 x2 => Sys2Proof.Machine.execPf x0 x1 x2 s
  | .ldacq x0 x1 x2 x3 x4 => Sys2Proof.Machine.execLdacq x0 x1 x2 x3 x4 s
  | .strel x0 x1 x2 x3 x4 => Sys2Proof.Machine.execStrel x0 x1 x2 x3 x4 s
  | .amo x0 => Sys2Proof.Machine.execAmo x0 s
  | .amocas x0 x1 x2 x3 x4 x5 x6 => Sys2Proof.Machine.execAmocas x0 x1 x2 x3 x4 x5 x6 s
  | .red x0 => Sys2Proof.Machine.execRed x0 s
  | .fence x0 x1 => Sys2Proof.Machine.execFence x0 x1 s
  | .qalign => Sys2Proof.Machine.execQalign s
  | .rsys x0 x1 => Sys2Proof.Machine.execRsys x0 x1 s
  | .wsys x0 x1 => Sys2Proof.Machine.execWsys x0 x1 s
  | .xsys x0 x1 x2 => Sys2Proof.Machine.execXsys x0 x1 x2 s
  | .writeSysMode x0 => Sys2Proof.Machine.execWriteSysMode x0 s
  | .writeSysSlip x0 => Sys2Proof.Machine.execWriteSysSlip x0 s
  | .writeSysWdog x0 => Sys2Proof.Machine.execWriteSysWdog x0 s
  | .writeSysTrapcause x0 => Sys2Proof.Machine.execWriteSysTrapcause x0 s
  | .writeSysRegister x0 x1 => Sys2Proof.Machine.execWriteSysRegister x0 x1 s
  | .yield x0 => Sys2Proof.Machine.execYield x0 s
  | .yieldEnd => Sys2Proof.Machine.execYieldEnd s
  | .tend => Sys2Proof.Machine.execTend s
  | .renq x0 x1 x2 => Sys2Proof.Machine.execRenq x0 x1 x2 s
  | .renqQueueRoom => Sys2Proof.Machine.execRenqQueueRoom s
  | .seqw x0 x1 => Sys2Proof.Machine.execSeqw x0 x1 s
  | .seqget x0 x1 x2 => Sys2Proof.Machine.execSeqget x0 x1 x2 s
  | .prio x0 x1 => Sys2Proof.Machine.execPrio x0 x1 s
  | .appt x0 x1 x2 x3 => Sys2Proof.Machine.execAppt x0 x1 x2 x3 s
  | .trap x0 => Sys2Proof.Machine.execTrap x0 s
  | .tret => Sys2Proof.Machine.execTret s
  | .tretSkip => Sys2Proof.Machine.execTretSkip s
  | .tretAbandon => Sys2Proof.Machine.execTretAbandon s
  | .tack x0 => Sys2Proof.Machine.execTack x0 s
  | .tmask x0 x1 => Sys2Proof.Machine.execTmask x0 x1 s
  | .tsave x0 => Sys2Proof.Machine.execTsave x0 s
  | .cpld x0 x1 => Sys2Proof.Machine.execCpld x0 x1 s
  | .cpst x0 x1 => Sys2Proof.Machine.execCpst x0 x1 s
  | .cpg x0 x1 => Sys2Proof.Machine.execCpg x0 x1 s
  | .cpsc x0 x1 => Sys2Proof.Machine.execCpsc x0 x1 s
  | .cpmem x0 x1 => Sys2Proof.Machine.execCpmem x0 x1 s
  | .cpcancel x0 => Sys2Proof.Machine.execCpcancel x0 s
  | .barinit x0 x1 x2 => Sys2Proof.Machine.execBarinit x0 x1 x2 s
  | .barexp x0 x1 => Sys2Proof.Machine.execBarexp x0 x1 s
  | .barar x0 x1 x2 => Sys2Proof.Machine.execBarar x0 x1 x2 s
  | .bartry x0 x1 x2 => Sys2Proof.Machine.execBartry x0 x1 x2 s
  | .barwait x0 x1 => Sys2Proof.Machine.execBarwait x0 x1 s
  | .barwaitSatisfied => Sys2Proof.Machine.execBarwaitSatisfied s
  | .waita x0 x1 => Sys2Proof.Machine.execWaita x0 x1 s
  | .waitaSatisfied => Sys2Proof.Machine.execWaitaSatisfied s
  | .rgclaim x0 x1 => Sys2Proof.Machine.execRgclaim x0 x1 s
  | .rgclaimSatisfied => Sys2Proof.Machine.execRgclaimSatisfied s
  | .rgfill x0 x1 => Sys2Proof.Machine.execRgfill x0 x1 s
  | .rgwaitf x0 x1 => Sys2Proof.Machine.execRgwaitf x0 x1 s
  | .rgwaitfSatisfied => Sys2Proof.Machine.execRgwaitfSatisfied s
  | .rgrel x0 x1 => Sys2Proof.Machine.execRgrel x0 x1 s
  | .rgtry x0 x1 => Sys2Proof.Machine.execRgtry x0 x1 s
  | .mxfmt x0 x1 x2 => Sys2Proof.Machine.execMxfmt x0 x1 x2 s
  | .mxcfg x0 x1 => Sys2Proof.Machine.execMxcfg x0 x1 s
  | .mxcfgl x0 => Sys2Proof.Machine.execMxcfgl x0 s
  | .mxcancel x0 => Sys2Proof.Machine.execMxcancel x0 s
  | .mxcancelAll x0 => Sys2Proof.Machine.execMxcancelAll x0 s
  | .mxprog x0 => Sys2Proof.Machine.execMxprog x0 s
  | .mxprogQ x0 => Sys2Proof.Machine.execMxprogQ x0 s
  | .gset x0 x1 x2 => Sys2Proof.Machine.execGset x0 x1 x2 s
  | .gget x0 x1 x2 => Sys2Proof.Machine.execGget x0 x1 x2 s
  | .gskip x0 x1 x2 => Sys2Proof.Machine.execGskip x0 x1 x2 s
  | .gsave x0 x1 => Sys2Proof.Machine.execGsave x0 x1 s
  | .gload x0 x1 => Sys2Proof.Machine.execGload x0 x1 s
  | .gdraw x0 x1 => Sys2Proof.Machine.execGdraw x0 x1 s
  | .gkey x0 x1 x2 => Sys2Proof.Machine.execGkey x0 x1 x2 s
  | .mdep x0 x1 x2 => Sys2Proof.Machine.execMdep x0 x1 x2 s
  | .mdepCreditFree => Sys2Proof.Machine.execMdepCreditFree s
  | .mrd x0 x1 x2 => Sys2Proof.Machine.execMrd x0 x1 x2 s
  | .mtake x0 x1 x2 => Sys2Proof.Machine.execMtake x0 x1 x2 s
  | .mtrydep x0 x1 x2 => Sys2Proof.Machine.execMtrydep x0 x1 x2 s
  | .mtryrd x0 x1 x2 => Sys2Proof.Machine.execMtryrd x0 x1 x2 s
  | .mtrytk x0 x1 x2 => Sys2Proof.Machine.execMtrytk x0 x1 x2 s
  | .mwithdraw x0 x1 x2 => Sys2Proof.Machine.execMwithdraw x0 x1 x2 s
  | .mapld x0 x1 => Sys2Proof.Machine.execMapld x0 x1 s
  | .mapst x0 x1 => Sys2Proof.Machine.execMapst x0 x1 s
  | .mapset x0 x1 x2 => Sys2Proof.Machine.execMapset x0 x1 x2 s
  | .mapbind x0 x1 => Sys2Proof.Machine.execMapbind x0 x1 s
  | .mapbindU x0 => Sys2Proof.Machine.execMapbindU x0 s
  | .rshd x0 x1 x2 x3 x4 x5 x6 => Sys2Proof.Machine.execRshd x0 x1 x2 x3 x4 x5 x6 s
  | .rshdq x0 x1 x2 x3 x4 => Sys2Proof.Machine.execRshdq x0 x1 x2 x3 x4 s
  | .clgrp x0 x1 x2 => Sys2Proof.Machine.execClgrp x0 x1 x2 s
  | .clrun x0 x1 => Sys2Proof.Machine.execClrun x0 x1 s
  | .clchunk x0 x1 => Sys2Proof.Machine.execClchunk x0 x1 s
  | .clstatCc x0 x1 => Sys2Proof.Machine.execClstatCc x0 x1 s
  | .clstatGrp x0 x1 => Sys2Proof.Machine.execClstatGrp x0 x1 s
  | .nmrun x0 x1 => Sys2Proof.Machine.execNmrun x0 x1 s
  | .nmstat x0 x1 => Sys2Proof.Machine.execNmstat x0 x1 s
  | .nmstop x0 x1 => Sys2Proof.Machine.execNmstop x0 x1 s
  | .vld x0 => Sys2Proof.Machine.execVld x0 s
  | .vldg x0 => Sys2Proof.Machine.execVldg x0 s
  | .vldx x0 => Sys2Proof.Machine.execVldx x0 s
  | .vldt x0 => Sys2Proof.Machine.execVldt x0 s
  | .vldb x0 => Sys2Proof.Machine.execVldb x0 s
  | .vldm x0 x1 x2 => Sys2Proof.Machine.execVldm x0 x1 x2 s
  | .vlda x0 x1 x2 => Sys2Proof.Machine.execVlda x0 x1 x2 s
  | .vlpf x0 => Sys2Proof.Machine.execVlpf x0 s
  | .xtr x0 x1 x2 => Sys2Proof.Machine.execXtr x0 x1 x2 s
  | .xunpk x0 x1 x2 => Sys2Proof.Machine.execXunpk x0 x1 x2 s
  | .xpk x0 x1 x2 => Sys2Proof.Machine.execXpk x0 x1 x2 s
  | .xhq x0 x1 x2 x3 x4 x5 x6 => Sys2Proof.Machine.execXhq x0 x1 x2 x3 x4 x5 x6 s
  | .xhdq x0 x1 x2 x3 x4 x5 x6 => Sys2Proof.Machine.execXhdq x0 x1 x2 x3 x4 x5 x6 s
  | .xperm x0 x1 x2 => Sys2Proof.Machine.execXperm x0 x1 x2 s
  | .xcat x0 x1 x2 x3 => Sys2Proof.Machine.execXcat x0 x1 x2 x3 s
  | .mxgo => Sys2Proof.Machine.execMxgo s
  | .mxgoResume => Sys2Proof.Machine.execMxgoResume s
  | .mxgoQueueRoom => Sys2Proof.Machine.execMxgoQueueRoom s
  | .mxzero x0 x1 => Sys2Proof.Machine.execMxzero x0 x1 s
  | .mxsync => Sys2Proof.Machine.execMxsync s
  | .vadd x0 => Sys2Proof.Machine.execVadd x0 s
  | .vsub x0 => Sys2Proof.Machine.execVsub x0 s
  | .vmul x0 => Sys2Proof.Machine.execVmul x0 s
  | .vfma x0 => Sys2Proof.Machine.execVfma x0 s
  | .vfms x0 => Sys2Proof.Machine.execVfms x0 s
  | .vmin x0 => Sys2Proof.Machine.execVmin x0 s
  | .vmax x0 => Sys2Proof.Machine.execVmax x0 s
  | .vabs x0 => Sys2Proof.Machine.execVabs x0 s
  | .vneg x0 => Sys2Proof.Machine.execVneg x0 s
  | .vdiv x0 => Sys2Proof.Machine.execVdiv x0 s
  | .vsqrt x0 => Sys2Proof.Machine.execVsqrt x0 s
  | .vand x0 => Sys2Proof.Machine.execVand x0 s
  | .vor x0 => Sys2Proof.Machine.execVor x0 s
  | .vxor x0 => Sys2Proof.Machine.execVxor x0 s
  | .vnot x0 => Sys2Proof.Machine.execVnot x0 s
  | .vshl x0 => Sys2Proof.Machine.execVshl x0 s
  | .vshr x0 => Sys2Proof.Machine.execVshr x0 s
  | .vsra x0 => Sys2Proof.Machine.execVsra x0 s
  | .vadds x0 => Sys2Proof.Machine.execVadds x0 s
  | .vsubs x0 => Sys2Proof.Machine.execVsubs x0 s
  | .vcvt x0 x1 x2 x3 x4 x5 x6 x7 => Sys2Proof.Machine.execVcvt x0 x1 x2 x3 x4 x5 x6 x7 s
  | .vcvtmx x0 => Sys2Proof.Machine.execVcvtmx x0 s
  | .vdqmx x0 => Sys2Proof.Machine.execVdqmx x0 s
  | .vcmp x0 x1 x2 x3 x4 x5 x6 => Sys2Proof.Machine.execVcmp x0 x1 x2 x3 x4 x5 x6 s
  | .vsel x0 x1 x2 x3 x4 x5 => Sys2Proof.Machine.execVsel x0 x1 x2 x3 x4 x5 s
  | .vmov x0 => Sys2Proof.Machine.execVmov x0 s
  | .vbcast x0 x1 x2 x3 => Sys2Proof.Machine.execVbcast x0 x1 x2 x3 s
  | .vperm x0 => Sys2Proof.Machine.execVperm x0 s
  | .vslide x0 x1 x2 x3 x4 => Sys2Proof.Machine.execVslide x0 x1 x2 x3 x4 s
  | .viota x0 => Sys2Proof.Machine.execViota x0 s
  | .vaddi x0 => Sys2Proof.Machine.execVaddi x0 s
  | .vmuli x0 => Sys2Proof.Machine.execVmuli x0 s
  | .vandi x0 => Sys2Proof.Machine.execVandi x0 s
  | .vori x0 => Sys2Proof.Machine.execVori x0 s
  | .vshli x0 => Sys2Proof.Machine.execVshli x0 s
  | .vshri x0 => Sys2Proof.Machine.execVshri x0 s
  | .vcmpi x0 x1 x2 x3 x4 x5 => Sys2Proof.Machine.execVcmpi x0 x1 x2 x3 x4 x5 s
  | .vli x0 => Sys2Proof.Machine.execVli x0 s
  | .vmand x0 x1 x2 x3 => Sys2Proof.Machine.execVmand x0 x1 x2 x3 s
  | .vmor x0 x1 x2 x3 => Sys2Proof.Machine.execVmor x0 x1 x2 x3 s
  | .vmxor x0 x1 x2 x3 => Sys2Proof.Machine.execVmxor x0 x1 x2 x3 s
  | .vmnot x0 x1 x2 => Sys2Proof.Machine.execVmnot x0 x1 x2 s
  | .vmpop x0 x1 x2 => Sys2Proof.Machine.execVmpop x0 x1 x2 s
  | .vmfirst x0 x1 x2 => Sys2Proof.Machine.execVmfirst x0 x1 x2 s
  | .vredsum x0 => Sys2Proof.Machine.execVredsum x0 s
  | .vredmax x0 => Sys2Proof.Machine.execVredmax x0 s
  | .vredmin x0 => Sys2Proof.Machine.execVredmin x0 s
  | .vdot x0 => Sys2Proof.Machine.execVdot x0 s
  | .vexp2 x0 => Sys2Proof.Machine.execVexp2 x0 s
  | .vlog2 x0 => Sys2Proof.Machine.execVlog2 x0 s
  | .vrcp x0 => Sys2Proof.Machine.execVrcp x0 s
  | .vrsqrt x0 => Sys2Proof.Machine.execVrsqrt x0 s
  | .vsinT x0 => Sys2Proof.Machine.execVsinT x0 s
  | .vcosT x0 => Sys2Proof.Machine.execVcosT x0 s
  | .vupd x0 x1 x2 => Sys2Proof.Machine.execVupd x0 x1 x2 s
  | .vupdChunk => Sys2Proof.Machine.execVupdChunk s
  | .gfill x0 x1 x2 x3 x4 => Sys2Proof.Machine.execGfill x0 x1 x2 x3 x4 s
  | .gfillS x0 x1 x2 x3 => Sys2Proof.Machine.execGfillS x0 x1 x2 x3 s
  | .vaccr x0 x1 x2 x3 => Sys2Proof.Machine.execVaccr x0 x1 x2 x3 s
  | .vaccw x0 x1 x2 x3 => Sys2Proof.Machine.execVaccw x0 x1 x2 x3 s
  | .vst x0 => Sys2Proof.Machine.execVst x0 s
  | .vsc x0 => Sys2Proof.Machine.execVsc x0 s
  | .vsx x0 => Sys2Proof.Machine.execVsx x0 s
  | .vsdrain x0 x1 x2 x3 x4 x5 x6 x7 x8 x9 x10 => Sys2Proof.Machine.execVsdrain x0 x1 x2 x3 x4 x5 x6 x7 x8 x9 x10 s
  | .vsm x0 x1 x2 => Sys2Proof.Machine.execVsm x0 x1 x2 s
  | .vsa x0 x1 x2 x3 => Sys2Proof.Machine.execVsa x0 x1 x2 x3 s
  | .br x0 x1 x2 x3 => Sys2Proof.Machine.execBr x0 x1 x2 x3 s
  | .jmp x0 x1 => Sys2Proof.Machine.execJmp x0 x1 s
  | .jmpr x0 x1 => Sys2Proof.Machine.execJmpr x0 x1 s
  | .lpset x0 x1 x2 x3 => Sys2Proof.Machine.execLpset x0 x1 x2 x3 s
  | .lpend x0 x1 => Sys2Proof.Machine.execLpend x0 x1 s
  | .idem x0 => Sys2Proof.Machine.execIdem x0 s
  | .modeTimed => Sys2Proof.Machine.execModeTimed s
  | .modeInter => Sys2Proof.Machine.execModeInter s
  | .start => Sys2Proof.Machine.execStart s
  | .nop => Sys2Proof.Machine.execNop s
  | .asyncEventDelivery => Sys2Proof.Machine.execAsyncEventDelivery s
  | .abandonmentComplete => Sys2Proof.Machine.execAbandonmentComplete s
  | .watchdog => Sys2Proof.Machine.execWatchdog s
  | .taskDispatch => Sys2Proof.Machine.execTaskDispatch s
  | .preemption => Sys2Proof.Machine.execPreemption s
  | .saveComplete => Sys2Proof.Machine.execSaveComplete s
  | .resumption => Sys2Proof.Machine.execResumption s
  | .nestStart => Sys2Proof.Machine.execNestStart s
  | .nestLoadW => Sys2Proof.Machine.execNestLoadW s
  | .nestRow => Sys2Proof.Machine.execNestRow s
  | .nestDrain => Sys2Proof.Machine.execNestDrain s
  | .chunkCountIncrement x0 x1 => Sys2Proof.Machine.execChunkCountIncrement x0 x1 s
  | .copyStart x0 x1 x2 => Sys2Proof.Machine.execCopyStart x0 x1 x2 s
  | .copyPacketLand x0 x1 x2 x3 x4 => Sys2Proof.Machine.execCopyPacketLand x0 x1 x2 x3 x4 s
  | .signalArrival x0 => Sys2Proof.Machine.execSignalArrival x0 s
  | .signalNack => Sys2Proof.Machine.execSignalNack s
  | .remoteAccessRequest x0 => Sys2Proof.Machine.execRemoteAccessRequest x0 s
  | .remoteResponse x0 x1 x2 => Sys2Proof.Machine.execRemoteResponse x0 x1 x2 s
  | .moraineRequest x0 => Sys2Proof.Machine.execMoraineRequest x0 s
  | .moraineDeposit x0 => Sys2Proof.Machine.execMoraineDeposit x0 s
  | .moraineWithdrawal x0 => Sys2Proof.Machine.execMoraineWithdrawal x0 s
  | .moraineResend => Sys2Proof.Machine.execMoraineResend s
  | .moraineReply x0 => Sys2Proof.Machine.execMoraineReply x0 s
  | .depositAck x0 => Sys2Proof.Machine.execDepositAck x0 s
  | .hopForward x0 => Sys2Proof.Machine.execHopForward x0 s
  | .hopAdd x0 => Sys2Proof.Machine.execHopAdd x0 s
  | .hopMulticast x0 => Sys2Proof.Machine.execHopMulticast x0 s
  | .hopDeliver x0 => Sys2Proof.Machine.execHopDeliver x0 s
  | .callStart x0 x1 x2 => Sys2Proof.Machine.execCallStart x0 x1 x2 s
  | .chunkSend x0 x1 x2 => Sys2Proof.Machine.execChunkSend x0 x1 x2 s
  | .callDelivery x0 x1 x2 x3 => Sys2Proof.Machine.execCallDelivery x0 x1 x2 x3 s
  | .callComplete => Sys2Proof.Machine.execCallComplete s
  | .collHoldExpiry => Sys2Proof.Machine.execCollHoldExpiry s
  | .memberReturn x0 => Sys2Proof.Machine.execMemberReturn x0 s
  | .reshardStart x0 x1 x2 => Sys2Proof.Machine.execReshardStart x0 x1 x2 s
  | .reshardTile x0 x1 x2 x3 => Sys2Proof.Machine.execReshardTile x0 x1 x2 x3 s
  | .reshardSwitch => Sys2Proof.Machine.execReshardSwitch s
  | .reshardSignal => Sys2Proof.Machine.execReshardSignal s
  | .reshardHoldExpiry => Sys2Proof.Machine.execReshardHoldExpiry s
  | .nmcKernelStart => Sys2Proof.Machine.execNmcKernelStart s
  | .nmcKernelEnd => Sys2Proof.Machine.execNmcKernelEnd s
  | .reset x0 x1 x2 x3 => Sys2Proof.Machine.execReset x0 x1 x2 x3 s
  | .fullServiceEntry => Sys2Proof.Machine.execFullServiceEntry s
  | .clockStep => Sys2Proof.Machine.execClockStep s
  | .halt x0 x1 => Sys2Proof.Machine.execHalt x0 x1 s
  | .hiddenRepair x0 => Sys2Proof.Machine.execHiddenRepair x0 s
  | .flitReplay x0 => Sys2Proof.Machine.execFlitReplay x0 s
  | .laneRetrain x0 => Sys2Proof.Machine.execLaneRetrain x0 s
  | .linkReroute x0 => Sys2Proof.Machine.execLinkReroute x0 s
  | .packageAbsent x0 => Sys2Proof.Machine.execPackageAbsent x0 s
  | .launchDoorbell x0 => Sys2Proof.Machine.execLaunchDoorbell x0 s
  | .launchDeferredAccept x0 => Sys2Proof.Machine.execLaunchDeferredAccept x0 s
  | .resumeDoorbell => Sys2Proof.Machine.execResumeDoorbell s
  | .partitionTableWrite x0 x1 => Sys2Proof.Machine.execPartitionTableWrite x0 x1 s
  | .pageTableRootWrite x0 x1 => Sys2Proof.Machine.execPageTableRootWrite x0 x1 s
  | .meshConfigWrite x0 x1 => Sys2Proof.Machine.execMeshConfigWrite x0 x1 s
  | .moraineDeclaration x0 x1 => Sys2Proof.Machine.execMoraineDeclaration x0 x1 s
  | .purgeDoorbell x0 x1 x2 => Sys2Proof.Machine.execPurgeDoorbell x0 x1 x2 s
  | .eventLogTailWrite x0 => Sys2Proof.Machine.execEventLogTailWrite x0 s
  | .attestationRequest x0 => Sys2Proof.Machine.execAttestationRequest x0 s
  | .memoryWindowRead x0 x1 => Sys2Proof.Machine.execMemoryWindowRead x0 x1 s
  | .memoryWindowWrite x0 x1 => Sys2Proof.Machine.execMemoryWindowWrite x0 x1 s
  | .controlWindowWrite x0 x1 => Sys2Proof.Machine.execControlWindowWrite x0 x1 s
  | .unassignedEncoding x0 => Sys2Proof.Machine.execUnassignedEncoding x0 s
  | .accessPerformed x0 => Sys2Proof.Machine.execAccessPerformed x0 s
  | .nearMemoryKernelInstruction => Sys2Proof.Machine.execNearMemoryKernelInstruction s
  | .packageReachableAgain x0 => Sys2Proof.Machine.execPackageReachableAgain x0 s
  | .portTrained x0 => Sys2Proof.Machine.execPortTrained x0 s

end Sys2Proof.Machine
end

