-- ==== Sys2Proof/Machine/Step.lean ====
section
/-! DEFINITION. One step of the package: the next move of the agenda, or of the rotation when the agenda is empty; and the
placing of one word for the host's question. -/

namespace Sys2Proof.Machine

/-- An engine of the core under the cursor moves. -/
def engineStep (s : State) : Res :=
  match plan s s.engHere with
  | .over r => r
  | .run i t => exec i t

/-- An event at a core and a unit takes place; at halted level only those from outside do (R380). -/
def eventStep (c u : Nat) (i : Instr) (s : State) : Res :=
  if s.level = .halted ∧ fromOutside i = false then .next s else exec i { s with cur := ⟨c, 6, u⟩ }

/-- An engine moves; at halted level no core issues (R380). -/
def issueStep (s : State) : Res := if s.level = .halted then .next s else engineStep s

/-- A background event leaves the cursor at the core that it came by, so that every core has its turn. -/
def roundStep (s : State) : Res :=
  let home : Cur := { s.cur with slot := 6 }
  match background s with
  | none => .next { s with cur := home }
  | some (c, u, i) =>
    match eventStep c u i s with
    | .next t => .next { t with cur := home }
    | r => r

/-- One step: an engine's move or an event. -/
def step (s : State) : Host.Outcome State Fault Refusal :=
  let s := s.tick
  match s.agenda with
  | .engine c e :: r => issueStep { s with agenda := r, cur := ⟨c, e.tag, s.cur.unit⟩ }
  | .event c u i :: r => eventStep c u i { s with agenda := r }
  | [] =>
    if s.cur.slot < 5 then issueStep { s with cur := { s.cur with slot := s.cur.slot + 1 } }
    else if s.cur.slot = 5 then roundStep s
    else
      let c := nextCore s
      issueStep { s with cur := ⟨c, 0, 0⟩, beat := if c ≤ s.cur.core then s.beat + 1 else s.beat }

/-- The state with a word where the next step fetches: full service, a task running on core 0 with its six engines at the
start of the cluster window, and the cursor at the engine of the word's tag. -/
def State.withFetchWord (s : State) (_nbits w : Nat) : State :=
  let word : Word := BitVec.ofNat 64 w
  let k := placeTask s.here
  let t := tagOf word
  { s with
    level := .full
    agenda := []
    cur := if t = 0 ∨ 6 ≤ t then ⟨159, 6, 0⟩ else ⟨0, t - 1, 0⟩
    cores := Bank.set {} s.cores 0 k
    spad := Bank.setRun 0 s.spad 0 (toBytes 8 word.toNat) }

end Sys2Proof.Machine
end

