-- ==== Sys2Proof/Safety.lean ====
section
/-! DEFINITION. What counts as a safe run, in the terms that statements use: the registers and bytes that software sees, what a
word that finishes leaves alone, and when an engine's accesses are in order. -/

namespace Sys2Proof.Machine

/-- The canonical form of a memory: addresses strictly rising, and no listed byte that an unlisted address reads as. -/
abbrev Memory.wf (m : List Host.Cell) : Bool := Bank.wf 0 m

namespace State

/-- Both memories of the package are in canonical form. -/
def memWf (s : State) : Bool := Memory.wf s.spad && Memory.wf s.hbm

/-- A byte of a cluster scratchpad: byte b of cluster k at key k x 2^24 + b. -/
def spadByte (s : State) (key : Nat) : Byte := Bank.get 0 s.spad key

/-- A byte of the copy of record by physical address. -/
def homeByte (s : State) (pa : Nat) : Byte := Bank.get 0 s.hbm pa

/-- Scalar register n of the core under the cursor; s0 reads 0 (R68). -/
def sReg (s : State) (r : SReg) : Word := if r = 0 then 0 else Bank.get 0 s.here.regs.s r.toNat

/-- A vector register of the core under the cursor. -/
def vReg (s : State) (v : Nat) : VReg := Bank.get 0 s.here.regs.v v

/-- Lane k of a vector register. -/
def vLane (s : State) (v k : Nat) : BitVec 32 := (s.vReg v).extractLsb' (32 * k) 32

/-- A mask register of the core under the cursor. -/
def mReg (s : State) (m : Nat) : Mask := Bank.get 0 s.here.regs.m m

/-- The mask under which a word works: a mask field of 0 makes every lane active (R68, R71). -/
def active (s : State) (m : MaskNo) : Mask := if m = 0 then BitVec.allOnes 256 else s.mReg m.toNat

/-- Everything of the package but its cores. -/
def rest (s : State) : State := { s with cores := [] }

end State

/-- What a word that reads and writes registers leaves of a core: everything but the engines, the token queues, the general
registers, the records of unordered writes and those of what releases of other cores have made visible (R83, R146). -/
def Core.still (k : Core) : Core :=
  { k with eng := [], tok := [], regs := Regs.zero, races := [], hb := [], fenced := [], loaded := [] }

/-- Engine e of the core under the cursor runs an interlocked word, and every write that another engine has made is ordered
before it (R78, R83). -/
def inOrder (s : State) (e : Eng) : Prop :=
  s.here.sys.timed = false ∧ ∀ r ∈ s.here.races, ordered (s.here.en e) e.tag r = true

/-- Engine e of the core under the cursor passes from its word to dst and waits for nothing; it keeps its loop registers and its
control queue, and no other engine of the core moves (R67). -/
def movesTo (s t : State) (e : Eng) (dst : Word) : Prop :=
  (∀ f, f ≠ e → t.en f = s.en f) ∧ (t.en e).pc = dst ∧ (t.en e).wait = none ∧ (t.en e).lc = (s.en e).lc ∧ (t.en e).ctl = (s.en e).ctl

/-- The word of engine e finishes and e goes on at dst: nothing else of the package changes but the core under the cursor (R67). -/
def finishes (s t : State) (e : Eng) (dst : Word) : Prop :=
  t.rest = s.rest ∧ (∀ c, c ≠ s.cur.core → t.core c = s.core c) ∧ movesTo s t e dst

/-- Only caches of the package differ: the die caches with their filters, the lines that the LLC slices hold and the translations that the
controllers hold (R133 to R135). -/
def sameButCaches (s t : State) : Prop := t = { s with dies := t.dies, trans := t.trans, llc := t.llc }

/-- Only what the compute dies record of releases differs (R146). -/
def sameButReleases (s t : State) : Prop := t = { s with dies := t.dies } ∧ ∀ d, t.die d = { s.die d with syncs := (t.die d).syncs }

/-- Of the core's registers only scalar registers change, and of those only sd, which now holds x; s0 holds nothing (R69). -/
def writesS (s t : State) (sd : SReg) (x : Word) : Prop :=
  t.here.still = s.here.still ∧ { t.here.regs with s := [] } = { s.here.regs with s := [] } ∧
    ∀ r, t.sReg r = if r = sd ∧ sd ≠ 0 then x else s.sReg r

/-- Of the core's registers only vector registers change, and of those only v, which now holds x. -/
def writesV (s t : State) (v : Nat) (x : VReg) : Prop :=
  t.here.still = s.here.still ∧ { t.here.regs with v := [] } = { s.here.regs with v := [] } ∧
    ∀ n, t.vReg n = if n = v then x else s.vReg n

/-- Of the core's registers only mask registers change, and of those only m, which now holds x. -/
def writesM (s t : State) (m : Nat) (x : Mask) : Prop :=
  t.here.still = s.here.still ∧ { t.here.regs with m := [] } = { s.here.regs with m := [] } ∧
    ∀ n, t.mReg n = if n = m then x else s.mReg n

/-- No register of the core changes. -/
def writesNone (s t : State) : Prop := t.here.still = s.here.still ∧ t.here.regs = s.here.regs

/-- A step goes on to a state with a property. -/
def goesTo (r : Res) (P : State → Prop) : Prop := ∃ t, r = .next t ∧ P t

/-- One message leaves the package, and it is this one. -/
def sends (s t : State) (o : Out) : Prop := ∃ x : Sent, t.outbox = s.outbox ++ [x] ∧ x.out = o

/-- A message of this kind has left the package. -/
def hasSent (t : State) (o : Out) : Prop := ∃ x ∈ t.outbox, x.out = o

end Sys2Proof.Machine
end

