-- ==== Sys2Proof/Certificates/Slice0/Obligations.lean ====
section
/-! DEFINITION. The statements for the provers. -/

namespace Sys2Proof.Spec

open Sys2Proof.Machine

/-! What the rules say of values, written over numbers -/

/-- The table of R102 on two 64-bit values, by the number of the condition. -/
def holds (c : Cond) (a b : Word) : Bool :=
  match c.code with
  | 0 => decide (a.toNat = b.toNat)
  | 1 => decide (a.toNat ≠ b.toNat)
  | 2 => decide (a.toInt < b.toInt)
  | 3 => decide (b.toInt ≤ a.toInt)
  | 4 => decide (a.toNat < b.toNat)
  | 5 => decide (b.toNat ≤ a.toNat)
  | 6 => decide (b.toInt < a.toInt)
  | 7 => decide (a.toInt ≤ b.toInt)
  | 8 => decide (b.toNat < a.toNat)
  | _ => decide (a.toNat ≤ b.toNat)

/-- Div of R103. -/
def quotient (uns : Bool) (a b : Word) : Word :=
  if b.toNat = 0 then BitVec.ofNat 64 0xFFFFFFFFFFFFFFFF
  else if uns then BitVec.ofNat 64 (a.toNat / b.toNat)
  else if a.toInt = -2 ^ 63 ∧ b.toInt = -1 then BitVec.ofInt 64 (-2 ^ 63)
  else BitVec.ofInt 64 (a.toInt.tdiv b.toInt)

/-- Rem of R103: what the quotient leaves. -/
def remainder (uns : Bool) (a b : Word) : Word :=
  if b.toNat = 0 then a
  else if uns then a - b * quotient true a b
  else if a.toInt = -2 ^ 63 ∧ b.toInt = -1 then 0
  else a - b * quotient false a b

/-- Bits [127:64] of the full product (R103). -/
def high (uns : Bool) (a b : Word) : Word :=
  if uns then (a.zeroExtend 128 * b.zeroExtend 128).extractLsb' 64 64
  else (a.signExtend 128 * b.signExtend 128).extractLsb' 64 64

/-- The bits [pos + len - 1 : pos] filled with zeros or with copies of the top one (R109). -/
def field (signed : Bool) (a : Word) (pos len : Nat) : Word :=
  let f := a.toNat / 2 ^ pos % 2 ^ len
  if signed = true ∧ 2 ^ (len - 1) ≤ f then BitVec.ofInt 64 ((f : Int) - 2 ^ len) else BitVec.ofNat 64 f

/-- The destination and the result of a scalar arithmetic word, from what its sources hold (R101 to R109). -/
def scalarResult (r : SReg → Word) : Instr → Option (SReg × Word)
  | .add d a b => some (d, BitVec.ofNat 64 ((r a).toNat + (r b).toNat))
  | .sub d a b => some (d, BitVec.ofInt 64 ((r a).toInt - (r b).toInt))
  | .mul d a b => some (d, BitVec.ofNat 64 ((r a).toNat * (r b).toNat))
  | .mulh u d a b => some (d, high u (r a) (r b))
  | .div u d a b => some (d, quotient u (r a) (r b))
  | .rem u d a b => some (d, remainder u (r a) (r b))
  | .and d a b => some (d, r a &&& r b)
  | .or d a b => some (d, r a ||| r b)
  | .xor d a b => some (d, r a ^^^ r b)
  | .shl d a b => some (d, BitVec.ofNat 64 ((r a).toNat * 2 ^ ((r b).toNat % 64)))
  | .shr d a b => some (d, BitVec.ofNat 64 ((r a).toNat / 2 ^ ((r b).toNat % 64)))
  | .sra d a b => some (d, BitVec.ofInt 64 ((r a).toInt / 2 ^ ((r b).toNat % 64)))
  | .min u d a b => some (d, if (if u then (r a).toNat ≤ (r b).toNat else (r a).toInt ≤ (r b).toInt) then r a else r b)
  | .max u d a b => some (d, if (if u then (r b).toNat ≤ (r a).toNat else (r b).toInt ≤ (r a).toInt) then r a else r b)
  | .cmp c d a b => some (d, if holds c (r a) (r b) then 1 else 0)
  | .sel d a b c => some (d, if (r c).toNat = 0 then r b else r a)
  | .addi d a m => some (d, BitVec.ofInt 64 ((r a).toInt + m.toInt))
  | .muli d a m => some (d, BitVec.ofInt 64 ((r a).toInt * m.toInt))
  | .andi d a m => some (d, r a &&& m.signExtend 64)
  | .ori d a m => some (d, r a ||| m.signExtend 64)
  | .xori d a m => some (d, r a ^^^ m.signExtend 64)
  | .shli d a n => some (d, BitVec.ofNat 64 ((r a).toNat * 2 ^ n.toNat))
  | .shri d a n => some (d, BitVec.ofNat 64 ((r a).toNat / 2 ^ n.toNat))
  | .srai d a n => some (d, BitVec.ofInt 64 ((r a).toInt / 2 ^ n.toNat))
  | .cmpi c d a m => some (d, if holds c (r a) (m.signExtend 64) then 1 else 0)
  | .li d m => some (d, BitVec.ofInt 64 m.toInt)
  | .lui d m => some (d, BitVec.ofNat 64 (m.toNat * 2 ^ 26))
  | .clz d a => some (d, BitVec.ofNat 64 (if (r a).toNat = 0 then 64 else 63 - (r a).toNat.log2))
  | .popc d a => some (d, BitVec.ofNat 64 ((List.range 64).countP fun i => (r a).getLsbD i))
  | .lea d a b sh m => some (d, BitVec.ofInt 64 ((r a).toInt + (r b).toInt * 2 ^ sh.toNat + m.toInt))
  | .ext s d a p n => some (d, field s (r a) p.toNat (n.toNat + 1))
  | _ => none

/-- What a load of n bytes leaves in a register: the little-endian value, sign-extended for the signed types (R1, R111). -/
def loaded (ty : Fmt) (bs : List Byte) : Word :=
  if ty.isSigned ∧ 2 ^ (ty.bits - 1) ≤ ofBytes bs then BitVec.ofInt 64 ((ofBytes bs : Int) - 2 ^ ty.bits)
  else BitVec.ofNat 64 (ofBytes bs)

/-- Byte j of a register (R1). -/
def byteOf (x : Word) (j : Nat) : Byte := x.extractLsb' (8 * j) 8

/-- The address of a scalar access: the base plus the sign-extended offset, modulo 2^64 (R111). -/
def address {w : Nat} (base : Word) (off : BitVec w) : Nat := (base + off.signExtend 64).toNat

/-- NewValue of R152: what the memory holds after an atomic operation with x on old. -/
def updated (op : AmoOp) (ty : Fmt) (old x : Nat) : Nat :=
  match op with
  | .add => ((old + x) % 2 ^ ty.bits)
  | .and => (old &&& x)
  | .or => (old ||| x)
  | .xor => (old ^^^ x)
  | .min => (if signedOf ty.bits x < signedOf ty.bits old ∧ ty.isSigned ∨ x < old ∧ ¬ ty.isSigned then x else old)
  | .max => (if signedOf ty.bits old < signedOf ty.bits x ∧ ty.isSigned ∨ old < x ∧ ¬ ty.isSigned then x else old)
  | .swap => x
  | .fadd => (roundFloat .f32 .rne 0 (Exact.sum [FloatFmt.f32.value old, FloatFmt.f32.value x]).1).1

/-- What a system register reads after a write of v to it, from what it read before; none where the write raises ILLEGAL: a value that
the register's rule forbids, a read-only register or an unassigned number (R54, R80, R93, R124, R125, R276, R283, R284). -/
def sysAfter (n : Nat) (v old : Word) : Option Word :=
  match n with
  | 0x000 => if v.toNat % 4 = old.toNat % 4 then some ((v &&& 0xFF00) ||| (old &&& 3)) else none
  | 0x001 => some (v &&& 0x7F)
  | 0x002 => if 1 ≤ v.toNat % 2 ^ 13 ∧ v.toNat % 2 ^ 13 ≤ 4096 then some (v &&& 0x1FFF) else none
  | 0x003 => if v.toNat % 2 ^ 32 = 0 then none else some (v &&& 0xFFFFFFFF)
  | 0x010 => some (v &&& 0x01FFFFFFFFFFFFC1)
  | 0x011 => some ((v &&& 0xFFFFFFFFFFFF0FFF) ||| (old &&& 0x8000) ||| (v &&& old &&& 0x4000))
  | 0x012 => some v
  | 0x013 => some v
  | _ => none

/-- Taking a trap on engine e (R8, R283 to R286): the cause with its code, engine, kind and argument, the address of the word
and of the transfer that led to it are recorded, ACTIVE is set, the sequencer is at TRAPVEC.ADDR and the core is in its handler, in
interlocked mode; no register of the program has changed and the other engines stand where they stood. -/
def entersHandler (s t : State) (e : Eng) (code : Code) (isAsync : Bool) (arg : Nat) : Prop :=
  t.here.phase = .handler ∧ t.rest = s.rest ∧ t.here.regs = s.here.regs ∧ t.here.sys.timed = false ∧
    slice t.here.sys.cause 7 0 = code.toNat ∧ slice t.here.sys.cause 10 8 = e.tag ∧ bit t.here.sys.cause 11 = isAsync ∧
    bit t.here.sys.cause 15 = true ∧ slice t.here.sys.cause 31 16 = arg ∧ slice t.here.sys.cause 63 32 = 0 ∧
    t.here.sys.trapaddr = (s.en e).pc ∧ t.here.sys.trapsrc = (s.en e).src ∧
    (t.en .sq).pc = s.here.sys.trapvec &&& 0x01FFFFFFFFFFFFC0 ∧ (∀ f, f ≠ .sq → (t.en f).pc = (s.en f).pc) ∧
    t.here.sys.trapvec = s.here.sys.trapvec ∧ t.here.sys.flags = s.here.sys.flags ∧ t.here.events = s.here.events

/-- Of the core only register vd and SYS.FLAGS change: each w-bit element of an active lane holds what el says, each other element what
it held, and the events of the active elements are ORed in (R55, R71, R194). -/
def writesElements (s t : State) (w : Nat) (vd : VNo) (lanes : Mask) (el : Nat → Nat × Flags) : Prop :=
  let here : List Nat := (List.range (8192 / w)).filter fun k => bit lanes (k * w / 32)
  { t.here.still with sys := s.here.sys } = s.here.still ∧
    t.here.sys = { s.here.sys with flags := here.foldl (fun f k => f ||| (el k).2) s.here.sys.flags } ∧
    { t.here.regs with v := [] } = { s.here.regs with v := [] } ∧ (∀ n, n ≠ vd.toNat → t.vReg n = s.vReg n) ∧
    ∀ k, k < 8192 / w → elemOf w (t.vReg vd.toNat).toNat k =
      if bit lanes (k * w / 32) then (el k).1 % 2 ^ w else elemOf w (s.vReg vd.toNat).toNat k

/-- The element that a word of form VV gives at position k from elements a and b of its sources and d of its destination: floating
types round the exact result (R196, R197), integers wrap (R195) or saturate, with the events that arise. -/
def vvElement (bits : Int → Int → Nat) (i : Instr) : Option (VV × (Nat → Nat → Nat → Nat → Nat × Flags)) :=
  let rounded (o : VV) (k : Nat) (x : Exact × Flags) : Nat × Flags :=
    let r := roundTo o.ty o.rm (bits 0 (k : Int)) x.1
    (r.1, x.2 ||| r.2)
  let int (o : VV) (x : Int) : Nat × Flags := ((x % 2 ^ o.ty.bits).toNat, 0)
  let n (o : VV) (a : Nat) : Int := if o.ty.isSigned then signedOf o.ty.bits a else (a : Int)
  let v (o : VV) (a : Nat) : Exact := elemValue o.ty a
  let arith (o : VV) (fl : Exact → Exact → Exact → Exact × Flags) (z : Int → Int → Int → Int) :=
    some (o, fun k a b d => if o.ty.isFloat then rounded o k (fl (v o a) (v o b) (v o d)) else int o (z (n o a) (n o b) (n o d)))
  let clamp (o : VV) (x : Int) : Nat × Flags :=
    let lo : Int := if o.ty.isSigned then -2 ^ (o.ty.bits - 1) else 0
    let hi : Int := if o.ty.isSigned then 2 ^ (o.ty.bits - 1) - 1 else 2 ^ o.ty.bits - 1
    if x < lo then ((lo % 2 ^ o.ty.bits).toNat, Flags.saturate) else if hi < x then (hi.toNat, Flags.saturate) else ((x % 2 ^ o.ty.bits).toNat, 0)
  let sign (o : VV) (fl : Nat → Nat) (z : Int → Int) :=
    some (o, fun (_ a _ _ : Nat) => if o.ty.isFloat then ((if (v o a).isNan then (Fmt.float o.ty).nanCode else fl a), 0) else int o (z (n o a)))
  let plain (o : VV) (f : Nat → Nat → Nat) := some (o, fun (_ a b _ : Nat) => (f a b, (0 : Flags)))
  match i with
  | .vadd o => arith o (fun a b _ => Exact.sum [a, b]) fun a b _ => a + b
  | .vsub o => arith o (fun a b _ => Exact.sum [a, b.neg]) fun a b _ => a - b
  | .vmul o => arith o (fun a b _ => a.mul b) fun a b _ => a * b
  | .vfma o => arith o (fun a b d => fused (a.mul b) d) fun a b d => a * b + d
  | .vfms o => arith o (fun a b d => fused ((a.mul b).1.neg, (a.mul b).2) d) fun a b d => d - a * b
  | .vmin o => plain o fun a b => if o.ty.isFloat then floatPick (Fmt.float o.ty) false a b else if n o b < n o a then b else a
  | .vmax o => plain o fun a b => if o.ty.isFloat then floatPick (Fmt.float o.ty) true a b else if n o a < n o b then b else a
  | .vabs o => sign o (fun a => a % 2 ^ (o.ty.bits - 1)) fun a => if a < 0 then -a else a
  | .vneg o => sign o (fun a => (a + 2 ^ (o.ty.bits - 1)) % 2 ^ o.ty.bits) fun a => -a
  | .vdiv o => some (o, fun k a b _ => rounded o k (Fn.div (v o a) (v o b)))
  | .vsqrt o => some (o, fun k a _ _ => rounded o k (Fn.sqrt (v o a)))
  | .vand o => plain o fun a b => a &&& b
  | .vor o => plain o fun a b => a ||| b
  | .vxor o => plain o fun a b => a ^^^ b
  | .vnot o => plain o fun a _ => 2 ^ o.ty.bits - 1 - a
  | .vshl o => plain o fun a b => a * 2 ^ (b % o.ty.bits) % 2 ^ o.ty.bits
  | .vshr o => plain o fun a b => a / 2 ^ (b % o.ty.bits)
  | .vsra o => plain o fun a b => (signedOf o.ty.bits a / 2 ^ (b % o.ty.bits) % 2 ^ o.ty.bits).toNat
  | .vadds o => some (o, fun _ a b _ => clamp o (n o a + n o b))
  | .vsubs o => some (o, fun _ a b _ => clamp o (n o a - n o b))
  | .vmov o => plain o fun a _ => a
  | _ => none

/-- The element that a word of form VI gives at position k from element a of its source (R200, R203). -/
def viElement (i : Instr) : Option (VI × (Nat → Nat → Nat)) :=
  let m (o : VI) : Nat := (o.imm.toInt % 2 ^ o.ty.bits).toNat
  match i with
  | .viota o => some (o, fun k _ => (m o + k) % 2 ^ o.ty.bits)
  | .vaddi o => some (o, fun _ a => (a + m o) % 2 ^ o.ty.bits)
  | .vmuli o => some (o, fun _ a => a * m o % 2 ^ o.ty.bits)
  | .vandi o => some (o, fun _ a => a &&& m o)
  | .vori o => some (o, fun _ a => a ||| m o)
  | .vshli o => some (o, fun _ a => a * 2 ^ (o.imm.toNat % 32) % 2 ^ o.ty.bits)
  | .vshri o => some (o, fun _ a => if o.ty.isSigned then (signedOf o.ty.bits a / 2 ^ (o.imm.toNat % 32) % 2 ^ o.ty.bits).toNat
      else a / 2 ^ (o.imm.toNat % 32))
  | .vli o => some (o, fun _ _ => match o.ty with
      | .f32 => o.imm.toNat * 2 ^ 15
      | .bf16 => o.imm.toNat % 2 ^ 16
      | _ => m o)
  | _ => none

/-- An access that is held back comes before a younger one of size bytes (R141, R142): they share a byte as far as the remap filter tells, or they
are of one kind and share none. Of two to one byte through synonyms that the filter does not tell, either may come first. -/
def standsFirst (s : State) (x : Late) (va size : Nat) (spot : Spot) (isLoad : Bool) : Prop :=
  rangesMeet (s.canonRange x.va x.size) (s.canonRange va size) = true ∨
    x.load.isSome = isLoad ∧ (x.spot.code + x.size ≤ spot.code ∨ spot.code + size ≤ x.spot.code)

/-- A scalar access of the sequencer that its queue holds back (R141, R142): no register changes, and the access stands behind those that are
there; it comes after those of them that come before it, and after no others. -/
def heldBack (s t : State) (va size : Nat) (spot : Spot) (load : Option (Fmt × Nat)) (P : List Byte → Option Scope → Prop) : Prop :=
  let before (x : Late) : Prop := standsFirst s x va size spot load.isSome
  t.here.regs = s.here.regs ∧ ∃ l : Late, t.here.late = s.here.late ++ [l] ∧ l.va = va ∧ l.size = size ∧ l.spot = spot ∧ l.load = load ∧
    P l.data l.rel ∧ (∀ x ∈ s.here.late, before x → x.id ∈ l.after) ∧ ∀ n ∈ l.after, ∃ x ∈ s.here.late, x.id = n ∧ before x

/-- A scalar access of the sequencer is performed: of the accesses that are held back none is left that it comes after (R141, R142). -/
def performedIn (s t : State) (va size : Nat) (spot : Spot) (isLoad : Bool) : Prop :=
  ∀ x ∈ t.here.late, x ∈ s.here.late ∧ ¬ standsFirst s x va size spot isLoad

/-- What a read of a system register finds where every contribution to SYS.FLAGS is ordered before it (R56, R124). -/
def sysReads (s : State) (n : Nat) : Option Word :=
  if n = 1 then some ((s.here.flagBase ||| flagBits s.here.flagRaces).setWidth 64) else s.readSys n

/-- A word of the load engine has read all of its access and finishes, or has still to read some of it and waits; no byte of memory changes
(R145). -/
def readsSome (s t : State) (d : Dest) : Prop :=
  t.spad = s.spad ∧ t.hbm = s.hbm ∧ t.here.sys = s.here.sys ∧
    ((t.en .ld).wait = none ∧ (t.en .ld).pc = (s.en .ld).pc + 8 ∨
      t.here.regs = s.here.regs ∧ (t.en .ld).pc = (s.en .ld).pc ∧
        ∃ bm val later, (t.en .ld).wait = some (.tornLoad d bm val later) ∧ later ≠ [])

/-- A word of the store engine has performed all of its access and finishes, or has still to perform some of it and waits; no register changes
(R145). -/
def writesSome (s t : State) : Prop :=
  t.here.regs = s.here.regs ∧ ((t.en .st).wait = none ∧ (t.en .st).pc = (s.en .st).pc + 8 ∨
    (t.en .st).pc = (s.en .st).pc ∧ t.here.sys = s.here.sys ∧ ∃ rest events count, (t.en .st).wait = some (.tornStore rest events count) ∧ rest ≠ [])

end Sys2Proof.Spec

open Sys2Proof Sys2Proof.Machine

/-- R101 to R109: a scalar arithmetic word finishes with its result in sd, and nothing else that software sees changes. -/
def Obligations.ScalarArithmeticResults : Prop :=
  ∀ (s : State) (i : Instr) (sd : SReg) (x : Word), inOrder s .sq → Spec.scalarResult s.sReg i = some (sd, x) →
    goesTo (exec i s) fun t => finishes s t .sq ((s.en .sq).pc + 8) ∧ writesS s t sd x

/-- R85, R86: in timed mode a scalar word writes no register as it issues: its result joins the writes in flight, due in cycle c + L. L is
24 for divisions, 3 for products and 1 for every other word. Where the writes due by a cycle land, a register holds the value of the one
due write that names it, and keeps its own while none is due; s0 stays 0. -/
def Obligations.TimedScalarWritesLandLater : Prop :=
  (∀ (s : State) (i : Instr) (sd : SReg) (x : Word), s.here.sys.timed = true → s.here.races = [] →
    Spec.scalarResult s.sReg i = some (sd, x) →
    goesTo (exec i s) fun t => finishes s t .sq ((s.en .sq).pc + 8) ∧ t.here.regs = s.here.regs ∧ t.here.sys = s.here.sys ∧
      t.here.pend = s.here.pend ++ if sd = 0 then [] else [⟨s.here.cyc + (s.en .sq).lat, .s sd.toNat, ones 64, x.toNat⟩]) ∧
  (∀ (k : Core) (r : SReg → Word) (i : Instr) (sync : Nat), (Spec.scalarResult r i).isSome = true →
    ((k.begin .sq i sync).en .sq).lat = match i with
      | .div _ _ _ _ | .rem _ _ _ _ => 24
      | .mul _ _ _ | .mulh _ _ _ _ | .muli _ _ _ => 3
      | _ => 1) ∧
  ∀ (s : State) (c due : Nat) (r : SReg), let k := s.core c
    let names (p : Pend) : Prop := p.dst = .s r.toNat ∨ ∃ key op, p.dst = .bank key op r.toNat
    let t := (s.landDue c due).core c
    t.pend = k.pend.filter (fun p => decide (due < p.due)) ∧ Bank.get 0 t.regs.s 0 = Bank.get 0 k.regs.s 0 ∧
      ((∀ p ∈ k.pend, names p → due < p.due) → Bank.get 0 t.regs.s r.toNat = Bank.get 0 k.regs.s r.toNat) ∧
      ∀ (before after : List Pend) (d : Nat) (x : Word), k.pend = before ++ ⟨d, .s r.toNat, ones 64, x.toNat⟩ :: after → d ≤ due → r ≠ 0 →
        (∀ p ∈ before ++ after, names p → due < p.due) → Bank.get 0 t.regs.s r.toNat = x

/-- R110, R111, R141, R142, R151: a scalar load that passes its checks extends the bytes at its address into sd and changes nothing else of
memory, where no older access is held back and the device does not hold it back either; else it goes through the load queue, where it stays
or is performed with what it comes after, and performed it reads what then stands there. That the device chooses what it holds back is the
model's choice (log 23). An acquire load comes after the older loads and the older stores to its bytes; one of package scope or wider reads
no line that the die cache held, and leaves the die cache without lines. -/
def Obligations.ScalarLoads : Prop :=
  (∀ (s : State) (ty : Fmt) (sd sa : SReg) (p : Place), inOrder s .sq →
    let n := ty.bits / 8
    let reads (u t : State) (va : Nat) : Prop :=
      { t.here.regs with s := [] } = { s.here.regs with s := [] } ∧ t.here.still = s.here.still ∧
      (∀ r, t.sReg r = if r = sd ∧ sd ≠ 0 then Spec.loaded ty (u.load va n).1 else s.sReg r) ∧ ∃ v, sameButCaches u v ∧ t.rest = v.rest
    (∀ off : BitVec 27, let va := Spec.address (s.sReg sa) off
      s.scalarCheck .sq va n .read = .ok p →
      (s.queues = false → goesTo (exec (.ld ty sd sa off) s) fun t => movesTo s t .sq ((s.en .sq).pc + 8) ∧ reads s t va) ∧
      ∀ spot, s.queues = true → spotOf s s.cur.core s.here.sys.asid .read (va, n) = .ok spot →
        goesTo (exec (.ld ty sd sa off) s) fun t => movesTo s t .sq ((s.en .sq).pc + 8) ∧
          if s.holdsBack 0 = true then Spec.heldBack s t va n spot (some (ty, sd.toNat)) fun bs rel => bs = [] ∧ rel = none
          else Spec.performedIn s t va n spot true) ∧
    ∀ (sc : Scope) (off : BitVec 24), let va := Spec.address (s.sReg sa) off
      s.scalarCheck .sq va n .read = .ok p →
      goesTo (exec (.ldacq ty sc sd sa off) s) fun t => movesTo s t .sq ((s.en .sq).pc + 8) ∧ (∀ x ∈ t.here.late, x ∈ s.here.late ∧ x.load = none ∧ rangesMeet (s.canonRange x.va x.size) (s.canonRange va n) = false) ∧
        (s.here.late = [] → reads (if Scope.wide sc then dropLines s (dieOf s.cur.core) else s) t va) ∧
        (Scope.wide sc → (t.die (dieOf s.cur.core)).lines = [])) ∧
  ∀ (s : State) (c : Nat) (l : Late) (ty : Fmt) (sd key : Nat), l.load = some (ty, sd) → l.spot = .spad key → l.size = ty.bits / 8 → sd ≠ 0 →
    (∀ r ∈ (s.core c).races, ordered { (s.core c).en .sq with clk := l.clk, joined := l.joined } 0 r = true) →
    let t := s.performOne c l
    t.rest = s.rest ∧ (∀ d, d ≠ c → t.core d = s.core d) ∧
      ∀ r, Bank.get 0 (t.core c).regs.s r = if r = sd then Spec.loaded ty (Bank.getRun 0 s.spad key l.size) else Bank.get 0 (s.core c).regs.s r

/-- R110, R111, R141, R142, R147, R151: a scalar store that passes its checks finishes. Where no older access is held back and the device does
not hold it back either, it changes no register and in a scratchpad window writes the low bytes of its source register at its address and no
other byte; else it goes through the store queue, where it stays or is performed with what it comes after, and performed it writes its bytes.
That the device chooses what it holds back is the model's choice (log 23). A store release does the same behind its release; of one of package
scope or wider the die's write buffer holds nothing that happens before what follows, and its bytes are in the copy of record. -/
def Obligations.ScalarStores : Prop :=
  (∀ (s : State) (ty : Fmt) (sc sa : SReg) (p : Place), inOrder s .sq →
    let n := ty.bits / 8
    let writes (u t : State) (key : Nat) : Prop :=
      ∀ k, t.spadByte k = if key ≤ k ∧ k < key + n then Spec.byteOf (s.sReg sc) (k - key) else u.spadByte k
    let queued (t : State) (va : Nat) (spot : Spot) (rel : Option Scope) : Prop := movesTo s t .sq ((s.en .sq).pc + 8) ∧
      if s.holdsBack 0 = true then Spec.heldBack s t va n spot none fun bs r =>
        r = rel ∧ bs.length = n ∧ ∀ i, i < n → bs.getD i 0 = Spec.byteOf (s.sReg sc) i
      else Spec.performedIn s t va n spot false
    let alone (t : State) : Prop := t.here.still = s.here.still ∧ sameButReleases { s.rest with spad := t.spad } t.rest
    let past (t : State) : Prop := movesTo s t .sq ((s.en .sq).pc + 8) ∧ t.here.regs = s.here.regs ∧ t.here.sys = s.here.sys
    (∀ off : BitVec 27, let va := Spec.address (s.sReg sa) off
      s.scalarCheck .sq va n .write = .ok p →
      (s.queues = false → goesTo (exec (.st ty sc sa off) s) fun t => past t ∧ ∀ key, p = .spad key → alone t ∧ writes s t key) ∧
      ∀ spot, s.queues = true → spotOf s s.cur.core s.here.sys.asid .write (va, n) = .ok spot →
        goesTo (exec (.st ty sc sa off) s) fun t => queued t va spot none) ∧
    ∀ (scope : Scope) (off : BitVec 24), (Scope.beyond scope = true → s.remoteWrites = false) → (s.release scope).ntWaits scope = false →
      let va := Spec.address (s.sReg sa) off
      let u := s.release scope
      s.scalarCheck .sq va n .write = .ok p →
      (∀ spot, s.queues = true → spotOf s s.cur.core s.here.sys.asid .write (va, n) = .ok spot →
        goesTo (exec (.strel ty scope sc sa off) s) fun t => queued t va spot (some scope)) ∧
      (s.queues = false → goesTo (exec (.strel ty scope sc sa off) s) fun t => past t ∧
        (Scope.wide scope = true → ∀ b ∈ (t.die (dieOf s.cur.core)).buf, s.here.follows s.cur.core b = false) ∧
        (∀ key, p = .spad key → writes u t key ∧ (Scope.wide scope = false → alone t)) ∧
        ∀ tr, p = .glob → Scope.wide scope = true → lineAccess u (dieOf s.cur.core) s.here.sys.asid va .write = .ok tr → tr.attr ≠ 4 →
          ∀ i, i < n → t.homeByte (tr.phys / 128 * 128 + tr.va % 128 + i) = Spec.byteOf (s.sReg sc) i)) ∧
  ∀ (s : State) (c : Nat) (l : Late) (key : Nat), l.load = none → l.rel = none → l.spot = .spad key →
    let t := s.performOne c l
    t.cores = s.cores ∧ sameButReleases { s.rest with spad := t.spad } t.rest ∧
      ∀ k, t.spadByte k = if key ≤ k ∧ k < key + l.data.length then l.data.getD (k - key) 0 else s.spadByte k

/-- R139: a store to a normal page with room in its die's write buffer puts its bytes there under the physical address of their
line, and no byte of the copy of record or of a scratchpad changes. -/
def Obligations.GlobalStoresEnterTheWriteBuffer : Prop :=
  ∀ (s : State) (ty : Fmt) (sc sa : SReg) (off : BitVec 27) (tr : Trans), inOrder s .sq → ty.isInt = true →
    let va := Spec.address (s.sReg sa) off
    let d := dieOf s.cur.core
    s.scalarCheck .sq va (ty.bits / 8) .write = .ok .glob →
    lineAccess s d s.here.sys.asid va .write = .ok tr → tr.attr ≠ 4 → (s.die d).buf.length < 16 → s.queues = false →
    goesTo (exec (.st ty sc sa off) s) fun t =>
      writesNone s t ∧ (∀ k, t.spadByte k = s.spadByte k) ∧ (∀ a, t.homeByte a = s.homeByte a) ∧
        (∀ e, e ≠ d → t.die e = s.die e) ∧
        ∃ b : BufStore, (t.die d).buf = (s.die d).buf ++ [b] ∧ b.stream = 6 * s.cur.core ∧ b.phys = tr.phys / 128 * 128 ∧
          b.gen = none ∧ ∀ k, Bank.get 0 b.bytes k =
            if tr.va % 128 ≤ k ∧ k < tr.va % 128 + ty.bits / 8 then (Spec.byteOf (s.sReg sc) (k - tr.va % 128)).toNat + 256 else 0

/-- R150, R152 to R154: an atomic that passes its checks, after its release, is one read and one write at its execution point: sd
takes what stood there (a reduction returns nothing), and a scratchpad window then holds the operation's value; after a
compare-and-swap, the new value where the old one matched and the old one elsewhere. -/
def Obligations.Atomics : Prop :=
  ∀ (s : State) (p : Place) (scope : Scope) (o : BitVec 2) (ty : Fmt) (sa : SReg), inOrder s .sq →
    (ordRelease o = true → (Scope.beyond scope = true → s.remoteWrites = false) ∧ (s.release scope).ntWaits scope = false) →
    s.scalarCheck .sq (s.sReg sa).toNat (ty.bits / 8) .atomic = .ok p →
    let va := (s.sReg sa).toNat
    let n := ty.bits / 8
    let u := if ordRelease o then s.release scope else s
    let leaves (t : State) (f : Nat → Nat) : Prop :=
      movesTo s t .sq ((s.en .sq).pc + 8) ∧ t.here.sys = s.here.sys ∧ { t.here.regs with s := [] } = { s.here.regs with s := [] } ∧
        ∀ key, p = .spad key → ∀ k, t.spadByte k =
          if key ≤ k ∧ k < key + n then BitVec.ofNat 8 (f (ofBytes (Bank.getRun 0 u.spad key n)) / 256 ^ (k - key)) else u.spadByte k
    let gives (t : State) (sd : SReg) (f : Nat → Option Nat) : Prop :=
      (∀ key, p = .spad key → ∀ r, t.sReg r = if r = sd ∧ sd ≠ 0 then Spec.loaded ty (Bank.getRun 0 u.spad key n) else s.sReg r) ∧
        ∀ r, t.sReg r = if r = sd ∧ sd ≠ 0 then extend ty (atomicUpdate u .sq va n scope f).1 else s.sReg r
    (∀ (op : AmoOp) (sd sb : SReg), let x := (s.sReg sb).toNat % 2 ^ ty.bits
      (goesTo (exec (.amo ⟨sd, sa, sb, op, ty, scope, o⟩) s) fun t =>
        leaves t (fun old => Spec.updated op ty old x) ∧ gives t sd fun old => some (newValue op ty old x)) ∧
      goesTo (exec (.red ⟨0, sa, sb, op, ty, scope, o⟩) s) fun t =>
        leaves t (fun old => Spec.updated op ty old x) ∧ t.here.regs = s.here.regs) ∧
    ∀ sd sb sc : SReg, let want := (s.sReg sb).toNat % 2 ^ ty.bits
      let new := (s.sReg sc).toNat % 2 ^ ty.bits
      goesTo (exec (.amocas sd sa sb sc ty scope o) s) fun t =>
        leaves t (fun old => if old = want then new else old) ∧ gives t sd fun old => if old = want then some new else none

/-- R112, R123, R147, R148, R155, R156: prefetches, queue alignment and no-operations have no effect but their own end. An acquiring fence
leaves no older load held back, and one of package scope or wider empties the die cache; a releasing fence of such a scope leaves nothing in
its die's write buffer that happens before it. With no older load held back a fence changes no register, and one of a narrower scope nothing
but its own bookkeeping. -/
def Obligations.FencesAndHints : Prop :=
  ∀ s : State,
    (∀ llc sa off, goesTo (exec (.pf llc sa off) s) fun t => finishes s t .sq ((s.en .sq).pc + 8) ∧ writesNone s t) ∧
    (goesTo (exec .qalign s) fun t => finishes s t .sq ((s.en .sq).pc + 8) ∧ writesNone s t) ∧
    (goesTo (exec .nop s) fun t => finishes s t s.engHere ((s.en s.engHere).pc + 8) ∧ writesNone s t) ∧
    ∀ k scope, (k ≠ .acq → (Scope.beyond scope = false ∨ s.remoteWrites = false) ∧ (s.release scope).ntWaits scope = false) →
      goesTo (exec (.fence k scope) s) fun t => movesTo s t .sq ((s.en .sq).pc + 8) ∧ t.here.sys = s.here.sys ∧
        (∀ l ∈ t.here.late, l ∈ s.here.late ∧ (k = .acq → l.load = none)) ∧
        (Scope.wide scope = true → (k ≠ .acq → ∀ b ∈ (t.die (dieOf s.cur.core)).buf, s.here.follows s.cur.core b = false) ∧
          (k ≠ .rel → (t.die (dieOf s.cur.core)).lines = [])) ∧
        ((∀ l ∈ s.here.late, l.load = none) → t.here.regs = s.here.regs ∧
          (Scope.wide scope = false → t.rest = s.rest ∧ t.here.still = s.here.still))

/-- R56, R80, R93, R124, R125, R276, R283: rsys reads a system register into sd. wsys and xsys, and the write inside either, leave it reading
what its own rule makes of the value and leave every other system register; xsys also takes what it read before into sd. A read of SYS.FLAGS
finds the contributions that are ordered before it, and of the others some. -/
def Obligations.SystemRegisterAccess : Prop :=
  (∀ (s : State) (n : BitVec 12) (sd sa : SReg) (old : Word), inOrder s .sq → Spec.sysReads s n.toNat = some old →
    (goesTo (exec (.rsys sd n) s) fun t => finishes s t .sq ((s.en .sq).pc + 8) ∧ writesS s t sd old) ∧
    ∀ new, Spec.sysAfter n.toNat (s.sReg sa) old = some new →
      (goesTo (exec (.wsys n sa) s) fun t => finishes s t .sq ((s.en .sq).pc + 8) ∧ t.here.regs = s.here.regs ∧
        ∀ m, Spec.sysReads t m = if m = n.toNat then some new else Spec.sysReads s m) ∧
      goesTo (exec (.xsys sd n sa) s) fun t => finishes s t .sq ((s.en .sq).pc + 8) ∧
        (∀ r, t.sReg r = if r = sd ∧ sd ≠ 0 then old else s.sReg r) ∧
        ∀ m, Spec.sysReads t m = if m = n.toNat then some new else Spec.sysReads s m) ∧
  (∀ (s : State) (sd : SReg), s.here.sys.timed = false → (∀ r ∈ s.here.races, r.dst.same .flags = false → ordered (s.en .sq) 0 r = true) →
    goesTo (exec (.rsys sd 1) s) fun t => finishes s t .sq ((s.en .sq).pc + 8) ∧ ∃ l : List Race, l.Sublist s.here.flagRaces ∧
      (∀ r ∈ s.here.flagRaces, ordered (s.en .sq) 0 r = true → r ∈ l) ∧ writesS s t sd ((s.here.flagBase ||| flagBits l).setWidth 64)) ∧
  ∀ (s : State) (n : Nat) (v old new : Word), s.here.runs = true → s.readSys n = some old → Spec.sysAfter n v old = some new →
    (n = 1 → ∀ r ∈ s.here.flagRaces, ordered (s.en .sq) 0 r = true) →
    goesTo (exec (if n = 0 then .writeSysMode v else if n = 2 then .writeSysSlip v else if n = 3 then .writeSysWdog v
      else if n = 0x11 then .writeSysTrapcause v else .writeSysRegister (BitVec.ofNat 12 n) v) s) fun t =>
      t.rest = s.rest ∧ (∀ c, c ≠ s.cur.core → t.core c = s.core c) ∧ t.here.regs = s.here.regs ∧ t.here.eng = s.here.eng ∧
        ∀ m, t.readSys m = if m = n then some new else s.readSys m

/-- R124, R125: where the register's rule forbids the value, or the register is read-only or unassigned, wsys and xsys raise ILLEGAL
on the sequencer, and so does rsys of an unassigned number. -/
def Obligations.SystemRegisterFaults : Prop :=
  ∀ (s : State) (n : BitVec 12) (sd sa : SReg), inOrder s .sq → s.here.phase = .running → bit s.here.sys.trapvec 0 = true →
    s.here.finishing (some .sq) = false → s.here.requesting = false →
    (s.readSys n.toNat = none →
      goesTo (exec (.rsys sd n) s) (fun t => Spec.entersHandler (s.landAll s.cur.core) t .sq .illegal false 0)) ∧
    ((∀ old, s.readSys n.toNat = some old → Spec.sysAfter n.toNat (s.sReg sa) old = none) →
      goesTo (exec (.wsys n sa) s) (fun t => Spec.entersHandler (s.landAll s.cur.core) t .sq .illegal false 0) ∧
      goesTo (exec (.xsys sd n sa) s) (fun t => Spec.entersHandler (s.landAll s.cur.core) t .sq .illegal false 0))

/-- R8, R282, R283, R285, R286, R290: with a handler enabled, `trap` enters it with SOFTWARE and its immediate, and a word that is no
instruction with ILLEGAL on the engine that reaches it. -/
def Obligations.TrapsEnterTheHandler : Prop :=
  ∀ s : State, s.here.phase = .running → bit s.here.sys.trapvec 0 = true → s.here.requesting = false →
    (∀ imm : BitVec 16, s.here.finishing (some .sq) = false →
      goesTo (exec (.trap imm) s) fun t => Spec.entersHandler (s.landAll s.cur.core) t .sq .software false imm.toNat) ∧
    ∀ w : Word, s.here.finishing (some s.engHere) = false →
      goesTo (exec (.unassignedEncoding w) s) fun t =>
        Spec.entersHandler (s.landAll s.cur.core) t s.engHere .illegal false 0

/-- R286, R288: a trap with no handler enabled, or in a handler, abandons the task under its code. -/
def Obligations.TrapsWithoutHandlerAbandon : Prop :=
  ∀ (s : State) (e : Eng) (code : Code) (arg : BitVec 16) (tag6 : Bool), s.here.finishing (some e) = false → s.here.requesting = false →
    (s.here.phase = .handler ∨ bit s.here.sys.trapvec 0 = false) →
    goesTo (s.trap e code arg tag6) fun t =>
      t.here.phase = .abandoning code (decide (s.here.phase = .handler)) ∧ slice t.here.sys.cause 7 0 = code.toNat ∧
        t.here.sys.trapaddr = (s.en e).pc ∧ t.here.regs = (s.landAll s.cur.core).here.regs

/-- R291: `tret` puts the sequencer back to its held position and mode, with ACTIVE clear; `tret.skip` also passes the faulting word;
`tret.abandon` abandons the task under the code of SYS.TRAPCAUSE. None of them changes a register of the program. -/
def Obligations.TrapReturns : Prop :=
  ∀ (s : State) (f : Frame), s.here.phase = .handler → s.here.frame = some f →
    let back (t : State) : Prop := t.rest = s.rest ∧ t.here.phase = .running ∧ t.here.frame = none ∧ t.here.regs = s.here.regs ∧
      t.here.sys.timed = bit f.mode 0 ∧ bit t.here.sys.cause 15 = false ∧ slice t.here.sys.cause 7 0 = slice s.here.sys.cause 7 0 ∧
      t.here.sys.trapvec = s.here.sys.trapvec
    let stood (e : Eng) : EngSt := if e = .sq then f.sq else s.en e
    (goesTo (exec .tret s) fun t => back t ∧ ∀ e, (t.en e).pc = (stood e).pc ∧ (t.en e).walk = (stood e).walk) ∧
    (f.isAsync = false → f.tag6 = false → goesTo (exec .tretSkip s) fun t => back t ∧ ∀ e, (t.en e).pc =
      if e = Eng.ofTag f.eng then (stood e).pc + 8 else (stood e).pc) ∧
    goesTo (exec .tretAbandon s) fun t =>
      t.here.phase = .abandoning (BitVec.ofNat 8 (slice s.here.sys.cause 7 0)) true ∧ t.here.regs = s.here.regs

/-- R292 to R294: in a handler, `tack` counts the queued events into sd and takes the oldest into SYS.TRAPCAUSE and SYS.TRAPADDR, `tmask`
sets the mask of asynchronous events and returns the old one, and `tsave` writes the held positions of the six engines. -/
def Obligations.HandlerServices : Prop :=
  ∀ (s : State) (sd sa : SReg), inOrder s .sq →
    (goesTo (exec (.tack sd) s) fun t => finishes s t .sq ((s.en .sq).pc + 8) ∧
      (∀ r, t.sReg r = if r = sd ∧ sd ≠ 0 then BitVec.ofNat 64 s.here.events.length else s.sReg r) ∧
      t.here.events = s.here.events.tail ∧ (s.here.events = [] → t.here.sys = s.here.sys) ∧
      ∀ ev r, s.here.events = ev :: r → t.here.sys.trapaddr = ev.addr ∧ slice t.here.sys.cause 11 0 = slice (ev.cause ||| 0x800) 11 0 ∧
        slice t.here.sys.cause 63 16 = slice ev.cause 63 16 ∧ slice t.here.sys.cause 15 14 = slice s.here.sys.cause 15 14) ∧
    ((s.sReg sa).toNat < 2 → goesTo (exec (.tmask sd sa) s) fun t => finishes s t .sq ((s.en .sq).pc + 8) ∧
      t.here.tmask = bit (s.sReg sa) 0 ∧ t.here.sys = s.here.sys ∧
      ∀ r, t.sReg r = if r = sd ∧ sd ≠ 0 then (if s.here.tmask then 1 else 0) else s.sReg r) ∧
    ∀ (f : Frame) (key : Nat), s.here.phase = .handler → s.here.frame = some f → (s.sReg sa).toNat < 2 ^ 57 → (s.sReg sa).toNat % 64 = 0 →
      s.check (s.sReg sa).toNat 128 .write = .ok (.spad key) → s.conflicts .sq [(key, key + 128)] true = false →
      f.pcs.length = 6 → f.occupancy.length = 6 → f.tokens.length = 30 →
      goesTo (exec (.tsave sa) s) fun t => movesTo s t .sq ((s.en .sq).pc + 8) ∧ t.here.regs = s.here.regs ∧ t.here.sys = s.here.sys ∧
        (∀ e : Nat, e < 6 → ofBytes (Bank.getRun 0 t.spad (key + 8 * e) 8) = (f.pcs.getD e 0).toNat) ∧
        ∀ k, k < key ∨ key + 128 ≤ k → t.spadByte k = s.spadByte k

/-- R89, R113 to R117, R119: on the sequencer of an interlocked task outside its handler, a branch, a jump or a loop word continues at
its target or at the next word, writes its link, and appends one entry to each of the five control queues where the spec says so. -/
def Obligations.SequencerControlFlow : Prop :=
  ∀ s : State, inOrder s .sq → s.engHere = .sq → s.here.phase ≠ .handler → (∀ e, ((s.en e).ctl).length < 32) →
    let pc := (s.en .sq).pc
    let goes (t : State) (dst : Word) (taken : Bool) (told : Option Word) : Prop :=
      t.rest = s.rest ∧ (t.en .sq).pc = dst ∧ (t.en .sq).src = (if taken then pc else 0) ∧
        ∀ e, e ≠ .sq → (t.en e).pc = (s.en e).pc ∧ (t.en e).lc = (s.en e).lc ∧
          (t.en e).ctl = (s.en e).ctl ++ (told.toList.map fun v => ⟨v, 0⟩)
    let keeps (t : State) : Prop := t.here.regs = s.here.regs ∧ (t.en .sq).lc = (s.en .sq).lc ∧ t.here.sys = s.here.sys
    (∀ c sa sb off, let taken := Spec.holds c (s.sReg sa) (s.sReg sb)
      goesTo (exec (.br c sa sb off) s) fun t =>
        goes t (if taken then pc + off.signExtend 64 * 8 else pc + 8) taken (some (if taken then 1 else 0)) ∧ keeps t) ∧
    (∀ sd off, goesTo (exec (.jmp sd off) s) fun t => goes t (pc + off.signExtend 64 * 8) true none ∧ writesS s t sd (pc + 8)) ∧
    (∀ sd sa, (s.sReg sa).toNat % 8 = 0 →
      goesTo (exec (.jmpr sd sa) s) fun t => goes t (s.sReg sa) true (some (s.sReg sa)) ∧ writesS s t sd (pc + 8)) ∧
    (∀ lc fromReg sa (imm : BitVec 32), let v := if fromReg then s.sReg sa else imm.zeroExtend 64
      goesTo (exec (.lpset lc fromReg sa imm) s) fun t => goes t (pc + 8) false (some v) ∧ writesNone s t ∧
        ∀ n, Bank.get 0 (t.en .sq).lc n = if n = lc.toNat then v else Bank.get 0 (s.en .sq).lc n) ∧
    ∀ lc off, let n := Bank.get 0 (s.en .sq).lc lc.toNat
      goesTo (exec (.lpend lc off) s) fun t => goes t (if 1 < n.toNat then pc + off.signExtend 64 * 8 else pc + 8) (decide (1 < n.toNat)) none ∧
        writesNone s t ∧ ∀ m, Bank.get 0 (t.en .sq).lc m =
          if m = lc.toNat then (if 1 < n.toNat then n - 1 else 0) else Bank.get 0 (s.en .sq).lc m

/-- R90, R113 to R117: any other engine follows the same words by its oldest control entry, which it takes, and by its own loop
register, and writes no general register. -/
def Obligations.OtherEnginesFollowControlFlow : Prop :=
  ∀ (s : State) (e : Eng) (v : Word) (a : Nat) (r : List CtlEntry), s.here.sys.timed = false → s.engHere = e → e ≠ .sq →
    let pc := (s.en e).pc
    let goes (t : State) (dst : Word) (ctl : List CtlEntry) : Prop :=
      t.rest = s.rest ∧ writesNone s t ∧ (t.en e).pc = dst ∧ (t.en e).ctl = ctl ∧ ∀ f, f ≠ e → t.en f = s.en f
    let lcIs (t : State) (lc : BitVec 2) (x : Word) : Prop :=
      ∀ m, Bank.get 0 (t.en e).lc m = if m = lc.toNat then x else Bank.get 0 (s.en e).lc m
    ((s.en e).ctl = ⟨v, a⟩ :: r →
      (∀ c sa sb off, goesTo (exec (.br c sa sb off) s) fun t =>
        goes t (if v = 1 then pc + off.signExtend 64 * 8 else pc + 8) r ∧ (t.en e).lc = (s.en e).lc) ∧
      (∀ sd sa, goesTo (exec (.jmpr sd sa) s) fun t => goes t v r ∧ (t.en e).lc = (s.en e).lc) ∧
      ∀ lc fromReg sa imm, goesTo (exec (.lpset lc fromReg sa imm) s) fun t => goes t (pc + 8) r ∧ lcIs t lc v) ∧
    (∀ sd off, goesTo (exec (.jmp sd off) s) fun t => goes t (pc + off.signExtend 64 * 8) (s.en e).ctl ∧ (t.en e).lc = (s.en e).lc) ∧
    ∀ lc off, let n := Bank.get 0 (s.en e).lc lc.toNat
      goesTo (exec (.lpend lc off) s) fun t => goes t (if 1 < n.toNat then pc + off.signExtend 64 * 8 else pc + 8) (s.en e).ctl ∧
        lcIs t lc (if 1 < n.toNat then n - 1 else 0)

/-- R78, R79, R80, R84, R120, R121, R128, R280, R295, R375: a word of all six engines, once every engine stands at it with nothing left to do, takes
all six past it; in timed mode `start` issues its idle count of cycles after the last engine's last word, and is the last issue of every engine.
A mode word sets the mode, empties the token queues and counts their tokens in TOKLOST up to 255; idem opens a region at its own address with a
snapshot; tend frees the core and logs the task's retirement, where no record of a lower number is to come. -/
def Obligations.WordsOfAllSixEngines : Prop :=
  ∀ (s : State) (e : Eng), s.engHere = e → s.here.gathered e = true →
    let past (t : State) : Prop := ∀ f, (t.en f).pc = (s.en f).pc + 8 ∧ (t.en f).lc = (s.en f).lc
    (s.here.sys.timed = false → goesTo (exec .start s) fun t => past t ∧ t.rest = s.rest ∧ writesNone s t) ∧
    (s.here.sys.timed = true → s.here.nests = [] → ∀ bs c, fetchBytes s s.cur.core (s.en e).pc.toNat = .ok bs →
      c = (Eng.all.map fun f => (s.en f).last).foldl max 0 + 1 + slice (BitVec.ofNat 64 (ofBytes bs) : Word) 60 51 →
      goesTo (exec .start s) fun t => past t ∧ t.here.cyc = c ∧ ∀ f, (t.en f).last = c) ∧
    (s.here.ctlEmpty = true → s.here.nestsDone = true → (∀ f, (s.en f).push = 0) →
      let switched (t : State) (timed : Bool) : Prop := past t ∧ t.here.sys.timed = timed ∧ (∀ q, t.here.tokens q = []) ∧
        t.here.sys.toklost.toNat = Nat.min 255 (s.here.sys.toklost.toNat + s.here.tokensLeft)
      goesTo (exec .modeTimed s) (fun t => switched t true) ∧ goesTo (exec .modeInter s) fun t => switched t false) ∧
    (∀ (off : BitVec 38) (key : Nat), s.here.sys.timed = false → s.here.ctlEmpty = true → s.here.tokensLeft = 0 →
      s.here.nestOwed = [] → s.preemptDue s.cur.core = false →
      let pc := (s.en .sq).pc
      let va := (pc + off.signExtend 64 * 8).toNat
      let d : BitVec 512 := BitVec.ofNat 512 (ofBytes (Bank.getRun 0 s.spad key 64))
      va % 64 = 0 → s.check va 64 .read = .ok (.spad key) → descriptorOk d (s.here.tcb.pages * 65536) = true →
      goesTo (exec (.idem off) s) fun t => past t ∧ t.rest = s.rest ∧ t.here.regs = s.here.regs ∧ t.here.sys = s.here.sys ∧
        t.here.regionEntry = pc ∧ t.here.regionDesc = d ∧ t.here.snap.g = s.here.regs.g ∧ t.here.snap.map = s.here.regs.map ∧
        t.here.snap.next = s.here.sys.next ∧ t.here.snap.lcs = (Eng.all.map fun f => (s.en f).lc) ∧ t.here.snap.pend0 = s.here.pend0 ∧
        t.here.snap.pend1 = s.here.pend1 ∧ t.here.snap.timed = false) ∧
    (e = .sq → s.here.nestsDone = true → s.here.live = [] → s.here.late = [] → goesTo (exec .tend s) fun t => t.here.phase = .idle ∧
      t.here.queue0 = s.here.queue0 ∧ t.here.queue1 = s.here.queue1 ∧ (∀ c, c ≠ s.cur.core → t.core c = s.core c) ∧
      ((∀ x ∈ s.logWait, x.1 ≠ s.here.inst) → (∀ p n, s.here.org = .launch p n → (∀ x ∈ s.launchWait, x.1 ≠ p) ∧
          ∀ x ∈ s.launchLive, x.1 = p → x.2 ≠ n → issuedNo n x.2 = false) → s.log.held = [] → s.log.head < s.log.tail + s.log.entries →
        t.log.head = s.log.head + 1 ∧ ∃ r, (s.log.head % s.log.entries, r) ∈ t.log.ring ∧ r.kind = 1 ∧ r.code = 0 ∧
          r.task = s.here.sys.taskid))

/-- R129, R262, R382: renq reads its block and names its status in sd: 3 for a malformed block or target, 1 for a target that accepts no task
at this service level, 2 for one outside the task's partition, 4 for a full class of its own core; else the block is the youngest of its
class there, at once or, on another core, once the queue has room. A request of another package is held until the queue has room, joins it under
the request's tag and is then answered with status 0, which is the model's choice (log 40); the issue side of such a request is left out here. -/
def Obligations.RemoteEnqueue : Prop :=
  ∀ (s : State) (sd sa sb : SReg), inOrder s .sq →
    let queue (u : State) (c : Nat) (cls : Bool) : List QEntry := if cls then (u.core c).queue1 else (u.core c).queue0
    let entry (b : Tcb) : QEntry := ⟨b, .renq s.here.inst⟩
    let joins (t : State) (c : Nat) (q : QEntry) : Prop := queue t c q.tcb.cls = queue s c q.tcb.cls ++ [q] ∧
      ∀ d cls, (d, cls) ≠ (c, q.tcb.cls) → queue t d cls = queue s d cls
    let takes (t : State) : Prop := (t.en .sq).pc = (s.en .sq).pc + 8 ∧ ∀ r, t.sReg r = if r = sd ∧ sd ≠ 0 then 0 else s.sReg r
    let absent (c : Nat) : Prop := s.level = .boot ∨ s.level = .halted ∨ s.level = .reduced ∧ 4 ≤ c
    let part (c : Nat) : BitVec 16 := s.partOf (c / 4)
    (∀ key, s.here.sys.urgent = false → s.taskOperand (s.sReg sa).toNat 64 64 = .ok key →
      s.conflicts .sq [(key, key + 64)] false = false →
      let block := Bank.getRun 0 s.spad key 64
      let tgt := slice (s.sReg sb) 7 0
      let status (n : Nat) : Prop :=
        goesTo (exec (.renq sd sa sb) s) fun t => finishes s t .sq ((s.en .sq).pc + 8) ∧ writesS s t sd (BitVec.ofNat 64 n)
      (readTcb block = none ∨ slice (s.sReg sb) 63 56 ≠ 0 ∨ 159 < tgt ∨
          coordOk s.mesh ((s.sReg sb).extractLsb' 8 48) = false → status 3) ∧
      ∀ b, readTcb block = some b → slice (s.sReg sb) 63 56 = 0 → tgt ≤ 159 → (s.sReg sb).extractLsb' 8 48 = s.coord.extractLsb' 0 48 →
        coordOk s.mesh ((s.sReg sb).extractLsb' 8 48) = true →
        (absent tgt → status 1) ∧
        (¬ absent tgt → part s.cur.core = 0xFFFF ∨ part tgt ≠ part s.cur.core → status 2) ∧
        (¬ absent tgt → part s.cur.core ≠ 0xFFFF → part tgt = part s.cur.core →
          ((queue s tgt b.cls).length < 8 → goesTo (exec (.renq sd sa sb) s) fun t => joins t tgt (entry b) ∧ takes t) ∧
          (8 ≤ (queue s tgt b.cls).length → tgt = s.cur.core → status 4) ∧
          (8 ≤ (queue s tgt b.cls).length → tgt ≠ s.cur.core → goesTo (exec (.renq sd sa sb) s) fun t =>
            (t.en .sq).wait = some (.renq sd tgt block) ∧ (t.en .sq).pc = (s.en .sq).pc ∧ t.rest = s.rest ∧ writesNone s t))) ∧
    (∀ c block b, (s.en .sq).wait = some (.renq sd c block) → readTcb block = some b → s.here.runs = true →
      (queue s c b.cls).length < 8 → goesTo (exec .renqQueueRoom s) fun t => joins t c (entry b) ∧ takes t) ∧
    ∀ (r : RenqReq) (b : Tcb), (s.en .sq).wait = none → (s.renqs.find? fun q => decide (q.target = s.cur.core)) = some r →
      readTcb r.block = some b → s.level = .full → s.cur.core < 160 → r.part ≠ 0xFFFF → part r.target = r.part →
      (queue s r.target b.cls).length < 8 → goesTo (exec .renqQueueRoom s) fun t => joins t r.target ⟨b, .away r.pkg r.tag⟩ ∧
        t.renqs = s.renqs.erase r ∧ ∃ x ∈ t.outbox, x.out = .renqDone r.pkg r.core r.tag 0

/-- R269, R270, R278: seqw sets the pending predecessors, seqget tells whether a number has retired (1), is live (0) or was never issued
(2), and prio sets CLASS and URGENT and returns the old ones. -/
def Obligations.SequenceWordsAndPriority : Prop :=
  ∀ (s : State) (sd sa sb : SReg), inOrder s .sq →
    let p (r : SReg) : Option (BitVec 32) := if r = 0 then none else some ((s.sReg r).extractLsb' 0 32)
    let n := (s.sReg sa).extractLsb' 0 32
    (goesTo (exec (.seqw sa sb) s) fun t => finishes s t .sq ((s.en .sq).pc + 8) ∧ t.here.regs = s.here.regs ∧ t.here.sys = s.here.sys ∧
      t.here.pend0 = p sa ∧ t.here.pend1 = p sb) ∧
    (∀ scope, goesTo (exec (.seqget scope sd sa) s) fun t => (t.en .sq).pc = (s.en .sq).pc + 8 ∧ (∀ f, f ≠ .sq → t.en f = s.en f) ∧ t.here.sys = s.here.sys ∧ ∀ r, t.sReg r = if r = sd ∧ sd ≠ 0 then
        (if ¬ (1 ≤ (s.here.sys.next - n).toNat ∧ (s.here.sys.next - n).toNat ≤ 2 ^ 31) then 2 else if n ∈ s.here.live then 0 else 1)
        else s.sReg r) ∧
    ((s.sReg sa).toNat < 4 → goesTo (exec (.prio sd sa) s) fun t => finishes s t .sq ((s.en .sq).pc + 8) ∧
      t.here.sys = { s.here.sys with cls := bit (s.sReg sa) 0, urgent := bit (s.sReg sa) 1 } ∧
      ∀ r, t.sReg r = if r = sd ∧ sd ≠ 0 then (if s.here.sys.cls then 1 else 0) + (if s.here.sys.urgent then 2 else 0) else s.sReg r)

/-- R274: appt writes one 16-bit count for each expert and its status into sd. -/
def Obligations.ApportionStoresCounts : Prop :=
  ∀ (s : State) (sd sa sb sc : SReg) (ka kc : Nat), inOrder s .sq →
    let e := slice (s.sReg sb) 8 0
    let n := (List.range e).map fun i => ofBytes (Bank.getRun 0 s.spad (ka + 4 * i) 4)
    let a := apportion n (slice (s.sReg sb) 31 16)
    1 ≤ e → e ≤ 256 → slice (s.sReg sb) 15 9 = 0 → slice (s.sReg sb) 63 32 = 0 → (s.sReg sc).toNat < 2 ^ 57 → (s.sReg sc).toNat % 2 = 0 →
    s.windowOperand (s.sReg sa).toNat (4 * e) 4 = .ok ka → s.windowOperand (s.sReg sc).toNat (2 * e) 2 = .ok kc →
    s.conflicts .sq [(ka, ka + 4 * e)] false = false → s.conflicts .sq [(kc, kc + 2 * e)] true = false →
    goesTo (exec (.appt sd sa sb sc) s) fun t => movesTo s t .sq ((s.en .sq).pc + 8) ∧ writesS s t sd (BitVec.ofNat 64 a.2) ∧
      t.rest = { s.rest with spad := t.spad } ∧
      (∀ i, i < e → ofBytes (Bank.getRun 0 t.spad (kc + 2 * i) 2) = a.1.getD i 0 % 65536) ∧
      ∀ k, k < kc ∨ kc + 2 * e ≤ k → t.spadByte k = s.spadByte k

/-- R274: where there are clusters enough, apportioning gives every expert with tokens at least one cluster, every other none, and hands
out all of them. -/
def Obligations.ApportionHandsOutEveryCluster : Prop :=
  ∀ (n : List Nat) (c : Nat), let z := (n.filter fun x => decide (0 < x)).length
    0 < z → z ≤ c → (apportion n c).2 = 0 ∧ (apportion n c).1.length = n.length ∧ (apportion n c).1.sum = c ∧
      ∀ i, i < n.length → (0 < n.getD i 0 ↔ 0 < (apportion n c).1.getD i 0)

/-- R78, R244, R262, R276, R284, R295: an idle core that takes an entry of its queue runs it from ENTRY on all six engines in interlocked mode with
ARG in s1 and every other register zero, its loop registers, queues and shadow table empty and its system registers as R262 lists; the watchdog counts units and raises WATCHDOG at its limit. -/
def Obligations.DispatchAndWatchdog : Prop :=
  ∀ s : State,
    (∀ cls n q, s.pickTask s.cur.core = some (.entry cls n q) → goesTo (exec .taskDispatch s) fun t =>
      t.here.phase = .running ∧ (∀ e, (t.en e).pc = q.tcb.entry ∧ (t.en e).ctl = [] ∧ ∀ n, Bank.get 0 (t.en e).lc n = 0) ∧
        t.here.sys.taskid = q.tcb.taskid ∧ t.here.sys.asid = q.tcb.asid ∧ t.here.sys.cls = q.tcb.cls ∧ t.here.sys.urgent = q.tcb.urgent ∧
        t.here.sys.det = q.tcb.det ∧ t.here.sys.timed = false ∧ t.here.sys.toklost = 0 ∧ t.here.sys.next = q.tcb.seqbase ∧
        t.here.sys.rmark = q.tcb.seqbase ∧ t.here.sys.slip = 0x100 ∧ t.here.sys.flags = 0 ∧ t.here.sys.wdCount = 0 ∧
        t.here.sys.wdLimit = (if q.tcb.wdog = 0 then 0x100000 else q.tcb.wdog) ∧ t.here.sys.cause = 0 ∧ t.here.sys.trapaddr = 0 ∧
        t.here.sys.trapsrc = 0 ∧ t.here.sys.mxprog = 0 ∧ t.here.sys.trapvec = 0 ∧
        (∀ r, t.sReg r = if r = 1 then q.tcb.arg else 0) ∧ (∀ v, t.vReg v = 0) ∧ (∀ m, t.mReg m = 0) ∧
        (∀ a, Bank.get 0 t.here.regs.acc a = 0) ∧ (∀ g, Bank.get Gen.zero t.here.regs.g g = Gen.zero) ∧
        (∀ m, Bank.get 0 t.here.regs.map m = 0) ∧ (∀ n, Bank.get 0 t.here.shadow n = 0) ∧ (∀ p, t.here.tokens p = []) ∧
        t.here.fmtq = [] ∧ t.here.nests = [] ∧ t.here.regionEntry = q.tcb.entry ∧
        (if cls then t.here.queue1 = s.here.queue1.eraseIdx n ∧ t.here.queue0 = s.here.queue0
          else t.here.queue0 = s.here.queue0.eraseIdx n ∧ t.here.queue1 = s.here.queue1)) ∧
    (s.here.runs = true → s.here.finishing (some .sq) = false → (∀ e, (s.en e).wait = none) →
      (s.here.sys.wdCount + 1 ≠ s.here.sys.wdLimit → goesTo (exec .watchdog s) fun t => t.rest = s.rest ∧ t.here.eng = s.here.eng ∧
        t.here.regs = s.here.regs ∧ t.here.sys = { s.here.sys with wdCount := s.here.sys.wdCount + 1 }) ∧
      (s.here.sys.wdCount + 1 = s.here.sys.wdLimit → s.here.phase = .running → bit s.here.sys.trapvec 0 = true →
        goesTo (exec .watchdog s) fun t => Spec.entersHandler (s.landAll s.cur.core) t .sq .watchdog false 0))

/-- R186 to R188: barinit sets every field of a barrier; barexp and barar count in one step, the phase changing where no arrival and no
byte is left (a set reserved bit raises ILLEGAL, R3); bartry and barwait compare the phase, and a waiting barwait finishes once it has changed. -/
def Obligations.PhaseBarriers : Prop :=
  ∀ (s : State) (sd sa sb sc : SReg) (key : Nat), inOrder s .sq →
    let arr := s.spadNat (key + 4) 2
    let x := (s.spadNat key 4 + (s.sReg sb).toNat) % 2 ^ 32
    let counts (t : State) (arr : Nat) : Prop :=
      (∀ k, k < key ∨ key + 16 ≤ k → t.spadByte k = s.spadByte k) ∧ t.spadNat (key + 6) 2 = s.spadNat (key + 6) 2 ∧
        t.spadNat (key + 8) 4 = s.spadNat (key + 8) 4 ∧
        if arr = 0 ∧ x = 0 then t.spadNat (key + 4) 2 = s.spadNat (key + 6) 2 ∧ t.spadNat key 4 = s.spadNat (key + 8) 4 ∧
          t.phaseAt key = !s.phaseAt key
        else t.spadNat (key + 4) 2 = arr ∧ t.spadNat key 4 = x ∧ t.phaseAt key = s.phaseAt key
    let past (t : State) : Prop := movesTo s t .sq ((s.en .sq).pc + 8) ∧ t.rest = { s.rest with spad := t.spad }
    let sees : Bool := decide (s.phaseAt key ≠ bit (s.sReg sb) 0)
    (s.windowOperand (s.sReg sa).toNat 16 16 = .ok key →
      goesTo (exec (.barinit sa sb sc) s) fun t => past t ∧ writesNone s t ∧ t.spadNat key 4 = slice (s.sReg sc) 31 0 ∧
        t.spadNat (key + 4) 2 = slice (s.sReg sb) 15 0 ∧ t.spadNat (key + 6) 2 = slice (s.sReg sb) 15 0 ∧
        t.spadNat (key + 8) 4 = slice (s.sReg sc) 31 0 ∧ t.spadNat (key + 12) 4 = 0) ∧
    (s.windowOperand (s.sReg sa).toNat 16 16 = .ok key → s.barrierOk key = false → s.here.phase = .running →
      bit s.here.sys.trapvec 0 = true → s.here.finishing (some .sq) = false → s.here.requesting = false →
      ∀ i ∈ [Instr.barexp sa sb, .barar sd sa sb, .bartry sd sa sb, .barwait sa sb],
        goesTo (exec i s) fun t => Spec.entersHandler (s.landAll s.cur.core) t .sq .illegal false 0) ∧
    (s.windowOperand (s.sReg sa).toNat 16 16 = .ok key → s.barrierOk key = true →
      (goesTo (exec (.barexp sa sb) s) fun t => past t ∧ writesNone s t ∧ counts t arr) ∧
      (arr ≠ 0 → goesTo (exec (.barar sd sa sb) s) fun t =>
        past t ∧ writesS s t sd (if s.phaseAt key then 1 else 0) ∧ counts t (arr - 1)) ∧
      (goesTo (exec (.bartry sd sa sb) s) fun t => t.rest = s.rest ∧ (t.en .sq).pc = (s.en .sq).pc + 8 ∧
        writesS s t sd (if sees then 1 else 0)) ∧
      goesTo (exec (.barwait sa sb) s) fun t => t.rest = s.rest ∧ t.here.regs = s.here.regs ∧
        if sees then (t.en .sq).pc = (s.en .sq).pc + 8 ∧ (t.en .sq).wait = none ∧ t.here.sys = { s.here.sys with wdCount := 0 }
        else (t.en .sq).pc = (s.en .sq).pc ∧ (t.en .sq).wait = some (.barrier (BitVec.ofNat 64 key) (bit (s.sReg sb) 0))) ∧
    ∀ (k : Word) (p : Bool), (s.en .sq).wait = some (.barrier k p) → s.here.runs = true → s.phaseAt k.toNat ≠ p →
      goesTo (exec .barwaitSatisfied s) fun t => t.rest = s.rest ∧ t.here.regs = s.here.regs ∧ (t.en .sq).wait = none ∧
        (t.en .sq).pc = (s.en .sq).pc + 8 ∧ t.here.sys = { s.here.sys with wdCount := 0 }

/-- R189: waita passes once the 8 bytes at its address hold its value, at once or after a wait. R127, R276: a yield stops the sequencer for max(n, 1) cycles; then it passes the word and the watchdog count is 0: how many steps that takes is
the model's choice (log 20). -/
def Obligations.CompletionWords : Prop :=
  (∀ s : State,
    let past (t : State) : Prop := t.rest = s.rest ∧ t.here.regs = s.here.regs ∧ (t.en .sq).wait = none ∧
      (t.en .sq).pc = (s.en .sq).pc + 8 ∧ t.here.sys = { s.here.sys with wdCount := 0 }
    (∀ (sa sb : SReg) (key : Nat), inOrder s .sq → s.windowOperand (s.sReg sa).toNat 8 8 = .ok key →
      goesTo (exec (.waita sa sb) s) fun t =>
        if s.spadNat key 8 = (s.sReg sb).toNat then past t
        else t.rest = s.rest ∧ writesNone s t ∧ (t.en .sq).pc = (s.en .sq).pc ∧
          (t.en .sq).wait = some (.word (BitVec.ofNat 64 key) (s.sReg sb))) ∧
    ∀ (k v : Word), (s.en .sq).wait = some (.word k v) → s.here.runs = true → s.spadNat k.toNat 8 = v.toNat →
      goesTo (exec .waitaSatisfied s) past) ∧
  ∀ s : State,
    (∀ n : BitVec 8, goesTo (exec (.yield n) s) fun t => (t.en .sq).wait = some (.yield (max n.toNat 1)) ∧
      (t.en .sq).pc = (s.en .sq).pc ∧ t.rest = s.rest ∧ writesNone s t) ∧
    ∀ left, (s.en .sq).wait = some (.yield left) → s.here.runs = true →
      goesTo (exec .yieldEnd s) fun t => finishes s t .sq ((s.en .sq).pc + 8) ∧ t.here.regs = s.here.regs ∧
        t.here.sys = { s.here.sys with wdCount := 0 }

/-- R190, R191: claims take the next ticket where a slot is free, fills publish every slot filled without a gap, waits pass once their
ticket is published, and a release frees the oldest slot. That fills, waits and releases take their ticket from bits [31:0] of their operand is
the model's choice (log 91), and so is that a claim of timed code that has still to land holds its slot (log 99). -/
def Obligations.ScratchRings : Prop :=
  ∀ (s : State) (r : Ring), inOrder s .sq →
    let turns (t : State) (key : Nat) (r' : Ring) : Prop := (t.en .sq).pc = (s.en .sq).pc + 8 ∧ (t.en .sq).wait = none ∧
      (∀ e, e ≠ .sq → t.en e = s.en e) ∧ t.ringAt key = some r' ∧ ∀ k, k < key + 16 ∨ key + 32 ≤ k → t.spadByte k = s.spadByte k
    let past (t : State) (key : Nat) (r' : Ring) : Prop := turns t key r' ∧ t.rest = { s.rest with spad := t.spad }
    let waits (t : State) (w : Wait) : Prop := (t.en .sq).wait = some w ∧ (t.en .sq).pc = (s.en .sq).pc ∧ t.rest = s.rest ∧ writesNone s t
    let sdIs (t : State) (sd : SReg) (x : Word) : Prop := ∀ q, t.sReg q = if q = sd ∧ sd ≠ 0 then x else s.sReg q
    let free (key : Nat) : Prop := (r.claimed - r.head).toNat + s.claiming key < r.nslot
    let claimed : Ring := { r with claimed := r.claimed + 1 }
    (∀ (sd sa sb : SReg) (key : Nat), s.ringWord sa = .ok (key, r) → key < 2 ^ 64 →
      (goesTo (exec (.rgclaim sd sa) s) fun t =>
        if free key then past t key claimed ∧ sdIs t sd (r.claimed.zeroExtend 64) else waits t (.claim sd (BitVec.ofNat 64 key))) ∧
      (goesTo (exec (.rgtry sd sa) s) fun t =>
        if free key then past t key claimed ∧ sdIs t sd (r.claimed.zeroExtend 64) else past t key r ∧ sdIs t sd 0xFFFFFFFFFFFFFFFF) ∧
      (let n := ((s.sReg sb).extractLsb' 0 32 - r.tail).toNat
        let filled := r.filled ||| BitVec.ofNat 32 (2 ^ n)
        let run := ((List.range 32).find? fun i => !filled.getLsbD i).getD 32
        n < (r.claimed - r.tail).toNat → n < 32 → bit r.filled n = false → goesTo (exec (.rgfill sa sb) s) fun t =>
          turns t key { r with tail := r.tail + BitVec.ofNat 32 run, filled := filled >>> run } ∧ t.here.regs = s.here.regs ∧
            sameButReleases { s.rest with spad := t.spad } t.rest) ∧
      (goesTo (exec (.rgwaitf sa sb) s) fun t => let ticket := (s.sReg sb).extractLsb' 0 32
        if r.published ticket then past t key r ∧ t.here.regs = s.here.regs else waits t (.filled (BitVec.ofNat 64 key) ticket)) ∧
      ((s.sReg sb).extractLsb' 0 32 = r.head → goesTo (exec (.rgrel sa sb) s) fun t =>
        past t key { r with head := r.head + 1 } ∧ t.here.regs = s.here.regs)) ∧
    ∀ k : Word, s.ringAt k.toNat = some r → s.here.runs = true →
      (∀ sd, (s.en .sq).wait = some (.claim sd k) → free k.toNat →
        goesTo (exec .rgclaimSatisfied s) fun t => past t k.toNat claimed ∧ sdIs t sd (r.claimed.zeroExtend 64)) ∧
      ∀ ticket, (s.en .sq).wait = some (.filled k ticket) → r.published ticket = true →
        goesTo (exec .rgwaitfSatisfied s) fun t => past t k.toNat r ∧ t.here.regs = s.here.regs

/-- R164, R165, R167: the load engine fills the active lanes of a register from memory (in a scratchpad window, with the bytes at each
lane's address), leaves the others, and changes no byte of memory. Where the device tears the access, which is its choice (R145, log 97), the
word finishes or waits with what it has still to read. A prefetch has no effect. R167: vldt fills a register with the transpose of 128/w rows of eight elements: element (i, j), at byte 128 i + j w, is element i of
row j where its lane is active. -/
def Obligations.VectorLoads : Prop :=
  (∀ (s : State) (pm : MaskNo) (vd : VNo), inOrder s .ld →
    let lanes := s.active pm
    let here (a n : Nat) (key : Nat) : Prop := window s.cur.core s.here a n = .ok (.spad key)
    let loads (t : State) : Prop := movesTo s t .ld ((s.en .ld).pc + 8) ∧ t.here.sys = s.here.sys ∧ t.spad = s.spad ∧ t.hbm = s.hbm ∧
      { t.here.regs with v := [] } = { s.here.regs with v := [] } ∧ (∀ n, n ≠ vd.toNat → t.vReg n = s.vReg n) ∧
        ∀ L, L < 256 → bit lanes L = false → t.vLane vd.toNat L = s.vLane vd.toNat L
    let fills (i : Instr) (P : State → Prop) : Prop := goesTo (exec i s) fun t =>
      if s.holdsBack 1 = true then Spec.readsSome s t (.v vd.toNat) else loads t ∧ P t
    (∀ (sa sb : SReg) (ty : Fmt) (nt : Bool) (off : BitVec 13), let o : Strided := ⟨vd, sa, sb, pm, ty, nt, off⟩
      let rows := rowAddrs (s.sReg sa) (s.sReg sb) off
      let al := if rowsAligned rows lanes (Fmt.width ty) then 1 else 0
      let a := (s.sReg sa + BitVec.ofInt 64 (128 * off.toInt)).toNat
      (s.accessCheck .ld .read al (accessesOf (stridedRuns rows lanes)) = none → fills (.vld o) fun t => ∀ (L key : Nat), L < 256 → bit lanes L = true →
          here ((s.sReg sa + BitVec.ofInt 64 (128 * off.toInt + (L / 32 : Nat) * (s.sReg sb).toInt + (4 * (L % 32) : Nat))).toNat) 4 key →
          t.vLane vd.toNat L = BitVec.ofNat 32 (ofBytes (Bank.getRun 0 s.spad key 4))) ∧
      ((ty.bits = 8 ∨ ty.bits = 16 ∨ ty.bits = 32) → s.accessCheck .ld .read (ty.bits / 8) [(a, ty.bits / 8)] = none →
        goesTo (exec (.vldb o) s) fun t => loads t ∧ ∀ (L key : Nat), L < 256 → bit lanes L = true → here a (ty.bits / 8) key →
          t.vLane vd.toNat L = BitVec.ofNat 32 (packElems ty.bits (List.replicate (32 / ty.bits) (ofBytes (Bank.getRun 0 s.spad key (ty.bits / 8)))))) ∧
      goesTo (exec (.vlpf o) s) fun t => finishes s t .ld ((s.en .ld).pc + 8) ∧ writesNone s t) ∧
    ∀ (va : VNo) (sa : SReg) (ty : Fmt) (nt : Bool), let o : Indexed := ⟨vd, va, sa, pm, ty, nt⟩
      let w := ty.bits / 8
      let at_ (L : Nat) : Nat := (s.sReg sa + BitVec.ofInt 64 ((s.vLane va.toNat L).toInt * (w : Int))).toNat
      w ≤ 4 → s.accessCheck .ld .read w (((List.range 256).filter fun L => bit lanes L).map fun L => (at_ L, w)) = none →
      fills (.vldg o) fun t => ∀ (L key : Nat), L < 256 → bit lanes L = true → here (at_ L) w key →
        t.vLane vd.toNat L = BitVec.ofNat 32 (ofBytes (Bank.getRun 0 s.spad key w))) ∧
  ∀ (s : State) (vd : VNo) (sa sb : SReg) (pm : MaskNo) (ty : Fmt) (nt : Bool) (off : BitVec 13), inOrder s .ld →
    (ty.bits = 8 ∨ ty.bits = 16 ∨ ty.bits = 32) → s.here.sys.det = false →
    let w := ty.bits / 8
    let src (i j : Nat) : Nat := (s.sReg sa + BitVec.ofInt 64 (128 * off.toInt + (j : Nat) * (s.sReg sb).toInt)).toNat + i * w
    let base := clusterOf s.cur.core * windowSize + s.here.winBase
    (∀ j, j < 128 / w → src 0 j % w = 0 ∧ taskWindow ≤ src 0 j ∧ src 0 j + 8 * w ≤ taskWindow + windowSize ∧
      src 0 j + 8 * w ≤ taskWindow + s.here.tcb.pages * 65536) →
    goesTo (exec (.vldt ⟨vd, sa, sb, pm, ty, nt, off⟩) s) fun t => if s.holdsBack 1 = true then Spec.readsSome s t (.v vd.toNat) else
      finishes s t .ld ((s.en .ld).pc + 8) ∧ t.here.sys = s.here.sys ∧
      (∀ n, n ≠ vd.toNat → t.vReg n = s.vReg n) ∧ ∀ i j, i < 8 → j < 128 / w →
        elemOf ty.bits (t.vReg vd.toNat).toNat (128 * i / w + j) =
          if bit (s.active pm) ((128 * i + j * w) / 4) then ofBytes (Bank.getRun 0 s.spad (base + (src i j - taskWindow)) w)
          else elemOf ty.bits (s.vReg vd.toNat).toNat (128 * i / w + j)

/-- R145, R168: vldm and vlda load a mask and an accumulator, vsm and vsa store them; in a scratchpad window, the bytes at the address. Where
the device tears the access, which is its choice (log 97), the word finishes or waits with the rest of it. That of rows of vsa that overlap the
later one stays is the model's choice (log 100). -/
def Obligations.MaskAndAccumulatorAccess : Prop :=
  ∀ s : State,
    (∀ (m : MaskNo) (sa : SReg) (imm : BitVec 34), let va := (s.sReg sa + BitVec.ofInt 64 imm.toInt).toNat
      (inOrder s .ld → s.accessCheck .ld .read 32 [(va, 32)] = none → goesTo (exec (.vldm m sa imm) s) fun t =>
        if s.holdsBack 1 = true then Spec.readsSome s t (.m m.toNat) else movesTo s t .ld ((s.en .ld).pc + 8) ∧ t.spad = s.spad ∧ t.hbm = s.hbm ∧
          writesM s t m.toNat (BitVec.ofNat 256 (ofBytes (s.load va 32).1))) ∧
      (inOrder s .st → s.accessCheck .st .write 32 [(va, 32)] = none → goesTo (exec (.vsm m sa imm) s) fun t =>
        if s.holdsBack 1 = true then Spec.writesSome s t else movesTo s t .st ((s.en .st).pc + 8) ∧ t.here.regs = s.here.regs ∧ t.here.sys = s.here.sys ∧
          ∀ key, window s.cur.core s.here va 32 = .ok (.spad key) → t.rest = { s.rest with spad := t.spad } ∧
            ∀ k, t.spadByte k = if key ≤ k ∧ k < key + 32 then (s.mReg m.toNat).extractLsb' (8 * (k - key)) 8 else s.spadByte k)) ∧
    ∀ (acc : AccNo) (sa sb : SReg) (nt : Bool) (key : Nat → Nat),
      let row (i : Nat) : Nat := (s.sReg sa + BitVec.ofInt 64 ((i : Int) * (s.sReg sb).toInt)).toNat
      (s.sReg sb).toNat % 4 = 0 → (∀ i, i < 32 → window s.cur.core s.here (row i) 512 = .ok (.spad (key i))) →
      (inOrder s .ld → s.accessCheck .ld .read 4 ((List.range 32).map fun i => (row i, 512)) = none →
        goesTo (exec (.vlda acc sa sb) s) fun t => if s.holdsBack 1 = true then Spec.readsSome s t (.acc acc.toNat) else finishes s t .ld ((s.en .ld).pc + 8) ∧ t.here.sys = s.here.sys ∧
          { t.here.regs with acc := [] } = { s.here.regs with acc := [] } ∧
          (∀ n, n ≠ acc.toNat → Bank.get 0 t.here.regs.acc n = Bank.get 0 s.here.regs.acc n) ∧
          ∀ i c, i < 32 → c < 128 → tileElem (Bank.get 0 t.here.regs.acc acc.toNat) i c = ofBytes (Bank.getRun 0 s.spad (key i + 4 * c) 4)) ∧
      (inOrder s .st → s.accessCheck .st .write 4 ((List.range 32).map fun i => (row i, 512)) = none →
        goesTo (exec (.vsa acc sa sb nt) s) fun t => if s.holdsBack 1 = true then Spec.writesSome s t else movesTo s t .st ((s.en .st).pc + 8) ∧ t.here.regs = s.here.regs ∧
          t.here.sys = s.here.sys ∧ (∀ k, (∀ i, i < 32 → k < key i ∨ key i + 512 ≤ k) → t.spadByte k = s.spadByte k) ∧
          ∀ i c, i < 32 → c < 128 → (∀ j, i < j → j < 32 → key j + 512 ≤ key i + 4 * c ∨ key i + 4 * c + 4 ≤ key j) →
            ofBytes (Bank.getRun 0 t.spad (key i + 4 * c) 4) = tileElem (Bank.get 0 s.here.regs.acc acc.toNat) i c)

/-- R145, R163 to R165: a strided store writes each active lane of its register and a scatter each active element, in ascending order of lanes,
and neither changes a register or, in the scratchpad windows, any other byte. Where the device tears the access, which is its choice (log 97),
the word finishes or waits with what it has still to store. -/
def Obligations.VectorStores : Prop :=
  ∀ (s : State) (v : VNo) (pm : MaskNo), inOrder s .st →
    let lanes := (List.range 256).filter fun L => bit (s.active pm) L
    let stores (t : State) (w : Nat) (key : Nat → Nat) : Prop := movesTo s t .st ((s.en .st).pc + 8) ∧ t.here.regs = s.here.regs ∧
      t.here.sys = s.here.sys ∧ t.rest = { s.rest with spad := t.spad } ∧ ∀ k, t.spadByte k =
        lanes.foldl (fun b L => if key L ≤ k ∧ k < key L + w then (s.vLane v.toNat L).extractLsb' (8 * (k - key L)) 8 else b) (s.spadByte k)
    (∀ (sa sb : SReg) (ty : Fmt) (nt : Bool) (off : BitVec 13),
      let rows := rowAddrs (s.sReg sa) (s.sReg sb) off
      let al := if rowsAligned rows (s.active pm) (Fmt.width ty) then 1 else 0
      s.accessCheck .st .write al (accessesOf (stridedRuns rows (s.active pm))) = none →
      (goesTo (exec (.vst ⟨v, sa, sb, pm, ty, nt, off⟩) s) fun t => Spec.writesSome s t ∧
        (s.holdsBack 1 = false → movesTo s t .st ((s.en .st).pc + 8))) ∧
      ∀ key : Nat → Nat, s.holdsBack 1 = false → (∀ L ∈ lanes, window s.cur.core s.here
          (s.sReg sa + BitVec.ofInt 64 (128 * off.toInt + (L / 32 : Nat) * (s.sReg sb).toInt + (4 * (L % 32) : Nat))).toNat 4 = .ok (.spad (key L))) →
        goesTo (exec (.vst ⟨v, sa, sb, pm, ty, nt, off⟩) s) fun t => stores t 4 key) ∧
    ∀ (va : VNo) (sa : SReg) (ty : Fmt) (nt : Bool),
      let w := ty.bits / 8
      let at_ (L : Nat) : Nat := (s.sReg sa + BitVec.ofInt 64 ((s.vLane va.toNat L).toInt * (w : Int))).toNat
      w ≤ 4 → s.accessCheck .st .write w (lanes.map fun L => (at_ L, w)) = none →
      (goesTo (exec (.vsc ⟨v, va, sa, pm, ty, nt⟩) s) fun t => Spec.writesSome s t ∧
        (s.holdsBack 1 = false → movesTo s t .st ((s.en .st).pc + 8))) ∧
      ∀ key : Nat → Nat, s.holdsBack 1 = false → (∀ L ∈ lanes, window s.cur.core s.here (at_ L) w = .ok (.spad (key L))) →
        goesTo (exec (.vsc ⟨v, va, sa, pm, ty, nt⟩) s) fun t => stores t w key

/-- R194 to R199, R203: a word of form VV computes each element of an active lane from the elements of its sources and of the old
destination, leaves inactive lanes, and ORs the events of its active elements into SYS.FLAGS. -/
def Obligations.VectorElementwiseResults : Prop :=
  ∀ (s : State) (i : Instr) (o : VV) (bits : Int → Int → Nat) (f : Nat → Nat → Nat → Nat → Nat × Flags), inOrder s .ve →
    Spec.vvElement bits i = some (o, f) → (o.ty.bits = 8 ∨ o.ty.bits = 16 ∨ o.ty.bits = 32) →
    s.roundBits .ve o.rm o.g.toNat = .ok bits →
    let w := o.ty.bits
    let x (v : VNo) (k : Nat) : Nat := elemOf w (s.vReg v.toNat).toNat k
    goesTo (exec i s) fun t => finishes s t .ve ((s.en .ve).pc + 8) ∧
      Spec.writesElements s t w o.vd (s.active o.pm) fun k => f k (x o.va k) (x o.vb k) (x o.vd k)

/-- R200, R203: a word of form VI computes each element of an active lane from its source element and the immediate, which is
sign-extended and truncated to the element; viota adds the element's number; vli places the immediate by type. -/
def Obligations.VectorImmediateResults : Prop :=
  ∀ (s : State) (i : Instr) (o : VI) (f : Nat → Nat → Nat), inOrder s .ve → Spec.viElement i = some (o, f) →
    (o.ty.bits = 8 ∨ o.ty.bits = 16 ∨ o.ty.bits = 32) →
    goesTo (exec i s) fun t => finishes s t .ve ((s.en .ve).pc + 8) ∧
      Spec.writesElements s t o.ty.bits o.vd (s.active o.pm) fun k => (f k (elemOf o.ty.bits (s.vReg o.va.toNat).toNat k), 0)

/-- R199, R200, R202, R203: selections, lane permutes and slides, broadcasts and mask counts write each active lane of their register and no
other. R201, R202: compares write one bit for each active lane, and mask words combine mask registers under a predicate; inactive bits
stay. -/
def Obligations.VectorLaneResults : Prop :=
  (∀ (s : State) (vd : VNo) (mk : MaskNo), inOrder s .ve →
    let lanes := s.active mk
    let gives (i : Instr) (f : Nat → BitVec 32) : Prop := goesTo (exec i s) fun t => finishes s t .ve ((s.en .ve).pc + 8) ∧
      Spec.writesElements s t 32 vd lanes fun L => ((f L).toNat, 0)
    (∀ va vb ms ty, gives (.vsel vd va vb ms mk ty) fun L => if bit (s.mReg ms.toNat) L then s.vLane va.toNat L else s.vLane vb.toNat L) ∧
    (∀ va vb rm g, gives (.vperm ⟨vd, va, vb, mk, .n32, rm, g⟩) fun L => s.vLane va.toNat ((s.vLane vb.toNat L).toNat % 256)) ∧
    (∀ (n : BitVec 8) va, gives (.vslide true n vd va mk) fun L => if L + n.toNat < 256 then s.vLane va.toNat (L + n.toNat) else 0) ∧
    (∀ (n : BitVec 8) va, gives (.vslide false n vd va mk) fun L => if n.toNat ≤ L then s.vLane va.toNat (L - n.toNat) else 0) ∧
    (∀ ma, gives (.vmpop vd ma mk) fun _ => BitVec.ofNat 32 ((List.range 256).countP fun L => bit (s.mReg ma.toNat) L)) ∧
    (∀ ma, gives (.vmfirst vd ma mk) fun _ => match (List.range 256).find? fun L => bit (s.mReg ma.toNat) L with
      | some L => BitVec.ofNat 32 L | none => 0xFFFFFFFF) ∧
    ∀ (sa : SReg) (ty : Fmt), (ty.bits = 8 ∨ ty.bits = 16 ∨ ty.bits = 32) → goesTo (exec (.vbcast vd sa mk ty) s) fun t =>
      finishes s t .ve ((s.en .ve).pc + 8) ∧ Spec.writesElements s t ty.bits vd lanes fun _ => ((s.sReg sa).toNat % 2 ^ ty.bits, 0)) ∧
  ∀ (s : State) (md mk : MaskNo), inOrder s .ve →
    let gives (i : Instr) (f : Nat → Bool) : Prop := goesTo (exec i s) fun t => ∃ x, finishes s t .ve ((s.en .ve).pc + 8) ∧
      writesM s t md.toNat x ∧ ∀ L, L < 256 → bit x L = if bit (s.active mk) L then f L else bit (s.mReg md.toNat) L
    (∀ ma mb, gives (.vmand md ma mb mk) (fun L => bit (s.mReg ma.toNat) L && bit (s.mReg mb.toNat) L) ∧
      gives (.vmor md ma mb mk) (fun L => bit (s.mReg ma.toNat) L || bit (s.mReg mb.toNat) L) ∧
      gives (.vmxor md ma mb mk) (fun L => bit (s.mReg ma.toNat) L ^^ bit (s.mReg mb.toNat) L) ∧
      gives (.vmnot md ma mk) fun L => !bit (s.mReg ma.toNat) L) ∧
    ∀ (c : VCond) (h : Bool) (va vb : VNo) (ty : Fmt) (imm : BitVec 13),
      let at_ (h : Bool) (v : VNo) (L : Nat) : Exact :=
        elemValue ty (elemOf ty.bits (s.vReg v.toNat).toNat (if ty.bits = 16 then 2 * L + (if h then 1 else 0) else L))
      gives (.vcmp c h md va vb mk ty) (fun L => evalVCond c (at_ h va L) (at_ h vb L)) ∧
      gives (.vcmpi c imm md va mk ty) fun L => evalVCond c (at_ false va L) (elemValue ty (imm.toInt % 2 ^ ty.bits).toNat)

/-- R204: vaccr reads two rows of an accumulator into the active lanes of a register, and vaccw writes the active lanes of a register into
two rows. -/
def Obligations.AccumulatorRowAccess : Prop :=
  ∀ (s : State) (v : VNo) (acc pair : AccNo) (mk : MaskNo), inOrder s .ve →
    let tile (u : State) (a : Nat) : Tile := Bank.get 0 u.here.regs.acc a
    (goesTo (exec (.vaccr v acc pair mk) s) fun t => finishes s t .ve ((s.en .ve).pc + 8) ∧
      Spec.writesElements s t 32 v (s.active mk) fun L => (elemOf 32 (tile s acc.toNat).toNat (256 * pair.toNat + L), 0)) ∧
    goesTo (exec (.vaccw acc v pair mk) s) fun t => finishes s t .ve ((s.en .ve).pc + 8) ∧ t.here.still = s.here.still ∧
      { t.here.regs with acc := [] } = { s.here.regs with acc := [] } ∧ (∀ a, a ≠ acc.toNat → tile t a = tile s a) ∧
      ∀ n, n < 4096 → elemOf 32 (tile t acc.toNat).toNat n =
        if n / 256 = pair.toNat ∧ bit (s.active mk) (n % 256) then (s.vLane v.toNat (n % 256)).toNat else elemOf 32 (tile s acc.toNat).toNat n

/-- R205: vcvt converts the elements of one part of the wider of its registers, in active lanes, and leaves every other element. -/
def Obligations.VectorConversion : Prop :=
  ∀ (s : State) (vd va : VNo) (part : BitVec 2) (src ty : Fmt) (mk : MaskNo) (rm : RMode) (g : GenNo) (bits : Int → Int → Nat), inOrder s .ve →
    (src.bits = 8 ∨ src.bits = 16 ∨ src.bits = 32) → (ty.bits = 8 ∨ ty.bits = 16 ∨ ty.bits = 32) →
    part.toNat * Nat.min src.bits ty.bits < Nat.max src.bits ty.bits → s.roundBits .ve rm g.toNat = .ok bits →
    let ns := 8192 / src.bits
    let nd := 8192 / ty.bits
    -- the source element of destination element k, where this part has one
    let from_ (k : Nat) : Option Nat :=
      if ns < nd then (if part.toNat * ns ≤ k ∧ k < part.toNat * ns + ns then some (k - part.toNat * ns) else none) else some (part.toNat * nd + k)
    goesTo (exec (.vcvt vd va part src mk ty rm g) s) fun t => finishes s t .ve ((s.en .ve).pc + 8) ∧
      (∀ n, n ≠ vd.toNat → t.vReg n = s.vReg n) ∧ ∀ k, k < nd → elemOf ty.bits (t.vReg vd.toNat).toNat k =
        match from_ k with
        | some j => if bit (s.active mk) (k * ty.bits / 32) then
            (convert src ty rm (bits 0 (k : Int)) (elemOf src.bits (s.vReg va.toNat).toNat j)).1 % 2 ^ ty.bits
          else elemOf ty.bits (s.vReg vd.toNat).toNat k
        | none => elemOf ty.bits (s.vReg vd.toNat).toNat k

/-- R206: vcvtmx quantises 256 FP32 elements into eight packed blocks, and vdqmx decodes such blocks into the active lanes. -/
def Obligations.VectorBlockConversion : Prop :=
  ∀ (s : State) (o : VV) (bits : Int → Int → Nat), inOrder s .ve → s.roundBits .ve o.rm o.g.toNat = .ok bits →
    let blocks := quantBlocks o.ty o.rm 8 ((List.range 256).map fun L => elemValue .f32 (s.vLane o.va.toNat L).toNat)
      ((List.range 256).map fun (k : Nat) => bits 0 (k : Int))
    (goesTo (exec (.vcvtmx o) s) fun t => finishes s t .ve ((s.en .ve).pc + 8) ∧ (∀ n, n ≠ o.vd.toNat → t.vReg n = s.vReg n) ∧
      t.vReg o.vd.toNat = BitVec.ofNat 8192 (packedForm o.ty (blocks.map fun b => (b.1, b.2.1))) ∧
      t.here.sys = { s.here.sys with flags := s.here.sys.flags ||| Flags.all (blocks.map fun b => b.2.2) }) ∧
    goesTo (exec (.vdqmx o) s) fun t => finishes s t .ve ((s.en .ve).pc + 8) ∧ Spec.writesElements s t 32 o.vd (s.active o.pm) fun k =>
      roundFloat .f32 o.rm (bits 0 (k : Int)) (packedValue o.ty (s.vReg o.va.toNat).toNat k)

/-- R207, R208: a reduction puts the sum, the sum of products, the greatest or the least of the active elements of each row, or of the
register, into every lane of the row or of the register: a floating sum under profile 1, 2 or 3, every other under none. That a sum groups consecutive active terms is the model's choice (log 93). -/
def Obligations.VectorReductions : Prop :=
  ∀ (s : State) (o : Reduce), inOrder s .ve →
    let x (v : VNo) (k : Nat) : Nat := elemOf o.ty.bits (s.vReg v.toNat).toNat k
    let value (v : VNo) (k : Nat) : Exact := elemValue o.ty (x v k)
    let gives (i : Instr) (f : List Nat → Nat) : Prop := goesTo (exec i s) fun t => finishes s t .ve ((s.en .ve).pc + 8) ∧
      (∀ n, n ≠ o.vd.toNat → t.vReg n = s.vReg n) ∧ ∀ L, L < 256 →
        (t.vLane o.vd.toNat L).toNat = f (reduceElems o (s.active o.pm) (if o.row then some (L / 32) else none)) % 2 ^ 32
    ((if o.ty.isFloat then 1 ≤ o.prof.toNat ∧ o.prof.toNat ≤ 3 else o.prof = 0) →
    gives (.vredsum o) (fun ks => if o.ty.isFloat then (profileSum o.prof.toNat (ks.map fun k => (value o.va k, 0))).1
      else ((ks.map fun k => intElem o.ty (x o.va k)).sum % 2 ^ 32).toNat) ∧
    gives (.vdot o) (fun ks => if o.ty.isFloat then (profileSum o.prof.toNat (ks.map fun k => (value o.va k).mul (value o.vb k))).1
      else ((ks.map fun k => intElem o.ty (x o.va k) * intElem o.ty (x o.vb k)).sum % 2 ^ 32).toNat)) ∧
    (o.prof = 0 → gives (.vredmax o) (fun ks => extremum o.ty true (ks.map (x o.va))) ∧
    gives (.vredmin o) fun ks => extremum o.ty false (ks.map (x o.va)))

/-- R209 to R214: a defined function replaces each active FP32 lane by its value and ORs its events. -/
def Obligations.DefinedFunctions : Prop :=
  ∀ (s : State) (o : VV), inOrder s .ve →
    let gives (i : Instr) (f : Exact → Nat × Flags) : Prop := goesTo (exec i s) fun t => finishes s t .ve ((s.en .ve).pc + 8) ∧
      Spec.writesElements s t 32 o.vd (s.active o.pm) fun L => f (elemValue .f32 (s.vLane o.va.toNat L).toNat)
    gives (.vexp2 o) Fn.exp2 ∧ gives (.vlog2 o) Fn.log2 ∧ gives (.vrcp o) Fn.rcp ∧ gives (.vrsqrt o) Fn.rsqrt ∧
      gives (.vsinT o) (Fn.sinCos false) ∧ gives (.vcosT o) (Fn.sinCos true)

/-- R250, R251, R258: gfill writes the active elements from the generator at coordinates and leaves the generator; gfill.s draws one
value for each element of a register and counts them all in CTR. -/
def Obligations.GeneratorFills : Prop :=
  ∀ (s : State) (vd : VNo) (g : GenNo) (sa : SReg) (ty : Fmt) (mk : MaskNo), inOrder s .ve → (ty.bits = 16 ∨ ty.bits = 32) →
    let gen := s.rdG .ve g.toNat
    fillKind gen ty = true →
    (gen.operand = true → goesTo (exec (.gfill vd g sa ty mk) s) fun t => finishes s t .ve ((s.en .ve).pc + 8) ∧
      Spec.writesElements s t ty.bits vd (s.active mk) fun k => fillElem s.place gen g.toNat ty 0
        (((s.sReg sa).extractLsb' 0 32).toInt + (k / (1024 / ty.bits) : Nat)) (((s.sReg sa).extractLsb' 32 32).toInt + (k % (1024 / ty.bits) : Nat)) false) ∧
    (gen.drawable = true → goesTo (exec (.gfillS vd g ty mk) s) fun t => finishes s t .ve ((s.en .ve).pc + 8) ∧
      (∀ n, n ≠ vd.toNat → t.vReg n = s.vReg n) ∧
      (Bank.get Gen.zero t.here.regs.g g.toNat).ctr = (gen.ctr + 8192 / ty.bits) % 2 ^ 128 ∧
      ∀ k, k < 8192 / ty.bits → elemOf ty.bits (t.vReg vd.toNat).toNat k = if bit (s.active mk) (k * ty.bits / 32) then
        (fillElem s.place gen g.toNat ty ((gen.ctr + k) % 2 ^ 128) 0 0 true).1 % 2 ^ ty.bits else elemOf ty.bits (s.vReg vd.toNat).toNat k)

/-- R53, R169 to R172: the transpose engine's words write whole registers: transposes, unpacked and packed elements, rearranged rows and
lanes, and elements quantised through the signed Hadamard transform or decoded through its inverse. No other register changes. -/
def Obligations.TransposeEngineResults : Prop :=
  ∀ (s : State) (ty : Fmt) (vd va : VNo), inOrder s .xp →
    let x (u : State) (w v n : Nat) : Nat := elemOf w (u.vReg (v + n / (8192 / w))).toNat (n % (8192 / w))
    let gives (i : Instr) (u : State) (n w : Nat) (el : Nat → Nat × Flags) : Prop := goesTo (exec i s) fun t =>
      movesTo s t .xp ((s.en .xp).pc + 8) ∧ t.rest = u.rest ∧ { t.here.still with sys := s.here.sys } = s.here.still ∧
        t.here.sys = { s.here.sys with flags := s.here.sys.flags ||| Flags.all ((List.range (n * (8192 / w))).map fun k => (el k).2) } ∧
        { t.here.regs with v := [] } = { s.here.regs with v := [] } ∧
        (∀ m, m < vd.toNat ∨ vd.toNat + n ≤ m → t.vReg m = s.vReg m) ∧ ∀ k, k < n * (8192 / w) → x t w vd.toNat k = (el k).1 % 2 ^ w
    ((ty.bits = 8 ∨ ty.bits = 16 ∨ ty.bits = 32) → gives (.xtr ty vd va) s (ty.bits / 8) ty.bits fun k =>
      (x s ty.bits va.toNat (32 * (k % 32) + k / 32), 0)) ∧
    ((ty = .mxf4 ∨ ty = .mxi4 ∨ ty = .mxi6) →
      let signed (b c : Nat) : Nat := if ty = .mxf4 then c else (signedOf b c % 2 ^ 8).toNat
      let clamp (c : Nat) : Nat × Flags :=
        let z := signedOf 8 c
        let h : Int := 2 ^ (ty.bits - 1)
        if ty = .mxf4 then (c % 16, 0) else if h ≤ z then ((h - 1).toNat, Flags.saturate)
        else if z < -h then ((-h % 2 ^ ty.bits).toNat, Flags.saturate) else ((z % 2 ^ ty.bits).toNat, 0)
      (ty.bits = 4 → gives (.xunpk ty vd va) s 2 8 (fun k => (signed 4 (x s 4 va.toNat (2 * (k % 1024) + k / 1024)), 0)) ∧
        gives (.xpk ty vd va) s 1 8 fun k =>
          let a := clamp (x s 8 va.toNat k)
          let b := clamp (x s 8 va.toNat (1024 + k))
          (a.1 + 16 * b.1, a.2 ||| b.2)) ∧
      (ty.bits = 6 → gives (.xunpk ty vd va) s 1 8 (fun k => (signed 6 (elemOf 6 (s.vReg va.toNat).toNat k), 0)) ∧
        gives (.xpk ty vd va) s 1 2 fun k => let a := clamp (x s 8 va.toNat (k / 3))
          if k < 3072 then (a.1 / 4 ^ (k % 3), a.2) else (0, 0))) ∧
    (∀ p : BitVec 24, gives (.xperm vd va p) s 1 1024 fun i => (x s 1024 va.toNat (slice p (3 * i + 2) (3 * i)), 0)) ∧
    (∀ (vb : VNo) (n : BitVec 8), gives (.xcat vd va vb n) s 1 32 fun L =>
      (if L + n.toNat < 256 then x s 32 va.toNat (L + n.toNat) else x s 32 vb.toNat (L + n.toNat - 256), 0)) ∧
    ∀ (rm : RMode) (g : GenNo) (sa sb : SReg) (t : Shape) (i0 : Nat) (u : State) (bits : Int → Int → Nat),
      s.hadamardShape sa sb rm g = .ok (t, i0, bits, u) →
      let flip (k : Nat) (v : Exact) : Exact := if Flurry.sign t.hseed ((i0 + k / 32 : Nat) : Int) ((k % 32 : Nat) : Int) then v.neg else v
      let sums (b : Nat) : List (Exact × Flags) :=
        let xs := (List.range 32).map fun j => flip (32 * b + j) (elemValue .f32 (s.vLane va.toNat (32 * b + j)).toNat)
        (List.range 32).map fun a => hadamard a xs
      let block (b : Nat) : Nat × List Nat × Flags :=
        mxQuant ty rm ((sums b).map Prod.fst) ((List.range 32).map fun j => bits ((i0 + b : Nat) : Int) (j : Nat))
      let form := packedForm ty ((List.range 8).map fun b => ((block b).1, (block b).2.1))
      let all := Flags.all ((List.range 8).map fun b => (block b).2.2 ||| Flags.all ((sums b).map Prod.snd))
      gives (.xhq ty rm g vd va sa sb) u 1 8192 (fun _ => (form, all)) ∧
        gives (.xhdq ty rm g vd va sa sb) u 1 32 fun k =>
          let h := hadamard (k % 32) ((List.range 32).map fun a => packedValue ty (s.vReg va.toNat).toNat (k / 32 * 32 + a))
          let r := roundFloat .f32 rm (bits ((i0 + k / 32 : Nat) : Int) ((k % 32 : Nat) : Int)) (flip k (h.1.shift (-5)))
          (r.1, r.2 ||| h.2)

/-- R250 to R257: the sequencer's generator words write one image, read one word of it, advance its counter, derive its key, store and
load it; gdraw takes the value at the counter and counts it. No other generator changes. -/
def Obligations.GeneratorWords : Prop :=
  ∀ (s : State) (g : GenNo) (sd sa sb : SReg), inOrder s .sq →
    let gen (u : State) : Gen := Bank.get Gen.zero u.here.regs.g g.toNat
    let word (u : State) (w : Nat) : Nat := elemOf 64 (gen u).img.toNat w
    let n := (s.sReg sa).toNat + (s.sReg sb).toNat * 2 ^ 64
    let a := (s.sReg sa).toNat
    let writesG (t : State) : Prop := movesTo s t .sq ((s.en .sq).pc + 8) ∧ t.here.still = s.here.still ∧
      { t.here.regs with g := [], s := [] } = { s.here.regs with g := [], s := [] } ∧
      ∀ m, m ≠ g.toNat → Bank.get Gen.zero t.here.regs.g m = Bank.get Gen.zero s.here.regs.g m
    let counts (t : State) (c : Nat) : Prop := writesG t ∧ t.rest = s.rest ∧ (gen t).freq = (gen s).freq ∧ (gen t).ctr = c % 2 ^ 128 ∧
      ∀ w, w < 8 → w ≠ 2 → w ≠ 3 → word t w = word s w
    (∀ w : BitVec 3, (w = 7 → slice (s.sReg sa) 39 36 = 0 ∧ slice (s.sReg sa) 47 44 = 0) → goesTo (exec (.gset g w sa) s) fun t =>
      writesG t ∧ t.rest = s.rest ∧ t.here.regs.s = s.here.regs.s ∧ (gen t).freq = none ∧
        ∀ v, v < 8 → word t v = if v = w.toNat then a else word s v) ∧
    (∀ w : BitVec 3, goesTo (exec (.gget sd g w) s) fun t => finishes s t .sq ((s.en .sq).pc + 8) ∧ writesS s t sd (BitVec.ofNat 64 (word s w.toNat))) ∧
    (goesTo (exec (.gskip g sa sb) s) fun t => counts t ((gen s).ctr + n) ∧ t.here.regs.s = s.here.regs.s) ∧
    (goesTo (exec (.gkey g sa sb) s) fun t => writesG t ∧ t.rest = s.rest ∧ (gen t).freq = (gen s).freq ∧ t.here.regs.s = s.here.regs.s ∧
      (gen t).key = Flurry.sastrugi (gen s).key n % 2 ^ 128 ∧ ∀ w, 2 ≤ w → w < 8 → word t w = word s w) ∧
    ((gen s).drawable = true → goesTo (exec (.gdraw sd g) s) fun t => counts t ((gen s).ctr + 1) ∧
      ∀ r, t.sReg r = if r = sd ∧ sd ≠ 0 then BitVec.ofNat 64 (drawValue s.place (gen s) g.toNat) else s.sReg r) ∧
    (∀ key, a % 64 = 0 → s.windowOperand a 64 64 = .ok key → s.conflicts .sq [(key, key + 64)] true = false →
      goesTo (exec (.gsave g sa) s) fun t =>
      movesTo s t .sq ((s.en .sq).pc + 8) ∧ writesNone s t ∧ t.rest = { s.rest with spad := t.spad } ∧
        ∀ k, t.spadByte k = if key ≤ k ∧ k < key + 64 then (gen s).img.extractLsb' (8 * (k - key)) 8 else s.spadByte k) ∧
    (s.blockCheck a 64 64 .read = .ok () →
      let r : Gen := ⟨BitVec.ofNat 512 (ofBytes (s.load a 64).1), none⟩
      let u := (s.load a 64).2
      r.imageOk = true →
      (r.isRotary = false → goesTo (exec (.gload g sa) s) fun t => writesG t ∧ t.here.regs.s = s.here.regs.s ∧ t.rest = u.rest ∧ gen t = r) ∧
      (r.isRotary = true → s.blockCheck r.tableAddr (4 * r.nf) 4 .read = .ok () → goesTo (exec (.gload g sa) s) fun t =>
        writesG t ∧ t.here.regs.s = s.here.regs.s ∧ gen t = ⟨r.img, some ((List.range r.nf).map fun i =>
          BitVec.ofNat 32 (fieldAt (u.load r.tableAddr (4 * r.nf)).1 (4 * i) 4))⟩))

/-- R173 to R176, R355, R356: a drain stores the rows of an accumulator, converted or as their k largest elements, and ORs its events; a
counted drain adds one to its chunk counter, once its bytes are in the die cache, up to 65,535. clchunk arms a counter's
expectation; clstat reads counters and group slots. Where the device tears a drain, which is its choice (R145, log 97), the word finishes or
waits with what it has still to store; the count takes the task's bytes out of the write-combining buffers first. That the base of register sc counts without a sign is the model's reading (log 11). -/
def Obligations.DrainsAndChunkCounters : Prop :=
  ∀ s : State,
    (∀ (acc : AccNo) (sa sb sc : SReg) (ty : Fmt) (rm : RMode) (g : GenNo) (k : BitVec 4) (cc nt : Bool) (ccid : BitVec 5)
        (bits : Int → Int → Nat), inOrder s .st → s.roundBits .st rm g.toNat = .ok bits →
      let tile : Tile := Bank.get 0 s.here.regs.acc acc.toNat
      let row (i : Nat) : List Byte × Flags := if k = 0 then drainRow ty rm (tileRow tile i) ((List.range 128).map fun (c : Nat) =>
          bits (slice (s.sReg sc) 63 32 + i : Nat) (slice (s.sReg sc) 31 0 + c : Nat))
        else (topRow k.toNat (slice (s.sReg sc) 31 0) (tileRow tile i), 0)
      let n (i : Nat) : Nat := (row i).1.length
      let at_ (i : Nat) : Nat := (s.sReg sa + BitVec.ofInt 64 ((i : Int) * (s.sReg sb).toInt)).toNat
      (cc = true → ∀ i, i < 32 → touchesScratch (at_ i) (drainBytes ty k.toNat) = false) →
      s.accessCheck .st .write (if k = 0 then (if ty.isMx then 1 else ty.bits / 8) else 4) ((List.range 32).map fun i => (at_ i, n i)) = none →
      goesTo (exec (.vsdrain acc sa sb sc ty rm g k cc nt ccid) s) fun t => if s.holdsBack 1 = true then Spec.writesSome s t else movesTo s t .st ((s.en .st).pc + 8) ∧
        t.here.regs = s.here.regs ∧ t.here.sys = { s.here.sys with flags := s.here.sys.flags ||| Flags.all ((List.range 32).map fun i => (row i).2) } ∧
        t.chunkDue = s.chunkDue ++ (if cc then [(s.here.inst, ccid.toNat)] else []) ∧
        ∀ key : Nat → Nat, (∀ i, i < 32 → window s.cur.core s.here (at_ i) (n i) = .ok (.spad (key i))) →
          (∀ b, (∀ i, i < 32 → b < key i ∨ key i + n i ≤ b) → t.spadByte b = s.spadByte b) ∧
          ((∀ i j, i < j → j < 32 → key i + n i ≤ key j ∨ key j + n j ≤ key i) →
            ∀ i, i < 32 → Bank.getRun 0 t.spad (key i) (n i) = (row i).1)) ∧
    (∀ (task : BitVec 32) (n inst : Nat), s.chunkDue.find? (fun x => decide (x.2 = n) && decide (s.taskOf x.1 = some task)) = some (inst, n) →
      goesTo (exec (.chunkCountIncrement task n) s) fun t => t.chunkDue = s.chunkDue.erase (inst, n) ∧ (t.chunkCtr inst n).count.toNat =
        Nat.min 65535 ((s.chunkCtr inst n).count.toNat + 1) ∧ (∀ j m, j * 32 + m ≠ inst * 32 + n → t.chunkCtr j m = s.chunkCtr j m) ∧
        (∀ c ∈ s.taskCores inst, (t.core c).wc = []) ∧
        { t with chunks := s.chunks, chunkDue := s.chunkDue } = (s.taskCores inst).foldl drainCombine s) ∧
    ∀ sd sa sb : SReg, inOrder s .sq →
      (1 ≤ (s.sReg sa).toNat → (s.sReg sa).toNat < 65536 → (s.sReg sb).toNat < 32 → (s.chunkCtr s.here.inst (s.sReg sb).toNat).armed = false →
        goesTo (exec (.clchunk sa sb) s) fun t => movesTo s t .sq ((s.en .sq).pc + 8) ∧ writesNone s t ∧
          t.chunkCtr s.here.inst (s.sReg sb).toNat = ⟨0, (s.sReg sa).extractLsb' 0 16, false⟩) ∧
      ((s.sReg sb).toNat < 32 → let c := s.chunkCtr s.here.inst (s.sReg sb).toNat
        goesTo (exec (.clstatCc sd sb) s) fun t => finishes s t .sq ((s.en .sq).pc + 8) ∧
          writesS s t sd (BitVec.ofNat 64 (c.count.toNat + c.expect.toNat * 2 ^ 16 + (if c.armed then 2 ^ 32 else 0)))) ∧
      ((s.sReg sb).toNat < 16 → let v : Nat := match s.groups.find? fun g => decide (g.inst = s.here.inst) && decide (g.slot = (s.sReg sb).toNat) with
          | some g => g.call.toNat + g.members.length % 2 ^ 16 * 2 ^ 32 + 2 ^ 48
          | none => 0
        goesTo (exec (.clstatGrp sd sb) s) fun t => finishes s t .sq ((s.en .sq).pc + 8) ∧ writesS s t sd (BitVec.ofNat 64 v))

/-- R215 to R217: vupd starts an update of n elements whose descriptor passes its checks, or ends at once where DONE covers them. Each
chunk reads its elements, writes the new weights and moments and DONE, and the word ends after the last. -/
def Obligations.OptimiserUpdates : Prop :=
  ∀ s : State, s.here.sys.timed = false →
    (∀ (ty : Fmt) (sa sb : SReg), inOrder s .ve →
      let va := (s.sReg sa).toNat
      let n := (s.sReg sb).toNat
      let d := (s.load va 128).1
      let g := Bank.get Gen.zero s.here.regs.g (fieldAt d 69 1 / 8)
      n < 2 ^ 32 → va < 2 ^ 57 → va % 128 = 0 → (∃ p, s.check va 128 .read = .ok p) → updOk d ty n = true →
      (fieldAt d 72 8 < n → fieldAt d 69 1 % 8 = 4 → g.valid = true) →
      goesTo (exec (.vupd ty sa sb) s) fun t => t.here.regs = s.here.regs ∧ t.here.sys = s.here.sys ∧ t.spad = s.spad ∧ t.hbm = s.hbm ∧
        if n ≤ fieldAt d 72 8 then movesTo s t .ve ((s.en .ve).pc + 8)
        else (t.en .ve).pc = (s.en .ve).pc ∧ (t.en .ve).wait = some (.update (s.sReg sa) d (fieldAt d 72 8) n ty g)) ∧
    ∀ (desc : Word) (d : List Byte) (pos n : Nat) (ty : Fmt) (g : Gen) (key : Nat → Nat), s.here.phase = .running → s.here.trapHeld = none →
      (s.en .ve).wait = some (.update desc d pos n ty g) → pos < n → n < 2 ^ 32 →
      let hi := Nat.min n ((pos / 256 + 1) * 256)
      let arr := updArrays d ty
      let size (i : Nat) : Nat := if i = 4 then 8 else (arr.getD i ⟨0, 4⟩).size
      let start (i : Nat) : Nat := if i = 4 then desc.toNat + 72 else (arr.getD i ⟨0, 4⟩).addr + pos * size i
      let len (i : Nat) : Nat := if i = 4 then 8 else (hi - pos) * size i
      let elem (i p : Nat) : Nat := ofBytes (Bank.getRun 0 s.spad (key i + (p - pos) * size i) (size i))
      let rm := (RMode.ofCode (fieldAt d 69 1 % 8)).getD .rne
      let new (p : Nat) : Nat × Nat × Nat × Flags := updElem (updParams d) ty rm
        (if rm = .sr then Flurry.genBits s.place g (fieldAt d 69 1 / 8) 0 (p : Int) else 0)
        (elemValue (if fieldAt d 68 1 = 0 then .f32 else .bf16) (elem 1 p)) (elemValue ty (elem 0 p)) (elem 2 p) (elem 3 p)
      let events := Flags.all ((List.range (hi - pos)).map fun i => (new (pos + i)).2.2.2)
      (∀ i, i < 5 → s.check (start i) (len i) .read = .ok (.spad (key i)) ∧ s.check (start i) (len i) .write = .ok (.spad (key i))) →
      (∀ i j, i < j → j < 5 → key i + len i ≤ key j ∨ key j + len j ≤ key i) →
      goesTo (exec .vupdChunk s) fun t =>
        (∀ p, pos ≤ p → p < hi →
          ofBytes (Bank.getRun 0 t.spad (key 0 + (p - pos) * size 0) (size 0)) = (new p).1 % 256 ^ size 0 ∧
          ofBytes (Bank.getRun 0 t.spad (key 2 + (p - pos) * 4) 4) = (new p).2.1 % 256 ^ 4 ∧
          ofBytes (Bank.getRun 0 t.spad (key 3 + (p - pos) * 4) 4) = (new p).2.2.1 % 256 ^ 4) ∧
        ofBytes (Bank.getRun 0 t.spad (key 4) 8) = hi ∧ (∀ b, (∀ i, i < 5 → i ≠ 1 → b < key i ∨ key i + len i ≤ b) → t.spadByte b = s.spadByte b) ∧
        t.here.regs = s.here.regs ∧ t.here.sys = { s.here.sys with flags := s.here.sys.flags ||| events } ∧
        if hi = n then movesTo s t .ve ((s.en .ve).pc + 8)
        else (t.en .ve).pc = (s.en .ve).pc ∧ (t.en .ve).wait = some (.update desc d hi n ty g)

/-- R163, R166: a tensor-index access whose elements all lie on this package reads or writes each active element at the address that
its index resolves to; an element outside a permitting tensor reads as FILL and is not written. Where the device tears the access, which is
its choice (R145, log 97), the word finishes or waits with what it has still to read or to store. -/
def Obligations.TensorIndexAccesses : Prop :=
  ∀ (s : State) (o : TensorIx) (t0 : Shape) (u : State) (m : BitVec 256),
    let w := o.ty.bits / 8
    let lanes := s.active o.pm
    let at_ (kind : RKind) (k : Nat) : Except Code Reach :=
      let base := (List.range t0.rank).map fun d => (s.sReg (BitVec.ofNat 6 (o.sb.toNat + d))).toInt
      s.reach t0 m kind (base.set (t0.rank - 1) (base.getD (t0.rank - 1) 0 + (k : Int))) w
    let ks : List Nat := (List.range (1024 / w)).filter fun k => bit lanes (k * w / 4)
    let mine (kind : RKind) : List (Nat × Nat) :=
      ks.filterMap fun k => match at_ kind k with | .ok (.here va) => some (va, w) | _ => none
    let near (kind : RKind) : Prop := ∀ k ∈ ks, at_ kind k = .ok .fill ∨ ∃ va, at_ kind k = .ok (.here va)
    let waits (t : State) (e : Eng) : Prop := t.here.regs = s.here.regs ∧ (t.en e).pc = (s.en e).pc ∧
      ∃ op, (t.en e).wait = some (.lines op) ∧ op.todo = [] ∧ op.sent = [] ∧ (op.later ≠ [] ∨ op.rest ≠ [])
    let ends (t : State) (e : Eng) : Prop := (t.en e).pc = (s.en e).pc + 8 ∧ (t.en e).wait = none
    (w = 1 ∨ w = 2 ∨ w = 4) →
    (inOrder s .ld → s.tensorShape .ld o = .ok (t0, u) → u.mapOf .ld t0 = .ok m → near .read →
      s.conflicts .ld (s.spadRanges ((t0.recVa, 128) :: mine .read)) false = false →
      goesTo (exec (.vldx o) s) fun t => if s.holdsBack 1 = true then ends t .ld ∨ waits t .ld else movesTo s t .ld ((s.en .ld).pc + 8) ∧ t.spad = s.spad ∧ t.hbm = s.hbm ∧ t.here.sys = s.here.sys ∧
        (∀ n, n ≠ o.vd.toNat → t.vReg n = s.vReg n) ∧ ∀ k, k < 1024 / w →
          (bit lanes (k * w / 4) = false → elemOf (8 * w) (t.vReg o.vd.toNat).toNat k = elemOf (8 * w) (s.vReg o.vd.toNat).toNat k) ∧
          (k ∈ ks → at_ .read k = .ok .fill → elemOf (8 * w) (t.vReg o.vd.toNat).toNat k = t0.fill % 2 ^ (8 * w)) ∧
          ∀ va key, k ∈ ks → at_ .read k = .ok (.here va) → window s.cur.core s.here va w = .ok (.spad key) →
            elemOf (8 * w) (t.vReg o.vd.toNat).toNat k = ofBytes (Bank.getRun 0 s.spad key w)) ∧
    (inOrder s .st → s.tensorShape .st o = .ok (t0, u) → u.mapOf .st t0 = .ok m → near .write →
      s.recordBusy .st t0.recVa = false → s.conflicts .st (s.spadRanges (mine .write)) true = false → s.lockOf (s.recKey t0.recVa) = none →
      goesTo (exec (.vsx o) s) fun t => if s.holdsBack 1 = true then ends t .st ∨ waits t .st else movesTo s t .st ((s.en .st).pc + 8) ∧ t.here.regs = s.here.regs ∧ t.here.sys = s.here.sys ∧
        ∀ key : Nat → Nat, (∀ k ∈ ks, ∀ va, at_ .write k = .ok (.here va) → window s.cur.core s.here va w = .ok (.spad (key k))) →
          ∀ b, t.spadByte b = ks.foldl (fun x k => match at_ .write k with
            | .ok (.here _) => if key k ≤ b ∧ b < key k + w then BitVec.ofNat 8 (elemOf (8 * w) (s.vReg o.vd.toNat).toNat k / 256 ^ (b - key k)) else x
            | _ => x) (s.spadByte b))

/-- R161, R345, R346: a request of another package for a line is performed here and answered: a read with the line of the copy of
record, a write, with no generation to compare, with an acknowledgement after its masked bytes are there. A response frees its slots;
the last one that a vldx waits for ends it with the line's elements. -/
def Obligations.RemoteLineAccesses : Prop :=
  ∀ s : State,
    (∀ (r : LineReq) (tr tp : Trans), s.level = .full → translate s 8 r.asid (r.va.toNat / 128 * 128) = .ok tr →
      (r.write = false → pageCheck .read tr = .ok tp → goesTo (exec (.remoteAccessRequest (.line r)) s) fun t =>
        sends s t (.lineReply r.pkg r.core r.tag (homeLine s tp.phys)) ∧ t.spad = s.spad ∧ t.hbm = s.hbm ∧ t.cores = s.cores ∧
          t.dies = s.dies) ∧
      (r.write = true → r.data.length = 128 → r.gen = none → pageCheck .write tr = .ok tp →
        goesTo (exec (.remoteAccessRequest (.line r)) s) fun t => sends s t (.lineReply r.pkg r.core r.tag []) ∧ t.spad = s.spad ∧
          t.cores = s.cores ∧ t.dies = s.dies ∧ ∀ a, t.homeByte a =
            if tp.phys ≤ a ∧ a < tp.phys + 128 ∧ bit r.mask (a - tp.phys) = true then r.data.getD (a - tp.phys) 0 else s.homeByte a)) ∧
    ∀ (c tag : Nat) (q : RemoteOut) (op : LineOp) (data : List Byte) (elems : List (Nat × Nat)), c = s.cur.core → c < 160 → inOrder s .ld →
      s.here.remote = [q] → q.tag = tag → q.write = false → q.eng = Eng.ld.tag → data.length = 128 → s.here.runs = true →
      (s.en .ld).wait = some (.lines op) → op.write = false → op.todo = [] → op.later = [] → op.rest = [] → op.sent = [(tag, elems)] →
      (s.en .st).wait = none →
      goesTo (exec (.remoteResponse c tag data) s) fun t => t.here.remote = [] ∧ movesTo s t .ld ((s.en .ld).pc + 8) ∧ t.rest = s.rest ∧
        (∀ n, n ≠ op.vd → t.vReg n = s.vReg n) ∧ ∀ L, L < 256 → t.vLane op.vd L =
          if bit op.lanes L then BitVec.ofNat 32 (elemOf 32 (putElems op.width data op.val elems) L) else s.vLane op.vd L

/-- R230 to R233, R239 to R241: format words join the format queue; shadow words are written one by one or from 256 bytes; cancelling
discards the nests that have not started, and with all the held one too, and counts them; progress words read SYS.MXPROG and the queues;
with no nest left mxzero clears accumulators and mxsync passes; a resume releases the held nest. The tile held in the array is lost when all
are discarded. -/
def Obligations.MatrixControlWords : Prop :=
  ∀ s : State,
    (∀ sd sa sb sc : SReg, inOrder s .sq →
      let past (t : State) : Prop := movesTo s t .sq ((s.en .sq).pc + 8) ∧ t.here.regs = s.here.regs ∧ t.here.sys = s.here.sys
      let f : FmtWord := ⟨s.sReg sa, s.sReg sb, s.sReg sc⟩
      let goes (all : Bool) (n : Nest) : Bool := if n.started then all && decide (s.here.heldNest = some n) else true
      let gone (all : Bool) : Nat := (s.here.nests.filter (goes all)).length
      (formatWordOk f.w0 (decide (s.level = .reduced)) = true → f.w1.toNat < 2 ^ 57 → f.w2.toNat < 2 ^ 57 → s.here.fmtCount < 16 →
        goesTo (exec (.mxfmt sa sb sc) s) fun t => past t ∧ t.rest = s.rest ∧ t.here.fmtq = s.here.fmtq ++ [f] ∧ t.here.nests = s.here.nests) ∧
      (∀ n : BitVec 5, goesTo (exec (.mxcfg n sa) s) fun t => past t ∧ t.rest = s.rest ∧
        ∀ m, Bank.get 0 t.here.shadow m = if m = n.toNat then s.sReg sa else Bank.get 0 s.here.shadow m) ∧
      (s.blockCheck (s.sReg sa).toNat 256 64 .read = .ok () → goesTo (exec (.mxcfgl sa) s) fun t => past t ∧
        ∀ m, m < 32 → Bank.get 0 t.here.shadow m = BitVec.ofNat 64 (fieldAt (s.load (s.sReg sa).toNat 256).1 (8 * m) 8)) ∧
      (goesTo (exec (.mxcancel sd) s) fun t => finishes s t .sq ((s.en .sq).pc + 8) ∧ t.here.sys = s.here.sys ∧
        (t.here.nests.map fun n => n.id) = (s.here.nests.filter fun n => !goes false n).map (fun n => n.id) ∧ t.here.tile = s.here.tile ∧
        ∀ r, t.sReg r = if r = sd ∧ sd ≠ 0 then BitVec.ofNat 64 (gone false) else s.sReg r) ∧
      (goesTo (exec (.mxcancelAll sd) s) fun t => finishes s t .sq ((s.en .sq).pc + 8) ∧ t.here.sys.mxprog = 0 ∧
        (∀ x, t.here.tile = some x → x.lost = true) ∧
        (t.here.nests.map fun n => n.id) = (s.here.nests.filter fun n => !goes true n).map (fun n => n.id) ∧
        ∀ r, t.sReg r = if r = sd ∧ sd ≠ 0 then BitVec.ofNat 64 (gone true) else s.sReg r) ∧
      (goesTo (exec (.mxprog sd) s) fun t => finishes s t .sq ((s.en .sq).pc + 8) ∧ writesS s t sd
        (if s.here.held then s.here.sys.mxprog else match s.here.running with | some n => n.progress 0 | none => 0)) ∧
      goesTo (exec (.mxprogQ sd) s) fun t => finishes s t .sq ((s.en .sq).pc + 8) ∧
        writesS s t sd (BitVec.ofNat 64 (s.here.nests.length + s.here.fmtq.length * 16))) ∧
    (inOrder s .mx → let past (t : State) : Prop := movesTo s t .mx ((s.en .mx).pc + 8) ∧ t.rest = s.rest
      (s.here.nests = [] →
        (∀ (acc : AccNo) (nm1 : BitVec 4), acc.toNat + nm1.toNat < 16 → goesTo (exec (.mxzero acc nm1) s) fun t => past t ∧ t.here.sys = s.here.sys ∧
          { t.here.regs with acc := [] } = { s.here.regs with acc := [] } ∧ ∀ a, Bank.get 0 t.here.regs.acc a =
            if acc.toNat ≤ a ∧ a ≤ acc.toNat + nm1.toNat then 0 else Bank.get 0 s.here.regs.acc a) ∧
        goesTo (exec .mxsync s) fun t => past t ∧ writesNone s t) ∧
      (s.here.held = true → goesTo (exec .mxgoResume s) fun t => past t ∧ t.here.regs = s.here.regs ∧
        t.here.sys = { s.here.sys with mxprog := 0 } ∧ (t.here.nests.map fun n => n.id) = s.here.nests.map fun n => n.id))

/-- R223 to R237, R240: mxgo queues the nest that the shadow and the oldest format word describe. The nest at the head starts, loads its
held tile, streams a row into its accumulator and drains accumulators to its output rows, each as one step; before that step others may read
or write single chunks of it (R242). That a load of W reads the tile of its step, for a lost tile too, is the model's reading (log 94), and
that nests are at work one after another as events of their own its choice (log 41). -/
def Obligations.MatrixNests : Prop :=
  ∀ s : State, s.here.races = [] →
    (s.here.sys.timed = false →
      (∀ (fw : FmtWord) (rest : List FmtWord),
        let table := (List.range 32).map fun n => Bank.get 0 s.here.shadow n
        let l := Loop.of table fw
        let part (is : List Nat) := hull ((is.flatMap l.spans).flatMap (spadPart s.cur.core s.here))
        s.here.nests.length < 4 → s.here.fmtq = fw :: rest → l.check (fun g => Bank.get Gen.zero s.here.regs.g g) false (decide (s.level = .reduced)) (s.here.tcb.pages * 65536) = none →
        s.issueConflict .mx (part [0, 1]) (part [2]) [] = false →
        goesTo (exec .mxgo s) fun t => movesTo s t .mx ((s.en .mx).pc + 8) ∧ t.here.fmtq = rest ∧ t.here.regs = s.here.regs ∧
          t.here.sys = s.here.sys ∧ ∃ n : Nest, t.here.nests = s.here.nests ++ [n] ∧ n.table = table ∧ n.fw = fw ∧ n.started = false ∧
            n.step = 0 ∧ n.row = 0) ∧
      (4 ≤ s.here.nests.length → goesTo (exec .mxgo s) fun t => (t.en .mx).pc = (s.en .mx).pc ∧ (t.en .mx).wait = some (.nestRoom false) ∧
        t.here.nests = s.here.nests)) ∧
    ((s.en .mx).wait = some (.nestRoom false) → s.here.runs = true → s.here.nests.length < 4 →
      goesTo (exec .mxgoQueueRoom s) fun t => (t.en .mx).wait = none ∧ (t.en .mx).pc = (s.en .mx).pc ∧ t.here.nests = s.here.nests ∧
        t.rest = s.rest ∧ t.here.regs = s.here.regs) ∧
    ∀ n : Nest, s.nestHere = some n → n.timed = false → n.work = [] →
      let l := n.loop
      (n.started = false → goesTo (exec .nestStart s) fun t => t.rest = s.rest ∧ t.here.regs = s.here.regs ∧ t.here.eng = s.here.eng ∧
        ∃ m ∈ t.here.nests, m.id = n.id ∧ m.started = true ∧ m.table = n.table ∧ m.step = n.step ∧ m.row = n.row) ∧
      (n.started = true →
        (∀ rows u, n.rl = true → s.cur.unit = 0 → s.loadTile n (l.wDigits n.step) l.nv = .ok (rows, u) → goesTo (exec .nestLoadW s) fun t =>
          t.here.tile = some ⟨l.fmt 1, l.kv, l.nv, rows, false⟩ ∧ t.here.regs = s.here.regs ∧ t.rest = u.rest ∧
            ∃ m ∈ t.here.nests, m.id = n.id ∧ m.rl = false ∧ m.step = n.step) ∧
        (∀ (tile : HeldTile) (a : List Exact) (u : State), s.here.tile = some tile → n.rl = false → n.dr = none → n.step < l.total →
          s.cur.unit = 0 → n.row < 32 → l.oc ≤ 128 → s.operandRow n 0 (l.digits n.step) n.row l.cn = .ok (a, u) →
          let c := l.accOf n.step
          let old (x : State) (j : Nat) : Nat := elemOf 32 (Bank.get 0 x.here.regs.acc c).toNat j
          let new (col : Nat) : Nat := (nestDot l.prof l.had ((List.range l.cn).map fun x => (a.getD x .nan).mul (l.wv tile.rows x col))
            (old s (128 * n.row + col)) (bit n.fresh c)).1
          goesTo (exec .nestRow s) fun t => t.rest = u.rest ∧ (∀ b, b ≠ c → Bank.get 0 t.here.regs.acc b = Bank.get 0 s.here.regs.acc b) ∧
            { t.here.regs with acc := [] } = { s.here.regs with acc := [] } ∧ (∀ j, j < 4096 → old t j =
              if 128 * n.row ≤ j ∧ j < 128 * n.row + l.oc then new (j - 128 * n.row) % 2 ^ 32 else old s j) ∧
            (n.row + 1 < l.mv → ∃ m ∈ t.here.nests, m.id = n.id ∧ m.row = n.row + 1 ∧ m.step = n.step)) ∧
        ∀ (L : Nat) (key : Nat → Nat), n.dr = some L → s.drainFault (s.drainRows n L) = none →
          let rows := s.drainRows n L
          let r (i : Nat) : Nat × List Byte × Flags := rows.getD i (0, [], 0)
          goesTo (exec .nestDrain s) fun t => t.here.regs = s.here.regs ∧
            (s.cur.unit = 0 → t.chunkDue = s.chunkDue ++ (if l.ccen then [(s.here.inst, l.ccid)] else [])) ∧
            ((∀ i, i < rows.length → window s.cur.core s.here (r i).1 (r i).2.1.length = .ok (.spad (key i))) →
              (∀ b, (∀ i, i < rows.length → b < key i ∨ key i + (r i).2.1.length ≤ b) → t.spadByte b = s.spadByte b) ∧
              (s.cur.unit = 0 → n.drained = [] → (∀ i j, i < j → j < rows.length → key i + (r i).2.1.length ≤ key j ∨ key j + (r j).2.1.length ≤ key i) →
                ∀ i, i < rows.length → Bank.getRun 0 t.spad (key i) (r i).2.1.length = (r i).2.1)))

/-- R177, R178, R185, R267 to R269: a copy word whose checks pass forks a copy under the next command number, which sd takes with the
pending predecessors used up; cpcancel ends every copy of the core that has not started and counts them. -/
def Obligations.CopiesFork : Prop :=
  ∀ (s : State) (sd sa : SReg), inOrder s .sq →
    (∀ (i : Instr) (kind : Nat) (c : Copy) (u : State) (pl : Place), (kind, i) ∈ [(0, Instr.cpld sd sa), (1, .cpst sd sa), (2, .cpg sd sa), (3, .cpsc sd sa), (4, .cpmem sd sa)] →
      let block := s.load (s.sReg sa).toNat 128
      s.here.predsOk = true → s.here.canNumber = true → s.blockPlace (s.sReg sa).toNat 128 128 .read = .ok pl →
      block.2.prepareCopy (block.2.newCopy kind block.1) = .ok (c, u) →
      s.conflicts .sq (s.spadRanges (c.issueReads (s.sReg sa).toNat block.1)) false = false →
      s.issueConflict .sq (s.copyRanges c c.shapeRec).1 (s.copyRanges c c.shapeRec).2 s.here.preds = false →
      (c.writes = true → s.lockOf (s.recKey c.shapeAddr) = none) →
      goesTo (exec i s) fun t => movesTo s t .sq ((s.en .sq).pc + 8) ∧ t.copies = s.copies ++ [c] ∧ c.core = s.cur.core ∧ c.inst = s.here.inst ∧
        c.seq = s.here.sys.next ∧ c.kind = kind ∧ c.preds = s.here.pend0.toList ++ s.here.pend1.toList ∧ c.engine = none ∧ c.landed = [] ∧
        t.here.sys.next = s.here.sys.next + 1 ∧ t.here.live = s.here.live ++ [c.seq] ∧ t.here.pend0 = none ∧ t.here.pend1 = none ∧
        (∀ r, t.sReg r = if r = sd ∧ sd ≠ 0 then c.seq.zeroExtend 64 else s.sReg r)) ∧
    let out := s.copies.filter fun c => decide (c.core = s.cur.core) && c.engine.isNone
    goesTo (exec (.cpcancel sd) s) fun t => movesTo s t .sq ((s.en .sq).pc + 8) ∧
      (∀ c ∈ t.copies, c ∈ s.copies ∧ c ∉ out) ∧ (∀ c ∈ s.copies, (∀ d ∈ out, ¬ (c.inst = d.inst ∧ c.seq = d.seq)) → c ∈ t.copies) ∧
      ∀ r, t.sReg r = if r = sd ∧ sd ≠ 0 then BitVec.ofNat 64 out.length else s.sReg r

/-- R179, R181 to R184, R192, R275, R305: a forked copy starts on a copy engine once its predecessors have retired, and one with nothing to
move ends. A packet of a byte copy is a 64-byte chunk of its destination, which takes the bytes that the source holds; the copy retires
after its last. A remote signal acts on the task's object and its fate goes back; a NACK retires the copy that sent it. That a copy lands by
chunks, in any order, and keeps its source where the two overlap, is the model's choice (log 46). -/
def Obligations.CopiesProceed : Prop :=
  ∀ (s : State) (c : Copy), c ∈ s.copies → (∀ d ∈ s.copies, d.core = c.core → d.seq = c.seq → d = c) →
    (∀ d ∈ s.copies, d.inst = c.inst → d.seq = c.seq → d = c) → c.core < 160 → c.failing = none →
    let ended (t : State) : Prop := t.copies = s.copies.filter fun d => decide (d ≠ c)
    let becomes (t : State) (c' : Copy) : Prop := t.copies = s.copies.map fun d => if d = c then c' else d
    (∀ e : Nat, e < 4 → c.engine = none → c.again = false → (s.core c.core).runs = true → c.preds.all (s.hasRetired c.inst) = true →
      ((s.core c.core).sys.det = true → e = c.seq.toNat % 4) →
      goesTo (exec (.copyStart c.core c.seq e) s) fun t =>
        if s.copyParts c c.shapeRec = [] then
          s.copyWriting c = false → (s.itemFault c c.shapeRec = none → c.isRemote = false) → ended t
        else if c.kind = 4 ∧ s.selfOverlap c = true then
          ∀ bs, s.commandRead c.core c.asid c.src c.len = .ok bs → becomes t { c with engine := some e, kept := bs } ∧ t.spad = s.spad ∧ t.hbm = s.hbm
        else becomes t { c with engine := some e } ∧ t.spad = s.spad ∧ t.hbm = s.hbm) ∧
    (∀ (e first ks kd : Nat),
      let chunk := (c.dst / 64 + first) * 64
      let lo := Nat.max c.dst chunk
      let n := Nat.min (c.dst + c.len) (chunk + 64) - lo
      let parts := (c.dst % 64 + c.len + 63) / 64
      c.kind = 4 → s.copyItems c c.shapeRec = [] → e < 4 → c.engine = some e → c.signalled = false → c.isRemote = false → c.kept = [] → 0 < c.len →
      first < parts → c.fresh first 1 = true → c.src + (lo - c.dst) + n ≤ 2 ^ 57 →
      window c.core (s.core c.core) (c.src + (lo - c.dst)) n = .ok (.spad ks) → window c.core (s.core c.core) chunk 64 = .ok (.spad kd) →
      let writes (t : State) : Prop := ∀ k, t.spadByte k =
        if kd + (lo - chunk) ≤ k ∧ k < kd + (lo - chunk) + n then s.spadByte (ks + (k - (kd + (lo - chunk)))) else s.spadByte k
      (c.landedUnits + 1 < parts → c.doneKind = 0 → goesTo (exec (.copyPacketLand c.core c.seq e first 1) s) fun t =>
        becomes t { c with landed := c.landed ++ [(first, first + 1)], bytes := c.bytes + n } ∧ writes t) ∧
      (c.landedUnits + 1 = parts → c.recaddr = 0 → goesTo (exec (.copyPacketLand c.core c.seq e first 1) s) fun t =>
        ended t ∧ (c.doneKind = 0 → writes t))) ∧
    (∀ (g : Signal) (inst core key : Nat), g.core < 160 → (∀ d ∈ s.copies, d.signalled = false) → s.accepts g.core = true →
      s.signalTarget g.core g.task = some inst → s.coreOf inst = some core → g.write = true →
      window core (s.core core) g.addr.toNat 8 = .ok (.spad key) →
      goesTo (exec (.signalArrival g) s) fun t => sends s t (.signalDone g true) ∧ ofBytes (Bank.getRun 0 t.spad key 8) = g.value.toNat ∧
        (∀ k, k < key ∨ key + 8 ≤ k → t.spadByte k = s.spadByte k) ∧ t.cores = s.cores) ∧
    (s.cur.core = c.core → BitVec.ofNat 32 s.cur.unit = c.seq → c.signalled = true → goesTo (exec .signalNack s) fun t => ended t)

/-- R310 to R324: a Moraine word whose region and group pass takes the next number and sends its message to the home of its tag; the
blocking and trying words wait, mdep passes with a credit. A home slice delivers or parks a request and stores a tuple or hands it to
a take that waits; an answer ends the word that waits for it. The stages of a command between its core and its home are the model's own
(log 51). -/
def Obligations.MoraineTupleSpace : Prop :=
  ∀ s : State,
    (∀ (sd sa sb : SReg) (r : MRegion) (ws : List Word), inOrder s .sq → s.here.canNumber = true →
      let n := s.here.sys.next
      let issued (t : State) (kind : MKind) : Prop := t.here.sys.next = n + 1 ∧ t.here.mcmds.length = s.here.mcmds.length + 1 ∧
        ∃ m, t.here.mcmds.getLast? = some m ∧ m.msg.kind = kind ∧ m.msg.seq = n ∧ m.msg.rid = r.rid ∧ m.msg.words = ws ∧
          m.msg.slice = homeSliceOf r.rid (word ws 1).toNat ∧ m.inst = s.here.inst
      let past (t : State) : Prop := (t.en .sq).pc = (s.en .sq).pc + 8 ∧ (t.en .sq).wait = none ∧ ∀ e, e ≠ .sq → t.en e = s.en e
      let stays (t : State) (w : Wait) : Prop := (t.en .sq).pc = (s.en .sq).pc ∧ (t.en .sq).wait = some w ∧ ∀ q, t.sReg q = s.sReg q
      let sdIs (t : State) (x : Word) : Prop := ∀ q, t.sReg q = if q = sd ∧ sd ≠ 0 then x else s.sReg q
      (s.moraineCheck true sa sb [sb] = .ok (r, ws) →
        (s.here.credits ≠ 0 →
          (goesTo (exec (.mdep sd sa sb) s) fun t => past t ∧ sdIs t (n.zeroExtend 64) ∧ issued t .dep ∧ t.here.regionEntry = (s.en .sq).pc) ∧
          goesTo (exec (.mtrydep sd sa sb) s) fun t => stays t (.tried n sd sb) ∧ issued t .tryDep) ∧
        (s.here.credits = 0 →
          (goesTo (exec (.mdep sd sa sb) s) fun t => stays t (.credit sd (s.sReg sa) ws) ∧ t.here.mcmds = s.here.mcmds) ∧
          goesTo (exec (.mtrydep sd sa sb) s) fun t => past t ∧ sdIs t 2 ∧ t.here.mcmds = s.here.mcmds)) ∧
      (∀ va : Word, (s.en .sq).wait = some (.credit sd va ws) → s.here.runs = true → s.here.credits ≠ 0 → s.regionOf va.toNat = .ok r →
        goesTo (exec .mdepCreditFree s) fun t => past t ∧ sdIs t (n.zeroExtend 64) ∧ issued t .dep) ∧
      (s.moraineCheck false sa sb [sb, sd] = .ok (r, ws) →
        (goesTo (exec (.mrd sd sa sb) s) fun t => stays t (.tuple n sd false) ∧ issued t .rd) ∧
        goesTo (exec (.mtake sd sa sb) s) fun t => stays t (.tuple n sd true) ∧ issued t .take) ∧
      (s.moraineCheck false sa sb [sb] = .ok (r, ws) →
        (goesTo (exec (.mtryrd sd sa sb) s) fun t => stays t (.tried n sd sb) ∧ issued t .tryRd) ∧
        (goesTo (exec (.mtrytk sd sa sb) s) fun t => stays t (.tried n sd sb) ∧ issued t .tryTake) ∧
        goesTo (exec (.mwithdraw sd sa sb) s) fun t => stays t (.withdrawn n sd) ∧ issued t .withdraw)) ∧
    (∀ (a : Arrival MoraineMsg) (m : MoraineMsg) (r : MRegion),
      let comes (deposits : Bool) : Prop := MKind.deposits m.kind = deposits ∧ ((a = .remote m ∧ s.forSlice m = true ∧
          ∀ b ∈ (s.mslice m.slice).back, b.1 = m.pkg → b.2.1 = m.task → issuedNo m.seq b.2.2 = false) ∨
        ∃ n c k, a = .own n ∧ s.arrivingOwn deposits n = some (c, k) ∧ k.msg = m ∧ (s.earlier k).all (fun e => decide (e.st ≠ .unsent ∧ e.st ≠ .bounced)) = true)
      let sent (t : State) (q : MoraineMsg) (x : MoraineAnswer) : Prop := let rep : MoraineRep := ⟨q.pkg, q.core, q.task, q.seq, x⟩
        if q.pkg = s.package then rep ∈ t.mreplies else hasSent t (.moraineReply rep)
      let x := s.mslice m.slice
      let holds (t : State) (stamp : Nat) (bag : List MTuple) (parked : List MoraineMsg) : Prop := let y := t.mslice m.slice
        y.stamp = stamp ∧ y.bag = bag ∧ y.parked = parked
      let hit (t : MTuple) : Bool := decide (t.rid = r.rid) && tupleMatches t.dep.words m.words
      let fits (q : MoraineMsg) : Bool := decide (q.rid = r.rid) && tupleMatches m.words q.words
      s.regions.find? (fun r => decide (r.rid = m.rid) && (decide (m.pkg = s.package) || r.mesh)) = some r →
      (∀ y ∈ s.slices, ∀ t ∈ y.2.bag, t.held = false) →
      (comes false → m.kind ≠ .withdraw →
        (∀ u, x.bag.find? hit = some u → goesTo (exec (.moraineRequest a) s) fun t => sent t m (.tuple u.stamp u.dep.words) ∧
          holds t x.stamp (if MKind.takes m.kind then x.bag.filter fun v => decide (v ≠ u) else x.bag) x.parked) ∧
        (x.bag.find? hit = none → x.parked.length < 256 → goesTo (exec (.moraineRequest a) s) fun t =>
          if MKind.tries m.kind then sent t m .noMatch ∧ holds t x.stamp x.bag x.parked else holds t x.stamp x.bag (x.parked ++ [m]))) ∧
      (comes false → m.kind = .withdraw → goesTo (exec (.moraineRequest a) s) fun t =>
        sent t m (.count (x.bag.filter hit).length) ∧ holds t x.stamp (x.bag.filter fun u => !hit u) x.parked) ∧
      (comes true → (∀ q ∈ x.parked, fits q = false) →
        (s.regionFull r = false → goesTo (exec (.moraineDeposit a) s) fun t => sent t m .acked ∧
          holds t (x.stamp + 1) (x.bag ++ [⟨r.rid, x.stamp, false, m⟩]) x.parked) ∧
        (s.regionFull r = true → m.kind = .tryDep → goesTo (exec (.moraineDeposit a) s) fun t => sent t m .full ∧ holds t x.stamp x.bag x.parked)) ∧
      (comes true → ∀ q, x.parked = [q] → fits q = true → MKind.takes q.kind = true → goesTo (exec (.moraineDeposit a) s) fun t =>
        sent t q (.tuple x.stamp m.words) ∧ sent t m .acked ∧ holds t (x.stamp + 1) x.bag [])) ∧
    (∀ (m : MoraineMsg) (q : MoraineMsg), s.forSlice m = true → (s.mslice m.slice).parked = [q] → q.pkg = m.pkg → q.core = m.core →
      q.task = m.task → q.seq = m.seq → goesTo (exec (.moraineWithdrawal (.remote m)) s) fun t => (t.mslice m.slice).parked = [] ∧
        sends s t (.moraineReply ⟨m.pkg, m.core, m.task, m.seq, .withdrawn⟩)) ∧
    (∀ m : MCmd, s.here.mcmds.find? (fun m => decide (m.msg.seq.toNat = s.cur.unit) && s.mayMoraineSend s.cur.core m) = some m →
      goesTo (exec .moraineResend s) fun t => { m with st := .flying } ∈ t.here.mcmds ∧ t.here.regs = s.here.regs ∧ t.here.eng = s.here.eng) ∧
    ∀ (a : Arrival MoraineRep) (r : MoraineRep) (m : MCmd), inOrder s .sq → r.core = s.cur.core → r.core < 160 → s.answered r = some m →
      m.inst = s.here.inst → s.here.runs = true → (∀ e op, (s.en e).wait = some (.lines op) → op.todo = []) →
      ((a = .remote r ∧ r.pkg = s.package ∧ m.isOwn s = false) ∨
        ∃ n : Nat, a = .own n ∧ s.mreplies[n]? = some r ∧ ∀ q ∈ s.mreplies.take n, ¬ (q.core = r.core ∧ q.task = r.task ∧ q.seq = r.seq)) →
      let gone (t : State) : Prop := ∀ k ∈ t.here.mcmds, ¬ (k.inst = m.inst ∧ k.msg.seq = m.msg.seq)
      let past (t : State) : Prop := (t.en .sq).pc = (s.en .sq).pc + 8 ∧ (t.en .sq).wait = none
      (∀ (stamp : Nat) (u : List Word) (take : Bool), (s.en .sq).wait = some (.tuple m.msg.seq m.group take) → MKind.tries m.msg.kind = false →
        groupOk m.group = true → r.answer = .tuple stamp u → goesTo (exec (.moraineReply a) s) fun t => past t ∧ gone t ∧
          ∀ q : SReg, t.sReg q = match (deliveredWords m.msg.words u stamp).find? fun y => decide (q.toNat = m.group.toNat + y.1) with
            | some y => y.2 | none => s.sReg q) ∧
      (∀ sd g : SReg, (s.en .sq).wait = some (.tried m.msg.seq sd g) → r.answer = .noMatch → goesTo (exec (.moraineReply a) s) fun t =>
        past t ∧ gone t ∧ ∀ q, t.sReg q = if q = sd ∧ sd ≠ 0 then 1 else s.sReg q) ∧
      (r.answer = .acked → goesTo (exec (.depositAck a) s) fun t => gone t ∧ t.here.regs = s.here.regs ∧ t.here.eng = s.here.eng)

/-- R325 to R340: map words load, store and set a map register and bind a record to it by its MAPB byte; rshdq writes a plan; rshd forks
a reshard, which shows its call to the others once the writes before it are done. Once every member has issued, tiles fill the destination
buffer, the switch binds the record to MD, and the signal ends it. A tile is one position here, and the switch and the signal stand for what
all members have done: the model's choices (log 66, 67). -/
def Obligations.MapsAndReshards : Prop :=
  ∀ s : State,
    (∀ (sd sa sb sc : SReg) (m md : MapNo), inOrder s .sq →
      let a := (s.sReg sa).toNat
      let past (t : State) : Prop := movesTo s t .sq ((s.en .sq).pc + 8) ∧ t.here.sys = s.here.sys
      let maps (t : State) (v : BitVec 256) : Prop := past t ∧ t.here.still = s.here.still ∧ { t.here.regs with map := [] } = { s.here.regs with map := [] } ∧
        ∀ n, Bank.get 0 t.here.regs.map n = if n = m.toNat then v else Bank.get 0 s.here.regs.map n
      let stores (u t : State) (key : Nat) (bs : List Byte) : Prop := past t ∧ t.here.regs = s.here.regs ∧ t.rest = { u.rest with spad := t.spad } ∧
        ∀ k, t.spadByte k = if key ≤ k ∧ k < key + bs.length then bs.getD (k - key) 0 else s.spadByte k
      let old : BitVec 256 := Bank.get 0 s.here.regs.map m.toNat
      let v0 : BitVec 256 := BitVec.ofNat 256 (ofBytes (s.load a 32).1)
      (s.blockCheck a 32 32 .read = .ok () → mapReservedOk v0 = true → s.mapLocked s.cur.core m.toNat = false →
        goesTo (exec (.mapld m sa) s) fun t => maps t v0) ∧
      (∀ key, s.windowOperand a 32 32 = .ok key → s.conflicts .sq [(key, key + 32)] true = false →
        goesTo (exec (.mapst m sa) s) fun t => stores s t key (toBytes 32 old.toNat)) ∧
      (∀ (d : BitVec 3) (v : BitVec 256), 
        let lo := if d = 6 then 24 else 4 * d.toNat
        let n := if d = 6 then 1 else 4
        d ≠ 7 → (∀ j, j < 32 → elemOf 8 v.toNat j = if lo ≤ j ∧ j < lo + n then a / 256 ^ (j - lo) % 256 else elemOf 8 old.toNat j) →
        mapReservedOk v = true → s.mapLocked s.cur.core m.toNat = false → goesTo (exec (.mapset m d sa) s) fun t => maps t v) ∧
      (∀ (t0 : Shape) (u : State) (key : Nat), a < 65536 → s.readShape a = .ok (t0, u) → mapValid s.mesh t0 old = true →
        s.recordBusy .sq t0.recVa = false → u.windowOperand (t0.recVa + 2) 1 1 = .ok key → u.conflicts .sq [(key, key + 1)] true = false → u.lockOf (u.recKey t0.recVa) = none →
        goesTo (exec (.mapbind sa m) s) fun t => stores u t key [BitVec.ofNat 8 (128 + m.toNat)]) ∧
      (∀ key : Nat,
        let va := (s.here.tcb.shapebase.toNat + 128 * a) % 2 ^ 64
        a < 65536 → s.blockCheck va 128 1 .read = .ok () → s.windowOperand (va + 2) 1 1 = .ok key →
        s.conflicts .sq [(key, key + 1)] true = false → s.lockOf (s.recKey va) = none →
        goesTo (exec (.mapbindU sa) s) fun t => stores s t key [0]) ∧
      ∀ (t0 : Shape) (mS mD : BitVec 256) (p : List Placed) (u : State), s.reshardPlan sa m md = .ok (t0, mS, mD, p, u) →
        let b := (s.sReg sb).toNat
        let c := (s.sReg sc).toNat
        (∀ key,
          let bs := Plan.image mD p
          s.windowOperand b bs.length 16 = .ok key → b + bs.length ≤ 2 ^ 57 → s.conflicts .sq [(key, key + bs.length)] true = false →
          goesTo (exec (.rshdq sd sa sb m md) s) fun t => past t ∧ (∀ k, t.spadByte k = if key ≤ k ∧ k < key + bs.length then bs.getD (k - key) 0 else s.spadByte k) ∧
            ∀ r, t.sReg r = if r = sd ∧ sd ≠ 0 then BitVec.ofNat 64 p.length else s.sReg r) ∧
        ∀ (prof : BitVec 4) (key : Nat), s.here.canNumber = true → (s.reshards.filter fun r => decide (r.inst = s.here.inst)).length < 4 →
          s.here.sys.urgent = false → s.here.predsOk = true → profFault t0 p prof = none → s.windowOperand c 64 32 = .ok key →
          s.destCheck b (localBytes s.mesh t0 mD) = none → s.level = .full → s.lockOf (s.recKey t0.recVa) = none → s.here.sys.det = false →
          goesTo (exec (.rshd sd sa sb sc m md prof) s) fun t => movesTo s t .sq ((s.en .sq).pc + 8) ∧ t.here.sys.next = s.here.sys.next + 1 ∧
            t.here.live = s.here.live ++ [s.here.sys.next] ∧ (∀ r, t.sReg r = if r = sd ∧ sd ≠ 0 then s.here.sys.next.zeroExtend 64 else s.sReg r) ∧
            ∃ r : Reshard, t.reshards = s.reshards ++ [r] ∧ r.inst = s.here.inst ∧ r.seq = s.here.sys.next ∧ r.tid = a ∧ r.mapS = mS ∧ r.mapD = mD ∧
              r.dst = b ∧ r.obj = c ∧ r.started = false ∧ r.landed = [] ∧ r.switched = false ∧
                (s.writesUnderWay a = ([], [], []) → r.shown = true ∧ hasSent t (.reshard (r.hello s.package t0)))) ∧
    (∀ (r : Reshard) (x : Tiling), s.reshardBy r.core r.seq = some r → s.tiling r = some x → r ∈ s.reshards → r.core < 160 →
      let gone (t : State) : Prop := ∀ q ∈ t.reshards, Reshard.same q r = false
      let here_ := s.cur.core = r.core ∧ BitVec.ofNat 32 s.cur.unit = r.seq
      (∀ hs : List ReshardHello, r.shown = false → s.writesDone r = true → goesTo (exec (.reshardStart r.core r.seq hs) s) fun t =>
        sends s t (.reshard (r.hello s.package x.t)) ∧ { r with shown := true } ∈ t.reshards ∧ t.cores = s.cores) ∧
      (∀ hs : List ReshardHello, r.shown = true → r.started = false → r.absent = [] → r.faulted = [] → r.preds.all (s.hasRetired r.inst) = true → s.allIssued hs = true →
        (∀ h ∈ hs, h = r.hello h.pkg x.t) → goesTo (exec (.reshardStart r.core r.seq hs) s) fun t => { r with started := true } ∈ t.reshards ∧
          t.spad = s.spad ∧ t.hbm = s.hbm ∧ t.cores = s.cores) ∧
      (∀ (pos v key : Nat) (g : List Nat), r.started = true → r.switched = false → pos < localCount s.mesh x.t r.mapD → r.hasLanded pos = false →
        x.t.fmt.isMx = false → x.t.fmt.bits = 8 → x.index pos = some g → x.scatter = [] → x.sources g = [s.self] → s.ownTerm x g = .ok v →
        r.dst + pos + 1 ≤ 2 ^ 57 → s.imageOf r.inst (r.dst + pos) = none → window (s.cmdCore r.inst r.core) (s.core (s.cmdCore r.inst r.core)) (r.dst + pos) 1 = .ok (.spad key) →
        goesTo (exec (.reshardTile r.core r.seq pos []) s) fun t => (∀ k, t.spadByte k = if k = key then BitVec.ofNat 8 v else s.spadByte k) ∧
          t.hbm = s.hbm ∧ ∃ q ∈ t.reshards, Reshard.same q r = true ∧ q.hasLanded pos = true) ∧
      (∀ c key : Nat, here_ → r.started = true → r.switched = false → r.isHeld = false → s.coreOf r.inst = some c → localCount s.mesh x.t r.mapD ≤ (r.landed.map fun p => p.2 - p.1).sum →
        r.shapeAddr + 128 ≤ 2 ^ 57 → (∀ off n, 0 < n → off + n ≤ 128 →
          window c (s.core c) (r.shapeAddr + off) n = .ok (.spad (key + off))) →
        goesTo (exec .reshardSwitch s) fun t => t.spadByte (key + 2) = BitVec.ofNat 8 (128 + r.md) ∧
          ofBytes (Bank.getRun 0 t.spad (key + 8) 8) = r.dst % 2 ^ 64 ∧ (∀ k, k < key ∨ key + 128 ≤ k → t.spadByte k = s.spadByte k) ∧
          { r with switched := true } ∈ t.reshards) ∧
      (∀ c, here_ → r.switched = true → r.isHeld = false → s.sourceReads r = false → s.coreOf r.inst = some c → goesTo (exec .reshardSignal s) fun t => gone t) ∧
      (∀ c, here_ → r.absent ≠ [] → r.faulted = [] → (∀ p ∈ r.absent, p ∈ s.absent) → s.coreOf r.inst = some c →
        goesTo (exec .reshardHoldExpiry s) fun t => gone t ∧ t.lost = s.lost ++ r.absent.eraseDups.map fun p => (p, r.tag.1, r.tag.2)))

/-- R349 to R356, R361 to R365: clgrp installs a group and counts its members; clrun forks a call, arms its counters and shows its values
to the other members. A call starts when all values agree, sends its chunks, writes each chunk that has arrived, and retires when
all are complete, or as lost when an absent member stays away. What a start waits for and what a chunk reads are the model's readings
(log 60, 61). -/
def Obligations.CollectiveCalls : Prop :=
  ∀ s : State,
    (∀ (sd sa sb : SReg), inOrder s .sq →
      let va := (s.sReg sa).toNat
      let slot := (s.sReg sb).toNat
      let h := s.load va 64
      let n := fieldAt h.1 4 2
      let ms : List Word := (List.range n).map fun i => BitVec.ofNat 64 (fieldAt (h.2.load (va + 64) (8 * n)).1 (8 * i) 8)
      let sdIs (t : State) (x : Word) : Prop := ∀ r, t.sReg r = if r = sd ∧ sd ≠ 0 then x else s.sReg r
      (slot < 16 → (∀ c ∈ s.calls, c.inst = s.here.inst → c.grp.slot ≠ slot) → s.level ≠ .reduced → inScratch va = false →
        s.blockCheck va 64 64 .read = .ok () → groupHeaderOk h.1 = true → s.blockCheck (va + 64) (8 * n) 8 .read = .ok () →
        s.membersOk ms (fieldAt h.1 6 2) = true →
        goesTo (exec (.clgrp sd sa sb) s) fun t => movesTo s t .sq ((s.en .sq).pc + 8) ∧ sdIs t (BitVec.ofNat 64 n) ∧ ∃ g : Group,
          t.groups = (s.groups.filter fun g => !decide (g.inst = s.here.inst ∧ g.slot = slot)) ++ [g] ∧ g.inst = s.here.inst ∧ g.slot = slot ∧
            g.members = ms ∧ g.self = fieldAt h.1 6 2 ∧ g.gtag.toNat = fieldAt h.1 0 4 % 2 ^ 32 ∧ g.call = 0 ∧
            g.hold = if fieldAt h.1 8 2 = 0 then 200 else fieldAt h.1 8 2) ∧
      ∀ (g : Group) (c : Call) (u : State),
        let d := s.load va 128
        s.here.sys.urgent = false → s.here.predsOk = true → s.here.canNumber = true → s.level ≠ .reduced →
        s.blockCheck va 128 128 .read = .ok () → callDescOk d.1 = true →
        s.groupOf s.here.inst (fieldAt d.1 1 1) = some g → (s.callsOf s.here.inst g.slot).length < 4 → d.2.prepareCall d.1 g = .ok (c, u) →
        s.here.sys.det = false → goesTo (exec (.clrun sd sa) s) fun t => movesTo s t .sq ((s.en .sq).pc + 8) ∧ sdIs t (s.here.sys.next.zeroExtend 64) ∧
          t.here.sys.next = s.here.sys.next + 1 ∧ t.here.live = s.here.live ++ [c.seq] ∧ c.seq = s.here.sys.next ∧ c.num = g.call ∧ c.started = false ∧
          t.calls = s.calls ++ [c] ∧ (∀ k ∈ c.counters, (t.chunkCtr s.here.inst k).armed = true) ∧
          t.outbox.map Sent.out = s.outbox.map Sent.out ++ c.others.map fun j => Out.hello (c.pkgOf j) c.hello) ∧
    (∀ c : Call, s.callBy c.core c.seq = some c → c ∈ s.calls → c.core < 160 → s.callHeld c = false →
      let here_ := s.cur.core = c.core ∧ BitVec.ofNat 32 s.cur.unit = c.seq
      let gone (t : State) : Prop := ∀ d ∈ t.calls, Call.same d c = false
      (∀ hs : List CallHello, c.started = false → (∀ d ∈ s.callsOf c.inst c.grp.slot, d.started = true ∨ d.num = c.num ∨ issuedNo c.num d.num = false) →
        c.absent = [] → c.faulted = [] → c.preds.all (s.hasRetired c.inst) = true → c.allShown hs = true → (∀ h ∈ hs, h.member ≠ c.self → { h with member := c.self } = c.hello) →
        goesTo (exec (.callStart c.core c.seq hs) s) fun t => { c with started := true } ∈ t.calls ∧ t.spad = s.spad ∧ t.hbm = s.hbm ∧ t.cores = s.cores) ∧
      (c.started = true →
        (∀ (n : Nat) (xs : List Nat), c.sends = true → n < c.chunkCount → (c.own.any fun o => decide (o.1 = n)) = false → c.fmt.isMx = false →
          (c.counted = true → (s.chunkCtr c.inst (c.counter n)).expect.toNat ≤ (s.chunkCtr c.inst (c.counter n)).count.toNat ∧ c.counterTurn n = true) →
          (let a := c.src + (c.range n).1 * c.fmt.bits / 8
            let u := s.performSource c.asid a (c.src + ceilDiv ((c.range n).2 * c.fmt.bits) 8 - a) (c.core :: s.taskCores c.inst).eraseDups
            u.readElems c.core c.asid c.src c.fmt.bits (c.range n).1 ((c.range n).2 - (c.range n).1) = .ok xs) →
          goesTo (exec (.chunkSend c.core c.seq n) s) fun t =>
            { c with own := c.own ++ [(n, toBytes (c.bytesOf xs.length) (packCodes c.fmt.bits xs), [])] } ∈ t.calls ∧
            (c.counted = true → (t.chunkCtr c.inst (c.counter n)).count =
              (s.chunkCtr c.inst (c.counter n)).count - (s.chunkCtr c.inst (c.counter n)).expect)) ∧
        (∀ (n : Nat) (others : List (Nat × List Payload × Flags)) (u : State), n < c.chunkCount → c.complete.contains n = false →
          let lands (ps : List (Nat × List Nat × List Nat)) : Prop := State.writePiecesOf c ps s = .ok u →
            goesTo (exec (.callDelivery c.core c.seq n others) s) fun t => t.hbm = u.hbm ∧ t.spad = u.spad ∧
              t.cores = s.cores ∧ ∃ d ∈ t.calls, Call.same d c = true ∧ d.complete = c.complete ++ [n]
          (∀ f : Nat → List Nat × List Nat, c.reduces = false → (∀ j ∈ c.needs n, c.arrived n others j = some (f j)) →
            lands (c.moved n ((c.needs n).map fun j => (j, (f j).1, (f j).2)))) ∧
          ∀ g : Nat → List Net.Part, c.reduces = true → (∀ j ∈ c.needs n, c.contributions n others j = some (g j)) →
            let rs := s.reduceChunk c ((c.needs n).map fun j => (j, g j)) ((c.range n).2 - (c.range n).1)
            lands [c.reducedPiece n (rs.flatMap fun r => r.codes) (rs.map fun r => r.scale)]) ∧
        (∀ k, here_ → c.chunkCount ≤ c.complete.length → (c.sends = true → c.chunkCount ≤ c.own.length) → s.coreOf c.inst = some k →
          goesTo (exec .callComplete s) fun t => gone t))) ∧
    (∀ (c : Call) (k : Nat), s.callBy s.cur.core (BitVec.ofNat 32 s.cur.unit) = some c → c.absent ≠ [] → c.faulted = [] →
      (∀ p ∈ c.absent, p ∈ s.absent) → s.coreOf c.inst = some k → goesTo (exec .collHoldExpiry s) fun t =>
        (∀ d ∈ t.calls, Call.same d c = false) ∧ t.lost = s.lost ++ c.absent.eraseDups.map fun p => (p, c.grp.gtag, c.num)) ∧
    ∀ pkg : BitVec 48, goesTo (exec (.memberReturn pkg) s) fun t => t.absent = (s.absent.filter fun p => decide (p ≠ pkg)) ∧ t.spad = s.spad ∧
      t.hbm = s.hbm ∧ t.cores = s.cores ∧ t.calls = s.calls.map fun c =>
        if c.absent.contains pkg then { c with absent := c.absent.filter fun p => decide (p ≠ pkg), back := true } else c

/-- R341 to R348, R357 to R359: a hub forwards a packet on its first entry's port, with the entry shifted out, or on another port where that
one is a failed link; it adds its member's part, keeping its inputs until the next hop answers, or copies the packet to this package on the
way, and tells the hop before whether it has taken reduction data; it holds the packet while the port trains or an earlier packet of its source
waits, adds no block whose residue does not fit, and sends a sum that the next hop has refused once more. That reduction data of every kind is
answered so is the model's choice (log 106).
Links replay, retrain, fail and train; packages are lost and found. Which port a hub takes instead, what a relay does and the unit numbers
of the training event are the model's choices (log 69, 70). -/
def Obligations.FabricHopsAndLinks : Prop :=
  ∀ s : State,
    let cores (t : State) : Prop := t.cores = s.cores ∧ t.spad = s.spad ∧ t.hbm = s.hbm ∧ t.calls = s.calls
    (∀ p : Packet,
      let port := packetPort p
      let up : Prop := (s.port port).st = 2 ∧ (s.port port).failed = false ∧ s.behind p = false
      let waits : Prop := s.behind p = true ∨ ((s.port port).st ≠ 2 ∨ (s.port port).failed = true) ∧ ((s.port port).down = false ∨ s.goodPorts = [])
      let outs (t : State) (l : List Out) : Prop := t.outbox.map Sent.out = s.outbox.map Sent.out ++ l ∧ cores t
      let acks (ok : Bool) : List Out := if (p.type = 4 ∨ p.type = 5) ∧ p.payload ≠ [] then [.hopAck p.sid p.sseq ok] else []
      let out (t : State) (q : Packet) : Prop := outs t (.packet port (packetShift q) :: acks true) ∧ t.hub.length = (s.hub.erase p).length
      let holds (t : State) : Prop := p ∈ t.hub ∧ t.outbox = s.outbox ∧ t.inbox = s.inbox ∧ cores t
      let again := s.kept.find? fun k => k.redo && decide (k.input = p)
      (packetActs p 0 = true → (up → goesTo (exec (.hopForward p) s) fun t => out t p ∧ t.hub = s.hub.erase p ∧ t.inbox = s.inbox) ∧
        (waits → goesTo (exec (.hopForward p) s) fun t => holds t) ∧
        ((s.port port).down = true → s.goodPorts ≠ [] → s.behind p = false → goesTo (exec (.hopForward p) s) fun t => ∃ n ∈ s.goodPorts,
          outs t (.packet n (packetShift { p with route := BitVec.ofNat 16 (n + packetOp p * 64) :: p.route.drop 1 }) :: acks true))) ∧
      (packetActs p 1 = true → again = none → p.payload.all Net.sound = true →
        (∀ f own, s.hopTerm p = some (f, own) → up → goesTo (exec (.hopAdd p) s) fun t =>
          out t { p with payload := List.zipWith (fun x o => (Net.add f ⟨x, 0, false⟩ o).block) p.payload own } ∧
            t.inbox = s.inbox ∧ ∃ l, t.kept = l ++ [⟨port, f, p, own.map Net.Part.block, false⟩] ∧
              (l.filter fun k => !k.redo) = s.kept.filter fun k => !k.redo) ∧
        (s.hopTerm p = none → goesTo (exec (.hopAdd p) s) fun t => holds t)) ∧
      (packetActs p 1 = true → again = none → p.payload.all Net.sound = false → goesTo (exec (.hopAdd p) s) fun t => outs t (acks false) ∧
        t.inbox = s.inbox ∧ (t.port port).retries.toNat = Nat.min (2 ^ 32 - 1) ((s.port port).retries.toNat + 1)) ∧
      (∀ k, packetActs p 1 = true → again = some k → up → goesTo (exec (.hopAdd p) s) fun t => { k with port := port, redo := false } ∈ t.kept ∧
        outs t [.packet port (packetShift { p with payload := hopSum k.fmt p.payload (k.own.map fun o => ⟨o, 0, false⟩) })]) ∧
      (packetActs p 2 = true → (up → goesTo (exec (.hopMulticast p) s) fun t => out t p ∧ t.inbox = s.inbox ++ [p]) ∧
        (waits → goesTo (exec (.hopMulticast p) s) fun t => holds t)) ∧
      (packetActs p 3 = true → (s.behind p = true → goesTo (exec (.hopDeliver p) s) fun t => holds t) ∧
        (s.behind p = false → goesTo (exec (.hopDeliver p) s) fun t =>
          (outs t (acks true) ∧ t.inbox = s.inbox ++ [p] ∧ t.hub = s.hub.erase p) ∨
            (outs t [] ∧ t.inbox = s.inbox ∧ ∃ q ∈ t.hub, q.payload = p.payload ∧ q.type = p.type)))) ∧
    (∀ (port : Nat) (k : HopKept), s.kept.find? (fun k => decide (k.port = port) && !k.redo) = some k →
      (goesTo (exec (.remoteAccessRequest (.hopAnswer port true)) s) fun t => t = { s with kept := s.kept.erase k }) ∧
      goesTo (exec (.remoteAccessRequest (.hopAnswer port false)) s) fun t => t.outbox = s.outbox ∧ cores t ∧
        (∃ q ∈ t.kept, q.redo = true ∧ q.fmt = k.fmt ∧ q.own = k.own ∧ q.input.payload = k.input.payload ∧ q.input ∈ t.hub) ∧
        (t.port port).retries.toNat = Nat.min (2 ^ 32 - 1) ((s.port port).retries.toNat + 1)) ∧
    (∀ n : Nat, n < 48 →
      let others (t : State) : Prop := (∀ m, m ≠ n → t.port m = s.port m) ∧ cores t
      let x := s.port n
      (goesTo (exec (.flitReplay n) s) fun t => others t ∧ (t.port n).retries.toNat = Nat.min (2 ^ 32 - 1) (x.retries.toNat + 1) ∧
        { t.port n with retries := x.retries } = x) ∧
      (goesTo (exec (.laneRetrain n) s) fun t => others t ∧ t.port n = if x.spare = true ∨ x.st = 3 then { x with st := 3 } else { x with st := 1, spare := true }) ∧
      (goesTo (exec (.portTrained n) s) fun t => others t ∧ t.port n = if x.st = 3 then x else { x with st := 2 }) ∧
      (goesTo (exec (.linkReroute n) s) fun t => others t ∧ t.port n = { x with failed := true }) ∧
      (n < 12 → goesTo (exec (.portTrained (48 + n)) s) fun t => cores t ∧ t.ports = s.ports ∧ ∀ m, m < 12 → bit t.hbmUp m = (bit s.hbmUp m || decide (m = n)))) ∧
    ∀ pkg : BitVec 48, (coordOk s.mesh pkg = true → pkg ≠ s.package → goesTo (exec (.packageAbsent pkg) s) fun t => pkg ∈ t.absent ∧
        (∀ p, p ∈ s.absent → p ∈ t.absent) ∧ t.cores = s.cores ∧ t.spad = s.spad ∧ t.hbm = s.hbm ∧
        ∀ c ∈ t.calls, pkg ∈ c.grp.members.map memberPkg → pkg ∈ c.absent) ∧
      goesTo (exec (.packageReachableAgain pkg) s) fun t => pkg ∉ t.absent ∧ (∀ x ∈ t.lost, x.1 ≠ pkg) ∧ (∀ c ∈ t.calls, pkg ∉ c.absent) ∧
        t.outbox.map Sent.out = s.outbox.map Sent.out ++ ((s.lost.filter fun x => decide (x.1 = pkg)).map fun x => Out.lost pkg x.2.1 x.2.2) ∧
        t.cores = s.cores ∧ t.spad = s.spad ∧ t.hbm = s.hbm

/-- R366 to R372: nmrun queues a launch for each core of its mask under the next number; a free near-memory core starts the oldest launch
that names it at ENTRY with the registers of R369, runs one instruction of the kernel a step, and ends it at an ECALL or a fault; the
last core ends the launch. nmstat tells the running cores, nmstop ends a launch and counts its running cores. The bits of nmstat's result, the
encodings of the kernel's instructions and the order of its checks are from outside the rules or the model's readings (log 71, 72, 73). -/
def Obligations.NearMemoryLaunches : Prop :=
  ∀ s : State,
    (∀ sd sa : SReg, inOrder s .sq →
      let d := (s.load (s.sReg sa).toNat 64).1
      let done := fieldAt d 36 1
      let size := if done = 1 then 16 else 8
      let p := (s.sReg sa).extractLsb' 0 32
      let sdIs (t : State) (x : Word) : Prop := ∀ r, t.sReg r = if r = sd ∧ sd ≠ 0 then x else s.sReg r
      let ones (m : BitVec 24) : Nat := (List.range 24).countP fun i => bit m i
      (s.here.canNumber = true → s.launchQueue < 64 → s.blockCheck (s.sReg sa).toNat 64 64 .read = .ok () → s.here.sys.urgent = false →
        s.here.predsOk = true → launchDescOk d = true → fieldAt d 24 8 ≤ 2 ^ 57 → (done ≠ 0 → s.windowCheck (fieldAt d 40 8) size size = none) →
        (fieldAt d 56 8 ≠ 0 → s.lateCheck (fieldAt d 56 8) 32 32 = none) → s.level = .full → s.here.sys.det = false →
        goesTo (exec (.nmrun sd sa) s) fun t => movesTo s t .sq ((s.en .sq).pc + 8) ∧ sdIs t (s.here.sys.next.zeroExtend 64) ∧
          t.here.sys.next = s.here.sys.next + 1 ∧ t.here.live = s.here.live ++ [s.here.sys.next] ∧ ∃ l : Launch, t.launches = s.launches ++ [l] ∧
            l.desc = d ∧ l.core = s.cur.core ∧ l.inst = s.here.inst ∧ l.seq = s.here.sys.next ∧ l.waiting = BitVec.ofNat 24 (fieldAt d 32 4) ∧ l.running = 0) ∧
      (goesTo (exec (.nmstat sd sa) s) fun t => finishes s t .sq ((s.en .sq).pc + 8) ∧ writesS s t sd (BitVec.ofNat 64
        ((match s.launchOf p with | some l => l.running.toNat | none => 0) + (if p ∈ s.here.live then 0 else 2 ^ 32)))) ∧
      (s.launchOf p = none → goesTo (exec (.nmstop sd sa) s) fun t => finishes s t .sq ((s.en .sq).pc + 8) ∧ writesS s t sd 0) ∧
      ∀ l k, s.launchOf p = some l → s.coreOf l.inst = some k → goesTo (exec (.nmstop sd sa) s) fun t => movesTo s t .sq ((s.en .sq).pc + 8) ∧
        sdIs t (BitVec.ofNat 64 (ones l.running)) ∧ (∀ m ∈ t.launches, Launch.same m l = false) ∧ ∀ n, n < 24 → bit l.running n = true → t.nmc n = {}) ∧
    (∀ (l : Launch), let n := s.cur.unit
      n < 24 → (s.nmc n).launch = none → s.launches.find? (fun l => bit l.waiting n) = some l → l.preds.all (s.hasRetired l.inst) = true →
      goesTo (exec .nmcKernelStart s) fun t => let k := t.nmc n
        k.launch = some (l.inst, l.seq) ∧ k.pc.toNat = fieldAt l.desc 0 8 % 2 ^ 64 ∧ k.ended = none ∧ k.fcsr = 0 ∧ k.vtype = some 0 ∧ (∀ r, r ≠ 0 → Bank.get 0 k.x r =
          if r = 2 then BitVec.ofNat 64 (fieldAt l.desc 24 8) else if r = 10 then BitVec.ofNat 64 (fieldAt l.desc 8 8)
          else if r = 11 then BitVec.ofNat 64 n else if r = 12 then BitVec.ofNat 64 (maskCount (BitVec.ofNat 24 (fieldAt l.desc 32 4))) else 0) ∧
        (∀ m, m ≠ n → t.nmc m = s.nmc m) ∧ ∃ q ∈ t.launches, Launch.same q l = true ∧ bit q.waiting n = false ∧ bit q.running n = true) ∧
    (∀ (l : Launch) (e : KernelEnd), let n := s.cur.unit
      let left := l.running &&& ~~~maskBit n
      n < 24 → (s.nmc n).launch = some (l.inst, l.seq) → (s.nmc n).ended = some e →
      s.launches.find? (fun m => decide (m.inst = l.inst ∧ m.seq = l.seq)) = some l →
      (¬ (left = 0 ∧ l.waiting = 0) → goesTo (exec .nmcKernelEnd s) fun t => t.nmc n = {} ∧ t.cores = s.cores ∧
        ∃ q ∈ t.launches, Launch.same q l = true ∧ q.running = left ∧ q.waiting = l.waiting) ∧
      (∀ k, left = 0 → l.waiting = 0 → s.coreOf l.inst = some k → goesTo (exec .nmcKernelEnd s) fun t => t.nmc n = {} ∧
        ∀ m ∈ t.launches, Launch.same m l = false)) ∧
    ∀ (l : Launch) (w len : Nat), let n := s.cur.unit
      let k := s.nmc n
      let c : Rv.Ctx := ⟨s, k, n, l.asid, l.wlo, l.whi⟩
      let x (r : Nat) : Word := Bank.get 0 k.x r
      n < 24 → k.launch = some (l.inst, l.seq) → k.ended = none → s.launches.find? (fun m => decide (m.inst = l.inst ∧ m.seq = l.seq)) = some l →
      (∀ e a, Rv.fetch c = .error (e, a) → goesTo (exec .nearMemoryKernelInstruction s) fun t => t.nmc n = { k with ended := some (.fault e a) } ∧ t.hbm = s.hbm) ∧
      (Rv.fetch c = .ok (w, len) →
        let runs (P : State → NmCore → Prop) : Prop := goesTo (exec .nearMemoryKernelInstruction s) fun t =>
          (t.nmc n).pc = k.pc + BitVec.ofNat 64 len ∧ (∀ m, m ≠ n → t.nmc m = s.nmc m) ∧ t.cores = s.cores ∧ t.spad = s.spad ∧ P t (t.nmc n)
        let gives (k' : NmCore) (v : Word) : Prop := ∀ r, Bank.get 0 k'.x r = if r = Rv.rd w ∧ Rv.rd w ≠ 0 then v else x r
        (w % 128 = 0x13 → Rv.f3 w = 0 → runs fun t k' => t.hbm = s.hbm ∧ gives k' (x (Rv.rs1 w) + Rv.immI w)) ∧
        (∀ a, w % 128 = 0x03 → Rv.f3 w = 3 → Rv.place c .read (x (Rv.rs1 w) + Rv.immI w).toNat 8 = .ok a →
          runs fun t k' => t.hbm = s.hbm ∧ gives k' (BitVec.ofNat 64 (ofBytes (Bank.getRun 0 s.hbm a 8)))) ∧
        (∀ a, w % 128 = 0x23 → Rv.f3 w = 3 → Rv.place c .write (x (Rv.rs1 w) + Rv.immS w).toNat 8 = .ok a →
          runs fun t k' => k'.x = k.x ∧ ∀ b, t.homeByte b = if a ≤ b ∧ b < a + 8 then Spec.byteOf (x (Rv.rs2 w)) (b - a) else s.homeByte b) ∧
        (w = 0x73 → x 17 = 0 → runs fun t k' => t.hbm = s.hbm ∧ k'.ended = some .ecall))

/-- R264, R287, R288, R297 to R306: the oldest event of a task enters its handler; an abandoned task ends when its commands have; a task
that gives way is saved under its region's descriptor, its core is free once the save is complete, and an idle core or a resume
slot's core takes it up at its entry with the registers that were saved. When an event is delivered, and that a resume slot takes over a
return entry, are the model's readings (log 33, 58). -/
def Obligations.EventsAndPreemption : Prop :=
  ∀ s : State,
    (∀ (ev : AsyncEv) (r : List AsyncEv), s.here.events = ev :: r → s.here.phase = .running → s.here.tmask = false → s.here.finishing none = false →
      s.here.trapHeld = none → s.here.requesting = false →
      goesTo (exec .asyncEventDelivery s) fun t => t.here.events = r ∧ t.here.regs = (s.landAll s.cur.core).here.regs ∧
        slice t.here.sys.cause 7 0 = slice ev.cause 7 0 ∧ bit t.here.sys.cause 11 = true ∧ slice t.here.sys.cause 63 16 = slice ev.cause 63 16 ∧
        t.here.sys.trapaddr = ev.addr ∧ t.here.sys.trapsrc = 0 ∧
        if bit s.here.sys.trapvec 0 = true then t.here.phase = .handler ∧ bit t.here.sys.cause 15 = true ∧ t.here.sys.timed = false ∧
          (t.en .sq).pc = s.here.sys.trapvec &&& 0x01FFFFFFFFFFFFC0
        else t.here.phase = .abandoning (BitVec.ofNat 8 (slice ev.cause 7 0)) false) ∧
    (∀ code h, s.here.phase = .abandoning code h → (∀ d ∈ s.copies, d.core ≠ s.cur.core) → s.here.live = [] → s.here.nests = [] →
      s.withdrawing s.here.inst = false → goesTo (exec .abandonmentComplete s) fun t => t.here.phase = .idle ∧
        t.here.queue0 = s.here.queue0 ∧ t.here.queue1 = s.here.queue1 ∧ ∀ c, c ≠ s.cur.core → t.core c = s.core c) ∧
    (∀ entry : Word, s.preemptAt = some entry → s.here.pend = [] → s.here.nests = [] →
      (∀ d ∈ s.copies, d.inst = s.here.inst → s.copyEnding d = false) → goesTo (exec .preemption s) fun t => t.here.phase = .saving ∧
      (∀ c, c ≠ s.cur.core → t.core c = s.core c) ∧ ∃ v : Saved, t.saved = s.saved ++ [v] ∧ v.inst = s.here.inst ∧ v.taskid = s.here.sys.taskid ∧
        v.asid = s.here.sys.asid ∧ v.core = s.cur.core ∧ v.cls = s.here.sys.cls ∧ v.ready = false ∧
        v.area = s.savePool.toNat + (2 * s.cur.core + if s.here.sys.cls then 1 else 0) * saveSlot ∧
        ofBytes (Bank.getRun 0 t.hbm (v.area + 64) 8) = entry.toNat ∧ ∀ n, n < 64 → ofBytes (Bank.getRun 0 t.hbm (v.area + 1472 + 8 * n) 8) =
          if bit s.here.regionDesc n then (Bank.get 0 (s.landAll s.cur.core).here.regs.s n).toNat else 0) ∧
    (∀ v, s.saved.find? (fun v => decide (v.core = s.cur.core) && !v.ready && !v.fixed) = some v → s.here.phase = .saving → s.withdrawing v.inst = false →
      goesTo (exec .saveComplete s) fun t => t.here.phase = .idle ∧ { v with ready := true } ∈ t.saved) ∧
    (∀ (v : Saved) (b : Tcb), s.pickTask s.cur.core = some (.back v) → s.yieldsTo s.cur.core v = false →
      let h := Bank.getRun 0 s.hbm v.area 4096
      readTcb (h.take 64) = some b → fieldAt h (dirAt 6 + 4) 4 = 0 → goesTo (exec .resumption s) fun t => t.here.phase = .running ∧
        t.here.inst = v.inst ∧ (∀ e, (t.en e).pc = BitVec.ofNat 64 (fieldAt h 64 8)) ∧ t.here.sys.taskid = b.taskid ∧ t.here.sys.asid = b.asid ∧
        t.here.sys.next = BitVec.ofNat 32 (fieldAt h 80 4) ∧ (∀ n, 1 ≤ n → n < 64 → Bank.get 0 t.here.regs.s n = BitVec.ofNat 64 (fieldAt h (1472 + 8 * n) 8)) ∧
        (∀ n, n < 16 → Bank.get 0 t.here.regs.map n = BitVec.ofNat 256 (fieldAt h (896 + 32 * n) 32)) ∧ ∀ w ∈ t.saved, w.inst ≠ v.inst) ∧
    ∀ b : Tcb, let c := s.cur.core
      let area := (Bank.get ⟨0, false⟩ s.resumes c).area
      c < 160 → (Bank.get ⟨0, false⟩ s.resumes c).busy = false → readTcb (Bank.getRun 0 s.hbm area.toNat 64) = some b →
      goesTo (exec .resumeDoorbell s) fun t => Bank.get ⟨0, false⟩ t.resumes c = ⟨area, true⟩ ∧ t.hbm = s.hbm ∧ t.cores = s.cores ∧
        ∃ v ∈ t.saved, v.core = c ∧ v.fixed = true ∧ v.ready = true ∧ v.area = area.toNat ∧ v.taskid = b.taskid ∧ v.asid = b.asid

/-- R20, R22, R23, R131, R138, R263, R307, R373 to R375, R377, R385: what the control node's writes do where the package accepts them: launches
are numbered and queued or held, tables and roots are written, regions are declared, pages purged, the log's tail moves, reports go out
and the memory window reaches cluster 0's scratchpad. That a purge performs every store, how a deferred launch counts, the places of some
registers in the control window, that no report goes out at boot, and the order of a report's contents with a signature that is a function of
them are the model's choices (log 27, 38, 75, 76, 79). -/
def Obligations.ControlNodeWrites : Prop :=
  ∀ s : State,
    (∀ (i : Nat) (b : Tcb), i < 64 →
      let x := s.slot i
      let p := s.part i
      let queue (u : State) : List QEntry := if b.cls then (u.core p.lcore).queue1 else (u.core p.lcore).queue0
      let n := Bank.get 0 s.launchNext p.part.toNat
      readTcb (x.block ++ List.replicate (64 - x.block.length) 0) = some b →
      (x.busy = false → p.valid = true → p.leadHere = true → s.accepts p.lcore = true → goesTo (exec (.launchDoorbell i) s) fun t =>
        Bank.get 0 t.launchNext p.part.toNat = n + 1 ∧ t.launchLive = s.launchLive ++ [(p.part, n)] ∧
          if s.queueRoom p.lcore b.cls = true then queue t = queue s ++ [⟨b, .launch p.part n⟩] ∧ t.slot i = x
          else t.cores = s.cores ∧ t.slot i = { x with busy := true, number := n }) ∧
      (x.busy = true → s.queueRoom p.lcore b.cls = true → goesTo (exec (.launchDeferredAccept i) s) fun t =>
        queue t = queue s ++ [⟨b, .launch p.part x.number⟩] ∧ t.slot i = { x with busy := false })) ∧
    (∀ (i : Nat) (e : List Byte) (new : Part), i < 64 → e.length = 64 → partOfBytes e = some new → s.serves = true → s.partOk i new = true →
      goesTo (exec (.partitionTableWrite i e) s) fun t => t.part i = new ∧ (∀ j, j ≠ i → t.part j = s.part j) ∧ t.cores = s.cores) ∧
    (∀ (asid : BitVec 12) (root : Word), goesTo (exec (.pageTableRootWrite asid root) s) fun t => ∀ a, Bank.get 0 t.roots a =
      if a = asid.toNat then root &&& 0x01FFFFFFFFFF0001 else Bank.get 0 s.roots a) ∧
    (∀ mesh coord : Word, meshOk mesh coord = true → goesTo (exec (.meshConfigWrite mesh coord) s) fun t => t = { s with mesh := mesh, coord := coord }) ∧
    (∀ (i : Nat) (e : List Byte) (r : MRegion), i < 64 → e.length = 32 → regionOfBytes i e = some r → s.level = .full → s.regionOk r = true →
      goesTo (exec (.moraineDeclaration i e) s) fun t => t = { s with regions := (s.regions.filter fun q => decide (q.slot ≠ i)) ++ [r] }) ∧
    (∀ (asid : BitVec 12) (va size : Word), (size = 2 ^ 16 ∨ size = 2 ^ 21 ∨ size = 2 ^ 30) → va.toNat % size.toNat = 0 → va.toNat < 2 ^ 57 →
      let lo := va.toNat / 65536
      let hi := (va.toNat + size.toNat) / 65536
      goesTo (exec (.purgeDoorbell asid va size) s) fun t =>
        (∀ d l, d < 8 → l ∈ (t.die d).lines → ¬ (l.asid = asid ∧ lo ≤ l.line / 512 ∧ l.line / 512 < hi)) ∧ (∀ d, d < 8 → (t.die d).buf = []) ∧
          (∀ l ∈ t.llc, ¬ (l.asid = asid ∧ lo ≤ l.line / 512 ∧ l.line / 512 < hi)) ∧ ∀ e ∈ t.trans, ¬ (e.asid = asid ∧ lo ≤ e.page ∧ e.page < hi)) ∧
    (∀ tail : Nat, s.log.tail ≤ tail → tail ≤ s.log.head → s.log.held = [] →
      goesTo (exec (.eventLogTailWrite tail) s) fun t => t = { s with log := { s.log with tail := tail } }) ∧
    (∀ nonce : List Byte, nonce.length = 32 → s.level ≠ .boot → goesTo (exec (.attestationRequest nonce) s) fun t =>
      sends s t (.report nonce s.level (s.reportBody nonce ++ toBytes 7856 (Config.signature (s.reportBody nonce)))) ∧
        t = { s with outbox := t.outbox, counts := t.counts }) ∧
    (∀ (off : Nat) (data : List Byte), s.serves = true →
      let va := s.winVa.toNat + off
      let key := va - clusterWindow
      clusterWindow ≤ va → va + data.length ≤ clusterWindow + windowSize → off + data.length ≤ 2 ^ 30 →
      (goesTo (exec (.memoryWindowRead off data.length) s) fun t =>
        sends s t (.hostRead off (Bank.getRun 0 s.spad key data.length)) ∧ t = { s with outbox := t.outbox, counts := t.counts }) ∧
      goesTo (exec (.memoryWindowWrite off data) s) fun t => t.hbm = s.hbm ∧ t.cores = s.cores ∧
        ∀ k, t.spadByte k = if key ≤ k ∧ k < key + data.length then data.getD (k - key) 0 else s.spadByte k) ∧
    ∀ data : List Byte,
      let v : Word := BitVec.ofNat 64 (ofBytes data)
      (∀ i o : Nat, i < 64 → o + data.length ≤ 64 → (s.slot i).busy = false → goesTo (exec (.controlWindowWrite (0x00200000 + 128 * i + o) data) s) fun t =>
        (∀ k, k < 64 → (t.slot i).block.getD k 0 = if o ≤ k ∧ k < o + data.length then data.getD (k - o) 0 else (s.slot i).block.getD k 0) ∧
          t.cores = s.cores ∧ ∀ j, j ≠ i → t.slot j = s.slot j) ∧
      (data.length = 8 → (∀ c, c < 160 → (Bank.get ⟨0, false⟩ s.resumes c).busy = false →
          goesTo (exec (.controlWindowWrite (0x00300000 + 64 * c) data) s) fun t => Bank.get ⟨0, false⟩ t.resumes c = ⟨v, false⟩) ∧
        (goesTo (exec (.controlWindowWrite 0x00500010 data) s) fun t => t = { s with savePool := v }) ∧
        goesTo (exec (.controlWindowWrite 0x00500040 data) s) fun t => t = { s with winAsid := v.setWidth 12 })

/-- R26, R29 to R31, R133 to R139, R141, R145, R149, R376 to R381: a reset that passes its checks gives reduced service with the flash page at the image's
version, full service follows the training of every stack and port, GEN is odd from a change to the next step, a failed line halts the package and
a repaired one is only logged; what the caches do on their own time changes no register and no scratchpad. An access that a queue holds back is
performed after what it comes after, and a torn one then reads or writes the rest of its bytes. The memories' contents after a reset, what a
failed reset leaves, and that the device chooses what it holds back and what it tears are the model's choices (log 2, 23, 77, 97). -/
def Obligations.LevelsAndOwnTime : Prop :=
  ∀ s : State,
    (∀ (fw img : BitVec 256) (version : Nat) (map failed : List Nat), s.flash ≤ version → 160 ≤ map.length → map.Nodup →
      goesTo (exec (.reset ⟨true, fw⟩ ⟨true, img⟩ version ⟨map, failed⟩) s) fun t => t.level = .reduced ∧ t.clock = 875 ∧ t.flash = version ∧
        t.version = version ∧ (∀ c, c < 160 → c ∉ failed → t.coreMap.getD c 0 = map.getD c 0) ∧
        (∀ c, c < 160 → failed = [c] → 160 < map.length → t.coreMap.getD c 0 = map.getD 160 0) ∧ t.fwHash = fw ∧ t.imgHash = img ∧ t.cores = [] ∧
        t.spad = [] ∧ t.hbm = [] ∧ t.parts = [] ∧ t.mesh = 0 ∧ t.coord = 0) ∧
    (∀ (fw img : BootCheck) (version : Nat) (sites : SiteMap), (fw.ok = false ∨ img.ok = false ∨ version < s.flash ∨ mapOk sites.map = false) →
      goesTo (exec (.reset fw img version sites) s) fun t => t.level = .boot ∧ t.flash = s.flash ∧ t.cores = []) ∧
    (s.level = .reduced → s.hbmUp = BitVec.allOnes 12 → (∀ n, n < 48 → 2 ≤ (s.port n).st) → goesTo (exec .fullServiceEntry s) fun t =>
      t.level = .full ∧ t.clock = 1750 ∧ t.gen = s.gen + 1 ∧ t.cores = s.cores ∧ t.spad = s.spad ∧ t.hbm = s.hbm) ∧
    (s.serves = true →
      (125 < s.clock → goesTo (exec .clockStep s) fun t => t.clock = s.clock - 125 ∧ t.level = s.level ∧ t.gen = s.gen + 1 ∧ t.cores = s.cores) ∧
      ∀ asid addr, goesTo (exec (.halt asid addr) s) fun t => t.level = .halted ∧ t.gen = s.gen + 1 ∧ t.cores = s.cores ∧ t.spad = s.spad) ∧
    (s.tick.gen = (if s.gen.toNat % 2 = 1 then s.gen + 1 else s.gen) ∧ { s.tick with gen := s.gen, free := s.free } = s) ∧
    (∀ addr, goesTo (exec (.hiddenRepair addr) s) fun t => { t with log := s.log, counts := s.counts } = s) ∧
    ((∀ (d n : Nat) (b : BufStore), d < 8 → (s.die d).buf[n]? = some b → (∀ x ∈ (s.die d).buf.take n, x.phys ≠ b.phys) → b.gen = none →
        goesTo (exec (.accessPerformed (.drain d n)) s) fun t => t.hbm = landBytes s.hbm b.phys b.bytes ∧ t.spad = s.spad ∧ t.cores = s.cores ∧
          (t.die d).buf = (s.die d).buf.eraseIdx n ∧ (t.die d).lines = (s.die d).lines) ∧
      (∀ (d line : Nat) (asid : BitVec 12), d < 8 → goesTo (exec (.accessPerformed (.evict d asid line)) s) fun t => t.hbm = s.hbm ∧ t.spad = s.spad ∧
        t.cores = s.cores ∧ (t.die d).buf = (s.die d).buf ∧ ∀ l ∈ (t.die d).lines, l ∈ (s.die d).lines ∧ ¬ (l.asid = asid ∧ l.line = line)) ∧
      (∀ (c n : Nat) (b : Combine), c < 160 → (s.core c).wc[n]? = some b → b.gen = none → goesTo (exec (.accessPerformed (.combine c n)) s) fun t =>
        t.hbm = landBytes s.hbm b.phys b.bytes ∧ t.spad = s.spad ∧ t.core c = { s.core c with wc := (s.core c).wc.eraseIdx n }) ∧
      (∀ (d page : Nat) (asid : BitVec 12), d < 8 → (goesTo (exec (.accessPerformed (.unmap d asid page)) s) fun t => t.hbm = s.hbm ∧ t.spad = s.spad ∧ t.cores = s.cores) ∧
        goesTo (exec (.accessPerformed (.forget asid page)) s) fun t => t = { s with trans := s.trans.filter fun e => !decide (e.asid = asid ∧ e.page = page) }) ∧
      (∀ (asid : BitVec 12) (line : Nat), goesTo (exec (.accessPerformed (.slice asid line)) s) fun t =>
        t = { s with llc := s.llc.filter fun l => !decide (l.asid = asid ∧ l.line = line) }) ∧
      ∀ c, c < 160 →
        (goesTo (exec (.accessPerformed (.hbm c)) s) fun t => t = { s with ntDue := s.ntDue.eraseP fun x => decide (x.1 = c) }) ∧
        (∀ (n : Nat) (l : Late), (s.core c).late[n]? = some l → goesTo (exec (.accessPerformed (.queue c n)) s) fun t =>
          (∀ x ∈ (t.core c).late, x ∈ (s.core c).late ∧ x.id ≠ l.id) ∧ (l.after = [] → ((s.core c).late.map fun x => x.id).Nodup →
            t = (s.setCore c { s.core c with late := (s.core c).late.eraseIdx n }).performOne c l)) ∧
        ∀ e : Eng, let u : State := { s with cur := ⟨c, 6, 0⟩ }
          (∀ (v bm val : Nat) (later : List (Nat × Nat × Nat)), inOrder u e → (u.en e).wait = some (.tornLoad (.v v) bm val later) →
            goesTo (exec (.accessPerformed (.rest c e)) s) fun t => movesTo u t e ((u.en e).pc + 8) ∧ t.spad = s.spad ∧ t.hbm = s.hbm ∧
              ∀ i, i < 8192 → (t.vReg v).getLsbD i = if bm.testBit i then (val + (loadRuns later u).1).testBit i else (u.vReg v).getLsbD i) ∧
          ∀ l : List (Nat × List Byte), (u.en e).wait = some (.tornStore (l.map fun x => ⟨.spad x.1, x.2, false, none⟩) 0 none) →
            goesTo (exec (.accessPerformed (.rest c e)) s) fun t => movesTo u t e ((u.en e).pc + 8) ∧ t.hbm = s.hbm ∧
              t.here.regs = u.here.regs ∧ ∀ k, t.spadByte k =
                l.foldl (fun b x => if x.1 ≤ k ∧ k < x.1 + x.2.length then x.2.getD (k - x.1) 0 else b) (s.spadByte k))

/-- R65, R66, R67, R77, R82, R84, R92: an engine of a running task fetches the word at its own position. A word of another engine it
passes. A word that is no instruction raises ILLEGAL, and a decoded word of its own tag or of tag 6 is run by `exec` once its tokens
are there, or in timed mode in the cycle that its SYNC field names. An event runs by `exec` at its core and unit. What a fetch leaves in the
caches that translate comes before, and so do, as a step of their own, the accesses that the sequencer's queues hold back and that the word may
not pass. The agenda and its rotation, that a pass is a step of its own, and that the queues hold accesses of the sequencer alone are the
model's choices (log 3, 21, 23). -/
def Obligations.StepRunsTheDecodedInstruction : Prop :=
  (∀ (s u : State) (e : Eng) (w : Word) (sync : Nat) (i : Instr), s.level = .full → u.cur.core < 160 → u.engHere = e →
    ((∃ r, s.agenda = .engine u.cur.core e :: r ∧ u = { s.tick with agenda := r, cur := ⟨u.cur.core, e.tag, s.cur.unit⟩ }) ∨
      s.agenda = [] ∧ s.cur.slot < 5 ∧ u = { s.tick with cur := { s.cur with slot := s.cur.slot + 1 } }) →
    u.here.phase = .running → u.here.trapHeld = none → u.here.eventHeld = false → (∀ f, (u.en f).wait = none) → (u.en e).owed = 0 →
    (u.en e).owedCtl = [] → u.here.nestPushReady = false → fetchWord u u.cur.core (u.en e).pc = .ok w → decodeWord w = .ok (sync, i) →
    let c := u.cur.core
    let v := u.fetched c (u.en e).pc.toNat
    let own : Prop := tagOf w = 6 ∨ tagOf w = e.tag
    let clear : Prop := e = .sq → ∀ l ∈ v.here.late, standsBefore i sync l = false
    (∀ x, i = .unassignedEncoding x → u.here.sys.timed = false → step s = exec i v) ∧
    ((∀ x, i ≠ .unassignedEncoding x) →
      (¬ own → i ≠ .tend → v.passOk e = true →
        step s = .next (v.upd fun k => k.onEn e fun x => { x with pc := x.pc + 8, walk := x.walk + 1, src := 0 })) ∧
      (own → ¬ clear → step s = .next (v.performQueue c (standsBefore i sync))) ∧
      (own → clear → u.here.sys.timed = false → (tagOf w = 6 → sync = 0) → v.here.slipOk e (v.here.cyc + 1) = true →
        genWaits v c e (v.en e).walk i = false → v.here.canPop e.tag (sync / 32) = true → step s = exec i (v.upd fun k => k.begin e i sync)) ∧
      (own → clear → u.here.sys.timed = true → meets i = false →
        let due := issueCycle v c e sync i
        let x := v.catchUp c due
        (v.here.sys.det = false → numbered i = false → due = (v.en e).last + 1 + sync) ∧
        (v.here.slipOk e due = true → genWaits v c e (v.en e).walk i = false → isFirst v c e due = true → x.here.nestFirst due = false →
          step s = exec i (x.upd fun k => { k with cyc := due }.begin e i sync))))) ∧
  ∀ (s : State) (c n : Nat) (i : Instr) (r : List Move), s.agenda = .event c n i :: r → s.level ≠ .halted ∨ fromOutside i = true →
    step s = exec i ({ s.tick with agenda := r, cur := ⟨c, 6, n⟩ } : State)

/-- R76: the opcodes that the table does not list are unassigned, and a word of one of them, or of tag 7, is no instruction. R65, R73, R75:
words that the spec writes out decode to the instructions that they stand for. -/
def Obligations.SpecWordsDecodeAsWritten : Prop :=
  (∀ op : Nat, op < 128 →
    (assigned 0 op = false ↔ op = 0x1F ∨ (0x2A ≤ op ∧ op ≤ 0x2F) ∨ op = 0x3F ∨ (0x5D ≤ op ∧ op ≤ 0x5F) ∨ (0x6D ≤ op ∧ op ≤ 0x6F) ∨ 0x77 ≤ op) ∧
    (assigned 1 op = false ↔ 0x07 < op) ∧ (assigned 2 op = false ↔ 0x06 < op) ∧ (assigned 3 op = false ↔ 0x02 < op) ∧
    (assigned 4 op = false ↔ 0x39 < op) ∧ (assigned 5 op = false ↔ 0x05 < op) ∧ (assigned 6 op = false ↔ 0x08 < op) ∧ assigned 7 op = false) ∧
  (∀ w : Word, assigned (slice w 63 61) (slice w 50 44) = false → decodeWord w = .ok (slice w 60 51, .unassignedEncoding w)) ∧
  decodeWord 0x801030502C186000 = .ok (2, .vfma ⟨10, 11, 12, 3, .f32, .rne, 0⟩) ∧
  decodeWord 0x2120001882804002 = .ok (0x24, .vld ⟨3, 4, 5, 0, .bf16, false, 2⟩) ∧
  decodeWord 0x000240C4141AC000 = .ok (0, .amo ⟨3, 4, 5, .add, .i64, .pkg, 0⟩) ∧
  decodeWord 0xC000443FFFFFFFFD = .ok (0, .lpend 1 (-3)) ∧
  decodeWord 0x6140000000000000 = .ok (0x28, .mxgo) ∧
  decodeWord 0x0006B0C414612100 = .ok (0, .rshd 3 4 5 6 1 2 1) ∧
  decodeWord 0x0005860824000000 = .ok (0, .gskip 3 8 9) ∧
  decodeWord 0x000740C400000000 = .ok (0, .nmrun 3 4)

/-- R65, R68 to R77: a well-formed word of the text decodes to itself, with every operand and with its SYNC field. -/
def Obligations.DecodeReadsWhatEncodeWrites : Prop :=
  ∀ (i : Instr) (sync : BitVec 10) (w : Word), i.ok = true → (∀ x, i ≠ .unassignedEncoding x) → encode sync i = some w →
    decodeWord w = .ok (sync.toNat, i)

/-- Every step keeps both memories in their canonical form, so equal memories are equal data. The form is the model's own (log entry 2); that the
cluster scratchpads and the copy of record are memories of bytes is R16, R132 and R139. -/
def Obligations.StepKeepsMemoryCanonical : Prop :=
  ∀ s t : State, s.memWf = true → step s = .next t → t.memWf = true

/-- R22, R26, R30, R54, R80, R93, R131, R374, R376: what reset leaves. The package is at boot level with no task, no page table, no
partition entry and nothing in flight, and its memories are canonical. The values that a core's registers show then, s0 apart, are
the model's own choice (log entries 1 and 2), and so is the rotation that the first step takes. -/
def Obligations.ResetState : Prop :=
  let s := State.reset
  s.memWf = true ∧ s.level = .boot ∧ (∀ c, (s.core c).phase = .idle ∧ (s.core c).queue0 = [] ∧ (s.core c).queue1 = []) ∧
    (∀ a, s.spadByte a = 0 ∧ s.homeByte a = 0) ∧ s.roots = [] ∧ s.parts = [] ∧ s.copies = [] ∧ s.calls = [] ∧ s.reshards = [] ∧
    s.launches = [] ∧ s.saved = [] ∧ (∀ r, s.sReg r = 0) ∧ s.here.sys.flags = 0 ∧ s.here.sys.slip = 0x100 ∧ s.here.sys.timed = false ∧
    ∀ s', step s = .next s' → s'.level = .boot ∧ s'.memWf = true

/-- R8, R77, R282, R284: no word of the text ends a run. Whatever its operands and whatever the state, it answers a next state: it
finishes, waits, or takes a trap. -/
def Obligations.EveryWordOfTheTextAnswersNext : Prop :=
  ∀ (w : Word) (sync : Nat) (i : Instr) (s : State), decodeWord w = .ok (sync, i) → ∃ t, exec i s = .next t
end

