-- ==== Sys2Proof/Laws/Bank.lean ====
section
/-! SUPPORT. The laws of sparse banks: what is read after a write, that writes keep the canonical form, and that canonical banks
that read alike are equal. -/

namespace Sys2Proof.Bank

variable {α : Type}

@[simp] theorem get_nil (d : α) (n : Nat) : get d [] n = d := rfl

theorem get_cons (d : α) (k : Nat) (v : α) (r : Bank α) (n : Nat) :
    get d ((k, v) :: r) n = if k = n then v else get d r n := rfl

theorem get_erase (d : α) (b : Bank α) (n m : Nat) : get d (erase b n) m = if m = n then d else get d b m := by
  induction b with
  | nil => simp [erase]
  | cons x r ih =>
    obtain ⟨k, v⟩ := x
    by_cases hk : k = n
    · subst hk
      rw [erase, if_pos rfl, ih]
      by_cases hm : m = k
      · simp [hm]
      · simp [hm, get_cons, Ne.symm hm]
    · by_cases hm : k = m
      · subst hm; simp [erase, hk, get_cons]
      · simp [erase, hk, get_cons, hm, ih]

variable [DecidableEq α]

/-- A read after a write: the value at the key written, and what stood before everywhere else. -/
theorem get_set (d : α) (b : Bank α) (n m : Nat) (v : α) : get d (set d b n v) m = if m = n then v else get d b m := by
  induction b with
  | nil =>
    by_cases hv : v = d
    · simp [set, hv]
    · by_cases hm : n = m
      · simp [set, hv, get_cons, hm]
      · simp [set, hv, get_cons, hm, Ne.symm hm]
  | cons x r ih =>
    obtain ⟨k, w⟩ := x
    unfold set
    split
    · next hk =>
      by_cases hm : k = m
      · subst hm
        have : k ≠ n := by omega
        simp [get_cons, this]
      · simp [get_cons, hm, ih]
    · split
      · next hv => simp [get_erase, hv]
      · by_cases hm : n = m
        · simp [get_cons, hm]
        · simp [get_cons, hm, Ne.symm hm, get_erase]

@[simp] theorem get_set_same (d : α) (b : Bank α) (n : Nat) (v : α) : get d (set d b n v) n = v := by simp [get_set]

theorem get_set_other (d : α) (b : Bank α) {n m : Nat} (v : α) (h : m ≠ n) : get d (set d b n v) m = get d b m := by
  simp [get_set, h]

/-! The canonical form -/

theorem above_mono {d : α} {b : Bank α} {n m : Nat} (h : above d n b = true) (hm : m ≤ n) : above d m b = true := by
  cases b with
  | nil => rfl
  | cons x r =>
    obtain ⟨k, v⟩ := x
    simp only [above, Bool.and_eq_true, decide_eq_true_eq] at *
    exact ⟨⟨by omega, h.1.2⟩, h.2⟩

theorem above_erase {d : α} {b : Bank α} {n : Nat} (k : Nat) (h : above d n b = true) : above d n (erase b k) = true := by
  induction b generalizing n with
  | nil => rfl
  | cons x r ih =>
    obtain ⟨j, v⟩ := x
    simp only [above, Bool.and_eq_true, decide_eq_true_eq] at h
    unfold erase
    split
    · exact ih (above_mono h.2 (by omega))
    · simp [above, h.1, ih h.2]

theorem above_erase_of_le {d : α} {b : Bank α} {n k j : Nat} (w : α) (hj : k ≤ j) (h : above d n ((j, w) :: b) = true) :
    above d k (erase ((j, w) :: b) k) = true := by
  simp only [above, Bool.and_eq_true, decide_eq_true_eq] at h
  unfold erase
  split
  · next hk => subst hk; exact above_erase j h.2
  · simp only [above, Bool.and_eq_true, decide_eq_true_eq]
    exact ⟨⟨by omega, h.1.2⟩, above_erase k h.2⟩

theorem above_set {d : α} {b : Bank α} {n k : Nat} {v : α} (h : above d n b = true) (hk : n < k) :
    above d n (set d b k v) = true := by
  induction b generalizing n with
  | nil => by_cases hv : v = d <;> simp [set, above, hv, hk]
  | cons x r ih =>
    obtain ⟨j, w⟩ := x
    have h0 := h
    simp only [above, Bool.and_eq_true, decide_eq_true_eq] at h
    unfold set
    split
    · next hj => simp [above, h.1, ih h.2 hj]
    · next hj =>
      split
      · exact above_erase k h0
      · next hv =>
        simp only [above, Bool.and_eq_true, decide_eq_true_eq]
        exact ⟨⟨hk, hv⟩, above_erase_of_le w (by omega) h0⟩

/-- Removing a key keeps the canonical form. -/
theorem wf_erase {d : α} {b : Bank α} {n : Nat} (h : wf d b = true) : wf d (erase b n) = true := by
  cases b with
  | nil => rfl
  | cons x r =>
    obtain ⟨k, v⟩ := x
    simp only [wf, Bool.and_eq_true, decide_eq_true_eq] at h
    have hk : wf d (erase r n) = true := by
      have := above_erase n h.2
      cases hr : erase r n with
      | nil => rfl
      | cons y t => rw [hr] at this; simp [above] at this; simp [wf, this]
    unfold erase
    split
    · exact hk
    · simp [wf, h.1, above_erase n h.2]

/-- A write keeps the canonical form. -/
theorem wf_set {d : α} {b : Bank α} (n : Nat) (v : α) (h : wf d b = true) : wf d (set d b n v) = true := by
  cases b with
  | nil => by_cases hv : v = d <;> simp [set, wf, above, hv]
  | cons x r =>
    obtain ⟨k, w⟩ := x
    have h0 := h
    simp only [wf, Bool.and_eq_true, decide_eq_true_eq] at h
    unfold set
    split
    · next hk => simp [wf, h.1, above_set h.2 hk]
    · next hk =>
      split
      · exact wf_erase h0
      · next hv =>
        simp only [wf, Bool.and_eq_true, decide_eq_true_eq]
        refine ⟨hv, ?_⟩
        unfold erase
        split
        · next hkn => subst hkn; exact above_erase k h.2
        · simp only [above, Bool.and_eq_true, decide_eq_true_eq]
          exact ⟨⟨by omega, h.1⟩, above_erase n h.2⟩

/-- Writing a run keeps the canonical form. -/
theorem wf_setRun {d : α} {b : Bank α} (a : Nat) (l : List α) (h : wf d b = true) : wf d (setRun d b a l) = true := by
  induction l generalizing b a with
  | nil => exact h
  | cons v r ih => exact ih (a + 1) (wf_set a v h)

/-- A read after a run is written: the run's value inside it, and what stood before outside it. -/
theorem get_setRun (d : α) (b : Bank α) (a : Nat) (l : List α) (m : Nat) :
    get d (setRun d b a l) m = if a ≤ m then l.getD (m - a) (get d b m) else get d b m := by
  induction l generalizing b a with
  | nil => simp [setRun]
  | cons v r ih =>
    rw [setRun, ih, get_set]
    by_cases h1 : a + 1 ≤ m
    · have h2 : m - a = (m - (a + 1)) + 1 := by omega
      have h3 : m ≠ a := by omega
      have h4 : a ≤ m := by omega
      simp [h1, h2, h3, h4]
    · by_cases h2 : m = a
      · simp [h2]
      · have h4 : ¬ a ≤ m := by omega
        simp [h1, h2, h4]

/-- Bytes outside a run are as before. -/
theorem get_setRun_outside (d : α) (b : Bank α) {a m : Nat} (l : List α) (h : m < a ∨ a + l.length ≤ m) :
    get d (setRun d b a l) m = get d b m := by
  rw [get_setRun]
  split
  · rw [List.getD_eq_default]; omega
  · rfl

omit [DecidableEq α] in
@[simp] theorem getRun_length (d : α) (b : Bank α) (a n : Nat) : (getRun d b a n).length = n := by
  induction n generalizing a with
  | zero => rfl
  | succ n ih => simp [getRun, ih]

/-- A run that was written is read back. -/
theorem getRun_setRun (d : α) (b : Bank α) (a : Nat) (l : List α) : getRun d (setRun d b a l) a l.length = l := by
  have key : ∀ (r : Bank α) (n : Nat), (∀ i, i < n → get d r (a + i) = l.getD i d) → n ≤ l.length →
      ∀ j, j ≤ n → getRun d r (a + j) (n - j) = (l.take n).drop j := by
    intro r n hr hn j hj
    induction hk : n - j generalizing j with
    | zero => simp [getRun]; omega
    | succ k ih =>
      have hj' : j < n := by omega
      rw [getRun, hr j hj', Nat.add_assoc, ih (j + 1) (by omega) (by omega)]
      rw [List.drop_eq_getElem_cons (i := j) (by simp; omega)]
      have hl : j < l.length := by omega
      simp [hl]
  have := key (setRun d b a l) l.length (by
    intro i hi
    rw [get_setRun]
    simp [hi]) (Nat.le_refl _) 0 (Nat.zero_le _)
  simpa using this

/-- Below the least key of a canonical bank everything reads as the default. -/
theorem get_above {d : α} {b : Bank α} {n m : Nat} (h : above d n b = true) (hm : m ≤ n) : get d b m = d := by
  induction b generalizing n with
  | nil => rfl
  | cons x r ih =>
    obtain ⟨k, v⟩ := x
    simp only [above, Bool.and_eq_true, decide_eq_true_eq] at h
    have : k ≠ m := by omega
    rw [get_cons, if_neg this, ih h.2 (by omega)]

theorem ext_above {d : α} {a b : Bank α} {n : Nat} (ha : above d n a = true) (hb : above d n b = true)
    (h : ∀ m, get d a m = get d b m) : a = b := by
  induction a generalizing b n with
  | nil =>
    cases b with
    | nil => rfl
    | cons y t =>
      obtain ⟨k, v⟩ := y
      have := h k
      simp only [above, Bool.and_eq_true, decide_eq_true_eq] at hb
      simp [get_cons] at this
      exact absurd this.symm hb.1.2
  | cons x r ih =>
    obtain ⟨j, w⟩ := x
    simp only [above, Bool.and_eq_true, decide_eq_true_eq] at ha
    cases b with
    | nil =>
      have := h j
      simp [get_cons] at this
      exact absurd this ha.1.2
    | cons y t =>
      obtain ⟨k, v⟩ := y
      simp only [above, Bool.and_eq_true, decide_eq_true_eq] at hb
      have hjk : j = k := by
        rcases Nat.lt_trichotomy j k with hlt | heq | hgt
        · have := h j
          rw [get_cons, if_pos rfl, get_cons, if_neg (by omega), get_above hb.2 (by omega)] at this
          exact absurd this ha.1.2
        · exact heq
        · have := h k
          rw [get_cons, if_neg (by omega), get_cons, if_pos rfl, get_above ha.2 (by omega)] at this
          exact absurd this.symm hb.1.2
      subst hjk
      have hwv : w = v := by simpa [get_cons] using h j
      subst hwv
      have : r = t := by
        refine ih ha.2 hb.2 (fun m => ?_)
        by_cases hm : j = m
        · subst hm; rw [get_above ha.2 (Nat.le_refl _), get_above hb.2 (Nat.le_refl _)]
        · simpa [get_cons, hm] using h m
      rw [this]

/-- Canonical banks that read alike are equal. -/
theorem ext_of_wf {d : α} {a b : Bank α} (ha : wf d a = true) (hb : wf d b = true) (h : ∀ m, get d a m = get d b m) : a = b := by
  cases a with
  | nil =>
    cases b with
    | nil => rfl
    | cons y t =>
      obtain ⟨k, v⟩ := y
      simp only [wf, Bool.and_eq_true, decide_eq_true_eq] at hb
      have := h k
      simp [get_cons] at this
      exact absurd this.symm hb.1
  | cons x r =>
    cases b with
    | nil =>
      obtain ⟨j, w⟩ := x
      simp only [wf, Bool.and_eq_true, decide_eq_true_eq] at ha
      have := h j
      simp [get_cons] at this
      exact absurd this ha.1
    | cons y t =>
      obtain ⟨j, w⟩ := x
      obtain ⟨k, v⟩ := y
      simp only [wf, Bool.and_eq_true, decide_eq_true_eq] at ha hb
      have hjk : j = k := by
        rcases Nat.lt_trichotomy j k with hlt | heq | hgt
        · have := h j
          rw [get_cons, if_pos rfl, get_cons, if_neg (by omega), get_above hb.2 (by omega)] at this
          exact absurd this ha.1
        · exact heq
        · have := h k
          rw [get_cons, if_neg (by omega), get_cons, if_pos rfl, get_above ha.2 (by omega)] at this
          exact absurd this.symm hb.1
      subst hjk
      have hwv : w = v := by simpa [get_cons] using h j
      subst hwv
      have : r = t := ext_above ha.2 hb.2 (fun m => by
        by_cases hm : j = m
        · subst hm; rw [get_above ha.2 (Nat.le_refl _), get_above hb.2 (Nat.le_refl _)]
        · simpa [get_cons, hm] using h m)
      rw [this]

/-- Writing back what stands there changes nothing of a canonical bank. -/
theorem set_get_of_wf {d : α} {b : Bank α} (n : Nat) (h : wf d b = true) : set d b n (get d b n) = b :=
  ext_of_wf (wf_set _ _ h) h fun m => by rw [get_set]; split <;> simp_all

end Sys2Proof.Bank
end

