-- ==== Sys2Proof/Laws/State.lean ====
section
/-! SUPPORT. The fields of the state after each of its updates: cores, engines, token queues and dies. -/

namespace Sys2Proof.Machine

/-! Cores of a state -/

@[simp] theorem core_setCore (s : State) (c d : Nat) (k : Core) : (s.setCore c k).core d = if d = c then k else s.core d := by
  simp [State.core, State.setCore, Bank.get_set]

@[simp] theorem here_upd (s : State) (f : Core → Core) : (s.upd f).here = f s.here := by
  simp [State.upd, State.here, State.setCore, State.core]

theorem core_upd (s : State) (f : Core → Core) (c : Nat) : (s.upd f).core c = if c = s.cur.core then f s.here else s.core c := by
  simp [State.upd]

theorem core_upd_other (s : State) (f : Core → Core) {c : Nat} (h : c ≠ s.cur.core) : (s.upd f).core c = s.core c := by
  simp [core_upd, h]

@[simp] theorem rest_setCore (s : State) (c : Nat) (k : Core) : (s.setCore c k).rest = s.rest := rfl
@[simp] theorem rest_upd (s : State) (f : Core → Core) : (s.upd f).rest = s.rest := rfl
@[simp] theorem cur_setCore (s : State) (c : Nat) (k : Core) : (s.setCore c k).cur = s.cur := rfl
@[simp] theorem cur_upd (s : State) (f : Core → Core) : (s.upd f).cur = s.cur := rfl
@[simp] theorem free_upd (s : State) (f : Core → Core) : (s.upd f).free = s.free := rfl
@[simp] theorem free_setCore (s : State) (c : Nat) (k : Core) : (s.setCore c k).free = s.free := rfl
@[simp] theorem level_upd (s : State) (f : Core → Core) : (s.upd f).level = s.level := rfl
@[simp] theorem spad_upd (s : State) (f : Core → Core) : (s.upd f).spad = s.spad := rfl
@[simp] theorem hbm_upd (s : State) (f : Core → Core) : (s.upd f).hbm = s.hbm := rfl
@[simp] theorem spad_setCore (s : State) (c : Nat) (k : Core) : (s.setCore c k).spad = s.spad := rfl
@[simp] theorem hbm_setCore (s : State) (c : Nat) (k : Core) : (s.setCore c k).hbm = s.hbm := rfl
@[simp] theorem spad_setDie (s : State) (d : Nat) (x : Die) : (s.setDie d x).spad = s.spad := rfl
@[simp] theorem hbm_setDie (s : State) (d : Nat) (x : Die) : (s.setDie d x).hbm = s.hbm := rfl
@[simp] theorem core_setDie (s : State) (d : Nat) (x : Die) (c : Nat) : (s.setDie d x).core c = s.core c := rfl
@[simp] theorem cur_setDie (s : State) (d : Nat) (x : Die) : (s.setDie d x).cur = s.cur := rfl

@[simp] theorem die_setDie (s : State) (d e : Nat) (x : Die) : (s.setDie d x).die e = if e = d then x else s.die e := by
  simp [State.die, State.setDie, Bank.get_set]

/-! Two states that agree but for the cores -/

theorem rest_cur {s t : State} (h : t.rest = s.rest) : t.cur = s.cur := by
  have := congrArg (fun u : State => u.cur) h
  exact this
theorem rest_spad {s t : State} (h : t.rest = s.rest) : t.spad = s.spad := by
  have := congrArg (fun u : State => u.spad) h
  exact this
theorem rest_hbm {s t : State} (h : t.rest = s.rest) : t.hbm = s.hbm := by
  have := congrArg (fun u : State => u.hbm) h
  exact this

/-! Engines of a core -/

theorem Eng.tag_inj {e f : Eng} (h : e.tag = f.tag) : e = f := by cases e <;> cases f <;> first | rfl | simp [Eng.tag] at h

@[simp] theorem en_setEn (k : Core) (e f : Eng) (x : EngSt) : (k.setEn e x).en f = if f = e then x else k.en f := by
  by_cases h : f = e
  · simp [Core.en, Core.setEn, h]
  · have : f.tag ≠ e.tag := fun g => h (Eng.tag_inj g)
    simp [Core.en, Core.setEn, h, Bank.get_set, this]

@[simp] theorem en_onEn (k : Core) (e f : Eng) (g : EngSt → EngSt) : (k.onEn e g).en f = if f = e then g (k.en e) else k.en f := by
  simp [Core.onEn]

@[simp] theorem still_onEn (k : Core) (e : Eng) (g : EngSt → EngSt) : (k.onEn e g).still = k.still := rfl
@[simp] theorem regs_onEn (k : Core) (e : Eng) (g : EngSt → EngSt) : (k.onEn e g).regs = k.regs := rfl
@[simp] theorem sys_onEn (k : Core) (e : Eng) (g : EngSt → EngSt) : (k.onEn e g).sys = k.sys := rfl
@[simp] theorem tok_onEn (k : Core) (e : Eng) (g : EngSt → EngSt) : (k.onEn e g).tok = k.tok := rfl
@[simp] theorem races_onEn (k : Core) (e : Eng) (g : EngSt → EngSt) : (k.onEn e g).races = k.races := rfl
@[simp] theorem phase_onEn (k : Core) (e : Eng) (g : EngSt → EngSt) : (k.onEn e g).phase = k.phase := rfl
@[simp] theorem still_setTokens (k : Core) (q : Nat) (l : List Token) : (k.setTokens q l).still = k.still := rfl
@[simp] theorem regs_setTokens (k : Core) (q : Nat) (l : List Token) : (k.setTokens q l).regs = k.regs := rfl
@[simp] theorem sys_setTokens (k : Core) (q : Nat) (l : List Token) : (k.setTokens q l).sys = k.sys := rfl
@[simp] theorem races_setTokens (k : Core) (q : Nat) (l : List Token) : (k.setTokens q l).races = k.races := rfl
@[simp] theorem en_setTokens (k : Core) (q : Nat) (l : List Token) (e : Eng) : (k.setTokens q l).en e = k.en e := rfl
@[simp] theorem phase_setTokens (k : Core) (q : Nat) (l : List Token) : (k.setTokens q l).phase = k.phase := rfl

@[simp] theorem tokens_setTokens (k : Core) (p q : Nat) (l : List Token) :
    (k.setTokens q l).tokens p = if p = q then l else k.tokens p := by
  simp [Core.tokens, Core.setTokens, Bank.get_set]

end Sys2Proof.Machine
end

