-- ==== Sys2Proof/Laws/Memory.lean ====
section
/-! SUPPORT. Every memory operation keeps both memories in canonical form, and what each leaves alone. -/

namespace Sys2Proof.Machine

/-! The form -/

theorem memWf_iff (s : State) : s.memWf = true ↔ Memory.wf s.spad = true ∧ Memory.wf s.hbm = true := by simp [State.memWf]

/-- The form depends on the two memories alone. -/
theorem memWf_of_eq {s t : State} (h : s.memWf = true) (hs : t.spad = s.spad) (hh : t.hbm = s.hbm) : t.memWf = true := by
  rw [memWf_iff] at *; rw [hs, hh]; exact h

theorem memWf_spad {s t : State} (h : s.memWf = true) (hs : Memory.wf t.spad = true) (hh : t.hbm = s.hbm) : t.memWf = true := by
  rw [memWf_iff] at *; rw [hh]; exact ⟨hs, h.2⟩

theorem memWf_hbm {s t : State} (h : s.memWf = true) (hh : Memory.wf t.hbm = true) (hs : t.spad = s.spad) : t.memWf = true := by
  rw [memWf_iff] at *; rw [hs]; exact ⟨h.1, hh⟩

theorem wf_spad {s : State} (h : s.memWf = true) : Memory.wf s.spad = true := ((memWf_iff s).mp h).1
theorem wf_hbm {s : State} (h : s.memWf = true) : Memory.wf s.hbm = true := ((memWf_iff s).mp h).2

theorem memWf_reset : State.reset.memWf = true := rfl

/-- Bytes that go to a scratchpad. -/
theorem memWf_setRun_spad {s : State} (h : s.memWf = true) (a : Nat) (bs : List Byte) : ({ s with spad := Bank.setRun 0 s.spad a bs } : State).memWf = true :=
  memWf_spad h (Bank.wf_setRun a bs (wf_spad h)) rfl

/-- Bytes that go to the copy of record. -/
theorem memWf_setRun_hbm {s : State} (h : s.memWf = true) (a : Nat) (bs : List Byte) : ({ s with hbm := Bank.setRun 0 s.hbm a bs } : State).memWf = true :=
  memWf_hbm h (Bank.wf_setRun a bs (wf_hbm h)) rfl

theorem memWf_set_spad {s : State} (h : s.memWf = true) (a : Nat) (b : Byte) : ({ s with spad := Bank.set 0 s.spad a b } : State).memWf = true :=
  memWf_spad h (Bank.wf_set a b (wf_spad h)) rfl

@[simp] theorem memWf_setCore (s : State) (c : Nat) (k : Core) : (s.setCore c k).memWf = s.memWf := rfl
@[simp] theorem memWf_upd (s : State) (f : Core → Core) : (s.upd f).memWf = s.memWf := rfl
@[simp] theorem memWf_setDie (s : State) (d : Nat) (x : Die) : (s.setDie d x).memWf = s.memWf := rfl

/-- What holds of a state and is kept by each step of a fold holds at its end. -/
theorem memWf_foldl {α : Type} (f : State → α → State) (hf : ∀ s x, s.memWf = true → (f s x).memWf = true) (l : List α) {s : State}
    (h : s.memWf = true) : (l.foldl f s).memWf = true := by
  induction l generalizing s with
  | nil => exact h
  | cons x r ih => exact ih (hf s x h)

/-- Entries that stay keep their order. -/
theorem wf_filter {α : Type} [DecidableEq α] (d : α) (p : Nat × α → Bool) (b : Bank α) (h : Bank.wf d b = true) : Bank.wf d (b.filter p) = true := by
  have up : ∀ (b : Bank α) (n : Nat), Bank.above d n b = true → Bank.above d n (b.filter p) = true := by
    intro b
    induction b with
    | nil => intro n h; exact h
    | cons x r ih =>
      obtain ⟨k, v⟩ := x
      intro n h
      simp only [Bank.above, Bool.and_eq_true, decide_eq_true_eq] at h
      by_cases hp : p (k, v) = true
      · simp [hp, Bank.above, h.1.1, h.1.2, ih k h.2]
      · simp only [List.filter_cons, hp, Bool.false_eq_true, if_false]
        exact ih n (Bank.above_mono h.2 (Nat.le_of_lt h.1.1))
  cases b with
  | nil => rfl
  | cons x r =>
    obtain ⟨k, v⟩ := x
    simp only [Bank.wf, Bool.and_eq_true, decide_eq_true_eq] at h
    by_cases hp : p (k, v) = true
    · simp [hp, Bank.wf, h.1, up r k h.2]
    · simp only [List.filter_cons, hp, Bool.false_eq_true, if_false]
      have := up r k h.2
      revert this
      cases r.filter p with
      | nil => intro _; rfl
      | cons y t =>
        obtain ⟨j, w⟩ := y
        simp only [Bank.above, Bank.wf, Bool.and_eq_true, decide_eq_true_eq]
        exact fun h => ⟨h.1.2, h.2⟩

/-! Stores on their way home -/

theorem wf_landBytes {hbm : List Host.Cell} (h : Memory.wf hbm = true) (phys : Nat) (b : Bank Nat) : Memory.wf (landBytes hbm phys b) = true := by
  induction b generalizing hbm with
  | nil => exact h
  | cons x r ih => exact ih (Bank.wf_set _ _ h)

/-- The copy of record with further bytes. -/
theorem memWf_homeTo {s : State} (h : s.memWf = true) {hbm : List Host.Cell} (hh : Memory.wf hbm = true) (a n : Nat) :
    (homeTo s hbm a n).memWf = true := memWf_hbm h hh rfl

theorem memWf_putHome {s : State} (h : s.memWf = true) (a : Nat) (bs : List Byte) : (putHome s a bs).memWf = true :=
  memWf_homeTo h (Bank.wf_setRun a bs (wf_hbm h)) _ _

theorem memWf_landHome {s : State} (h : s.memWf = true) (phys : Nat) (b : Bank Nat) : (landHome s phys b).memWf = true :=
  memWf_homeTo h (wf_landBytes (wf_hbm h) phys b) _ _

theorem memWf_countDrop {s : State} (h : s.memWf = true) (g : GenRef) : (countDrop s g).memWf = true := by
  unfold countDrop
  dsimp only
  split
  · exact memWf_setRun_spad h _ _
  · split
    · exact memWf_putHome h _ _
    · exact h
  · exact h

theorem memWf_admitGen {s : State} (h : s.memWf = true) (line : Nat) (g : Option GenRef) : (admitGen s line g).2.memWf = true := by
  unfold admitGen
  split
  · exact h
  · dsimp only
    split
    · exact memWf_countDrop h _
    · exact h

theorem memWf_drainAt {s : State} (h : s.memWf = true) (d n : Nat) : (drainAt s d n).memWf = true := by
  unfold drainAt
  dsimp only
  split
  · exact h
  · rename_i b _
    have ha := memWf_admitGen h (b.phys / 128) b.gen
    split
    · rw [memWf_setDie]
      apply memWf_landHome
      split <;> exact ha
    · rw [memWf_setDie]; exact ha

theorem memWf_drainOldest (d n : Nat) {s : State} (h : s.memWf = true) : (drainOldest d n s).memWf = true := by
  induction n generalizing s with
  | zero => exact h
  | succ n ih => exact ih (memWf_drainAt h d 0)

theorem memWf_drainNeeded (d : Nat) (need : BufStore → Bool) (n : Nat) {s : State} (h : s.memWf = true) :
    (drainNeeded d need n s).memWf = true := by
  induction n generalizing s with
  | zero => exact h
  | succ n ih =>
    unfold drainNeeded
    split
    · exact ih (memWf_drainAt h d _)
    · exact h

theorem memWf_drainDie {s : State} (h : s.memWf = true) (d : Nat) : (drainDie s d).memWf = true := memWf_drainOldest d _ h

theorem memWf_landCombine {s : State} (b : Combine) (h : s.memWf = true) : (landCombine s b).memWf = true := by
  have ha := memWf_admitGen h (b.phys / 128) b.gen
  unfold landCombine
  dsimp only
  split
  · exact memWf_landHome ha _ _
  · exact ha

theorem memWf_drainWc {s : State} (h : s.memWf = true) (c : Nat) (p : Combine → Bool) : (drainWc s c p).memWf = true :=
  memWf_foldl landCombine (fun _ b h => memWf_landCombine b h) _ h

theorem memWf_drainCombine {s : State} (h : s.memWf = true) (c : Nat) : (drainCombine s c).memWf = true := memWf_drainWc h c _

theorem memWf_drainCombineLine {s : State} (h : s.memWf = true) (c line : Nat) : (drainCombineLine s c line).memWf = true :=
  memWf_drainWc h c _

theorem memWf_drainOldestWc {s : State} (h : s.memWf = true) (c : Nat) : (drainOldestWc s c).memWf = true := by
  unfold drainOldestWc
  split
  · split
    · exact memWf_landCombine _ h
    · exact h
  · exact h

theorem memWf_drainLine (d phys n : Nat) {s : State} (h : s.memWf = true) : (drainLine d phys n s).memWf = true := by
  induction n generalizing s with
  | zero => exact h
  | succ n ih =>
    unfold drainLine
    split
    · exact ih (memWf_drainAt h d _)
    · exact h

theorem memWf_makeRoom {s : State} (h : s.memWf = true) (d phys : Nat) : (makeRoom s d phys).memWf = true := by
  unfold makeRoom
  dsimp only
  split
  · exact h
  · split
    · exact memWf_drainLine _ _ _ h
    · exact h

theorem memWf_bufStore {s : State} (h : s.memWf = true) (d stream : Nat) (asid : BitVec 12) (t : Trans) (bs : List Byte) (gen : Option GenRef)
    (nt : Bool) : (bufStore s d stream asid t bs gen nt).memWf = true := by
  unfold bufStore
  dsimp only
  rw [memWf_setDie]
  exact memWf_makeRoom h _ _

theorem memWf_combineStore {s : State} (h : s.memWf = true) (c : Nat) (asid : BitVec 12) (t : Trans) (bs : List Byte)
    (gen : Option GenRef) : (combineStore s c asid t bs gen).memWf = true := by
  have h1 := memWf_drainWc h c fun b => decide (b.asid = asid) && decide (b.line = t.va / 128) && decide (b.gen ≠ gen)
  unfold combineStore
  dsimp only
  apply memWf_drainWc
  split
  · exact h1
  · exact memWf_drainOldestWc h1 c

/-! Reads fill caches and write no memory -/

theorem sameButCaches_refl (s : State) : sameButCaches s s := rfl

/-- A line that the die cache takes in changes that cache alone. -/
theorem sameButCaches_fill (s : State) (d : Nat) (asid : BitVec 12) (t : Trans) : sameButCaches s (fill s d asid t) := by
  unfold fill
  split
  · rfl
  · split <;> rfl

/-- A translation that the controllers keep changes their caches alone. -/
theorem keepTrans_spec (s : State) (asid : BitVec 12) (va : Nat) : keepTrans s asid va = { s with trans := (keepTrans s asid va).trans } := by
  unfold keepTrans
  split
  · dsimp only; split <;> rfl
  · rfl

theorem sameButCaches_keepTrans (s : State) (asid : BitVec 12) (va : Nat) : sameButCaches s (keepTrans s asid va) := by
  unfold sameButCaches; rw [keepTrans_spec]

theorem sameButCaches_trans {s t u : State} (h : sameButCaches s t) (g : sameButCaches t u) : sameButCaches s u := by
  unfold sameButCaches at *; rw [g, h]

/-- What an access leaves at the controllers and the slices. -/
theorem sameButCaches_learnHome (s : State) (asid : BitVec 12) (t : Trans) (a : Bool) : sameButCaches s (learnHome s asid t a) := by
  have hk := sameButCaches_keepTrans s asid t.va
  unfold learnHome
  split
  · rfl
  · dsimp only
    split
    · exact hk
    · exact sameButCaches_trans hk (by rfl)

/-- What an access leaves at the controllers, the slices and the filter. -/
theorem sameButCaches_learn (s : State) (d : Nat) (asid : BitVec 12) (va : Nat) (t : Trans) (a : Bool) :
    sameButCaches s (learn s d asid va t a) := by
  have hd (u : State) (x : Die) : sameButCaches u (u.setDie d x) := by rfl
  unfold learn
  dsimp only
  split <;> split
  · exact sameButCaches_trans (sameButCaches_keepTrans s asid va) (hd _ _)
  · exact hd s _
  · exact sameButCaches_trans (sameButCaches_keepTrans s asid va) (sameButCaches_trans (hd _ _) (sameButCaches_learnHome _ asid t a))
  · exact sameButCaches_trans (hd s _) (sameButCaches_learnHome _ asid t a)

/-- A read of global memory changes caches and nothing else. -/
theorem sameButCaches_readPieces (c : Nat) (asid : BitVec 12) (l : List Piece) (s : State) : sameButCaches s (readPieces c asid l s).2 := by
  induction l generalizing s with
  | nil => exact sameButCaches_refl s
  | cons p r ih =>
    obtain ⟨va, n⟩ := p
    unfold readPieces
    dsimp only
    split
    · exact sameButCaches_refl s
    · exact ih s
    · split
      · exact sameButCaches_refl s
      · exact sameButCaches_trans (sameButCaches_learn _ _ _ _ _ _) (sameButCaches_trans (sameButCaches_fill _ _ _ _) (ih _))

/-- A read of memory by a task changes caches and nothing else. -/
theorem sameButCaches_readMem (s : State) (c va n : Nat) : sameButCaches s (readMem s c va n).2 := by
  unfold readMem
  split
  · exact sameButCaches_refl s
  · exact sameButCaches_readPieces c _ _ s
  · exact sameButCaches_refl s

/-- A load changes caches and nothing else. -/
theorem sameButCaches_load (s : State) (va n : Nat) : sameButCaches s (s.load va n).2 := sameButCaches_readMem s _ va n

theorem memWf_sameButCaches {s t : State} (h : s.memWf = true) (g : sameButCaches s t) : t.memWf = true := by rw [g]; exact h

theorem memWf_learn {s : State} (h : s.memWf = true) (d : Nat) (asid : BitVec 12) (va : Nat) (t : Trans) (a : Bool) :
    (learn s d asid va t a).memWf = true := memWf_sameButCaches h (sameButCaches_learn s d asid va t a)

theorem memWf_learnSpot {s : State} (h : s.memWf = true) (c : Nat) (asid : BitVec 12) (va : Nat) (nt : Bool) (p : Spot) :
    (learnSpot s c asid va nt p).memWf = true := by
  cases p with
  | spad key => exact h
  | mem t => exact memWf_learn h _ _ _ _ _

theorem memWf_load {s : State} (h : s.memWf = true) (va n : Nat) : (s.load va n).2.memWf = true := memWf_sameButCaches h (sameButCaches_load s va n)

/-! Stores -/

/-- A store that is performed at its spot. -/
theorem memWf_putSpot {s : State} (h : s.memWf = true) (c stream : Nat) (asid : BitVec 12) (p : Spot) (bs : List Byte) (gen : Option GenRef)
    (nt : Bool) : (putSpot s c stream asid p bs gen nt).memWf = true := by
  cases p with
  | spad key => exact memWf_setRun_spad h _ _
  | mem t =>
    have hp : (patchLine s (dieOf c) asid t.va bs).memWf = true := h
    unfold putSpot
    dsimp only
    split
    · exact memWf_combineStore h _ _ _ _ _
    · exact memWf_bufStore hp _ _ _ _ _ _ _

theorem memWf_writePieces (c stream : Nat) (asid : BitVec 12) (gen : Option GenRef) (nt : Bool) (l : List Piece) (bs : List Byte) {s : State}
    (h : s.memWf = true) : (writePieces c stream asid gen nt l bs s).memWf = true := by
  induction l generalizing s bs with
  | nil => exact h
  | cons p r ih =>
    obtain ⟨va, n⟩ := p
    unfold writePieces
    split
    · exact h
    · exact ih _ (memWf_putSpot (memWf_learnSpot h _ _ _ _ _) _ _ _ _ _ _ _)

theorem memWf_writeMem {s : State} (h : s.memWf = true) (c stream va : Nat) (bs : List Byte) (nt : Bool) :
    (writeMem s c stream va bs nt).memWf = true := by
  unfold writeMem
  split
  · exact memWf_setRun_spad h _ _
  · exact memWf_writePieces _ _ _ _ _ _ _ h
  · exact h

theorem memWf_store {s : State} (h : s.memWf = true) (e : Eng) (va : Nat) (bs : List Byte) (nt : Bool) : (s.store e va bs nt).memWf = true := by
  unfold State.store
  dsimp only
  split
  · split
    · rw [memWf_upd]; exact h
    · exact memWf_writeMem h _ _ _ _ _
  · exact memWf_writeMem h _ _ _ _ _

theorem memWf_writeHome (c : Nat) (asid : BitVec 12) (l : List Piece) (bs : List Byte) {s t : State} (h : s.memWf = true)
    (ht : writeHome c asid l bs s = .ok t) : t.memWf = true := by
  fun_induction writeHome c asid l bs s with
  | case1 s => cases ht; exact h
  | case3 s va n r bs key hw ih => exact ih (memWf_setRun_spad h _ _) ht
  | case6 s va n r bs hw t1 hx t2 hp s1 ih => exact ih (memWf_putHome (memWf_learn h _ _ _ _ _) _ _) ht
  | _ => cases ht

/-! Timed landing -/

theorem memWf_setSpad {s : State} (h : s.memWf = true) (key n v : Nat) : (s.setSpad key n v).memWf = true := memWf_setRun_spad h _ _

/-- What an update of a barrier leaves: bytes of a scratchpad and nothing else. -/
theorem barUpdate_spec {s t : State} {key : Nat} {darr : Bool} {dbytes : BitVec 32} (ht : s.barUpdate key darr dbytes = .ok t) :
    t = { s with spad := t.spad } ∧ (s.memWf = true → t.memWf = true) := by
  unfold State.barUpdate at ht
  dsimp only at ht
  by_cases h1 : (!s.barrierOk key) = true
  · rw [if_pos h1] at ht; cases ht
  rw [if_neg h1] at ht
  by_cases h2 : (darr && decide (s.spadNat (key + 4) 2 = 0)) = true
  · rw [if_pos h2] at ht; cases ht
  rw [if_neg h2] at ht
  generalize (if darr = true then s.spadNat (key + 4) 2 - 1 else s.spadNat (key + 4) 2) = arr at ht
  generalize (BitVec.ofNat 32 (s.spadNat key 4) + dbytes).toNat = n at ht
  by_cases h3 : arr = 0 ∧ n = 0
  · rw [if_pos h3] at ht; cases ht
    exact ⟨rfl, fun h => memWf_setSpad (memWf_setSpad (memWf_setSpad h _ _ _) _ _ _) _ _ _⟩
  · rw [if_neg h3] at ht; cases ht
    exact ⟨rfl, fun h => memWf_setSpad (memWf_setSpad h _ _ _) _ _ _⟩

/-- What an operation at a bank leaves: bytes of a scratchpad and nothing else. -/
theorem bankOp_spec {s t : State} {key : Nat} {op : BankOp} {x v : Nat} (ht : s.bankOp key op x = .ok (v, t)) :
    t = { s with spad := t.spad } ∧ (s.memWf = true → t.memWf = true) := by
  have ring {f : Ring → Option Ring} (hr : s.onRing key f = .ok (v, t)) : t = { s with spad := t.spad } ∧ (s.memWf = true → t.memWf = true) := by
    unfold State.onRing at hr
    split at hr
    · cases hr
    · split at hr
      · cases hr; exact ⟨rfl, fun h => memWf_setSpad h _ _ _⟩
      · cases hr
  cases op with
  | amo op ty => cases ht; exact ⟨rfl, fun h => memWf_setSpad h _ _ _⟩
  | cas ty =>
    simp only [State.bankOp, Except.ok.injEq, Prod.mk.injEq] at ht
    obtain ⟨-, rfl⟩ := ht
    split
    · exact ⟨rfl, fun h => memWf_setSpad h _ _ _⟩
    · exact ⟨rfl, id⟩
  | bar arrive =>
    simp only [State.bankOp] at ht
    split at ht
    · rename_i u hb
      cases ht
      exact barUpdate_spec hb
    · cases ht
  | claim => exact ring (f := fun r => some r.claim) ht
  | fill => exact ring (f := fun r => r.fill (BitVec.ofNat 32 x)) ht
  | release => exact ring (f := fun r => r.release (BitVec.ofNat 32 x)) ht

/-- One timed write that lands (R85). -/
theorem memWf_landOne {s : State} (h : s.memWf = true) (c : Nat) (seen : List Pend) (p : Pend) : (s.landOne c seen p).memWf = true := by
  unfold State.landOne
  split
  · split
    · exact h
    · exact memWf_set_spad h _ _
  · split
    · rename_i hb
      exact (bankOp_spec hb).2 h
    · exact h
  · exact h

theorem memWf_landSeq (c : Nat) (seen l : List Pend) {s : State} (h : s.memWf = true) : (State.landSeq c seen l s).memWf = true := by
  induction l generalizing s seen with
  | nil => exact h
  | cons p r ih => exact ih _ (memWf_landOne h c seen p)

/-- Timed writes of a core that land (R85). -/
theorem memWf_landDue {s : State} (h : s.memWf = true) (c due : Nat) : (s.landDue c due).memWf = true :=
  memWf_landSeq c _ _ (s := s.setCore c _) h

theorem memWf_landWork {s : State} (h : s.memWf = true) (c : Nat) (seen : List Pend) (e : Nat) (work : List Pend) :
    (State.landWork c seen e work s).memWf = true :=
  memWf_foldl _ (fun _ _ h => memWf_landOne h c _ _) work h

theorem memWf_sweep (c due f : Nat) {s : State} (h : s.memWf = true) : (State.sweep c due f s).memWf = true := by
  induction f generalizing s with
  | zero => exact memWf_landDue h c _
  | succ f ih =>
    unfold State.sweep
    split
    · split
      · dsimp only
        split
        · refine ih ?_
          rw [memWf_setCore]
          exact memWf_landWork (memWf_landDue h c _) c _ _ _
        · exact memWf_landDue h c _
      · exact memWf_landDue h c _
    · exact memWf_landDue h c due

theorem memWf_catchUp {s : State} (h : s.memWf = true) (c due : Nat) : (s.catchUp c due).memWf = true := memWf_sweep c due 5 h

/-! The bytes of a store -/

/-- A store in the task's windows, outside timed mode, writes its bytes in the scratchpad and nothing else. -/
theorem store_window {s : State} (ht : s.here.sys.timed = false) (e : Eng) (va : Nat) (bs : List Byte) (key : Nat)
    (hw : window s.cur.core s.here va bs.length = .ok (.spad key)) : s.store e va bs = { s with spad := Bank.setRun 0 s.spad key bs } := by
  have hw' : window s.cur.core (s.core s.cur.core) va bs.length = .ok (.spad key) := hw
  simp [State.store, ht, writeMem, hw']

/-- A scratchpad byte that a store's bytes do not reach reads as before. -/
theorem spadByte_setRun (s : State) (key : Nat) (bs : List Byte) (k : Nat) :
    ({ s with spad := Bank.setRun 0 s.spad key bs } : State).spadByte k =
      if key ≤ k ∧ k < key + bs.length then bs.getD (k - key) 0 else s.spadByte k := by
  simp only [State.spadByte, Bank.get_setRun, List.getD_eq_getElem?_getD]
  by_cases h : key ≤ k
  · by_cases h2 : k < key + bs.length
    · simp [h, h2, show k - key < bs.length by omega]
    · simp [h, h2, show ¬ k - key < bs.length by omega]
  · simp [h]

end Sys2Proof.Machine
end

