-- ==== Sys2Proof/Laws/Ops.lean ====
section
/-! SUPPORT. What each shared operation can do: reads and writes of registers in order, the end of a word, traps. -/

namespace Sys2Proof.Machine

/-! Finishing a word -/

/-- What making one owed push can change: the token queues and what the engine owes. -/
theorem pushOne_spec (e : Eng) (k : Core) (p : Nat) :
    (Core.pushOne e k p).still = k.still ∧ (Core.pushOne e k p).regs = k.regs ∧ (Core.pushOne e k p).races = k.races ∧
      (∀ f, f ≠ e → (Core.pushOne e k p).en f = k.en f) ∧
      ∃ o, (Core.pushOne e k p).en e = { k.en e with owed := o } := by
  unfold Core.pushOne
  dsimp only
  split
  · refine ⟨rfl, rfl, rfl, fun f hf => by simp [hf], ⟨_, by simp; rfl⟩⟩
  · exact ⟨rfl, rfl, rfl, fun _ _ => rfl, ⟨(k.en e).owed, rfl⟩⟩

theorem pushFold_spec (e : Eng) (l : List Nat) (k : Core) :
    (l.foldl (Core.pushOne e) k).still = k.still ∧ (l.foldl (Core.pushOne e) k).regs = k.regs ∧
      (l.foldl (Core.pushOne e) k).races = k.races ∧ (∀ f, f ≠ e → (l.foldl (Core.pushOne e) k).en f = k.en f) ∧
      ∃ o, (l.foldl (Core.pushOne e) k).en e = { k.en e with owed := o } := by
  induction l generalizing k with
  | nil => exact ⟨rfl, rfl, rfl, fun _ _ => rfl, ⟨(k.en e).owed, rfl⟩⟩
  | cons p r ih =>
    obtain ⟨h1, h2, h3, h4, o, h5⟩ := pushOne_spec e k p
    obtain ⟨g1, g2, g3, g4, o', g5⟩ := ih (Core.pushOne e k p)
    refine ⟨g1.trans h1, g2.trans h2, g3.trans h3, fun f hf => (g4 f hf).trans (h4 f hf), ⟨o', ?_⟩⟩
    rw [List.foldl_cons, g5, h5]

/-- What the end of a word changes: token queues, and of its engine everything but its loop registers, its control queue, what
it has issued and what is ordered before it. -/
theorem leave_spec (k : Core) (e : Eng) (dst src : Word) :
    (k.leave e dst src).still = k.still ∧ (k.leave e dst src).regs = k.regs ∧ (k.leave e dst src).races = k.races ∧
      (∀ f, f ≠ e → (k.leave e dst src).en f = k.en f) ∧
      ∃ o, (k.leave e dst src).en e =
        { k.en e with pc := dst, walk := (k.en e).walk + 1, last := k.cyc, src := src, popped := [], clk0 := (k.en e).clk,
                      joined0 := (k.en e).joined, owed := o, push := 0, wait := none } := by
  unfold Core.leave Core.pushOwed
  obtain ⟨h1, h2, h3, h4, o, h5⟩ := pushFold_spec e _ _
  refine ⟨h1, h2, h3, fun f hf => (h4 f hf).trans (by simp [hf]), ⟨o, h5.trans (by simp)⟩⟩

@[simp] theorem still_leave (k : Core) (e : Eng) (dst src : Word) : (k.leave e dst src).still = k.still := (leave_spec k e dst src).1
@[simp] theorem regs_leave (k : Core) (e : Eng) (dst src : Word) : (k.leave e dst src).regs = k.regs := (leave_spec k e dst src).2.1
@[simp] theorem races_leave (k : Core) (e : Eng) (dst src : Word) : (k.leave e dst src).races = k.races :=
  (leave_spec k e dst src).2.2.1

/-- A word that finishes after an update of its core: the state that follows it. -/
theorem finishes_leave {s u : State} (e : Eng) (dst src : Word) (hr : u.rest = s.rest) (hc : ∀ c, c ≠ s.cur.core → u.core c = s.core c)
    (he : ∀ f, u.en f = s.en f ∨ f = e) (hl : (u.en e).lc = (s.en e).lc) (hq : (u.en e).ctl = (s.en e).ctl) :
    finishes s (u.upd fun k => k.leave e dst src) e dst := by
  have hcur : u.cur = s.cur := rest_cur hr
  obtain ⟨-, -, -, h4, o, h5⟩ := leave_spec u.here e dst src
  refine ⟨hr, fun c h => ?_, fun f hf => ?_, ?_⟩
  · rw [core_upd_other _ _ (by rw [hcur]; exact h), hc c h]
  · have := (he f).resolve_right hf
    simp only [State.en, here_upd] at *
    rw [h4 f hf, this]
  · simp only [State.en, here_upd, h5] at *
    exact ⟨trivial, trivial, hl, hq⟩

/-! Registers in order -/

/-- In order, none of the recorded writes of a register is unordered. -/
theorem unordered_inOrder {k : Core} {e : Eng} (p : Race → Bool) (h : ∀ r ∈ k.races, ordered (k.en e) e.tag r = true) :
    ((k.races.filter p).filter fun r => !ordered (k.en e) e.tag r) = [] := by
  rw [List.filter_eq_nil_iff]
  intro r hr
  simp [h r (List.mem_filter.mp hr).1]

/-- In order, a read gives what the register holds. -/
theorem readReg_inOrder {k : Core} {e : Eng} (tick : Nat) (d : Dest) (h : ∀ r ∈ k.races, ordered (k.en e) e.tag r = true) :
    k.readReg tick e d = k.regNat d := by
  have hn : ((k.races.filter fun r => r.dst.same d).any fun r => !ordered (k.en e) e.tag r) = false := by
    rw [List.any_eq_false]; intro r hr; simp [h r (List.mem_filter.mp hr).1]
  simp only [Core.readReg, hn, Bool.false_eq_true, if_false]

theorem rdS_inOrder {s : State} {e : Eng} (h : inOrder s e) (r : SReg) : s.rdS e r = s.sReg r := by
  unfold State.rdS State.sReg
  split
  · rfl
  · rw [readReg_inOrder _ _ h.2]; simp [Core.regNat]

theorem rdVn_inOrder {s : State} {e : Eng} (h : inOrder s e) (v : Nat) : s.rdVn e v = s.vReg v := by
  unfold State.rdVn State.vReg
  rw [readReg_inOrder _ _ h.2]; simp [Core.regNat]

theorem rdV_inOrder {s : State} {e : Eng} (h : inOrder s e) (v : VNo) : s.rdV e v = s.vReg v.toNat := rdVn_inOrder h v.toNat

theorem rdM_inOrder {s : State} {e : Eng} (h : inOrder s e) (m : MaskNo) : s.rdM e m = s.mReg m.toNat := by
  unfold State.rdM State.mReg
  rw [readReg_inOrder _ _ h.2]; simp [Core.regNat]

theorem pred_inOrder {s : State} {e : Eng} (h : inOrder s e) (m : MaskNo) : s.pred e m = s.active m := by
  unfold State.pred State.active
  split
  · rfl
  · exact rdM_inOrder h m

/-- In order, an interlocked write leaves the register with the blend of what it held and what is written, and changes no other
register and nothing else of the core but the record of the write. -/
theorem writeReg_inOrder {k : Core} {e : Eng} (tick : Nat) (d : Dest) (bm x : Nat) (ht : k.sys.timed = false)
    (h : ∀ r ∈ k.races, ordered (k.en e) e.tag r = true) :
    ∃ rs, k.writeReg tick e d bm x = { k.setReg d (blend (k.regNat d) x bm) with races := rs } ∨
      blend (k.regNat d) x bm = k.regNat d ∧ k.writeReg tick e d bm x = k := by
  have hu := unordered_inOrder (fun r => r.dst.same d) h
  unfold Core.writeReg
  rw [if_neg (by simp [ht])]
  unfold Core.writeRace
  simp only [hu, List.foldl_nil, if_true]
  by_cases hs : blend (k.regNat d) x bm = k.regNat d ∧ (k.races.filter fun r => r.dst.same d) = []
  · cases d with
    | gen n f => exact ⟨k.races, .inl rfl⟩
    | _ => exact ⟨k.races, .inr ⟨hs.1, if_pos hs⟩⟩
  · cases d with
    | gen n f => exact ⟨k.races, .inl rfl⟩
    | _ => exact ⟨_, .inl (if_neg hs)⟩

theorem blend_ones (old new n : Nat) (ho : old < 2 ^ n) (hn : new < 2 ^ n) : blend old new (ones n) = new := by
  have h1 : new &&& ones n = new := by rw [ones, Nat.and_two_pow_sub_one_eq_mod, Nat.mod_eq_of_lt hn]
  have h2 : old &&& ones n = old := by rw [ones, Nat.and_two_pow_sub_one_eq_mod, Nat.mod_eq_of_lt ho]
  unfold blend
  rw [h1, h2, Nat.xor_self, Nat.or_zero]

/-- In order, a write of a scalar register of engine e is what software sees: the register holds the value (s0 nothing), and
nothing else changes. -/
theorem wrS_inOrder {s : State} {e : Eng} (h : inOrder s e) (sd : SReg) (x : Word) :
    (s.wrS e sd x).rest = s.rest ∧ (∀ c, c ≠ s.cur.core → (s.wrS e sd x).core c = s.core c) ∧
      (∀ f, (s.wrS e sd x).en f = s.en f) ∧ writesS s (s.wrS e sd x) sd x := by
  unfold State.wrS
  split
  · next h0 => exact ⟨rfl, fun _ _ => rfl, fun _ => rfl, rfl, rfl, fun r => by simp [h0]⟩
  · next h0 =>
    have h1 : ¬ sd = 0#6 := h0
    have hb : blend (s.here.regNat (.s sd.toNat)) x.toNat (ones 64) = x.toNat :=
      blend_ones _ _ _ (Bank.get 0 s.here.regs.s sd.toNat).isLt x.isLt
    have hsd : sd.toNat ≠ 0 := fun g => h0 (BitVec.eq_of_toNat_eq g)
    obtain ⟨rs, hw⟩ := writeReg_inOrder s.free (.s sd.toNat) (ones 64) x.toNat h.1 h.2
    rw [hb] at hw
    unfold State.wr
    refine ⟨rfl, fun c hc => core_upd_other _ _ hc, fun f => ?_, ?_⟩
    · simp only [State.en, here_upd]
      rcases hw with hw | ⟨-, hw⟩ <;> rw [hw]
      simp [Core.setReg, hsd, Core.en]
    · rcases hw with hw | ⟨hx, hw⟩
      · refine ⟨?_, ?_, fun r => ?_⟩ <;> simp only [State.sReg, here_upd, hw]
        · simp [Core.setReg, hsd, Core.still]
        · simp [Core.setReg, hsd]
        · by_cases hr : r = sd
          · subst hr; simp [Core.setReg, hsd, h1]
          · have : r.toNat ≠ sd.toNat := fun g => hr (BitVec.eq_of_toNat_eq g)
            simp [Core.setReg, hsd, hr, Bank.get_set, this]
      · refine ⟨?_, ?_, fun r => ?_⟩ <;> simp only [State.sReg, here_upd, hw]
        by_cases hr : r = sd
        · subst hr
          have hx : Bank.get 0#64 s.here.regs.s r.toNat = x := BitVec.eq_of_toNat_eq hx.symm
          simp [h1, hx]
        · simp [hr]

end Sys2Proof.Machine
end

