-- ==== Sys2Proof/Laws/Traps.lean ====
section
/-! SUPPORT. What taking a trap can do: its saved registers, where the pc goes, and what it leaves (R8, R283 to R288). -/

namespace Sys2Proof.Machine

/-- Fields of a core that `still` shows. -/
theorem of_still {k u : Core} (h : u.still = k.still) : u.sys = k.sys ∧ u.phase = k.phase ∧ u.events = k.events ∧ u.inst = k.inst := by
  have a := congrArg Core.sys h
  have b := congrArg Core.phase h
  have c := congrArg Core.events h
  have d := congrArg Core.inst h
  exact ⟨a, b, c, d⟩

theorem setTokensFold_spec (l : List (Nat × Token)) (k : Core) :
    let u := l.foldl (fun (k : Core) qt => k.setTokens qt.1 (qt.2 :: k.tokens qt.1)) k
    u.still = k.still ∧ u.regs = k.regs ∧ u.races = k.races ∧ ∀ e, u.en e = k.en e := by
  induction l generalizing k with
  | nil => exact ⟨rfl, rfl, rfl, fun _ => rfl⟩
  | cons x r ih => exact ih _

/-- Tokens that go back change the token queues, and of the engine what it is ordered after and what it has still to push (R8). -/
theorem unpop_spec (k : Core) (e : Eng) : (k.unpop e).still = k.still ∧ (k.unpop e).regs = k.regs ∧ (k.unpop e).races = k.races ∧
    (k.unpop e).sys = k.sys ∧ ∀ f, (k.unpop e).en f =
      if f = e then { k.en e with popped := [], push := 0, clk := (k.en e).clk0, joined := (k.en e).joined0 } else k.en f := by
  unfold Core.unpop
  dsimp only
  obtain ⟨h1, h2, h3, h4⟩ := setTokensFold_spec (k.en e).popped k
  refine ⟨h1, h2, h3, (of_still h1).1, fun f => ?_⟩
  rw [en_onEn, h4]
  split <;> simp [h4]

/-- A word that stalls changes nothing that software sees, and no engine moves. -/
theorem stall_spec (s : State) (e : Eng) : ∃ t, s.stall e = .next t ∧ t.rest = s.rest ∧ t.here.still = s.here.still ∧ t.here.regs = s.here.regs ∧
    (∀ c, c ≠ s.cur.core → t.core c = s.core c) ∧ ∀ f, (t.en f).pc = (s.en f).pc := by
  obtain ⟨h1, h2, _, _, h5⟩ := unpop_spec s.here e
  refine ⟨_, rfl, rfl, by simp [h1], by simp [h2], fun c h => core_upd_other _ _ h, fun f => ?_⟩
  simp only [State.en, here_upd, h5]
  split
  · rename_i h; rw [h]
  · rfl

/-- What stopping the engines keeps: registers, system registers, phase, events, and each engine's position and last transfer (R285). -/
def sameStopped (k u : Core) : Prop :=
  u.regs = k.regs ∧ u.sys = k.sys ∧ u.phase = k.phase ∧ u.events = k.events ∧ u.inst = k.inst ∧
    ∀ f, (u.en f).pc = (k.en f).pc ∧ (u.en f).src = (k.en f).src ∧ (u.en f).ctl = (k.en f).ctl ∧ (u.en f).lc = (k.en f).lc

theorem sameStopped_refl (k : Core) : sameStopped k k := ⟨rfl, rfl, rfl, rfl, rfl, fun _ => ⟨rfl, rfl, rfl, rfl⟩⟩

theorem sameStopped_trans {k u v : Core} (h : sameStopped k u) (g : sameStopped u v) : sameStopped k v := by
  obtain ⟨a1, a2, a3, a4, a5, a6⟩ := h
  obtain ⟨b1, b2, b3, b4, b5, b6⟩ := g
  exact ⟨b1.trans a1, b2.trans a2, b3.trans a3, b4.trans a4, b5.trans a5, fun f =>
    ⟨(b6 f).1.trans (a6 f).1, (b6 f).2.1.trans (a6 f).2.1, (b6 f).2.2.1.trans (a6 f).2.2.1, (b6 f).2.2.2.trans (a6 f).2.2.2⟩⟩

theorem sameStopped_withdrawWait (k : Core) : sameStopped k k.withdrawWait := by
  unfold Core.withdrawWait
  split <;> exact ⟨rfl, rfl, rfl, rfl, rfl, fun _ => ⟨rfl, rfl, rfl, rfl⟩⟩

theorem sameStopped_stopOne (k : Core) (e : Eng) : sameStopped k ((k.unpop e).onEn e fun x => { x with wait := none }) := by
  obtain ⟨h1, h2, _, h4, h5⟩ := unpop_spec k e
  obtain ⟨-, g2, g3, g4⟩ := of_still h1
  refine ⟨h2, h4, g2, g3, g4, fun f => ?_⟩
  rw [en_onEn]
  split
  · rename_i h; subst h; simp [h5]
  · rename_i h; rw [h5]; simp [h]

theorem sameStopped_eventHeld (k : Core) (b : Bool) : sameStopped k { k with eventHeld := b } :=
  ⟨rfl, rfl, rfl, rfl, rfl, fun _ => ⟨rfl, rfl, rfl, rfl⟩⟩

theorem sameStopped_stopOthers (k : Core) : sameStopped k k.stopOthers := by
  unfold Core.stopOthers
  generalize Eng.all = l
  refine sameStopped_trans (sameStopped_withdrawWait k) ?_
  generalize k.withdrawWait = k
  induction l generalizing k with
  | nil => exact sameStopped_refl k
  | cons e r ih => exact sameStopped_trans (sameStopped_stopOne k e) (ih _)

/-- A trap whose registers are written, with a handler enabled and none running: the core is in its handler at TRAPVEC.ADDR, in
interlocked mode with ACTIVE set; the other engines stand where they stood and no register of the program changes (R286). -/
theorem deliver_handler {k : Core} (code : Code) (eng : Nat) (a t6 : Bool) (hp : k.phase ≠ .handler) (hv : bit k.sys.trapvec 0 = true) :
    (k.deliver code eng a t6).phase = .handler ∧ (k.deliver code eng a t6).regs = k.regs ∧ (k.deliver code eng a t6).events = k.events ∧
      (k.deliver code eng a t6).sys = { k.sys with cause := setActive k.sys.cause true, timed := false } ∧
      ((k.deliver code eng a t6).en .sq).pc = k.sys.trapvec &&& 0x01FFFFFFFFFFFFC0 ∧
      ∀ f, f ≠ .sq → ((k.deliver code eng a t6).en f).pc = (k.en f).pc := by
  have h := sameStopped_trans (sameStopped_stopOthers k) (sameStopped_eventHeld _ false)
  unfold Core.deliver
  generalize { k.stopOthers with eventHeld := false } = v at h
  obtain ⟨h1, h2, h3, h4, -, h6⟩ := h
  have e1 : (if v.phase = .handler then { v with phase := .abandoning code true }
      else if bit v.sys.trapvec 0 = true then v.enterHandler eng a t6 else { v with phase := .abandoning code false }) = v.enterHandler eng a t6 := by
    rw [if_neg (by rw [h3]; exact hp), if_pos (by rw [h2]; exact hv)]
  simp only [e1]
  have e2 : ∀ f, ((v.enterHandler eng a t6).en f) =
      if f = .sq then { v.en .sq with pc := v.sys.trapvec &&& 0x01FFFFFFFFFFFFC0, src := 0, owed := 0, owedCtl := [] } else v.en f :=
    fun f => en_onEn v .sq f fun x => { x with pc := v.sys.trapvec &&& 0x01FFFFFFFFFFFFC0, src := 0, owed := 0, owedCtl := [] }
  refine ⟨rfl, h1, h4, ?_, ?_, fun f hf => ?_⟩
  · rw [← h2]; rfl
  · rw [e2, if_pos rfl, h2]
  · rw [e2, if_neg hf, (h6 f).1]

/-- With no handler enabled, or in one, the task is being abandoned under the code, and its registers stand (R286, R288). -/
theorem deliver_abandon {k : Core} (code : Code) (eng : Nat) (a t6 : Bool) (h : k.phase = .handler ∨ bit k.sys.trapvec 0 = false) :
    (k.deliver code eng a t6).phase = .abandoning code (decide (k.phase = .handler)) ∧ (k.deliver code eng a t6).regs = k.regs ∧
      (k.deliver code eng a t6).sys = k.sys ∧ ∀ f, ((k.deliver code eng a t6).en f).pc = (k.en f).pc := by
  have g := sameStopped_trans (sameStopped_stopOthers k) (sameStopped_eventHeld _ false)
  unfold Core.deliver
  generalize { k.stopOthers with eventHeld := false } = v at g
  obtain ⟨h1, h2, h3, -, -, h6⟩ := g
  by_cases hp : k.phase = .handler
  · have e : v.phase = .handler := h3.trans hp
    simp only [e, if_true, hp, decide_true]
    exact ⟨trivial, h1, h2, fun f => (h6 f).1⟩
  · have e : v.phase ≠ .handler := by rw [h3]; exact hp
    have hv : bit v.sys.trapvec 0 = false := by rw [h2]; exact h.resolve_left hp
    simp only [e, if_false, hv, hp, decide_false, Bool.false_eq_true]
    exact ⟨trivial, h1, h2, fun f => (h6 f).1⟩

/-- A trap that waits: it is held, and no register changes (R285, R324). -/
theorem holdTrap_spec (k : Core) (e : Eng) (h : TrapHeld) :
    (k.holdTrap e h).regs = k.regs ∧ (k.holdTrap e h).sys = k.sys ∧ (k.holdTrap e h).phase = k.phase ∧
      (k.holdTrap e h).trapHeld.isSome = true := by
  obtain ⟨h1, h2, -, h4, -⟩ := unpop_spec k e
  obtain ⟨g1, g2, g3, -⟩ := sameStopped_withdrawWait (k.unpop e)
  refine ⟨g1.trans h2, g2.trans h4, g3.trans (of_still h1).2.1, ?_⟩
  unfold Core.holdTrap
  dsimp only
  cases k.trapHeld <;> rfl

/-- A trap always goes on: it is held back while another engine finishes or a request is withdrawn, else it is delivered after the timed
writes have landed, its registers written first. -/
theorem trap_spec (s : State) (e : Eng) (code : Code) (arg : BitVec 16) (t6 : Bool) :
    ∃ t, s.trap e code arg t6 = .next t ∧
      (t = s.upd (fun k => k.holdTrap e ⟨e.tag, code, arg, t6⟩) ∧ (s.here.finishing (some e) || s.here.requesting) = true ∨
        (s.here.finishing (some e) || s.here.requesting) = false ∧ t = (s.landAll s.cur.core).upd fun k =>
          { k with trapHeld := none, sys := { k.sys with cause := causeWord k.sys.cause code e.tag false arg 0, trapaddr := (k.en e).pc,
                                                         trapsrc := (k.en e).src } }.deliver code e.tag false t6) := by
  by_cases h : (s.here.finishing (some e) || s.here.requesting) = true
  · exact ⟨_, by unfold State.trap; rw [if_pos h], .inl ⟨rfl, h⟩⟩
  · exact ⟨_, by unfold State.trap; rw [if_neg h], .inr ⟨by simpa using h, rfl⟩⟩

/-! What a core holds back -/

theorem memWf_performBefore {s : State} (h : s.memWf = true) (c : Nat) : (s.performBefore c).memWf = true := memWf_drainNeeded _ _ _ h

theorem memWf_release {s : State} (h : s.memWf = true) (sc : Scope) : (s.release sc).memWf = true := by
  unfold State.release
  dsimp only
  split <;> split
  · exact memWf_performBefore (memWf_drainCombine h _) _
  · exact memWf_performBefore h _
  · exact memWf_drainCombine h _
  · exact h

theorem memWf_spotCombined {s : State} (h : s.memWf = true) (c : Nat) (p : Spot) : (s.spotCombined c p).memWf = true := by
  cases p with
  | spad key => exact h
  | mem t => exact memWf_drainCombineLine h c _

theorem memWf_published {s : State} (h : s.memWf = true) (c : Nat) (sc : Scope) (spot size : Nat) (a : Bool) (nos : List Nat) :
    (s.published c sc spot size a nos).memWf = true := by
  unfold State.published
  dsimp only
  repeat' split
  all_goals exact h

theorem memWf_publishFences {s : State} (h : s.memWf = true) (c spot size : Nat) : (s.publishFences c spot size).memWf = true :=
  memWf_foldl _ (fun _ _ h => memWf_published h _ _ _ _ _ _) _ (memWf_published h _ _ _ _ _ _)

theorem memWf_readSpot {s : State} (h : s.memWf = true) (c : Nat) (asid : BitVec 12) (n : Nat) (p : Spot) :
    (s.readSpot c asid n p).2.memWf = true := by
  cases p with
  | spad key => exact h
  | mem t => exact memWf_sameButCaches h (sameButCaches_fill s (dieOf c) asid t)

theorem memWf_saw {s : State} (h : s.memWf = true) (c spot size : Nat) : (s.saw c spot size).memWf = true := by
  unfold State.saw
  dsimp only
  split <;> exact h

/-- An access that the sequencer's queues held is performed. -/
theorem memWf_performOne {s : State} (h : s.memWf = true) (c : Nat) (l : Late) : (State.performOne c s l).memWf = true := by
  unfold State.performOne
  dsimp only
  split
  · have hr := memWf_saw (memWf_readSpot h c (s.core c).sys.asid l.size l.spot) c l.spot.code l.size
    split <;> exact hr
  · split
    · exact memWf_publishFences (memWf_putSpot h _ _ _ _ _ _ _) _ _ _
    · rename_i sc _
      have h1 : (({ s with cur := ⟨c, 0, 0⟩ } : State).release sc).memWf = true := memWf_release (s := { s with cur := ⟨c, 0, 0⟩ }) h sc
      exact memWf_published (memWf_release (memWf_spotCombined (memWf_putSpot h1 _ _ _ _ _ _ _) _ _) sc) _ _ _ _ _ _

theorem memWf_performQueue {s : State} (h : s.memWf = true) (c : Nat) (p : Late → Bool) : (s.performQueue c p).memWf = true := by
  unfold State.performQueue
  dsimp only
  split
  · exact h
  · exact memWf_foldl _ (fun _ l h => memWf_performOne h c l) _ (by rw [memWf_setCore]; exact h)

theorem memWf_landAll {s : State} (h : s.memWf = true) (c : Nat) : (s.landAll c).memWf = true :=
  memWf_landDue (memWf_performQueue h c _) c _

/-- A trap keeps both memories canonical. -/
theorem memWf_trap {s t : State} (h : s.memWf = true) {e : Eng} {code : Code} {arg : BitVec 16} {t6 : Bool} (ht : s.trap e code arg t6 = .next t) :
    t.memWf = true := by
  obtain ⟨u, hu, hs⟩ := trap_spec s e code arg t6
  obtain rfl : u = t := by rw [hu] at ht; exact Host.Outcome.next.inj ht
  rcases hs with ⟨rfl, -⟩ | ⟨-, rfl⟩
  · exact h
  · rw [memWf_upd]; exact memWf_landAll h _

/-- The end of a word keeps both memories canonical. -/
theorem memWf_done {s t : State} (h : s.memWf = true) {e : Eng} (ht : s.done e = .next t) : t.memWf = true := by cases ht; exact h

theorem memWf_stall {s t : State} (h : s.memWf = true) {e : Eng} (ht : s.stall e = .next t) : t.memWf = true := by cases ht; exact h

theorem memWf_await {s t : State} (h : s.memWf = true) {e : Eng} {w : Wait} (ht : s.await e w = .next t) : t.memWf = true := by cases ht; exact h

/-- A check that ends in a trap or goes on keeps both memories canonical where what follows does. -/
theorem memWf_orTrap {α : Type} {s t : State} (h : s.memWf = true) {e : Eng} {x : Except Code α} {k : α → Res}
    (hk : ∀ a u, x = .ok a → k a = .next u → u.memWf = true) (ht : orTrap s e x k = .next t) : t.memWf = true := by
  unfold orTrap at ht
  split at ht
  · exact hk _ _ rfl ht
  · exact memWf_trap h ht

end Sys2Proof.Machine
end

