-- ==== Sys2Proof/Laws/Commands.lean ====
section
/-! SUPPORT. Writes of commands, signals, atomics, kernels and the control node keep both memories in canonical form. -/

namespace Sys2Proof.Machine

/-! The event log -/

/-- A record changes the event log alone (R375). -/
theorem putRec_spec (s : State) (r : LogRec) : s.putRec r = { s with log := (s.putRec r).log } := by
  unfold State.putRec
  dsimp only
  split
  · rfl
  · split <;> rfl

/-- A record under a unit's own count changes the log and the counts alone (R280). -/
theorem logOwn_spec (s : State) (cls num kind : Nat) (code : BitVec 8) (inH : Bool) (task aux : BitVec 32) (addr : Word) :
    s.logOwn cls num kind code inH task aux addr =
      { s with log := (s.logOwn cls num kind code inH task aux addr).log, counts := (s.logOwn cls num kind code inH task aux addr).counts } := by
  unfold State.logOwn State.logNum
  rw [putRec_spec]

/-- A refusal of the control node's write is logged and changes nothing else (R373). -/
theorem logRefused_spec (s : State) (addr : Word) : s.logRefused addr = { s with log := (s.logRefused addr).log, counts := (s.logRefused addr).counts } :=
  logOwn_spec s 5 0 6 0 false 0 0 addr

/-- Records change the event log alone. -/
theorem putRecs_spec (l : List LogRec) (s : State) : l.foldl State.putRec s = { s with log := (l.foldl State.putRec s).log } := by
  induction l generalizing s with
  | nil => rfl
  | cons r l ih => rw [List.foldl_cons, ih, putRec_spec s r]

/-- A task's record changes the log, the counts and the launch records that wait for lower numbers alone. -/
theorem logTask_spec (s : State) (c kind : Nat) (code : BitVec 8) (inH : Bool) (task : BitVec 32) (org : Origin) (addr : Word) :
    s.logTask c kind code inH task org addr =
      { s with log := (s.logTask c kind code inH task org addr).log, counts := (s.logTask c kind code inH task org addr).counts,
               launchWait := (s.logTask c kind code inH task org addr).launchWait } := by
  unfold State.logTask
  split
  · unfold State.flushLaunch; dsimp only; rw [putRecs_spec]
  · rw [logOwn_spec]
  · rw [logOwn_spec]

/-! Commands -/

theorem memWf_commandWrite {s t : State} (h : s.memWf = true) {c : Nat} {asid : BitVec 12} {va : Nat} {bs : List Byte}
    (ht : s.commandWrite c asid va bs = .ok t) : t.memWf = true := by
  revert ht
  fun_cases State.commandWrite s c asid va bs <;> intro ht
  case case2 => cases ht; exact memWf_setRun_spad h _ _
  case case3 => exact memWf_writeHome _ _ _ _ h ht
  all_goals cases ht

theorem memWf_writeHomeGen (c : Nat) (asid : BitVec 12) (g : Option GenRef) (l : List Piece) (bs : List Byte) {s t : State} (h : s.memWf = true)
    (ht : writeHomeGen c asid g l bs s = .ok t) : t.memWf = true := by
  fun_induction writeHomeGen c asid g l bs s
  case case1 => cases ht; exact h
  case case3 ih => exact ih (memWf_setRun_spad h _ _) ht
  case case6 va n r bs s _ tr _ u _ ok v hv ih =>
    have ha := memWf_admitGen (memWf_learn h (dieOf c) asid va u true) (u.phys / 128) g
    rw [hv] at ha
    refine ih ?_ ht
    split
    · exact memWf_putHome ha _ _
    · exact ha
  all_goals cases ht

theorem memWf_genWrite {s t : State} (h : s.memWf = true) {c : Nat} {asid : BitVec 12} {g : Option GenRef} {va : Nat} {bs : List Byte}
    (ht : s.genWrite c asid g va bs = .ok t) : t.memWf = true := by
  revert ht
  fun_cases State.genWrite s c asid g va bs <;> intro ht
  case case2 => cases ht; exact memWf_setRun_spad h _ _
  case case3 => exact memWf_writeHomeGen _ _ _ _ _ h ht
  all_goals cases ht

theorem memWf_writeElems {s t : State} (h : s.memWf = true) {c : Nat} {asid : BitVec 12} {g : Option GenRef} {base w off : Nat} {codes : List Nat}
    (ht : s.writeElems c asid g base w off codes = .ok t) : t.memWf = true := by
  revert ht
  fun_cases State.writeElems s c asid g base w off codes <;> intro ht
  case case1 => cases ht; exact h
  case case3 => cases ht
  all_goals exact memWf_genWrite h ht

theorem memWf_writePiecesOf (c : Call) (l : List (Nat × List Nat × List Nat)) {s t : State} (h : s.memWf = true)
    (ht : State.writePiecesOf c l s = .ok t) : t.memWf = true := by
  fun_induction State.writePiecesOf c l s
  case case1 => cases ht; exact h
  case case4 u hu v hv ih =>
    have hw := memWf_writeElems h hu
    refine ih ?_ ht
    by_cases hm : c.fmt.isMx = true
    · rw [if_pos hm] at hv; exact memWf_writeElems hw hv
    · rw [if_neg hm] at hv; cases hv; exact hw
  all_goals cases ht

/-! Barriers and signals -/

theorem memWf_setPhys {s : State} (h : s.memWf = true) (a : Nat) (bs : List Byte) : (s.setPhys a bs).memWf = true := memWf_putHome h _ _

theorem memWf_applyAt {s : State} (h : s.memWf = true) (key : Nat) (write : Bool) (value : Word) : (s.applyAt key write value).memWf = true := by
  fun_cases State.applyAt s key write value
  case case1 => exact memWf_setSpad h _ _ _
  case case2 hb => exact (barUpdate_spec hb).2 h
  case case3 => exact h

theorem memWf_applySignal {s : State} (h : s.memWf = true) (c addr : Nat) (write : Bool) (value : Word) :
    (s.applySignal c addr write value).memWf = true := by
  fun_cases State.applySignal s c addr write value
  case case1 => exact memWf_applyAt h _ _ _
  case case2 => exact h

theorem memWf_logSignal {s t : State} (h : s.memWf = true) {v : Saved} {addr : Nat} {write : Bool} {value : Word}
    (ht : s.logSignal v addr write value = some t) : t.memWf = true := by
  revert ht
  fun_cases State.logSignal s v addr write value <;> intro ht <;> cases ht
  exact memWf_setPhys (memWf_setPhys (memWf_setPhys h _ _) _ _) _ _

theorem memWf_signalInst {s t : State} (h : s.memWf = true) {inst addr : Nat} {write : Bool} {value : Word} {ok : Bool}
    (ht : s.signalInst inst addr write value = some (ok, t)) : t.memWf = true := by
  revert ht
  fun_cases State.signalInst s inst addr write value <;> intro ht
  case case2 v _ _ =>
    obtain ⟨u, hu, hx⟩ := Option.map_eq_some_iff.mp ht
    cases hx
    exact memWf_logSignal h hu
  case case1 => cases ht; exact memWf_applySignal h _ _ _ _
  case case3 => cases ht; exact memWf_applyAt h _ _ _
  all_goals cases ht; exact h

theorem memWf_logBytes (v : Saved) (va n : Nat) (bs : List Byte) {s t : State} (h : s.memWf = true) (ht : State.logBytes v va n bs s = some t) :
    t.memWf = true := by
  fun_induction State.logBytes v va n bs s
  case case1 => cases ht; exact h
  case case2 => cases ht
  case case3 hu ih => exact ih (memWf_logSignal h hu) ht

theorem memWf_logRun {s t : State} (h : s.memWf = true) {v : Saved} {va : Nat} {bs : List Byte} (ht : s.logRun v va bs = some t) :
    t.memWf = true := memWf_logBytes v _ _ _ h ht

theorem memWf_taskStore {s t : State} (h : s.memWf = true) {inst c : Nat} {asid : BitVec 12} {va : Nat} {bs : List Byte}
    (ht : s.taskStore inst c asid va bs = some (.ok t)) : t.memWf = true := by
  revert ht
  fun_cases State.taskStore s inst c asid va bs <;> intro ht
  case case2 v _ _ =>
    obtain ⟨u, hu, hx⟩ := Option.map_eq_some_iff.mp ht
    cases hx
    exact memWf_logRun h hu
  all_goals exact memWf_commandWrite h (Option.some.inj ht)

theorem memWf_taskRecord {s t : State} (h : s.memWf = true) {inst c : Nat} {asid : BitVec 12} {va : Nat} {bs : List Byte}
    (ht : s.taskRecord inst c asid va bs = some t) : t.memWf = true := by
  revert ht
  fun_cases State.taskRecord s inst c asid va bs <;> intro ht <;> cases ht
  case case3 hu => exact memWf_taskStore h hu
  all_goals exact h

theorem memWf_doneAction {s t : State} (h : s.memWf = true) {inst kind addr count : Nat} {value : Word}
    (ht : s.doneAction inst kind addr count value = some t) : t.memWf = true := by
  revert ht
  fun_cases State.doneAction s inst kind addr count value <;> intro ht
  case case3 => cases ht; exact h
  all_goals
    obtain ⟨⟨ok, u⟩, hu, hx⟩ := Option.map_eq_some_iff.mp ht
    cases hx
    exact memWf_signalInst h hu

/-! Atomics -/

theorem memWf_atomicUpdate {s : State} (h : s.memWf = true) (e : Eng) (va size : Nat) (sc : Scope) (f : Nat → Option Nat) :
    (atomicUpdate s e va size sc f).2.memWf = true := by
  unfold atomicUpdate
  dsimp only
  split
  · split
    · exact memWf_setRun_spad h _ _
    · exact h
  · split
    · exact h
    · rename_i t _
      have hl := memWf_learn h (dieOf s.cur.core) s.here.sys.asid va t true
      generalize learn s (dieOf s.cur.core) s.here.sys.asid va t = q at hl
      split
      · have hd := memWf_drainLine (dieOf s.cur.core) (t.phys / 128 * 128) (q.die (dieOf s.cur.core)).buf.length hl
        split
        · exact memWf_putHome (s := (drainLine _ _ _ q).setDie _ _) hd _ _
        · exact hd
      · have hf := memWf_sameButCaches hl (sameButCaches_fill q (dieOf s.cur.core) s.here.sys.asid t)
        split
        · exact memWf_bufStore (s := patchLine (fill q _ _ t) _ _ _ _) hf _ _ _ _ _ _ _
        · exact hf

/-! The control node and the near-memory cores -/

theorem memWf_hostLearn {s : State} (h : s.memWf = true) (va : Nat) : (s.hostLearn va).memWf = true := by
  fun_cases State.hostLearn s va
  case case2 t _ _ => exact memWf_sameButCaches h (sameButCaches_learnHome s s.winAsid t true)
  all_goals exact h

theorem memWf_hostWrite (l : List Piece) (bs : List Byte) {s : State} (h : s.memWf = true) : (State.hostWrite l bs s).memWf = true := by
  induction l generalizing s bs with
  | nil => exact h
  | cons p r ih =>
    unfold State.hostWrite
    refine ih _ ?_
    cases s.hostPlace p.1 p.2 with
    | none => dsimp only; rw [logRefused_spec]; exact memWf_of_eq h rfl rfl
    | some q =>
      cases q with
      | spad k => exact memWf_setRun_spad h _ _
      | phys a => exact memWf_putHome (memWf_hostLearn h _) _ _

theorem memWf_rvStore {c d : Rv.Ctx} (h : c.s.memWf = true) {va n v : Nat} (hd : Rv.store c va n v = .ok d) : d.s.memWf = true := by
  have ht : (Rv.touch c va).s.memWf = true := by
    unfold Rv.touch
    split
    · exact memWf_sameButCaches h (sameButCaches_learnHome c.s c.asid _ true)
    · exact h
  revert hd
  fun_cases Rv.store c va n v <;> intro hd <;> cases hd
  exact memWf_putHome ht _ _

end Sys2Proof.Machine
end

