-- ==== Sys2Proof/Laws/PerInstr.lean ====
section
/-! SUPPORT. One law for each instruction: its operand layout fills the word and its opcode is one that the decoder knows (R65, R76). -/

namespace Sys2Proof.Laws.Layout

open Sys2Proof

/-- The layout of an instruction has an assigned opcode and its fields fill the 44 operand bits; an event has no layout. -/
def Statement (i : Instr) : Prop :=
  ∀ (tag op : Nat) (fs : Enc.Fields), Enc.layout i = some (tag, op, fs) → assigned tag op = true ∧ (fs.map Prod.fst).sum = 44

theorem add (sd sa sb : SReg) : Statement (.add sd sa sb) := fun _ _ _ h => by cases h; exact ⟨rfl, rfl⟩
theorem sub (sd sa sb : SReg) : Statement (.sub sd sa sb) := fun _ _ _ h => by cases h; exact ⟨rfl, rfl⟩
theorem mul (sd sa sb : SReg) : Statement (.mul sd sa sb) := fun _ _ _ h => by cases h; exact ⟨rfl, rfl⟩
theorem mulh (uns : Bool) (sd sa sb : SReg) : Statement (.mulh uns sd sa sb) := fun _ _ _ h => by cases h; exact ⟨rfl, rfl⟩
theorem div (uns : Bool) (sd sa sb : SReg) : Statement (.div uns sd sa sb) := fun _ _ _ h => by cases h; exact ⟨rfl, rfl⟩
theorem rem (uns : Bool) (sd sa sb : SReg) : Statement (.rem uns sd sa sb) := fun _ _ _ h => by cases h; exact ⟨rfl, rfl⟩
theorem and (sd sa sb : SReg) : Statement (.and sd sa sb) := fun _ _ _ h => by cases h; exact ⟨rfl, rfl⟩
theorem or (sd sa sb : SReg) : Statement (.or sd sa sb) := fun _ _ _ h => by cases h; exact ⟨rfl, rfl⟩
theorem xor (sd sa sb : SReg) : Statement (.xor sd sa sb) := fun _ _ _ h => by cases h; exact ⟨rfl, rfl⟩
theorem shl (sd sa sb : SReg) : Statement (.shl sd sa sb) := fun _ _ _ h => by cases h; exact ⟨rfl, rfl⟩
theorem shr (sd sa sb : SReg) : Statement (.shr sd sa sb) := fun _ _ _ h => by cases h; exact ⟨rfl, rfl⟩
theorem sra (sd sa sb : SReg) : Statement (.sra sd sa sb) := fun _ _ _ h => by cases h; exact ⟨rfl, rfl⟩
theorem min (uns : Bool) (sd sa sb : SReg) : Statement (.min uns sd sa sb) := fun _ _ _ h => by cases h; exact ⟨rfl, rfl⟩
theorem max (uns : Bool) (sd sa sb : SReg) : Statement (.max uns sd sa sb) := fun _ _ _ h => by cases h; exact ⟨rfl, rfl⟩
theorem cmp (c : Cond) (sd sa sb : SReg) : Statement (.cmp c sd sa sb) := fun _ _ _ h => by cases h; exact ⟨rfl, rfl⟩
theorem sel (sd sa sb sc : SReg) : Statement (.sel sd sa sb sc) := fun _ _ _ h => by cases h; exact ⟨rfl, rfl⟩
theorem addi (sd sa : SReg) (imm : BitVec 32) : Statement (.addi sd sa imm) := fun _ _ _ h => by cases h; exact ⟨rfl, rfl⟩
theorem muli (sd sa : SReg) (imm : BitVec 32) : Statement (.muli sd sa imm) := fun _ _ _ h => by cases h; exact ⟨rfl, rfl⟩
theorem andi (sd sa : SReg) (imm : BitVec 32) : Statement (.andi sd sa imm) := fun _ _ _ h => by cases h; exact ⟨rfl, rfl⟩
theorem ori (sd sa : SReg) (imm : BitVec 32) : Statement (.ori sd sa imm) := fun _ _ _ h => by cases h; exact ⟨rfl, rfl⟩
theorem xori (sd sa : SReg) (imm : BitVec 32) : Statement (.xori sd sa imm) := fun _ _ _ h => by cases h; exact ⟨rfl, rfl⟩
theorem shli (sd sa : SReg) (n : BitVec 6) : Statement (.shli sd sa n) := fun _ _ _ h => by cases h; exact ⟨rfl, rfl⟩
theorem shri (sd sa : SReg) (n : BitVec 6) : Statement (.shri sd sa n) := fun _ _ _ h => by cases h; exact ⟨rfl, rfl⟩
theorem srai (sd sa : SReg) (n : BitVec 6) : Statement (.srai sd sa n) := fun _ _ _ h => by cases h; exact ⟨rfl, rfl⟩
theorem cmpi (c : Cond) (sd sa : SReg) (imm : BitVec 28) : Statement (.cmpi c sd sa imm) := fun _ _ _ h => by cases h; exact ⟨rfl, rfl⟩
theorem li (sd : SReg) (imm : BitVec 38) : Statement (.li sd imm) := fun _ _ _ h => by cases h; exact ⟨rfl, rfl⟩
theorem lui (sd : SReg) (imm : BitVec 38) : Statement (.lui sd imm) := fun _ _ _ h => by cases h; exact ⟨rfl, rfl⟩
theorem clz (sd sa : SReg) : Statement (.clz sd sa) := fun _ _ _ h => by cases h; exact ⟨rfl, rfl⟩
theorem popc (sd sa : SReg) : Statement (.popc sd sa) := fun _ _ _ h => by cases h; exact ⟨rfl, rfl⟩
theorem lea (sd sa sb : SReg) (sh : BitVec 3) (imm : BitVec 23) : Statement (.lea sd sa sb sh imm) := fun _ _ _ h => by cases h; exact ⟨rfl, rfl⟩
theorem ext (signed : Bool) (sd sa : SReg) (pos : BitVec 6) (lenm1 : BitVec 6) : Statement (.ext signed sd sa pos lenm1) := fun _ _ _ h => by cases h; exact ⟨rfl, rfl⟩
theorem ld (ty : Fmt) (sd sa : SReg) (imm : BitVec 27) : Statement (.ld ty sd sa imm) := fun _ _ _ h => by cases h; exact ⟨rfl, rfl⟩
theorem st (ty : Fmt) (sc sa : SReg) (imm : BitVec 27) : Statement (.st ty sc sa imm) := fun _ _ _ h => by cases h; exact ⟨rfl, rfl⟩
theorem pf (llc : Bool) (sa : SReg) (imm : BitVec 27) : Statement (.pf llc sa imm) := fun _ _ _ h => by cases h; exact ⟨rfl, rfl⟩
theorem ldacq (ty : Fmt) (scope : Scope) (sd sa : SReg) (imm : BitVec 24) : Statement (.ldacq ty scope sd sa imm) := fun _ _ _ h => by cases h; exact ⟨rfl, rfl⟩
theorem strel (ty : Fmt) (scope : Scope) (sc sa : SReg) (imm : BitVec 24) : Statement (.strel ty scope sc sa imm) := fun _ _ _ h => by cases h; exact ⟨rfl, rfl⟩
theorem amo (a : Atomic) : Statement (.amo a) := fun _ _ _ h => by cases h; exact ⟨rfl, rfl⟩
theorem amocas (sd sa sb sc : SReg) (ty : Fmt) (scope : Scope) (ord : BitVec 2) : Statement (.amocas sd sa sb sc ty scope ord) := fun _ _ _ h => by cases h; exact ⟨rfl, rfl⟩
theorem red (a : Atomic) : Statement (.red a) := fun _ _ _ h => by cases h; exact ⟨rfl, rfl⟩
theorem fence (k : FenceKind) (scope : Scope) : Statement (.fence k scope) := fun _ _ _ h => by cases h; exact ⟨rfl, rfl⟩
theorem rsys (sd : SReg) (n : BitVec 12) : Statement (.rsys sd n) := fun _ _ _ h => by cases h; exact ⟨rfl, rfl⟩
theorem wsys (n : BitVec 12) (sa : SReg) : Statement (.wsys n sa) := fun _ _ _ h => by cases h; exact ⟨rfl, rfl⟩
theorem xsys (sd : SReg) (n : BitVec 12) (sa : SReg) : Statement (.xsys sd n sa) := fun _ _ _ h => by cases h; exact ⟨rfl, rfl⟩
theorem writeSysMode (v : Word) : Statement (.writeSysMode v) := fun _ _ _ h => nomatch h
theorem writeSysSlip (v : Word) : Statement (.writeSysSlip v) := fun _ _ _ h => nomatch h
theorem writeSysWdog (v : Word) : Statement (.writeSysWdog v) := fun _ _ _ h => nomatch h
theorem writeSysTrapcause (v : Word) : Statement (.writeSysTrapcause v) := fun _ _ _ h => nomatch h
theorem writeSysRegister (n : BitVec 12) (v : Word) : Statement (.writeSysRegister n v) := fun _ _ _ h => nomatch h
theorem yield (n : BitVec 8) : Statement (.yield n) := fun _ _ _ h => by cases h; exact ⟨rfl, rfl⟩
theorem renq (sd sa sb : SReg) : Statement (.renq sd sa sb) := fun _ _ _ h => by cases h; exact ⟨rfl, rfl⟩
theorem seqw (sa sb : SReg) : Statement (.seqw sa sb) := fun _ _ _ h => by cases h; exact ⟨rfl, rfl⟩
theorem seqget (scope : Scope) (sd sa : SReg) : Statement (.seqget scope sd sa) := fun _ _ _ h => by cases h; exact ⟨rfl, rfl⟩
theorem prio (sd sa : SReg) : Statement (.prio sd sa) := fun _ _ _ h => by cases h; exact ⟨rfl, rfl⟩
theorem appt (sd sa sb sc : SReg) : Statement (.appt sd sa sb sc) := fun _ _ _ h => by cases h; exact ⟨rfl, rfl⟩
theorem trap (imm : BitVec 16) : Statement (.trap imm) := fun _ _ _ h => by cases h; exact ⟨rfl, rfl⟩
theorem tack (sd : SReg) : Statement (.tack sd) := fun _ _ _ h => by cases h; exact ⟨rfl, rfl⟩
theorem tmask (sd sa : SReg) : Statement (.tmask sd sa) := fun _ _ _ h => by cases h; exact ⟨rfl, rfl⟩
theorem tsave (sa : SReg) : Statement (.tsave sa) := fun _ _ _ h => by cases h; exact ⟨rfl, rfl⟩
theorem cpld (sd sa : SReg) : Statement (.cpld sd sa) := fun _ _ _ h => by cases h; exact ⟨rfl, rfl⟩
theorem cpst (sd sa : SReg) : Statement (.cpst sd sa) := fun _ _ _ h => by cases h; exact ⟨rfl, rfl⟩
theorem cpg (sd sa : SReg) : Statement (.cpg sd sa) := fun _ _ _ h => by cases h; exact ⟨rfl, rfl⟩
theorem cpsc (sd sa : SReg) : Statement (.cpsc sd sa) := fun _ _ _ h => by cases h; exact ⟨rfl, rfl⟩
theorem cpmem (sd sa : SReg) : Statement (.cpmem sd sa) := fun _ _ _ h => by cases h; exact ⟨rfl, rfl⟩
theorem cpcancel (sd : SReg) : Statement (.cpcancel sd) := fun _ _ _ h => by cases h; exact ⟨rfl, rfl⟩
theorem barinit (sa sb sc : SReg) : Statement (.barinit sa sb sc) := fun _ _ _ h => by cases h; exact ⟨rfl, rfl⟩
theorem barexp (sa sb : SReg) : Statement (.barexp sa sb) := fun _ _ _ h => by cases h; exact ⟨rfl, rfl⟩
theorem barar (sd sa sb : SReg) : Statement (.barar sd sa sb) := fun _ _ _ h => by cases h; exact ⟨rfl, rfl⟩
theorem bartry (sd sa sb : SReg) : Statement (.bartry sd sa sb) := fun _ _ _ h => by cases h; exact ⟨rfl, rfl⟩
theorem barwait (sa sb : SReg) : Statement (.barwait sa sb) := fun _ _ _ h => by cases h; exact ⟨rfl, rfl⟩
theorem waita (sa sb : SReg) : Statement (.waita sa sb) := fun _ _ _ h => by cases h; exact ⟨rfl, rfl⟩
theorem rgclaim (sd sa : SReg) : Statement (.rgclaim sd sa) := fun _ _ _ h => by cases h; exact ⟨rfl, rfl⟩
theorem rgfill (sa sb : SReg) : Statement (.rgfill sa sb) := fun _ _ _ h => by cases h; exact ⟨rfl, rfl⟩
theorem rgwaitf (sa sb : SReg) : Statement (.rgwaitf sa sb) := fun _ _ _ h => by cases h; exact ⟨rfl, rfl⟩
theorem rgrel (sa sb : SReg) : Statement (.rgrel sa sb) := fun _ _ _ h => by cases h; exact ⟨rfl, rfl⟩
theorem rgtry (sd sa : SReg) : Statement (.rgtry sd sa) := fun _ _ _ h => by cases h; exact ⟨rfl, rfl⟩
theorem mxfmt (sa sb sc : SReg) : Statement (.mxfmt sa sb sc) := fun _ _ _ h => by cases h; exact ⟨rfl, rfl⟩
theorem mxcfg (n : BitVec 5) (sa : SReg) : Statement (.mxcfg n sa) := fun _ _ _ h => by cases h; exact ⟨rfl, rfl⟩
theorem mxcfgl (sa : SReg) : Statement (.mxcfgl sa) := fun _ _ _ h => by cases h; exact ⟨rfl, rfl⟩
theorem mxcancel (sd : SReg) : Statement (.mxcancel sd) := fun _ _ _ h => by cases h; exact ⟨rfl, rfl⟩
theorem mxcancelAll (sd : SReg) : Statement (.mxcancelAll sd) := fun _ _ _ h => by cases h; exact ⟨rfl, rfl⟩
theorem mxprog (sd : SReg) : Statement (.mxprog sd) := fun _ _ _ h => by cases h; exact ⟨rfl, rfl⟩
theorem mxprogQ (sd : SReg) : Statement (.mxprogQ sd) := fun _ _ _ h => by cases h; exact ⟨rfl, rfl⟩
theorem gset (g : GenNo) (w : BitVec 3) (sa : SReg) : Statement (.gset g w sa) := fun _ _ _ h => by cases h; exact ⟨rfl, rfl⟩
theorem gget (sd : SReg) (g : GenNo) (w : BitVec 3) : Statement (.gget sd g w) := fun _ _ _ h => by cases h; exact ⟨rfl, rfl⟩
theorem gskip (g : GenNo) (sa sb : SReg) : Statement (.gskip g sa sb) := fun _ _ _ h => by cases h; exact ⟨rfl, rfl⟩
theorem gsave (g : GenNo) (sa : SReg) : Statement (.gsave g sa) := fun _ _ _ h => by cases h; exact ⟨rfl, rfl⟩
theorem gload (g : GenNo) (sa : SReg) : Statement (.gload g sa) := fun _ _ _ h => by cases h; exact ⟨rfl, rfl⟩
theorem gdraw (sd : SReg) (g : GenNo) : Statement (.gdraw sd g) := fun _ _ _ h => by cases h; exact ⟨rfl, rfl⟩
theorem gkey (g : GenNo) (sa sb : SReg) : Statement (.gkey g sa sb) := fun _ _ _ h => by cases h; exact ⟨rfl, rfl⟩
theorem mdep (sd sa sb : SReg) : Statement (.mdep sd sa sb) := fun _ _ _ h => by cases h; exact ⟨rfl, rfl⟩
theorem mrd (sd sa sb : SReg) : Statement (.mrd sd sa sb) := fun _ _ _ h => by cases h; exact ⟨rfl, rfl⟩
theorem mtake (sd sa sb : SReg) : Statement (.mtake sd sa sb) := fun _ _ _ h => by cases h; exact ⟨rfl, rfl⟩
theorem mtrydep (sd sa sb : SReg) : Statement (.mtrydep sd sa sb) := fun _ _ _ h => by cases h; exact ⟨rfl, rfl⟩
theorem mtryrd (sd sa sb : SReg) : Statement (.mtryrd sd sa sb) := fun _ _ _ h => by cases h; exact ⟨rfl, rfl⟩
theorem mtrytk (sd sa sb : SReg) : Statement (.mtrytk sd sa sb) := fun _ _ _ h => by cases h; exact ⟨rfl, rfl⟩
theorem mwithdraw (sd sa sb : SReg) : Statement (.mwithdraw sd sa sb) := fun _ _ _ h => by cases h; exact ⟨rfl, rfl⟩
theorem mapld (m : MapNo) (sa : SReg) : Statement (.mapld m sa) := fun _ _ _ h => by cases h; exact ⟨rfl, rfl⟩
theorem mapst (m : MapNo) (sa : SReg) : Statement (.mapst m sa) := fun _ _ _ h => by cases h; exact ⟨rfl, rfl⟩
theorem mapset (m : MapNo) (d : BitVec 3) (sa : SReg) : Statement (.mapset m d sa) := fun _ _ _ h => by cases h; exact ⟨rfl, rfl⟩
theorem mapbind (sa : SReg) (m : MapNo) : Statement (.mapbind sa m) := fun _ _ _ h => by cases h; exact ⟨rfl, rfl⟩
theorem mapbindU (sa : SReg) : Statement (.mapbindU sa) := fun _ _ _ h => by cases h; exact ⟨rfl, rfl⟩
theorem rshd (sd sa sb sc : SReg) (ms md : MapNo) (prof : BitVec 4) : Statement (.rshd sd sa sb sc ms md prof) := fun _ _ _ h => by cases h; exact ⟨rfl, rfl⟩
theorem rshdq (sd sa sb : SReg) (ms md : MapNo) : Statement (.rshdq sd sa sb ms md) := fun _ _ _ h => by cases h; exact ⟨rfl, rfl⟩
theorem clgrp (sd sa sb : SReg) : Statement (.clgrp sd sa sb) := fun _ _ _ h => by cases h; exact ⟨rfl, rfl⟩
theorem clrun (sd sa : SReg) : Statement (.clrun sd sa) := fun _ _ _ h => by cases h; exact ⟨rfl, rfl⟩
theorem clchunk (sa sb : SReg) : Statement (.clchunk sa sb) := fun _ _ _ h => by cases h; exact ⟨rfl, rfl⟩
theorem clstatCc (sd sb : SReg) : Statement (.clstatCc sd sb) := fun _ _ _ h => by cases h; exact ⟨rfl, rfl⟩
theorem clstatGrp (sd sb : SReg) : Statement (.clstatGrp sd sb) := fun _ _ _ h => by cases h; exact ⟨rfl, rfl⟩
theorem nmrun (sd sa : SReg) : Statement (.nmrun sd sa) := fun _ _ _ h => by cases h; exact ⟨rfl, rfl⟩
theorem nmstat (sd sa : SReg) : Statement (.nmstat sd sa) := fun _ _ _ h => by cases h; exact ⟨rfl, rfl⟩
theorem nmstop (sd sa : SReg) : Statement (.nmstop sd sa) := fun _ _ _ h => by cases h; exact ⟨rfl, rfl⟩
theorem vld (o : Strided) : Statement (.vld o) := fun _ _ _ h => by cases h; exact ⟨rfl, rfl⟩
theorem vldg (o : Indexed) : Statement (.vldg o) := fun _ _ _ h => by cases h; exact ⟨rfl, rfl⟩
theorem vldx (o : TensorIx) : Statement (.vldx o) := fun _ _ _ h => by cases h; exact ⟨rfl, rfl⟩
theorem vldt (o : Strided) : Statement (.vldt o) := fun _ _ _ h => by cases h; exact ⟨rfl, rfl⟩
theorem vldb (o : Strided) : Statement (.vldb o) := fun _ _ _ h => by cases h; exact ⟨rfl, rfl⟩
theorem vldm (md : MaskNo) (sa : SReg) (imm : BitVec 34) : Statement (.vldm md sa imm) := fun _ _ _ h => by cases h; exact ⟨rfl, rfl⟩
theorem vlda (acc : AccNo) (sa sb : SReg) : Statement (.vlda acc sa sb) := fun _ _ _ h => by cases h; exact ⟨rfl, rfl⟩
theorem vlpf (o : Strided) : Statement (.vlpf o) := fun _ _ _ h => by cases h; exact ⟨rfl, rfl⟩
theorem xtr (ty : Fmt) (vd va : VNo) : Statement (.xtr ty vd va) := fun _ _ _ h => by cases h; exact ⟨rfl, rfl⟩
theorem xunpk (ty : Fmt) (vd va : VNo) : Statement (.xunpk ty vd va) := fun _ _ _ h => by cases h; exact ⟨rfl, rfl⟩
theorem xpk (ty : Fmt) (vd va : VNo) : Statement (.xpk ty vd va) := fun _ _ _ h => by cases h; exact ⟨rfl, rfl⟩
theorem xhq (ty : Fmt) (rm : RMode) (g : GenNo) (vd va : VNo) (sa sb : SReg) : Statement (.xhq ty rm g vd va sa sb) := fun _ _ _ h => by cases h; exact ⟨rfl, rfl⟩
theorem xhdq (ty : Fmt) (rm : RMode) (g : GenNo) (vd va : VNo) (sa sb : SReg) : Statement (.xhdq ty rm g vd va sa sb) := fun _ _ _ h => by cases h; exact ⟨rfl, rfl⟩
theorem xperm (vd va : VNo) (p : BitVec 24) : Statement (.xperm vd va p) := fun _ _ _ h => by cases h; exact ⟨rfl, rfl⟩
theorem xcat (vd va vb : VNo) (n : BitVec 8) : Statement (.xcat vd va vb n) := fun _ _ _ h => by cases h; exact ⟨rfl, rfl⟩
theorem mxzero (acc : AccNo) (nm1 : BitVec 4) : Statement (.mxzero acc nm1) := fun _ _ _ h => by cases h; exact ⟨rfl, rfl⟩
theorem vadd (o : VV) : Statement (.vadd o) := fun _ _ _ h => by cases h; exact ⟨rfl, rfl⟩
theorem vsub (o : VV) : Statement (.vsub o) := fun _ _ _ h => by cases h; exact ⟨rfl, rfl⟩
theorem vmul (o : VV) : Statement (.vmul o) := fun _ _ _ h => by cases h; exact ⟨rfl, rfl⟩
theorem vfma (o : VV) : Statement (.vfma o) := fun _ _ _ h => by cases h; exact ⟨rfl, rfl⟩
theorem vfms (o : VV) : Statement (.vfms o) := fun _ _ _ h => by cases h; exact ⟨rfl, rfl⟩
theorem vmin (o : VV) : Statement (.vmin o) := fun _ _ _ h => by cases h; exact ⟨rfl, rfl⟩
theorem vmax (o : VV) : Statement (.vmax o) := fun _ _ _ h => by cases h; exact ⟨rfl, rfl⟩
theorem vabs (o : VV) : Statement (.vabs o) := fun _ _ _ h => by cases h; exact ⟨rfl, rfl⟩
theorem vneg (o : VV) : Statement (.vneg o) := fun _ _ _ h => by cases h; exact ⟨rfl, rfl⟩
theorem vdiv (o : VV) : Statement (.vdiv o) := fun _ _ _ h => by cases h; exact ⟨rfl, rfl⟩
theorem vsqrt (o : VV) : Statement (.vsqrt o) := fun _ _ _ h => by cases h; exact ⟨rfl, rfl⟩
theorem vand (o : VV) : Statement (.vand o) := fun _ _ _ h => by cases h; exact ⟨rfl, rfl⟩
theorem vor (o : VV) : Statement (.vor o) := fun _ _ _ h => by cases h; exact ⟨rfl, rfl⟩
theorem vxor (o : VV) : Statement (.vxor o) := fun _ _ _ h => by cases h; exact ⟨rfl, rfl⟩
theorem vnot (o : VV) : Statement (.vnot o) := fun _ _ _ h => by cases h; exact ⟨rfl, rfl⟩
theorem vshl (o : VV) : Statement (.vshl o) := fun _ _ _ h => by cases h; exact ⟨rfl, rfl⟩
theorem vshr (o : VV) : Statement (.vshr o) := fun _ _ _ h => by cases h; exact ⟨rfl, rfl⟩
theorem vsra (o : VV) : Statement (.vsra o) := fun _ _ _ h => by cases h; exact ⟨rfl, rfl⟩
theorem vadds (o : VV) : Statement (.vadds o) := fun _ _ _ h => by cases h; exact ⟨rfl, rfl⟩
theorem vsubs (o : VV) : Statement (.vsubs o) := fun _ _ _ h => by cases h; exact ⟨rfl, rfl⟩
theorem vcvt (vd va : VNo) (part : BitVec 2) (src : Fmt) (mk : MaskNo) (ty : Fmt) (rm : RMode) (g : GenNo) : Statement (.vcvt vd va part src mk ty rm g) := fun _ _ _ h => by cases h; exact ⟨rfl, rfl⟩
theorem vcvtmx (o : VV) : Statement (.vcvtmx o) := fun _ _ _ h => by cases h; exact ⟨rfl, rfl⟩
theorem vdqmx (o : VV) : Statement (.vdqmx o) := fun _ _ _ h => by cases h; exact ⟨rfl, rfl⟩
theorem vcmp (c : VCond) (h : Bool) (md : MaskNo) (va vb : VNo) (mk : MaskNo) (ty : Fmt) : Statement (.vcmp c h md va vb mk ty) := fun _ _ _ h => by cases h; exact ⟨rfl, rfl⟩
theorem vsel (vd va vb : VNo) (ms mk : MaskNo) (ty : Fmt) : Statement (.vsel vd va vb ms mk ty) := fun _ _ _ h => by cases h; exact ⟨rfl, rfl⟩
theorem vmov (o : VV) : Statement (.vmov o) := fun _ _ _ h => by cases h; exact ⟨rfl, rfl⟩
theorem vbcast (vd : VNo) (sa : SReg) (mk : MaskNo) (ty : Fmt) : Statement (.vbcast vd sa mk ty) := fun _ _ _ h => by cases h; exact ⟨rfl, rfl⟩
theorem vperm (o : VV) : Statement (.vperm o) := fun _ _ _ h => by cases h; exact ⟨rfl, rfl⟩
theorem vslide (up : Bool) (n : BitVec 8) (vd va : VNo) (mk : MaskNo) : Statement (.vslide up n vd va mk) := fun _ _ _ h => by cases h; exact ⟨rfl, rfl⟩
theorem viota (o : VI) : Statement (.viota o) := fun _ _ _ h => by cases h; exact ⟨rfl, rfl⟩
theorem vaddi (o : VI) : Statement (.vaddi o) := fun _ _ _ h => by cases h; exact ⟨rfl, rfl⟩
theorem vmuli (o : VI) : Statement (.vmuli o) := fun _ _ _ h => by cases h; exact ⟨rfl, rfl⟩
theorem vandi (o : VI) : Statement (.vandi o) := fun _ _ _ h => by cases h; exact ⟨rfl, rfl⟩
theorem vori (o : VI) : Statement (.vori o) := fun _ _ _ h => by cases h; exact ⟨rfl, rfl⟩
theorem vshli (o : VI) : Statement (.vshli o) := fun _ _ _ h => by cases h; exact ⟨rfl, rfl⟩
theorem vshri (o : VI) : Statement (.vshri o) := fun _ _ _ h => by cases h; exact ⟨rfl, rfl⟩
theorem vcmpi (c : VCond) (imm : BitVec 13) (md : MaskNo) (va : VNo) (mk : MaskNo) (ty : Fmt) : Statement (.vcmpi c imm md va mk ty) := fun _ _ _ h => by cases h; exact ⟨rfl, rfl⟩
theorem vli (o : VI) : Statement (.vli o) := fun _ _ _ h => by cases h; exact ⟨rfl, rfl⟩
theorem vmand (md ma mb mk : MaskNo) : Statement (.vmand md ma mb mk) := fun _ _ _ h => by cases h; exact ⟨rfl, rfl⟩
theorem vmor (md ma mb mk : MaskNo) : Statement (.vmor md ma mb mk) := fun _ _ _ h => by cases h; exact ⟨rfl, rfl⟩
theorem vmxor (md ma mb mk : MaskNo) : Statement (.vmxor md ma mb mk) := fun _ _ _ h => by cases h; exact ⟨rfl, rfl⟩
theorem vmnot (md ma mk : MaskNo) : Statement (.vmnot md ma mk) := fun _ _ _ h => by cases h; exact ⟨rfl, rfl⟩
theorem vmpop (vd : VNo) (ma mk : MaskNo) : Statement (.vmpop vd ma mk) := fun _ _ _ h => by cases h; exact ⟨rfl, rfl⟩
theorem vmfirst (vd : VNo) (ma mk : MaskNo) : Statement (.vmfirst vd ma mk) := fun _ _ _ h => by cases h; exact ⟨rfl, rfl⟩
theorem vredsum (o : Reduce) : Statement (.vredsum o) := fun _ _ _ h => by cases h; exact ⟨rfl, rfl⟩
theorem vredmax (o : Reduce) : Statement (.vredmax o) := fun _ _ _ h => by cases h; exact ⟨rfl, rfl⟩
theorem vredmin (o : Reduce) : Statement (.vredmin o) := fun _ _ _ h => by cases h; exact ⟨rfl, rfl⟩
theorem vdot (o : Reduce) : Statement (.vdot o) := fun _ _ _ h => by cases h; exact ⟨rfl, rfl⟩
theorem vexp2 (o : VV) : Statement (.vexp2 o) := fun _ _ _ h => by cases h; exact ⟨rfl, rfl⟩
theorem vlog2 (o : VV) : Statement (.vlog2 o) := fun _ _ _ h => by cases h; exact ⟨rfl, rfl⟩
theorem vrcp (o : VV) : Statement (.vrcp o) := fun _ _ _ h => by cases h; exact ⟨rfl, rfl⟩
theorem vrsqrt (o : VV) : Statement (.vrsqrt o) := fun _ _ _ h => by cases h; exact ⟨rfl, rfl⟩
theorem vsinT (o : VV) : Statement (.vsinT o) := fun _ _ _ h => by cases h; exact ⟨rfl, rfl⟩
theorem vcosT (o : VV) : Statement (.vcosT o) := fun _ _ _ h => by cases h; exact ⟨rfl, rfl⟩
theorem vupd (ty : Fmt) (sa sb : SReg) : Statement (.vupd ty sa sb) := fun _ _ _ h => by cases h; exact ⟨rfl, rfl⟩
theorem gfill (vd : VNo) (g : GenNo) (sa : SReg) (ty : Fmt) (mk : MaskNo) : Statement (.gfill vd g sa ty mk) := fun _ _ _ h => by cases h; exact ⟨rfl, rfl⟩
theorem gfillS (vd : VNo) (g : GenNo) (ty : Fmt) (mk : MaskNo) : Statement (.gfillS vd g ty mk) := fun _ _ _ h => by cases h; exact ⟨rfl, rfl⟩
theorem vaccr (vd : VNo) (acc pair : AccNo) (mk : MaskNo) : Statement (.vaccr vd acc pair mk) := fun _ _ _ h => by cases h; exact ⟨rfl, rfl⟩
theorem vaccw (acc : AccNo) (vs : VNo) (pair : AccNo) (mk : MaskNo) : Statement (.vaccw acc vs pair mk) := fun _ _ _ h => by cases h; exact ⟨rfl, rfl⟩
theorem vst (o : Strided) : Statement (.vst o) := fun _ _ _ h => by cases h; exact ⟨rfl, rfl⟩
theorem vsc (o : Indexed) : Statement (.vsc o) := fun _ _ _ h => by cases h; exact ⟨rfl, rfl⟩
theorem vsx (o : TensorIx) : Statement (.vsx o) := fun _ _ _ h => by cases h; exact ⟨rfl, rfl⟩
theorem vsdrain (acc : AccNo) (sa sb sc : SReg) (ty : Fmt) (rm : RMode) (g : GenNo) (k : BitVec 4) (cc nt : Bool) (ccid : BitVec 5) : Statement (.vsdrain acc sa sb sc ty rm g k cc nt ccid) := fun _ _ _ h => by cases h; exact ⟨rfl, rfl⟩
theorem vsm (ms : MaskNo) (sa : SReg) (imm : BitVec 34) : Statement (.vsm ms sa imm) := fun _ _ _ h => by cases h; exact ⟨rfl, rfl⟩
theorem vsa (acc : AccNo) (sa sb : SReg) (nt : Bool) : Statement (.vsa acc sa sb nt) := fun _ _ _ h => by cases h; exact ⟨rfl, rfl⟩
theorem br (c : Cond) (sa sb : SReg) (off : BitVec 26) : Statement (.br c sa sb off) := fun _ _ _ h => by cases h; exact ⟨rfl, rfl⟩
theorem jmp (sd : SReg) (off : BitVec 38) : Statement (.jmp sd off) := fun _ _ _ h => by cases h; exact ⟨rfl, rfl⟩
theorem jmpr (sd sa : SReg) : Statement (.jmpr sd sa) := fun _ _ _ h => by cases h; exact ⟨rfl, rfl⟩
theorem lpset (lc : BitVec 2) (fromReg : Bool) (sa : SReg) (imm : BitVec 32) : Statement (.lpset lc fromReg sa imm) := fun _ _ _ h => by cases h; exact ⟨rfl, rfl⟩
theorem lpend (lc : BitVec 2) (off : BitVec 38) : Statement (.lpend lc off) := fun _ _ _ h => by cases h; exact ⟨rfl, rfl⟩
theorem idem (off : BitVec 38) : Statement (.idem off) := fun _ _ _ h => by cases h; exact ⟨rfl, rfl⟩
theorem chunkCountIncrement (task : BitVec 32) (n : Nat) : Statement (.chunkCountIncrement task n) := fun _ _ _ h => nomatch h
theorem copyStart (core : Nat) (seq : BitVec 32) (engine : Nat) : Statement (.copyStart core seq engine) := fun _ _ _ h => nomatch h
theorem copyPacketLand (core : Nat) (seq : BitVec 32) (engine first count : Nat) : Statement (.copyPacketLand core seq engine first count) := fun _ _ _ h => nomatch h
theorem signalArrival (g : Signal) : Statement (.signalArrival g) := fun _ _ _ h => nomatch h
theorem remoteAccessRequest (r : HubReq) : Statement (.remoteAccessRequest r) := fun _ _ _ h => nomatch h
theorem remoteResponse (core : Nat) (tag : Nat) (data : List Byte) : Statement (.remoteResponse core tag data) := fun _ _ _ h => nomatch h
theorem moraineRequest (a : Arrival MoraineMsg) : Statement (.moraineRequest a) := fun _ _ _ h => nomatch h
theorem moraineDeposit (a : Arrival MoraineMsg) : Statement (.moraineDeposit a) := fun _ _ _ h => nomatch h
theorem moraineWithdrawal (a : Arrival MoraineMsg) : Statement (.moraineWithdrawal a) := fun _ _ _ h => nomatch h
theorem moraineReply (a : Arrival MoraineRep) : Statement (.moraineReply a) := fun _ _ _ h => nomatch h
theorem depositAck (a : Arrival MoraineRep) : Statement (.depositAck a) := fun _ _ _ h => nomatch h
theorem hopForward (p : Packet) : Statement (.hopForward p) := fun _ _ _ h => nomatch h
theorem hopAdd (p : Packet) : Statement (.hopAdd p) := fun _ _ _ h => nomatch h
theorem hopMulticast (p : Packet) : Statement (.hopMulticast p) := fun _ _ _ h => nomatch h
theorem hopDeliver (p : Packet) : Statement (.hopDeliver p) := fun _ _ _ h => nomatch h
theorem callStart (core : Nat) (seq : BitVec 32) (hellos : List CallHello) : Statement (.callStart core seq hellos) := fun _ _ _ h => nomatch h
theorem chunkSend (core : Nat) (seq : BitVec 32) (chunk : Nat) : Statement (.chunkSend core seq chunk) := fun _ _ _ h => nomatch h
theorem callDelivery (core : Nat) (seq : BitVec 32) (chunk : Nat) (others : List (Nat × List Payload × BitVec 7)) : Statement (.callDelivery core seq chunk others) := fun _ _ _ h => nomatch h
theorem memberReturn (pkg : BitVec 48) : Statement (.memberReturn pkg) := fun _ _ _ h => nomatch h
theorem reshardStart (core : Nat) (seq : BitVec 32) (hellos : List ReshardHello) : Statement (.reshardStart core seq hellos) := fun _ _ _ h => nomatch h
theorem reshardTile (core : Nat) (seq : BitVec 32) (pos : Nat) (others : List (BitVec 48 × Nat)) : Statement (.reshardTile core seq pos others) := fun _ _ _ h => nomatch h
theorem reset (fw img : BootCheck) (version : Nat) (sites : SiteMap) : Statement (.reset fw img version sites) := fun _ _ _ h => nomatch h
theorem halt (asid : BitVec 12) (addr : Word) : Statement (.halt asid addr) := fun _ _ _ h => nomatch h
theorem hiddenRepair (addr : Word) : Statement (.hiddenRepair addr) := fun _ _ _ h => nomatch h
theorem flitReplay (port : Nat) : Statement (.flitReplay port) := fun _ _ _ h => nomatch h
theorem laneRetrain (port : Nat) : Statement (.laneRetrain port) := fun _ _ _ h => nomatch h
theorem linkReroute (port : Nat) : Statement (.linkReroute port) := fun _ _ _ h => nomatch h
theorem packageAbsent (pkg : BitVec 48) : Statement (.packageAbsent pkg) := fun _ _ _ h => nomatch h
theorem launchDoorbell (slot : Nat) : Statement (.launchDoorbell slot) := fun _ _ _ h => nomatch h
theorem launchDeferredAccept (slot : Nat) : Statement (.launchDeferredAccept slot) := fun _ _ _ h => nomatch h
theorem partitionTableWrite (i : Nat) (entry : List Byte) : Statement (.partitionTableWrite i entry) := fun _ _ _ h => nomatch h
theorem pageTableRootWrite (asid : BitVec 12) (root : Word) : Statement (.pageTableRootWrite asid root) := fun _ _ _ h => nomatch h
theorem meshConfigWrite (mesh coord : Word) : Statement (.meshConfigWrite mesh coord) := fun _ _ _ h => nomatch h
theorem moraineDeclaration (i : Nat) (entry : List Byte) : Statement (.moraineDeclaration i entry) := fun _ _ _ h => nomatch h
theorem purgeDoorbell (asid : BitVec 12) (va size : Word) : Statement (.purgeDoorbell asid va size) := fun _ _ _ h => nomatch h
theorem eventLogTailWrite (tail : Nat) : Statement (.eventLogTailWrite tail) := fun _ _ _ h => nomatch h
theorem attestationRequest (nonce : List Byte) : Statement (.attestationRequest nonce) := fun _ _ _ h => nomatch h
theorem memoryWindowRead (off n : Nat) : Statement (.memoryWindowRead off n) := fun _ _ _ h => nomatch h
theorem memoryWindowWrite (off : Nat) (data : List Byte) : Statement (.memoryWindowWrite off data) := fun _ _ _ h => nomatch h
theorem controlWindowWrite (off : Nat) (data : List Byte) : Statement (.controlWindowWrite off data) := fun _ _ _ h => nomatch h
theorem unassignedEncoding (w : Word) : Statement (.unassignedEncoding w) := fun _ _ _ h => nomatch h
theorem accessPerformed (a : Access) : Statement (.accessPerformed a) := fun _ _ _ h => nomatch h
theorem packageReachableAgain (pkg : BitVec 48) : Statement (.packageReachableAgain pkg) := fun _ _ _ h => nomatch h
theorem portTrained (port : Nat) : Statement (.portTrained port) := fun _ _ _ h => nomatch h
theorem qalign : Statement (.qalign) := fun _ _ _ h => by cases h; exact ⟨rfl, rfl⟩
theorem tend : Statement (.tend) := fun _ _ _ h => by cases h; exact ⟨rfl, rfl⟩
theorem tret : Statement (.tret) := fun _ _ _ h => by cases h; exact ⟨rfl, rfl⟩
theorem tretSkip : Statement (.tretSkip) := fun _ _ _ h => by cases h; exact ⟨rfl, rfl⟩
theorem tretAbandon : Statement (.tretAbandon) := fun _ _ _ h => by cases h; exact ⟨rfl, rfl⟩
theorem mxgo : Statement (.mxgo) := fun _ _ _ h => by cases h; exact ⟨rfl, rfl⟩
theorem mxgoResume : Statement (.mxgoResume) := fun _ _ _ h => by cases h; exact ⟨rfl, rfl⟩
theorem mxsync : Statement (.mxsync) := fun _ _ _ h => by cases h; exact ⟨rfl, rfl⟩
theorem modeTimed : Statement (.modeTimed) := fun _ _ _ h => by cases h; exact ⟨rfl, rfl⟩
theorem modeInter : Statement (.modeInter) := fun _ _ _ h => by cases h; exact ⟨rfl, rfl⟩
theorem start : Statement (.start) := fun _ _ _ h => by cases h; exact ⟨rfl, rfl⟩
theorem nop : Statement (.nop) := fun _ _ _ h => by cases h; exact ⟨rfl, rfl⟩
theorem fullServiceEntry : Statement (.fullServiceEntry) := fun _ _ _ h => nomatch h
theorem clockStep : Statement (.clockStep) := fun _ _ _ h => nomatch h
theorem yieldEnd : Statement (.yieldEnd) := fun _ _ _ h => nomatch h
theorem renqQueueRoom : Statement (.renqQueueRoom) := fun _ _ _ h => nomatch h
theorem barwaitSatisfied : Statement (.barwaitSatisfied) := fun _ _ _ h => nomatch h
theorem waitaSatisfied : Statement (.waitaSatisfied) := fun _ _ _ h => nomatch h
theorem rgclaimSatisfied : Statement (.rgclaimSatisfied) := fun _ _ _ h => nomatch h
theorem rgwaitfSatisfied : Statement (.rgwaitfSatisfied) := fun _ _ _ h => nomatch h
theorem mdepCreditFree : Statement (.mdepCreditFree) := fun _ _ _ h => nomatch h
theorem mxgoQueueRoom : Statement (.mxgoQueueRoom) := fun _ _ _ h => nomatch h
theorem vupdChunk : Statement (.vupdChunk) := fun _ _ _ h => nomatch h
theorem asyncEventDelivery : Statement (.asyncEventDelivery) := fun _ _ _ h => nomatch h
theorem abandonmentComplete : Statement (.abandonmentComplete) := fun _ _ _ h => nomatch h
theorem watchdog : Statement (.watchdog) := fun _ _ _ h => nomatch h
theorem taskDispatch : Statement (.taskDispatch) := fun _ _ _ h => nomatch h
theorem preemption : Statement (.preemption) := fun _ _ _ h => nomatch h
theorem saveComplete : Statement (.saveComplete) := fun _ _ _ h => nomatch h
theorem resumption : Statement (.resumption) := fun _ _ _ h => nomatch h
theorem nestStart : Statement (.nestStart) := fun _ _ _ h => nomatch h
theorem nestLoadW : Statement (.nestLoadW) := fun _ _ _ h => nomatch h
theorem nestRow : Statement (.nestRow) := fun _ _ _ h => nomatch h
theorem nestDrain : Statement (.nestDrain) := fun _ _ _ h => nomatch h
theorem resumeDoorbell : Statement (.resumeDoorbell) := fun _ _ _ h => nomatch h
theorem callComplete : Statement (.callComplete) := fun _ _ _ h => nomatch h
theorem collHoldExpiry : Statement (.collHoldExpiry) := fun _ _ _ h => nomatch h
theorem reshardSwitch : Statement (.reshardSwitch) := fun _ _ _ h => nomatch h
theorem reshardSignal : Statement (.reshardSignal) := fun _ _ _ h => nomatch h
theorem reshardHoldExpiry : Statement (.reshardHoldExpiry) := fun _ _ _ h => nomatch h
theorem signalNack : Statement (.signalNack) := fun _ _ _ h => nomatch h
theorem moraineResend : Statement (.moraineResend) := fun _ _ _ h => nomatch h
theorem nmcKernelStart : Statement (.nmcKernelStart) := fun _ _ _ h => nomatch h
theorem nmcKernelEnd : Statement (.nmcKernelEnd) := fun _ _ _ h => nomatch h
theorem nearMemoryKernelInstruction : Statement (.nearMemoryKernelInstruction) := fun _ _ _ h => nomatch h

end Sys2Proof.Laws.Layout
end

