-- ==== Sys2Proof/Laws/Scalar.lean ====
section
/-! SUPPORT. What a word that only writes a scalar register does. -/

namespace Sys2Proof.Machine

/-- The engine's word finishes after a state in which only registers differ. -/
theorem finishes_done {s u : State} {e : Eng} (hr : u.rest = s.rest) (hc : ∀ c, c ≠ s.cur.core → u.core c = s.core c)
    (he : ∀ f, u.en f = s.en f) :
    ∃ t, u.done e = .next t ∧ finishes s t e ((s.en e).pc + 8) ∧ t.here.still = u.here.still ∧ t.here.regs = u.here.regs := by
  refine ⟨_, rfl, ?_, ?_, ?_⟩
  · have := finishes_leave (s := s) (u := u) e ((u.en e).pc + 8) 0 hr hc (fun f => .inl (he f)) (by rw [he]) (by rw [he])
    rw [he e] at this
    have h2 : (u.here.en e).pc = (s.en e).pc := by
      have := he e
      simp only [State.en] at this ⊢
      rw [this]
    simpa [State.done, State.upd, h2, State.en] using this
  · simp
  · simp

/-- What a scalar register holds depends on the registers of the core alone. -/
theorem sReg_congr {s t : State} (h : t.here.regs = s.here.regs) (r : SReg) : t.sReg r = s.sReg r := by
  simp [State.sReg, h]

theorem writesS_congr {s t u : State} {sd : SReg} {x : Word} (h1 : t.here.still = u.here.still) (h2 : t.here.regs = u.here.regs)
    (h : writesS s u sd x) : writesS s t sd x :=
  ⟨h1.trans h.1, by rw [h2]; exact h.2.1, fun r => by rw [sReg_congr h2]; exact h.2.2 r⟩

/-- In order, a word that only writes a scalar register finishes with the value in it. -/
theorem scalar_spec {s : State} (h : inOrder s .sq) (sd : SReg) (x : Word) :
    goesTo (scalar sd x s) fun t => finishes s t .sq ((s.en .sq).pc + 8) ∧ writesS s t sd x := by
  obtain ⟨h1, h2, h3, h4⟩ := wrS_inOrder h sd x
  obtain ⟨t, ht, g1, g2, g3⟩ := finishes_done (e := .sq) h1 h2 h3
  exact ⟨t, ht, g1, writesS_congr g2 g3 h4⟩

end Sys2Proof.Machine
end

