-- ==== Sys2Proof/Machine/Capability.lean ====
section
/-! DEFINITION. What the control node finds in the capability list: the list and its bodies, as functions of the state (R24 to
R30, R57, R245, R308, R343, R366, R375). Reading it is no step. -/

namespace Sys2Proof.Machine

/-- The ids that the package lists, in list order: fabric, Moraine and near-memory entries are there at full service alone (R27, R30,
R308, R366). -/
def Level.capIds : Level → List Nat
  | .full => [1, 2, 3, 4, 5, 6, 7, 8, 9, 10]
  | _ => [1, 2, 3, 4, 8, 9, 10]

/-- Clusters that accept tasks (R30). -/
def Level.clusters : Level → Nat
  | .boot => 0
  | .reduced => 1
  | .full => 40
  | .halted => 0

/-- FORMATS (R30). -/
def Level.formats : Level → Nat
  | .reduced => 0x0003
  | .full => 0x003F
  | _ => 0

/-- The window address of an entry's body. -/
def capBodyAddr (id : Nat) : Nat := 0x1000 * id

/-- The 16-byte entry at place n of a list of ids (R24, R25). -/
def capEntry (ids : List Nat) (n id : Nat) : List Byte :=
  toBytes 2 id ++ toBytes 2 0x0100 ++ toBytes 4 (if n + 1 < ids.length then 16 * (n + 1) else 0) ++ toBytes 8 (capBodyAddr id)

/-- The list from its base on (R24, R25). -/
def State.capList (s : State) : List Byte :=
  ((List.range s.level.capIds.length).map fun n => capEntry s.level.capIds n (s.level.capIds.getD n 0)).flatten

/-- The body of the identification entry (R28). -/
def identBody : List Byte :=
  toBytes 2 0x7A1F ++ toBytes 2 0x0480 ++ toBytes 2 0x0001 ++ toBytes 2 0x0300 ++ toBytes 8 0x0000000004800001 ++
    toBytes 16 (Config.identity 0)

/-- The body of the service-level entry (R29, R30). -/
def State.levelBody (s : State) : List Byte :=
  toBytes 1 s.level.code ++ [0] ++ toBytes 2 s.level.clusters ++ toBytes 2 s.clock ++ toBytes 2 s.level.formats ++
    toBytes 4 s.gen.toNat ++ toBytes 4 0

/-- A port's entry in the body of the fabric capability (R343). -/
def State.portEntry (s : State) (p : Nat) : List Byte :=
  let x := s.port p
  let peer := Config.identity (2 + p)
  toBytes 6 peer ++ toBytes 1 (peer / 2 ^ 48 % 48) ++ toBytes 1 (x.st % 4 + if x.spare then 4 else 0) ++ toBytes 4 x.retries.toNat ++ toBytes 4 0

/-- Tuples of a region stored or held on this package (R308). -/
def State.stored (s : State) (rid : Nat) : Nat :=
  (s.slices.map fun x => x.2.bag.countP fun t => decide (t.rid = rid)).sum

/-- A region's entry in the body of the Moraine capability (R308). -/
def State.regionEntry (s : State) (r : MRegion) : List Byte :=
  toBytes 8 r.base ++ toBytes 8 r.size ++ toBytes 2 r.asid.toNat ++ toBytes 1 r.rid ++ toBytes 1 (if r.mesh then 1 else 0) ++
    toBytes 4 (r.size / 65536) ++ toBytes 8 (s.stored r.rid)

/-- misa of RV64GCV in user mode: A, C, D, F, I, M, U and V at 64 bits (R366). -/
def misa : Nat := 2 ^ 63 + 2 ^ 0 + 2 ^ 2 + 2 ^ 3 + 2 ^ 5 + 2 ^ 8 + 2 ^ 12 + 2 ^ 20 + 2 ^ 21

/-- The body of the entry with an id (R27 to R29, R57, R245, R308, R343, R366, R375, R377). -/
def State.capBody (s : State) (id : Nat) : List Byte :=
  match id with
  | 1 => identBody
  | 2 => s.levelBody
  | 3 => [8, 40, 160, 32, 192, 12, 24, 24, 16, 48].flatMap fun n => toBytes 2 n
  | 4 => toBytes 8 0x1E
  | 5 => toBytes 2 48 ++ toBytes 14 0 ++ (List.range 48).flatMap fun p => s.portEntry p
  | 6 => toBytes 2 s.regions.length ++ toBytes 14 0 ++ s.regions.flatMap fun r => s.regionEntry r
  | 7 => toBytes 8 misa ++ toBytes 2 24 ++ toBytes 2 1024 ++ toBytes 4 0
  | 8 => toBytes 8 0x3FF
  | 9 => toBytes 32 (Config.identity 1)
  | 10 => toBytes 8 s.log.base.toNat ++ toBytes 8 s.log.lost
  | _ => []

end Sys2Proof.Machine
end

