-- ==== Sys2Proof/Tests/Slice0.lean ====
section
/-! SUPPORT. Tests: words that the spec writes out, ill-formed terms, single steps whose results the spec states or a hand computes
from its rules, and for each statement with hypotheses a state and operands that meet them. -/

namespace Sys2Proof.Tests

open Sys2Proof.Machine

-- each test is checked before the next one starts
set_option Elab.async false

/-! Words of the spec's own encodings (R65, R73, R75), each with the file that writes it out -/

/-- 05_encoding.md, R100; 06_encoding_notes.md. -/
theorem test_decode_all_engines :
    decodeWord 0xC000800000000000 = .ok (0, .nop) ∧ decodeWord 0xC000600000000001 = .ok (0, .modeTimed) ∧
      decodeWord 0xC000700000000000 = .ok (0, .start) := by decide +kernel

/-- 07_sequencer.md, the scan loop; 08_sequencer_notes.md, `jmp s9, far` with off 0x1C18. -/
theorem test_decode_control_flow :
    decodeWord 0xC000340000000064 = .ok (0, .lpset 1 false 0 100) ∧ decodeWord 0xC000000500000003 = .ok (0, .br .eq 5 0 3) ∧
      decodeWord 0xC000443FFFFFFFFD = .ok (0, .lpend 1 (-3)) ∧ decodeWord 0xC000124000001C18 = .ok (0, .jmp 9 0x1C18) ∧
      decodeWord 0xC000320600000000 = .ok (0, .lpset 0 true 6 0) := by decide +kernel

/-- 07_sequencer.md and 09_memory.md: `ld.n32 s5, s4, 0`, `addi s4, s4, 4` and `amo.add.pkg.i64 s3, s4, s5`; R125 for `rsys s30, SYS.TRAPCAUSE`, whose number is
0x011 (28_fabric_programs.md writes 0x110 there, which R124 does not assign). -/
theorem test_decode_sequencer :
    decodeWord 0x0002014480000000 = .ok (0, .ld .n32 5 4 0) ∧ decodeWord 0x0001010400000004 = .ok (0, .addi 4 4 4) ∧
      decodeWord 0x000240C4141AC000 = .ok (0, .amo ⟨3, 4, 5, .add, .i64, .pkg, 0⟩) ∧
      decodeWord 0x0003078001100000 = .ok (0, .rsys 30 0x011) := by decide +kernel

/-- 19_scheduling.md, 20_scheduling_notes.md and 21_traps.md; the second `appt` pops ST. -/
theorem test_decode_scheduling :
    decodeWord 0x0003600518000000 = .ok (0, .seqw 5 6) ∧ decodeWord 0x000390C414600000 = .ok (0, .appt 3 4 5 6) ∧
      decodeWord 0x100390C414600000 = .ok (0x200, .appt 3 4 5 6) ∧ decodeWord 0x0003A00000000012 = .ok (0, .trap 0x12) ∧
      decodeWord 0x0003B00000000001 = .ok (0, .tretSkip) ∧ decodeWord 0x0003C14000000000 = .ok (0, .tack 5) := by decide +kernel

/-- 22_preemption_programs.md and 20_scheduling_notes.md: barriers and copies. -/
theorem test_decode_commands :
    decodeWord 0x0004600400800000 = .ok (0, .barinit 4 0 8) ∧ decodeWord 0x000402C600000000 = .ok (0, .cpld 11 6) ∧
      decodeWord 0x0004A00400000000 = .ok (0, .barwait 4 0) := by decide +kernel

/-- 11_data_movement.md, 12_data_movement_notes.md and 28_fabric_programs.md: the load engine. -/
theorem test_decode_load_engine :
    decodeWord 0x2120001882804002 = .ok (0x24, .vld ⟨3, 4, 5, 0, .bf16, false, 2⟩) ∧
      decodeWord 0x2000204005000000 = .ok (0, .vldx ⟨8, 0, 10, 0, .f32, false⟩) ∧
      decodeWord 0x21007000C0000000 = .ok (0x20, .vlpf ⟨0, 6, 0, 0, .f32, false, 0⟩) := by decide +kernel

/-- 12_data_movement_notes.md: `vsdrain` of three split partials under R173. -/
theorem test_decode_store_engine :
    decodeWord 0xA000321872000180 = .ok (0, .vsdrain 2 6 7 8 .f32 .rne 0 3 false false 0) := by decide +kernel

/-- 13_vector.md, 14_vector_notes.md and 06_encoding_notes.md: the vector engine. -/
theorem test_decode_vector_engine :
    decodeWord 0x801030502C186000 = .ok (2, .vfma ⟨10, 11, 12, 3, .f32, .rne, 0⟩) ∧
      decodeWord 0x8001404810002182 = .ok (0, .vcvt 9 4 0 .f32 1 .bf16 .sr 2) ∧
      decodeWord 0x8001200808060A00 = .ok (0, .vadds ⟨1, 2, 3, 0, .i8, .rne, 0⟩) ∧
      decodeWord 0x8002C02818000001 = .ok (0, .vredsum ⟨5, 6, 0, 0, .f32, 1, false⟩) ∧
      decodeWord 0x8103600082800000 = .ok (0x20, .vupd .f32 4 5) ∧
      decodeWord 0x8210001008020C00 = .ok (0x42, .vadd ⟨2, 2, 1, 0, .i32, .rne, 0⟩) := by decide +kernel

/-- 15_matrix.md: the matrix words and `mxgo | pop sq | push ve`. -/
theorem test_decode_matrix :
    decodeWord 0x0005100A2CC00000 = .ok (0, .mxfmt 10 11 12) ∧ decodeWord 0x6000000000000000 = .ok (0, .mxgo) ∧
      decodeWord 0x6000080000000000 = .ok (0, .mxgoResume) ∧ decodeWord 0x6140000000000000 = .ok (0x28, .mxgo) := by decide +kernel

/-- 17_flurry.md, 18_flurry_notes.md and 22_preemption_programs.md: generators. -/
theorem test_decode_flurry :
    decodeWord 0x0005860824000000 = .ok (0, .gskip 3 8 9) ∧ decodeWord 0x8003714218000000 = .ok (0, .gfill 40 2 6 .f32 0) ∧
      decodeWord 0x8003704B02000000 = .ok (0, .gfillS 9 3 .f32 0) ∧ decodeWord 0x0005A00700000000 = .ok (0, .gload 0 7) ∧
      decodeWord 0x0005B24000000000 = .ok (0, .gdraw 9 0) := by decide +kernel

/-- 23_moraine.md, 24_moraine_program.md, 25_sharding.md and 26_reshard_program.md. -/
theorem test_decode_moraine_and_maps :
    decodeWord 0x0006240420000000 = .ok (0, .mtake 16 4 8) ∧ decodeWord 0x000600C420000000 = .ok (0, .mdep 3 4 8) ∧
      decodeWord 0x0006160440000000 = .ok (0, .mrd 24 4 16) ∧ decodeWord 0x0006930700000000 = .ok (0, .mapset 3 0 7) ∧
      decodeWord 0x0006721400000000 = .ok (0, .mapld 2 20) ∧ decodeWord 0x0006B0C414612100 = .ok (0, .rshd 3 4 5 6 1 2 1) ∧
      decodeWord 0x0006C08058012000 = .ok (0, .rshdq 2 0 22 1 2) := by decide +kernel

/-- 27_fabric.md and 29_platform.md: collectives and near-memory launches. -/
theorem test_decode_fabric :
    decodeWord 0x000700C414000000 = .ok (0, .clgrp 3 4 5) ∧ decodeWord 0x000710C400000000 = .ok (0, .clrun 3 4) ∧
      decodeWord 0x0007200414000000 = .ok (0, .clchunk 4 5) ∧ decodeWord 0x000730C014000000 = .ok (0, .clstatCc 3 5) ∧
      decodeWord 0x000740C400000000 = .ok (0, .nmrun 3 4) ∧ decodeWord 0x000750C400000000 = .ok (0, .nmstat 3 4) ∧
      decodeWord 0x000760C400000000 = .ok (0, .nmstop 3 4) := by decide +kernel

/-- R77: an unassigned opcode and tag 7 decode to the row of such words, and a reserved format or a nonzero must-be-zero bit is
rejected with its word's tag. -/
theorem test_decode_rejects :
    decodeWord 0x0007700000000000 = .ok (0, .unassignedEncoding 0x0007700000000000) ∧
      decodeWord 0xE000000000000000 = .ok (0, .unassignedEncoding 0xE000000000000000) ∧
      decodeWord 0x0002014490000000 = .error (.reservedField 0) ∧ decodeWord 0x8000000000000008 = .error (.reservedField 4) ∧
      decodeWord 0xC000800000000001 = .error (.reservedField 6) := by decide +kernel

/-- The encoder writes the words of 05_encoding.md and 15_matrix.md (R65). -/
theorem test_encode :
    encode 0x24 (.vld ⟨3, 4, 5, 0, .bf16, false, 2⟩) = some 0x2120001882804002 ∧ encode 0x28 .mxgo = some 0x6140000000000000 ∧
      encode 0 (.rshd 3 4 5 6 1 2 1) = some 0x0006B0C414612100 := by decide +kernel

/-- An event has no word (R65): the encoder gives none. -/
theorem test_encode_event : encode 0 .yieldEnd = none := by decide +kernel

/-! Ill-formed terms, one for each check of WellFormed.lean -/

/-- R106 and R164 to R203: each term breaks one restriction of its instruction's entry. -/
theorem test_ill_formed :
    ([.ext false 1 2 60 4, .ld .f32 1 2 0, .st .bf16 1 2 0, .ldacq .f32 .pkg 1 2 0, .strel .f32 .pkg 1 2 0,
      .amo ⟨1, 2, 3, .fadd, .i32, .pkg, 0⟩, .amo ⟨1, 2, 3, .add, .i8, .pkg, 0⟩, .amocas 1 2 3 4 .f32 .pkg 0,
      .red ⟨1, 2, 3, .add, .i32, .pkg, 0⟩, .red ⟨0, 2, 3, .swap, .i32, .pkg, 0⟩, .red ⟨0, 2, 3, .add, .i32, .pkg, 1⟩,
      .mapset 0 7 1, .vld ⟨384, 1, 2, 0, .f32, false, 0⟩, .vld ⟨0, 1, 2, 0, .i64, false, 0⟩, .vld ⟨0, 1, 2, 0, .f32, true, 0⟩,
      .vst ⟨0, 1, 2, 0, .mxi4, false, 0⟩, .vldb ⟨0, 1, 2, 0, .f32, false, 0⟩, .vlpf ⟨1, 1, 2, 0, .f32, false, 0⟩,
      .vldt ⟨0, 1, 2, 0, .f32, true, 0⟩, .vldg ⟨0, 400, 1, 0, .f32, false⟩, .vldg ⟨0, 1, 1, 0, .f32, true⟩,
      .vldx ⟨0, 1, 2, 0, .f32, true⟩, .vsc ⟨0, 1, 1, 0, .i64, false⟩, .vsx ⟨384, 1, 2, 0, .f32, false⟩] : List Instr).map Instr.ok =
      List.replicate 24 false := by decide +kernel

/-- R169 to R173 and R195 to R215. -/
theorem test_ill_formed_vector :
    ([.xtr .f32 382 0, .xtr .f32 0 2, .xunpk .mxi6 384 0, .xunpk .f32 0 1, .xpk .mxi4 0 383, .xhq .f32 .rne 0 1 2 0 0,
      .xhdq .mxi8 .rne 1 1 2 0 0, .xperm 384 0 0, .xcat 0 0 384 0, .mxzero 15 1, .vadd ⟨384, 0, 0, 0, .f32, .rne, 0⟩,
      .vadd ⟨0, 0, 0, 0, .i32, .rtz, 0⟩, .vadd ⟨0, 0, 0, 0, .f32, .rne, 1⟩, .vmin ⟨0, 0, 0, 0, .f32, .rtz, 0⟩,
      .vabs ⟨0, 0, 1, 0, .f32, .rne, 0⟩, .vdiv ⟨0, 0, 0, 0, .i32, .rne, 0⟩, .vsqrt ⟨0, 0, 1, 0, .f32, .rne, 0⟩,
      .vand ⟨0, 0, 0, 0, .f32, .rne, 0⟩, .vnot ⟨0, 0, 1, 0, .i32, .rne, 0⟩, .vcvt 0 0 2 .f32 0 .bf16 .rne 0,
      .vcvtmx ⟨0, 0, 0, 1, .mxi8, .rne, 0⟩, .vdqmx ⟨0, 0, 0, 0, .f32, .rne, 0⟩, .vcmp .uno false 0 0 0 0 .i32,
      .vcmp .eq true 0 0 0 0 .f32, .vcmp .eq false 0 0 0 0 .i8, .vsel 0 0 0 0 0 .i64, .vmov ⟨0, 0, 1, 0, .f32, .rne, 0⟩,
      .vbcast 384 0 0 .f32, .vperm ⟨0, 0, 0, 0, .f32, .rne, 0⟩, .vslide true 0 384 0 0, .viota ⟨0, 1, 0, .i32, 0⟩,
      .vaddi ⟨0, 0, 0, .f32, 0⟩, .vshli ⟨0, 0, 0, .i8, 8⟩, .vcmpi .ord 0 0 0 0 .i32, .vli ⟨0, 0, 0, .bf16, 65536⟩,
      .vli ⟨0, 1, 0, .i32, 0⟩, .vmpop 384 0 0, .vredsum ⟨0, 0, 1, 0, .f32, 0, false⟩, .vredsum ⟨0, 0, 0, 0, .i32, 1, false⟩,
      .vredmax ⟨0, 0, 0, 0, .f32, 1, false⟩, .vdot ⟨0, 0, 0, 0, .i32, 0, false⟩, .vexp2 ⟨0, 0, 0, 0, .bf16, .rne, 0⟩,
      .vupd .i32 0 0, .gfill 0 0 0 .i32 0, .gfillS 384 0 .f32 0, .vaccr 384 0 0 0, .vaccw 0 384 0 0,
      .vsdrain 0 0 0 0 .e2m1 .rne 0 0 false false 0, .vsdrain 0 0 0 0 .f32 .rne 0 9 false false 0,
      .vsdrain 0 0 0 0 .bf16 .rne 0 1 false false 0, .vsdrain 0 0 0 0 .f32 .rne 0 0 false false 1, .lpset 0 true 1 1,
      .lpset 0 false 1 1] : List Instr).map Instr.ok =
      List.replicate 53 false := by decide +kernel

/-! States for the tests below -/

/-- A package at full service in which core 0 runs an interlocked task with one page of task window, changed by f, with engine e
under the cursor. Address space 0 maps its first GiB to the frames of the same numbers, by three tables from 0x10000. -/
def st (e : Eng) (f : Core → Core := id) : State :=
  let k := placeTask {}
  { State.reset with
    level := .full
    cur := ⟨0, e.tag, 0⟩
    roots := [(0, 0x10001)]
    hbm := [(0x10000, 1), (0x10002, 2), (0x20000, 1), (0x20002, 3), (0x30000, 0x1F)]
    cores := [(0, f { k with tcb := { Tcb.zero with pages := 1 } })] }

/-- The same with scalar registers. -/
def regs (e : Eng) (rs : Bank Word) : State := st e fun k => { k with regs := { k.regs with s := rs } }

/-- Changes the core's system registers. -/
def sysOf (f : Sys → Sys) (k : Core) : Core := { k with sys := f k.sys }

/-- Changes engine e of the core. -/
def engOf (e : Eng) (f : EngSt → EngSt) (k : Core) : Core := k.onEn e f

/-- The task window. -/
def win : Word := 0x01FFFF0000000000

/-- The same with scalar registers in deterministic mode, in which no access is held back or torn. -/
def detRegs (e : Eng) (rs : Bank Word) : State := st e fun k => sysOf (fun y => { y with det := true }) { k with regs := { k.regs with s := rs } }

/-- A scalar access of the sequencer that is held back, at an offset of the task window. -/
def heldAccess (id off size : Nat) (load : Option (Fmt × Nat)) (data : List Byte) : Late :=
  ⟨id, 0, [], [], win.toNat + off, size, .spad off, load, data, none, []⟩

/-! Each statement with hypotheses: a state and operands that meet them, at the edges of what its clauses allow -/

theorem witness_ScalarArithmeticResults :
    inOrder (st .sq) .sq ∧ Spec.scalarResult (st .sq).sReg (.add 1 2 3) = some (1, 0) ∧
      Spec.scalarResult (regs .sq [(2, 0x8000000000000000), (3, -1)]).sReg (.div false 0 2 3) = some (0, 0x8000000000000000) := by
  unfold inOrder; decide +kernel

/-- A word that issues; words of the three latencies; and of two writes in flight to one register the one that is due. -/
theorem witness_TimedScalarWritesLandLater :
    let s := st .sq (sysOf fun y => { y with timed := true })
    let k : Core := { (s.core 0) with pend := [⟨5, .s 62, ones 64, 7⟩, ⟨5, .s 63, ones 64, 9⟩, ⟨6, .s 63, ones 64, 8⟩] }
    let names (p : Pend) : Prop := p.dst = .s 63 ∨ ∃ key op, p.dst = .bank key op 63
    s.here.sys.timed = true ∧ s.here.races = [] ∧ (63 : SReg) ≠ 0 ∧ Spec.scalarResult s.sReg (.li 63 (-1)) = some (63, -1) ∧
      (∀ i ∈ [Instr.div false 1 2 3, .mulh true 1 2 3, .ext false 1 2 0 4], (Spec.scalarResult s.sReg i).isSome = true) ∧
      k.pend = [⟨5, .s 62, ones 64, 7⟩] ++ ⟨5, .s (BitVec.toNat (63 : SReg)), ones 64, BitVec.toNat (9 : Word)⟩ :: [⟨6, .s 63, ones 64, 8⟩] ∧
      ∀ p ∈ ([⟨5, .s 62, ones 64, 7⟩, ⟨6, .s 63, ones 64, 8⟩] : List Pend), names p → 5 < p.due := by
  and_intros
  rotate_right
  · intro p hp hn
    simp only [List.mem_cons, List.not_mem_nil, or_false] at hp
    rcases hp with rfl | rfl
    · simp at hn
    · decide
  all_goals decide +kernel

/-- The last 8 bytes of the window, the first byte, and an aligned address of global memory, with nothing held back; the same with a load held
back, whose bytes come later. -/
theorem witness_ScalarLoads :
    let s := detRegs .sq [(4, win)]
    let g := detRegs .sq [(4, 0x40000)]
    let l := heldAccess 0 16 8 (some (.n64, 9)) []
    let w := st .sq fun k => { k with regs := { k.regs with s := [(4, win)] }, late := [l] }
    inOrder s .sq ∧ s.queues = false ∧ s.here.late = [] ∧
      s.scalarCheck .sq (Spec.address (s.sReg 4) (0xFFF8 : BitVec 27)) (Fmt.bits .n64 / 8) .read = .ok (.spad 0xFFF8) ∧
      s.scalarCheck .sq (Spec.address (s.sReg 4) (0 : BitVec 24)) (Fmt.bits .i8 / 8) .read = .ok (.spad 0) ∧ inOrder g .sq ∧ g.queues = false ∧
      g.scalarCheck .sq (Spec.address (g.sReg 4) (8 : BitVec 24)) (Fmt.bits .i64 / 8) .read = .ok .glob ∧ Scope.wide .sys = true ∧
      inOrder w .sq ∧ w.here.late ≠ [] ∧
      w.scalarCheck .sq (Spec.address (w.sReg 4) (0xFFF8 : BitVec 27)) (Fmt.bits .n64 / 8) .read = .ok (.spad 0xFFF8) ∧
      spotOf w 0 0 .read (win.toNat + 0xFFF8, 8) = .ok (.spad 0xFFF8) ∧ l.size = Fmt.bits .n64 / 8 ∧ (w.core 0).races = [] := by
  unfold inOrder; decide +kernel

/-- Stores at both ends of the window with nothing held back, and with a store held back; a release to the window and one to a line of global
memory. -/
theorem witness_ScalarStores :
    let s := detRegs .sq [(4, win)]
    let g := detRegs .sq [(4, 0x40000)]
    let l := heldAccess 0 0xFFFE 2 none [1, 2]
    let w := st .sq fun k => { k with regs := { k.regs with s := [(4, win)] }, late := [l] }
    inOrder s .sq ∧ s.queues = false ∧ s.remoteWrites = false ∧ (s.release .sys).ntWaits .sys = false ∧
      s.scalarCheck .sq (Spec.address (s.sReg 4) (0xFFFF : BitVec 27)) (Fmt.bits .n8 / 8) .write = .ok (.spad 0xFFFF) ∧
      s.scalarCheck .sq (Spec.address (s.sReg 4) (0 : BitVec 24)) (Fmt.bits .n64 / 8) .write = .ok (.spad 0) ∧
      inOrder w .sq ∧ w.here.late = [l] ∧ l.load = none ∧ l.rel = none ∧ l.spot = .spad 0xFFFE ∧
      (w.release .clus).ntWaits .clus = false ∧
      w.scalarCheck .sq (Spec.address (w.sReg 4) (0 : BitVec 24)) (Fmt.bits .n64 / 8) .write = .ok (.spad 0) ∧
      spotOf w 0 0 .write (win.toNat, 8) = .ok (.spad 0) ∧
      Scope.wide .clus = false ∧ Scope.beyond .sys = true ∧ inOrder g .sq ∧ g.queues = false ∧ g.remoteWrites = false ∧
      (g.release .sys).ntWaits .sys = false ∧
      g.scalarCheck .sq (Spec.address (g.sReg 4) (0 : BitVec 24)) (Fmt.bits .n64 / 8) .write = .ok .glob ∧
      lineAccess (g.release .sys) 0 0 0x40000 .write = .ok ⟨0x40000, 0x40000, 0, 7⟩ := by
  unfold inOrder; decide +kernel

theorem witness_GlobalStoresEnterTheWriteBuffer :
    let s := st .sq fun k => sysOf (fun y => { y with det := true }) { k with regs := { k.regs with s := [(4, 0x40000)] } }
    inOrder s .sq ∧ Fmt.isInt .n64 = true ∧ s.queues = false ∧
      s.scalarCheck .sq (Spec.address (s.sReg 4) (120 : BitVec 27)) (Fmt.bits .n64 / 8) .write = .ok .glob ∧
      lineAccess s 0 0 0x40078 .write = .ok ⟨0x40078, 0x40078, 0, 7⟩ ∧ (s.die 0).buf.length < 16 := by
  unfold inOrder; decide +kernel

/-- In the window, and a release of mesh scope with no remote write outstanding. -/
theorem witness_Atomics :
    let s := regs .sq [(4, win)]
    inOrder s .sq ∧ ordRelease 2 = true ∧ Scope.beyond .mesh = true ∧ s.remoteWrites = false ∧ (s.release .mesh).ntWaits .mesh = false ∧
      s.scalarCheck .sq (s.sReg 4).toNat (Fmt.bits .n64 / 8) .atomic = .ok (.spad 0) ∧
      s.scalarCheck .sq (s.sReg 4).toNat (Fmt.bits .f32 / 8) .atomic = .ok (.spad 0) := by
  unfold inOrder; decide +kernel

/-- A release fence of a scope beyond the package while no remote write is outstanding, with a store in the die's write buffer; an acquire
fence with a line in the die cache, which waits for nothing, and with a store held back; and a scope that changes nothing of the package. -/
theorem witness_FencesAndHints :
    let b : BufStore := ⟨0, 0, 2049, 0x40080, [(0, 0x107)], none, 0, 0, false⟩
    let s : State := { st .sq with dies := [(0, ⟨[⟨0, 2048, 0x40000, List.replicate 128 0, 7, 0⟩], [b], [], 1, []⟩)] }
    let w := st .sq fun k => { k with remote := [⟨9, 1, true, 1, none⟩], late := [heldAccess 0 0xFFFE 2 none [1, 2]] }
    (FenceKind.rel ≠ .acq ∧ Scope.beyond .sys = true ∧ s.remoteWrites = false ∧ (s.release .sys).ntWaits .sys = false ∧ Scope.wide .sys = true ∧
      (s.die 0).buf = [b] ∧ s.here.follows 0 b = true) ∧
      (FenceKind.ar ≠ .acq ∧ Scope.beyond .pkg = false ∧ (s.release .pkg).ntWaits .pkg = false ∧ Scope.wide .pkg = true ∧ (s.die 0).lines ≠ []) ∧
      (Scope.beyond .mesh = true ∧ w.remoteWrites = true) ∧ (∀ l ∈ w.here.late, l.load = none) ∧ Scope.wide .clus = false := by decide +kernel

/-- A plain register, SLIP at its least and greatest value, SYS.FLAGS beside a contribution that nothing orders, and the write inside. -/
theorem witness_SystemRegisterAccess :
    let s := regs .sq [(1, 1), (2, 4096)]
    let f := st .sq fun k => { k with races := [⟨.flags, 4, 1, 0, 5, 5⟩] }
    inOrder s .sq ∧ Spec.sysReads s 0x002 = some 0x100 ∧ Spec.sysAfter 0x002 (s.sReg 1) 0x100 = some 1 ∧
      Spec.sysAfter 0x002 (s.sReg 2) 0x100 = some 4096 ∧ Spec.sysReads s 1 = some 0 ∧ Spec.sysAfter 1 (s.sReg 2) 0 = some 0 ∧
      f.here.sys.timed = false ∧ (∀ r ∈ f.here.races, r.dst.same .flags = true ∧ ordered (f.en .sq) 0 r = false) ∧
      (st .sq).here.runs = true ∧ (st .sq).readSys 0x012 = some 0 ∧ Spec.sysAfter 0x012 7 0 = some 7 ∧
      (st .sq).readSys 1 = some 0 ∧ (st .sq).here.flagRaces = [] ∧ Spec.sysAfter 1 7 0 = some 7 := by
  unfold inOrder; decide +kernel

/-- A handler is enabled; number 0xFFF is not assigned, SLIP does not take 0 and SYS.CORE is read-only. -/
theorem witness_SystemRegisterFaults :
    let s := st .sq (sysOf fun y => { y with trapvec := 0x1001 })
    inOrder s .sq ∧ s.here.phase = .running ∧ bit s.here.sys.trapvec 0 = true ∧ s.here.finishing (some .sq) = false ∧
      s.here.requesting = false ∧ s.readSys 0xFFF = none ∧ s.readSys 0x002 = some 0x100 ∧ Spec.sysAfter 0x002 (s.sReg 0) 0x100 = none ∧
      (∀ old, Spec.sysAfter 0x020 0 old = none) := by
  unfold inOrder
  and_intros
  rotate_right
  · exact fun _ => rfl
  all_goals decide +kernel

theorem witness_TrapsEnterTheHandler :
    let s := st .ve (sysOf fun y => { y with trapvec := 1 })
    s.here.phase = .running ∧ bit s.here.sys.trapvec 0 = true ∧ s.here.requesting = false ∧ s.here.finishing (some .sq) = false ∧
      s.here.finishing (some s.engHere) = false := by decide +kernel

theorem witness_TrapsWithoutHandlerAbandon :
    (st .sq).here.finishing (some .mx) = false ∧ (st .sq).here.requesting = false ∧ bit (st .sq).here.sys.trapvec 0 = false ∧
      (st .sq fun k => { k with phase := .handler }).here.finishing (some .sq) = false ∧
      (st .sq fun k => { k with phase := .handler }).here.requesting = false := by decide +kernel

/-- A held frame at the cluster window, from a synchronous trap of the vector engine. -/
def frame : Frame :=
  { pcs := List.replicate 6 0, occupancy := List.replicate 6 0, tokens := List.replicate 30 0, mode := 1, sq := EngSt.zero, eng := 4,
    isAsync := false, tag6 := false }

/-- Core 0 in its handler. -/
def inHandler : State := st .sq fun k => { k with phase := .handler, frame := some frame, regs := { k.regs with s := [(1, win + 0xFF80), (2, 1)] } }

theorem witness_TrapReturns :
    inHandler.here.phase = .handler ∧ inHandler.here.frame = some frame ∧ frame.isAsync = false ∧
      frame.tag6 = false := by decide +kernel

/-- The save area's last place in the window; an empty event queue and one of two events; both masks. -/
theorem witness_HandlerServices :
    inOrder inHandler .sq ∧ inHandler.here.events = [] ∧ (inHandler.sReg 2).toNat < 2 ∧ (inHandler.sReg 0).toNat < 2 ∧
      (inHandler.sReg 1).toNat < 2 ^ 57 ∧ (inHandler.sReg 1).toNat % 64 = 0 ∧
      inHandler.check (inHandler.sReg 1).toNat 128 .write = .ok (.spad 0xFF80) ∧
      inHandler.conflicts .sq [(0xFF80, 0xFF80 + 128)] true = false ∧ frame.pcs.length = 6 ∧ frame.occupancy.length = 6 ∧
      frame.tokens.length = 30 ∧ inOrder (st .sq fun k => { k with events := [⟨7, 8⟩, ⟨9, 0⟩] }) .sq ∧
      (st .sq fun k => { k with events := [⟨7, 8⟩, ⟨9, 0⟩] }).here.events = [⟨7, 8⟩, ⟨9, 0⟩] := by
  unfold inOrder; decide +kernel

theorem witness_SequencerControlFlow :
    let s := regs .sq [(3, 0x1008)]
    inOrder s .sq ∧ s.engHere = .sq ∧ s.here.phase ≠ .handler ∧ (∀ e ∈ Eng.all, ((s.en e).ctl).length < 32) ∧ (s.sReg 3).toNat % 8 = 0 := by
  unfold inOrder; decide +kernel

theorem witness_OtherEnginesFollowControlFlow :
    let s := st .ve (engOf .ve fun x => { x with ctl := [⟨1, 0⟩, ⟨0, 0⟩] })
    s.here.sys.timed = false ∧ s.engHere = .ve ∧ Eng.ve ≠ .sq ∧ (s.en .ve).ctl = ⟨1, 0⟩ :: [⟨0, 0⟩] := by decide +kernel

/-- All six engines at one word, whose descriptor, of zeros, lies 64 bytes after it; the same in timed mode; and a log with room for the
record of the task's end. -/
theorem witness_WordsOfAllSixEngines :
    let s := st .sq
    let u := st .sq (sysOf fun y => { y with timed := true })
    let l : State := { s with log := { s.log with entries := 1 } }
    s.engHere = .sq ∧ s.here.gathered .sq = true ∧ s.here.sys.timed = false ∧ s.here.ctlEmpty = true ∧ s.here.nestsDone = true ∧
      (∀ f ∈ Eng.all, (s.en f).push = 0) ∧ s.here.tokensLeft = 0 ∧ s.here.nestOwed = [] ∧ s.preemptDue s.cur.core = false ∧
      ((s.en .sq).pc + BitVec.signExtend 64 (8 : BitVec 38) * 8).toNat % 64 = 0 ∧
      s.check ((s.en .sq).pc + BitVec.signExtend 64 (8 : BitVec 38) * 8).toNat 64 .read = .ok (.spad 64) ∧
      descriptorOk (BitVec.ofNat 512 (ofBytes (Bank.getRun 0 s.spad 64 64))) (s.here.tcb.pages * 65536) = true ∧ s.here.live = [] ∧
      (u.here.gathered .sq = true ∧ u.here.sys.timed = true ∧ u.here.nests = [] ∧
        fetchBytes u u.cur.core (u.en .sq).pc.toNat = .ok (List.replicate 8 0)) ∧
      l.logWait = [] ∧ l.launchWait = [] ∧ l.launchLive = [] ∧ l.log.held = [] ∧ l.log.head < l.log.tail + l.log.entries ∧
      l.here.gathered .sq = true ∧ l.here.live = [] ∧ l.here.late = [] := by
  decide +kernel

/-- A block whose every field is zero asks for a task at entry 0. -/
def queued : QEntry := ⟨Tcb.zero, .renq 0⟩

/-- What gives each status, a block that core 1 takes in, a wait for room of which there is now some, and a request of another package. -/
theorem witness_RemoteEnqueue :
    let table : State → State := fun s => { s with parts := [(0, ⟨1, 5, true, true, 0, 0⟩)] }
    let at_ (sb : Word) : State := table (regs .sq [(1, win), (2, sb)])
    let fill (k : Core) : Core := { k with queue0 := List.replicate 8 queued }
    let full (c : Nat) : State := let s := at_ (BitVec.ofNat 64 c)
      { s with cores := if c = 0 then [(0, fill (s.core 0))] else [(0, s.core 0), (1, fill (s.core 1))] }
    let block (s : State) : List Byte := Bank.getRun 0 s.spad 0 64
    let bad : State := { at_ 1 with spad := [(63, 1)] }
    let low : State := { at_ 4 with level := .reduced }
    let w := table (st .sq (engOf .sq fun x => { x with wait := some (.renq 4 1 (tcbBytes Tcb.zero)) }))
    let q : RenqReq := ⟨1, 159, 7, 5, 0, tcbBytes Tcb.zero⟩
    let r : State := { table (st .sq) with renqs := [q] }
    (∀ s ∈ [at_ 1, at_ 4, at_ 160, at_ 0x0100000000000000, at_ 0x100, bad, low, full 0, full 1],
      s.here.sys.timed = false ∧ s.here.races = [] ∧ s.here.sys.urgent = false ∧ s.taskOperand (s.sReg 1).toNat 64 64 = .ok 0 ∧
        s.conflicts .sq [(0, 64)] false = false) ∧
      readTcb (block bad) = none ∧ slice ((at_ 0x0100000000000000).sReg 2) 63 56 ≠ 0 ∧ 159 < slice ((at_ 160).sReg 2) 7 0 ∧
      coordOk (at_ 0x100).mesh (((at_ 0x100).sReg 2).extractLsb' 8 48) = false ∧
      (∀ s ∈ [at_ 1, at_ 4, low, full 0, full 1], readTcb (block s) = some Tcb.zero ∧ slice (s.sReg 2) 63 56 = 0 ∧ slice (s.sReg 2) 7 0 ≤ 159 ∧
        (s.sReg 2).extractLsb' 8 48 = s.coord.extractLsb' 0 48 ∧ coordOk s.mesh ((s.sReg 2).extractLsb' 8 48) = true ∧ s.partOf 0 = 5) ∧
      low.level = .reduced ∧ (at_ 4).level = .full ∧ (at_ 4).partOf 1 = 0xFFFF ∧ ((at_ 1).core 1).queue0.length < 8 ∧
      8 ≤ ((full 0).core 0).queue0.length ∧ 8 ≤ ((full 1).core 1).queue0.length ∧
      (w.en .sq).wait = some (.renq 4 1 (tcbBytes Tcb.zero)) ∧ readTcb (tcbBytes Tcb.zero) = some Tcb.zero ∧ w.here.runs = true ∧
      (w.core 1).queue0.length < 8 ∧ w.here.races = [] ∧
      (r.en .sq).wait = none ∧ (r.renqs.find? fun q => decide (q.target = r.cur.core)) = some q ∧ readTcb q.block = some Tcb.zero ∧
      r.level = .full ∧ r.cur.core < 160 ∧ q.part ≠ 0xFFFF ∧ r.partOf (q.target / 4) = q.part ∧ (r.core q.target).queue0.length < 8 := by
  decide +kernel

theorem witness_SequenceWordsAndPriority : inOrder (regs .sq [(1, 3)]) .sq ∧ ((regs .sq [(1, 3)]).sReg 1).toNat < 4 := by
  unfold inOrder; decide +kernel

/-- One expert and 256 of them. -/
theorem witness_ApportionStoresCounts :
    let s := regs .sq [(1, win), (2, 0x00010001), (3, win + 0x8000), (4, 0x00400100)]
    inOrder s .sq ∧ (slice (s.sReg 2) 8 0 = 1 ∧ slice (s.sReg 4) 8 0 = 256) ∧
      (∀ r ∈ ([2, 4] : List SReg), slice (s.sReg r) 15 9 = 0 ∧ slice (s.sReg r) 63 32 = 0) ∧ (s.sReg 3).toNat < 2 ^ 57 ∧
      (s.sReg 3).toNat % 2 = 0 ∧ s.windowOperand (s.sReg 1).toNat 4 4 = .ok 0 ∧ s.windowOperand (s.sReg 1).toNat 1024 4 = .ok 0 ∧
      s.windowOperand (s.sReg 3).toNat 2 2 = .ok 0x8000 ∧ s.windowOperand (s.sReg 3).toNat 512 2 = .ok 0x8000 ∧
      s.conflicts .sq [(0, 1024)] false = false ∧ s.conflicts .sq [(0x8000, 0x8000 + 512)] true = false := by
  unfold inOrder; decide +kernel

theorem witness_ApportionHandsOutEveryCluster :
    let z := (([5, 0, 9] : List Nat).filter fun x => decide (0 < x)).length
    0 < z ∧ z ≤ 2 ∧ z ≤ 40 := by decide +kernel

/-- An entry of class 0 and one of class 1; a unit before the limit and the unit that reaches it. -/
theorem witness_DispatchAndWatchdog :
    let s : State := st .sq fun k => { k with phase := .idle, queue0 := [queued] }
    let u : State := st .sq fun k => { k with phase := .idle, queue1 := [queued] }
    let w := st .sq (sysOf fun y => { y with wdLimit := 1, trapvec := 1 })
    s.pickTask s.cur.core = some (.entry false 0 queued) ∧ u.pickTask u.cur.core = some (.entry true 0 queued) ∧
      (st .sq).here.runs = true ∧ (st .sq).here.finishing (some .sq) = false ∧ (∀ e ∈ Eng.all, ((st .sq).en e).wait = none) ∧
      (st .sq).here.sys.wdCount + 1 ≠ (st .sq).here.sys.wdLimit ∧ w.here.sys.wdCount + 1 = w.here.sys.wdLimit ∧
      w.here.phase = .running ∧ bit w.here.sys.trapvec 0 = true ∧ w.here.runs = true ∧ w.here.finishing (some .sq) = false := by
  decide +kernel

/-- A barrier at the window's last 16 bytes with one arrival left, the same with a reserved bit set, and a wait whose phase has passed. -/
theorem witness_PhaseBarriers :
    let s : State := { regs .sq [(1, win + 0xFFF0)] with spad := [(0xFFF4, 1)] }
    let b : State := { st .sq fun k => sysOf (fun y => { y with trapvec := 1 }) { k with regs := { k.regs with s := [(1, win + 0xFFF0)] } } with
      spad := [(0xFFFC, 2)] }
    let w := st .sq (engOf .sq fun x => { x with wait := some (.barrier 0xFFF0 true) })
    inOrder s .sq ∧ s.windowOperand (s.sReg 1).toNat 16 16 = .ok 0xFFF0 ∧ s.barrierOk 0xFFF0 = true ∧ s.spadNat (0xFFF0 + 4) 2 = 1 ∧
      inOrder b .sq ∧ b.windowOperand (b.sReg 1).toNat 16 16 = .ok 0xFFF0 ∧ b.barrierOk 0xFFF0 = false ∧ b.here.phase = .running ∧
      bit b.here.sys.trapvec 0 = true ∧ b.here.finishing (some .sq) = false ∧ b.here.requesting = false ∧ inOrder w .sq ∧
      (w.en .sq).wait = some (.barrier 0xFFF0 true) ∧ w.here.runs = true ∧ w.phaseAt (BitVec.toNat (0xFFF0 : Word)) ≠ true := by
  unfold inOrder; decide +kernel

theorem witness_CompletionWords :
    let s := regs .sq [(1, win + 0xFFF8)]
    let w := st .sq (engOf .sq fun x => { x with wait := some (.word 8 0) })
    let y := st .sq (engOf .sq fun x => { x with wait := some (.yield 1) })
    inOrder s .sq ∧ s.windowOperand (s.sReg 1).toNat 8 8 = .ok 0xFFF8 ∧ (w.en .sq).wait = some (.word 8 0) ∧ w.here.runs = true ∧
      w.spadNat (BitVec.toNat (8 : Word)) 8 = BitVec.toNat (0 : Word) ∧ (y.en .sq).wait = some (.yield 1) ∧ y.here.runs = true := by
  unfold inOrder; decide +kernel

/-- A ring of two slots of 64 bytes with one claim that is not filled; the same ring behind two waits. -/
def ring : State :=
  { regs .sq [(1, 0x01FFFF0100000000)] with spad := [(8, 64), (12, 2), (24, 1)] }

theorem witness_ScratchRings :
    let r : Ring := ⟨2, 0, 0, 1, 0⟩
    let w : State := { ring with cores := (st .sq (engOf .sq fun x => { x with wait := some (.claim 5 0) })).cores }
    let p : Ring := ⟨2, 0, 1, 1, 0⟩
    let v : State := { st .sq (engOf .sq fun x => { x with wait := some (.filled 0 0) }) with spad := [(8, 64), (12, 2), (20, 1), (24, 1)] }
    inOrder ring .sq ∧ ring.ringWord 1 = .ok (0, r) ∧ ((BitVec.extractLsb' 0 32 (ring.sReg 0)) - r.tail).toNat < (r.claimed - r.tail).toNat ∧
      bit r.filled 0 = false ∧ BitVec.extractLsb' 0 32 (ring.sReg 0) = r.head ∧ inOrder w .sq ∧ w.ringAt 0 = some r ∧ w.here.runs = true ∧
      (w.en .sq).wait = some (.claim 5 0) ∧ (r.claimed - r.head).toNat + w.claiming 0 < r.nslot ∧ inOrder v .sq ∧ v.ringAt 0 = some p ∧
      v.here.runs = true ∧ (v.en .sq).wait = some (.filled 0 0) ∧ p.published 0 = true := by
  unfold inOrder; decide +kernel

theorem witness_VectorLoads :
    let s := regs .ld [(1, win), (2, 128)]
    let lanes := s.active 0
    let rows := rowAddrs (s.sReg 1) (s.sReg 2) (504 : BitVec 13)
    inOrder s .ld ∧ s.accessCheck .ld .read 1 (accessesOf (stridedRuns rows lanes)) = none ∧ rowsAligned rows lanes (Fmt.width .f32) = true ∧
      bit lanes 255 = true ∧
      window s.cur.core s.here (s.sReg 1 + BitVec.ofInt 64 (128 * 504 + 7 * (s.sReg 2).toInt + 4 * 31)).toNat 4 = .ok (.spad 0xFFFC) ∧
      s.accessCheck .ld .read 2 [((s.sReg 1).toNat, 2)] = none ∧
      s.accessCheck .ld .read 4 (((List.range 256).filter fun L => bit lanes L).map fun L =>
        ((s.sReg 1 + BitVec.ofInt 64 ((s.vLane 0 L).toInt * (4 : Int))).toNat, 4)) = none ∧ s.here.sys.det = false ∧
      (List.range 32).all (fun j => let a := (s.sReg 1 + BitVec.ofInt 64 (128 * 0 + (j : Nat) * (s.sReg 2).toInt)).toNat
        decide (a % 4 = 0 ∧ taskWindow ≤ a ∧ a + 32 ≤ taskWindow + windowSize ∧ a + 32 ≤ taskWindow + s.here.tcb.pages * 65536)) = true := by
  unfold inOrder; decide +kernel

theorem witness_MaskAndAccumulatorAccess :
    let s := regs .ld [(1, win), (2, 512)]
    let u := regs .st [(1, win), (2, 512)]
    let row (i : Nat) : Nat := (s.sReg 1 + BitVec.ofInt 64 ((i : Int) * (s.sReg 2).toInt)).toNat
    inOrder s .ld ∧ s.accessCheck .ld .read 32 [((s.sReg 1 + BitVec.ofInt 64 (BitVec.toInt (0xFFE0 : BitVec 34))).toNat, 32)] = none ∧
      inOrder u .st ∧ u.accessCheck .st .write 32 [((u.sReg 1).toNat, 32)] = none ∧ (s.sReg 2).toNat % 4 = 0 ∧
      (∀ i ∈ List.range 32, window s.cur.core s.here (row i) 512 = .ok (.spad (512 * i))) ∧
      (∀ i ∈ List.range 32, ∀ j ∈ List.range 32, i < j → 512 * i + 4 * 127 + 4 ≤ 512 * j) ∧
      s.accessCheck .ld .read 4 ((List.range 32).map fun i => (row i, 512)) = none ∧
      u.accessCheck .st .write 4 ((List.range 32).map fun i => (row i, 512)) = none := by
  unfold inOrder; decide +kernel

theorem witness_VectorStores :
    let s := regs .st [(1, win), (2, 128)]
    let lanes := (List.range 256).filter fun L => bit (s.active 0) L
    inOrder s .st ∧
      s.accessCheck .st .write 1 (accessesOf (stridedRuns (rowAddrs (s.sReg 1) (s.sReg 2) (0 : BitVec 13)) (s.active 0))) = none ∧
      (∀ L ∈ lanes, window s.cur.core s.here (s.sReg 1 + BitVec.ofInt 64 ((L / 32 : Nat) * (s.sReg 2).toInt + (4 * (L % 32) : Nat))).toNat 4 =
        .ok (.spad (4 * L))) ∧
      s.accessCheck .st .write 4 (lanes.map fun L => ((s.sReg 1 + BitVec.ofInt 64 ((s.vLane 0 L).toInt * (4 : Int))).toNat, 4)) = none ∧
      (∀ L ∈ lanes, window s.cur.core s.here (s.sReg 1 + BitVec.ofInt 64 ((s.vLane 0 L).toInt * (4 : Int))).toNat 4 = .ok (.spad 0)) := by
  unfold inOrder; decide +kernel

/-- An FP32 word and an integer word of 8 bits. -/
theorem witness_VectorElementwiseResults :
    ∃ (bits : Int → Int → Nat) (f g : Nat → Nat → Nat → Nat → Nat × Flags), inOrder (st .ve) .ve ∧
      Spec.vvElement bits (.vfma ⟨1, 2, 3, 4, .f32, .rne, 0⟩) = some (⟨1, 2, 3, 4, .f32, .rne, 0⟩, f) ∧
      Spec.vvElement bits (.vadds ⟨1, 2, 3, 4, .i8, .rne, 0⟩) = some (⟨1, 2, 3, 4, .i8, .rne, 0⟩, g) ∧ Fmt.bits .f32 = 32 ∧ Fmt.bits .i8 = 8 ∧
      (st .ve).roundBits .ve .rne 0 = .ok bits :=
  ⟨_, _, _, by unfold inOrder; decide +kernel, rfl, rfl, rfl, rfl, rfl⟩

theorem witness_VectorImmediateResults :
    ∃ f, inOrder (st .ve) .ve ∧ Spec.viElement (.viota ⟨383, 0, 0, .n16, 0x1FFFF⟩) = some (⟨383, 0, 0, .n16, 0x1FFFF⟩, f) ∧ Fmt.bits .n16 = 16 :=
  ⟨_, by unfold inOrder; decide +kernel, rfl, rfl⟩

theorem witness_VectorLaneResults : inOrder (st .ve) .ve ∧ Fmt.bits .bf16 = 16 ∧ Fmt.bits .f32 = 32 := by unfold inOrder; decide +kernel

theorem witness_AccumulatorRowAccess : inOrder (st .ve) .ve := by unfold inOrder; decide +kernel

/-- The last part of a widening from 8 to 32 bits. -/
theorem witness_VectorConversion :
    ∃ bits, inOrder (st .ve) .ve ∧ Fmt.bits .i8 = 8 ∧ Fmt.bits .f32 = 32 ∧
      BitVec.toNat (3 : BitVec 2) * Nat.min (Fmt.bits .i8) (Fmt.bits .f32) < Nat.max (Fmt.bits .i8) (Fmt.bits .f32) ∧
      (st .ve).roundBits .ve .rup 0 = .ok bits :=
  ⟨_, by unfold inOrder; decide +kernel, rfl, rfl, by decide, rfl⟩

theorem witness_VectorBlockConversion : ∃ bits, inOrder (st .ve) .ve ∧ (st .ve).roundBits .ve .rtz 0 = .ok bits :=
  ⟨_, by unfold inOrder; decide +kernel, rfl⟩

/-- Profiles 1 and 3 for a floating sum; an integer sum, a maximum and a minimum have none. -/
theorem witness_VectorReductions :
    inOrder (st .ve) .ve ∧ (if Fmt.isFloat .f32 then 1 ≤ BitVec.toNat (1 : BitVec 4) ∧ BitVec.toNat (1 : BitVec 4) ≤ 3 else (1 : BitVec 4) = 0) ∧
      (if Fmt.isFloat .bf16 then 1 ≤ BitVec.toNat (3 : BitVec 4) ∧ BitVec.toNat (3 : BitVec 4) ≤ 3 else (3 : BitVec 4) = 0) ∧
      (if Fmt.isFloat .i32 then 1 ≤ BitVec.toNat (0 : BitVec 4) ∧ BitVec.toNat (0 : BitVec 4) ≤ 3 else (0 : BitVec 4) = 0) := by
  unfold inOrder; decide +kernel

theorem witness_DefinedFunctions : inOrder (st .ve) .ve := by unfold inOrder; decide +kernel

/-- A BITS register for N32 draws, and a causal operand register for FP32. -/
theorem witness_GeneratorFills :
    let g (kind : Nat) : Gen := ⟨BitVec.ofNat 512 (kind * 2 ^ 480), none⟩
    let s := st .ve fun k => { k with regs := { k.regs with g := [(0, g 0), (1, g 6)] } }
    inOrder s .ve ∧ fillKind (s.rdG .ve 0) .n32 = true ∧ (s.rdG .ve 0).drawable = true ∧ fillKind (s.rdG .ve 1) .f32 = true ∧
      (s.rdG .ve 1).operand = true := by unfold inOrder; decide +kernel

/-- Tensor 0 of the task, at the start of its window: one dimension of 32 FP32 elements with stride 1, whose buffer lies 4 KiB on. -/
def tensor (e : Eng) : State :=
  { st e (fun k => { k with tcb := { k.tcb with shapebase := win } }) with
    spad := [(0, 1), (9, 0x10), (13, 0xFF), (14, 0xFF), (15, 0x01), (24, 32), (48, 1), (88, 32)] }

theorem witness_TransposeEngineResults :
    ∃ t u bits, inOrder (tensor .xp) .xp ∧ Fmt.bits .n16 = 16 ∧ Fmt.bits .mxf4 = 4 ∧ Fmt.bits .mxi6 = 6 ∧
      (tensor .xp).hadamardShape 0 0 .rne 0 = .ok (t, 0, bits, u) :=
  ⟨_, _, _, by unfold inOrder; decide +kernel, rfl, rfl, rfl, rfl⟩

/-- Word 7 with KIND and SCOPE of zero, a drawable register, places for an image, and an image of kind 0 and one of a rotary kind. -/
theorem witness_GeneratorWords :
    let s := regs .sq [(1, win + 0xFFC0), (2, win)]
    let r : State := { regs .sq [(2, win)] with spad := [(50, 4), (56, 1), (60, 4)] }
    let i : Gen := ⟨BitVec.ofNat 512 (ofBytes (r.load (r.sReg 2).toNat 64).1), none⟩
    inOrder s .sq ∧ slice (s.sReg 0) 39 36 = 0 ∧ slice (s.sReg 0) 47 44 = 0 ∧ (Bank.get Gen.zero s.here.regs.g 0).drawable = true ∧
      (s.sReg 1).toNat % 64 = 0 ∧ s.windowOperand (s.sReg 1).toNat 64 64 = .ok 0xFFC0 ∧
      s.conflicts .sq [(0xFFC0, 0xFFC0 + 64)] true = false ∧ s.blockCheck (s.sReg 2).toNat 64 64 .read = .ok () ∧
      Gen.imageOk ⟨BitVec.ofNat 512 (ofBytes (s.load (s.sReg 2).toNat 64).1), none⟩ = true ∧
      Gen.isRotary ⟨BitVec.ofNat 512 (ofBytes (s.load (s.sReg 2).toNat 64).1), none⟩ = false ∧ inOrder r .sq ∧
      r.blockCheck (r.sReg 2).toNat 64 64 .read = .ok () ∧ i.imageOk = true ∧ i.isRotary = true ∧
      r.blockCheck i.tableAddr (4 * i.nf) 4 .read = .ok () := by
  unfold inOrder; decide +kernel

theorem witness_DrainsAndChunkCounters :
    ∃ bits,
      let s := regs .st [(1, win), (2, 512), (3, 0x40000)]
      let q := regs .sq [(1, 65535), (2, 31)]
      let at_ (b : Word) (i : Nat) : Nat := (b + BitVec.ofInt 64 ((i : Int) * (s.sReg 2).toInt)).toNat
      let d : State := { st .sq with chunkDue := [(1, 5)] }
      inOrder s .st ∧ s.roundBits .st .rne 0 = .ok bits ∧ (∀ i ∈ List.range 32, touchesScratch (at_ (s.sReg 3) i) (drainBytes .f32 0) = false) ∧
        s.accessCheck .st .write (Fmt.bits .f32 / 8) ((List.range 32).map fun i => (at_ (s.sReg 1) i, 512)) = none ∧
        s.accessCheck .st .write (Fmt.bits .f32 / 8) ((List.range 32).map fun i => (at_ (s.sReg 3) i, 512)) = none ∧
        (drainRow .f32 .rne (tileRow 0 0) ((List.range 128).map fun (c : Nat) => bits 0 (c : Int))).1.length = 512 ∧
        d.chunkDue.find? (fun x => decide (x.2 = 5) && decide (d.taskOf x.1 = some 0)) = some (1, 5) ∧ inOrder q .sq ∧
        1 ≤ (q.sReg 1).toNat ∧ (q.sReg 1).toNat < 65536 ∧ (q.sReg 2).toNat < 32 ∧
        (q.chunkCtr q.here.inst (q.sReg 2).toNat).armed = false :=
  ⟨_, by unfold inOrder; decide +kernel, rfl, by decide +kernel, by decide +kernel, by decide +kernel, by decide +kernel, by decide +kernel,
    by unfold inOrder; decide +kernel, by decide +kernel, by decide +kernel, by decide +kernel, by decide +kernel⟩

/-- An update descriptor at the start of the window, whose four arrays lie 4 KiB apart after it, with DONE of 0. -/
def updDesc : List Byte :=
  toBytes 8 (win.toNat + 0x1000) ++ toBytes 8 (win.toNat + 0x2000) ++ toBytes 8 (win.toNat + 0x3000) ++ toBytes 8 (win.toNat + 0x4000) ++
    List.replicate 96 0

/-- Two elements to go and none, under stochastic rounding too; the first chunk of an update of two elements. -/
theorem witness_OptimiserUpdates :
    let s : State := { regs .ve [(1, win), (2, 2)] with spad := Bank.setRun 0 [] 0 updDesc }
    let w := st .ve (engOf .ve fun x => { x with wait := some (.update win updDesc 0 2 .f32 Gen.zero) })
    let start : List (Nat × Nat) := [(win.toNat + 0x1000, 8), (win.toNat + 0x2000, 8), (win.toNat + 0x3000, 8), (win.toNat + 0x4000, 8), (win.toNat + 72, 8)]
    s.here.sys.timed = false ∧ inOrder s .ve ∧ (s.sReg 2).toNat < 2 ^ 32 ∧ (s.sReg 1).toNat < 2 ^ 57 ∧ (s.sReg 1).toNat % 128 = 0 ∧
      s.check (s.sReg 1).toNat 128 .read = .ok (.spad 0) ∧ (s.load (s.sReg 1).toNat 128).1 = updDesc ∧ updOk updDesc .f32 2 = true ∧
      fieldAt updDesc 69 1 % 8 ≠ 4 ∧ fieldAt updDesc 72 8 = 0 ∧ updOk (updDesc.set 69 4) .f32 0 = true ∧ w.here.sys.timed = false ∧
      w.here.phase = .running ∧ w.here.trapHeld = none ∧
      (w.en .ve).wait = some (.update win updDesc 0 2 .f32 Gen.zero) ∧
      start.map (fun x => (w.check x.1 x.2 .read, w.check x.1 x.2 .write)) =
        [0x1000, 0x2000, 0x3000, 0x4000, 72].map fun k => (.ok (.spad k), .ok (.spad k)) := by
  unfold inOrder; decide +kernel

/-- Tensor 0 permits reads outside: elements 0 to 31 of lanes 0 to 31 lie here and the others outside. For a store, and for a tensor that
permits nothing, the last 32 lanes of an index that starts before it would fault, so the mask m1 takes lanes 0 to 31. -/
theorem witness_TensorIndexAccesses :
    let s : State := { tensor .ld with spad := Bank.set 0 (tensor .ld).spad 3 1 }
    let f : Core → Core := fun k => { k with tcb := { k.tcb with shapebase := win }, regs := { k.regs with m := [(1, 0xFFFFFFFF)] } }
    let u : State := { st .st f with spad := (tensor .st).spad }
    let o : TensorIx := ⟨8, 0, 2, 0, .f32, false⟩
    let p : TensorIx := ⟨8, 0, 2, 1, .f32, false⟩
    let here (s : State) (t : Shape) (kind : RKind) (k : Nat) : Nat := match s.reach t 0 kind [(k : Int)] 4 with
      | .ok (.here va) => va | .ok .fill => 1 | _ => 0
    let tl := match s.tensorShape .ld o with | .ok x => some x | .error _ => none
    let tst := match u.tensorShape .st p with | .ok x => some x | .error _ => none
    let okL : Bool := match tl with
      | some (t, v) => v.mapOf .ld t = .ok 0 && t.rank = 1 &&
          (List.range 256).all (fun k => here s t .read k = if k < 32 then win.toNat + 0x1000 + 4 * k else 1) &&
          !s.conflicts .ld (s.spadRanges ((List.range 32).map fun k => (win.toNat + 0x1000 + 4 * k, 4))) false
      | none => false
    let okS : Bool := match tst with
      | some (t, v) => v.mapOf .st t = .ok 0 && t.rank = 1 && (List.range 32).all (fun k => here u t .write k = win.toNat + 0x1000 + 4 * k) &&
          !u.conflicts .st (u.spadRanges ((List.range 32).map fun k => (win.toNat + 0x1000 + 4 * k, 4))) true &&
          (u.lockOf (u.recKey t.recVa)).isNone
      | none => false
    inOrder s .ld ∧ inOrder u .st ∧ okL = true ∧ okS = true := by
  unfold inOrder; decide +kernel

/-- A line of the mapped GiB, asked for and written; and the answer to the one line that a load waits for. -/
theorem witness_RemoteLineAccesses :
    let op : LineOp := ⟨false, 3, 4, -1, 0, [], [(9, [(0, 0)])], [], []⟩
    let q : RemoteOut := ⟨9, 1, false, 1, none⟩
    let s := st .ld fun k => { (engOf .ld (fun x => { x with wait := some (.lines op) }) k) with remote := [q] }
    (st .sq).level = .full ∧ translate (st .sq) 8 0 0x40000 = .ok ⟨0x40000, 0x40000, 0, 7⟩ ∧ pageCheck .read ⟨0x40000, 0x40000, 0, 7⟩ = .ok ⟨0x40000, 0x40000, 0, 7⟩ ∧
      pageCheck .write ⟨0x40000, 0x40000, 0, 7⟩ = .ok ⟨0x40000, 0x40000, 0, 7⟩ ∧ (0x40000 : Nat) % 128 = 0 ∧
      (List.replicate 128 (0 : Byte)).length = 128 ∧ inOrder s .ld ∧ s.here.remote = [q] ∧ q.eng = Eng.ld.tag ∧ s.here.runs = true ∧
      (s.en .ld).wait = some (.lines op) ∧ op.todo = [] ∧ op.later = [] ∧ op.rest = [] ∧ (s.en .st).wait = none := by
  unfold inOrder; decide +kernel

/-- A nest of one step: one row of two BF16 values from the window times a 2 by 2 tile, drained to the window. -/
def table : List Word :=
  [0x0002020100040000, 0, win, win + 0x400, win + 0x800, 0x0000004000000040, 0x40, 0, 0x0000000700000001, 0, 0, 0, 1, 0, 0, 0, 1, 0, 0, 0,
    1, 0, 0, 0, 1, 0, 0, 0, 1, 0, 0, 0]

/-- Its format word: BF16 operands, drained to BF16 under RNE (15_matrix.md writes out 0x8021). -/
def bf16Word : FmtWord := ⟨0x8021, 0, 0⟩

/-- The nest as it was accepted. -/
def nest : Nest :=
  { table := table, fw := bf16Word, id := 1, nseq := 1, ga := Gen.zero, gb := Gen.zero, gd := Gen.zero, started := false, step := 0, row := 0,
    rl := true, dr := none, fresh := 1, dord := 0, flags := 0, consumed := 0, finished := 0, ahead := [], timed := false, issue := 0, ends := none, complete := false,
    work := [], after := [], clk := [], joined := [] }

/-- A format word that passes with a queue of 15, a block of 256 bytes, the last accumulator alone and all sixteen, and a held nest. -/
theorem witness_MatrixControlWords :
    let s := st .sq fun k => { k with regs := { k.regs with s := [(1, 0x8021), (2, win + 0xFF00)] }, fmtq := List.replicate 15 bf16Word }
    let h := st .mx fun k => { sysOf (fun y => { y with mxprog := 0x9000000000000000 }) k with nests := [{ nest with started := true }] }
    inOrder s .sq ∧ formatWordOk (s.sReg 1) false = true ∧ (s.sReg 0).toNat < 2 ^ 57 ∧ s.here.fmtCount < 16 ∧
      s.blockCheck (s.sReg 2).toNat 256 64 .read = .ok () ∧ inOrder (st .mx) .mx ∧ (st .mx).here.nests = [] ∧
      BitVec.toNat (15 : AccNo) + BitVec.toNat (0 : BitVec 4) < 16 ∧ BitVec.toNat (0 : AccNo) + BitVec.toNat (15 : BitVec 4) < 16 ∧
      inOrder h .mx ∧ h.here.held = true := by
  unfold inOrder; decide +kernel

/-- Acceptance beside three nests, a wait behind four; the nest's start, its load, its row and its drain. -/
theorem witness_MatrixNests :
    let shadow : Bank Word := (List.range 32).foldl (fun b n => Bank.set 0 b n (table.getD n 0)) []
    let s := st .mx fun k => { k with shadow := shadow, fmtq := [bf16Word], nests := [nest, nest, nest] }
    let w := st .mx fun k => { engOf .mx (fun x => { x with wait := some (.nestRoom false) }) k with nests := [nest] }
    let n1 : Nest := { nest with started := true }
    let n2 : Nest := { nest with started := true, rl := false }
    let n3 : Nest := { nest with started := true, rl := false, dr := some 0, step := 1 }
    let of (n : Nest) : State := st .mx fun k => { k with nests := [n], tile := some ⟨.bf16, 2, 2, [], false⟩ }
    let l := Loop.of table bf16Word
    let part (is : List Nat) := hull ((is.flatMap l.spans).flatMap (spadPart s.cur.core s.here))
    s.here.races = [] ∧ s.here.sys.timed = false ∧ s.here.nests.length < 4 ∧
      (List.range 32).map (fun n => Bank.get 0 s.here.shadow n) = table ∧
      l.check (fun g => Bank.get Gen.zero s.here.regs.g g) false (decide (s.level = .reduced)) (s.here.tcb.pages * 65536) = none ∧
      s.issueConflict .mx (part [0, 1]) (part [2]) [] = false ∧ (w.en .mx).wait = some (.nestRoom false) ∧ w.here.runs = true ∧
      nest.timed = false ∧ nest.work = [] ∧ s.cur.unit = 0 ∧ n2.row < 32 ∧ (of nest).nestHere = some nest ∧ (of n1).nestHere = some n1 ∧ (of n2).nestHere = some n2 ∧ (of n3).nestHere = some n3 ∧
      ((of n1).loadTile n1 (l.wDigits n1.step) l.nv).toOption.map (fun x => x.1.length) = some 2 ∧ n2.step < l.total ∧ l.oc ≤ 128 ∧
      ((of n2).operandRow n2 0 (l.digits 0) 0 l.cn).toOption.map (fun x => x.1.length) = some 2 ∧
      (of n3).drainFault ((of n3).drainRows n3 0) = none ∧ n3.drained = [] ∧ (of n3).cur.unit = 0 ∧
      ((of n3).drainRows n3 0).map (fun r => window 0 (of n3).here r.1 r.2.1.length) = [.ok (.spad 0x800)] := by
  decide +kernel

/-- A descriptor of cpmem for 64 bytes from the window's start to 4 KiB on, and one of cpld for elements 0 to 31 of tensor 0. -/
def cpDesc (d : List (Nat × Nat × Nat)) : List Byte :=
  Bank.getRun 0 (d.foldl (fun b x => Bank.setRun 0 b x.1 (toBytes x.2.1 x.2.2)) ([] : Bank Byte)) 0 128

theorem witness_CopiesFork :
    let mem := cpDesc [(96, 8, win.toNat), (104, 8, win.toNat + 0x1000), (112, 8, 64)]
    let box := cpDesc [(32, 4, 32), (56, 8, win.toNat + 0x2000)]
    let rs : Core → Core := fun k => { k with tcb := { k.tcb with shapebase := win }, regs := { k.regs with s := [(1, win + 0x8000)] } }
    let with_ (d : List Byte) : State := { st .sq rs with spad := Bank.setRun 0 (tensor .sq).spad 0x8000 d }
    let ok (kind : Nat) (d : List Byte) : Bool :=
      let s := with_ d
      let block := s.load (s.sReg 1).toNat 128
      match block.2.prepareCopy (block.2.newCopy kind block.1) with
      | .ok (c, _) => !(s.issueConflict .sq (s.copyRanges c c.shapeRec).1 (s.copyRanges c c.shapeRec).2 s.here.preds) &&
          !s.conflicts .sq (s.spadRanges (c.issueReads (s.sReg 1).toNat block.1)) false && (!c.writes || (s.lockOf (s.recKey c.shapeAddr)).isNone)
      | .error _ => false
    inOrder (with_ mem) .sq ∧ (with_ mem).here.predsOk = true ∧ (with_ mem).here.canNumber = true ∧ (with_ mem).blockPlace ((with_ mem).sReg 1).toNat 128 128 .read = .ok (.spad 0x8000) ∧
      ok 4 mem = true ∧ ok 0 box = true ∧ ok 1 box = true := by
  unfold inOrder; decide +kernel

/-- A copy of that descriptor's kind, of so many bytes from the window's start to a place in it. -/
def copyOf (len dst : Nat) : Copy :=
  { core := 0, inst := 1, seq := 5, kind := 4, desc := cpDesc [(96, 8, win.toNat), (104, 8, win.toNat + dst), (112, 8, len)], asid := 0, shape := []
    shapeAddr := 0, map := 0, rows := [], pred0 := none, pred1 := none, again := false, engine := none, landed := [], bytes := 0, events := 0
    signalled := false }

/-- Core 0 with that copy alone. -/
def copying (c : Copy) : State := { st .sq with copies := [c], cur := ⟨0, 6, 5⟩ }

/-- A copy of two 64-byte chunks, of none, and one over its own source, forked and then under way with its first chunk or its last to
come; a signal to the task on core 0; a copy whose signal comes back. -/
theorem witness_CopiesProceed :
    let c := copyOf 128 0x1000
    let z := copyOf 0 0x1000
    let o := copyOf 128 64
    let d : Copy := { c with engine := some 1 }
    let e : Copy := { d with landed := [(0, 1)], bytes := 64 }
    let g : Signal := ⟨0, 0, win + 0xFFF8, true, 7⟩
    let forked (c : Copy) : Bool := decide (((copying c).core c.core).runs = true ∧ c.preds.all ((copying c).hasRetired c.inst) = true ∧
      ((copying c).core c.core).sys.det = false ∧ c.engine = none ∧ c.again = false ∧ c.isRemote = false ∧ c.doneKind = 0 ∧ c.recaddr = 0)
    let lands (d : Copy) (k : Nat) : Bool := decide ((copying d).copyItems d d.shapeRec = [] ∧ d.engine = some 1 ∧ d.signalled = false ∧ d.kept = [] ∧
      0 < d.len ∧ (d.dst % 64 + d.len + 63) / 64 = 2 ∧ d.fresh k 1 = true ∧ d.src + 64 * k + 64 ≤ 2 ^ 57 ∧ d.dst % 64 = 0 ∧
      window 0 ((copying d).core 0) (d.src + 64 * k) 64 = .ok (.spad (64 * k)) ∧
      window 0 ((copying d).core 0) (d.dst + 64 * k) 64 = .ok (.spad (0x1000 + 64 * k)))
    (forked c = true ∧ c.failing = none ∧ ((copying c).copyParts c c.shapeRec).length = 2 ∧ (copying c).selfOverlap c = false) ∧
      (forked z = true ∧ (copying z).copyParts z z.shapeRec = [] ∧ (copying z).copyWriting z = false ∧ (copying z).itemFault z z.shapeRec = none) ∧
      (forked o = true ∧ (copying o).copyParts o o.shapeRec ≠ [] ∧ (copying o).selfOverlap o = true ∧
        (copying o).commandRead 0 0 o.src o.len = .ok (List.replicate 128 0)) ∧
      (lands d 0 = true ∧ d.landedUnits + 1 < 2) ∧ (lands e 1 = true ∧ e.landedUnits + 1 = 2) ∧
      (copying c).accepts g.core = true ∧ (copying c).signalTarget g.core g.task = some 1 ∧ (copying c).coreOf 1 = some 0 ∧
      window 0 ((copying c).core 0) g.addr.toNat 8 = .ok (.spad 0xFFF8) ∧ BitVec.ofNat 32 (copying c).cur.unit = c.seq := by decide +kernel

/-- The state that a step goes on to. -/
def next (r : Res) : State :=
  match r with
  | .next t => t
  | _ => State.reset

/-- A package with a region of one page in its Moraine memory. -/
def moraine (mesh : Bool) (f : Core → Core) : State :=
  { st .sq f with
    hbm := [(0x10000, 1), (0x10002, 2), (0x20000, 1), (0x20002, 3), (0x30000, 0x5F)]
    regions := [⟨0, 63, 0x40000, 65536, 0, mesh⟩] }

/-- An empty tuple or pattern of tag 0, and a message that carries it from package 1. -/
def message (kind : MKind) (seq : BitVec 32) : MoraineMsg :=
  ⟨kind, 1, 0, 0, seq, 63, 0, homeSliceOf 63 0, List.replicate 8 0⟩

/-- A command of core 0's task. -/
def command (kind : MKind) (seq : BitVec 32) : MCmd :=
  { msg := { message kind seq with pkg := 0 }, inst := 1, mesh := false, preds := [], st := .flying, withdraw := false, withdrawn := false
    again := false, pc := win, sync := 0, group := 8 }

/-- The greatest group base; the first and the last credit; bags and tables with and without what an arrival looks for; each answer. -/
theorem witness_MoraineTupleSpace :
    let r (mesh : Bool) : MRegion := ⟨0, 63, 0x40000, 65536, 0, mesh⟩
    let z : List Word := List.replicate 8 0
    let rs (k : Core) : Core := { k with regs := { k.regs with s := [(1, 0x40000)] } }
    let s := moraine false rs
    let full := moraine false fun k => { rs k with mcmds := (List.range 16).map fun i => command .dep (BitVec.ofNat 32 i) }
    let waits := moraine false fun k => engOf .sq (fun x => { x with wait := some (.credit 8 0x4FFFF z) }) k
    let home (x : MSlice) : State := { moraine true id with slices := [(homeSliceOf 63 0, x)] }
    let u : MTuple := ⟨63, 5, false, message .dep 1⟩
    let sent := moraine false fun k => { k with mcmds := [command .rd 7] }
    let back := { moraine false fun k => { engOf .sq (fun x => { x with wait := some (.tuple 7 8 false) }) k with mcmds := [command .rd 7] } with
      mreplies := [⟨0, 0, 0, 7, .tuple 5 z⟩] }
    let tried := moraine false fun k => { engOf .sq (fun x => { x with wait := some (.tried 7 63 8) }) k with
      mcmds := [{ command .tryRd 7 with msg := { (command .tryRd 7).msg with home := 1 } }] }
    let acked := { moraine false fun k => { k with mcmds := [command .dep 7] } with mreplies := [⟨0, 0, 0, 7, .acked⟩] }
    inOrder s .sq ∧ s.here.canNumber = true ∧ s.here.credits = 16 ∧ full.here.credits = 0 ∧ s.moraineCheck true 1 56 [56] = .ok (r false, z) ∧
      full.moraineCheck true 1 1 [1] = .error .illegal ∧ full.moraineCheck true 1 8 [8] = .ok (r false, z) ∧
      inOrder waits .sq ∧ (waits.en .sq).wait = some (.credit 8 0x4FFFF z) ∧ waits.here.runs = true ∧ waits.here.credits ≠ 0 ∧
      waits.regionOf 0x4FFFF = .ok (r false) ∧ s.moraineCheck false 1 56 [56, 8] = .ok (r false, z) ∧ s.moraineCheck false 1 8 [8] = .ok (r false, z) ∧
      (∀ k ∈ [MKind.rd, MKind.withdraw, MKind.dep, MKind.tryDep],
        (home ⟨6, [u], [], []⟩).forSlice (message k 7) = true) ∧ issuedNo (message .rd 7).seq 8 = false ∧
      (home ⟨6, [u], [], []⟩).regions.find? (fun q => decide (q.rid = 63) && (decide ((1 : BitVec 48) = (home ⟨6, [u], [], []⟩).package) || q.mesh)) = some (r true) ∧
      ((home ⟨6, [u], [], []⟩).mslice (homeSliceOf 63 0)).bag.find? (fun t => decide (t.rid = 63) && tupleMatches t.dep.words z) = some u ∧
      ((home ⟨6, [], [], []⟩).mslice (homeSliceOf 63 0)).bag.find? (fun t => decide (t.rid = 63) && tupleMatches t.dep.words z) = none ∧
      (home ⟨6, [], [], []⟩).regionFull (r true) = false ∧ (home ⟨6, List.replicate 1024 u, [], []⟩).regionFull (r true) = true ∧
      tupleMatches z z = true ∧ MKind.takes .take = true ∧ MKind.deposits .rd = false ∧
      s.arrivingOwn false 0 = none ∧ sent.arrivingOwn false 0 = some (0, command .rd 7) ∧
      (sent.earlier (command .rd 7)).all (fun e => decide (e.st ≠ .unsent ∧ e.st ≠ .bounced)) = true ∧
      ({ moraine false fun k => { k with mcmds := [{ command .rd 7 with st := .unsent }] } with cur := ⟨0, 6, 7⟩ } : State).mayMoraineSend 0
        { command .rd 7 with st := .unsent } = true ∧
      inOrder back .sq ∧ back.answered ⟨0, 0, 0, 7, .tuple 5 z⟩ = some (command .rd 7) ∧ groupOk (command .rd 7).group = true ∧
      (back.en .sq).wait = some (.tuple 7 8 false) ∧ back.here.runs = true ∧ back.here.inst = 1 ∧ back.mreplies.head? = some (⟨0, 0, 0, 7, .tuple 5 z⟩ : MoraineRep) ∧ inOrder tried .sq ∧
      (tried.answered ⟨0, 0, 0, 7, .noMatch⟩).isSome = true ∧ acked.answered ⟨0, 0, 0, 7, .acked⟩ = some (command .dep 7) := by
  unfold inOrder
  and_intros <;> decide +kernel

/-- Tensor 0 mapped by map register 0, with elements of 8 bits. -/
def mapped (f : Core → Core) : State :=
  { st .sq (fun k => f { k with tcb := { k.tcb with shapebase := win } }) with
    spad := [(0, 1), (1, 10), (2, 128), (9, 0x10), (13, 0xFF), (14, 0xFF), (15, 0x01), (24, 32), (48, 1), (88, 32)] }

/-- The same with the places of a reshard in its registers: the destination buffer and the completion block. -/
def resharding : State := mapped fun k => { k with regs := { k.regs with s := [(2, win + 0x2000), (3, win + 0xFFC0)] } }

/-- The same after the reshard's issue. -/
def reshardIssued : State := next (exec (.rshd 4 0 2 3 0 1 0) resharding)

/-- Its reshard, changed by f, at a state with the cursor at it. -/
def reshardAt (f : Reshard → Reshard) : State := { reshardIssued with reshards := reshardIssued.reshards.map f, cur := ⟨0, 6, 0⟩ }

/-- A map at the window's start and its last place; a dimension word and the PARTIAL byte; a plan of no step; a reshard before and after
its start, with its last tile to come, complete and switched. -/
theorem witness_MapsAndReshards :
    let s := resharding
    let w (a : Word) : State := mapped fun k => { k with regs := { k.regs with s := [(1, a)] } }
    let tiling (s : State) : Option Tiling := s.reshards.head?.bind s.tiling
    let busy := reshardAt fun r => { r with started := true, landed := [(0, 31)] }
    let full := reshardAt fun r => { r with started := true, landed := [(0, 32)] }
    let late : State := { reshardAt fun r => { r with absent := [1] } with absent := [1] }
    let hid := reshardAt fun r => { r with shown := false, writes := [] }
    let sws := reshardAt fun r => { r with switched := true }
    let plan := (s.reshardPlan 0 0 1).toOption
    inOrder s .sq ∧ (w (win + 0x8000)).blockCheck (win.toNat + 0x8000) 32 32 .read = .ok () ∧ mapReservedOk 0 = true ∧
      s.mapLocked 0 0 = false ∧ (w (win + 0xFFE0)).windowOperand (win.toNat + 0xFFE0) 32 32 = .ok 0xFFE0 ∧
      mapReservedOk (0x0F#256 <<< 192) = true ∧ mapReservedOk 0x31#256 = true ∧ elemOf 8 (0x0F#256 <<< 192).toNat 24 = 15 ∧
      (s.readShape 0).toOption.map (fun x => mapValid s.mesh x.1 0) = some true ∧ s.windowOperand (win.toNat + 2) 1 1 = .ok 2 ∧
      s.conflicts .sq [(2, 3)] true = false ∧ s.lockOf (s.recKey win.toNat) = none ∧ s.blockCheck win.toNat 128 1 .read = .ok () ∧
      plan.map (fun p => p.2.2.2.1.length) = some 0 ∧ plan.map (fun p => profFault p.1 p.2.2.2.1 0) = some none ∧
      s.windowOperand (win.toNat + 0x2000) 16 16 = .ok 0x2000 ∧ s.here.canNumber = true ∧ s.here.predsOk = true ∧
      s.windowOperand (win.toNat + 0xFFC0) 64 32 = .ok 0xFFC0 ∧ plan.map (fun p => s.destCheck (win.toNat + 0x2000) (localBytes s.mesh p.1 0)) = some none ∧
      s.here.sys.det = false ∧ reshardIssued.reshards.length = 1 ∧
      (reshardIssued.reshards.head?.map fun r => (reshardIssued.reshardBy r.core r.seq == some r) && reshardIssued.allIssued []) = some true ∧
      (tiling busy).map (fun x => decide (localCount busy.mesh x.t 0 = 32 ∧ x.index 31 = some [31] ∧ x.scatter = []) &&
        decide (x.sources [31] = [busy.self] ∧ (busy.ownTerm x [31]).toOption = some 0)) = some true ∧
      window 0 (busy.core 0) (win.toNat + 0x2000 + 31) 1 = .ok (.spad 0x201F) ∧
      (busy.reshards.head?.map fun r => (r.hasLanded 31, r.dst)) = some (false, win.toNat + 0x2000) ∧
      (full.reshards.head?.map fun r => (BitVec.ofNat 32 full.cur.unit == r.seq, (r.landed.map fun p => p.2 - p.1).sum)) = some (true, 32) ∧
      (∀ r ∈ full.reshards, full.coreOf r.inst = some 0) ∧ late.reshards.all (fun r => decide (r.absent ≠ [] ∧ r.faulted = []) && r.absent.all late.absent.contains) = true ∧
      s.level = .full ∧ s.here.sys.urgent = false ∧ s.writesUnderWay 0 = ([], [], []) ∧ hid.reshards.all (fun r => !r.shown && hid.writesDone r) = true ∧
      reshardIssued.reshards.all (fun r => r.shown && !r.started && decide (r.absent = [] ∧ r.faulted = [])) = true ∧
      (∀ r ∈ busy.reshards, busy.cmdCore r.inst r.core = 0) ∧ sws.reshards.all (fun r => !sws.sourceReads r && r.switched && !r.isHeld) = true ∧
      full.reshards.all (fun r => !r.isHeld) = true ∧ (∀ r ∈ busy.reshards, busy.imageOf r.inst (r.dst + 31) = none) := by
  unfold inOrder
  and_intros <;> decide +kernel

/-- The map word's condition at each dimension and at PARTIAL, for the map that reads 0. -/
theorem witness_mapset : ∀ d : BitVec 3, d ≠ 7 →
    let lo := if d = 6 then 24 else 4 * d.toNat
    let n := if d = 6 then 1 else 4
    ∀ j, j < 32 → elemOf 8 (0 : BitVec 256).toNat j = if lo ≤ j ∧ j < lo + n then 0 / 256 ^ (j - lo) % 256 else elemOf 8 (0 : BitVec 256).toNat j := by
  decide +kernel

/-- A group of one member, and a broadcast of 32 elements of 8 bits in one chunk. -/
def grouped : State :=
  { regs .sq [(1, 0x40000), (2, 0x41000), (3, 15)] with
    hbm := [(0x10000, 1), (0x10002, 2), (0x20000, 1), (0x20002, 3), (0x30000, 0x1F), (0x40004, 1), (0x41000, 5), (0x41001, 15), (0x41002, 10),
      (0x41009, 0x20), (0x4100A, 4), (0x41011, 0x30), (0x41012, 4), (0x41018, 32), (0x41020, 32)] }

/-- The same with the group installed, and then with the call issued. -/
def installed : State := next (exec (.clgrp 0 1 3) grouped)
def called : State := next (exec (.clrun 4 2) installed)

/-- Its call, changed by f. -/
def callAt (f : Call → Call) : State := { called with calls := called.calls.map f, cur := ⟨0, 6, 0⟩ }

/-- Slot 15; a call of one member in each of its stages. -/
theorem witness_CollectiveCalls :
    let h := grouped.load 0x40000 64
    let d := installed.load 0x41000 128
    let read (s : State) : State := next (exec (.chunkSend 0 0 0) s)
    let started := callAt fun c => { c with started := true }
    let sent := read started
    let done := next (exec (.callDelivery 0 0 0 []) sent)
    let absent : State := { callAt fun c => { c with absent := [1] } with absent := [1] }
    let sums := callAt fun c => { c with desc := c.desc.set 0 0, started := true, own := [(0, List.replicate 32 0, [])] }
    (sums.calls.all fun c => c.reduces && (c.needs 0).all fun j => (c.contributions 0 [] j).isSome) = true ∧ inOrder grouped .sq ∧ installed.here.sys.urgent = false ∧ installed.here.predsOk = true ∧ called.calls.all (fun c => decide (c.faulted = [])) = true ∧
      inScratch 0x40000 = false ∧ grouped.blockCheck 0x40000 64 64 .read = .ok () ∧ groupHeaderOk h.1 = true ∧
      fieldAt h.1 4 2 = 1 ∧ grouped.blockCheck 0x40040 8 8 .read = .ok () ∧ grouped.membersOk [0] 0 = true ∧
      inOrder installed .sq ∧ installed.here.canNumber = true ∧ installed.blockCheck 0x41000 128 128 .read = .ok () ∧ callDescOk d.1 = true ∧
      (installed.groupOf installed.here.inst 15).isSome = true ∧
      ((installed.groupOf 1 15).map fun g => (d.2.prepareCall d.1 g).toOption.isSome) = some true ∧ installed.here.sys.det = false ∧
      called.calls.length = 1 ∧ called.calls.all (fun c => called.callBy 0 0 == some c && !called.callHeld c && c.allShown [] && c.sends &&
        decide (c.chunkCount = 1) && !c.counted) = true ∧
      (started.calls.all fun c => (((started.performSource c.asid c.src 32 (c.core :: started.taskCores c.inst).eraseDups).readElems 0 0 c.src 8 0 32).toOption.isSome) &&
        decide (c.fmt = .i8)) = true ∧
      (sent.calls.all fun c => (c.arrived 0 [] 0).isSome && decide (c.needs 0 = [0]) && decide (c.own.length = 1)) = true ∧
      (done.calls.all fun c => decide (c.chunkCount ≤ c.complete.length) && decide (done.coreOf c.inst = some 0)) = true ∧ done.calls.length = 1 ∧
      (absent.calls.all fun c => decide (c.absent ≠ [] ∧ c.faulted = []) && c.absent.all absent.absent.contains && decide (absent.coreOf c.inst = some 0) && (absent.callBy 0 0 == some c)) = true := by
  unfold inOrder; decide +kernel

/-- A packet of member data, or of a reshard, with one entry: its port and its operation; its blocks follow. -/
def packet (type : BitVec 8) (port op : Nat) (blocks : List Payload) : Packet :=
  { type := type, ch := 2, len := payloadFlits .f32 blocks, sseq := 0, sid := 0, nhop := 1, rsv := 0, call := 0, gtag := 0, chunk := 0
    route := BitVec.ofNat 16 (op * 64 + port) :: List.replicate 7 0, addr := 0, aux := 0, payload := blocks }

/-- Packets under each operation, with a sound block or one whose residue does not fit; a port that is up, one that trains, a failed link alone
and beside a good port, a packet behind an earlier one; a call that has its block and one that has not; inputs that an adder keeps. -/
theorem witness_FabricHopsAndLinks :
    let good : Port := ⟨2, false, false, 0, 0⟩
    let up : State := { st .sq with ports := [(47, good)], mesh := 1 }
    let dead : State := { st .sq with ports := [(47, { good with st := 3 })] }
    let other : State := { st .sq with ports := [(0, good), (47, { good with st := 3 })] }
    let p (op : Nat) : Packet := packet 4 (if op = 3 then 0 else 47) op []
    let late (op : Nat) : State := { up with hub := [{ p op with sseq := 8 }, p op] }
    let b : WireBlock := (Net.toBlock []).1
    let x := packet 4 47 1 [.block b]
    let y := packet 4 47 1 [.block { b with res := b.res + 1 }]
    let reducing : State := { callAt fun c => { c with desc := c.desc.set 0 0, own := [(0, List.replicate 32 0, [])] } with ports := [(47, good)] }
    let k : HopKept := ⟨47, .f32, x, [.block b], false⟩
    let again : State := { up with kept := [{ k with redo := true }] }
    ([0, 1, 2, 3].all fun op => packetActs (p op) op) = true ∧ packetActs x 1 = true ∧ packetActs y 1 = true ∧
      ((up.port 47).st = 2 ∧ (up.port 47).failed = false ∧ up.behind (p 0) = false ∧ up.behind (p 2) = false ∧ up.behind (p 3) = false) ∧
      ([0, 2, 3].all fun op => (late op).behind (p op)) = true ∧ ((st .sq).port 47).st ≠ 2 ∧ ((st .sq).port 47).down = false ∧
      ((dead.port 47).st ≠ 2 ∧ dead.goodPorts = []) ∧ ((other.port 47).down = true ∧ other.goodPorts = [0] ∧ other.behind (p 0) = false) ∧
      (x.payload.all Net.sound = true ∧ (reducing.hopTerm x).isSome = true ∧ reducing.behind x = false ∧ (reducing.port 47).st = 2) ∧
      up.hopTerm x = none ∧ y.payload.all Net.sound = false ∧ ({ up with kept := [k] } : State).kept.find? (fun k => decide (k.port = 47) && !k.redo) = some k ∧
      again.kept.find? (fun k => k.redo && decide (k.input = x)) = some { k with redo := true } ∧ again.behind x = false ∧
      coordOk up.mesh 1 = true ∧ 1 ≠ up.package := by
  decide +kernel

/-- A launch of one kernel on core 0 alone: its text is the page at 0x40000, and it has no record and no completion object. -/
def kernelDesc : List Byte := Bank.getRun 0 [(2, 4), (18, 4), (26, 5), (32, 1)] 0 64

/-- Near-memory core 0 at one word of that text. -/
def kernelAt (w : Nat) : State :=
  { st .sq with
    hbm := [(0x10000, 1), (0x10002, 2), (0x20000, 1), (0x20002, 3), (0x30000, 0x1F)] ++ (Bank.setRun 0 [] 0x40000 (toBytes 4 w))
    cur := ⟨0, 6, 0⟩
    launches := [⟨0, 1, 0, 0, 0, kernelDesc, [], 0, 1, [], 0⟩]
    nmcs := [(0, { launch := some (1, 0), pc := 0x40000, x := [(1, 0x40FF8)] })] }

/-- A launch as nmrun takes it, as a core starts it and as its last core ends it; words that a kernel runs, with the last datum of its
window, and an address outside. The stack that holds a page is the device's. -/
theorem witness_NearMemoryLaunches :
    let q : State := { regs .sq [(1, win)] with spad := [(2, 4), (18, 4), (26, 5), (32, 1)] }
    let l : Launch := ⟨0, 1, 0, 0, 0, kernelDesc, [], 1, 0, [], 0⟩
    let w : State := { st .sq with cur := ⟨0, 6, 0⟩, launches := [l] }
    let e : State := { kernelAt 0 with nmcs := [(0, { launch := some (1, 0), ended := some .ecall })] }
    let cx (s : State) : Rv.Ctx := ⟨s, s.nmc 0, 0, 0, 0x40000, 0x50000⟩
    inOrder q .sq ∧ q.here.canNumber = true ∧ q.launchQueue < 64 ∧ q.blockCheck win.toNat 64 64 .read = .ok () ∧
      (q.load win.toNat 64).1 = kernelDesc ∧ launchDescOk kernelDesc = true ∧ fieldAt kernelDesc 24 8 ≤ 2 ^ 57 ∧ q.here.sys.urgent = false ∧ q.here.predsOk = true ∧
      q.launchOf 0 = none ∧ (kernelAt 0).launchOf 0 = some { l with waiting := 0, running := 1 } ∧ (kernelAt 0).coreOf 1 = some 0 ∧
      (w.nmc 0).launch = none ∧ w.launches.find? (fun l => bit l.waiting 0 && l.preds.all (w.hasRetired l.inst)) = some l ∧
      (e.nmc 0).ended = some .ecall ∧ (1 : BitVec 24) &&& ~~~maskBit 0 = 0 ∧ Rv.fetch (cx (kernelAt 0x00108093)) = .ok (0x00108093, 4) ∧
      Rv.fetch (cx (kernelAt 0x0000B103)) = .ok (0x0000B103, 4) ∧ Rv.fetch (cx (kernelAt 0x73)) = .ok (0x73, 4) ∧
      Rv.fetch { cx (kernelAt 0) with lo := 0x50000 } = .error (.nmcWindow, 0x40000) ∧
      (Config.stack 4 = 0 → Rv.place (cx (kernelAt 0x0000B103)) .read 0x40FF8 8 = .ok 0x40FF8) := by
  unfold inOrder
  and_intros
  rotate_right
  · intro h
    have t : Rv.page ⟨kernelAt 45315, (kernelAt 45315).nmc 0, 0, 0#12, 262144, 327680⟩ .read 266232 = .ok ⟨0x40FF8, 0x40FF8, 0, 7⟩ := by decide +kernel
    simp [Rv.place, t, h]
  all_goals decide +kernel

/-- A pre-empted task of core 0 whose save area is all zeros. -/
def savedTask (ready : Bool) : Saved := ⟨0, true, false, ready, 0x80000, 1, .renq 0, 0, 0, 0, 0, [], [], 0, [], [], 0, []⟩

/-- A pool of one has one choice. -/
theorem pick_of_one (s : State) (c : Nat) (v : Saved) (h : (s.core c).phase = .idle) (a : s.accepts c = true) (r : s.returnsFor c true = [v]) :
    s.pickTask c = some (.back v) := by
  simp [State.pickTask, State.pickClass, h, a, r, Nat.mod_one]

/-- One event with a handler; an abandoned task with nothing left; an urgent task with a class-1 entry behind it; a save, and a resumption from the
area of zeros; a resume slot whose area is zeros. -/
theorem witness_EventsAndPreemption :
    let s := st .sq fun k => sysOf (fun y => { y with trapvec := 1 }) { k with events := [⟨7, 8⟩] }
    let gone := st .sq fun k => { k with phase := .abandoning 3 false }
    let due := st .sq fun k => sysOf (fun y => { y with urgent := true }) { k with queue1 := [queued] }
    let ending : State := { due with copies := [copyOf 128 0x1000] }
    let saving := { st .sq fun k => { k with phase := .saving } with saved := [savedTask false] }
    let idle : State := { st .sq with cores := [], saved := [savedTask true], parts := [(0, ⟨1, 5, true, true, 0, 0⟩)] }
    s.here.events = [⟨7, 8⟩] ∧ s.here.phase = .running ∧ s.here.tmask = false ∧ s.here.finishing none = false ∧
      s.here.trapHeld = none ∧ s.here.requesting = false ∧
      gone.here.phase = .abandoning 3 false ∧ gone.here.live = [] ∧ gone.here.nests = [] ∧ gone.withdrawing gone.here.inst = false ∧ gone.copies = [] ∧
      due.preemptAt.isSome = true ∧ due.here.pend = [] ∧ due.here.nests = [] ∧ ending.copies.all (fun d => !ending.copyEnding d) = true ∧
      ending.preemptAt.isSome = true ∧
      saving.saved.find? (fun v => decide (v.core = saving.cur.core) && !v.ready && !v.fixed) = some (savedTask false) ∧
      saving.here.phase = .saving ∧ saving.withdrawing 1 = false ∧ idle.here.phase = .idle ∧ idle.accepts 0 = true ∧ idle.returnsFor 0 true = [savedTask true] ∧ idle.yieldsTo 0 (savedTask true) = false ∧
      readTcb ((Bank.getRun 0 idle.hbm 0x80000 4096).take 64) = some Tcb.zero ∧ fieldAt (Bank.getRun 0 idle.hbm 0x80000 4096) (dirAt 6 + 4) 4 = 0 ∧
      readTcb (Bank.getRun 0 (st .sq).hbm 0 64) = some Tcb.zero := by
  decide +kernel

/-- The last slot and the last entry; a mesh of one package; the smallest purge; the window's last bytes. -/
theorem witness_ControlNodeWrites :
    let p : Part := ⟨1, 5, true, true, 3, 0⟩
    let e : List Byte := Bank.getRun 0 [(0, 1), (5, 5), (7, 3), (8, 3)] 0 64
    let s : State := { st .sq with parts := [(63, p)], cores := [] }
    let held : State := { s with slots := [(63, ⟨[], true, 7⟩)] }
    let n : State := { st .sq with cores := [] }
    let m := moraine false id
    let d : List Byte := Bank.getRun 0 [(2, 4), (10, 1), (18, 63)] 0 32
    let b : State := { st .sq with winVa := BitVec.ofNat 64 clusterWindow }
    readTcb ((s.slot 63).block ++ List.replicate (64 - (s.slot 63).block.length) 0) = some Tcb.zero ∧ (s.slot 63).busy = false ∧
      s.part 63 = p ∧ s.accepts 3 = true ∧ s.queueRoom 3 false = true ∧ (held.slot 63).busy = true ∧ held.queueRoom 3 false = true ∧
      partOfBytes e = some p ∧ n.partOk 63 p = true ∧ n.serves = true ∧ meshOk 0 0 = true ∧ regionOfBytes 63 d = some ⟨63, 63, 0x40000, 65536, 0, false⟩ ∧
      m.regionOk ⟨63, 63, 0x40000, 65536, 0, false⟩ = false ∧ { m with regions := [] }.regionOk ⟨63, 63, 0x40000, 65536, 0, false⟩ = true ∧
      (0x40000 : Nat) % 2 ^ 16 = 0 ∧ n.log.held = [] ∧ n.log.tail ≤ 0 ∧ 0 ≤ n.log.head ∧ n.level ≠ .boot ∧
      clusterWindow ≤ b.winVa.toNat + 0xFFF8 ∧ b.winVa.toNat + 0xFFF8 + 8 ≤ clusterWindow + windowSize ∧
      (Bank.get ⟨0, false⟩ n.resumes 159 : ResumeSlot).busy = false := by
  decide +kernel

/-- The flash page's own version and one below it; every unit trained; one clock step from the last; entries of a write buffer and of a combining buffer. -/
theorem witness_LevelsAndOwnTime :
    let t : State := { State.reset with level := .reduced, hbmUp := BitVec.allOnes 12, ports := (List.range 48).map fun n => (n, ⟨2, false, false, 0, 0⟩) }
    let f : State := { State.reset with flash := 1 }
    let b : BufStore := ⟨0, 0, 2048, 0x40000, [(0, 0x107)], none, 0, 0, false⟩
    let l := heldAccess 3 8 2 none [1, 2]
    let q : State := st .sq fun k => { k with late := [l, heldAccess 4 16 8 (some (.n64, 9)) []] }
    let torn (e : Eng) (w : Wait) : State := st e (engOf e fun x => { x with wait := some w })
    let part := torn .ld (.tornLoad (.v 383) (ones 8192) 7 [(4, win.toNat, 4)])
    let left := torn .st (.tornStore ([(8, [1, 2])].map fun x => ⟨.spad x.1, x.2, false, none⟩) 0 none)
    let s : State := { st .sq fun k => { k with wc := [⟨0, 2048, 0x40000, [(0, 0x107)], none⟩] } with dies := [(7, ⟨[], [b], [], 1, []⟩)], clock := 126 }
    f.flash ≤ 1 ∧ 0 < f.flash ∧ 160 ≤ (List.range 161).length ∧ (List.range 161).Nodup ∧ 160 < (List.range 161).length ∧ mapOk [0] = false ∧ t.hbmUp = BitVec.allOnes 12 ∧
      (∀ n, n < 48 → 2 ≤ (t.port n).st) ∧ s.serves = true ∧ 125 < s.clock ∧ (s.die 7).buf[0]? = some b ∧ b.gen = none ∧
      (s.core 0).wc[0]? = some ⟨0, 2048, 0x40000, [(0, 0x107)], none⟩ ∧ (q.core 0).late[0]? = some l ∧ l.after = [] ∧
      ((q.core 0).late.map fun x => x.id).Nodup ∧ inOrder part .ld ∧
      (part.en .ld).wait = some (.tornLoad (.v 383) (ones 8192) 7 [(4, win.toNat, 4)]) ∧
      (left.en .st).wait = some (.tornStore ([(8, [1, 2])].map fun x => ⟨.spad x.1, x.2, false, none⟩) 0 none) := by
  unfold inOrder
  and_intros <;> decide +kernel

/-- A core whose first word is this one, with its sequencer next in the agenda; and the state at that engine. -/
def about (w : Word) (timed : Bool) : State :=
  { st .sq (sysOf fun y => { y with timed := timed }) with spad := Bank.setRun 0 [] 0 (toBytes 8 w.toNat), agenda := [.engine 0 .sq] }
def arrived (s : State) : State := { s.tick with agenda := [], cur := ⟨0, 0, s.cur.unit⟩ }

/-- An engine that the cursor comes to by the agenda and by its rotation, at a word of its own, at a word of another engine and at a word that is
no instruction; a load held back that a later word may pass and one that it may not; an event of the agenda. -/
theorem witness_StepRunsTheDecodedInstruction :
    let add := arrived (about 0x0001010400000004 false)
    let free (u : State) : Bool := decide (u.level = .full ∧ u.cur.core < 160 ∧ u.engHere = .sq ∧ u.here.phase = .running ∧ u.here.trapHeld = none ∧ u.here.eventHeld = false ∧ u.here.late = [] ∧ u.passOk .sq = true ∧
      (u.en .sq).owed = 0 ∧ (u.en .sq).owedCtl = [] ∧ u.here.nestPushReady = false ∧ u.here.slipOk .sq (u.here.cyc + 1) = true) &&
        Eng.all.all fun f => (u.en f).wait.isNone
    let word (u : State) : Word := match fetchWord u u.cur.core (u.en .sq).pc with | .ok w => w | .error _ => 0
    let turn : State := { about 0 false with agenda := [], cur := ⟨0, 4, 0⟩ }
    (about 0 false).agenda = [.engine 0 .sq] ∧ turn.cur.slot < 5 ∧ ([0x0001010400000004, 0x801030502C186000, -1].all fun w =>
      free (arrived (about w false)) && decide (word (arrived (about w false)) = w)) = true ∧
      decodeWord 0x0001010400000004 = .ok (0, .addi 4 4 4) ∧ tagOf 0x0001010400000004 = Eng.sq.tag ∧
      genWaits (add.fetched 0 win.toNat) 0 .sq ((add.fetched 0 win.toNat).en .sq).walk (.addi 4 4 4) = false ∧
      (add.fetched 0 win.toNat).here.canPop 0 0 = true ∧ tagOf 0x801030502C186000 = 4 ∧ (∃ x, decodeWord (-1) = .ok (1023, .unassignedEncoding x)) ∧
      ({ st .sq with agenda := [.event 0 7 .moraineResend] } : State).agenda = [.event 0 7 .moraineResend] ∧ (st .sq).level ≠ .halted ∧
      standsBefore (.addi 4 4 4) 0 (heldAccess 0 16 8 (some (.n64, 9)) []) = false ∧
      standsBefore (.addi 4 4 4) 0 (heldAccess 0 16 8 (some (.n64, 4)) []) = true ∧ numbered (.addi 4 4 4) = false := by
  and_intros
  all_goals first | exact ⟨_, rfl⟩ | decide +kernel

/-- In timed mode: the other engines stand at a `nop` that issues later. -/
theorem witness_StepRunsTheDecodedInstruction_timed :
    let s : State := { st .sq (fun k => Eng.all.foldl (fun k f => if f = .sq then k else k.onEn f fun x => { x with pc := x.pc + 8, walk := 1 })
      (sysOf (fun y => { y with timed := true }) k)) with
        spad := Bank.setRun 0 [] 0 (toBytes 8 0x0001010400000004 ++ toBytes 8 0xC028800000000000), agenda := [.engine 0 .sq] }
    let v := (arrived s).fetched 0 win.toNat
    fetchWord (arrived s) 0 ((arrived s).en .sq).pc = .ok 0x0001010400000004 ∧ meets (.addi 4 4 4) = false ∧ v.here.sys.timed = true ∧
      v.here.sys.det = false ∧ issueCycle v 0 .sq 0 (.addi 4 4 4) = 1 ∧ v.here.slipOk .sq 1 = true ∧
      genWaits v 0 .sq (v.en .sq).walk (.addi 4 4 4) = false ∧ isFirst v 0 .sq 1 = true ∧ (v.catchUp 0 1).here.nestFirst 1 = false := by
  decide +kernel

theorem witness_DecodeReadsWhatEncodeWrites :
    Instr.ok (.addi 4 4 4) = true ∧ encode 0x3FF (.addi 4 4 4) = some 0x1FF9010400000004 ∧ (∀ x, Instr.addi 4 4 4 ≠ .unassignedEncoding x) := by
  refine ⟨by decide +kernel, by decide +kernel, fun _ h => by cases h⟩

theorem witness_StepKeepsMemoryCanonical :
    let s := st .sq
    s.memWf = true ∧ ∃ t, step s = .next t := ⟨by decide +kernel, _, rfl⟩

theorem witness_EveryWordOfTheTextAnswersNext : decodeWord 0xC000800000000000 = .ok (0, .nop) := by decide +kernel

/-! Values that the spec's worked examples state -/

/-- 04_numbers_notes.md, the table of edge conversions. -/
theorem test_round_to_edges :
    let r (f : Fmt) (rm : RMode) (n d : Nat) : Nat × Flags := roundFloat (Fmt.float f) rm 0 (Fn.quo (Exact.ofInt n) (Exact.ofInt d))
    r .e4m3 .rne 449 1 = (0x7E, Flags.inexact) ∧ r .e4m3 .rne 464 1 = (0x7E, Flags.inexact) ∧
      r .e4m3 .rne 465 1 = (0x7E, Flags.overflow ||| Flags.inexact) ∧ r .e5m2 .rne 60000 1 = (0x7B, Flags.inexact) ∧
      r .e5m2 .rne 63000 1 = (0x7C, Flags.overflow ||| Flags.inexact) ∧ r .e5m2 .rtz 63000 1 = (0x7B, Flags.inexact) ∧
      r .e5m2 .rne 61440 1 = (0x7C, Flags.overflow ||| Flags.inexact) ∧ r .bf16 .rne 1 (2 ^ 134) = (0, Flags.underflow ||| Flags.inexact) := by
  decide +kernel

/-- 04_numbers_notes.md, the table of zeros (R51). -/
theorem test_signed_zeros :
    let v (c : Nat) : Exact := FloatFmt.f32.value c
    let s (l : List Nat) : Nat × Flags := roundFloat .f32 .rdn 0 (Exact.sum (l.map v)).1
    s [0x3FC00000, 0xBFC00000] = (0, 0) ∧ s [0x80000000, 0x80000000] = (0x80000000, 0) ∧ s [0x80000000, 0] = (0, 0) ∧ s [] = (0, 0) := by
  decide +kernel

/-- 14_vector_notes.md, single-lane results: `vadd.bf16`, `vadd.bf16.rup`, `vadd.i8` and `vadds.i8`, and their flags. -/
theorem test_vector_elements :
    let s := st .ve fun k => { k with regs := { k.regs with v := [(2, 0x3F80), (3, 0x3B80), (4, 100), (5, 50)] } }
    let r (i : Instr) (w : Nat) : Nat × Flags := let t := next (exec i s); (elemOf w (t.vReg 1).toNat 0, t.here.sys.flags)
    r (.vadd ⟨1, 2, 3, 0, .bf16, .rne, 0⟩) 16 = (0x3F80, Flags.inexact) ∧ r (.vadd ⟨1, 2, 3, 0, .bf16, .rup, 0⟩) 16 = (0x3F81, Flags.inexact) ∧
      r (.vadd ⟨1, 4, 5, 0, .i8, .rne, 0⟩) 8 = (0x96, 0) ∧ r (.vadds ⟨1, 4, 5, 0, .i8, .rne, 0⟩) 8 = (0x7F, Flags.saturate) := by
  decide +kernel

/-- 13_vector.md, R203: `vli.f32 v1, 0x7F80` writes 1.5 to every element. -/
theorem test_vli :
    let t := next (exec (.vli ⟨1, 0, 0, .f32, 0x7F80⟩) (st .ve))
    elemOf 32 (t.vReg 1).toNat 0 = 0x3FC00000 ∧ elemOf 32 (t.vReg 1).toNat 255 = 0x3FC00000 := by decide +kernel

/-- 14_vector_notes.md, one register under three profiles (R207, R208). -/
theorem test_vredsum_profiles :
    let one (e : Nat) : Nat := 0x3F800000 * 2 ^ (32 * e)
    let x : VReg := BitVec.ofNat 8192 (0x4B800000 + ([32, 64, 96, 128, 160, 192, 224].map one).sum)
    let s := st .ve fun k => { k with regs := { k.regs with v := [(6, x)] } }
    let r (p : BitVec 4) (row : Bool) (e : Nat) : Nat := elemOf 32 ((next (exec (.vredsum ⟨5, 6, 0, 0, .f32, p, row⟩) s)).vReg 5).toNat e
    r 1 false 255 = 0x4B800000 ∧ r 2 false 0 = 0x4B800004 ∧ r 3 false 7 = 0x4B800000 ∧ r 1 true 31 = 0x4B800000 ∧ r 1 true 32 = 0x3F800000 := by
  decide +kernel

/-- 14_vector_notes.md, the defined reciprocal square root at 2 and at 0.5 (R213). -/
theorem test_vrsqrt : Fn.rsqrt (Fn.val 0x40000000) = (0x3F3504F3, 0) ∧ Fn.rsqrt (Fn.val 0x3F000000) = (0x3FB504F3, 0) := by decide +kernel

/-- 18_flurry_notes.md, blocks of a stream: 256 draws on from 128 short of the carry (R248). -/
theorem test_gskip_carries :
    let g : Gen := ⟨BitVec.ofNat 512 (0x2FFFFFFFFFFFFFF80 * 2 ^ 128), none⟩
    let s := st .sq fun k => { k with regs := { k.regs with s := [(8, 256)], g := [(3, g)] } }
    let t := next (exec (.gskip 3 8 0) s)
    (Bank.get Gen.zero t.here.regs.g 3).field 16 16 = 0x30000000000000080 := by decide +kernel

/-- 25_sharding.md, the plan of an 8 x 8 tensor on a 2 x 2 mesh (R338 to R340). -/
theorem test_plan_image :
    let t : Shape := { recVa := 0, rank := 2, fmt := .f32, mapb := 128, permit := false, genchk := false, blkdim := 0, base := 0, scale := 0
                       ext := [8, 8], strd := [8, 1], boundn := 32, fill := 0, gen := 0, hseed := 0 }
    let ms : BitVec 256 := 1#256 ||| (2#256 <<< 192)
    let md : BitVec 256 := 0x42#256 <<< 32
    (Plan.plan 0x1001 t ms md).map (fun p => (Plan.image md p).map BitVec.toNat) =
      some ([2, 0, 0, 0, 0, 0, 0, 0, 0x80, 1, 0, 0, 0, 0, 0, 0] ++ [1, 2, 0xFF, 1, 0, 0, 0, 0, 0, 1, 0, 0, 0, 0, 0, 0] ++
        [2, 1, 0, 1, 0, 0, 0, 0, 0x80, 0, 0, 0, 0, 0, 0, 0]) := by decide +kernel

/-! Single steps whose results follow from the rules by hand -/

/-- R101: addition wraps; R103: the quotient by zero and the one overflow of a signed quotient; R69: s0 discards. -/
theorem test_scalar_corners :
    let s := regs .sq [(1, -1), (2, 0x8000000000000000)]
    (next (exec (.addi 3 1 1) s)).sReg 3 = 0 ∧ (next (exec (.div false 3 1 0) s)).sReg 3 = -1 ∧ (next (exec (.rem false 3 1 0) s)).sReg 3 = -1 ∧
      (next (exec (.div false 3 2 1) s)).sReg 3 = 0x8000000000000000 ∧ (next (exec (.rem false 3 2 1) s)).sReg 3 = 0 ∧
      (next (exec (.addi 0 1 5) s)).sReg 0 = 0 := by decide +kernel

/-- R1, R111: bytes of a store run from the least significant; a load of a signed byte extends its sign. -/
theorem test_store_load :
    let s := st .sq fun k => sysOf (fun y => { y with det := true }) { k with regs := { k.regs with s := [(1, 0x80FF), (4, win)] } }
    let t := next (exec (.st .n16 1 4 6) s)
    t.spadByte 6 = 0xFF ∧ t.spadByte 7 = 0x80 ∧ (next (exec (.ld .i8 2 4 7) t)).sReg 2 = 0xFFFFFFFFFFFFFF80 ∧
      (next (exec (.ld .n16 2 4 6) t)).sReg 2 = 0x80FF := by decide +kernel

/-- R111, R283, R285: a misaligned load traps with MISALIGN (0x06) and its register stays. -/
theorem test_misaligned_load_traps :
    let s := st .sq fun k => sysOf (fun y => { y with trapvec := 0x1001 }) { k with regs := { k.regs with s := [(2, 9), (4, win)] } }
    let t := next (exec (.ld .n32 2 4 2) s)
    slice t.here.sys.cause 7 0 = 6 ∧ t.here.phase = .handler ∧ (t.en .sq).pc = 0x1000 ∧ t.sReg 2 = 9 := by decide +kernel

/-- R102, R115: a taken branch goes to its own address plus 8 off, and every other engine is told. -/
theorem test_branch_taken :
    let t := next (exec (.br .eq 0 0 (-3)) (st .sq))
    (t.en .sq).pc = ((st .sq).en .sq).pc - 24 ∧ ((t.en .mx).ctl.map fun x => x.val) = [1] := by decide +kernel

/-- R65, R67: the word that the host places is the next that the machine runs: `addi s4, s4, 4` on the sequencer, and a `vli` on the vector
engine. -/
theorem test_fetch_word :
    (next (step (State.reset.withFetchWord 64 0x0001010400000004))).sReg 4 = 4 ∧
      (next (step (State.reset.withFetchWord 64 0x0001010400000004))).here.phase = .running := by decide +kernel

/-- The states of the tests keep the canonical form, and a write of what an unlisted byte reads as removes the entry. -/
theorem test_memory_canonical :
    (st .sq).memWf = true ∧ (next (exec (.st .n8 0 4 0) { st .sq fun k => sysOf (fun y => { y with det := true }) { k with regs := { k.regs with s := [(4, win)] } } with
      spad := [(0, 5)] })).spad = [] := by decide +kernel

/-- 02_package_notes.md: the list at reduced service, entry by entry, and its service-level body. -/
theorem test_reduced_capability_list :
    let s : State := { State.reset with level := .reduced, gen := 2, clock := 875 }
    (List.range 7).map (fun n => (fieldAt s.capList (16 * n) 2, fieldAt s.capList (16 * n + 4) 4)) =
        [(1, 0x10), (2, 0x20), (3, 0x30), (4, 0x40), (8, 0x50), (9, 0x60), (10, 0)] ∧
      s.capBody 2 = [1, 0, 1, 0, 0x6B, 0x03, 0x03, 0, 2, 0, 0, 0, 0, 0, 0, 0] := by decide +kernel

end Sys2Proof.Tests
end

section
/-! PROOFS. What the landing of accesses that were held back and of timed writes leaves alone (R85, R141, R285). -/

namespace Sys2Proof.Machine

/-- What no access and no write that lands changes of a core: everything but its registers, SYS.FLAGS, the writes and accesses that it
has under way, its write-combining buffers and the records of their order. -/
def Core.control (k : Core) : Core :=
  { k with regs := Regs.zero, sys := { k.sys with flags := 0 }, pend := [], races := [], shadow := [], fmtq := [], nestRaces := [], wc := [],
           late := [], loaded := [] }

/-- Two states have the same cursor and the same control state of every core. -/
def sameControl (s t : State) : Prop := t.cur = s.cur ∧ ∀ c, (t.core c).control = (s.core c).control

theorem sameControl_refl (s : State) : sameControl s s := ⟨rfl, fun _ => rfl⟩

theorem sameControl_setCore {s t : State} (h : sameControl s t) {c : Nat} {k : Core} (hk : k.control = (t.core c).control) :
    sameControl s (t.setCore c k) := by
  refine ⟨h.1, fun d => ?_⟩
  rw [core_setCore]
  split
  · next hd => rw [hk, h.2, hd]
  · exact h.2 d

theorem sameControl_foldl {α : Type} {s : State} {f : State → α → State} (hf : ∀ t x, sameControl s t → sameControl s (f t x)) (l : List α)
    {t : State} (h : sameControl s t) : sameControl s (l.foldl f t) := by
  induction l generalizing t with
  | nil => exact h
  | cons x r ih => exact ih (hf t x h)

/-- Fields of a core that its control state shows. -/
theorem of_control {k u : Core} (h : u.control = k.control) :
    u.phase = k.phase ∧ u.eng = k.eng ∧ u.sys.trapvec = k.sys.trapvec ∧ u.events = k.events :=
  ⟨(congrArg Core.phase h :), (congrArg Core.eng h :), (congrArg (fun v : Core => v.sys.trapvec) h :), (congrArg Core.events h :)⟩

/-! Registers -/

theorem control_setReg (k : Core) (d : Dest) (x : Nat) : (k.setReg d x).control = k.control := by
  cases d with
  | s n => unfold Core.setReg; dsimp only; split <;> rfl
  | _ => rfl

theorem control_writeRace (k : Core) (tick writer pos : Nat) (unord : Race → Bool) (d : Dest) (bm x : Nat) :
    (k.writeRace tick writer pos unord d bm x).control = k.control := by
  unfold Core.writeRace
  dsimp only
  split
  · exact control_setReg k _ _
  · split
    · rfl
    · exact control_setReg k _ _

theorem control_land (tick : Nat) (seen : List Pend) (k : Core) (p : Pend) : (k.land tick seen p).control = k.control := by
  unfold Core.land
  split
  · exact control_setReg k _ _
  · exact control_setReg k _ _
  · dsimp only
    split
    · split
      · rfl
      · exact control_setReg k _ _
    · exact control_setReg k _ _

theorem control_landSeen (tick : Nat) (seen : List Pend) (k : Core) (p : Pend) : (k.landSeen tick seen p).control = k.control := by
  unfold Core.landSeen
  dsimp only
  split <;> exact control_land tick seen k p

section
variable {s t : State} (h : sameControl s t)
include h

/-! Timed writes -/

theorem sameControl_landOne (c : Nat) (seen : List Pend) (p : Pend) : sameControl s (t.landOne c seen p) := by
  unfold State.landOne
  split
  · split <;> exact h
  · split
    · next u hb =>
      have hu := (bankOp_spec hb).1
      have hs : sameControl s u := by rw [hu]; exact h
      refine sameControl_setCore hs ?_
      rw [control_landSeen, hu]
      rfl
    · exact h
  · exact sameControl_setCore h (control_landSeen _ _ _ _)

theorem sameControl_landSeq (c : Nat) (seen l : List Pend) : sameControl s (State.landSeq c seen l t) := by
  induction l generalizing seen t with
  | nil => exact h
  | cons p r ih => exact ih (sameControl_landOne h c seen p) _

theorem sameControl_landDue (c due : Nat) : sameControl s (t.landDue c due) := by
  unfold State.landDue
  refine sameControl_landSeq ?_ c _ _
  exact sameControl_setCore h rfl

/-! Stores that reach their home -/

theorem sameControl_countDrop (g : GenRef) : sameControl s (countDrop t g) := by
  unfold countDrop
  dsimp only
  split
  · exact h
  · split <;> exact h
  · exact h

theorem sameControl_admitGen (line : Nat) (g : Option GenRef) : sameControl s (admitGen t line g).2 := by
  unfold admitGen
  split
  · exact h
  · dsimp only
    split
    · exact sameControl_countDrop h _
    · exact h

theorem sameControl_drainAt (d n : Nat) : sameControl s (drainAt t d n) := by
  unfold drainAt
  dsimp only
  split
  · exact h
  · next b _ =>
    have ha := sameControl_admitGen h (b.phys / 128) b.gen
    split
    · split <;> exact ha
    · exact ha

theorem sameControl_drainNeeded (d : Nat) (need : BufStore → Bool) (n : Nat) : sameControl s (drainNeeded d need n t) := by
  induction n generalizing t with
  | zero => exact h
  | succ n ih =>
    unfold drainNeeded
    split
    · exact ih (sameControl_drainAt h d _)
    · exact h

theorem sameControl_drainLine (d phys n : Nat) : sameControl s (drainLine d phys n t) := by
  induction n generalizing t with
  | zero => exact h
  | succ n ih =>
    unfold drainLine
    split
    · exact ih (sameControl_drainAt h d _)
    · exact h

theorem sameControl_landCombine (b : Combine) : sameControl s (landCombine t b) := by
  have ha := sameControl_admitGen h (b.phys / 128) b.gen
  unfold landCombine
  dsimp only
  split <;> exact ha

/-- The write-combining buffers of a core change after stores that touch no control state. -/
theorem sameControl_setWc {u : State} (hu : sameControl s u) (c : Nat) (l : List Combine) :
    sameControl s (u.setCore c { t.core c with wc := l }) :=
  sameControl_setCore hu ((h.2 c).trans (hu.2 c).symm)

theorem sameControl_drainWc (c : Nat) (p : Combine → Bool) : sameControl s (drainWc t c p) :=
  sameControl_setWc h (sameControl_foldl (fun _ b hb => sameControl_landCombine hb b) _ h) c _

theorem sameControl_drainOldestWc (c : Nat) : sameControl s (drainOldestWc t c) := by
  unfold drainOldestWc
  split
  · split
    · exact sameControl_setWc h (sameControl_landCombine h _) c _
    · exact h
  · exact h

theorem sameControl_combineStore (c : Nat) (asid : BitVec 12) (x : Trans) (bs : List Byte) (gen : Option GenRef) :
    sameControl s (combineStore t c asid x bs gen) := by
  unfold combineStore
  refine sameControl_drainWc ?_ c _
  have hd := sameControl_drainWc h c fun b => decide (b.asid = asid) && decide (b.line = x.va / 128) && decide (b.gen ≠ gen)
  split
  · exact sameControl_setCore hd rfl
  · exact sameControl_setCore (sameControl_drainOldestWc hd c) rfl

theorem sameControl_makeRoom (d phys : Nat) : sameControl s (makeRoom t d phys) := by
  unfold makeRoom
  dsimp only
  split
  · exact h
  · split
    · exact sameControl_drainLine h _ _ _
    · exact h

theorem sameControl_bufStore (d stream : Nat) (asid : BitVec 12) (x : Trans) (bs : List Byte) (gen : Option GenRef) (nt : Bool) :
    sameControl s (bufStore t d stream asid x bs gen nt) := sameControl_makeRoom h d (x.phys / 128 * 128)

theorem sameControl_putSpot (c stream : Nat) (asid : BitVec 12) (p : Spot) (bs : List Byte) (gen : Option GenRef) (nt : Bool) :
    sameControl s (putSpot t c stream asid p bs gen nt) := by
  cases p with
  | spad key => exact h
  | mem x =>
    unfold putSpot
    dsimp only
    split
    · exact sameControl_combineStore h c asid x bs gen
    · exact sameControl_bufStore (t := patchLine t _ _ _ _) h _ _ _ _ _ _ _

/-! Accesses that were held back -/

theorem sameControl_performBefore (c : Nat) : sameControl s (t.performBefore c) := sameControl_drainNeeded h _ _ _

theorem sameControl_release (sc : Scope) : sameControl s (t.release sc) := by
  unfold State.release
  dsimp only
  split <;> split
  · exact sameControl_performBefore (sameControl_drainWc h _ _) _
  · exact sameControl_performBefore h _
  · exact sameControl_drainWc h _ _
  · exact h

theorem sameControl_spotCombined (c : Nat) (p : Spot) : sameControl s (t.spotCombined c p) := by
  cases p with
  | spad key => exact h
  | mem x => exact sameControl_drainWc h c _

theorem sameControl_published (c : Nat) (sc : Scope) (spot size : Nat) (a : Bool) (nos : List Nat) :
    sameControl s (t.published c sc spot size a nos) := by
  unfold State.published
  dsimp only
  split <;> split <;> exact h

theorem sameControl_publishFences (c spot size : Nat) : sameControl s (t.publishFences c spot size) :=
  sameControl_foldl (fun _ _ hu => sameControl_published hu _ _ _ _ _ _) _ (sameControl_published h _ _ _ _ _ _)

theorem sameControl_readSpot (c : Nat) (asid : BitVec 12) (n : Nat) (p : Spot) : sameControl s (t.readSpot c asid n p).2 := by
  cases p with
  | spad key => exact h
  | mem x =>
    have hf : fill t (dieOf c) asid x = _ := sameButCaches_fill t (dieOf c) asid x
    unfold State.readSpot
    dsimp only
    rw [hf]
    exact h

theorem sameControl_saw (c spot size : Nat) : sameControl s (t.saw c spot size) := by
  unfold State.saw
  dsimp only
  split
  · exact h
  · exact sameControl_setCore h rfl

theorem sameControl_performOne (c : Nat) (l : Late) : sameControl s (State.performOne c t l) := by
  unfold State.performOne
  dsimp only
  split
  · have hr := sameControl_saw (sameControl_readSpot h c (t.core c).sys.asid l.size l.spot) c l.spot.code l.size
    split
    · exact hr
    · exact sameControl_setCore hr (control_writeRace _ _ _ _ _ _ _ _)
  · split
    · exact sameControl_publishFences (sameControl_putSpot h _ _ _ _ _ _ _) _ _ _
    · next sc _ =>
      -- a release store takes the cursor to its core and back
      have hc : sameControl { s with cur := ⟨c, 0, 0⟩ } { t with cur := ⟨c, 0, 0⟩ } := ⟨rfl, h.2⟩
      have hp := sameControl_putSpot (sameControl_release hc sc) c (6 * c) (t.core c).sys.asid l.spot l.data none false
      have hr := sameControl_release (sameControl_spotCombined hp c l.spot) sc
      exact ⟨h.1, (sameControl_published hr _ _ _ _ _ _).2⟩

theorem sameControl_performQueue (c : Nat) (p : Late → Bool) : sameControl s (t.performQueue c p) := by
  unfold State.performQueue
  dsimp only
  split
  · exact h
  · exact sameControl_foldl (fun _ l hu => sameControl_performOne hu c l) _ (sameControl_setCore h rfl)

end

/-- What a core has started takes effect without moving an engine, and without a change of its phase or of a system register but
SYS.FLAGS. -/
theorem sameControl_landAll (s : State) (c : Nat) : sameControl s (s.landAll c) :=
  sameControl_landDue (sameControl_performQueue (sameControl_refl s) c _) c _


theorem control_here_landAll (s : State) : (s.landAll s.cur.core).here.control = s.here.control := by
  obtain ⟨hcur, hcore⟩ := sameControl_landAll s s.cur.core
  rw [State.here, hcur, hcore, State.here]

/-! The cause of a trap (R283) -/

theorem slice_or {w : Nat} (x y : BitVec w) (hi lo : Nat) : slice (x ||| y) hi lo = slice x hi lo ||| slice y hi lo := by
  simp only [slice, BitVec.toNat_or, Nat.shiftRight_or_distrib, Nat.or_mod_two_pow]

theorem bit_or {w : Nat} (x y : BitVec w) (i : Nat) : bit (x ||| y) i = (bit x i || bit y i) := by
  simp only [bit, BitVec.toNat_or, Nat.testBit_or]

/-- The fields of SYS.TRAPCAUSE, which do not overlap (R283). -/
theorem causeWord_fields (old : Word) (code : Code) (eng : Nat) (a : Bool) (arg : BitVec 16) (cseq : BitVec 32) :
    let x := causeWord old code eng a arg cseq
    slice x 7 0 = code.toNat ∧ slice x 10 8 = eng % 8 ∧ bit x 11 = a ∧ slice x 31 16 = arg.toNat ∧ slice x 63 32 = cseq.toNat := by
  have hcode := code.isLt
  have harg := arg.isLt
  have hseq := cseq.isLt
  have hflag : ∀ (c : Bool) (n : Nat), (if c then n else 0) = c.toNat * n := fun c n => by cases c <;> simp
  have ha := a.toNat_lt
  have h14 := (bit old 14).toNat_lt
  have h15 := (bit old 15).toNat_lt
  dsimp only [causeWord]
  simp only [hflag]
  generalize bit old 14 = p at *
  generalize bit old 15 = q at *
  simp only [slice, bit, BitVec.toNat_ofNat, Nat.testBit_eq_decide_div_mod_eq]
  refine ⟨by omega, by omega, ?_, by omega, by omega⟩
  cases a <;> simp only [Bool.toNat_true, Bool.toNat_false, decide_eq_true_eq, decide_eq_false_iff_not] <;> omega

/-- ACTIVE is bit 15 (R283). -/
theorem setActive_fields (x : Word) : bit (setActive x true) 15 = true ∧ bit (setActive x true) 11 = bit x 11 ∧
    ∀ hi lo, hi < 15 ∨ 15 < lo → slice (setActive x true) hi lo = slice x hi lo := by
  simp only [setActive, if_true, bit_or, slice_or]
  refine ⟨Bool.or_true _, Bool.or_false _, fun hi lo h => ?_⟩
  have hm : slice (0x8000 : Word) hi lo = 0 := by
    refine Nat.eq_of_testBit_eq fun i => ?_
    rw [slice, show (0x8000 : Word).toNat = 2 ^ 15 from rfl, Nat.testBit_mod_two_pow, Nat.testBit_shiftRight, Nat.testBit_two_pow]
    simp only [Nat.zero_testBit, Bool.and_eq_false_iff, decide_eq_false_iff_not]
    omega
  rw [hm, Nat.or_zero]

/-! A trap with a handler enabled (R283 to R286) -/

/-- A core with the registers of a trap of engine e written: its cause, and the positions of its word (R283). -/
def Core.withCause (k : Core) (e : Eng) (cause : Word) : Core :=
  { k with trapHeld := none, sys := { k.sys with cause := cause, trapaddr := (k.en e).pc, trapsrc := (k.en e).src } }

@[simp] theorem en_withCause (k : Core) (e : Eng) (cause : Word) (f : Eng) : (k.withCause e cause).en f = k.en f := rfl

/-- A trap that nothing holds back is delivered with its registers written, once what the core has started has landed (R85, R285). -/
theorem trap_delivered {s : State} {e : Eng} (hr : s.here.requesting = false) (hf : s.here.finishing (some e) = false) (code : Code)
    (arg : BitVec 16) (t6 : Bool) :
    s.trap e code arg t6 = .next ((s.landAll s.cur.core).upd fun k =>
      (k.withCause e (causeWord k.sys.cause code e.tag false arg 0)).deliver code e.tag false t6) := by
  obtain ⟨t, ht, ⟨-, hheld⟩ | ⟨-, rfl⟩⟩ := trap_spec s e code arg t6
  · simp [hr, hf] at hheld
  · exact ht

/-- Delivered to the handler, a trap leaves its cause (R283) and puts the core in its handler (R286). -/
theorem deliver_entersHandler {u : State} (e : Eng) (code : Code) (arg : BitVec 16) (t6 : Bool) (hp : u.here.phase ≠ .handler)
    (hv : bit u.here.sys.trapvec 0 = true) :
    Spec.entersHandler u (u.upd fun k => (k.withCause e (causeWord k.sys.cause code e.tag false arg 0)).deliver code e.tag false t6)
      e code false arg.toNat := by
  obtain ⟨fcode, feng, fasync, farg, fseq⟩ := causeWord_fields u.here.sys.cause code e.tag false arg 0
  generalize hx : causeWord u.here.sys.cause code e.tag false arg 0 = x at *
  obtain ⟨dphase, dregs, devents, dsys, dpc, dpcs⟩ := deliver_handler (k := u.here.withCause e x) code e.tag false t6 hp hv
  obtain ⟨aactive, aasync, aslice⟩ := setActive_fields x
  have htag : e.tag % 8 = e.tag := by cases e <;> rfl
  unfold Spec.entersHandler State.en
  rw [here_upd, hx, dsys]
  refine ⟨dphase, rfl, dregs, rfl, (aslice 7 0 (by decide)).trans fcode, (aslice 10 8 (by decide)).trans (feng.trans htag),
    aasync.trans fasync, aactive, (aslice 31 16 (by decide)).trans farg, (aslice 63 32 (by decide)).trans fseq, rfl, rfl, dpc, dpcs, rfl, rfl,
    devents⟩

/-- A trap that nothing holds back, with a handler enabled and none running, enters the handler with its cause. -/
theorem trap_entersHandler {s : State} (e : Eng) (code : Code) (arg : BitVec 16) (t6 : Bool) (hp : s.here.phase = .running)
    (hv : bit s.here.sys.trapvec 0 = true) (hr : s.here.requesting = false) (hf : s.here.finishing (some e) = false) :
    goesTo (s.trap e code arg t6) fun t => Spec.entersHandler (s.landAll s.cur.core) t e code false arg.toNat := by
  refine ⟨_, trap_delivered hr hf code arg t6, ?_⟩
  obtain ⟨hphase, -, hvec, -⟩ := of_control (control_here_landAll s)
  refine deliver_entersHandler e code arg t6 ?_ ?_
  · rw [hphase, hp]; decide
  · rw [hvec, hv]

/-- Settles O10: a trap that nothing holds back enters the handler with its cause, and `trap` and a word that is no instruction are such. -/
theorem trapsEnterTheHandler : Obligations.TrapsEnterTheHandler := fun s hp hv hr =>
  ⟨fun imm hf => trap_entersHandler .sq .software imm false hp hv hr hf,
    fun w hf => trap_entersHandler s.engHere .illegal 0 (decide (slice w 63 61 = 6)) hp hv hr hf⟩

end Sys2Proof.Machine
end

section
/-! PROOFS. What the decoder reads: each row of its tables gives only words that have an encoding (R65, R75, R76). -/

namespace Sys2Proof

/-- An instruction is a word of the text: it has an encoding, which an event has not (R65). -/
def Instr.isWord (i : Instr) : Prop := (Enc.layout i).isSome = true

namespace Dec

/-- A decoding gives nothing, or a word of the text. -/
def Words (o : Option Instr) : Prop := ∀ i, o = some i → i.isWord

/-- The operands of an opcode, where it is assigned, decode to words of the text. -/
def RowOfWords (r : Row) : Prop := ∀ f, r = some f → ∀ x, Words (f x)

theorem words_none : Words none := fun _ h => nomatch h

theorem words_some {i : Instr} (h : i.isWord := by exact rfl) : Words (some i) := fun _ hi => Option.some.inj hi ▸ h

theorem words_map {α : Type} {f : α → Instr} (h : ∀ a, (f a).isWord := by intros; exact rfl) {o : Option α} : Words (o.map f) := by
  cases o with
  | none => exact words_none
  | some a => exact words_some (h a)

theorem words_ite {c : Prop} [Decidable c] {o : Option Instr} (h : Words o) : Words (if c then o else none) := by
  split
  · exact h
  · exact words_none

theorem words_row {f : Nat → Option Instr} (h : ∀ x, Words (f x)) : RowOfWords (row f) := fun _ hg => Option.some.inj hg ▸ h

theorem words_gap (n : Nat) : ∀ r ∈ gap n, RowOfWords r := fun r hr f hf => by
  rw [List.eq_of_mem_replicate hr] at hf
  nomatch hf

/-! The forms of the operands: a form gives words where its constructor does, which is checked at each row -/

theorem words_op0 {i : Instr} (h : i.isWord := by exact rfl) : RowOfWords (row (op0 i)) := words_row fun _ => words_ite (words_some h)

theorem words_d1v {f g : SReg → Instr} (hf : ∀ d, (f d).isWord := by intros; exact rfl) (hg : ∀ d, (g d).isWord := by intros; exact rfl) :
    RowOfWords (row (d1v f g)) :=
  words_row fun x => by
    unfold d1v
    split
    · refine words_some ?_
      split
      · exact hg _
      · exact hf _
    · exact words_none

theorem words_ss {f : SReg → SReg → SReg → Instr} (h : ∀ d a b, (f d a b).isWord := by intros; exact rfl) : RowOfWords (row (ss f)) :=
  words_row fun x => by
    unfold ss
    split
    · exact words_some (h _ _ _)
    · exact words_none

theorem words_su {f : Bool → SReg → SReg → SReg → Instr} (h : ∀ u d a b, (f u d a b).isWord := by intros; exact rfl) :
    RowOfWords (row (su f)) :=
  words_row fun x => by
    unfold su
    split
    · exact words_some (h _ _ _ _)
    · exact words_none

theorem words_s4 {f : SReg → SReg → SReg → SReg → Instr} (h : ∀ d a b c, (f d a b c).isWord := by intros; exact rfl) :
    RowOfWords (row (s4 f)) :=
  words_row fun x => by
    unfold s4
    split
    · exact words_some (h _ _ _ _)
    · exact words_none

theorem words_da {f : SReg → SReg → Instr} (h : ∀ d a, (f d a).isWord := by intros; exact rfl) : RowOfWords (row (da f)) :=
  words_row fun x => by
    unfold da
    split
    · exact words_some (h _ _)
    · exact words_none

theorem words_ab {f : SReg → SReg → Instr} (h : ∀ a b, (f a b).isWord := by intros; exact rfl) : RowOfWords (row (ab f)) :=
  words_row fun x => by
    unfold ab
    split
    · exact words_some (h _ _)
    · exact words_none

theorem words_a1 {f : SReg → Instr} (h : ∀ a, (f a).isWord := by intros; exact rfl) : RowOfWords (row (a1 f)) :=
  words_row fun x => by
    unfold a1
    split
    · exact words_some (h _)
    · exact words_none

theorem words_d1 {f : SReg → Instr} (h : ∀ d, (f d).isWord := by intros; exact rfl) : RowOfWords (row (d1 f)) :=
  words_row fun x => by
    unfold d1
    split
    · exact words_some (h _)
    · exact words_none

theorem words_si {f : SReg → SReg → BitVec 32 → Instr} (h : ∀ d a m, (f d a m).isWord := by intros; exact rfl) : RowOfWords (row (si f)) :=
  words_row fun x => by
    unfold si
    split
    · exact words_some (h _ _ _)
    · exact words_none

theorem words_sh {f : SReg → SReg → BitVec 6 → Instr} (h : ∀ d a n, (f d a n).isWord := by intros; exact rfl) : RowOfWords (row (sh f)) :=
  words_row fun x => by
    unfold sh
    split
    · exact words_some (h _ _ _)
    · exact words_none

theorem words_sl {f : SReg → BitVec 38 → Instr} (h : ∀ d m, (f d m).isWord := by intros; exact rfl) : RowOfWords (row (sl f)) :=
  words_row fun x => by
    unfold sl
    split
    · exact words_some (h _ _)
    · exact words_none

theorem words_mem {f : Fmt → SReg → SReg → BitVec 27 → Instr} (h : ∀ t d a m, (f t d a m).isWord := by intros; exact rfl) :
    RowOfWords (row (mem f)) :=
  words_row fun x => by
    unfold mem
    split
    · exact words_map fun _ => h _ _ _ _
    · exact words_none

theorem words_ord {f : Fmt → Scope → SReg → SReg → BitVec 24 → Instr} (h : ∀ t s d a m, (f t s d a m).isWord := by intros; exact rfl) :
    RowOfWords (row (ord f)) :=
  words_row fun x => by
    unfold ord
    split
    · split
      · exact words_some (h _ _ _ _ _)
      · exact words_none
    · exact words_none

theorem words_atomic {f : Atomic → Instr} (h : ∀ o, (f o).isWord := by intros; exact rfl) : RowOfWords (row (atomic f)) :=
  words_row fun x => by
    unfold atomic
    split
    · split
      · exact words_some (h _)
      · exact words_none
    · exact words_none

theorem words_gab {f : GenNo → SReg → SReg → Instr} (h : ∀ g a b, (f g a b).isWord := by intros; exact rfl) : RowOfWords (row (gab f)) :=
  words_row fun x => by
    unfold gab
    split
    · exact words_some (h _ _ _)
    · exact words_none

theorem words_ga {f : GenNo → SReg → Instr} (h : ∀ g a, (f g a).isWord := by intros; exact rfl) : RowOfWords (row (ga f)) :=
  words_row fun x => by
    unfold ga
    split
    · exact words_some (h _ _)
    · exact words_none

theorem words_ma {f : MapNo → SReg → Instr} (h : ∀ m a, (f m a).isWord := by intros; exact rfl) : RowOfWords (row (ma f)) :=
  words_row fun x => by
    unfold ma
    split
    · exact words_some (h _ _)
    · exact words_none

theorem words_vv {f : VV → Instr} (h : ∀ o, (f o).isWord := by intros; exact rfl) : RowOfWords (row (vv f)) :=
  words_row fun x => by
    unfold vv
    split
    · split
      · exact words_some (h _)
      · exact words_none
    · exact words_none

theorem words_vi {f : VI → Instr} (h : ∀ o, (f o).isWord := by intros; exact rfl) : RowOfWords (row (vi f)) :=
  words_row fun x => by
    unfold vi
    split
    · exact words_map fun _ => h _
    · exact words_none

theorem words_strided {f : Strided → Instr} (h : ∀ o, (f o).isWord := by intros; exact rfl) : RowOfWords (row (strided f)) :=
  words_row fun x => by
    unfold strided
    split
    · exact words_map fun _ => h _
    · exact words_none

theorem words_indexed {f : Indexed → Instr} (h : ∀ o, (f o).isWord := by intros; exact rfl) : RowOfWords (row (indexed f)) :=
  words_row fun x => by
    unfold indexed
    split
    · exact words_map fun _ => h _
    · exact words_none

theorem words_tensor {f : TensorIx → Instr} (h : ∀ o, (f o).isWord := by intros; exact rfl) : RowOfWords (row (tensor f)) :=
  words_row fun x => by
    unfold tensor
    split
    · exact words_map fun _ => h _
    · exact words_none

theorem words_reduce {f : Reduce → Instr} (h : ∀ o, (f o).isWord := by intros; exact rfl) : RowOfWords (row (reduce f)) :=
  words_row fun x => by
    unfold reduce
    split
    · exact words_map fun _ => h _
    · exact words_none

theorem words_xp {f : Fmt → VNo → VNo → Instr} (h : ∀ t d a, (f t d a).isWord := by intros; exact rfl) : RowOfWords (row (xp f)) :=
  words_row fun x => by
    unfold xp
    split
    · exact words_map fun _ => h _ _ _
    · exact words_none

theorem words_hq {f : Fmt → RMode → GenNo → VNo → VNo → SReg → SReg → Instr}
    (h : ∀ t r g d a p q, (f t r g d a p q).isWord := by intros; exact rfl) :
    RowOfWords (row (hq f)) :=
  words_row fun x => by
    unfold hq
    split
    · split
      · exact words_some (h _ _ _ _ _ _ _)
      · exact words_none
    · exact words_none

theorem words_mask2 {f : MaskNo → MaskNo → MaskNo → MaskNo → Instr} (h : ∀ d a b m, (f d a b m).isWord := by intros; exact rfl) :
    RowOfWords (row (mask2 f)) :=
  words_row fun x => by
    unfold mask2
    split
    · exact words_some (h _ _ _ _)
    · exact words_none

theorem words_maskv {f : VNo → MaskNo → MaskNo → Instr} (h : ∀ d a m, (f d a m).isWord := by intros; exact rfl) :
    RowOfWords (row (maskv f)) :=
  words_row fun x => by
    unfold maskv
    split
    · exact words_some (h _ _ _)
    · exact words_none

theorem words_mo {f : MaskNo → SReg → BitVec 34 → Instr} (h : ∀ m a n, (f m a n).isWord := by intros; exact rfl) :
    RowOfWords (row (mo f)) :=
  words_row fun x => by
    unfold mo
    split
    · exact words_some (h _ _ _)
    · exact words_none

/-! The opcodes, in the order of the tables -/

theorem sq0_words : ∀ r ∈ sq0, RowOfWords r := by
  simp only [sq0, List.forall_mem_cons]
  refine ⟨words_ss, words_ss, words_ss, words_su, words_su, words_su, words_ss, words_ss, words_ss, words_ss, words_ss, words_ss, words_su,
    words_su, words_row fun x => ?_, words_s4, List.forall_mem_nil _⟩
  · split
    exacts [words_map, words_none]

theorem sq1_words : ∀ r ∈ sq1, RowOfWords r := by
  simp only [sq1, List.forall_mem_cons, List.forall_mem_append]
  refine ⟨⟨words_si, words_si, words_si, words_si, words_si, words_sh, words_sh, words_sh, words_row fun x => ?_, words_sl, words_sl,
    words_da, words_da, words_row fun x => ?_, words_row fun x => ?_, List.forall_mem_nil _⟩, words_gap 1⟩
  · split
    exacts [words_map, words_none]
  · split
    exacts [words_some, words_none]
  · split
    exacts [words_some, words_none]

theorem sq2_words : ∀ r ∈ sq2, RowOfWords r := by
  simp only [sq2, List.forall_mem_cons, List.forall_mem_append]
  refine ⟨⟨words_mem, words_mem, words_ord, words_ord, words_atomic, words_row fun x => ?_, words_atomic, words_row fun x => ?_, words_op0,
    words_row fun x => ?_, List.forall_mem_nil _⟩, words_gap 6⟩
  · split
    · split
      · exact words_some
      · exact words_none
    · exact words_none
  · split
    · split
      · exact words_some
      · exact words_none
    · exact words_none
  · split
    exacts [words_ite words_some, words_none]

theorem sq3_words : ∀ r ∈ sq3, RowOfWords r := by
  simp only [sq3, List.forall_mem_cons, List.forall_mem_append]
  refine ⟨⟨words_row fun x => ?_, words_row fun x => ?_, words_row fun x => ?_, words_row fun x => ?_, words_op0, words_ss, words_ab,
    words_row fun x => ?_, words_da, words_s4, words_row fun x => ?_, words_row fun x => ?_, words_d1, words_da, words_a1,
    List.forall_mem_nil _⟩, words_gap 1⟩
  · split
    exacts [words_ite words_some, words_none]
  · split
    exacts [words_ite words_some, words_none]
  · split
    exacts [words_some, words_none]
  · split
    exacts [words_some, words_none]
  · split
    exacts [words_map, words_none]
  · split
    exacts [words_some, words_none]
  · split
    exacts [words_some, words_some, words_some, words_none]

theorem sq4_words : ∀ r ∈ sq4, RowOfWords r := by
  simp only [sq4, List.forall_mem_cons]
  refine ⟨words_da, words_da, words_da, words_da, words_da, words_d1, words_row fun x => ?_, words_ab, words_ss, words_ss, words_ab,
    words_ab, words_da, words_ab, words_ab, words_ab, words_da, List.forall_mem_nil _⟩
  · split
    exacts [words_some, words_none]

theorem sq5_words : ∀ r ∈ sq5, RowOfWords r := by
  simp only [sq5, List.forall_mem_cons, List.forall_mem_append]
  refine ⟨⟨words_row fun x => ?_, words_row fun x => ?_, words_a1, words_d1v, words_d1v, words_row fun x => ?_, words_row fun x => ?_,
    words_gab, words_ga, words_ga, words_row fun x => ?_, words_gab, List.forall_mem_nil _⟩, words_gap 3⟩
  · split
    exacts [words_some, words_none]
  · split
    exacts [words_some, words_none]
  · split
    exacts [words_some, words_none]
  · split
    exacts [words_some, words_none]
  · split
    exacts [words_some, words_none]

theorem sq6_words : ∀ r ∈ sq6, RowOfWords r := by
  simp only [sq6, List.forall_mem_cons, List.forall_mem_append]
  refine ⟨⟨words_ss, words_ss, words_ss, words_ss, words_ss, words_ss, words_ss, words_ma, words_ma, words_row fun x => ?_,
    words_row fun x => ?_, words_row fun x => ?_, words_row fun x => ?_, List.forall_mem_nil _⟩, words_gap 3⟩
  · split
    exacts [words_some, words_none]
  · split
    exacts [words_some, words_some, words_none]
  · split
    exacts [words_some, words_none]
  · split
    exacts [words_some, words_none]

theorem sq7_words : ∀ r ∈ sq7, RowOfWords r := by
  simp only [sq7, List.forall_mem_cons]
  refine ⟨words_ss, words_da, words_ab, words_row fun x => ?_, words_da, words_da, words_da, List.forall_mem_nil _⟩
  · split
    exacts [words_some, words_some, words_none]

theorem ld_words : ∀ r ∈ ld, RowOfWords r := by
  simp only [ld, List.forall_mem_cons]
  refine ⟨words_strided, words_indexed, words_tensor, words_strided, words_strided, words_mo, words_row fun x => ?_, words_strided,
    List.forall_mem_nil _⟩
  · split
    exacts [words_some, words_none]

theorem xpRows_words : ∀ r ∈ xpRows, RowOfWords r := by
  simp only [xpRows, List.forall_mem_cons]
  refine ⟨words_xp, words_xp, words_xp, words_hq, words_hq, words_row fun x => ?_, words_row fun x => ?_, List.forall_mem_nil _⟩
  · split
    exacts [words_some, words_none]
  · split
    exacts [words_some, words_none]

theorem mx_words : ∀ r ∈ mx, RowOfWords r := by
  simp only [mx, List.forall_mem_cons]
  refine ⟨words_row fun x => ?_, words_row fun x => ?_, words_op0, List.forall_mem_nil _⟩
  · split
    exacts [words_some (by split <;> rfl), words_none]
  · split
    exacts [words_some, words_none]

theorem ve0_words : ∀ r ∈ ve0, RowOfWords r := by
  simp only [ve0, List.forall_mem_cons]
  exact ⟨words_vv, words_vv, words_vv, words_vv, words_vv, words_vv, words_vv, words_vv, words_vv, words_vv, words_vv, words_vv, words_vv,
    words_vv, words_vv, words_vv, List.forall_mem_nil _⟩

theorem ve1_words : ∀ r ∈ ve1, RowOfWords r := by
  simp only [ve1, List.forall_mem_cons]
  refine ⟨words_vv, words_vv, words_vv, words_vv, words_row fun x => ?_, words_vv, words_vv, words_row fun x => ?_, words_row fun x => ?_,
    words_vv, words_row fun x => ?_, words_vv, words_row fun x => ?_, words_vi, words_vi, words_vi, List.forall_mem_nil _⟩
  · split
    · split
      · exact words_some
      · exact words_none
    · exact words_none
  · split
    · split
      · exact words_some
      · exact words_none
    · exact words_none
  · split
    exacts [words_map, words_none]
  · split
    exacts [words_map, words_none]
  · split
    exacts [words_some, words_none]

theorem ve2_words : ∀ r ∈ ve2, RowOfWords r := by
  simp only [ve2, List.forall_mem_cons]
  refine ⟨words_vi, words_vi, words_vi, words_vi, words_row fun x => ?_, words_vi, words_mask2, words_mask2, words_mask2,
    words_row fun x => ?_, words_maskv, words_maskv, words_reduce, words_reduce, words_reduce, words_reduce, List.forall_mem_nil _⟩
  · split
    · split
      · exact words_some
      · exact words_none
    · exact words_none
  · split
    exacts [words_some, words_none]

theorem ve3_words : ∀ r ∈ ve3, RowOfWords r := by
  simp only [ve3, List.forall_mem_cons]
  refine ⟨words_vv, words_vv, words_vv, words_vv, words_vv, words_vv, words_row fun x => ?_, words_row fun x => ?_, words_row fun x => ?_,
    words_row fun x => ?_, List.forall_mem_nil _⟩
  · split
    exacts [words_map, words_none]
  · split
    exacts [words_map, words_map, words_none]
  · split
    exacts [words_some, words_none]
  · split
    exacts [words_some, words_none]

theorem st_words : ∀ r ∈ st, RowOfWords r := by
  simp only [st, List.forall_mem_cons]
  refine ⟨words_strided, words_indexed, words_tensor, words_row fun x => ?_, words_mo, words_row fun x => ?_, List.forall_mem_nil _⟩
  · split
    · split
      · exact words_some
      · exact words_none
    · exact words_none
  · split
    exacts [words_some, words_none]

theorem all_words : ∀ r ∈ all, RowOfWords r := by
  simp only [all, List.forall_mem_cons]
  refine ⟨words_row fun x => ?_, words_row fun x => ?_, words_da, words_row fun x => ?_, words_row fun x => ?_, words_row fun x => ?_,
    words_row fun x => ?_, words_op0, words_op0, List.forall_mem_nil _⟩
  · split
    exacts [words_map, words_none]
  · split
    exacts [words_some, words_none]
  · split
    exacts [words_some, words_none]
  · split
    exacts [words_some, words_none]
  · split
    exacts [words_some, words_none]
  · split
    exacts [words_some, words_some, words_none]

/-! The tables of the opcodes -/

theorem sq_words : ∀ r ∈ sq, RowOfWords r := by
  simp only [sq, List.forall_mem_append]
  exact ⟨⟨⟨⟨⟨⟨⟨sq0_words, sq1_words⟩, sq2_words⟩, sq3_words⟩, sq4_words⟩, sq5_words⟩, sq6_words⟩, sq7_words⟩

theorem ve_words : ∀ r ∈ ve, RowOfWords r := by
  simp only [ve, List.forall_mem_append]
  exact ⟨⟨⟨ve0_words, ve1_words⟩, ve2_words⟩, ve3_words⟩

theorem rows_words (tag : Nat) : ∀ r ∈ rows tag, RowOfWords r := by
  unfold rows
  split
  · exact sq_words
  · exact ld_words
  · exact xpRows_words
  · exact mx_words
  · exact ve_words
  · exact st_words
  · exact all_words
  · exact List.forall_mem_nil _

end Dec

/-- The operands of an opcode decode to a word of the text. -/
theorem isWord_decodeOperands {tag op x : Nat} {i : Instr} (h : decodeOperands tag op x = some i) : i.isWord := by
  unfold decodeOperands at h
  split at h
  · next f hf => exact Dec.rows_words tag _ (List.mem_of_getElem? hf) f rfl x i h
  · nomatch h

/-- What the decoder reads is a word of the text, or the row of a word that is no instruction (R77). -/
theorem isWord_decodeWord {w : Word} {sync : Nat} {i : Instr} (h : decodeWord w = .ok (sync, i)) : i.isWord ∨ i = .unassignedEncoding w := by
  unfold decodeWord at h
  split at h
  · split at h
    · split at h
      · next j hj =>
        split at h
        · cases h; exact .inl (isWord_decodeOperands hj)
        · nomatch h
      · nomatch h
    · cases h; exact .inr rfl
  · cases h; exact .inr rfl

end Sys2Proof
end

section
/-! PROOFS. No word of the text ends a run (R8, R77, R282, R284): what ends a word answers a next state, and so does every word that the
decoder reads. -/

namespace Sys2Proof.Machine

/-- An outcome is a next state: neither a fault nor a refusal. -/
def answers (r : Res) : Prop := ∃ t, r = .next t

/-! The ends of a word -/

theorem answers_next {t : State} : answers (.next t) := ⟨t, rfl⟩
theorem answers_done {s : State} {e : Eng} : answers (s.done e) := answers_next
theorem answers_stall {s : State} {e : Eng} : answers (s.stall e) := answers_next
theorem answers_await {s : State} {e : Eng} {w : Wait} : answers (s.await e w) := answers_next
theorem answers_jumpTo {s : State} {e : Eng} {dst : Word} : answers (s.jumpTo e dst) := answers_next
theorem answers_finishWait {s : State} {e : Eng} : answers (s.finishWait e) := answers_next
theorem answers_lineStep {s : State} {e : Eng} {op : LineOp} : answers (s.lineStep e op) := answers_next

theorem answers_trap {s : State} {e : Eng} {code : Code} {arg : BitVec 16} {t6 : Bool} : answers (s.trap e code arg t6) := by
  obtain ⟨t, ht, -⟩ := trap_spec s e code arg t6
  exact ⟨t, ht⟩

/-! What leads to them -/

theorem answers_ite {c : Prop} [Decidable c] {a b : Res} (ha : answers a) (hb : answers b) : answers (if c then a else b) := by
  split
  · exact ha
  · exact hb

theorem answers_need {s : State} {e : Eng} {c : Bool} {code : Code} {k : Res} (hk : answers k) : answers (need s e c code k) :=
  answers_ite hk answers_trap

theorem answers_orTrap {α : Type} {s : State} {e : Eng} {x : Except Code α} {k : α → Res} (hk : ∀ a, answers (k a)) :
    answers (orTrap s e x k) := by
  cases x with
  | ok a => exact hk a
  | error c => exact answers_trap

theorem answers_afterChecks {s : State} {e : Eng} {kind : Kind} {align : Nat} {l : List (Nat × Nat)} {k : Res} (hk : answers k) :
    answers (afterChecks s e kind align l k) := by
  unfold afterChecks
  split
  · exact answers_trap
  · exact hk

theorem answers_loadInto {s : State} {e : Eng} {d : Dest} {bm : Nat} {runs : List (Nat × Nat × Nat)} : answers (s.loadInto e d bm runs) :=
  answers_ite answers_done answers_await

theorem answers_storeAll {s : State} {e : Eng} {nt : Bool} {l : List (Nat × List Byte)} {events : Flags} {count : Option Nat} :
    answers (s.storeAll e nt l events count) := answers_ite answers_done answers_await

/-! Scalar memory and system words -/

theorem answers_queued {s : State} {kind : Kind} {va size : Nat} {load : Option (Fmt × Nat)} {data : List Byte} {rel : Option Scope} :
    answers (s.queued kind va size load data rel) := answers_orTrap fun _ => answers_done

theorem answers_execLd (ty : Fmt) (sd sa : SReg) (imm : BitVec 27) (s : State) : answers (execLd ty sd sa imm s) :=
  answers_orTrap fun _ => answers_ite answers_queued answers_done

theorem answers_execSt (ty : Fmt) (sc sa : SReg) (imm : BitVec 27) (s : State) : answers (execSt ty sc sa imm s) :=
  answers_orTrap fun _ => answers_ite answers_queued answers_done

theorem answers_execStrel (ty : Fmt) (sc : Scope) (src sa : SReg) (imm : BitVec 24) (s : State) : answers (execStrel ty sc src sa imm s) :=
  answers_orTrap fun _ => answers_ite answers_stall (answers_ite answers_stall (answers_ite answers_queued answers_done))

theorem answers_atomicWord (sd : Option SReg) (ty : Fmt) (sc : Scope) (o : BitVec 2) (va : Nat) (op : BankOp) (x : Nat) (s : State) :
    answers (atomicWord sd ty sc o va op x s) := by
  refine answers_orTrap fun place => answers_ite answers_stall (answers_ite answers_stall ?_)
  dsimp only
  generalize (if ordRelease o = true then s.release sc else s) = u
  generalize (if u.here.sys.timed = true then place else .glob) = q
  cases q with
  | spad key => exact answers_orTrap fun _ => answers_done
  | glob => cases sd <;> exact answers_done

theorem answers_execRsys (sd : SReg) (n : BitVec 12) (s : State) : answers (execRsys sd n s) := by
  unfold execRsys
  split
  · exact answers_trap
  · exact answers_done

theorem answers_execXsys (sd : SReg) (n : BitVec 12) (sa : SReg) (s : State) : answers (execXsys sd n sa s) := by
  unfold execXsys
  split
  · exact answers_trap
  · exact answers_orTrap fun _ => answers_done

/-! Control flow -/

/-- A word of another engine than the sequencer takes its control entry, or stalls where there is none (R90). -/
theorem answers_takeEntry {o : Option (Word × State)} {s : State} {e : Eng} {k : Word → State → Res} (hk : ∀ v t, answers (k v t)) :
    answers (match o with | none => s.stall e | some (v, t) => k v t) := by
  cases o with
  | none => exact answers_stall
  | some x => exact hk x.1 x.2

theorem answers_execBr (c : Cond) (sa sb : SReg) (off : BitVec 26) (s : State) : answers (execBr c sa sb off s) :=
  answers_ite (answers_ite answers_stall (answers_ite answers_jumpTo answers_done))
    (answers_takeEntry fun _ _ => answers_ite answers_jumpTo answers_done)

theorem answers_execJmpr (sd sa : SReg) (s : State) : answers (execJmpr sd sa s) :=
  answers_ite (answers_ite answers_trap (answers_ite answers_stall answers_jumpTo)) (answers_takeEntry fun _ _ => answers_jumpTo)

theorem answers_execLpset (lc : BitVec 2) (fromReg : Bool) (sa : SReg) (imm : BitVec 32) (s : State) :
    answers (execLpset lc fromReg sa imm s) :=
  answers_ite (answers_ite answers_stall answers_done) (answers_takeEntry fun _ _ => answers_done)

theorem answers_execLpend (lc : BitVec 2) (off : BitVec 38) (s : State) : answers (execLpend lc off s) := answers_ite answers_jumpTo answers_done

theorem answers_setMode (timed : Bool) (s : State) : answers (setMode timed s) := answers_ite answers_next answers_stall

theorem answers_execStart (s : State) : answers (execStart s) := answers_ite answers_stall (answers_ite answers_stall answers_next)

theorem answers_execIdem (off : BitVec 38) (s : State) : answers (execIdem off s) := by
  refine answers_ite (answers_ite answers_trap (answers_ite answers_stall (answers_ite answers_stall (answers_ite answers_trap ?_)))) answers_stall
  split
  · exact answers_trap
  · exact answers_ite answers_trap answers_next

/-! Tasks and traps -/

theorem answers_execTend (s : State) : answers (execTend s) := answers_ite (answers_ite answers_next answers_await) answers_stall

theorem answers_execRenq (sd sa sb : SReg) (s : State) : answers (execRenq sd sa sb s) := by
  refine answers_ite answers_trap (answers_orTrap fun key => answers_ite answers_trap ?_)
  dsimp only
  split
  · exact answers_done
  · exact answers_done
  · exact answers_await
  · exact answers_ite answers_await answers_stall

theorem answers_execSeqget (sc : Scope) (sd sa : SReg) (s : State) : answers (execSeqget sc sd sa s) :=
  answers_ite answers_done (answers_ite answers_done answers_done)

theorem answers_execAppt (sd sa sb sc : SReg) (s : State) : answers (execAppt sd sa sb sc s) :=
  answers_ite answers_trap (answers_ite answers_trap (answers_ite answers_trap
    (answers_orTrap fun _ => answers_orTrap fun _ => answers_ite answers_trap answers_done)))

theorem answers_execTret (s : State) : answers (execTret s) := by
  unfold execTret
  split
  · exact answers_next
  · exact answers_trap

theorem answers_execTretSkip (s : State) : answers (execTretSkip s) := by
  unfold execTretSkip
  split
  · exact answers_ite answers_trap answers_next
  · exact answers_trap

theorem answers_execTsave (sa : SReg) (s : State) : answers (execTsave sa s) := by
  unfold execTsave
  split
  · exact answers_ite answers_trap (answers_ite answers_trap (answers_orTrap fun _ => answers_ite answers_trap answers_done))
  · exact answers_trap

/-! Signals and copies -/

theorem answers_updateBarrier {s : State} {key : Nat} {arrive : Bool} {dbytes : BitVec 32} {sd : SReg} :
    answers (s.updateBarrier key arrive dbytes sd) := answers_orTrap fun _ => answers_done

theorem answers_copyWord (kind : Nat) (sd sa : SReg) (s : State) : answers (copyWord kind sd sa s) :=
  answers_ite answers_trap (answers_ite answers_stall
    (answers_orTrap fun _ => answers_orTrap fun _ => answers_ite answers_trap (answers_ite answers_trap answers_done)))

/-! Generators, maps and nests -/

theorem answers_execGload (g : GenNo) (sa : SReg) (s : State) : answers (execGload g sa s) := by
  refine answers_orTrap fun _ => answers_ite answers_trap (answers_ite (answers_orTrap fun _ => ?_) answers_done)
  split
  exact answers_done

theorem answers_bindByte {va : Nat} {b : Byte} {s : State} : answers (bindByte va b s) :=
  answers_orTrap fun _ => answers_ite answers_trap answers_done

theorem answers_execMapbind (sa : SReg) (m : MapNo) (s : State) : answers (execMapbind sa m s) :=
  answers_ite answers_trap (answers_orTrap fun _ => answers_ite (answers_ite answers_trap answers_bindByte) answers_trap)

theorem answers_execMapbindU (sa : SReg) (s : State) : answers (execMapbindU sa s) :=
  answers_ite answers_trap (answers_orTrap fun _ => answers_bindByte)

theorem answers_execMxfmt (sa sb sc : SReg) (s : State) : answers (execMxfmt sa sb sc s) :=
  answers_ite answers_trap (answers_ite (answers_ite answers_trap answers_stall) answers_done)

theorem answers_execMxgo (s : State) : answers (execMxgo s) := by
  refine answers_ite answers_await ?_
  dsimp only
  split
  · exact answers_trap
  · split
    · exact answers_trap
    · exact answers_ite answers_trap answers_done

theorem answers_execMxzero (acc : AccNo) (nm1 : BitVec 4) (s : State) : answers (execMxzero acc nm1 s) :=
  answers_ite answers_trap (answers_ite answers_done answers_next)

theorem answers_execMxsync (s : State) : answers (execMxsync s) := answers_ite answers_trap (answers_ite answers_done answers_stall)

/-! Moraine commands, collectives, reshards and kernels -/

theorem answers_execMdep (sd sa sb : SReg) (s : State) : answers (execMdep sd sa sb s) :=
  answers_orTrap fun _ => answers_ite answers_stall (answers_ite answers_await answers_finishWait)

theorem answers_execMtrydep (sd sa sb : SReg) (s : State) : answers (execMtrydep sd sa sb s) :=
  answers_orTrap fun _ => answers_ite answers_stall (answers_ite answers_done answers_await)

theorem answers_execClgrp (sd sa sb : SReg) (s : State) : answers (execClgrp sd sa sb s) :=
  answers_ite answers_trap (answers_ite answers_trap (answers_ite answers_trap
    (answers_orTrap fun _ => answers_ite answers_trap (answers_orTrap fun _ => answers_ite answers_trap answers_done))))

theorem answers_execClrun (sd sa : SReg) (s : State) : answers (execClrun sd sa s) := by
  refine answers_ite answers_trap (answers_ite answers_stall (answers_ite answers_trap (answers_orTrap fun _ => answers_ite answers_trap ?_)))
  split
  · exact answers_trap
  · exact answers_ite answers_stall (answers_orTrap fun _ => answers_ite answers_trap answers_done)

theorem answers_execRshd (sd sa sb sc : SReg) (ms md : MapNo) (prof : BitVec 4) (s : State) : answers (execRshd sd sa sb sc ms md prof s) := by
  refine answers_ite answers_trap (answers_ite answers_stall (answers_orTrap fun (t, m, n, p, s') => ?_))
  dsimp only
  split
  · exact answers_trap
  · split
    · exact answers_trap
    · exact answers_ite answers_trap (answers_ite answers_trap answers_done)

theorem answers_execRshdq (sd sa sb : SReg) (ms md : MapNo) (s : State) : answers (execRshdq sd sa sb ms md s) :=
  answers_orTrap fun _ => answers_orTrap fun _ => answers_done

theorem answers_execNmrun (sd sa : SReg) (s : State) : answers (execNmrun sd sa s) := by
  refine answers_ite answers_trap (answers_ite answers_stall (answers_orTrap fun _ => answers_ite answers_trap ?_))
  dsimp only
  split
  · exact answers_trap
  · exact answers_ite answers_trap answers_done

theorem answers_execNmstop (sd sa : SReg) (s : State) : answers (execNmstop sd sa s) := by
  unfold execNmstop
  split
  · exact answers_done
  · split
    · exact answers_stall
    · exact answers_done

/-! Vector memory and vector words -/

theorem answers_execVldx (o : TensorIx) (s : State) : answers (execVldx o s) := by
  refine answers_orTrap fun _ => answers_orTrap fun _ => ?_
  dsimp only
  split
  · exact answers_trap
  · exact answers_ite answers_trap answers_lineStep

theorem answers_execVsx (o : TensorIx) (s : State) : answers (execVsx o s) := by
  refine answers_orTrap fun _ => answers_orTrap fun _ => ?_
  dsimp only
  split
  · exact answers_trap
  · exact answers_ite answers_trap (answers_ite answers_trap answers_lineStep)

theorem answers_execVsdrain (acc : AccNo) (sa sb sc : SReg) (ty : Fmt) (rm : RMode) (g : GenNo) (k : BitVec 4) (cc nt : Bool)
    (ccid : BitVec 5) (s : State) : answers (execVsdrain acc sa sb sc ty rm g k cc nt ccid s) :=
  answers_ite answers_trap (answers_orTrap fun _ => answers_afterChecks answers_storeAll)

theorem answers_execVupd (ty : Fmt) (sa sb : SReg) (s : State) : answers (execVupd ty sa sb s) :=
  answers_ite answers_trap (answers_ite answers_trap (answers_ite answers_trap (answers_ite answers_trap
    (answers_orTrap fun _ => answers_ite answers_trap (answers_ite answers_done (answers_ite answers_trap answers_await))))))

/-! The words of the text -/

/-- A word that has an encoding, with any operands and in any state, answers a next state. -/
theorem answers_exec {i : Instr} (h : i.isWord) (s : State) : answers (exec i s) := by
  cases i with
  -- words that finish
  | add | sub | mul | mulh | div | rem | and | or | xor | shl | shr | sra | min | max | cmp | sel | addi | muli | andi | ori | xori | shli | shri
  | srai | cmpi | li | lui | clz | popc | lea | ext | pf | qalign | seqw | tack | cpcancel | mxcfg | mxcancel | mxcancelAll | mxprog | mxprogQ
  | gget | gskip | gkey | nmstat | vlpf | xtr | xperm | xcat | viota | vaddi | vmuli | vandi | vori | vshli | vshri | vli | vslide | vcmp | vcmpi
  | vsel | vmand | vmor | vmxor | vmnot | vmpop | vmfirst | vbcast | vperm | vaccr | vaccw | vredmax | vredmin | vexp2 | vlog2 | vrcp | vrsqrt
  | vsinT | vcosT | nop => exact answers_done
  -- words that finish after their checks
  | ldacq | wsys | barinit | mxcfgl | gsave | mapst | xhq | xhdq | vcvt | vcvtmx | vdqmx | vadd | vsub | vmul | vfma | vfms | vmin | vmax
  | vabs | vneg | vdiv | vsqrt | vand | vor | vxor | vnot | vshl | vshr | vsra | vadds | vsubs | vmov => exact answers_orTrap fun _ => answers_done
  | vredsum | vdot => exact answers_need answers_done
  | rgfill | rgrel => exact answers_orTrap fun _ => answers_orTrap fun _ => answers_done
  | prio | tmask | gset | gdraw | mxgoResume | clchunk | clstatCc | clstatGrp | gfill | gfillS => exact answers_ite answers_trap answers_done
  | mapset => exact answers_ite answers_trap (answers_ite answers_trap answers_done)
  | mapld => exact answers_orTrap fun _ => answers_ite answers_trap (answers_ite answers_trap answers_done)
  | xunpk | xpk => exact answers_ite answers_done answers_done
  -- scalar memory
  | ld => exact answers_execLd _ _ _ _ _
  | st => exact answers_execSt _ _ _ _ _
  | strel => exact answers_execStrel _ _ _ _ _ _
  | amo | amocas | red => exact answers_atomicWord _ _ _ _ _ _ _ _
  | fence => exact answers_ite answers_stall (answers_ite answers_stall answers_done)
  -- system registers, tasks and traps
  | rsys => exact answers_execRsys _ _ _
  | xsys => exact answers_execXsys _ _ _ _
  | yield => exact answers_await
  | tend => exact answers_execTend _
  | renq => exact answers_execRenq _ _ _ _
  | seqget => exact answers_execSeqget _ _ _ _
  | appt => exact answers_execAppt _ _ _ _ _
  | trap => exact answers_trap
  | tret => exact answers_execTret _
  | tretSkip => exact answers_execTretSkip _
  | tretAbandon => exact answers_ite answers_next answers_trap
  | tsave => exact answers_execTsave _ _
  -- signals and copies
  | cpld | cpst | cpg | cpsc | cpmem => exact answers_copyWord _ _ _ _
  | barexp | barar => exact answers_orTrap fun _ => answers_updateBarrier
  | bartry => exact answers_orTrap fun _ => answers_ite answers_done answers_done
  | barwait | waita | rgwaitf => exact answers_orTrap fun _ => answers_ite answers_finishWait answers_await
  | rgclaim => exact answers_orTrap fun _ => answers_ite (answers_orTrap fun _ => answers_finishWait) answers_await
  | rgtry => exact answers_orTrap fun _ => answers_ite (answers_orTrap fun _ => answers_done) answers_done
  -- generators, maps and nests
  | gload => exact answers_execGload _ _ _
  | mapbind => exact answers_execMapbind _ _ _
  | mapbindU => exact answers_execMapbindU _ _
  | mxfmt => exact answers_execMxfmt _ _ _ _
  | mxgo => exact answers_execMxgo _
  | mxzero => exact answers_execMxzero _ _ _
  | mxsync => exact answers_execMxsync _
  -- Moraine commands, collectives, reshards and kernels
  | mdep => exact answers_execMdep _ _ _ _
  | mtrydep => exact answers_execMtrydep _ _ _ _
  | mrd | mtake | mtryrd | mtrytk | mwithdraw => exact answers_orTrap fun _ => answers_ite answers_stall answers_await
  | clgrp => exact answers_execClgrp _ _ _ _
  | clrun => exact answers_execClrun _ _ _
  | rshd => exact answers_execRshd _ _ _ _ _ _ _ _
  | rshdq => exact answers_execRshdq _ _ _ _ _ _
  | nmrun => exact answers_execNmrun _ _ _
  | nmstop => exact answers_execNmstop _ _ _
  -- vector memory
  | vld | vldg | vldt | vldm | vlda => exact answers_afterChecks answers_loadInto
  | vldb => exact answers_ite answers_done (answers_afterChecks answers_done)
  | vst | vsc | vsm | vsa => exact answers_afterChecks answers_storeAll
  | vldx => exact answers_execVldx _ _
  | vsx => exact answers_execVsx _ _
  | vsdrain => exact answers_execVsdrain _ _ _ _ _ _ _ _ _ _ _ _
  | vupd => exact answers_execVupd _ _ _ _
  -- control flow
  | br => exact answers_execBr _ _ _ _ _
  | jmp => exact answers_jumpTo
  | jmpr => exact answers_execJmpr _ _ _
  | lpset => exact answers_execLpset _ _ _ _ _
  | lpend => exact answers_execLpend _ _ _
  | idem => exact answers_execIdem _ _
  | modeTimed | modeInter => exact answers_setMode _ _
  | start => exact answers_execStart _
  -- an event has no encoding
  | _ => exact absurd h Bool.false_ne_true

/-- Settles O60: what the decoder reads is a word of the text or no instruction; a word of the text answers a next state, and so does the
ILLEGAL trap of a word that is no instruction. -/
theorem everyWordOfTheTextAnswersNext : Obligations.EveryWordOfTheTextAnswersNext := by
  intro w sync i s h
  obtain hi | rfl := isWord_decodeWord h
  · exact answers_exec hi s
  · exact answers_trap

end Sys2Proof.Machine
end

section
/-! PROOFS. What a step leaves of the canonical form, part one: the ends of a word, its checks, and the words that only move registers or
load and store (R16, R132, R139). -/

namespace Sys2Proof.Machine

/-- The outcome keeps the canonical form: a next state has both memories in it. -/
def staysWf (r : Res) : Prop := ∀ t, r = .next t → t.memWf = true

/-- What a check hands on keeps the canonical form. -/
def yieldsWf {ε : Type} (r : Except ε State) : Prop := ∀ t, r = .ok t → t.memWf = true

/-- What a choice hands on keeps the canonical form. -/
def offersWf (o : Option State) : Prop := ∀ t, o = some t → t.memWf = true

theorem memWf_ite {c : Prop} [Decidable c] {a b : State} (ha : a.memWf = true) (hb : b.memWf = true) : (if c then a else b).memWf = true := by
  split
  · exact ha
  · exact hb

@[simp] theorem memWf_wr (s : State) (e : Eng) (d : Dest) (bm x : Nat) : (s.wr e d bm x).memWf = s.memWf := rfl
@[simp] theorem memWf_wrV (s : State) (e : Eng) (v : Nat) (lanes : Mask) (x : Nat) : (s.wrV e v lanes x).memWf = s.memWf := rfl
@[simp] theorem memWf_wrM (s : State) (e : Eng) (m : MaskNo) (bits : Mask) (x : Nat) : (s.wrM e m bits x).memWf = s.memWf := rfl
@[simp] theorem memWf_orFlags (s : State) (e : Eng) (f : Flags) : (s.orFlags e f).memWf = s.memWf := rfl

@[simp] theorem memWf_dropLines (s : State) (d : Nat) : (dropLines s d).memWf = s.memWf := rfl

@[simp] theorem memWf_wrS (s : State) (e : Eng) (r : SReg) (x : Word) : (s.wrS e r x).memWf = s.memWf := by
  unfold State.wrS
  split <;> rfl

theorem yieldsWf_ok {ε : Type} {s : State} (h : s.memWf = true) : yieldsWf (.ok s : Except ε State) := fun _ ht => by cases ht; exact h

theorem yieldsWf_error {ε : Type} {c : ε} : yieldsWf (.error c) := fun _ ht => nomatch ht

theorem offersWf_some {s : State} (h : s.memWf = true) : offersWf (some s) := fun _ ht => by cases ht; exact h

theorem offersWf_none : offersWf none := fun _ ht => nomatch ht

theorem offersWf_ite {c : Prop} [Decidable c] {a b : Option State} (ha : offersWf a) (hb : offersWf b) : offersWf (if c then a else b) := by
  split
  · exact ha
  · exact hb

theorem staysWf_next {s : State} (h : s.memWf = true) : staysWf (.next s) := fun _ ht => by cases ht; exact h

theorem staysWf_ite {c : Prop} [Decidable c] {a b : Res} (ha : staysWf a) (hb : staysWf b) : staysWf (if c then a else b) := by
  split
  · exact ha
  · exact hb

section
variable {s : State} (h : s.memWf = true)
include h

/-! The ends of a word -/

theorem staysWf_done {e : Eng} : staysWf (s.done e) := fun _ ht => memWf_done h ht
theorem staysWf_stall {e : Eng} : staysWf (s.stall e) := fun _ ht => memWf_stall h ht
theorem staysWf_await {e : Eng} {w : Wait} : staysWf (s.await e w) := fun _ ht => memWf_await h ht
theorem staysWf_trap {e : Eng} {code : Code} {arg : BitVec 16} {t6 : Bool} : staysWf (s.trap e code arg t6) := fun _ ht => memWf_trap h ht
theorem staysWf_heldTrap {t : TrapHeld} : staysWf (s.heldTrap t) := staysWf_trap h
theorem staysWf_jumpTo {e : Eng} {dst : Word} : staysWf (s.jumpTo e dst) := staysWf_next (by exact h)
theorem staysWf_finishWait {e : Eng} : staysWf (s.finishWait e) := staysWf_next (by exact h)

/-! What leads to them -/

theorem staysWf_need {e : Eng} {c : Bool} {code : Code} {k : Res} (hk : staysWf k) : staysWf (need s e c code k) :=
  staysWf_ite hk (staysWf_trap h)

theorem staysWf_orTrap {α : Type} {e : Eng} {x : Except Code α} {k : α → Res} (hk : ∀ a, x = .ok a → staysWf (k a)) : staysWf (orTrap s e x k) :=
  fun _ ht => memWf_orTrap h (fun a u hx hu => hk a hx u hu) ht

theorem staysWf_afterChecks {e : Eng} {kind : Kind} {align : Nat} {l : List (Nat × Nat)} {k : Res} (hk : staysWf k) :
    staysWf (afterChecks s e kind align l k) := by
  unfold afterChecks
  split
  · exact staysWf_trap h
  · exact hk

/-! Accesses of the load and store engines, whole or torn (R145) -/

theorem memWf_loadRuns (l : List (Nat × Nat × Nat)) : (loadRuns l s).2.memWf = true := by
  induction l generalizing s with
  | nil => exact h
  | cons x r ih =>
    obtain ⟨off, va, n⟩ := x
    exact ih (memWf_load h va n)

theorem memWf_storeGen (e : Eng) (gen : Option GenRef) (nt : Bool) (va : Nat) (bs : List Byte) : (s.storeGen e gen nt va bs).memWf = true := by
  unfold State.storeGen
  split
  · exact memWf_writePieces _ _ _ _ _ _ _ h
  · exact memWf_store h _ _ _ _

theorem memWf_tearUnits (e : Eng) (gen : Option GenRef) (nt : Bool) (tick : Nat) (l : List (Nat × Nat × List Byte)) (held : List (Nat × Nat))
    (rest : List TornUnit) : (tearUnits e gen nt tick l held rest s).2.memWf = true := by
  induction l generalizing s held rest with
  | nil => exact h
  | cons x r ih =>
    obtain ⟨n, va, bs⟩ := x
    unfold tearUnits
    split
    · exact ih (memWf_learnSpot h _ _ _ _ _) _ _
    · exact ih (memWf_storeGen h _ _ _ _ _) _ _

theorem memWf_tearStores (e : Eng) (gen : Option GenRef) (nt : Bool) (l : List (Nat × List Byte)) : (s.tearStores e gen nt l).2.memWf = true := by
  unfold State.tearStores
  split
  · exact memWf_tearUnits h _ _ _ _ _ _ _
  · exact memWf_foldl _ (fun _ _ h => memWf_storeGen h _ _ _ _ _) _ h

theorem memWf_performTorn (e : Eng) (l : List TornUnit) : (s.performTorn e l).memWf = true :=
  memWf_foldl _ (fun _ _ h => memWf_putSpot h _ _ _ _ _ _ _) _ h

theorem staysWf_loaded {e : Eng} {d : Dest} {bm val : Nat} {later : List (Nat × Nat × Nat)} : staysWf (s.loaded e d bm val later) :=
  staysWf_ite (staysWf_done (by rw [memWf_wr]; exact h)) (staysWf_await h)

theorem staysWf_loadInto {e : Eng} {d : Dest} {bm : Nat} {runs : List (Nat × Nat × Nat)} : staysWf (s.loadInto e d bm runs) :=
  staysWf_loaded (memWf_loadRuns h _)

theorem staysWf_storedAll {e : Eng} {rest : List TornUnit} {events : Flags} {count : Option Nat} : staysWf (s.storedAll e rest events count) := by
  refine staysWf_ite (staysWf_done ?_) (staysWf_await h)
  cases count <;> exact h

theorem staysWf_storeAll {e : Eng} {nt : Bool} {l : List (Nat × List Byte)} {events : Flags} {count : Option Nat} :
    staysWf (s.storeAll e nt l events count) := staysWf_storedAll (memWf_tearStores h _ _ _ _)

/-! Scalar accesses, fences and what the queues hold back (R141 to R148) -/

theorem memWf_acquire (sc : Scope) : (s.acquire sc).memWf = true := memWf_ite ((memWf_dropLines s _).trans h) h

theorem memWf_observe (c : Nat) (sc : Scope) (spot size : Nat) : (s.observe c sc spot size).memWf = true :=
  memWf_ite h (by rw [memWf_setCore]; exact h)

theorem memWf_fenceLoaded (c : Nat) (sc : Scope) : (s.fenceLoaded c sc).memWf = true := memWf_ite h (by rw [memWf_setCore]; exact h)

theorem memWf_fenceStores (sc : Scope) : (s.fenceStores sc).memWf = true := memWf_ite h (by rw [memWf_upd]; exact h)

theorem memWf_performed (va : Nat) : (s.performed va).memWf = true := by
  unfold State.performed
  split
  · exact memWf_drainCombineLine h _ _
  · exact h

theorem memWf_performLines (c : Nat) (asid : BitVec 12) (l : List Piece) : (performLines c asid l s).memWf = true := by
  fun_induction performLines c asid l s with
  | case1 s => exact h
  | case2 s va n r d hw t hl ih => exact ih (memWf_drainCombineLine (memWf_drainLine _ _ _ h) _ _)
  | case3 s va n r d hw c hl ih => exact ih h
  | case4 s va n r hw ih => exact ih h

theorem memWf_learnPieces (c : Nat) (asid : BitVec 12) (l : List Piece) : (learnPieces c asid l s).memWf = true := by
  fun_induction learnPieces c asid l s with
  | case1 s => exact h
  | case2 s va n r hw t ht ih => exact ih (memWf_learn h _ _ _ _ _)
  | case3 => exact h
  | case4 s va n r hw ih => exact ih h

theorem memWf_fetched (c va : Nat) : (s.fetched c va).memWf = true := by
  unfold State.fetched
  split
  · split
    · exact memWf_learn h _ _ _ _ _
    · exact h
  · exact h

theorem memWf_atSpot (va size : Nat) (f : State → Nat → State) (hf : ∀ n, (f s n).memWf = true) : (s.atSpot va size f).memWf = true := by
  refine memWf_ite h ?_
  split
  · exact hf _
  · exact h

theorem memWf_issueAccess (va size : Nat) (spot : Spot) (load : Option (Fmt × Nat)) (data : List Byte) (rel : Option Scope) :
    (s.issueAccess va size spot load data rel).memWf = true := by
  have hl := memWf_learnSpot h s.cur.core s.here.sys.asid va false spot
  unfold State.issueAccess
  dsimp only
  split
  · exact hl
  · exact memWf_performQueue (by exact hl) _ _

theorem staysWf_queued {kind : Kind} {va size : Nat} {load : Option (Fmt × Nat)} {data : List Byte} {rel : Option Scope} :
    staysWf (s.queued kind va size load data rel) := staysWf_orTrap h fun _ _ => staysWf_done (memWf_issueAccess h _ _ _ _ _ _)

theorem memWf_landPend (c : Nat) : (s.landPend c).memWf = true := memWf_landDue h c _

theorem memWf_performAll (c : Nat) : (s.performAll c).memWf = true := memWf_performQueue h c _

theorem memWf_atomicOrder (va size : Nat) (sc : Scope) (o : BitVec 2) (nos : List Nat) : (s.atomicOrder va size sc o nos).memWf = true := by
  unfold State.atomicOrder
  split
  · rename_i x _
    have ha : (if ordAcquire o then s.observe s.cur.core sc x.code size else s).memWf = true := memWf_ite (memWf_observe h _ _ _ _) h
    exact memWf_ite (memWf_published ha _ _ _ _ _ _) ha
  · exact h

theorem yieldsWf_atBank (key : Nat) (op : BankOp) (x : Nat) (sd : SReg) : yieldsWf (s.atBank key op x sd) := by
  unfold State.atBank
  split
  · dsimp only
    split
    · exact yieldsWf_error
    · exact yieldsWf_ok (by rw [memWf_upd]; exact h)
  · split
    · exact yieldsWf_error
    · rename_i hb
      exact yieldsWf_ok (by rw [memWf_wrS]; exact (bankOp_spec hb).2 h)

theorem staysWf_execLd (ty : Fmt) (sd sa : SReg) (imm : BitVec 27) : staysWf (execLd ty sd sa imm s) :=
  staysWf_orTrap h fun _ _ => staysWf_ite (staysWf_queued h)
    (staysWf_done (by rw [memWf_wrS]; exact memWf_atSpot (memWf_load h _ _) _ _ _ fun _ => memWf_saw (memWf_load h _ _) _ _ _))

theorem staysWf_execSt (ty : Fmt) (sc sa : SReg) (imm : BitVec 27) : staysWf (execSt ty sc sa imm s) :=
  staysWf_orTrap h fun _ _ => staysWf_ite (staysWf_queued h)
    (staysWf_done (memWf_atSpot (memWf_store h _ _ _ _) _ _ _ fun _ => memWf_publishFences (memWf_store h _ _ _ _) _ _ _))

theorem staysWf_execLdacq (ty : Fmt) (sc : Scope) (sd sa : SReg) (imm : BitVec 24) : staysWf (execLdacq ty sc sd sa imm s) := by
  refine staysWf_orTrap h fun _ _ => staysWf_done (memWf_acquire ?_ _)
  rw [memWf_wrS]
  have hl {va n : Nat} {p : Late → Bool} : (((s.performQueue s.cur.core p).acquire sc).load va n).2.memWf = true :=
    memWf_load (memWf_acquire (memWf_performQueue h _ _) _) _ _
  exact memWf_atSpot hl _ _ _ fun _ => memWf_observe hl _ _ _ _

theorem staysWf_execStrel (ty : Fmt) (sc : Scope) (src sa : SReg) (imm : BitVec 24) : staysWf (execStrel ty sc src sa imm s) := by
  have hr := memWf_release h sc
  refine staysWf_orTrap h fun _ _ => staysWf_ite (staysWf_stall h) (staysWf_ite (staysWf_stall hr) (staysWf_ite (staysWf_queued h) ?_))
  dsimp only
  have ht {va n : Nat} {bs : List Byte} : ((((s.release sc).store .sq va bs).performed n).release sc).memWf = true :=
    memWf_release (memWf_performed (memWf_store hr _ _ _ _) _) _
  refine staysWf_done ?_
  split
  · exact memWf_published ht _ _ _ _ _ _
  · exact ht

theorem staysWf_atomicWord (sd : Option SReg) (ty : Fmt) (sc : Scope) (o : BitVec 2) (va : Nat) (op : BankOp) (x : Nat) :
    staysWf (atomicWord sd ty sc o va op x s) := by
  refine staysWf_orTrap h fun place _ => staysWf_ite (staysWf_stall h) ?_
  have hu : (if ordRelease o = true then s.release sc else s).memWf = true := memWf_ite (memWf_release h sc) h
  dsimp only
  generalize (if ordRelease o = true then s.release sc else s) = u at hu
  refine staysWf_ite (staysWf_stall hu) ?_
  generalize (if u.here.sys.timed = true then place else .glob) = q
  cases q with
  | spad key => exact staysWf_orTrap hu fun t ht => staysWf_done (memWf_ite (memWf_acquire (yieldsWf_atBank hu _ _ _ _ t ht) _) (yieldsWf_atBank hu _ _ _ _ t ht))
  | glob =>
    have hx := memWf_atomicUpdate hu .sq va (ty.bits / 8) sc (op.next x)
    dsimp only
    generalize atomicUpdate u .sq va (ty.bits / 8) sc (op.next x) = y at hx
    have ha : (if ordAcquire o = true then y.2.acquire sc else y.2).memWf = true := memWf_ite (memWf_acquire hx _) hx
    have hb {v : State} (hv : v.memWf = true) {nos : List Nat} : (if decide (o = 0) = true then v else v.atomicOrder va (ty.bits / 8) sc o nos).memWf = true :=
      memWf_ite hv (memWf_atomicOrder hv _ _ _ _ _)
    cases sd with
    | some sd => exact staysWf_done (by rw [memWf_wrS]; exact hb ha)
    | none => exact staysWf_done (hb ha)

theorem staysWf_execFence (k : FenceKind) (sc : Scope) : staysWf (execFence k sc s) := by
  refine staysWf_ite (staysWf_stall h) ?_
  have hu : (if k = .acq then s.performQueue s.cur.core fun l => l.load.isSome else (s.release sc).fenceStores sc).memWf = true :=
    memWf_ite (memWf_performQueue h _ _) (memWf_fenceStores (memWf_release h _) _)
  exact staysWf_ite (staysWf_stall hu) (staysWf_done (memWf_ite hu (memWf_acquire (memWf_fenceLoaded hu _ _) _)))

theorem staysWf_execVldb (o : Strided) : staysWf (execVldb o s) :=
  staysWf_ite (staysWf_done h) (staysWf_afterChecks h (staysWf_done (by rw [memWf_wrV]; exact memWf_load h _ _)))

theorem staysWf_execVsdrain (acc : AccNo) (sa sb sc : SReg) (ty : Fmt) (rm : RMode) (g : GenNo) (k : BitVec 4) (cc nt : Bool)
    (ccid : BitVec 5) : staysWf (execVsdrain acc sa sb sc ty rm g k cc nt ccid s) :=
  staysWf_ite (staysWf_trap h) (staysWf_orTrap h fun _ _ => staysWf_afterChecks h (staysWf_storeAll h))

end

end Sys2Proof.Machine
end

section
/-! PROOFS. What a step leaves of the canonical form, part two: control flow, tasks, generators, nests, signals, shapes and remote lines. -/

namespace Sys2Proof.Machine

/-- What a check hands on beside a value keeps the canonical form. -/
def pairsWf {ε α : Type} (r : Except ε (α × State)) : Prop := ∀ a t, r = .ok (a, t) → t.memWf = true

theorem pairsWf_ok {ε α : Type} {a : α} {s : State} (h : s.memWf = true) : pairsWf (.ok (a, s) : Except ε (α × State)) :=
  fun _ _ ht => by cases ht; exact h

theorem pairsWf_error {ε α : Type} {c : ε} : pairsWf (.error c : Except ε (α × State)) := fun _ _ ht => nomatch ht

theorem pairsWf_ite {ε α : Type} {c : Prop} [Decidable c] {a b : Except ε (α × State)} (ha : pairsWf a) (hb : pairsWf b) :
    pairsWf (if c then a else b) := by
  split
  · exact ha
  · exact hb

/-- A check that hands on a state, and the word goes on from there. -/
theorem staysWf_orTrap_pair {α : Type} {s : State} (h : s.memWf = true) {e : Eng} {x : Except Code (α × State)} {k : α × State → Res}
    (hx : pairsWf x) (hk : ∀ a t, t.memWf = true → staysWf (k (a, t))) : staysWf (orTrap s e x k) :=
  staysWf_orTrap h fun (a, t) ha => hk a t (hx a t ha)

/-- Bytes that a remote store brings are set one by one. -/
theorem wf_setBytes {hbm : List Host.Cell} (hm : Memory.wf hbm = true) (l : List Nat) (a : Nat → Nat) (b : Nat → Byte) :
    Memory.wf (l.foldl (fun m i => Bank.set 0 m (a i) (b i)) hbm) = true := by
  induction l generalizing hbm with
  | nil => exact hm
  | cons i l ih => exact ih (Bank.wf_set _ _ hm)

@[simp] theorem memWf_writeGroup (e : Eng) (v : Nat) (l : List Nat) (s : State) : (writeGroup e v l s).memWf = s.memWf := by
  induction l generalizing s v with
  | nil => rfl
  | cons x r ih => exact ih (v + 1) (s.wr e (.v v) (ones 8192) x)

section
variable {s : State} (h : s.memWf = true)
include h

/-! Words that only write a register -/

theorem staysWf_wrS {e : Eng} {r : SReg} {x : Word} : staysWf ((s.wrS e r x).done e) := staysWf_done ((memWf_wrS s e r x).trans h)

theorem staysWf_group {e : Eng} {v : Nat} {l : List Nat} : staysWf ((writeGroup e v l s).done e) := staysWf_done ((memWf_writeGroup e v l s).trans h)

theorem staysWf_groupFlags {e : Eng} {v : Nat} {l : List Nat} {f : Flags} : staysWf (((writeGroup e v l s).orFlags e f).done e) :=
  staysWf_done ((memWf_orFlags _ _ _).trans ((memWf_writeGroup e v l s).trans h))

/-! Control flow -/

theorem memWf_appendEntry (v : Word) : (s.appendEntry v).memWf = true := memWf_ite h (by rw [memWf_upd]; exact h)

/-- A word of another engine than the sequencer takes its control entry, or stalls where there is none (R90). -/
theorem staysWf_takeEntry {e : Eng} {k : Word → State → Res} (hk : ∀ v t, t.memWf = true → staysWf (k v t)) :
    staysWf (match s.takeEntry e with | none => s.stall e | some (v, t) => k v t) := by
  cases ht : s.takeEntry e with
  | none => exact staysWf_stall h
  | some x =>
    refine hk x.1 x.2 ?_
    unfold State.takeEntry at ht
    split at ht
    · cases ht
    · split at ht
      · cases ht
      · cases ht; exact h

theorem staysWf_execBr (c : Cond) (sa sb : SReg) (off : BitVec 26) : staysWf (execBr c sa sb off s) :=
  staysWf_ite (staysWf_ite (staysWf_stall h) (staysWf_ite (staysWf_jumpTo (memWf_appendEntry h _)) (staysWf_done (memWf_appendEntry h _))))
    (staysWf_takeEntry h fun _ _ h => staysWf_ite (staysWf_jumpTo h) (staysWf_done h))

theorem staysWf_execJmp (sd : SReg) (off : BitVec 38) : staysWf (execJmp sd off s) :=
  staysWf_jumpTo (memWf_ite ((memWf_wrS s _ _ _).trans h) h)

theorem staysWf_execJmpr (sd sa : SReg) : staysWf (execJmpr sd sa s) :=
  staysWf_ite (staysWf_ite (staysWf_trap h) (staysWf_ite (staysWf_stall h) (staysWf_jumpTo (memWf_appendEntry ((memWf_wrS s _ _ _).trans h) _))))
    (staysWf_takeEntry h fun _ _ h => staysWf_jumpTo h)

theorem staysWf_execLpset (lc : BitVec 2) (fromReg : Bool) (sa : SReg) (imm : BitVec 32) : staysWf (execLpset lc fromReg sa imm s) :=
  staysWf_ite (staysWf_ite (staysWf_stall h) (staysWf_done ((memWf_upd _ _).trans (memWf_appendEntry h _))))
    (staysWf_takeEntry h fun _ t h => staysWf_done ((memWf_upd t _).trans h))

theorem staysWf_execLpend (lc : BitVec 2) (off : BitVec 38) : staysWf (execLpend lc off s) :=
  staysWf_ite (staysWf_jumpTo ((memWf_upd s _).trans h)) (staysWf_done ((memWf_upd s _).trans h))

theorem staysWf_setMode (timed : Bool) : staysWf (setMode timed s) :=
  staysWf_ite (staysWf_next ((memWf_upd _ _).trans (memWf_catchUp h _ _))) (staysWf_stall h)

theorem staysWf_execStart : staysWf (execStart s) := by
  refine staysWf_ite (staysWf_stall h) ?_
  have hu {c : Nat} : (if s.here.sys.timed = true then s.catchUp s.cur.core c else s).memWf = true := memWf_ite (memWf_catchUp h _ _) h
  exact staysWf_ite (staysWf_stall hu) (staysWf_next ((memWf_upd _ _).trans hu))

theorem staysWf_execIdem (off : BitVec 38) : staysWf (execIdem off s) := by
  refine staysWf_ite (staysWf_ite (staysWf_trap h) (staysWf_ite (staysWf_stall h) (staysWf_ite (staysWf_stall (memWf_catchUp h _ _)) ?_))) (staysWf_stall h)
  dsimp only
  generalize hq : (if s.here.sys.timed = true then s.catchUp _ _ else s) = u
  have hu : u.memWf = true := hq ▸ memWf_ite (memWf_catchUp h _ _) h
  refine staysWf_ite (staysWf_trap hu) ?_
  generalize (target (u.en .sq).pc off).toNat = va
  split
  · exact staysWf_trap hu
  · have hl := memWf_load hu va 64
    generalize u.load va 64 = x at hl
    exact staysWf_ite (staysWf_trap hl) (staysWf_next ((memWf_upd _ _).trans hl))

/-! Generators, maps and the matrix engine's words -/

theorem memWf_of_load {va n : Nat} {bs : List Byte} {t : State} (hl : s.load va n = (bs, t)) : t.memWf = true := by
  have := memWf_load h va n
  rwa [hl] at this

theorem staysWf_execGload (g : GenNo) (sa : SReg) : staysWf (execGload g sa s) := by
  refine staysWf_orTrap h fun _ _ => ?_
  split
  rename_i t hx
  have ht := memWf_of_load h hx
  extract_lets r
  clear_value r
  split
  · exact staysWf_trap h
  · split
    · refine staysWf_orTrap h fun _ _ => ?_
      split
      rename_i hy
      exact staysWf_done ((memWf_wr _ _ _ _ _).trans (memWf_of_load ht hy))
    · exact staysWf_done ((memWf_wr _ _ _ _ _).trans ht)

theorem staysWf_execGdraw (sd : SReg) (g : GenNo) : staysWf (execGdraw sd g s) :=
  staysWf_ite (staysWf_trap h) (staysWf_done ((memWf_wr _ _ _ _ _).trans ((memWf_wrS s _ _ _).trans h)))

theorem staysWf_execMxfmt (sa sb sc : SReg) : staysWf (execMxfmt sa sb sc s) :=
  staysWf_ite (staysWf_trap h) (staysWf_ite (staysWf_ite (staysWf_trap h) (staysWf_stall h)) (staysWf_done ((memWf_upd s _).trans h)))

theorem staysWf_execMxcfgl (sa : SReg) : staysWf (execMxcfgl sa s) :=
  staysWf_orTrap h fun _ _ => staysWf_done (memWf_foldl _ (fun u _ hu => (memWf_wr u _ _ _ _).trans hu) _ (memWf_load h _ _))

theorem staysWf_execMxgo : staysWf (execMxgo s) := by
  refine staysWf_ite (staysWf_await ((memWf_upd s _).trans h)) ?_
  dsimp only
  split
  · exact staysWf_trap h
  · split
    · exact staysWf_trap h
    · exact staysWf_ite (staysWf_trap h) (staysWf_done (by rw [memWf_upd]; exact h))

theorem staysWf_execMxgoResume : staysWf (execMxgoResume s) := staysWf_ite (staysWf_trap h) (staysWf_done ((memWf_upd s _).trans h))

theorem staysWf_execMxgoQueueRoom : staysWf (execMxgoQueueRoom s) := by
  unfold execMxgoQueueRoom
  split
  · exact staysWf_ite (staysWf_next ((memWf_upd s _).trans h)) (staysWf_next h)
  · exact staysWf_next h

theorem staysWf_cancelWord (all : Bool) (sd : SReg) : staysWf (cancelWord all sd s) := staysWf_wrS ((memWf_setCore s _ _).trans h)

theorem staysWf_execMxzero (acc : AccNo) (nm1 : BitVec 4) : staysWf (execMxzero acc nm1 s) :=
  staysWf_ite (staysWf_trap h) (staysWf_ite (staysWf_done (memWf_foldl _ (fun u _ hu => (memWf_wr u _ _ _ _).trans hu) _ h))
    (staysWf_next ((memWf_upd s _).trans h)))

theorem staysWf_execMxsync : staysWf (execMxsync s) :=
  staysWf_ite (staysWf_trap h) (staysWf_ite (staysWf_done ((memWf_upd s _).trans h)) (staysWf_stall h))

/-! Chunk counters -/

theorem staysWf_execChunkCountIncrement (task : BitVec 32) (n : Nat) : staysWf (execChunkCountIncrement task n s) := by
  unfold execChunkCountIncrement
  split
  · exact staysWf_next h
  · exact staysWf_next (memWf_foldl drainCombine (fun _ c hu => memWf_drainCombine hu c) _ h)

/-! Nests (R223 to R240) -/

theorem pairsWf_operandRow (n : Nest) (i : Nat) (idx : List Nat) (r count : Nat) : pairsWf (s.operandRow n i idx r count) := by
  unfold State.operandRow
  refine pairsWf_ite (pairsWf_ok h) (pairsWf_ite (pairsWf_ite (pairsWf_ok h) (pairsWf_ok h)) ?_)
  dsimp only
  split
  · exact pairsWf_error
  · refine pairsWf_ite ?_ (pairsWf_ok (memWf_load h _ _))
    split
    · exact pairsWf_error
    · exact pairsWf_ok (memWf_load (memWf_load h _ _) _ _)

theorem pairsWf_loadTile (n : Nest) (idx : List Nat) (r : Nat) : pairsWf (s.loadTile n idx r) := by
  induction r with
  | zero => exact pairsWf_ok h
  | succ r ih =>
    unfold State.loadTile
    split
    · exact pairsWf_error
    · rename_i rows u hu
      have hw := pairsWf_operandRow (ih _ _ hu) n 1 idx r n.loop.kv
      split
      · exact pairsWf_error
      · rename_i hv
        exact pairsWf_ok (hw _ _ hv)

theorem staysWf_readAhead {n : Nest} {i step row : Nat} {chunk : Option Nat} : staysWf (s.readAhead n i step row chunk) := by
  unfold State.readAhead
  split
  · refine staysWf_ite (staysWf_next h) ?_
    split
    · exact staysWf_next h
    · exact staysWf_next ((memWf_upd _ _).trans (memWf_load h _ _))
  · exact staysWf_next h

theorem memWf_nestWrite (n : Nest) (c bm val : Nat) : (s.nestWrite n c bm val).1.memWf = true := by
  unfold State.nestWrite
  split
  · exact h
  · exact (memWf_upd s _).trans h

theorem staysWf_execNestStart : staysWf (execNestStart s) := by
  unfold execNestStart
  split
  · rename_i n _
    refine staysWf_ite (staysWf_next (memWf_ite ((memWf_upd s _).trans h) h)) (staysWf_ite (staysWf_next h) (staysWf_next ?_))
    have hc {c : Nat} : ((s.catchUp s.cur.core c).upd fun k => { k with nestRaces := [] }).memWf = true :=
      (memWf_upd _ _).trans (memWf_catchUp h _ c)
    exact (memWf_upd _ _).trans (memWf_ite hc h)
  · exact staysWf_next h

theorem staysWf_execNestLoadW : staysWf (execNestLoadW s) := by
  unfold execNestLoadW
  split
  · rename_i n _
    refine staysWf_ite (staysWf_next h) (staysWf_ite (staysWf_ite (staysWf_next h) (staysWf_readAhead h)) (staysWf_ite (staysWf_next h) ?_))
    have hl := pairsWf_loadTile h n (n.loop.wDigits n.step) n.loop.nv
    split
    · exact staysWf_next ((memWf_upd s _).trans h)
    · rename_i hu
      exact staysWf_next ((memWf_upd _ _).trans (hl _ _ hu))
  · exact staysWf_next h

theorem staysWf_execNestRow : staysWf (execNestRow s) := by
  unfold execNestRow
  split
  · rename_i n t _ _
    refine staysWf_ite (staysWf_next h) (staysWf_ite (staysWf_ite (staysWf_next h) (staysWf_readAhead h)) (staysWf_ite (staysWf_next h) ?_))
    have hl := pairsWf_operandRow h n 0 (n.loop.digits n.step) n.row n.loop.cn
    split
    · exact staysWf_next ((memWf_upd s _).trans h)
    · rename_i hu
      have hw {m : Nest} {c bm val : Nat} := memWf_nestWrite (hl _ _ hu) m c bm val
      exact staysWf_ite (staysWf_next ((memWf_upd _ _).trans hw)) (staysWf_next ((memWf_upd _ _).trans hw))
  · exact staysWf_next h

theorem memWf_drainWrite (n : Nest) (va : Nat) (bs : List Byte) : (s.drainWrite n va bs).1.memWf = true := by
  unfold State.drainWrite
  dsimp only
  split
  · split
    · exact h
    · exact memWf_setRun_spad h _ _
  · exact memWf_performLines (memWf_writeMem h _ _ _ _ _) _ _ _

/-- The drain of a nest writes its runs in turn. -/
theorem memWf_drainWrites (n : Nest) (l : List (Nat × List Byte)) :
    (l.foldl (fun (sn : State × Nest) r => sn.1.drainWrite sn.2 r.1 r.2) (s, n)).1.memWf = true := by
  induction l generalizing s n with
  | nil => exact h
  | cons r l ih => exact ih (memWf_drainWrite h n r.1 r.2) _

theorem staysWf_execNestDrain : staysWf (execNestDrain s) := by
  unfold execNestDrain
  split
  · rename_i n _
    split
    · split
      · exact staysWf_next h
      · extract_lets l rows
        clear_value l rows
        split
        · exact staysWf_next ((memWf_upd s _).trans h)
        · rename_i runs put _ _
          have hp (l : List (Nat × List Byte)) : (put l).1.memWf = true := memWf_drainWrites h n l
          clear_value put runs
          split
          · split
            · exact staysWf_ite (staysWf_next h) (staysWf_next ((memWf_upd _ _).trans (hp _)))
            · exact staysWf_next h
          · exact staysWf_next ((memWf_upd _ _).trans (memWf_ite (hp _) (hp _)))
    · exact staysWf_next h
  · exact staysWf_next h

/-! Barriers, words and rings (R186 to R191) -/

theorem memWf_putSpad (key n v : Nat) : (s.putSpad key n v).memWf = true := memWf_ite ((memWf_upd s _).trans h) (memWf_setSpad h _ _ _)

theorem memWf_acquired (key size : Nat) : (s.acquired key size).memWf = true := memWf_observe h _ _ _ _

theorem memWf_releasedAt (key : Nat) : (s.releasedAt key).memWf = true := memWf_published h _ _ _ _ _ _

theorem staysWf_atBank {key : Nat} {op : BankOp} {x : Nat} {sd : SReg} {k : State → Res} (hk : ∀ t, t.memWf = true → staysWf (k t)) :
    staysWf (orTrap s .sq (s.atBank key op x sd) k) := staysWf_orTrap h fun t ht => hk t (yieldsWf_atBank h _ _ _ _ t ht)

/-- What has found its object goes on with the order that the object gives it. -/
theorem staysWf_acquiredWait {f : Core → Core} {key n : Nat} : staysWf (((s.upd f).acquired key n).finishWait .sq) :=
  staysWf_finishWait (memWf_acquired ((memWf_upd s f).trans h) _ _)

theorem staysWf_execBarinit (sa sb sc : SReg) : staysWf (execBarinit sa sb sc s) := staysWf_orTrap h fun _ _ => staysWf_done (memWf_putSpad h _ _ _)

theorem staysWf_updateBarrier {key : Nat} {arrive : Bool} {dbytes : BitVec 32} {sd : SReg} : staysWf (s.updateBarrier key arrive dbytes sd) :=
  staysWf_atBank h fun _ ht => staysWf_done ht

theorem staysWf_execBartry (sd sa sb : SReg) : staysWf (execBartry sd sa sb s) :=
  staysWf_orTrap h fun _ _ => staysWf_ite
    (staysWf_done (memWf_acquired ((memWf_upd _ _).trans ((memWf_wrS s _ _ _).trans h)) _ _)) (staysWf_wrS h)

theorem staysWf_execBarwait (sa sb : SReg) : staysWf (execBarwait sa sb s) :=
  staysWf_orTrap h fun _ _ => staysWf_ite (staysWf_acquiredWait h) (staysWf_await h)

theorem staysWf_execBarwaitSatisfied : staysWf (execBarwaitSatisfied s) := by
  unfold execBarwaitSatisfied
  split
  · exact staysWf_ite (staysWf_acquiredWait h) (staysWf_next h)
  · exact staysWf_next h

theorem staysWf_execWaita (sa sb : SReg) : staysWf (execWaita sa sb s) :=
  staysWf_orTrap h fun _ _ => staysWf_ite (staysWf_acquiredWait h) (staysWf_await h)

theorem staysWf_execWaitaSatisfied : staysWf (execWaitaSatisfied s) := by
  unfold execWaitaSatisfied
  split
  · exact staysWf_ite (staysWf_acquiredWait h) (staysWf_next h)
  · exact staysWf_next h

theorem staysWf_execRgclaim (sd sa : SReg) : staysWf (execRgclaim sd sa s) :=
  staysWf_orTrap h fun _ _ => staysWf_ite (staysWf_atBank h fun _ ht => staysWf_finishWait ht) (staysWf_await h)

theorem memWf_setRing (key : Nat) (r : Ring) : (s.setRing key r).memWf = true := memWf_setSpad h _ _ _

theorem staysWf_execRgclaimSatisfied : staysWf (execRgclaimSatisfied s) := by
  unfold execRgclaimSatisfied
  split
  · split
    · exact staysWf_ite (staysWf_finishWait ((memWf_wrS _ _ _ _).trans (memWf_setRing h _ _))) (staysWf_next h)
    · exact staysWf_next h
  · exact staysWf_next h

theorem staysWf_execRgtry (sd sa : SReg) : staysWf (execRgtry sd sa s) :=
  staysWf_orTrap h fun _ _ => staysWf_ite (staysWf_atBank h fun _ ht => staysWf_done ht) (staysWf_wrS h)

theorem staysWf_execRgfill (sa sb : SReg) : staysWf (execRgfill sa sb s) :=
  staysWf_orTrap h fun _ _ => staysWf_atBank h fun _ ht => staysWf_done (memWf_releasedAt ht _)

theorem staysWf_execRgwaitf (sa sb : SReg) : staysWf (execRgwaitf sa sb s) :=
  staysWf_orTrap h fun _ _ => staysWf_ite (staysWf_finishWait (memWf_acquired h _ _)) (staysWf_await h)

theorem staysWf_execRgwaitfSatisfied : staysWf (execRgwaitfSatisfied s) := by
  unfold execRgwaitfSatisfied
  split
  · split
    · exact staysWf_ite (staysWf_finishWait (memWf_acquired h _ _)) (staysWf_next h)
    · exact staysWf_next h
  · exact staysWf_next h

theorem staysWf_execRgrel (sa sb : SReg) : staysWf (execRgrel sa sb s) :=
  staysWf_orTrap h fun _ _ => staysWf_atBank h fun _ ht => staysWf_done ht

/-! What leaves the package: its records, its packets and its requests -/

theorem memWf_putRec (r : LogRec) : (s.putRec r).memWf = true := by rw [putRec_spec]; exact h

theorem memWf_putRecs (l : List LogRec) : (l.foldl State.putRec s).memWf = true := by rw [putRecs_spec]; exact h

theorem memWf_logNum (cls num : Nat) (sseq : BitVec 32) (kind : Nat) (code : BitVec 8) (inH : Bool) (task aux : BitVec 32) (addr : Word) :
    (s.logNum cls num sseq kind code inH task aux addr).memWf = true := memWf_putRec h _

theorem memWf_logOwn (cls num kind : Nat) (code : BitVec 8) (inH : Bool) (task aux : BitVec 32) (addr : Word) :
    (s.logOwn cls num kind code inH task aux addr).memWf = true := by rw [logOwn_spec]; exact h

theorem memWf_logRefused (addr : Word) : (s.logRefused addr).memWf = true := memWf_logOwn h _ _ _ _ _ _ _ _

theorem memWf_logTask (c kind : Nat) (code : BitVec 8) (inH : Bool) (task : BitVec 32) (org : Origin) (addr : Word) :
    (s.logTask c kind code inH task org addr).memWf = true := by rw [logTask_spec]; exact h

theorem memWf_drainLog (n : Nat) : (State.drainLog n s).memWf = true := by
  induction n generalizing s with
  | zero => exact h
  | succ n ih =>
    unfold State.drainLog
    split
    · exact h
    · split
      · exact ih (memWf_putRec (by exact h) _)
      · exact h

theorem memWf_post (cls num : Nat) (seq : Option (BitVec 32)) (o : Out) (f : Fmt) : (s.post cls num seq o f).memWf = true := h

theorem memWf_sendOut (pkg : BitVec 48) (eng : Nat) (write : Bool) (cmd : Option (BitVec 32)) (f : Nat → Out) :
    (s.sendOut pkg eng write cmd f).memWf = true := h

theorem memWf_flushLog (inst : Nat) : (s.flushLog inst).memWf = true := memWf_putRecs (by exact h) _

theorem memWf_flushLaunch (part : BitVec 16) : (s.flushLaunch part).memWf = true := memWf_putRecs (by exact h) _

theorem memWf_logCommand (inst : Nat) (r : LogRec) : (s.logCommand inst r).memWf = true := memWf_flushLog (by exact h) _

theorem memWf_tellWatchers (gone : Watch → Bool) : (s.tellWatchers gone).memWf = true := memWf_foldl _ (fun _ _ hu => memWf_post hu _ _ _ _ _) _ h

theorem memWf_watchPreds (pkg : BitVec 48) (block : List Byte) : (s.watchPreds pkg block).memWf = true := by
  unfold State.watchPreds
  split
  · exact h
  · exact memWf_tellWatchers (by exact h) _

/-! The end of a command and of a task -/

theorem memWf_retire (inst : Nat) (p : BitVec 32) : (s.retire inst p).memWf = true := by
  refine memWf_flushLog (memWf_tellWatchers ?_ _) _
  split
  · exact (memWf_setCore s _ _).trans h
  · exact h

theorem memWf_taskEvent (inst : Nat) (ev : AsyncEv) : (s.taskEvent inst ev).memWf = true := by
  unfold State.taskEvent
  split
  · exact (memWf_setCore s _ _).trans h
  · exact h

theorem memWf_commandEvent (c inst : Nat) (task : BitVec 32) (code : Code) (eng : Nat) (seq : BitVec 32) (addr : Nat) :
    (s.commandEvent c inst task code eng seq addr).memWf = true := memWf_taskEvent (memWf_logCommand h _ _) _ _

theorem memWf_launchEnds (org : Origin) : (s.launchEnds org).memWf = true := by
  cases org with
  | launch p n => exact memWf_flushLaunch (by exact h) _
  | renq _ => exact h
  | away _ _ => exact h

theorem memWf_forget (inst : Nat) : (s.forget inst).memWf = true := memWf_flushLog (memWf_tellWatchers h _) inst

theorem memWf_retireTask (c : Nat) : (s.retireTask c).memWf = true :=
  (memWf_setCore _ _ _).trans (memWf_forget (memWf_launchEnds (memWf_logTask h _ _ _ _ _ _ _) _) _)

theorem memWf_enqueue (c : Nat) (q : QEntry) : (s.enqueue c q).memWf = true := h

/-! Tasks (R120 to R129, R262 to R278) -/

theorem staysWf_execYieldEnd : staysWf (execYieldEnd s) := by
  unfold execYieldEnd
  split
  · exact staysWf_ite (staysWf_finishWait h) (staysWf_next h)
  · exact staysWf_next h

theorem staysWf_execTend : staysWf (execTend s) :=
  staysWf_ite (staysWf_ite (staysWf_next (memWf_retireTask (memWf_landAll (memWf_catchUp h _ _) _) _)) (staysWf_await h)) (staysWf_stall h)

theorem staysWf_execRenq (sd sa sb : SReg) : staysWf (execRenq sd sa sb s) := by
  refine staysWf_ite (staysWf_trap h) (staysWf_orTrap h fun key _ => staysWf_ite (staysWf_trap h) ?_)
  have hl := memWf_load h (s.rdS .sq sa).toNat 64
  dsimp only
  split
  · exact staysWf_wrS hl
  · exact staysWf_wrS (memWf_enqueue hl _ _)
  · exact staysWf_await hl
  · exact staysWf_ite (staysWf_await (memWf_sendOut (memWf_watchPreds hl _ _) _ _ _ _ _)) (staysWf_stall hl)

theorem offersWf_takeRenq (r : RenqReq) : offersWf (s.takeRenq r) := by
  unfold State.takeRenq
  dsimp only
  split
  · exact offersWf_some (memWf_post h _ _ _ _ _)
  · exact offersWf_ite (offersWf_some (memWf_post h _ _ _ _ _)) (offersWf_ite (offersWf_some (memWf_post h _ _ _ _ _))
      (offersWf_ite (offersWf_some (memWf_post (memWf_enqueue h _ _) _ _ _ _ _)) offersWf_none))

theorem staysWf_arriveRenq (r : RenqReq) : staysWf (arriveRenq r s) := by
  unfold arriveRenq
  split
  · rename_i t ht
    exact staysWf_next (offersWf_takeRenq h r t ht)
  · exact staysWf_next (by exact h)

theorem staysWf_heldRenq : staysWf (heldRenq s) := by
  unfold heldRenq
  split
  · rename_i r _
    split
    · rename_i t ht
      exact staysWf_next (offersWf_takeRenq (s := { s with renqs := s.renqs.erase r }) h r t ht)
    · exact staysWf_next h
  · exact staysWf_next h

theorem staysWf_execRenqQueueRoom : staysWf (execRenqQueueRoom s) := by
  unfold execRenqQueueRoom
  split
  · split
    · exact staysWf_ite (staysWf_finishWait ((memWf_wrS _ _ _ _).trans (memWf_enqueue h _ _))) (staysWf_heldRenq h)
    · exact staysWf_heldRenq h
  · exact staysWf_heldRenq h

theorem staysWf_execSeqget (sc : Scope) (sd sa : SReg) : staysWf (execSeqget sc sd sa s) :=
  staysWf_ite (staysWf_wrS h) (staysWf_ite (staysWf_wrS h) (staysWf_done ((memWf_upd _ _).trans ((memWf_wrS _ _ _ _).trans (memWf_acquire h _)))))

theorem staysWf_execPrio (sd sa : SReg) : staysWf (execPrio sd sa s) := staysWf_ite (staysWf_trap h) (staysWf_wrS ((memWf_upd s _).trans h))

theorem staysWf_execAppt (sd sa sb sc : SReg) : staysWf (execAppt sd sa sb sc s) :=
  staysWf_ite (staysWf_trap h) (staysWf_ite (staysWf_trap h) (staysWf_ite (staysWf_trap h)
    (staysWf_orTrap h fun _ _ => staysWf_orTrap h fun _ _ => staysWf_ite (staysWf_trap h) (staysWf_wrS (memWf_store (memWf_load h _ _) _ _ _ _)))))

theorem staysWf_execTaskDispatch : staysWf (execTaskDispatch s) := by
  unfold execTaskDispatch
  dsimp only
  split
  · exact staysWf_next (by rw [memWf_setCore]; exact h)
  · exact staysWf_next h

theorem staysWf_execWatchdog : staysWf (execWatchdog s) :=
  staysWf_ite (staysWf_next h) (staysWf_ite (staysWf_trap ((memWf_upd s _).trans h)) (staysWf_next ((memWf_upd s _).trans h)))

/-! Shapes and tensor accesses (R156 to R166) -/

theorem pairsWf_readShape (tid : Nat) : pairsWf (s.readShape tid) := by
  unfold State.readShape
  refine pairsWf_ite pairsWf_error ?_
  split
  · exact pairsWf_error
  · dsimp only
    split
    · exact pairsWf_error
    · exact pairsWf_ite pairsWf_error (pairsWf_ok (memWf_load h _ _))

theorem pairsWf_tensorShape (e : Eng) (o : TensorIx) : pairsWf (s.tensorShape e o) := by
  refine pairsWf_ite pairsWf_error ?_
  have hr := pairsWf_readShape h (s.rdS e o.sa).toNat
  split
  · exact pairsWf_error
  · rename_i hu
    exact pairsWf_ite pairsWf_error (pairsWf_ok (hr _ _ hu))

theorem memWf_pumpLines (e : Eng) (f : Nat) (op : LineOp) : (State.pumpLines e f op s).2.memWf = true := by
  induction f generalizing s op with
  | zero => exact h
  | succ f ih =>
    unfold State.pumpLines
    split
    · exact h
    · split
      · exact ih (memWf_sendOut h _ _ _ _ _) _
      · exact h

theorem memWf_lineNext (e : Eng) (op : LineOp) : (s.lineNext e op).memWf = true := by
  have hp := memWf_pumpLines h e op.todo.length op
  refine memWf_ite ((memWf_upd _ _).trans (memWf_ite hp ((memWf_wrV _ _ _ _ _).trans hp))) ((memWf_upd _ _).trans hp)

theorem staysWf_lineStep {e : Eng} {op : LineOp} : staysWf (s.lineStep e op) := staysWf_next (memWf_lineNext h e op)

theorem memWf_resumeLine (c : Nat) (e : Eng) : (State.resumeLine c s e).memWf = true := by
  unfold State.resumeLine
  split
  · exact memWf_ite (memWf_lineNext (s := { s with cur := { s.cur with core := c } }) h e _) h
  · exact h

theorem memWf_resumeLines (c : Nat) : (s.resumeLines c).memWf = true := memWf_foldl _ (fun _ e hu => memWf_resumeLine hu c e) _ h

theorem memWf_freeSlots (c : Nat) (p : RemoteOut → Bool) : (s.freeSlots c p).memWf = true := memWf_resumeLines ((memWf_setCore s _ _).trans h) _

theorem staysWf_execVldx (o : TensorIx) : staysWf (execVldx o s) := by
  refine staysWf_orTrap_pair h (pairsWf_tensorShape h _ _) fun t u hu => staysWf_orTrap h fun m _ => ?_
  dsimp only
  split
  · exact staysWf_trap h
  · exact staysWf_ite (staysWf_trap h) (staysWf_lineStep (memWf_loadRuns hu _))

theorem staysWf_execVsx (o : TensorIx) : staysWf (execVsx o s) := by
  refine staysWf_orTrap_pair h (pairsWf_tensorShape h _ _) fun t u hu => staysWf_orTrap h fun m _ => ?_
  dsimp only
  split
  · exact staysWf_trap h
  · exact staysWf_ite (staysWf_trap h) (staysWf_ite (staysWf_trap h) (staysWf_lineStep (memWf_tearStores hu _ _ _ _)))

theorem memWf_lineRequest (r : LineReq) : (lineRequest r s).memWf = true := by
  unfold lineRequest
  dsimp only
  split
  · exact memWf_post h _ _ _ _ _
  · rename_i t _
    have hl := memWf_sameButCaches h (sameButCaches_learnHome s r.asid t true)
    refine memWf_ite (memWf_post (memWf_homeTo (memWf_admitGen hl _ _) ?_ _ _) _ _ _ _ _) (memWf_post hl _ _ _ _ _)
    split
    · exact wf_setBytes (wf_hbm (memWf_admitGen hl _ _)) _ _ _
    · exact wf_hbm (memWf_admitGen hl _ _)

theorem staysWf_deliverLine {e : Eng} {tag : Nat} {data : List Byte} : staysWf (s.deliverLine e tag data) := by
  unfold State.deliverLine
  split
  · exact staysWf_lineStep h
  · exact staysWf_ite (staysWf_ite (staysWf_finishWait ((memWf_wrS s _ _ _).trans h)) (staysWf_wrS h)) (staysWf_next h)
  · exact staysWf_next h

theorem staysWf_wordResponse (core tag : Nat) (data : List Byte) : staysWf (wordResponse core tag data s) := by
  unfold wordResponse
  refine staysWf_ite (fun _ ht => nomatch ht) ?_
  dsimp only
  split
  · exact staysWf_next (by exact h)
  · refine staysWf_ite (staysWf_next (by rw [memWf_upd]; exact h)) ?_
    split
    · rename_i u hu
      exact staysWf_next (memWf_resumeLines (staysWf_deliverLine (by rw [memWf_upd]; exact h) u hu) _)
    · rename_i r hr
      exact fun t ht => absurd ht (hr t)

/-! Packed blocks and map registers -/

theorem pairsWf_hadamardShape (sa sb : SReg) (rm : RMode) (g : GenNo) (x : Shape) (n : Nat) (f : Int → Int → Nat) (t : State)
    (ht : s.hadamardShape sa sb rm g = .ok (x, n, f, t)) : t.memWf = true := by
  unfold State.hadamardShape at ht
  dsimp only at ht
  split at ht
  · rename_i hu _ _
    split at ht
    · cases ht
    · cases ht
      split at hu
      · cases hu
      · exact pairsWf_readShape h _ _ _ hu
  · cases ht

theorem staysWf_hadamard {sa sb : SReg} {rm : RMode} {g : GenNo} {k : Shape × Nat × (Int → Int → Nat) × State → Res}
    (hk : ∀ x n f t, t.memWf = true → staysWf (k (x, n, f, t))) : staysWf (orTrap s .xp (s.hadamardShape sa sb rm g) k) :=
  staysWf_orTrap h fun (x, n, f, t) ht => hk x n f t (pairsWf_hadamardShape h sa sb rm g x n f t ht)

theorem staysWf_execXhq (ty : Fmt) (rm : RMode) (g : GenNo) (vd va : VNo) (sa sb : SReg) : staysWf (execXhq ty rm g vd va sa sb s) :=
  staysWf_hadamard h fun _ _ _ _ hu => staysWf_groupFlags hu

theorem staysWf_execXhdq (ty : Fmt) (rm : RMode) (g : GenNo) (vd va : VNo) (sa sb : SReg) : staysWf (execXhdq ty rm g vd va sa sb s) :=
  staysWf_hadamard h fun _ _ _ _ hu => staysWf_groupFlags hu

theorem staysWf_execMapld (m : MapNo) (sa : SReg) : staysWf (execMapld m sa s) :=
  staysWf_orTrap h fun _ _ => staysWf_ite (staysWf_trap h) (staysWf_ite (staysWf_trap h) (staysWf_done ((memWf_wr _ _ _ _ _).trans (memWf_load h _ _))))

theorem staysWf_bindByte {va : Nat} {b : Byte} : staysWf (bindByte va b s) :=
  staysWf_orTrap h fun _ _ => staysWf_ite (staysWf_trap h) (staysWf_done (memWf_store h _ _ _ _))

theorem staysWf_execMapbind (sa : SReg) (m : MapNo) : staysWf (execMapbind sa m s) :=
  staysWf_ite (staysWf_trap h) (staysWf_orTrap_pair h (pairsWf_readShape h _) fun _ _ hu =>
    staysWf_ite (staysWf_ite (staysWf_trap h) (staysWf_bindByte hu)) (staysWf_trap h))

theorem staysWf_execMapbindU (sa : SReg) : staysWf (execMapbindU sa s) :=
  staysWf_ite (staysWf_trap h) (staysWf_orTrap h fun _ _ => staysWf_bindByte h)

end

end Sys2Proof.Machine
end

section
/-! PROOFS. What a step leaves of the canonical form, part three: copies, signals and Moraine (R177 to R192, R310 to R324). -/

namespace Sys2Proof.Machine

section
variable {s : State} (h : s.memWf = true)
include h

/-! Commands are numbered -/

theorem memWf_takeNumber (sd : SReg) (rd wr : Option (Nat × Nat)) (obj : Option Nat) : (s.takeNumber sd rd wr obj).memWf = true := by
  unfold State.takeNumber
  dsimp only
  rw [memWf_wrS, memWf_upd]
  exact memWf_performBefore h _

theorem memWf_retireCmd (inst : Nat) (seq : BitVec 32) : (s.retireCmd inst seq).memWf = true := memWf_retire h inst seq

/-! Copies start -/

theorem pairsWf_readRows (c : Copy) : pairsWf (s.readRows c) := by
  unfold State.readRows
  extract_lets cnt
  have hc : pairsWf cnt := by
    refine pairsWf_ite ?_ (pairsWf_ok h)
    split
    · exact pairsWf_error
    · exact pairsWf_ok (memWf_load h _ _)
  clear_value cnt
  split
  · exact pairsWf_error
  · have ht := hc _ _ rfl
    refine pairsWf_ite (pairsWf_ite pairsWf_error (pairsWf_ite (pairsWf_ok ht) ?_)) (pairsWf_ok ht)
    split
    · exact pairsWf_error
    · exact pairsWf_ok (memWf_load ht _ _)

theorem pairsWf_prepareCopy (c : Copy) : pairsWf (s.prepareCopy c) := by
  refine pairsWf_ite pairsWf_error (pairsWf_ite (pairsWf_ite pairsWf_error ?_) ?_)
  · split
    · exact pairsWf_error
    · exact pairsWf_ok h
  · split
    · exact pairsWf_error
    · rename_i ht
      have hr := pairsWf_readRows (pairsWf_readShape h _ _ _ ht) c
      split
      · exact pairsWf_error
      · exact pairsWf_error
      · rename_i hu
        dsimp only
        split
        · exact pairsWf_error
        · exact pairsWf_ok (memWf_load (hr _ _ hu) _ _)

theorem staysWf_copyWord (kind : Nat) (sd sa : SReg) : staysWf (copyWord kind sd sa s) := by
  refine staysWf_ite (staysWf_trap h) (staysWf_ite (staysWf_stall h) (staysWf_orTrap h fun _ _ => ?_))
  refine staysWf_orTrap_pair h (pairsWf_prepareCopy (memWf_load h _ _) _) fun c t ht => ?_
  exact staysWf_ite (staysWf_trap h) (staysWf_ite (staysWf_trap h) (staysWf_done (by exact memWf_takeNumber ht _ _ _ _)))

/-! Copies end -/

theorem memWf_endCopy (c : Copy) : (s.endCopy c).memWf = true := memWf_retireCmd (by exact h) _ _

theorem memWf_copyEvent (c : Copy) (code : Code) (addr : Nat) : (s.copyEvent c code addr).memWf = true := memWf_commandEvent h _ _ _ _ _ _ _

theorem memWf_closeCopy (c : Copy) (status : Nat) (fault : Code) (faddr : Nat) (act : State → State)
    (ha : ∀ t, t.memWf = true → (act t).memWf = true) : (s.closeCopy c status fault faddr act).memWf = true := by
  refine memWf_ite (memWf_endCopy (ha _ h) c) ?_
  split
  · rename_i ht
    exact memWf_endCopy (ha _ (memWf_commandWrite h ht)) c
  · exact memWf_copyEvent (memWf_endCopy h c) c _ _

theorem memWf_putCopy (c : Copy) : (s.putCopy c).memWf = true := h

theorem memWf_failCopy (c : Copy) (code : Code) (faddr : Nat) : (s.failCopy c code faddr).memWf = true := by
  refine memWf_ite (memWf_putCopy h _) (memWf_copyEvent (memWf_endCopy ?_ c) c _ _)
  split
  · rename_i ht
    exact memWf_ite h (memWf_commandWrite h ht)
  · exact h

theorem memWf_signalFate (c : Copy) (ok : Bool) : (s.signalFate c ok).memWf = true :=
  memWf_ite (memWf_closeCopy h c _ _ _ id fun _ ht => ht) (memWf_copyEvent (memWf_closeCopy h c _ _ _ id fun _ ht => ht) c _ _)

theorem memWf_deliverSignal (g : Signal) (ok : Bool) (t : State) (ht : s.deliverSignal g = some (ok, t)) : t.memWf = true := by
  unfold State.deliverSignal at ht
  split at ht
  · cases ht; exact h
  · split at ht
    · cases ht; exact h
    · exact memWf_signalInst h ht

theorem memWf_sendSignal (c : Copy) (total : Nat) : (s.sendSignal c total).memWf = true := by
  refine memWf_ite ?_ (memWf_ite (memWf_putCopy (by exact h) _) (memWf_putCopy h _))
  split
  · exact memWf_putCopy h _
  · rename_i ht
    exact memWf_signalFate (memWf_deliverSignal h _ _ _ ht) c _

theorem memWf_finishCopy (c : Copy) (total last : Nat) : (s.finishCopy c total last).memWf = true := by
  unfold State.finishCopy
  split
  · exact memWf_failCopy h _ _ _
  · refine memWf_ite (memWf_sendSignal h _ _) (memWf_closeCopy h _ _ _ _ _ fun t ht => ?_)
    split
    · exact memWf_applySignal ht _ _ _ _
    · exact memWf_applySignal ht _ _ _ _
    · exact ht

theorem pairsWf_rereadCopy (c : Copy) : pairsWf (s.rereadCopy c) := by
  refine pairsWf_ite (pairsWf_ok h) ?_
  dsimp only
  split
  · exact pairsWf_error
  · rename_i ht
    have hr := pairsWf_readRows (pairsWf_readShape h _ _ _ ht) c
    split
    · exact pairsWf_error
    · exact pairsWf_error
    · rename_i hu
      exact pairsWf_ok (memWf_load (hr _ _ hu) _ _)

/-! Chunks and lines of copies -/

theorem memWf_learnBits (c : Nat) (asid : BitVec 12) (b w : Nat) : (s.learnBits c asid b w).memWf = true := memWf_learnPieces h _ _ _

theorem memWf_partLearn (c : Copy) (p : CopyPart) (items : List CopyItem) : (s.partLearn c p items).memWf = true := by
  refine memWf_ite h (memWf_foldl _ (fun u i hu => ?_) _ h)
  split
  · exact memWf_ite (memWf_learnBits hu _ _ _ _) hu
  · exact hu

theorem memWf_mergeBytes (get : Nat → Byte) (set : Nat → Byte → State → State) (hset : ∀ i b t, t.memWf = true → (set i b t).memWf = true)
    (v m n : Nat) : (mergeBytes get set v m n s).memWf = true := memWf_foldl _ (fun u _ hu => hset _ _ u hu) _ h

theorem yieldsWf_writeChunk (c : Copy) (g : Option GenRef) (va v m : Nat) : yieldsWf (s.writeChunk c g va v m) := by
  unfold State.writeChunk
  split
  · exact yieldsWf_ok h
  · split
    · exact yieldsWf_error
    · exact yieldsWf_ok (memWf_mergeBytes h _ _ (fun _ _ _ hu => memWf_set_spad hu _ _) _ _ _)
    · dsimp only
      split
      · exact yieldsWf_error
      · have ha {x : Trans} := memWf_admitGen (memWf_learn h (dieOf c.core) c.asid va x true) (x.phys / 128) g
        split
        · exact yieldsWf_ok (memWf_mergeBytes ha _ _ (fun _ _ _ hu => memWf_putHome hu _ _) _ _ _)
        · exact yieldsWf_ok ha

theorem yieldsWf_memChunk (c : Copy) (va : Nat) : yieldsWf (s.memChunk c va) := by
  unfold State.memChunk
  split
  extract_lets src
  clear_value src
  split
  · exact yieldsWf_error
  · exact yieldsWf_writeChunk (memWf_learnPieces h _ _ _) _ _ _ _ _

theorem memWf_partsLanded (c : Copy) (t : Shape) (parts first count n : Nat) : (s.partsLanded c t parts first count n).memWf = true :=
  memWf_ite (memWf_finishCopy (memWf_putCopy h _) _ _ _) (memWf_ite (memWf_applySignal (memWf_putCopy h _) _ _ _ _) (memWf_putCopy h _))

theorem memWf_askLine (c : Copy) (pkg : BitVec 48) (va : Nat) (write : Bool) (m v : Nat) (g : Option GenRef) (recVa : Nat) :
    (s.askLine c pkg va write m v g recVa).memWf = true := memWf_ite (memWf_putCopy (by exact h) _) h

theorem pairsWf_landChunks (t : Shape) (items : List CopyItem) (l : List CopyPart) (c : Copy) : pairsWf (State.landChunks t items l c s) := by
  fun_induction State.landChunks t items l c s with
  | case1 => exact pairsWf_ok h
  | case2 c s a b r ih => exact ih h
  | case3 c s va r hk u hu ih => exact ih (yieldsWf_memChunk h _ _ _ hu)
  | case5 => exact pairsWf_error
  | case6 c s va r hk v m f hv u hu ih => exact ih (yieldsWf_writeChunk (memWf_partLearn h _ _ _) _ _ _ _ _ _ hu)
  | _ => exact pairsWf_error

theorem memWf_lineOut (c : Copy) (t : Shape) (items : List CopyItem) (pkg : BitVec 48) (va : Nat) : (s.lineOut c t items pkg va).memWf = true := by
  refine memWf_ite h (memWf_ite (memWf_askLine h _ _ _ _ _ _ _ _) ?_)
  split
  · exact memWf_failCopy h _ _ _
  · exact memWf_askLine h _ _ _ _ _ _ _ _

theorem staysWf_execCopyPacketLand (core : Nat) (seq : BitVec 32) (engine first count : Nat) : staysWf (execCopyPacketLand core seq engine first count s) := by
  unfold execCopyPacketLand
  refine staysWf_ite (fun _ ht => nomatch ht) (staysWf_ite (fun _ ht => nomatch ht) ?_)
  split
  · exact staysWf_next h
  · refine staysWf_ite (staysWf_next h) (staysWf_ite (staysWf_next (memWf_finishCopy h _ _ _)) (staysWf_ite (staysWf_next h) ?_))
    split
    · exact staysWf_next (memWf_failCopy h _ _ _)
    · extract_lets items
      split
      · exact staysWf_next (memWf_ite (memWf_lineOut h _ _ _ _ _) h)
      · split
        · exact staysWf_next (memWf_askLine h _ _ _ _ _ _ _ _)
        · refine staysWf_ite ?_ (staysWf_next h)
          split
          · exact staysWf_next (memWf_failCopy h _ _ _)
          · rename_i hu
            exact staysWf_next (memWf_partsLanded (pairsWf_landChunks h _ _ _ _ _ _ hu) _ _ _ _ _ _)

theorem staysWf_execCopyStart (core : Nat) (seq : BitVec 32) (engine : Nat) : staysWf (execCopyStart core seq engine s) := by
  unfold execCopyStart
  refine staysWf_ite (fun _ ht => nomatch ht) (staysWf_ite (fun _ ht => nomatch ht) ?_)
  split
  · exact staysWf_next h
  · have hw : ({ s with cur := { s.cur with core := core } } : State).memWf = true := h
    refine staysWf_ite (staysWf_next hw) ?_
    split
    · exact staysWf_next (memWf_failCopy hw _ _ _)
    · rename_i hu
      have ht := pairsWf_rereadCopy hw _ _ _ hu
      refine staysWf_ite ?_ (staysWf_ite ?_ (staysWf_next (memWf_putCopy ht _)))
      · split
        · exact staysWf_next (memWf_failCopy ht _ _ _)
        · exact staysWf_next (memWf_finishCopy (memWf_putCopy ht _) _ _ _)
      · split
        · exact staysWf_next (memWf_putCopy ht _)
        · exact staysWf_next (memWf_failCopy ht _ _ _)

theorem staysWf_remoteSignal (g : Signal) : staysWf (remoteSignal g s) := by
  refine staysWf_ite (fun _ ht => nomatch ht) ?_
  split
  · exact staysWf_next h
  · rename_i hu
    exact staysWf_next (memWf_post (memWf_deliverSignal h _ _ _ hu) _ _ _ _ _)

theorem staysWf_execSignalArrival (g : Signal) : staysWf (execSignalArrival g s) := by
  unfold execSignalArrival
  split
  · split
    · rename_i hu
      exact staysWf_next (memWf_signalFate (memWf_deliverSignal h _ _ _ hu) _ _)
    · exact staysWf_next h
  · exact staysWf_remoteSignal h g

theorem memWf_copyAnswered (c : Copy) (r : RemoteOut) (data : List Byte) : (s.copyAnswered c r data).memWf = true := by
  unfold State.copyAnswered
  split
  · refine memWf_ite ?_ (memWf_putCopy h _)
    dsimp only
    split
    · exact memWf_failCopy h _ _ _
    · exact memWf_partsLanded h _ _ _ _ _ _
    · exact memWf_putCopy h _
  · exact memWf_ite (memWf_signalFate h _ _) h

theorem staysWf_execRemoteResponse (core tag : Nat) (data : List Byte) : staysWf (execRemoteResponse core tag data s) := by
  unfold execRemoteResponse
  split
  · refine staysWf_ite (staysWf_wordResponse h _ _ _) (staysWf_ite ?_ (staysWf_next h))
    have hf {p : RemoteOut → Bool} := memWf_freeSlots h core p
    dsimp only
    split
    · exact staysWf_next (memWf_copyAnswered hf _ _ _)
    · exact staysWf_next hf
  · exact staysWf_wordResponse h _ _ _

theorem staysWf_execSignalNack : staysWf (execSignalNack s) := by
  unfold execSignalNack
  split
  · exact staysWf_ite (staysWf_next (memWf_signalFate (memWf_freeSlots h _ _) _ _)) (staysWf_next h)
  · exact staysWf_next h

theorem memWf_cancelCopies (core : Nat) : (s.cancelCopies core).1.memWf = true :=
  memWf_foldl _ (fun _ c hu => memWf_closeCopy hu c _ _ _ id fun _ ht => ht) _ h

theorem staysWf_execCpcancel (sd : SReg) : staysWf (execCpcancel sd s) := staysWf_wrS (memWf_cancelCopies h _)

/-! Moraine at a home slice -/

theorem memWf_setSlice (n : Nat) (x : MSlice) : (s.setSlice n x).memWf = true := h

theorem memWf_answer (m : MoraineMsg) (a : MoraineAnswer) : (s.answer m a).memWf = true := memWf_ite (by exact h) (memWf_post h _ _ _ _ _)

theorem memWf_promote (r : MRegion) : (s.promote r).memWf = true := by
  unfold State.promote
  extract_lets isHeld cands
  clear_value cands
  split
  · exact h
  · refine memWf_ite h ?_
    dsimp only
    split
    · exact h
    · exact memWf_answer (memWf_setSlice h _ _) _ _

theorem memWf_promoteN (r : MRegion) (n : Nat) : (State.promoteN r n s).memWf = true := by
  induction n generalizing s with
  | zero => exact h
  | succ n ih => exact ih (memWf_promote h r)

theorem memWf_onRequest (r : MRegion) (m : MoraineMsg) : (s.onRequest r m).2.memWf = true := by
  unfold State.onRequest
  extract_lets x hit
  split
  · exact memWf_answer (memWf_promoteN (memWf_foldl _ (fun _ _ hu => memWf_ite (memWf_answer hu _ _) hu) _ (memWf_setSlice h _ _)) _ _) _ _
  · split
    · dsimp only
      split
      · exact memWf_promote (memWf_ite (memWf_answer (memWf_setSlice (memWf_answer h _ _) _ _) _ _) (memWf_setSlice (memWf_answer h _ _) _ _)) _
      · exact memWf_answer h _ _
    · split
      · exact memWf_answer h _ _
      · split
        · exact memWf_answer h _ _
        · exact memWf_ite (memWf_setSlice h _ _) (memWf_answer (memWf_setSlice h _ _) _ _)

theorem memWf_logDeposit (m : MoraineMsg) (stamp : Nat) : (s.logDeposit m stamp).memWf = true := by
  unfold State.logDeposit
  dsimp only
  split
  · exact memWf_logCommand h _ _
  · exact memWf_putRec h _

theorem memWf_onDeposit (r : MRegion) (m : MoraineMsg) : (s.onDeposit r m).2.memWf = true := by
  unfold State.onDeposit
  extract_lets x fits taker full copies u v w left
  have hv : v.memWf = true := memWf_foldl _ (fun _ q hu => memWf_answer hu q _) _ (memWf_logDeposit h _ _)
  have hw : w.memWf = true := memWf_ite (memWf_answer hv _ _) hv
  clear_value w v u copies taker
  split
  · exact memWf_answer h _ _
  · split
    · exact memWf_answer h _ _
    · split
      · exact memWf_answer (memWf_setSlice (memWf_answer hw _ _) _ _) _ _
      · exact memWf_ite (memWf_answer (memWf_setSlice hw _ _) _ _) (memWf_ite (memWf_setSlice hw _ _) (memWf_answer (memWf_setSlice hw _ _) _ _))

theorem memWf_atHome (m : MoraineMsg) : (s.atHome m).2.memWf = true := by
  unfold State.atHome
  split
  · exact memWf_answer h _ _
  · split
    · exact memWf_onDeposit h _ _
    · exact memWf_onRequest h _ _

theorem memWf_onCmd (c : Nat) (m : MCmd) (f : MCmd → MCmd) : (s.onCmd c m f).memWf = true := (memWf_setCore s _ _).trans h

theorem memWf_dropCmd (c : Nat) (m : MCmd) : (s.dropCmd c m).memWf = true := (memWf_setCore s _ _).trans h

theorem memWf_moraineSend (c : Nat) (m : MCmd) : (s.moraineSend c m).memWf = true :=
  memWf_ite h (memWf_ite (memWf_onCmd h _ _ _) (by exact memWf_onCmd h c m fun n => { n with st := .flying }))

theorem memWf_arriveOwn (c : Nat) (m : MCmd) : (s.arriveOwn c m).memWf = true :=
  memWf_ite (memWf_answer (memWf_onCmd h _ _ _) _ _) (memWf_onCmd (memWf_atHome h _) _ _ _)

theorem memWf_arriveRemote (m : MoraineMsg) : (s.arriveRemote m).memWf = true :=
  memWf_ite (memWf_answer (memWf_setSlice h _ _) _ _) (memWf_setSlice (memWf_atHome h _) _ _)

theorem staysWf_execMoraineRequest (a : Arrival MoraineMsg) : staysWf (execMoraineRequest a s) := by
  unfold execMoraineRequest
  split
  · split
    · exact staysWf_next (memWf_arriveOwn h _ _)
    · exact staysWf_next h
  · exact staysWf_next (memWf_ite (memWf_arriveRemote h _) h)

theorem staysWf_execMoraineDeposit (a : Arrival MoraineMsg) : staysWf (execMoraineDeposit a s) := by
  unfold execMoraineDeposit
  split
  · split
    · exact staysWf_next (memWf_arriveOwn h _ _)
    · exact staysWf_next h
  · exact staysWf_next (memWf_ite (memWf_arriveRemote h _) h)

theorem memWf_withdrawAt (m : MoraineMsg) : (s.withdrawAt m).memWf = true :=
  memWf_ite (memWf_answer (memWf_setSlice h _ _) _ _) (memWf_ite (memWf_answer (memWf_setSlice h _ _) _ _) h)

theorem memWf_endWithdrawn (c : Nat) (m : MCmd) : (s.endWithdrawn c m).memWf = true := memWf_retireCmd (memWf_dropCmd h _ _) _ _

theorem staysWf_execMoraineWithdrawal (a : Arrival MoraineMsg) : staysWf (execMoraineWithdrawal a s) := by
  unfold execMoraineWithdrawal
  split
  · split
    · rename_i c m _
      refine staysWf_ite (staysWf_next (memWf_endWithdrawn h _ _)) (staysWf_ite (staysWf_ite (staysWf_next h) (staysWf_next ?_)) ?_)
      · exact memWf_withdrawAt (memWf_onCmd h _ _ _) _
      · exact staysWf_ite (staysWf_next (by exact memWf_onCmd h c m fun n => { n with withdrawn := true })) (staysWf_next h)
    · exact staysWf_next h
  · exact staysWf_next (memWf_ite (memWf_withdrawAt h _) h)

theorem staysWf_execMoraineResend : staysWf (execMoraineResend s) := by
  unfold execMoraineResend
  dsimp only
  split
  · exact staysWf_next (memWf_moraineSend h _ _)
  · exact staysWf_next h

/-! Answers of Moraine -/

omit h in
theorem memWf_leaveMoraine (m : MCmd) (f : State → State) (hf : (f s).memWf = true) : (s.leaveMoraine m f).memWf = true := (memWf_upd _ _).trans hf

omit h in
theorem memWf_finishMoraine (c : Nat) (m : MCmd) (f : State → State) (hf : (f s).memWf = true) : (s.finishMoraine c m f).memWf = true :=
  memWf_retireCmd (memWf_dropCmd (memWf_leaveMoraine m f hf) _ _) _ _

theorem memWf_writeGroup8 (m : MCmd) (stamp : Nat) (t : List Word) : (s.writeGroup8 m stamp t).memWf = true :=
  memWf_acquire (memWf_foldl _ (fun u _ hu => (memWf_wrS u _ _ _).trans hu) _ h) _

theorem memWf_logLost (c : Nat) (m : MCmd) (stamp : Nat) (t : List Word) : (s.logLost c m stamp t).memWf = true :=
  memWf_ite (memWf_logCommand (memWf_logCommand h _ _) _ _) h

theorem memWf_matchedFirst (c : Nat) (m : MCmd) (stamp : Nat) (t : List Word) : (s.matchedFirst c m stamp t).memWf = true := by
  unfold State.matchedFirst
  extract_lets close
  have hc (u : State) (hu : u.memWf = true) : (close u).memWf = true := memWf_retireCmd (memWf_dropCmd hu _ _) _ _
  clear_value close
  split
  · exact hc _ (memWf_setPhys (memWf_setPhys (memWf_setPhys (by exact h) _ _) _ _) _ _)
  · exact hc _ (memWf_logLost h _ _ _ _)

theorem memWf_applyAnswer (c : Nat) (m : MCmd) (a : MoraineAnswer) : (s.applyAnswer c m a).memWf = true := by
  unfold State.applyAnswer
  extract_lets mine freed at_ t k waits close status
  have hf : freed.memWf = true := by
    refine memWf_ite h ?_
    split
    · exact memWf_freeSlots h _ _
    · exact memWf_freeSlots h _ _
  have ht : t.memWf = true := hf
  clear_value waits
  have hc (u : State) (hu : u.memWf = true) : (close u).memWf = true := memWf_retireCmd (memWf_dropCmd hu _ _) _ _
  have hs (v : Nat) : (status v).memWf = true := by
    dsimp only [status]
    split
    · exact memWf_finishMoraine _ _ _ ((memWf_wrS _ _ _ _).trans ht)
    · exact hc _ ht
  clear_value t close status
  split
  · exact memWf_ite (memWf_endWithdrawn ht _ _) (memWf_onCmd ht _ _ _)
  · exact memWf_endWithdrawn ht _ _
  · exact memWf_onCmd ht _ _ _
  · have he := memWf_taskEvent ht m.inst (commandCause .translation 0 m.msg.seq 0)
    split
    · exact memWf_finishMoraine _ _ _ he
    · exact hc _ he
  · rename_i stamp tuple
    split
    · have hl : (if (m.withdraw && !bit k.sys.trapvec 0) = true then t.logLost c m stamp tuple else t).memWf = true :=
        memWf_ite (memWf_logLost ht _ _ _ _) ht
      have hg := memWf_writeGroup8 hl m stamp tuple
      exact memWf_finishMoraine _ _ _ (memWf_ite ((memWf_wrS _ _ _ _).trans hg) hg)
    · exact memWf_matchedFirst ht _ _ _ _
  · exact hs 1
  · exact hs 1
  · exact hs _
  · split
    · exact memWf_retireCmd (memWf_leaveMoraine _ _ ((memWf_wrS _ _ _ _).trans ht)) _ _
    · exact memWf_retireCmd ht _ _
  · exact memWf_ite (hc _ ht) (memWf_dropCmd ht _ _)

theorem staysWf_takeAnswer (acks : Bool) (a : Arrival MoraineRep) : staysWf (s.takeAnswer acks a) := by
  unfold State.takeAnswer
  split
  · split
    · exact staysWf_next h
    · refine staysWf_ite (staysWf_next h) ?_
      dsimp only
      split
      · exact staysWf_next (memWf_applyAnswer (by exact h) _ _ _)
      · exact staysWf_next (by exact h)
  · split
    · exact staysWf_next (memWf_ite (memWf_applyAnswer h _ _ _) h)
    · exact staysWf_next h

/-! Moraine's words -/

theorem memWf_issueMoraine (kind : MKind) (sd group : SReg) (r : MRegion) (ws : List Word) : (s.issueMoraine kind sd group r ws).memWf = true :=
  memWf_moraineSend ((memWf_upd _ _).trans (memWf_takeNumber h _ _ _ _)) _ _

theorem memWf_endRegion : s.endRegion.memWf = true := (memWf_upd s _).trans h

theorem staysWf_execMdep (sd sa sb : SReg) : staysWf (execMdep sd sa sb s) :=
  staysWf_orTrap h fun _ _ => staysWf_ite (staysWf_stall h) (staysWf_ite (staysWf_await (memWf_endRegion h))
    (staysWf_finishWait (memWf_issueMoraine (memWf_endRegion h) _ _ _ _ _)))

theorem staysWf_execMdepCreditFree : staysWf (execMdepCreditFree s) := by
  unfold execMdepCreditFree
  split
  · refine staysWf_ite ?_ (staysWf_next h)
    split
    · exact staysWf_finishWait (memWf_issueMoraine h _ _ _ _ _)
    · exact staysWf_trap ((memWf_upd s _).trans h)
  · exact staysWf_next h

theorem staysWf_blockingRequest (kind : MKind) (sd sa sb : SReg) : staysWf (blockingRequest kind sd sa sb s) :=
  staysWf_orTrap h fun _ _ => staysWf_ite (staysWf_stall h) (staysWf_await (memWf_issueMoraine (memWf_endRegion h) _ _ _ _ _))

theorem staysWf_promptRequest (kind : MKind) (sa sb : SReg) (w : BitVec 32 → Wait) : staysWf (promptRequest kind sa sb w s) :=
  staysWf_orTrap h fun _ _ => staysWf_ite (staysWf_stall h) (staysWf_await (memWf_issueMoraine h _ _ _ _ _))

theorem staysWf_execMtrydep (sd sa sb : SReg) : staysWf (execMtrydep sd sa sb s) :=
  staysWf_orTrap h fun _ _ => staysWf_ite (staysWf_stall h) (staysWf_ite
    (staysWf_done (memWf_retireCmd ((memWf_wrS _ _ _ _).trans (memWf_takeNumber h _ _ _ _)) _ _))
    (staysWf_await (memWf_issueMoraine h _ _ _ _ _)))

end

end Sys2Proof.Machine
end

section
/-! PROOFS. What a step leaves of the canonical form, part four: collectives, reshards, the fabric and near-memory launches (R325 to R372). -/

namespace Sys2Proof.Machine

theorem offersWf_map {α : Type} {o : Option α} {f : α → State} (hf : ∀ a, o = some a → (f a).memWf = true) : offersWf (o.map f) := by
  intro t ht
  obtain ⟨a, ha, rfl⟩ := Option.map_eq_some_iff.mp ht
  exact hf a ha

theorem offersWf_bind {o : Option State} {f : State → Option State} (ho : offersWf o) (hf : ∀ t, t.memWf = true → offersWf (f t)) :
    offersWf (o.bind f) := by
  intro t ht
  obtain ⟨u, hu, hv⟩ := Option.bind_eq_some_iff.mp ht
  exact hf u (ho u hu) t hv

/-- What a write that may have to wait hands on keeps the canonical form. -/
def settlesWf (o : Option (Except Code State)) : Prop := ∀ t, o = some (.ok t) → t.memWf = true

section
variable {s : State} (h : s.memWf = true)
include h

theorem staysWf_orWait {x : Option State} (hx : offersWf x) : staysWf (orWait s x) := by
  refine staysWf_next ?_
  cases x with
  | none => exact h
  | some t => exact hx t rfl

/-! Groups and calls -/

theorem memWf_learnElems (c : Nat) (asid : BitVec 12) (base w off n : Nat) : (s.learnElems c asid base w off n).memWf = true :=
  memWf_ite h (memWf_learnBits h _ _ _ _)

theorem memWf_imageWrite (v : Saved) (va : Nat) (bs : List Byte) : (s.imageWrite v va bs).memWf = true := by
  refine memWf_foldl _ (fun u b hu => ?_) _ h
  split
  · exact memWf_setPhys hu _ _
  · exact hu

theorem yieldsWf_taskElem (inst c : Nat) (asid : BitVec 12) (base w off code : Nat) : yieldsWf (s.taskElem inst c asid base w off code) := by
  unfold State.taskElem
  split
  split
  · split
    · exact yieldsWf_error
    · exact yieldsWf_ok (memWf_imageWrite h _ _ _)
  · exact fun t ht => memWf_writeElems h ht

theorem memWf_dropGroup (inst slot : Nat) : (s.dropGroup inst slot).memWf = true := h

theorem memWf_setChunkCtr (inst n : Nat) (x : ChunkCtr) : (s.setChunkCtr inst n x).memWf = true := h

theorem staysWf_execClgrp (sd sa sb : SReg) : staysWf (execClgrp sd sa sb s) := by
  refine staysWf_ite (staysWf_trap h) (staysWf_ite (staysWf_trap h) (staysWf_ite (staysWf_trap h) (staysWf_orTrap h fun _ _ => ?_)))
  split
  rename_i hu
  have hu := memWf_of_load h hu
  refine staysWf_ite (staysWf_trap h) (staysWf_orTrap h fun _ _ => ?_)
  split
  rename_i hv
  have hv := memWf_of_load hu hv
  exact staysWf_ite (staysWf_trap h) (staysWf_wrS (by exact hv))

theorem pairsWf_readPerm (c : Call) : pairsWf (s.readPerm c) := by
  refine pairsWf_ite (pairsWf_ok h) ?_
  split
  · exact pairsWf_error
  · exact pairsWf_ok (memWf_load h _ _)

theorem pairsWf_readGen (c : Call) : pairsWf (s.readGen c) := by
  refine pairsWf_ite (pairsWf_ok h) ?_
  split
  · exact pairsWf_error
  · rename_i ht
    exact pairsWf_ite pairsWf_error (pairsWf_ok (pairsWf_readShape h _ _ _ ht))

theorem pairsWf_prepareCall (desc : List Byte) (g : Group) : pairsWf (s.prepareCall desc g) := by
  unfold State.prepareCall
  extract_lets k c
  clear_value c
  split
  · exact pairsWf_error
  · rename_i ht
    have ht := pairsWf_readPerm h _ _ _ ht
    dsimp only
    split
    · exact pairsWf_error
    · split
      · exact pairsWf_error
      · split
        · exact pairsWf_error
        · rename_i hu
          exact pairsWf_ok (pairsWf_readGen ht _ _ _ hu)

theorem memWf_tell (c : Call) (f : BitVec 48 → Out) : (s.tell c f).memWf = true := memWf_foldl _ (fun _ _ hu => memWf_post hu _ _ _ _ _) _ h

theorem memWf_onCounters (inst : Nat) (ns : List Nat) (f : ChunkCtr → ChunkCtr) : (s.onCounters inst ns f).memWf = true :=
  memWf_foldl _ (fun _ _ hu => memWf_setChunkCtr hu _ _ _) _ h

theorem staysWf_execClrun (sd sa : SReg) : staysWf (execClrun sd sa s) := by
  refine staysWf_ite (staysWf_trap h) (staysWf_ite (staysWf_stall h) (staysWf_ite (staysWf_trap h) (staysWf_orTrap h fun _ _ => ?_)))
  split
  rename_i hu
  have hu := memWf_of_load h hu
  refine staysWf_ite (staysWf_trap h) ?_
  split
  · exact staysWf_trap h
  · refine staysWf_ite (staysWf_stall h) (staysWf_orTrap_pair h (pairsWf_prepareCall hu _ _) fun c t ht => ?_)
    exact staysWf_ite (staysWf_trap h) (staysWf_done (memWf_tell (by exact memWf_onCounters (memWf_takeNumber ht _ _ _ _) _ _ _) _ _))

theorem memWf_putCall (c : Call) : (s.putCall c).memWf = true := h

theorem offersWf_taskRecord (inst c : Nat) (asid : BitVec 12) (va : Nat) (bs : List Byte) : offersWf (s.taskRecord inst c asid va bs) :=
  fun _ ht => memWf_taskRecord h ht

theorem offersWf_doneAction (inst kind addr count : Nat) (value : Word) : offersWf (s.doneAction inst kind addr count value) :=
  fun _ ht => memWf_doneAction h ht

theorem offersWf_callRecord (c : Call) (status : Nat) (fault : Code) (faddr : Nat) : offersWf (s.callRecord c status fault faddr) := by
  unfold State.callRecord
  split
  · exact offersWf_none
  · rename_i ht
    exact offersWf_taskRecord (offersWf_taskRecord h _ _ _ _ _ _ ht) _ _ _ _ _

theorem memWf_endCall (c : Call) : (s.endCall c).memWf = true := memWf_retireCmd (by exact memWf_onCounters h _ _ _) _ _

theorem offersWf_breakCall (c : Call) (status : Nat) (code : Code) (faddr : Nat) : offersWf (s.breakCall c status code faddr) := by
  unfold State.breakCall
  split
  · exact offersWf_none
  · rename_i ht
    have ht := offersWf_callRecord h _ _ _ _ _ ht
    exact offersWf_some (memWf_commandEvent (memWf_endCall (memWf_ite (memWf_tell ht _ _) (memWf_dropGroup ht _ _)) _) _ _ _ _ _ _ _)

theorem staysWf_execCallStart (core : Nat) (seq : BitVec 32) (hellos : List CallHello) : staysWf (execCallStart core seq hellos s) := by
  refine staysWf_ite (fun _ ht => nomatch ht) ?_
  split
  · exact staysWf_next h
  · exact staysWf_ite (staysWf_next h) (staysWf_ite (staysWf_next (memWf_putCall h _)) (staysWf_orWait h (offersWf_breakCall h _ _ _ _)))

theorem memWf_performSource (asid : BitVec 12) (va n : Nat) (cores : List Nat) : (s.performSource asid va n cores).memWf = true := by
  refine memWf_foldl _ (fun u d hu => memWf_foldl _ (fun v p hv => ?_) _ hu) _ h
  split
  · exact memWf_drainCombineLine (memWf_drainLine _ _ _ hv) _ _
  · exact hv

theorem staysWf_execChunkSend (core : Nat) (seq : BitVec 32) (chunk : Nat) : staysWf (execChunkSend core seq chunk s) := by
  refine staysWf_ite (fun _ ht => nomatch ht) ?_
  split
  · exact staysWf_next h
  · refine staysWf_ite (staysWf_next h) ?_
    split
    extract_lets cores at_ u v scales
    have hu : u.memWf = true := memWf_performSource h _ _ _ _
    have hv : v.memWf = true := memWf_ite (memWf_performSource hu _ _ _ _) hu
    clear_value v scales
    split
    · exact staysWf_orWait hv (offersWf_breakCall hv _ _ _ _)
    · exact staysWf_orWait hv (offersWf_breakCall hv _ _ _ _)
    · refine staysWf_next (memWf_putCall (memWf_foldl _ (fun w j hw => memWf_foldl _ (fun _ _ hx => memWf_post hx _ _ _ _ _) _ hw) _ ?_) _)
      exact memWf_learnElems (memWf_learnElems (memWf_ite (memWf_setChunkCtr hv _ _ _) hv) _ _ _ _ _ _) _ _ _ _ _ _

theorem staysWf_execCallDelivery (core : Nat) (seq : BitVec 32) (chunk : Nat) (others : List (Nat × List Payload × Flags)) :
    staysWf (execCallDelivery core seq chunk others s) := by
  refine staysWf_ite (fun _ ht => nomatch ht) ?_
  split
  · exact staysWf_next h
  · refine staysWf_ite (staysWf_next h) (staysWf_ite (staysWf_next h) ?_)
    dsimp only
    split
    · exact staysWf_orWait h (offersWf_breakCall h _ _ _ _)
    · rename_i ht
      exact staysWf_next (memWf_putCall (memWf_writePiecesOf _ _ h ht) _)

theorem staysWf_execCallComplete : staysWf (execCallComplete s) := by
  unfold execCallComplete
  split
  · exact staysWf_next h
  · refine staysWf_ite (staysWf_next h) (staysWf_orWait h ?_)
    split
    · exact offersWf_breakCall h _ _ _ _
    · split
      · exact offersWf_none
      · rename_i ht
        exact offersWf_map fun u hu => memWf_endCall (offersWf_doneAction (offersWf_callRecord h _ _ _ _ _ ht) _ _ _ _ _ _ hu) _

theorem memWf_tellLost (ps : List (BitVec 48)) (gtag call : BitVec 32) (seq : Option (BitVec 32)) (core : Nat) :
    (s.tellLost ps gtag call seq core).memWf = true := memWf_foldl _ (fun _ _ hu => memWf_ite (by exact hu) (memWf_post hu _ _ _ _ _)) _ h

theorem staysWf_execCollHoldExpiry : staysWf (execCollHoldExpiry s) := by
  unfold execCollHoldExpiry
  split
  · exact staysWf_next h
  · exact staysWf_ite (staysWf_next h) (staysWf_orWait h (offersWf_map fun u hu => memWf_tellLost (offersWf_breakCall h _ _ _ _ _ hu) _ _ _ _ _))

theorem memWf_memberBack (pkg : BitVec 48) : (s.memberBack pkg).memWf = true := h

theorem memWf_memberEnded (pkg : BitVec 48) (gtag call : BitVec 32) : (s.memberEnded pkg gtag call).memWf = true := by
  unfold State.memberEnded
  split
  · exact memWf_putCall h _
  · exact h

theorem offersWf_callLost (gtag call : BitVec 32) : offersWf (s.callLost gtag call) := by
  unfold State.callLost
  split
  · exact offersWf_breakCall h _ _ _ _
  · exact offersWf_some (by exact h)

/-! Reshards -/

theorem memWf_reshardPlan {sa : SReg} {ms md : MapNo} {x : Shape} {m n : BitVec 256} {p : List Placed} {t : State}
    (ht : s.reshardPlan sa ms md = .ok (x, m, n, p, t)) : t.memWf = true := by
  unfold State.reshardPlan at ht
  dsimp only at ht
  split at ht
  · cases ht
  · split at ht
    · cases ht
    · rename_i hu
      split at ht
      · cases ht
      · split at ht
        · cases ht
        · split at ht
          · cases ht
          · cases ht
            exact pairsWf_readShape h _ _ _ hu

theorem memWf_performStores (c : Nat) : (s.performStores c).memWf = true := memWf_drainNeeded _ _ _ h

theorem memWf_showReshard (r : Reshard) (t : Shape) : (s.showReshard r t).memWf = true := memWf_post h _ _ _ _ _

theorem staysWf_execRshd (sd sa sb sc : SReg) (ms md : MapNo) (prof : BitVec 4) : staysWf (execRshd sd sa sb sc ms md prof s) := by
  refine staysWf_ite (staysWf_trap h) (staysWf_ite (staysWf_stall h) (staysWf_orTrap h fun (x, m, n, p, t) ht => ?_))
  have ht := memWf_reshardPlan h ht
  dsimp -zeta only
  split
  · exact staysWf_trap h
  · extract_lets bytes
    split
    · exact staysWf_trap h
    · split
      · exact staysWf_trap h
      · split
        · exact staysWf_trap h
        · split <;> rename_i u _ v _ _ _ _ _
          all_goals
            have hu : u.memWf = true := memWf_performStores (memWf_takeNumber (memWf_load ht _ _) _ _ _ _) _
            have hv : v.memWf = true := memWf_of_eq hu rfl rfl
          · exact staysWf_done (memWf_showReshard hv _ _)
          · exact staysWf_done hv

theorem staysWf_execRshdq (sd sa sb : SReg) (ms md : MapNo) : staysWf (execRshdq sd sa sb ms md s) :=
  staysWf_orTrap h fun (_, _, _, _, _) ht => staysWf_orTrap h fun _ _ => staysWf_wrS (memWf_store (memWf_reshardPlan h ht) _ _ _ _)

theorem memWf_learnTerms (x : Tiling) (gs : List (List Nat)) : (s.learnTerms x gs).memWf = true := by
  refine memWf_foldl _ (fun u g hu => ?_) _ h
  split
  · exact memWf_learnBits hu _ _ _ _
  · exact hu

theorem memWf_putReshard (r : Reshard) : (s.putReshard r).memWf = true := h

theorem memWf_endReshard (r : Reshard) : (s.endReshard r).memWf = true := memWf_retireCmd (by exact h) _ _

theorem settlesWf_bindWrites (r : Reshard) (ws : List (Nat × List Byte)) : settlesWf (s.bindWrites r ws) := by
  refine List.foldlRecOn ws _ (motive := settlesWf) (fun t ht => by cases ht; exact h) fun o ho w _ => ?_
  split
  · exact fun t ht => memWf_taskStore (ho _ rfl) ht
  · exact ho

theorem memWf_tellReshardEnded (r : Reshard) : (s.tellReshardEnded r).memWf = true :=
  memWf_foldl _ (fun _ _ hu => memWf_ite hu (memWf_post hu _ _ _ _ _)) _ h

theorem offersWf_breakReshard (r : Reshard) (code : Code) (faddr : Nat) : offersWf (s.breakReshard r code faddr) := by
  unfold State.breakReshard
  extract_lets bound
  have hb : offersWf bound := by
    refine offersWf_ite (offersWf_map fun x hx => ?_) (offersWf_some h)
    split
    · exact settlesWf_bindWrites h _ _ _ hx
    · exact h
  refine offersWf_bind hb fun t ht => offersWf_map fun u hu => ?_
  have hu := offersWf_taskRecord ht _ _ _ _ _ u hu
  exact memWf_commandEvent (memWf_endReshard (memWf_ite hu (memWf_tellReshardEnded hu r)) r) _ _ _ _ _ _ _

theorem staysWf_execReshardStart (core : Nat) (seq : BitVec 32) (hellos : List ReshardHello) : staysWf (execReshardStart core seq hellos s) := by
  refine staysWf_ite (fun _ ht => nomatch ht) ?_
  split
  · exact staysWf_next h
  · split
    · exact staysWf_next h
    · refine staysWf_ite (staysWf_next (memWf_ite (memWf_putReshard (memWf_showReshard (memWf_performStores h _) _ _) _) h)) ?_
      exact staysWf_ite (staysWf_next h) (staysWf_ite (staysWf_next (memWf_putReshard h _)) (staysWf_orWait h (offersWf_breakReshard h _ _ _)))

theorem staysWf_landTile {x : Tiling} {pos : Nat} {codes : List Nat} {scale : Nat} {events : Flags} :
    staysWf (s.landTile x pos codes scale events) := by
  unfold State.landTile
  extract_lets w put
  have hp : yieldsWf put := by
    refine List.foldlRecOn w _ (motive := yieldsWf) (yieldsWf_ok h) fun r hr pc _ => ?_
    split
    · exact yieldsWf_error
    · exact yieldsWf_taskElem (hr _ rfl) _ _ _ _ _ _ _
  clear_value put
  split
  · exact staysWf_orWait h (offersWf_breakReshard h _ _ _)
  · exact staysWf_next (memWf_putReshard (hp _ rfl) _)

theorem staysWf_execReshardTile (core : Nat) (seq : BitVec 32) (pos : Nat) (others : List (BitVec 48 × Nat)) :
    staysWf (execReshardTile core seq pos others s) := by
  refine staysWf_ite (fun _ ht => nomatch ht) ?_
  split
  · exact staysWf_next h
  · split
    · exact staysWf_next h
    · refine staysWf_ite (staysWf_next h) ?_
      split
      · exact staysWf_landTile h
      · dsimp only
        split
        · exact staysWf_orWait h (offersWf_breakReshard h _ _ _)
        · refine staysWf_ite (staysWf_next h) ?_
          exact staysWf_ite (staysWf_landTile (memWf_ite (memWf_learnTerms h _ _) h)) (staysWf_landTile (memWf_ite (memWf_learnTerms h _ _) h))

theorem staysWf_execReshardSwitch : staysWf (execReshardSwitch s) := by
  unfold execReshardSwitch
  split
  · exact staysWf_next h
  · split
    · exact staysWf_next h
    · refine staysWf_ite (staysWf_next h) ?_
      split
      · exact staysWf_next h
      · exact staysWf_orWait h (offersWf_breakReshard h _ _ _)
      · rename_i ht
        exact staysWf_next (memWf_putReshard (settlesWf_bindWrites h _ _ _ ht) _)

theorem memWf_landScales {r : Reshard} {x : Tiling} {t : State} (ht : s.landScales r x = some (.ok t)) : t.memWf = true := by
  unfold State.landScales at ht
  split at ht
  · exact memWf_taskStore h ht
  · cases ht; exact h

theorem staysWf_execReshardSignal : staysWf (execReshardSignal s) := by
  unfold execReshardSignal
  split
  · exact staysWf_next h
  · split
    · exact staysWf_next h
    · refine staysWf_ite (staysWf_next h) (staysWf_orWait h ?_)
      split
      · exact offersWf_none
      · exact offersWf_breakReshard h _ _ _
      · rename_i ht
        refine offersWf_bind (offersWf_taskRecord (memWf_landScales h ht) _ _ _ _ _) fun u hu => offersWf_map fun v hv => ?_
        exact memWf_endReshard (offersWf_doneAction hu _ _ _ _ _ v hv) _

theorem staysWf_execReshardHoldExpiry : staysWf (execReshardHoldExpiry s) := by
  unfold execReshardHoldExpiry
  split
  · exact staysWf_next h
  · exact staysWf_ite (staysWf_next h) (staysWf_orWait h (offersWf_map fun u hu => memWf_tellLost (offersWf_breakReshard h _ _ _ u hu) _ _ _ _ _))

theorem memWf_reshardEnded (pkg : BitVec 48) (gtag call : BitVec 32) : (s.reshardEnded pkg gtag call).memWf = true := by
  unfold State.reshardEnded
  split
  · exact memWf_putReshard h _
  · exact h

theorem offersWf_reshardLost (gtag call : BitVec 32) : offersWf (s.reshardLost gtag call) := by
  unfold State.reshardLost
  split
  · exact offersWf_breakReshard h _ _ _
  · exact offersWf_some h

/-! The fabric -/

theorem memWf_setPort (n : Nat) (p : Port) : (s.setPort n p).memWf = true := h

theorem memWf_logRepair (cls num : Nat) (addr : Word) : (s.logRepair cls num addr).memWf = true := memWf_logOwn h _ _ _ _ _ _ _ _

theorem memWf_reroute : s.reroute.memWf = true := h

theorem memWf_hold (p : Packet) : (s.hold p).memWf = true := memWf_ite h (by exact h)

theorem memWf_route {p : Packet} {what : List Payload} {t : State} {n : Nat} (ht : s.route p what = some (t, n)) : t.memWf = true := by
  unfold State.route at ht
  dsimp only at ht
  split at ht
  · cases ht; exact h
  · cases ht

theorem memWf_ackHop (p : Packet) (ok : Bool) : (s.ackHop p ok).memWf = true := memWf_ite (memWf_post h _ _ _ _ _) h

theorem memWf_mismatch (port : Nat) : (s.mismatch port).memWf = true := memWf_logRepair (memWf_reroute (memWf_setPort h _ _)) _ _ _

theorem memWf_resend (k : HopKept) : (s.resend k).memWf = true := by
  unfold State.resend
  split
  · exact h
  · rename_i ht
    exact memWf_of_eq (memWf_route h ht) rfl rfl

theorem staysWf_execHopForward (p : Packet) : staysWf (execHopForward p s) := by
  refine staysWf_ite (staysWf_next h) (staysWf_next ?_)
  split
  · rename_i ht
    exact memWf_ackHop (memWf_route h ht) _ _
  · exact memWf_hold h _

theorem staysWf_execHopAdd (p : Packet) : staysWf (execHopAdd p s) := by
  refine staysWf_ite (staysWf_next h) ?_
  split
  · exact staysWf_next (memWf_resend h _)
  · refine staysWf_ite (staysWf_next (memWf_ackHop (memWf_mismatch (by exact h) _) _ _)) ?_
    split
    · exact staysWf_next (memWf_hold h _)
    · split
      · exact staysWf_next (memWf_hold h _)
      · rename_i ht
        have ha {k : List HopKept} (t : State) (ht : t.memWf = true) : (({ t with kept := k } : State).ackHop p true).memWf = true :=
          memWf_ackHop (by exact ht) _ _
        exact staysWf_next (memWf_ite (memWf_mismatch (ha _ (memWf_route h ht)) _) (ha _ (memWf_route h ht)))

theorem memWf_hopAnswer (port : Nat) (ok : Bool) : (s.hopAnswer port ok).memWf = true := by
  unfold State.hopAnswer
  split
  · exact h
  · exact memWf_ite (by exact h) (memWf_mismatch (by exact h) _)

theorem staysWf_execHopMulticast (p : Packet) : staysWf (execHopMulticast p s) := by
  refine staysWf_ite (staysWf_next h) ?_
  split
  · rename_i ht
    refine staysWf_next (memWf_ackHop ?_ _ _)
    exact memWf_of_eq (memWf_route h ht) rfl rfl
  · exact staysWf_next (memWf_hold h _)

theorem staysWf_execHopDeliver (p : Packet) : staysWf (execHopDeliver p s) :=
  staysWf_ite (staysWf_next h) (staysWf_ite (staysWf_next (memWf_hold h _)) (staysWf_ite (staysWf_next (by exact h))
    (staysWf_next (memWf_ackHop (by exact h) _ _))))

theorem staysWf_execRemoteAccessRequest (r : HubReq) : staysWf (execRemoteAccessRequest r s) := by
  cases r with
  | line r => exact staysWf_next (memWf_ite (memWf_lineRequest h r) h)
  | renq r => exact staysWf_arriveRenq h r
  | retired => exact staysWf_next (by exact h)
  | moved task p =>
    simp only [execRemoteAccessRequest]
    split
    · exact staysWf_next (memWf_retire h _ _)
    · exact staysWf_next h
  | ended => exact staysWf_next (memWf_reshardEnded (memWf_memberEnded h _ _ _) _ _ _)
  | lost => exact staysWf_orWait h (offersWf_bind (offersWf_callLost h _ _) fun _ ht => offersWf_reshardLost ht _ _)
  | hopAnswer => exact staysWf_next (memWf_hopAnswer h _ _)

theorem staysWf_execFlitReplay (port : Nat) : staysWf (execFlitReplay port s) :=
  staysWf_ite (fun _ ht => nomatch ht) (staysWf_next (memWf_logRepair (memWf_setPort h _ _) _ _ _))

theorem staysWf_execLaneRetrain (port : Nat) : staysWf (execLaneRetrain port s) :=
  staysWf_ite (fun _ ht => nomatch ht) (staysWf_next (memWf_logRepair (memWf_reroute (memWf_setPort h _ _)) _ _ _))

theorem staysWf_execPortTrained (port : Nat) : staysWf (execPortTrained port s) :=
  staysWf_ite (staysWf_next (memWf_setPort h _ _)) (staysWf_ite (staysWf_next (by exact h)) fun _ ht => nomatch ht)

theorem staysWf_execLinkReroute (port : Nat) : staysWf (execLinkReroute port s) :=
  staysWf_ite (fun _ ht => nomatch ht) (staysWf_next (memWf_logRepair (memWf_reroute (memWf_setPort h _ _)) _ _ _))

theorem staysWf_execPackageAbsent (pkg : BitVec 48) : staysWf (execPackageAbsent pkg s) :=
  staysWf_ite (fun _ ht => nomatch ht) (staysWf_next (by exact h))

theorem staysWf_execPackageReachableAgain (pkg : BitVec 48) : staysWf (execPackageReachableAgain pkg s) :=
  staysWf_next (memWf_foldl _ (fun _ _ hu => memWf_post hu _ _ _ _ _) _ (by exact memWf_memberBack h pkg))

/-! Near-memory launches -/

theorem staysWf_execNmrun (sd sa : SReg) : staysWf (execNmrun sd sa s) := by
  refine staysWf_ite (staysWf_trap h) (staysWf_ite (staysWf_stall h) (staysWf_orTrap h fun _ _ => ?_))
  split
  rename_i hu
  have hu := memWf_of_load h hu
  refine staysWf_ite (staysWf_trap h) ?_
  dsimp only
  split
  · exact staysWf_trap h
  · exact staysWf_ite (staysWf_trap h) (staysWf_done (by exact memWf_takeNumber hu _ _ _ _))

theorem memWf_setNmc (n : Nat) (x : NmCore) : (s.setNmc n x).memWf = true := h

theorem memWf_idleNmc (n : Nat) : (s.idleNmc n).memWf = true := h

theorem memWf_idleNmcs (m : BitVec 24) : (s.idleNmcs m).memWf = true := memWf_foldl _ (fun _ _ hu => memWf_idleNmc hu _) _ h

theorem memWf_launchRecord {l : Launch} {status : Nat} {fault : Code} {faddr : Nat} {t : State}
    (ht : s.launchRecord l status fault faddr = some (.ok t)) : t.memWf = true := by
  unfold State.launchRecord at ht
  split at ht
  · cases ht; exact h
  · exact memWf_taskStore h ht

theorem memWf_endLaunch (l : Launch) : (s.endLaunch l).memWf = true := memWf_retireCmd (by exact h) _ _

theorem memWf_failLaunch (l : Launch) (code : Code) (addr : Nat) : (s.failLaunch l code addr).memWf = true :=
  memWf_commandEvent (memWf_endLaunch h l) _ _ _ _ _ _ _

theorem staysWf_execNmstop (sd sa : SReg) : staysWf (execNmstop sd sa s) := by
  unfold execNmstop
  split
  · exact staysWf_wrS h
  · split
    · exact staysWf_stall h
    · rename_i hr
      refine staysWf_wrS ?_
      split
      · exact memWf_endLaunch (memWf_idleNmcs (memWf_launchRecord h hr) _) _
      · exact memWf_failLaunch (memWf_idleNmcs h _) _ _ _

theorem memWf_putLaunch (l : Launch) : (s.putLaunch l).memWf = true := h

theorem staysWf_execNmcKernelStart : staysWf (execNmcKernelStart s) := by
  refine staysWf_ite (fun _ ht => nomatch ht) (staysWf_ite (staysWf_next h) ?_)
  split
  · exact staysWf_next h
  · exact staysWf_ite (staysWf_next h) (staysWf_next (memWf_putLaunch (memWf_setNmc h _ _) _))

theorem offersWf_finishLaunch (l : Launch) : offersWf (s.finishLaunch l) := by
  unfold State.finishLaunch
  split
  · split
    · exact offersWf_none
    · exact offersWf_some (memWf_failLaunch h _ _ _)
    · rename_i ht
      exact offersWf_map fun u hu => memWf_endLaunch (offersWf_doneAction (memWf_launchRecord h ht) _ _ _ _ _ u hu) _
  · refine offersWf_map fun r hr => memWf_failLaunch ?_ _ _ _
    split
    · exact memWf_launchRecord h hr
    · exact h

theorem staysWf_execNmcKernelEnd : staysWf (execNmcKernelEnd s) := by
  refine staysWf_ite (fun _ ht => nomatch ht) ?_
  split
  · split
    · exact staysWf_next (memWf_idleNmc h _)
    · have hp {l : Launch} : ((s.idleNmc s.cur.unit).putLaunch l).memWf = true := memWf_putLaunch (memWf_idleNmc h _) l
      exact staysWf_ite (staysWf_orWait h (offersWf_finishLaunch hp _)) (staysWf_next hp)
  · exact staysWf_next h

end

end Sys2Proof.Machine
end

section
/-! PROOFS. What a step leaves of the canonical form, part five: the instructions of a near-memory kernel (R366, R370, R371). Only its stores,
its atomic words and what a home slice learns touch the package; every other instruction changes the core's own registers. -/

namespace Sys2Proof.Machine

/-- What an instruction of a kernel gives keeps the canonical form. -/
def outWf (r : Rv.Out) : Prop := ∀ d, r = .ok d → d.s.memWf = true

theorem outWf_error {e : Code × Word} : outWf (.error e) := fun _ hd => nomatch hd

theorem outWf_bad {c : Rv.Ctx} : outWf (Rv.bad c) := outWf_error

theorem outWf_ite {p : Prop} [Decidable p] {a b : Rv.Out} (ha : outWf a) (hb : outWf b) : outWf (if p then a else b) := by
  split
  · exact ha
  · exact hb

theorem outWf_ok {c : Rv.Ctx} (h : c.s.memWf = true) : outWf (.ok c) := fun _ hd => by cases hd; exact h

theorem outWf_ifSome {α : Type} {c : Rv.Ctx} {o : Option α} {k : α → Rv.Out} (hk : ∀ a, outWf (k a)) : outWf (Rv.ifSome c o k) := by
  cases o with
  | none => exact outWf_bad
  | some a => exact hk a

section
variable {c : Rv.Ctx} (h : c.s.memWf = true)
include h

/-! Registers and accesses -/

theorem memWf_setX (r : Nat) (v : Word) : (Rv.setX c r v).s.memWf = true := by
  unfold Rv.setX
  split <;> exact h

theorem memWf_touch (va : Nat) : (Rv.touch c va).s.memWf = true := by
  unfold Rv.touch
  split
  · exact memWf_sameButCaches h (sameButCaches_learnHome c.s c.asid _ true)
  · exact h

theorem memWf_rvLoad {va n v : Nat} {d : Rv.Ctx} (hd : Rv.load c va n = .ok (v, d)) : d.s.memWf = true := by
  unfold Rv.load at hd
  split at hd
  · cases hd; exact memWf_touch h va
  · cases hd

theorem outWf_store (va n v : Nat) : outWf (Rv.store c va n v) := fun _ hd => memWf_rvStore h hd

theorem outWf_setX (r : Nat) (v : Word) : outWf (.ok (Rv.setX c r v)) := outWf_ok (memWf_setX h r v)

theorem outWf_setF (w r v : Nat) : outWf (.ok (Rv.setF c w r v)) := outWf_ok h

theorem outWf_goto (pc : Word) : outWf (.ok (Rv.goto c pc)) := outWf_ok h

theorem outWf_stop (e : KernelEnd) : outWf (.ok (Rv.stop c e)) := outWf_ok h

theorem outWf_putF (w r : Nat) (v : Nat × Rv.Fl) : outWf (Rv.putF c w r v) := outWf_ok h

theorem outWf_finishV : outWf (Rv.finishV c) := outWf_ok h

/-! Scalar instructions -/

theorem outWf_loadWord (w : Nat) : outWf (Rv.loadWord c w) := by
  refine outWf_ite outWf_bad ?_
  split
  · exact outWf_error
  · rename_i hl
    exact outWf_setX (memWf_rvLoad h hl) _ _

theorem outWf_storeWord (w : Nat) : outWf (Rv.storeWord c w) := outWf_ite outWf_bad (outWf_store h _ _ _)

theorem outWf_amo (w : Nat) : outWf (Rv.amo c w) := by
  unfold Rv.amo
  extract_lets size bits va b ext f5
  clear_value size bits va b ext f5
  refine outWf_ite outWf_bad (outWf_ite (outWf_ite outWf_bad ?_) (outWf_ite ?_ ?_))
  · split
    · exact outWf_error
    · exact outWf_setX (by exact memWf_touch h va) _ _
  · split
    · exact outWf_error
    · have hu : (Rv.touch { c with s := { c.s with resvs := c.s.unreserve c.n } } va).s.memWf = true := memWf_touch (by exact h) va
      exact outWf_ite (outWf_setX (by exact memWf_putHome hu _ _) _ _) (outWf_setX hu _ _)
  · split
    · exact outWf_error
    · extract_lets old
      clear_value old
      split
      · exact outWf_bad
      · exact outWf_setX (by exact memWf_putHome (memWf_touch h va) _ _) _ _

theorem outWf_csr (w : Nat) : outWf (Rv.csr c w) := by
  unfold Rv.csr
  extract_lets n src kind
  clear_value n src kind
  split
  · exact outWf_bad
  · refine outWf_ite (outWf_setX h _ _) ?_
    extract_lets new
    split
    · exact outWf_bad
    · exact outWf_setX (by exact h) _ _

theorem outWf_fpOp (w : Nat) : outWf (Rv.fpOp c w) := by
  unfold Rv.fpOp
  extract_lets fw g a b d xa withRm int
  have hrm (k : Rv.Rm → Rv.Out) (hk : ∀ m, outWf (k m)) : outWf (withRm k) := by
    dsimp only [withRm]
    split
    · exact hk _
    · exact outWf_bad
  have hint (v : Nat × Rv.Fl) (wide : Bool) : outWf (int v wide) := outWf_ok (memWf_setX h _ _)
  refine outWf_ite outWf_bad ?_
  split
  · exact hrm _ fun _ => outWf_putF h _ _ _
  · exact hrm _ fun _ => outWf_putF h _ _ _
  · exact hrm _ fun _ => outWf_putF h _ _ _
  · exact hrm _ fun _ => outWf_putF h _ _ _
  · exact outWf_ite outWf_bad (hrm _ fun _ => outWf_putF h _ _ _)
  · split
    · exact outWf_ok h
    · exact outWf_ok h
    · exact outWf_ok h
    · exact outWf_bad
  · exact outWf_ite (outWf_putF h _ _ _) outWf_bad
  · exact outWf_ite (outWf_ok (memWf_setX h _ _)) outWf_bad
  · exact hrm _ fun _ => outWf_ite (outWf_putF h _ _ _) (outWf_ite (outWf_putF h _ _ _) outWf_bad)
  · refine hrm _ fun _ => ?_
    split
    · exact hint _ _
    · exact hint _ _
    · exact hint _ _
    · exact hint _ _
    · exact outWf_bad
  · refine hrm _ fun _ => ?_
    split
    · exact outWf_putF h _ _ _
    · exact outWf_putF h _ _ _
    · exact outWf_putF h _ _ _
    · exact outWf_putF h _ _ _
    · exact outWf_bad
  · refine outWf_ite outWf_bad ?_
    split
    · exact outWf_setX h _ _
    · exact outWf_setX h _ _
    · exact outWf_bad
  · exact outWf_ite (outWf_ok h) outWf_bad
  · exact outWf_bad

theorem outWf_fpFma (w : Nat) : outWf (Rv.fpFma c w) := by
  refine outWf_ite outWf_bad ?_
  split
  · exact outWf_bad
  · exact outWf_putF h _ _ _

theorem outWf_scalar (w : Nat) (pc0 : Word) : outWf (Rv.scalar c w pc0) := by
  unfold Rv.scalar
  extract_lets put legal
  have hput (v : Option Word) : outWf (put v) := by
    dsimp only [put]
    split
    · exact outWf_setX h _ _
    · exact outWf_error
  have hlegal {r : Rv.Out} (hr : outWf r) : outWf (legal r) := by
    dsimp only [legal]
    split
    · exact outWf_error
    · exact hr
  clear_value put legal
  split
  · exact hput _
  · exact hput _
  · exact outWf_goto (memWf_setX h _ _) _
  · exact outWf_ite (outWf_goto (memWf_setX h _ _) _) outWf_error
  · split
    · exact outWf_goto h _
    · exact outWf_ok h
    · exact outWf_error
  · exact hlegal (outWf_loadWord h w)
  · exact hlegal (outWf_storeWord h w)
  · exact hput _
  · exact hput _
  · exact hput _
  · exact hput _
  · exact outWf_ite (outWf_ok h) outWf_error
  · exact hlegal (outWf_amo h w)
  · exact hlegal (outWf_fpOp h w)
  · exact hlegal (outWf_fpFma h w)
  · exact hlegal (outWf_fpFma h w)
  · exact hlegal (outWf_fpFma h w)
  · exact hlegal (outWf_fpFma h w)
  · refine outWf_ite outWf_error ?_
    split
    · rename_i hl
      exact outWf_setF (memWf_rvLoad h hl) _ _ _
    · exact outWf_error
  · exact outWf_ite outWf_error (outWf_store h _ _ _)
  · exact outWf_ite (outWf_ite (outWf_ite (outWf_stop h _) outWf_error) outWf_error) (outWf_ite outWf_error (hlegal (outWf_csr h w)))
  · exact outWf_error

/-! Vector instructions -/

theorem outWf_putGroup (v : Rv.Vec) (ew d8 start : Nat) (act : Nat → Bool) (res : Nat → Rv.El) : outWf (Rv.putGroup c v ew d8 start act res) :=
  outWf_ite (outWf_finishV h) (outWf_ok h)

theorem outWf_putMask (v : Rv.Vec) (act : Nat → Bool) (res : Nat → Bool × Rv.Fl) : outWf (Rv.putMask c v act res) :=
  outWf_ite (outWf_finishV h) (outWf_ok h)

theorem outWf_putFirst (v : Rv.Vec) (ew : Nat) (r : Rv.El) : outWf (Rv.putFirst c v ew r) :=
  outWf_ite (outWf_finishV h) (outWf_putGroup h _ _ _ _ _ _)

theorem outWf_setVector (w : Nat) : outWf (Rv.setVector c w) := by
  unfold Rv.setVector
  extract_lets imm t
  refine outWf_ite outWf_bad ?_
  split
  · exact outWf_ok (memWf_setX (by exact h) _ _)
  · exact outWf_ite (outWf_ok h) (outWf_ok (memWf_setX (by exact h) _ _))

theorem outWf_mapOp (v : Rv.Vec) (dw aw bw : Nat) (uns : Bool) (op : Nat → Nat → Nat → Option Rv.El) : outWf (Rv.mapOp c v dw aw bw uns op) :=
  outWf_ite outWf_bad (outWf_ifSome fun _ => outWf_putGroup h _ _ _ _ _ _)

theorem outWf_mapCmp (v : Rv.Vec) (op : Nat → Nat → Option (Bool × Rv.Fl)) : outWf (Rv.mapCmp c v op) :=
  outWf_ite outWf_bad (outWf_ifSome fun _ => outWf_putMask h _ _ _)

theorem outWf_slideUp (v : Rv.Vec) (n : Nat) : outWf (Rv.slideUp c v n) := outWf_ite outWf_bad (outWf_putGroup h _ _ _ _ _ _)
theorem outWf_slideDown (v : Rv.Vec) (n : Nat) : outWf (Rv.slideDown c v n) := outWf_ite outWf_bad (outWf_putGroup h _ _ _ _ _ _)
theorem outWf_slideOne (v : Rv.Vec) (up : Bool) (b : Nat) : outWf (Rv.slideOne c v up b) := outWf_ite outWf_bad (outWf_putGroup h _ _ _ _ _ _)
theorem outWf_gather (v : Rv.Vec) (iw : Nat) : outWf (Rv.gather c v iw) := outWf_ite outWf_bad (outWf_putGroup h _ _ _ _ _ _)

theorem outWf_compress (v : Rv.Vec) : outWf (Rv.compress c v) :=
  outWf_ite outWf_bad (outWf_ite (outWf_finishV h) (outWf_ite (outWf_putGroup h _ _ _ _ _ _) (outWf_putGroup h _ _ _ _ _ _)))

theorem outWf_merge (v : Rv.Vec) : outWf (Rv.merge c v) :=
  outWf_ite (outWf_ite outWf_bad (outWf_putGroup h _ _ _ _ _ _)) (outWf_ite outWf_bad (outWf_putGroup h _ _ _ _ _ _))

theorem outWf_carryOp (v : Rv.Vec) (minus : Bool) : outWf (Rv.carryOp c v minus) := outWf_ite outWf_bad (outWf_putGroup h _ _ _ _ _ _)
theorem outWf_carryOut (v : Rv.Vec) (minus : Bool) : outWf (Rv.carryOut c v minus) := outWf_ite outWf_bad (outWf_putMask h _ _ _)

theorem outWf_reduce (v : Rv.Vec) (dw : Nat) (f : Rv.El → Nat → Rv.El) : outWf (Rv.reduce c v dw f) :=
  outWf_ite outWf_bad (outWf_ite (outWf_finishV h) (outWf_putFirst h _ _ _))

theorem outWf_maskUnary (v : Rv.Vec) : outWf (Rv.maskUnary c v) := by
  unfold Rv.maskUnary
  extract_lets d set
  have hset (p : Option Nat → Nat → Bool) : outWf (set p) := outWf_ite outWf_bad (outWf_putMask h _ _ _)
  clear_value set
  split
  · exact hset _
  · exact hset _
  · exact hset _
  · exact outWf_ite outWf_bad (outWf_putGroup h _ _ _ _ _ _)
  · exact outWf_ite outWf_bad (outWf_putGroup h _ _ _ _ _ _)
  · exact outWf_bad

theorem outWf_extend (v : Rv.Vec) : outWf (Rv.extend c v) := outWf_ite outWf_bad (outWf_putGroup h _ _ _ _ _ _)

/-- Every arm of OPI is one of the operations above, or is reserved. -/
theorem outWf_opInt (v : Rv.Vec) : outWf (Rv.opInt c v) := by
  unfold Rv.opInt
  dsimp only
  split <;>
    simp only [outWf_ite, outWf_bad, outWf_mapOp h, outWf_mapCmp h, outWf_gather h, outWf_slideUp h, outWf_slideDown h, outWf_carryOp h,
      outWf_carryOut h, outWf_merge h, outWf_putGroup h, outWf_reduce h]

/-- Every arm of OPM is one of the operations above, or is reserved. -/
theorem outWf_opMul (v : Rv.Vec) : outWf (Rv.opMul c v) := by
  have hx (r : Nat) (x : Word) : outWf (Rv.finishV (Rv.setX c r x)) := outWf_finishV (memWf_setX h r x)
  unfold Rv.opMul
  dsimp only
  refine outWf_ite (outWf_ite (outWf_reduce h _ _ _) outWf_bad) (outWf_ite (outWf_mapOp h _ _ _ _ _ _) ?_)
  split
  case h_3 =>
    refine outWf_ite ?_ (outWf_ite (outWf_putFirst h _ _ _) outWf_bad)
    split
    · exact outWf_ite (hx _ _) outWf_bad
    · exact outWf_ite outWf_bad (hx _ _)
    · exact outWf_ite outWf_bad (hx _ _)
    · exact outWf_bad
  all_goals
    simp only [outWf_ite, outWf_bad, outWf_mapOp h, outWf_slideOne h, outWf_extend h, outWf_maskUnary h, outWf_compress h, outWf_putMask h]

theorem outWf_floatConvert (v : Rv.Vec) (rm : Rv.Rm) : outWf (Rv.floatConvert c v rm) := by
  unfold Rv.floatConvert
  extract_lets n isF mode rm' dw aw signed go
  have hgo (ok : Bool) (op : Nat → Rv.El) : outWf (go ok op) := outWf_ite outWf_bad (outWf_putGroup h _ _ _ _ _ _)
  clear_value mode rm' dw aw signed isF go
  refine outWf_ite outWf_bad ?_
  split <;> exact hgo _ _

theorem outWf_floatUnary (v : Rv.Vec) (rm : Rv.Rm) : outWf (Rv.floatUnary c v rm) := by
  unfold Rv.floatUnary
  extract_lets g go
  have hgo (op : Nat → Rv.El) : outWf (go op) := outWf_ite outWf_bad (outWf_putGroup h _ _ _ _ _ _)
  clear_value g go
  split
  · exact hgo _
  · exact hgo _
  · exact hgo _
  · exact hgo _
  · exact outWf_bad

/-- Every arm of OPF is one of the operations above, or is reserved. -/
theorem outWf_opFloat (v : Rv.Vec) : outWf (Rv.opFloat c v) := by
  have hf (w r x : Nat) : outWf (Rv.finishV (Rv.setF c w r x)) := outWf_finishV (by exact h)
  unfold Rv.opFloat
  dsimp only
  split
  · exact outWf_bad
  · refine outWf_ite (outWf_ite (outWf_floatConvert h _ _) outWf_bad) (outWf_ite outWf_bad ?_)
    split
    case h_18 => exact outWf_ite outWf_bad (outWf_ite (outWf_ite (hf _ _ _) outWf_bad) (outWf_ite (outWf_putFirst h _ _ _) outWf_bad))
    all_goals
      simp only [outWf_ite, outWf_bad, outWf_mapOp h, outWf_mapCmp h, outWf_reduce h, outWf_slideOne h, outWf_floatUnary h, outWf_merge h]

theorem outWf_vaccess (isLoad first : Bool) (ew : Nat) (l : List Rv.VAccess) : outWf (Rv.vaccess isLoad first ew l c) := by
  induction l generalizing c with
  | nil => exact outWf_finishV h
  | cons a r ih =>
    have hfail (e : Code × Word) : outWf (if first && decide (a.elem ≠ 0) then Rv.finishV { c with k := { c.k with vl := a.elem } } else Rv.faulted c e) :=
      outWf_ite (outWf_finishV (by exact h)) (outWf_ok h)
    unfold Rv.vaccess
    dsimp only
    split
    · split
      · rename_i hl
        have hd := memWf_rvLoad h hl
        exact ih (by exact hd)
      · exact hfail _
    · split
      · rename_i hs
        exact ih (memWf_rvStore h hs)
      · exact hfail _

theorem memWf_settleLoad (v : Rv.Vec) (ew e8 nf : Nat) : (Rv.settleLoad c v ew e8 nf).s.memWf = true := by
  unfold Rv.settleLoad
  split
  · exact h
  · exact List.foldlRecOn (motive := fun (c : Rv.Ctx) => c.s.memWf = true) _ _ h fun _ hb _ _ => hb

theorem outWf_settled (isLoad first : Bool) (v : Rv.Vec) (ew e8 nf w : Nat) (l : List Rv.VAccess) :
    outWf (Rv.vaccess isLoad first w l (if isLoad then Rv.settleLoad c v ew e8 nf else c)) := by
  refine outWf_vaccess ?_ _ _ _ _
  split
  · exact memWf_settleLoad h _ _ _ _
  · exact h

theorem outWf_vmem (w : Nat) (isLoad : Bool) : outWf (Rv.vmem c w isLoad) := by
  unfold Rv.vmem
  dsimp only
  split
  · exact outWf_bad
  · refine outWf_ite outWf_bad (outWf_ite (outWf_ite outWf_bad (outWf_vaccess h _ _ _ _)) ?_)
    split
    · exact outWf_bad
    · exact outWf_ite (outWf_ite outWf_bad (outWf_settled h _ _ _ _ _ _ _ _)) (outWf_ite outWf_bad (outWf_settled h _ _ _ _ _ _ _ _))

theorem outWf_vector (w : Nat) (pc0 : Word) : outWf (Rv.vector c w pc0) := by
  unfold Rv.vector
  extract_lets r
  have hr : outWf r := by
    refine outWf_ite (outWf_vmem h _ _) (outWf_ite (outWf_vmem h _ _) (outWf_ite (outWf_setVector h _) ?_))
    split
    · exact outWf_bad
    · split
      · exact outWf_opInt h _
      · exact outWf_opInt h _
      · exact outWf_opInt h _
      · exact outWf_opMul h _
      · exact outWf_opMul h _
      · exact outWf_opFloat h _
  clear_value r
  split
  · exact outWf_error
  · exact hr

end

/-- One instruction of a kernel: what its word gives goes to the core, and a fault changes the core alone. -/
theorem staysWf_execNearMemoryKernelInstruction {s : State} (h : s.memWf = true) : staysWf (execNearMemoryKernelInstruction s) := by
  unfold execNearMemoryKernelInstruction
  refine staysWf_ite (fun _ ht => nomatch ht) ?_
  extract_lets k
  split
  · split
    · exact staysWf_next h
    · rename_i give _ _ _ _ _ _ _ l _
      extract_lets c
      have hgive {r : Rv.Out} (hr : outWf r) : staysWf (give r) := by
        dsimp only [give]
        split
        · exact staysWf_next (memWf_setNmc (hr _ rfl) _ _)
        · exact staysWf_next (memWf_setNmc h _ _)
      have hc : c.s.memWf = true := h
      clear_value c give
      split
      · exact hgive outWf_error
      · have hg {pc : Word} : (Rv.goto (Rv.touch c k.pc.toNat) pc).s.memWf = true := memWf_touch hc _
        exact hgive (outWf_ite (outWf_vector hg _ _) (outWf_scalar hg _ _))
  · exact staysWf_next h

end Sys2Proof.Machine
end

section
/-! PROOFS. What a step leaves of the canonical form, part six: abandonment, the save area, resumption, and the control node's port
(R264, R288, R297 to R306, R373 to R380). -/

namespace Sys2Proof.Machine

section
variable {s : State} (h : s.memWf = true)
include h

/-! Abandonment and pre-emption -/

theorem staysWf_execAbandonmentComplete : staysWf (execAbandonmentComplete s) := by
  unfold execAbandonmentComplete
  extract_lets -underBinder c
  split
  · have hc := memWf_cancelCopies h c
    generalize s.cancelCopies c = r at hc ⊢
    obtain ⟨s1, n⟩ := r
    dsimp -zeta only
    extract_lets -underBinder s2 k s3 s4
    have hs : s2.memWf = true := (memWf_upd s1 _).trans hc
    have h4 : s4.memWf = true := memWf_logTask (memWf_logOwn hs _ _ _ _ _ _ _ _) _ _ _ _ _ _ _
    clear_value s2 s4
    exact staysWf_ite (staysWf_next hs) (staysWf_next ((memWf_setCore _ _ _).trans (memWf_forget (memWf_launchEnds h4 _) _)))
  · exact staysWf_next h

/-- A place of a nest's work that lies in a scratchpad takes its byte. -/
theorem memWf_stopNest (c : Nat) (n : Nest) : (s.stopNest c n).memWf = true := by
  refine memWf_foldl _ (fun u p hu => ?_) _ ((memWf_setCore s _ _).trans h)
  split
  · exact memWf_set_spad hu _ _
  · exact hu

theorem memWf_stopNests (c : Nat) : (s.stopNests c).memWf = true := by
  unfold State.stopNests
  extract_lets -underBinder last s1 s2 k
  have h2 : s2.memWf = true := memWf_foldl _ (fun _ _ hu => memWf_stopNest hu _ _) _ (memWf_catchUp h c last)
  clear_value s2
  split
  · exact memWf_ite h2 ((memWf_setCore s2 _ _).trans h2)
  · exact h2

theorem memWf_taskHome (c : Nat) : (s.taskHome c).memWf = true := memWf_drainNeeded _ _ _ (memWf_drainCombine h c)

theorem staysWf_execPreemption : staysWf (execPreemption s) := by
  unfold execPreemption
  extract_lets -underBinder c
  cases s.preemptAt with
  | none => exact staysWf_next h
  | some entry =>
    dsimp -zeta only
    refine staysWf_ite (staysWf_next h) ?_
    extract_lets -underBinder parked s1 s2 s3 k p nests mine dropped kept heldCause _ k2 accs lo hi sections area s4 s5 v s6
    have h3 : s3.memWf = true := memWf_stopNests ((memWf_upd s1 _).trans (memWf_taskHome (memWf_landAll h c) c)) c
    clear_value s3
    have h5 : s5.memWf = true := memWf_foldl _ (fun _ _ hu => memWf_setPhys hu _ _) _ (memWf_setPhys h3 _ _)
    exact staysWf_next (memWf_of_eq h5 rfl rfl)

theorem staysWf_execSaveComplete : staysWf (execSaveComplete s) := by
  unfold execSaveComplete
  extract_lets -underBinder c k
  split
  · refine staysWf_ite (staysWf_next h) ?_
    extract_lets -underBinder l
    exact staysWf_next ((memWf_setCore _ _ _).trans (memWf_setPhys (by exact h) _ _))
  · exact staysWf_next h

/-! Resumption -/

theorem memWf_recount (c : Nat) (copies : List (List Byte)) (b : List Byte) : (s.recount c copies b).memWf = true := by
  unfold State.recount
  extract_lets -underBinder va
  split
  · exact memWf_setRun_spad h _ _
  · exact h

theorem memWf_restoreTuple (m : List Byte) : (s.restoreTuple m).memWf = true := by
  unfold State.restoreTuple
  split
  · extract_lets -underBinder t stamp give
    have hg (sd sb : SReg) : (give sd sb).memWf = true := memWf_acquire ((memWf_upd s _).trans h) _
    clear_value give
    split
    · exact hg _ _
    · exact hg _ _
    · exact h
  · exact h

theorem memWf_replay (c : Nat) (l : List (List Byte)) : (State.replay c l s).memWf = true := by
  induction l generalizing s with
  | nil => exact h
  | cons b r ih => exact ih (memWf_applySignal h _ _ _ _)

theorem memWf_restoreMarks (v : Saved) (copies : List Copy) : (s.restoreMarks v copies).memWf = true := memWf_ite (by exact h) h

theorem staysWf_execResumption : staysWf (execResumption s) := by
  unfold execResumption
  extract_lets -underBinder c
  split
  · refine staysWf_ite (staysWf_next h) ?_
    extract_lets -underBinder hd
    cases readTcb (hd.take 64) with
    | none => exact staysWf_next h
    | some t =>
      dsimp -zeta only
      extract_lets -underBinder sec cl bases base lo s1 s2 s3 gens s4 copies s5 s6 s7 fl cause nests s8 s9 again s10 s11
      have h1 : s1.memWf = true := memWf_spad h (wf_filter 0 _ _ (wf_spad h)) rfl
      have h3 : s3.memWf = true := memWf_setRun_spad (s := s2) ((memWf_setCore s1 _ _).trans h1) _ _
      have h5 : s5.memWf = true := memWf_foldl _ (fun _ _ hu => memWf_recount hu _ _ _) _ ((memWf_upd s3 _).trans h3)
      have h7 : s7.memWf = true := (memWf_upd s6 _).trans (memWf_replay h5 _ _)
      have h10 : s10.memWf = true := memWf_restoreMarks (by exact h7) _ _
      have h11 : s11.memWf = true := memWf_ite (memWf_restoreTuple h10 _) h10
      exact staysWf_next ((memWf_upd s11 _).trans h11)
  · exact staysWf_next h

theorem staysWf_execResumeDoorbell : staysWf (execResumeDoorbell s) := by
  unfold execResumeDoorbell
  extract_lets -underBinder c x area hd
  refine staysWf_ite (fun _ ht => nomatch ht) ?_
  refine staysWf_ite (staysWf_next (memWf_logRefused h _)) ?_
  generalize readTcb (hd.take 64) = o
  cases o with
  | none => exact staysWf_next (memWf_logRefused h _)
  | some t => exact staysWf_next (memWf_of_eq h rfl rfl)

/-! Reset and levels -/

theorem memWf_toLevel (l : Level) (clock : Nat) : (s.toLevel l clock).memWf = true := memWf_logOwn (by exact h) _ _ _ _ _ _ _ _

theorem memWf_tick : s.tick.memWf = true := h

theorem staysWf_execFullServiceEntry : staysWf (execFullServiceEntry s) := staysWf_ite (staysWf_next (memWf_toLevel h _ _)) (staysWf_next h)

theorem staysWf_execClockStep : staysWf (execClockStep s) := staysWf_ite (staysWf_next (memWf_toLevel h _ _)) (staysWf_next h)

theorem staysWf_execHalt (asid : BitVec 12) (addr : Word) : staysWf (execHalt asid addr s) :=
  staysWf_ite (staysWf_next (memWf_logOwn (memWf_toLevel h _ _) _ _ _ _ _ _ _ _)) (staysWf_next h)

theorem staysWf_execHiddenRepair (addr : Word) : staysWf (execHiddenRepair addr s) := staysWf_next (memWf_logRepair h _ _ _)

/-! Launches and tables -/

theorem memWf_setSlot (i : Nat) (x : LaunchSlot) : (s.setSlot i x).memWf = true := h

theorem staysWf_execLaunchDoorbell (slot : Nat) : staysWf (execLaunchDoorbell slot s) := by
  unfold execLaunchDoorbell
  refine staysWf_ite (fun _ ht => nomatch ht) ?_
  extract_lets -underBinder x p
  cases readTcb (x.block ++ List.replicate (64 - x.block.length) 0) with
  | none => exact staysWf_next (memWf_logRefused h _)
  | some t =>
    dsimp -zeta only
    refine staysWf_ite (staysWf_next (memWf_logRefused h _)) ?_
    extract_lets -underBinder n q s1 s2
    have h2 : s2.memWf = true := memWf_logTask (s := s1) h _ _ _ _ _ _ _
    exact staysWf_ite (staysWf_next (memWf_enqueue h2 _ _)) (staysWf_next (memWf_setSlot h2 _ _))

theorem staysWf_execLaunchDeferredAccept (slot : Nat) : staysWf (execLaunchDeferredAccept slot s) := by
  unfold execLaunchDeferredAccept
  refine staysWf_ite (fun _ ht => nomatch ht) ?_
  extract_lets -underBinder x p
  clear_value x p
  split
  · exact staysWf_next h
  · exact staysWf_ite (staysWf_next (memWf_setSlot (memWf_enqueue h _ _) _ _)) (staysWf_next h)

theorem staysWf_execPartitionTableWrite (i : Nat) (entry : List Byte) : staysWf (execPartitionTableWrite i entry s) := by
  unfold execPartitionTableWrite
  refine staysWf_ite (fun _ ht => nomatch ht) ?_
  extract_lets -underBinder entry addr
  clear_value entry addr
  split
  · exact staysWf_next (memWf_logRefused h _)
  · exact staysWf_ite (staysWf_ite (staysWf_next h) (staysWf_next h)) (staysWf_next (memWf_logRefused h _))

theorem staysWf_execPageTableRootWrite (asid : BitVec 12) (root : Word) : staysWf (execPageTableRootWrite asid root s) := staysWf_next h

theorem staysWf_execMeshConfigWrite (mesh coord : Word) : staysWf (execMeshConfigWrite mesh coord s) :=
  staysWf_ite (staysWf_next h) (staysWf_next (memWf_logRefused h _))

theorem staysWf_execMoraineDeclaration (i : Nat) (entry : List Byte) : staysWf (execMoraineDeclaration i entry s) := by
  unfold execMoraineDeclaration
  refine staysWf_ite (fun _ ht => nomatch ht) ?_
  extract_lets -underBinder entry
  clear_value entry
  split
  · exact staysWf_ite (staysWf_next h) (staysWf_next (memWf_logRefused h _))
  · exact staysWf_next (memWf_logRefused h _)

/-! Purges, the log and reports -/

theorem memWf_drainAll : s.drainAll.memWf = true :=
  memWf_foldl _ (fun _ _ hu => memWf_drainDie hu _) _
    (memWf_foldl _ (fun _ _ hu => memWf_drainCombine hu _) _ (memWf_foldl _ (fun _ _ hu => memWf_performAll hu _) _ h))

theorem staysWf_execPurgeDoorbell (asid : BitVec 12) (va size : Word) : staysWf (execPurgeDoorbell asid va size s) := by
  refine staysWf_ite (staysWf_next (memWf_logRefused h _)) ?_
  extract_lets -underBinder lo hi inside s1 s2
  have h2 : s2.memWf = true := memWf_foldl _ (fun u _ hu => (memWf_setDie u _ _).trans hu) _ (memWf_drainAll h)
  clear_value s2
  exact staysWf_next (by exact h2)

theorem staysWf_execEventLogTailWrite (tail : Nat) : staysWf (execEventLogTailWrite tail s) :=
  have ht : ({ s with log := { s.log with tail := tail } } : State).memWf = true := h
  staysWf_ite (staysWf_next (memWf_logRefused h _)) (staysWf_next (memWf_drainLog ht _))

theorem staysWf_execAttestationRequest (nonce : List Byte) : staysWf (execAttestationRequest nonce s) :=
  staysWf_ite (staysWf_next (memWf_logRefused h _)) (staysWf_next (memWf_post h _ _ _ _ _))

/-! The windows -/

theorem memWf_hostRead (l : List Piece) : (State.hostRead l s).2.memWf = true := by
  induction l generalizing s with
  | nil => exact h
  | cons p r ih =>
    refine ih ?_
    split
    · exact h
    · exact memWf_hostLearn h _
    · exact memWf_logRefused h _

theorem memWf_pastWindow (off n : Nat) : (s.pastWindow off n).memWf = true := memWf_ite (memWf_logRefused h _) h

theorem staysWf_execMemoryWindowRead (off n : Nat) : staysWf (execMemoryWindowRead off n s) :=
  staysWf_next (memWf_post (memWf_pastWindow (memWf_hostRead h _) _ _) _ _ _ _ _)

theorem staysWf_execMemoryWindowWrite (off : Nat) (data : List Byte) : staysWf (execMemoryWindowWrite off data s) :=
  staysWf_next (memWf_pastWindow (memWf_hostWrite _ _ h) _ _)

theorem memWf_writeControl (r : ControlReg) (off : Nat) (v : Word) : (s.writeControl r off v).memWf = true := by
  cases r with
  | resume c => exact memWf_ite (memWf_logRefused h _) h
  | ringSize => exact memWf_ite (memWf_drainLog (by exact h) _) (memWf_logRefused h _)
  | savePool | reserve | winAsid | winVa | ringBase => exact h

theorem staysWf_execControlWindowWrite (off : Nat) (data : List Byte) : staysWf (execControlWindowWrite off data s) := by
  unfold execControlWindowWrite
  extract_lets -underBinder n refused
  have hr : refused.memWf = true := memWf_logRefused h _
  refine staysWf_ite (staysWf_next (memWf_ite hr h)) ?_
  clear_value n refused
  split
  · exact staysWf_next (memWf_ite (memWf_writeControl h _ _ _) hr)
  · exact staysWf_next hr

/-! Accesses that complete on their own -/

theorem staysWf_restPerformed (e : Eng) : staysWf (restPerformed e s) := by
  unfold restPerformed
  split
  · exact staysWf_loaded (memWf_loadRuns h _)
  · exact staysWf_storedAll (memWf_performTorn h _ _)
  · exact staysWf_lineStep (memWf_performTorn (memWf_loadRuns h _) _ _)
  · exact staysWf_next h

theorem staysWf_execAccessPerformed (a : Access) : staysWf (execAccessPerformed a s) := by
  have hf (f : Fault) : staysWf (.fault f) := fun _ ht => nomatch ht
  cases a with
  | drain d n => exact staysWf_ite (hf _) (staysWf_ite (staysWf_next h) (staysWf_next (memWf_drainAt h _ _)))
  | evict d asid line => exact staysWf_ite (hf _) (staysWf_next ((memWf_setDie s _ _).trans h))
  | combine c n =>
    refine staysWf_ite (hf _) ?_
    split
    · exact staysWf_next h
    · exact staysWf_next ((memWf_setCore _ _ _).trans (memWf_landCombine _ h))
  | unmap d asid page => exact staysWf_ite (hf _) (staysWf_next ((memWf_setDie s _ _).trans h))
  | forget asid page => exact staysWf_next h
  | slice asid line => exact staysWf_next h
  | hbm c => exact staysWf_ite (hf _) (staysWf_next h)
  | queue c n =>
    refine staysWf_ite (hf _) ?_
    split
    · exact staysWf_next h
    · exact staysWf_next (memWf_performQueue h _ _)
  | rest c e => exact staysWf_ite (hf _) (staysWf_restPerformed (by exact h) _)

end

/-- Reset starts from a state whose memories are empty; the repairs and the level that follow are records. -/
theorem staysWf_execReset (fw img : BootCheck) (version : Nat) (sites : SiteMap) (s : State) : staysWf (execReset fw img version sites s) := by
  unfold execReset
  extract_lets -underBinder _ z
  have hz : z.memWf = true := memWf_reset
  refine staysWf_ite ?_ (staysWf_next (memWf_logOwn hz _ _ _ _ _ _ _ _))
  split
  exact staysWf_next (memWf_toLevel (memWf_foldl _ (fun _ _ hu => memWf_logRepair hu _ _ _) _ (by exact hz)) _ _)

end Sys2Proof.Machine
end

section
/-! PROOFS. What a step leaves of the canonical form, part seven: the vector and system words, traps, the plan of an engine, and the step
(R77, R84, R124, R125, R195 to R217, R287 to R294). -/

namespace Sys2Proof.Machine

section
variable {s : State} (h : s.memWf = true)
include h

/-! Vector words -/

theorem staysWf_writeElems {e : Eng} {ty : Fmt} {vd : VNo} {lanes : Mask} {rs : List (Nat × Flags)} : staysWf (writeElems e ty vd lanes rs s) :=
  staysWf_done (by exact h)

theorem staysWf_wrFlags {e : Eng} {d : Dest} {bm v : Nat} {f : Flags} : staysWf (((s.wr e d bm v).orFlags e f).done e) := staysWf_done (by exact h)

theorem staysWf_wr {e : Eng} {d : Dest} {bm v : Nat} : staysWf ((s.wr e d bm v).done e) := staysWf_done (by exact h)

theorem staysWf_wrM {e : Eng} {m : MaskNo} {bits : Mask} {v : Nat} : staysWf ((s.wrM e m bits v).done e) := staysWf_done (by exact h)

theorem staysWf_vecWord {o : VV} {f : Nat → Nat → Nat → Nat → Nat × Flags} : staysWf (vecWord o f s) :=
  staysWf_orTrap h fun _ _ => staysWf_writeElems h

theorem staysWf_arithWord {o : VV} {fl : Exact → Exact → Exact → Exact × Flags} {int : Int → Int → Int → Int} : staysWf (arithWord o fl int s) :=
  staysWf_vecWord h

theorem staysWf_signWord {o : VV} {fl : FloatFmt → Nat → Nat} {int : Int → Int} : staysWf (signWord o fl int s) := staysWf_vecWord h

theorem staysWf_immWord {o : VI} {f : Nat → Nat → Nat} : staysWf (immWord o f s) := staysWf_writeElems h

theorem staysWf_maskWord {md mk : MaskNo} {x : Mask} : staysWf (maskWord md mk x s) := staysWf_wrM h

theorem staysWf_spreadWord {vd : VNo} {mk : MaskNo} {x : Nat} : staysWf (spreadWord vd mk x s) := staysWf_writeElems h

theorem staysWf_reduceWord {o : Reduce} {f : List Nat → Nat × Flags} : staysWf (reduceWord o f s) := staysWf_wrFlags h

theorem staysWf_fnWord {o : VV} {f : Exact → Nat × Flags} : staysWf (fnWord o f s) := staysWf_writeElems h

theorem staysWf_execVcvt (vd va : VNo) (part : BitVec 2) (src : Fmt) (mk : MaskNo) (ty : Fmt) (rm : RMode) (g : GenNo) :
    staysWf (execVcvt vd va part src mk ty rm g s) := staysWf_orTrap h fun _ _ => staysWf_wrFlags h

theorem staysWf_execVcvtmx (o : VV) : staysWf (execVcvtmx o s) := staysWf_orTrap h fun _ _ => staysWf_wrFlags h

theorem staysWf_execVdqmx (o : VV) : staysWf (execVdqmx o s) := staysWf_orTrap h fun _ _ => staysWf_writeElems h

theorem staysWf_execGfill (vd : VNo) (g : GenNo) (sa : SReg) (ty : Fmt) (mk : MaskNo) : staysWf (execGfill vd g sa ty mk s) :=
  staysWf_ite (staysWf_trap h) (staysWf_writeElems h)

theorem staysWf_execGfillS (vd : VNo) (g : GenNo) (ty : Fmt) (mk : MaskNo) : staysWf (execGfillS vd g ty mk s) :=
  staysWf_ite (staysWf_trap h) (staysWf_writeElems (by exact h))

theorem staysWf_execVupd (ty : Fmt) (sa sb : SReg) : staysWf (execVupd ty sa sb s) := by
  unfold execVupd
  extract_lets -underBinder b va
  refine staysWf_ite (staysWf_trap h) (staysWf_ite (staysWf_trap h) (staysWf_ite (staysWf_trap h) (staysWf_ite (staysWf_trap h) ?_)))
  refine staysWf_orTrap h fun _ _ => ?_
  have hl := memWf_load h va 128
  generalize s.load va 128 = r at hl ⊢
  obtain ⟨d, t⟩ := r
  exact staysWf_ite (staysWf_trap hl) (staysWf_ite (staysWf_done hl) (staysWf_ite (staysWf_trap hl) (staysWf_await hl)))

theorem memWf_loadElems (a : UpdArray) (lo hi : Nat) : (loadElems s a lo hi).2.memWf = true := memWf_load h _ _

theorem memWf_putElems (a : UpdArray) (pos : Nat) (xs : List Nat) :
    (s.store .ve (a.addr + pos * a.size) (xs.flatMap fun x => toBytes a.size x)).memWf = true := memWf_store h _ _ _ _

theorem staysWf_execVupdChunk : staysWf (execVupdChunk s) := by
  unfold execVupdChunk
  split
  · rename_i desc d pos n ty g _
    refine staysWf_ite (staysWf_next h) ?_
    extract_lets -underBinder hi arr W G M V chk
    clear_value hi arr W G M V chk
    split
    · exact staysWf_trap h
    · have hw := memWf_loadElems h W pos hi
      generalize loadElems s W pos hi = r at hw ⊢
      obtain ⟨ws, s1⟩ := r
      have hg := memWf_loadElems hw G pos hi
      dsimp -zeta only at hg ⊢
      generalize loadElems s1 G pos hi = r at hg ⊢
      obtain ⟨gs, s2⟩ := r
      have hm := memWf_loadElems hg M pos hi
      dsimp -zeta only at hm ⊢
      generalize loadElems s2 M pos hi = r at hm ⊢
      obtain ⟨ms, s3⟩ := r
      have hv := memWf_loadElems hm V pos hi
      dsimp -zeta only at hv ⊢
      generalize loadElems s3 V pos hi = r at hv ⊢
      obtain ⟨vs, s4⟩ := r
      dsimp -zeta only
      extract_lets -underBinder gty rm gn pl rs put s5 s6 s7 s8 s9
      clear_value rs
      have h7 : s7.memWf = true := memWf_putElems (memWf_putElems (memWf_putElems hv W pos _) M pos _) V pos _
      have h9 : s9.memWf = true := memWf_store h7 _ _ _ _
      clear_value s9
      exact staysWf_ite (staysWf_done h9) (staysWf_await h9)
  · exact staysWf_next h

/-! Loads and stores of vectors -/

theorem staysWf_checkedLoad {e : Eng} {kind : Kind} {align : Nat} {l : List (Nat × Nat)} {d : Dest} {bm : Nat} {runs : List (Nat × Nat × Nat)} :
    staysWf (afterChecks s e kind align l (s.loadInto e d bm runs)) := staysWf_afterChecks h (staysWf_loadInto h)

theorem staysWf_checkedStore {e : Eng} {kind : Kind} {align : Nat} {l : List (Nat × Nat)} {nt : Bool} {w : List (Nat × List Byte)} {f : Flags}
    {n : Option Nat} : staysWf (afterChecks s e kind align l (s.storeAll e nt w f n)) := staysWf_afterChecks h (staysWf_storeAll h)

/-! Generators and maps that store, chunk counters and loads into a register group -/

theorem staysWf_execGsave (g : GenNo) (sa : SReg) : staysWf (execGsave g sa s) := staysWf_orTrap h fun _ _ => staysWf_done (memWf_store h _ _ _ _)

theorem staysWf_execMapst (m : MapNo) (sa : SReg) : staysWf (execMapst m sa s) := staysWf_orTrap h fun _ _ => staysWf_done (memWf_store h _ _ _ _)

theorem staysWf_execMapset (m : MapNo) (d : BitVec 3) (sa : SReg) : staysWf (execMapset m d sa s) :=
  staysWf_ite (staysWf_trap h) (staysWf_ite (staysWf_trap h) (staysWf_wr h))

theorem staysWf_execClchunk (sa sb : SReg) : staysWf (execClchunk sa sb s) := staysWf_ite (staysWf_trap h) (staysWf_done (by exact h))

theorem staysWf_execSeqw (sa sb : SReg) : staysWf (execSeqw sa sb s) := staysWf_done ((memWf_upd s _).trans h)

/-! Scalar and system words -/

theorem staysWf_scalar {sd : SReg} {x : Word} : staysWf (scalar sd x s) := staysWf_wrS h

theorem memWf_fetchSys {n : Nat} {v : Word} {t : State} (ht : s.fetchSys n = some (v, t)) : t.memWf = true := by
  unfold State.fetchSys at ht
  split at ht
  · cases ht
    exact (memWf_upd s _).trans h
  · obtain ⟨_, _, hv⟩ := Option.map_eq_some_iff.mp ht
    cases hv
    exact h

theorem memWf_putSys {n : Nat} {v : Word} {t : State} (ht : s.putSys n v = .ok t) : t.memWf = true := by
  unfold State.putSys at ht
  split at ht
  · cases ht
  · cases ht
    exact memWf_ite ((memWf_upd s _).trans h) ((memWf_upd s _).trans h)

theorem staysWf_execRsys (sd : SReg) (n : BitVec 12) : staysWf (execRsys sd n s) := by
  unfold execRsys
  split
  · exact staysWf_trap h
  · rename_i hf
    exact staysWf_wrS (memWf_fetchSys h hf)

theorem staysWf_execWsys (n : BitVec 12) (sa : SReg) : staysWf (execWsys n sa s) := staysWf_orTrap h fun _ ht => staysWf_done (memWf_putSys h ht)

theorem staysWf_execXsys (sd : SReg) (n : BitVec 12) (sa : SReg) : staysWf (execXsys sd n sa s) := by
  unfold execXsys
  split
  · exact staysWf_trap h
  · exact staysWf_orTrap h fun _ ht => staysWf_wrS (memWf_putSys h ht)

theorem staysWf_sysWrite (n : Nat) (v : Word) : staysWf (sysWrite n v s) :=
  staysWf_ite (staysWf_next h) (staysWf_orTrap h fun _ ht => staysWf_next (memWf_putSys h ht))

theorem staysWf_execWriteSysRegister (n : BitVec 12) (v : Word) : staysWf (execWriteSysRegister n v s) :=
  staysWf_ite (staysWf_ite (staysWf_next h) (staysWf_trap h)) (staysWf_sysWrite h _ _)

/-! Traps and events -/

theorem staysWf_execTret : staysWf (execTret s) := by
  unfold execTret
  split
  · exact staysWf_next ((memWf_upd s _).trans h)
  · exact staysWf_trap h

theorem staysWf_execTretSkip : staysWf (execTretSkip s) := by
  unfold execTretSkip
  split
  · exact staysWf_ite (staysWf_trap h) (staysWf_next ((memWf_upd s _).trans h))
  · exact staysWf_trap h

theorem staysWf_execTretAbandon : staysWf (execTretAbandon s) := staysWf_ite (staysWf_next ((memWf_upd s _).trans h)) (staysWf_trap h)

theorem staysWf_execTack (sd : SReg) : staysWf (execTack sd s) := by
  refine staysWf_wrS ?_
  split
  · exact h
  · exact (memWf_upd s _).trans h

theorem staysWf_execTmask (sd sa : SReg) : staysWf (execTmask sd sa s) := staysWf_ite (staysWf_trap h) (staysWf_wrS ((memWf_upd s _).trans h))

theorem staysWf_execTsave (sa : SReg) : staysWf (execTsave sa s) := by
  unfold execTsave
  split
  · exact staysWf_ite (staysWf_trap h) (staysWf_ite (staysWf_trap h)
      (staysWf_orTrap h fun _ _ => staysWf_ite (staysWf_trap h) (staysWf_done (memWf_store h _ _ _ _))))
  · exact staysWf_trap h

theorem staysWf_execAsyncEventDelivery : staysWf (execAsyncEventDelivery s) := by
  unfold execAsyncEventDelivery
  extract_lets -underBinder k
  split
  · exact staysWf_next h
  · exact staysWf_ite (staysWf_next h) (staysWf_ite (staysWf_next ((memWf_upd s _).trans h))
      (staysWf_next ((memWf_upd _ _).trans (memWf_landAll h _))))

end

/-! The words and events of the table -/

/-- Every word and every event leaves the memories canonical. -/
theorem staysWf_exec (i : Instr) {s : State} (h : s.memWf = true) : staysWf (exec i s) := by
  cases i with
  -- scalar arithmetic and prefetches
  | add | sub | mul | mulh | div | rem | and | or | xor | shl | shr | sra | min | max | cmp | sel | addi | muli | andi | ori | xori | shli | shri
  | srai | cmpi | li | lui | clz | popc | lea | ext => exact staysWf_scalar h
  | pf | qalign | vlpf | nop => exact staysWf_done h
  -- scalar memory
  | ld => exact staysWf_execLd h _ _ _ _
  | st => exact staysWf_execSt h _ _ _ _
  | ldacq => exact staysWf_execLdacq h _ _ _ _ _
  | strel => exact staysWf_execStrel h _ _ _ _ _
  | amo | amocas | red => exact staysWf_atomicWord h _ _ _ _ _ _ _
  | fence => exact staysWf_execFence h _ _
  -- system registers, tasks and traps
  | rsys => exact staysWf_execRsys h _ _
  | wsys => exact staysWf_execWsys h _ _
  | xsys => exact staysWf_execXsys h _ _ _
  | writeSysMode | writeSysSlip | writeSysWdog | writeSysTrapcause => exact staysWf_sysWrite h _ _
  | writeSysRegister => exact staysWf_execWriteSysRegister h _ _
  | yield => exact staysWf_await h
  | yieldEnd => exact staysWf_execYieldEnd h
  | tend => exact staysWf_execTend h
  | renq => exact staysWf_execRenq h _ _ _
  | renqQueueRoom => exact staysWf_execRenqQueueRoom h
  | seqw => exact staysWf_execSeqw h _ _
  | seqget => exact staysWf_execSeqget h _ _ _
  | prio => exact staysWf_execPrio h _ _
  | appt => exact staysWf_execAppt h _ _ _ _
  | trap | unassignedEncoding => exact staysWf_trap h
  | tret => exact staysWf_execTret h
  | tretSkip => exact staysWf_execTretSkip h
  | tretAbandon => exact staysWf_execTretAbandon h
  | tack => exact staysWf_execTack h _
  | tmask => exact staysWf_execTmask h _ _
  | tsave => exact staysWf_execTsave h _
  -- copies, barriers and rings
  | cpld | cpst | cpg | cpsc | cpmem => exact staysWf_copyWord h _ _ _
  | cpcancel => exact staysWf_execCpcancel h _
  | barinit => exact staysWf_execBarinit h _ _ _
  | barexp | barar => exact staysWf_orTrap h fun _ _ => staysWf_updateBarrier h
  | bartry => exact staysWf_execBartry h _ _ _
  | barwait => exact staysWf_execBarwait h _ _
  | barwaitSatisfied => exact staysWf_execBarwaitSatisfied h
  | waita => exact staysWf_execWaita h _ _
  | waitaSatisfied => exact staysWf_execWaitaSatisfied h
  | rgclaim => exact staysWf_execRgclaim h _ _
  | rgclaimSatisfied => exact staysWf_execRgclaimSatisfied h
  | rgfill => exact staysWf_execRgfill h _ _
  | rgwaitf => exact staysWf_execRgwaitf h _ _
  | rgwaitfSatisfied => exact staysWf_execRgwaitfSatisfied h
  | rgrel => exact staysWf_execRgrel h _ _
  | rgtry => exact staysWf_execRgtry h _ _
  -- matrix setup
  | mxfmt => exact staysWf_execMxfmt h _ _ _
  | mxcfg | gskip | gkey => exact staysWf_wr h
  | mxcfgl => exact staysWf_execMxcfgl h _
  | mxcancel | mxcancelAll => exact staysWf_cancelWord h _ _
  | mxprog | mxprogQ | gget | nmstat => exact staysWf_wrS h
  -- generators
  | gset => exact staysWf_ite (staysWf_trap h) (staysWf_wr h)
  | gsave => exact staysWf_execGsave h _ _
  | gload => exact staysWf_execGload h _ _
  | gdraw => exact staysWf_execGdraw h _ _
  -- Moraine words
  | mdep => exact staysWf_execMdep h _ _ _
  | mdepCreditFree => exact staysWf_execMdepCreditFree h
  | mrd | mtake => exact staysWf_blockingRequest h _ _ _ _
  | mtrydep => exact staysWf_execMtrydep h _ _ _
  | mtryrd | mtrytk | mwithdraw => dsimp only [exec]; exact staysWf_promptRequest h _ _ _ _
  -- maps, reshards, collectives and kernels
  | mapld => exact staysWf_execMapld h _ _
  | mapst => exact staysWf_execMapst h _ _
  | mapset => exact staysWf_execMapset h _ _ _
  | mapbind => exact staysWf_execMapbind h _ _
  | mapbindU => exact staysWf_execMapbindU h _
  | rshd => exact staysWf_execRshd h _ _ _ _ _ _ _
  | rshdq => exact staysWf_execRshdq h _ _ _ _ _
  | clgrp => exact staysWf_execClgrp h _ _ _
  | clrun => exact staysWf_execClrun h _ _
  | clchunk => exact staysWf_execClchunk h _ _
  | clstatCc | clstatGrp => exact staysWf_ite (staysWf_trap h) (staysWf_wrS h)
  | nmrun => exact staysWf_execNmrun h _ _
  | nmstop => exact staysWf_execNmstop h _ _
  -- vector memory
  | vld | vldg | vldt | vldm | vlda => exact staysWf_checkedLoad h
  | vldx => exact staysWf_execVldx h _
  | vldb => exact staysWf_execVldb h _
  | vst | vsc | vsm | vsa => exact staysWf_checkedStore h
  | vsx => exact staysWf_execVsx h _
  | vsdrain => exact staysWf_execVsdrain h _ _ _ _ _ _ _ _ _ _ _
  -- the transpose engine
  | xtr | xperm | xcat => exact staysWf_group h
  | xunpk => exact staysWf_ite (staysWf_group h) (staysWf_group h)
  | xpk => exact staysWf_ite (staysWf_groupFlags h) (staysWf_groupFlags h)
  | xhq => exact staysWf_execXhq h _ _ _ _ _ _ _
  | xhdq => exact staysWf_execXhdq h _ _ _ _ _ _ _
  -- the matrix engine
  | mxgo => exact staysWf_execMxgo h
  | mxgoResume => exact staysWf_execMxgoResume h
  | mxgoQueueRoom => exact staysWf_execMxgoQueueRoom h
  | mxzero => exact staysWf_execMxzero h _ _
  | mxsync => exact staysWf_execMxsync h
  -- the vector engine
  | vadd | vsub | vmul | vfma | vfms => dsimp only [exec]; exact staysWf_arithWord h
  | vabs | vneg => dsimp only [exec]; exact staysWf_signWord h
  | vmin | vmax | vdiv | vsqrt | vand | vor | vxor | vnot | vshl | vshr | vsra | vadds | vsubs | vmov => dsimp only [exec]; exact staysWf_vecWord h
  | vcvt => exact staysWf_execVcvt h _ _ _ _ _ _ _ _
  | vcvtmx => exact staysWf_execVcvtmx h _
  | vdqmx => exact staysWf_execVdqmx h _
  | vcmp | vcmpi => dsimp only [exec]; exact staysWf_wrM h
  | vsel | vbcast | vperm | vslide => dsimp only [exec]; exact staysWf_writeElems h
  | viota | vaddi | vmuli | vandi | vori | vshli | vshri | vli => dsimp only [exec]; exact staysWf_immWord h
  | vmand | vmor | vmxor | vmnot => dsimp only [exec]; exact staysWf_maskWord h
  | vmpop | vmfirst => dsimp only [exec]; exact staysWf_spreadWord h
  | vredsum | vdot => dsimp only [exec, execVredsum, execVdot]; exact staysWf_need h (staysWf_reduceWord h)
  | vredmax | vredmin => dsimp only [exec, execVredmax, execVredmin]; exact staysWf_reduceWord h
  | vexp2 | vlog2 | vrcp | vrsqrt | vsinT | vcosT => dsimp only [exec]; exact staysWf_fnWord h
  | vupd => exact staysWf_execVupd h _ _ _
  | vupdChunk => exact staysWf_execVupdChunk h
  | gfill => exact staysWf_execGfill h _ _ _ _ _
  | gfillS => exact staysWf_execGfillS h _ _ _ _
  | vaccr => exact staysWf_done (by exact h)
  | vaccw => exact staysWf_wr h
  -- control flow
  | br => exact staysWf_execBr h _ _ _ _
  | jmp => exact staysWf_execJmp h _ _
  | jmpr => exact staysWf_execJmpr h _ _
  | lpset => exact staysWf_execLpset h _ _ _ _
  | lpend => exact staysWf_execLpend h _ _
  | idem => exact staysWf_execIdem h _
  | modeTimed | modeInter => exact staysWf_setMode h _
  | start => exact staysWf_execStart h
  -- events of a core
  | asyncEventDelivery => exact staysWf_execAsyncEventDelivery h
  | abandonmentComplete => exact staysWf_execAbandonmentComplete h
  | watchdog => exact staysWf_execWatchdog h
  | taskDispatch => exact staysWf_execTaskDispatch h
  | preemption => exact staysWf_execPreemption h
  | saveComplete => exact staysWf_execSaveComplete h
  | resumption => exact staysWf_execResumption h
  | nestStart => exact staysWf_execNestStart h
  | nestLoadW => exact staysWf_execNestLoadW h
  | nestRow => exact staysWf_execNestRow h
  | nestDrain => exact staysWf_execNestDrain h
  | chunkCountIncrement => exact staysWf_execChunkCountIncrement h _ _
  -- copies, signals and Moraine
  | copyStart => exact staysWf_execCopyStart h _ _ _
  | copyPacketLand => exact staysWf_execCopyPacketLand h _ _ _ _ _
  | signalArrival => exact staysWf_execSignalArrival h _
  | signalNack => exact staysWf_execSignalNack h
  | remoteAccessRequest => exact staysWf_execRemoteAccessRequest h _
  | remoteResponse => exact staysWf_execRemoteResponse h _ _ _
  | moraineRequest => exact staysWf_execMoraineRequest h _
  | moraineDeposit => exact staysWf_execMoraineDeposit h _
  | moraineWithdrawal => exact staysWf_execMoraineWithdrawal h _
  | moraineResend => exact staysWf_execMoraineResend h
  | moraineReply | depositAck => exact staysWf_takeAnswer h _ _
  -- the fabric, collectives and reshards
  | hopForward => exact staysWf_execHopForward h _
  | hopAdd => exact staysWf_execHopAdd h _
  | hopMulticast => exact staysWf_execHopMulticast h _
  | hopDeliver => exact staysWf_execHopDeliver h _
  | callStart => exact staysWf_execCallStart h _ _ _
  | chunkSend => exact staysWf_execChunkSend h _ _ _
  | callDelivery => exact staysWf_execCallDelivery h _ _ _ _
  | callComplete => exact staysWf_execCallComplete h
  | collHoldExpiry => exact staysWf_execCollHoldExpiry h
  | memberReturn => exact staysWf_next (memWf_memberBack h _)
  | reshardStart => exact staysWf_execReshardStart h _ _ _
  | reshardTile => exact staysWf_execReshardTile h _ _ _ _
  | reshardSwitch => exact staysWf_execReshardSwitch h
  | reshardSignal => exact staysWf_execReshardSignal h
  | reshardHoldExpiry => exact staysWf_execReshardHoldExpiry h
  | nmcKernelStart => exact staysWf_execNmcKernelStart h
  | nmcKernelEnd => exact staysWf_execNmcKernelEnd h
  | nearMemoryKernelInstruction => exact staysWf_execNearMemoryKernelInstruction h
  -- the package and its control node
  | reset => exact staysWf_execReset _ _ _ _ _
  | fullServiceEntry => exact staysWf_execFullServiceEntry h
  | clockStep => exact staysWf_execClockStep h
  | halt => exact staysWf_execHalt h _ _
  | hiddenRepair => exact staysWf_execHiddenRepair h _
  | flitReplay => exact staysWf_execFlitReplay h _
  | laneRetrain => exact staysWf_execLaneRetrain h _
  | linkReroute => exact staysWf_execLinkReroute h _
  | portTrained => exact staysWf_execPortTrained h _
  | packageAbsent => exact staysWf_execPackageAbsent h _
  | packageReachableAgain => exact staysWf_execPackageReachableAgain h _
  | launchDoorbell => exact staysWf_execLaunchDoorbell h _
  | launchDeferredAccept => exact staysWf_execLaunchDeferredAccept h _
  | resumeDoorbell => exact staysWf_execResumeDoorbell h
  | partitionTableWrite => exact staysWf_execPartitionTableWrite h _ _
  | pageTableRootWrite => exact staysWf_execPageTableRootWrite h _ _
  | meshConfigWrite => exact staysWf_execMeshConfigWrite h _ _
  | moraineDeclaration => exact staysWf_execMoraineDeclaration h _ _
  | purgeDoorbell => exact staysWf_execPurgeDoorbell h _ _ _
  | eventLogTailWrite => exact staysWf_execEventLogTailWrite h _
  | attestationRequest => exact staysWf_execAttestationRequest h _
  | memoryWindowRead => exact staysWf_execMemoryWindowRead h _ _
  | memoryWindowWrite => exact staysWf_execMemoryWindowWrite h _ _
  | controlWindowWrite => exact staysWf_execControlWindowWrite h _ _
  | accessPerformed => exact staysWf_execAccessPerformed h _

/-! The plan of an engine -/

/-- What an engine does next keeps the canonical form: the outcome of a move that is over, or the state in which its word runs. -/
def planWf : Plan → Prop
  | .over r => staysWf r
  | .run _ t => t.memWf = true

theorem planWf_ite {c : Prop} [Decidable c] {a b : Plan} (ha : planWf a) (hb : planWf b) : planWf (if c then a else b) := by
  split
  · exact ha
  · exact hb

section
variable {s : State} (h : s.memWf = true)
include h

theorem planWf_next : planWf (.over (.next s)) := staysWf_next h

theorem planWf_upd (f : Core → Core) : planWf (.over (.next (s.upd f))) := staysWf_next ((memWf_upd s f).trans h)

theorem planWf_trap {e : Eng} {code : Code} {arg : BitVec 16} {t6 : Bool} : planWf (.over (s.trap e code arg t6)) := staysWf_trap h

theorem planWf_begin {e : Eng} {i : Instr} {sync : Nat} : planWf (.run i (s.upd fun k => k.begin e i sync)) := (memWf_upd s _).trans h

theorem planWf_startTimed (e : Eng) (i : Instr) (tag6 : Bool) (sync : Nat) : planWf (startTimed s e i tag6 sync) := by
  unfold startTimed
  extract_lets -underBinder c due s1 s2
  have h1 : s1.memWf = true := memWf_catchUp h c due
  have h2 : s2.memWf = true := (memWf_upd s1 _).trans h1
  exact planWf_ite (planWf_next h) (planWf_ite (planWf_next h1) (planWf_ite (planWf_trap h2) (planWf_begin h2)))

theorem planWf_startWord (e : Eng) (i : Instr) (tag sync : Nat) : planWf (startWord s e i tag sync) := by
  unfold startWord
  extract_lets -underBinder c k tag6 slips
  exact planWf_ite (planWf_next (memWf_performQueue h _ _)) (planWf_ite (planWf_trap h)
    (planWf_ite (planWf_ite (planWf_ite (planWf_next h) (planWf_begin h)) (planWf_startTimed h _ _ _ _))
      (planWf_ite (planWf_trap h) (planWf_ite (planWf_next h) (planWf_ite (planWf_trap h) (planWf_ite (planWf_next h)
        (planWf_ite (planWf_begin h) (planWf_next h))))))))

theorem planWf_reach (e : Eng) (p : State → Plan) (hp : ∀ t, t.memWf = true → planWf (p t)) : planWf (reach s e p) := by
  unfold reach
  extract_lets -underBinder k due
  refine planWf_ite (hp _ h) (planWf_ite (planWf_next h) ?_)
  have hc := memWf_catchUp h s.cur.core due
  exact planWf_ite (planWf_next hc) (hp _ ((memWf_upd _ _).trans hc))

theorem planWf_passed (b : Bool) (e : Eng) : planWf (if b then .over (.next (s.upd fun k => k.pass e)) else .over (.next s)) :=
  planWf_ite (planWf_upd h _) (planWf_next h)

theorem planWf_plan (e : Eng) : planWf (plan s e) := by
  unfold plan
  extract_lets -underBinder c k x
  refine planWf_ite (planWf_next h) (planWf_ite (planWf_next h) (planWf_ite ?_ (planWf_ite h (planWf_ite (planWf_next h)
    (planWf_ite (planWf_upd h _) (planWf_ite (planWf_upd h _) (planWf_ite (planWf_upd h _) ?_)))))))
  · cases k.trapHeld with
    | none => exact planWf_next h
    | some t => exact staysWf_heldTrap h
  · clear_value k x
    split
    · exact planWf_reach h _ _ fun _ ht => planWf_trap ht
    · extract_lets -underBinder s1 tag
      have hf : s1.memWf = true := memWf_fetched h c x.pc.toNat
      clear_value s1
      split
      · exact planWf_ite (planWf_reach hf _ _ fun _ ht => planWf_trap ht) (planWf_passed hf _ e)
      · split
        · exact planWf_reach hf _ _ fun _ ht => ht
        · exact planWf_ite (planWf_startWord hf _ _ _ _) (planWf_ite (planWf_next hf) (planWf_passed hf _ e))

theorem staysWf_engineStep : staysWf (engineStep s) := by
  have hp := planWf_plan h s.engHere
  unfold engineStep
  generalize plan s s.engHere = p at hp ⊢
  obtain r | ⟨i, t⟩ := p
  · exact hp
  · exact staysWf_exec i hp

theorem staysWf_issueStep : staysWf (issueStep s) := staysWf_ite (staysWf_next h) (staysWf_engineStep h)

theorem staysWf_eventStep (c u : Nat) (i : Instr) : staysWf (eventStep c u i s) := staysWf_ite (staysWf_next h) (staysWf_exec i (by exact h))

theorem staysWf_roundStep : staysWf (roundStep s) := by
  unfold roundStep
  extract_lets -underBinder home
  split
  · exact staysWf_next h
  · rename_i c u i _
    have he := staysWf_eventStep h c u i
    generalize eventStep c u i s = r at he ⊢
    cases r with
    | next t => exact staysWf_next (he t rfl)
    | fault f => exact fun _ ht => nomatch ht
    | refused f => exact fun _ ht => nomatch ht

theorem staysWf_step : staysWf (step s) := by
  unfold step
  extract_lets -underBinder t
  have ht : t.memWf = true := memWf_tick h
  clear_value t
  split
  · exact staysWf_issueStep (by exact ht)
  · exact staysWf_eventStep (by exact ht) _ _ _
  · exact staysWf_ite (staysWf_issueStep (by exact ht)) (staysWf_ite (staysWf_roundStep ht) (staysWf_issueStep (by exact ht)))

end

/-- Settles O58: every move of a step ends in a word, an event or a held trap, and each of them writes the memories only through `Bank.set`,
`Bank.setRun` and what filters or lands bytes, all of which keep the form. -/
theorem stepKeepsMemoryCanonical : Obligations.StepKeepsMemoryCanonical := by
  unfold Obligations.StepKeepsMemoryCanonical
  intro s t h ht
  exact staysWf_step h t ht

end Sys2Proof.Machine
end

section
/-! PROOFS. What reset leaves (R22, R26, R30, R54, R80, R93, R131, R374, R376). -/

namespace Sys2Proof.Machine

/-- No core holds anything after reset. -/
theorem core_reset (c : Nat) : State.reset.core c = {} := rfl

/-- The first step after reset finds an idle core: it begins the rotation's first round, and changes nothing else. -/
theorem step_reset : step State.reset = .next { State.reset.tick with cur := ⟨0, 0, 0⟩, beat := 1 } := rfl

/-- Settles O59: the fields of the reset state as they are written, and the step from it. -/
theorem resetState : Obligations.ResetState := by
  unfold Obligations.ResetState
  refine ⟨memWf_reset, rfl, fun c => ?_, fun a => ⟨rfl, rfl⟩, rfl, rfl, rfl, rfl, rfl, rfl, rfl, fun r => ?_, rfl, rfl, rfl, fun s' hs => ?_⟩
  · rw [core_reset]
    exact ⟨rfl, rfl, rfl⟩
  · unfold State.sReg
    split <;> rfl
  · have hn := stepKeepsMemoryCanonical State.reset s' memWf_reset hs
    rw [step_reset] at hs
    cases hs
    exact ⟨rfl, hn⟩

end Sys2Proof.Machine
end

section
/-! PROOFS. What the control node's writes do where the package accepts them (R20, R22, R23, R131, R138, R263, R307, R373 to R377, R385). -/

namespace Sys2Proof

@[simp] theorem length_toBytes (n x : Nat) : (toBytes n x).length = n := by
  induction n generalizing x with
  | zero => rfl
  | succ n ih => rw [toBytes, List.length_cons, ih]

namespace Bank

theorem getRun_add {α : Type} (d : α) (b : Bank α) (a m n : Nat) : getRun d b a (m + n) = getRun d b a m ++ getRun d b (a + m) n := by
  induction m generalizing a with
  | zero => rw [Nat.zero_add, Nat.add_zero]; rfl
  | succ m ih => rw [Nat.succ_add, getRun, getRun, ih, Nat.add_assoc, Nat.add_comm 1 m, List.cons_append]

theorem setRun_append {α : Type} [DecidableEq α] (d : α) (b : Bank α) (a : Nat) (l r : List α) :
    setRun d b a (l ++ r) = setRun d (setRun d b a l) (a + l.length) r := by
  induction l generalizing b a with
  | nil => rfl
  | cons x l ih => rw [List.cons_append, setRun, setRun, ih, List.length_cons, Nat.add_assoc, Nat.add_comm 1 l.length]

end Bank

end Sys2Proof

namespace Sys2Proof.Machine

/-! Blocks written whole -/

theorem overBytes_whole {old data : List Byte} (h : data.length = old.length) : overBytes old data = data := by
  unfold overBytes
  rw [← h, List.take_length, h, List.drop_length, List.append_nil]

theorem length_partBytes (p : Part) : (partBytes p).length = 64 := by simp [partBytes]

theorem length_declaredBytes (s : State) (i : Nat) : (s.declaredBytes i).length = 32 := by
  unfold State.declaredBytes
  split
  · simp
  · exact length_toBytes 32 0

theorem getD_putBytes {b data : List Byte} {off k : Nat} (ho : off + data.length ≤ 64) (hk : k < 64) :
    (putBytes b off data).getD k 0 = if off ≤ k ∧ k < off + data.length then data.getD (k - off) 0 else b.getD k 0 := by
  have hl : 64 ≤ (b ++ List.replicate (64 - b.length) 0).length := by simp; omega
  have hb : (b ++ List.replicate (64 - b.length) (0 : Byte)).getD k 0 = b.getD k 0 := by
    by_cases hkb : k < b.length
    · rw [List.getD_append _ _ _ _ hkb]
    · rw [List.getD_append_right _ _ _ _ (by omega), List.getD_eq_default b _ (by omega), List.getD_replicate _ (by omega)]
  unfold putBytes
  dsimp only
  rw [← hb]
  generalize b ++ List.replicate (64 - b.length) 0 = c at hl ⊢
  have ht : (c.take off).length = off := by rw [List.length_take]; omega
  by_cases h1 : k < off
  · rw [if_neg (by omega), List.append_assoc, List.getD_append _ _ _ _ (by omega)]
    simp [List.getD_eq_getElem?_getD, h1]
  · by_cases h2 : k < off + data.length
    · rw [if_pos (by omega), List.getD_append _ _ _ _ (by rw [List.length_append]; omega), List.getD_append_right _ _ _ _ (by omega), ht]
    · rw [if_neg (by omega), List.getD_append_right _ _ _ _ (by rw [List.length_append]; omega), List.length_append, ht]
      simp only [List.getD_eq_getElem?_getD, List.getElem?_drop]
      rw [Nat.add_sub_cancel' (by omega)]

/-! Slots, parts and queues -/

theorem slot_setSlot (s : State) (i j : Nat) (x : LaunchSlot) : (s.setSlot i x).slot j = if j = i then x else s.slot j :=
  Bank.get_set _ _ _ _ _

/-- A queue class of a core. -/
def State.queueOf (s : State) (c : Nat) (cls : Bool) : List QEntry := if cls then (s.core c).queue1 else (s.core c).queue0

theorem queueOf_enqueue (s : State) (c : Nat) (q : QEntry) : (s.enqueue c q).queueOf c q.tcb.cls = s.queueOf c q.tcb.cls ++ [q] := by
  unfold State.queueOf State.enqueue
  rw [core_setCore, if_pos rfl]
  cases q.tcb.cls <;> rfl

theorem slot_enqueue (s : State) (c : Nat) (q : QEntry) (i : Nat) : (s.enqueue c q).slot i = s.slot i := rfl

/-! Launches (R263, R374) -/

/-- The state in which a launch has taken its number and its record is in the log. -/
def State.numbered (s : State) (i : Nat) (b : Tcb) : State :=
  let p := s.part i
  let n := Bank.get 0 s.launchNext p.part.toNat
  ({ s with launchNext := Bank.set 0 s.launchNext p.part.toNat (n + 1), launchLive := s.launchLive ++ [(p.part, n)] } : State).logTask
    p.lcore 0 0 false b.taskid (.launch p.part n) 0

theorem numbered_spec (s : State) (i : Nat) (b : Tcb) :
    Bank.get 0 (s.numbered i b).launchNext (s.part i).part.toNat = Bank.get 0 s.launchNext (s.part i).part.toNat + 1 ∧
      (s.numbered i b).launchLive = s.launchLive ++ [((s.part i).part, Bank.get 0 s.launchNext (s.part i).part.toNat)] ∧
      (s.numbered i b).cores = s.cores ∧ (s.numbered i b).slots = s.slots := by
  unfold State.numbered
  rw [logTask_spec]
  exact ⟨Bank.get_set_same _ _ _ _, rfl, rfl, rfl⟩

theorem queueOf_eq {s t : State} (h : t.cores = s.cores) (c : Nat) (cls : Bool) : t.queueOf c cls = s.queueOf c cls := by
  unfold State.queueOf State.core
  rw [h]

theorem queueRoom_eq {s t : State} (h : t.cores = s.cores) (c : Nat) (cls : Bool) : t.queueRoom c cls = s.queueRoom c cls := by
  unfold State.queueRoom State.core
  rw [h]

theorem slot_eq {s t : State} (h : t.slots = s.slots) (i : Nat) : t.slot i = s.slot i := by
  unfold State.slot
  rw [h]

section
variable {s : State} {i : Nat} {b : Tcb} (hi : i < 64)
  (hb : readTcb ((s.slot i).block ++ List.replicate (64 - (s.slot i).block.length) 0) = some b)
include hi hb

/-- An accepted launch is numbered, and then queued where its class has room, or held. -/
theorem execLaunchDoorbell_accepted (hn : (s.slot i).busy = false) (hv : (s.part i).valid = true) (hl : (s.part i).leadHere = true)
    (ha : s.accepts (s.part i).lcore = true) :
    execLaunchDoorbell i s =
      let n := Bank.get 0 s.launchNext (s.part i).part.toNat
      if s.queueRoom (s.part i).lcore b.cls then .next ((s.numbered i b).enqueue (s.part i).lcore ⟨b, .launch (s.part i).part n⟩)
      else .next ((s.numbered i b).setSlot i { s.slot i with busy := true, number := n }) := by
  have hr := queueRoom_eq (numbered_spec s i b).2.2.1 (s.part i).lcore b.cls
  unfold execLaunchDoorbell
  rw [if_neg (by omega)]
  dsimp only
  rw [hb, ← hr]
  simp only [hn, hv, hl, ha, Bool.not_true, Bool.or_self, Bool.false_eq_true, if_false]
  rfl

theorem goesTo_launchDoorbell (hn : (s.slot i).busy = false) (hv : (s.part i).valid = true) (hl : (s.part i).leadHere = true)
    (ha : s.accepts (s.part i).lcore = true) :
    goesTo (exec (.launchDoorbell i) s) fun t =>
      let n := Bank.get 0 s.launchNext (s.part i).part.toNat
      Bank.get 0 t.launchNext (s.part i).part.toNat = n + 1 ∧ t.launchLive = s.launchLive ++ [((s.part i).part, n)] ∧
        if s.queueRoom (s.part i).lcore b.cls = true then
          t.queueOf (s.part i).lcore b.cls = s.queueOf (s.part i).lcore b.cls ++ [⟨b, .launch (s.part i).part n⟩] ∧ t.slot i = s.slot i
        else t.cores = s.cores ∧ t.slot i = { s.slot i with busy := true, number := n } := by
  obtain ⟨hnext, hlive, hcores, hslots⟩ := numbered_spec s i b
  have he := execLaunchDoorbell_accepted hi hb hn hv hl ha
  dsimp only [exec] at he ⊢
  rw [he]
  by_cases hr : s.queueRoom (s.part i).lcore b.cls = true
  · rw [if_pos hr]
    refine ⟨_, rfl, hnext, hlive, ?_⟩
    rw [if_pos hr, ← queueOf_eq hcores]
    exact ⟨queueOf_enqueue _ _ _, slot_eq hslots i⟩
  · rw [if_neg hr]
    refine ⟨_, rfl, hnext, hlive, ?_⟩
    rw [if_neg hr]
    exact ⟨hcores, (slot_setSlot _ _ _ _).trans (if_pos rfl)⟩

theorem goesTo_launchDeferredAccept (hn : (s.slot i).busy = true) (hr : s.queueRoom (s.part i).lcore b.cls = true) :
    goesTo (exec (.launchDeferredAccept i) s) fun t =>
      t.queueOf (s.part i).lcore b.cls = s.queueOf (s.part i).lcore b.cls ++ [⟨b, .launch (s.part i).part (s.slot i).number⟩] ∧
        t.slot i = { s.slot i with busy := false } := by
  dsimp only [exec, execLaunchDeferredAccept]
  rw [if_neg (by omega), hb]
  dsimp only
  rw [hn, hr]
  exact ⟨_, rfl, (queueOf_eq rfl _ _).trans (queueOf_enqueue s (s.part i).lcore ⟨b, _⟩), (slot_setSlot _ _ _ _).trans (if_pos rfl)⟩

end

/-! Tables and declarations -/

theorem goesTo_partitionTableWrite {s : State} {i : Nat} {e : List Byte} {new : Part} (hi : i < 64) (he : e.length = 64)
    (hp : partOfBytes e = some new) (hs : s.serves = true) (ho : s.partOk i new = true) :
    goesTo (exec (.partitionTableWrite i e) s) fun t => t.part i = new ∧ (∀ j, j ≠ i → t.part j = s.part j) ∧ t.cores = s.cores := by
  have hparts (t : State) (h : t.parts = Bank.set Part.zero s.parts i new) : t.part i = new ∧ ∀ j, j ≠ i → t.part j = s.part j := by
    unfold State.part
    rw [h]
    exact ⟨Bank.get_set_same _ _ _ _, fun j hj => Bank.get_set_other _ _ _ hj⟩
  dsimp only [exec, execPartitionTableWrite]
  rw [if_neg (by omega), overBytes_whole (he.trans (length_partBytes _).symm), hp]
  dsimp only
  rw [hs, ho, Bool.and_self, if_pos rfl]
  split
  · exact ⟨_, rfl, (hparts _ rfl).1, (hparts _ rfl).2, rfl⟩
  · exact ⟨_, rfl, (hparts _ rfl).1, (hparts _ rfl).2, rfl⟩

theorem goesTo_moraineDeclaration {s : State} {i : Nat} {e : List Byte} {r : MRegion} (hi : i < 64) (he : e.length = 32)
    (hr : regionOfBytes i e = some r) (hl : s.level = .full) (ho : s.regionOk r = true) :
    goesTo (exec (.moraineDeclaration i e) s) fun t => t = { s with regions := (s.regions.filter fun q => decide (q.slot ≠ i)) ++ [r] } := by
  dsimp only [exec, execMoraineDeclaration]
  rw [if_neg (by omega), overBytes_whole (he.trans (length_declaredBytes _ _).symm), hr]
  dsimp only
  rw [if_pos ⟨hl, ho⟩]
  exact ⟨_, rfl, rfl⟩

theorem goesTo_meshConfigWrite {s : State} {mesh coord : Word} (h : meshOk mesh coord = true) :
    goesTo (exec (.meshConfigWrite mesh coord) s) fun t => t = { s with mesh := mesh, coord := coord } := by
  dsimp only [exec, execMeshConfigWrite]
  rw [if_pos h]
  exact ⟨_, rfl, rfl⟩

/-! Purges (R138) -/

/-- What one element of a list establishes and every element keeps holds after a fold over the list. -/
theorem foldl_establishes {α β : Type} {P : β → Prop} {f : β → α → β} {a : α} (hset : ∀ u, P (f u a)) (hkeep : ∀ u x, P u → P (f u x))
    {l : List α} (h : a ∈ l) (u : β) : P (l.foldl f u) := by
  obtain ⟨l₁, l₂, rfl⟩ := List.append_of_mem h
  rw [List.foldl_append, List.foldl_cons]
  exact List.foldlRecOn (motive := P) _ _ (hset _) fun b hb x _ => hkeep b x hb

theorem dies_countDrop (s : State) (g : GenRef) : (countDrop s g).dies = s.dies := by
  unfold countDrop
  dsimp only
  split
  · rfl
  · split <;> rfl
  · rfl

theorem dies_admitGen (s : State) (line : Nat) (g : Option GenRef) : (admitGen s line g).2.dies = s.dies := by
  unfold admitGen
  split
  · rfl
  · dsimp only
    split
    · exact dies_countDrop s _
    · rfl

theorem die_eq {s t : State} (h : t.dies = s.dies) (d : Nat) : t.die d = s.die d := by
  unfold State.die
  rw [h]

/-- A store that reaches home leaves its die's buffer, and no other die's buffer changes. -/
theorem buf_drainAt (s : State) (d n e : Nat) :
    ((drainAt s d n).die e).buf = if e = d then (s.die e).buf.eraseIdx n else (s.die e).buf := by
  unfold drainAt
  dsimp only
  split
  · rename_i hn
    split
    · rename_i he
      subst he
      rw [List.eraseIdx_of_length_le (List.getElem?_eq_none_iff.mp hn)]
    · rfl
  · rename_i b _
    have ha := dies_admitGen s (b.phys / 128) b.gen
    generalize admitGen s (b.phys / 128) b.gen = r at ha ⊢
    obtain ⟨ok, t⟩ := r
    have ht (u : State) (hu : u.dies = t.dies) : u.die e = s.die e := die_eq (hu.trans ha) e
    dsimp only
    split
    · rw [die_setDie]
      split
      · rename_i he
        rw [he]
      · rw [ht]
        split <;> rfl
    · rw [die_setDie]
      split
      · rename_i he
        rw [he]
      · rw [ht _ rfl]

theorem buf_drainOldest (d e n : Nat) (s : State) :
    ((drainOldest d n s).die e).buf = if e = d then (s.die e).buf.drop n else (s.die e).buf := by
  induction n generalizing s with
  | zero =>
    split <;> rfl
  | succ n ih =>
    rw [drainOldest, ih, buf_drainAt]
    split
    · rw [List.eraseIdx_zero, List.drop_tail]
    · rfl

theorem buf_drainDie (s : State) (d e : Nat) : ((drainDie s d).die e).buf = if e = d then [] else (s.die e).buf := by
  unfold drainDie
  rw [buf_drainOldest]
  split
  · rename_i he
    rw [he, List.drop_length]
  · rfl

theorem buf_drainAll (s : State) {d : Nat} (hd : d < 8) : (s.drainAll.die d).buf = [] := by
  have hall (u : State) : ((allDies.foldl drainDie u).die d).buf = [] :=
    foldl_establishes (P := fun u : State => (u.die d).buf = []) (fun u => by rw [buf_drainDie, if_pos rfl])
      (fun u x hu => by rw [buf_drainDie, hu, ite_self]) (List.mem_range.mpr hd) u
  unfold State.drainAll
  exact hall _

/-- What a purge drops of a die: the lines and the aliases of the pages that are inside. -/
def Die.purged (x : Die) (inside : BitVec 12 → Nat → Bool) : Die :=
  { x with lines := x.lines.filter fun l => !inside l.asid (l.line / 512)
           filter := x.filter.filter fun f => !inside f.1 f.2.1 && !inside f.1 f.2.2 }

/-- The purge of every die. -/
def State.purged (s : State) (inside : BitVec 12 → Nat → Bool) : State := allDies.foldl (fun s d => s.setDie d ((s.die d).purged inside)) s

theorem lines_purged (inside : BitVec 12 → Nat → Bool) (x : Die) : ∀ l ∈ (x.purged inside).lines, inside l.asid (l.line / 512) = false := by
  intro l hl
  simpa using (List.mem_filter.mp hl).2

theorem buf_statePurged (inside : BitVec 12 → Nat → Bool) (s : State) (d : Nat) : ((s.purged inside).die d).buf = (s.die d).buf := by
  refine List.foldlRecOn (motive := fun u : State => (u.die d).buf = (s.die d).buf) _ _ rfl fun u hu e _ => ?_
  rw [die_setDie]
  split
  · rename_i he
    rw [← hu, he]
    rfl
  · exact hu

theorem lines_statePurged (inside : BitVec 12 → Nat → Bool) (s : State) {d : Nat} (hd : d < 8) :
    ∀ l ∈ ((s.purged inside).die d).lines, inside l.asid (l.line / 512) = false := by
  refine foldl_establishes (P := fun u : State => ∀ l ∈ (u.die d).lines, inside l.asid (l.line / 512) = false) (fun u => ?_) (fun u e hu => ?_)
    (List.mem_range.mpr hd) _
  · rw [die_setDie, if_pos rfl]
    exact lines_purged _ _
  · rw [die_setDie]
    split
    · exact lines_purged _ _
    · exact hu

theorem execPurgeDoorbell_accepted {s : State} {asid : BitVec 12} {va size : Word} (hs : size = 2 ^ 16 ∨ size = 2 ^ 21 ∨ size = 2 ^ 30)
    (ha : va.toNat % size.toNat = 0) (hv : va.toNat < 2 ^ 57) :
    let inside (a : BitVec 12) (page : Nat) : Bool :=
      decide (a = asid ∧ va.toNat / 65536 ≤ page ∧ page < (va.toNat + size.toNat) / 65536)
    let u := s.drainAll.purged inside
    execPurgeDoorbell asid va size s =
      .next { u with trans := u.trans.filter fun t => !inside t.asid t.page, llc := u.llc.filter fun l => !inside l.asid (l.line / 512) } := by
  have hc : [2 ^ 16, 2 ^ 21, 2 ^ 30].contains size.toNat = true := by
    obtain rfl | rfl | rfl := hs <;> decide
  unfold execPurgeDoorbell
  rw [hc, decide_eq_false (fun h => h ha), decide_eq_false (p := 2 ^ 57 ≤ va.toNat) (by omega), if_neg (by decide)]
  rfl

theorem goesTo_purgeDoorbell {s : State} {asid : BitVec 12} {va size : Word} (hs : size = 2 ^ 16 ∨ size = 2 ^ 21 ∨ size = 2 ^ 30)
    (ha : va.toNat % size.toNat = 0) (hv : va.toNat < 2 ^ 57) :
    let lo := va.toNat / 65536
    let hi := (va.toNat + size.toNat) / 65536
    goesTo (exec (.purgeDoorbell asid va size) s) fun t =>
      (∀ d l, d < 8 → l ∈ (t.die d).lines → ¬ (l.asid = asid ∧ lo ≤ l.line / 512 ∧ l.line / 512 < hi)) ∧ (∀ d, d < 8 → (t.die d).buf = []) ∧
        (∀ l ∈ t.llc, ¬ (l.asid = asid ∧ lo ≤ l.line / 512 ∧ l.line / 512 < hi)) ∧ ∀ e ∈ t.trans, ¬ (e.asid = asid ∧ lo ≤ e.page ∧ e.page < hi) := by
  intro lo hi
  refine ⟨_, execPurgeDoorbell_accepted hs ha hv, ?_⟩
  have hl (d : Nat) (hd : d < 8) := lines_statePurged (fun a page => decide (a = asid ∧ lo ≤ page ∧ page < hi)) s.drainAll hd
  have hb (d : Nat) (hd : d < 8) := (buf_statePurged (fun a page => decide (a = asid ∧ lo ≤ page ∧ page < hi)) s.drainAll d).trans (buf_drainAll s hd)
  generalize s.drainAll.purged (fun a page => decide (a = asid ∧ lo ≤ page ∧ page < hi)) = u at hl hb ⊢
  refine ⟨fun d l hd hm => of_decide_eq_false (hl d hd l hm), fun d hd => hb d hd, fun l hm => ?_, fun e hm => ?_⟩
  · simpa only [Bool.not_eq_true', decide_eq_false_iff_not] using (List.mem_filter.mp hm).2
  · simpa only [Bool.not_eq_true', decide_eq_false_iff_not] using (List.mem_filter.mp hm).2

/-! The log and reports (R375, R377) -/

theorem goesTo_eventLogTailWrite {s : State} {tail : Nat} (h1 : s.log.tail ≤ tail) (h2 : tail ≤ s.log.head) (hh : s.log.held = []) :
    goesTo (exec (.eventLogTailWrite tail) s) fun t => t = { s with log := { s.log with tail := tail } } := by
  dsimp only [exec, execEventLogTailWrite]
  rw [if_neg (by omega), hh]
  exact ⟨_, rfl, rfl⟩

theorem sends_post (s : State) (cls num : Nat) (o : Out) : sends s (s.post cls num none o) o := ⟨_, rfl, rfl⟩

theorem post_spec (s : State) (cls num : Nat) (o : Out) :
    s.post cls num none o = { s with outbox := (s.post cls num none o).outbox, counts := (s.post cls num none o).counts } := rfl

theorem goesTo_attestationRequest {s : State} {nonce : List Byte} (hn : nonce.length = 32) (hl : s.level ≠ .boot) :
    goesTo (exec (.attestationRequest nonce) s) fun t =>
      sends s t (.report nonce s.level (s.reportBody nonce ++ toBytes 7856 (Config.signature (s.reportBody nonce)))) ∧
        t = { s with outbox := t.outbox, counts := t.counts } := by
  dsimp only [exec, execAttestationRequest]
  rw [if_neg hl, overBytes_whole (hn.trans (length_toBytes 32 0).symm)]
  exact ⟨_, rfl, sends_post _ _ _ _, post_spec _ _ _ _⟩

/-! The memory window over cluster 0's scratchpad (R385) -/

theorem hostPlace_window {s : State} (hs : s.serves = true) {va n : Nat} (h1 : clusterWindow ≤ va) (h2 : va + n ≤ clusterWindow + windowSize)
    (hn : 0 < n) : s.hostPlace va n = some (.spad (va - clusterWindow)) := by
  unfold State.hostPlace
  rw [hs, if_neg (by decide), if_pos ⟨h1, by omega⟩, if_pos h2]

theorem pieces_succ (f va : Nat) {n : Nat} (hn : 0 < n) :
    pieces (f + 1) va n = (va, min n (128 - va % 128)) :: pieces f (va + min n (128 - va % 128)) (n - min n (128 - va % 128)) :=
  pieces.eq_3 va n f (by omega)

theorem hostRead_window {s : State} (hs : s.serves = true) (f : Nat) {va n : Nat} (hf : n ≤ f) (h1 : clusterWindow ≤ va)
    (h2 : va + n ≤ clusterWindow + windowSize) : State.hostRead (pieces f va n) s = (Bank.getRun 0 s.spad (va - clusterWindow) n, s) := by
  induction f generalizing va n with
  | zero =>
    obtain rfl : n = 0 := by omega
    rfl
  | succ f ih =>
    cases n with
    | zero => rfl
    | succ n =>
      obtain ⟨m, hm, hm1, hm2⟩ : ∃ m, m = min (n + 1) (128 - va % 128) ∧ 0 < m ∧ m ≤ n + 1 := ⟨_, rfl, by omega, by omega⟩
      rw [pieces_succ _ _ (Nat.succ_pos n), ← hm, State.hostRead, hostPlace_window hs h1 (by omega) hm1]
      dsimp only
      rw [ih (by omega) (by omega) (by omega)]
      dsimp only
      rw [Nat.sub_add_comm h1, ← Bank.getRun_add, Nat.add_sub_cancel' hm2]

theorem hostWrite_window (f : Nat) {va : Nat} {bs : List Byte} (hf : bs.length ≤ f) (h1 : clusterWindow ≤ va)
    (h2 : va + bs.length ≤ clusterWindow + windowSize) {s : State} (hs : s.serves = true) :
    State.hostWrite (pieces f va bs.length) bs s = { s with spad := Bank.setRun 0 s.spad (va - clusterWindow) bs } := by
  induction f generalizing va bs s with
  | zero =>
    obtain rfl : bs = [] := List.length_eq_zero_iff.mp (by omega)
    rfl
  | succ f ih =>
    cases hn : bs.length with
    | zero =>
      obtain rfl : bs = [] := List.length_eq_zero_iff.mp hn
      rfl
    | succ n =>
      obtain ⟨m, hm, hm1, hm2⟩ : ∃ m, m = min (n + 1) (128 - va % 128) ∧ 0 < m ∧ m ≤ n + 1 := ⟨_, rfl, by omega, by omega⟩
      have hd : (bs.drop m).length = n + 1 - m := by rw [List.length_drop, hn]
      have ht : (bs.take m).length = m := by rw [List.length_take]; omega
      rw [pieces_succ _ _ (Nat.succ_pos n), ← hm, State.hostWrite, hostPlace_window hs h1 (by omega) hm1]
      dsimp only
      rw [← hd, ih (by omega) (by omega) (by omega) (by exact hs)]
      have hr := Bank.setRun_append 0 s.spad (va - clusterWindow) (bs.take m) (bs.drop m)
      rw [List.take_append_drop, ht] at hr
      rw [hr, Nat.sub_add_comm h1]

theorem windowPart_inside {off n : Nat} (h : off + n ≤ 2 ^ 30) : windowPart off n = n := by
  unfold windowPart
  omega

theorem pastWindow_inside {off n : Nat} (s : State) (h : off + n ≤ 2 ^ 30) : s.pastWindow off n = s := by
  unfold State.pastWindow
  rw [windowPart_inside h, if_neg (Nat.lt_irrefl n)]

section
variable {s : State} {off : Nat} {data : List Byte} (hs : s.serves = true) (h1 : clusterWindow ≤ s.winVa.toNat + off)
  (h2 : s.winVa.toNat + off + data.length ≤ clusterWindow + windowSize) (h3 : off + data.length ≤ 2 ^ 30)
include hs h1 h2 h3

theorem goesTo_memoryWindowRead :
    goesTo (exec (.memoryWindowRead off data.length) s) fun t =>
      sends s t (.hostRead off (Bank.getRun 0 s.spad (s.winVa.toNat + off - clusterWindow) data.length)) ∧
        t = { s with outbox := t.outbox, counts := t.counts } := by
  dsimp only [exec, execMemoryWindowRead]
  rw [windowPart_inside h3, hostRead_window (va := s.hostAddr off) hs data.length (Nat.le_refl _) h1 h2, pastWindow_inside s h3, Nat.sub_self,
    List.replicate_zero, List.append_nil]
  exact ⟨_, rfl, sends_post _ _ _ _, post_spec _ _ _ _⟩

theorem goesTo_memoryWindowWrite :
    goesTo (exec (.memoryWindowWrite off data) s) fun t => t.hbm = s.hbm ∧ t.cores = s.cores ∧
      ∀ k, t.spadByte k = if s.winVa.toNat + off - clusterWindow ≤ k ∧ k < s.winVa.toNat + off - clusterWindow + data.length then
        data.getD (k - (s.winVa.toNat + off - clusterWindow)) 0 else s.spadByte k := by
  dsimp only [exec, execMemoryWindowWrite]
  rw [windowPart_inside h3, List.take_length, hostWrite_window (va := s.hostAddr off) data.length (Nat.le_refl _) h1 h2 hs, pastWindow_inside _ h3]
  refine ⟨_, rfl, rfl, rfl, fun k => ?_⟩
  exact spadByte_setRun _ _ _ _

end

/-! The control window (R31, R373) -/

theorem goesTo_slotWrite {s : State} {data : List Byte} {i o : Nat} (hi : i < 64) (ho : o + data.length ≤ 64) (hn : (s.slot i).busy = false) :
    goesTo (exec (.controlWindowWrite (0x00200000 + 128 * i + o) data) s) fun t =>
      (∀ k, k < 64 → (t.slot i).block.getD k 0 = if o ≤ k ∧ k < o + data.length then data.getD (k - o) 0 else (s.slot i).block.getD k 0) ∧
        t.cores = s.cores ∧ ∀ j, j ≠ i → t.slot j = s.slot j := by
  have hm : (0x00200000 + 128 * i + o) % 128 = o := by omega
  have hd : (0x00200000 + 128 * i + o - 0x00200000) / 128 = i := by omega
  dsimp only [exec, execControlWindowWrite]
  rw [hm, hd, if_pos ⟨by omega, by omega, ho⟩, hn, if_neg Bool.false_ne_true]
  refine ⟨_, rfl, fun k hk => ?_, rfl, fun j hj => ?_⟩
  · rw [slot_setSlot, if_pos rfl]
    exact getD_putBytes ho hk
  · rw [slot_setSlot, if_neg hj]

/-- A register of the control window takes the eight bytes that are written to it. -/
theorem execControlWindowWrite_register {s : State} {off : Nat} {data : List Byte} {r : ControlReg} (ho : 0x00202000 ≤ off)
    (hr : controlReg off = some r) (hd : data.length = 8) :
    execControlWindowWrite off data s = .next (s.writeControl r off (BitVec.ofNat 64 (ofBytes data))) := by
  unfold execControlWindowWrite
  dsimp only
  rw [if_neg (by omega), hr]
  dsimp only
  rw [if_pos (by omega), overBytes_whole (hd.trans (length_toBytes 8 _).symm)]

theorem controlReg_resume {c : Nat} (hc : c < 160) : controlReg (0x00300000 + 64 * c) = some (.resume c) := by
  unfold controlReg
  rw [if_pos (by omega), Nat.add_sub_cancel_left, Nat.mul_div_cancel_left _ (by decide)]

theorem goesTo_resumeWrite {s : State} {data : List Byte} (hd : data.length = 8) {c : Nat} (hc : c < 160)
    (hn : (Bank.get ⟨0, false⟩ s.resumes c).busy = false) :
    goesTo (exec (.controlWindowWrite (0x00300000 + 64 * c) data) s) fun t =>
      Bank.get ⟨0, false⟩ t.resumes c = ⟨BitVec.ofNat 64 (ofBytes data), false⟩ := by
  dsimp only [exec]
  rw [execControlWindowWrite_register (by omega) (controlReg_resume hc) hd]
  refine ⟨_, rfl, ?_⟩
  have hb : (s.resumeSlot c).busy = false := hn
  dsimp only [State.writeControl]
  rw [hb, if_neg Bool.false_ne_true]
  exact Bank.get_set_same _ _ _ _

/-- Settles O53: each write by its own theorem above. -/
theorem controlNodeWrites : Obligations.ControlNodeWrites := by
  unfold Obligations.ControlNodeWrites
  intro s
  refine ⟨fun i b hi => ?_, fun i e new => goesTo_partitionTableWrite, fun asid root => ⟨_, rfl, fun a => Bank.get_set _ _ _ _ _⟩,
    fun mesh coord => goesTo_meshConfigWrite, fun i e r => goesTo_moraineDeclaration, fun asid va size => goesTo_purgeDoorbell,
    fun tail => goesTo_eventLogTailWrite, fun nonce => goesTo_attestationRequest,
    fun off data hs h1 h2 h3 => ⟨goesTo_memoryWindowRead hs h1 h2 h3, goesTo_memoryWindowWrite hs h1 h2 h3⟩,
    fun data => ⟨fun i o => goesTo_slotWrite, fun hd => ⟨fun c hc hn => goesTo_resumeWrite hd hc hn, ?_, ?_⟩⟩⟩
  · exact fun hb => ⟨goesTo_launchDoorbell hi hb, goesTo_launchDeferredAccept hi hb⟩
  · dsimp only [exec]
    rw [execControlWindowWrite_register (r := .savePool) (by decide) rfl hd]
    exact ⟨_, rfl, rfl⟩
  · dsimp only [exec]
    rw [execControlWindowWrite_register (r := .winAsid) (by decide) rfl hd]
    exact ⟨_, rfl, rfl⟩

end Sys2Proof.Machine
end

section
/-! PROOFS. Reset, service levels and lost units (R26, R29, R30, R376, R378 to R381). -/

namespace Sys2Proof.Machine

/-! The records of levels and repairs -/

/-- A change of level changes the level, the clock and GEN, and adds to the log and its counts (R378). -/
theorem toLevel_spec (s : State) (l : Level) (clock : Nat) :
    s.toLevel l clock = { s with level := l, clock := clock, gen := s.gen + 1, log := (s.toLevel l clock).log, counts := (s.toLevel l clock).counts } :=
  logOwn_spec _ _ _ _ _ _ _ _ _

/-- A logged repair adds to the log and its counts alone (R379). -/
theorem logRepair_spec (s : State) (cls num : Nat) (addr : Word) :
    s.logRepair cls num addr = { s with log := (s.logRepair cls num addr).log, counts := (s.logRepair cls num addr).counts } :=
  logOwn_spec _ _ _ _ _ _ _ _ _

theorem logRepairs_spec (l : List Nat) (s : State) :
    let t := l.foldl (fun (z : State) c => z.logRepair 0 c 0) s
    t = { s with log := t.log, counts := t.counts } := by
  induction l generalizing s with
  | nil => rfl
  | cons c l ih =>
    dsimp only
    rw [List.foldl_cons, ih, logRepair_spec]

/-! The sites of the cores (R376, R379) -/

theorem getD_foldl_set {c : Nat} (l : List (Nat × Nat)) (m : List Nat) (h : ∀ x ∈ l, x.1 ≠ c) :
    (l.foldl (fun m x => m.set x.1 x.2) m).getD c 0 = m.getD c 0 := by
  induction l generalizing m with
  | nil => rfl
  | cons x l ih =>
    rw [List.foldl_cons, ih _ fun y hy => h y (List.mem_cons_of_mem _ hy), List.getD_eq_getElem?_getD, List.getD_eq_getElem?_getD,
      List.getElem?_set_ne (h x List.mem_cons_self)]

/-- A core that has not failed stays at its site. -/
theorem getD_bindCores {map failed : List Nat} {c : Nat} (hc : c < 160) (hf : c ∉ failed) : (bindCores map failed).1.getD c 0 = map.getD c 0 := by
  unfold bindCores
  dsimp only
  rw [getD_foldl_set _ _ fun x hx hxc => hf ?_]
  · simp [List.getD_eq_getElem?_getD, hc]
  · rw [← hxc]
    simpa using (List.mem_filter.mp (List.of_mem_zip hx).1).2

/-- One failed core goes to the first spare. -/
theorem getD_bindCores_failed {map : List Nat} {c : Nat} (hc : c < 160) (hm : 160 < map.length) : (bindCores map [c]).1.getD c 0 = map.getD 160 0 := by
  have hone : ((List.range 160).filter fun x => [c].contains x) = [c] := by
    rw [List.filter_congr (q := (· == c)) fun x _ => by rw [List.contains_cons, List.contains_nil, Bool.or_false], List.filter_beq,
      List.count_eq_one_of_mem List.nodup_range (List.mem_range.mpr hc)]
    rfl
  have hdrop : map.drop 160 = map[160] :: map.drop 161 := List.drop_eq_getElem_cons hm
  have hlen : c < (map.take 160).length := by rw [List.length_take]; omega
  unfold bindCores
  dsimp only
  rw [hone, hdrop, List.zip_cons_cons, List.zip_nil_left, List.foldl_cons, List.foldl_nil]
  dsimp only
  rw [List.getD_eq_getElem?_getD, List.getElem?_set_self hlen, List.getD_eq_getElem _ _ hm]
  rfl

/-! Reset -/

/-- A reset that passes its checks: reduced service begins over a package as it leaves the factory, at the image's version and sites (R376, R378). -/
theorem goesTo_reset_passes {s : State} {fw img : BitVec 256} {version : Nat} {map failed : List Nat} (hv : s.flash ≤ version)
    (hl : 160 ≤ map.length) (hn : map.Nodup) :
    goesTo (exec (.reset ⟨true, fw⟩ ⟨true, img⟩ version ⟨map, failed⟩) s) fun t => t.level = .reduced ∧ t.clock = 875 ∧ t.flash = version ∧
      t.version = version ∧ (∀ c, c < 160 → c ∉ failed → t.coreMap.getD c 0 = map.getD c 0) ∧
      (∀ c, c < 160 → failed = [c] → 160 < map.length → t.coreMap.getD c 0 = map.getD 160 0) ∧ t.fwHash = fw ∧ t.imgHash = img ∧ t.cores = [] ∧
      t.spad = [] ∧ t.hbm = [] ∧ t.parts = [] ∧ t.mesh = 0 ∧ t.coord = 0 := by
  have hm : mapOk map = true := by simp [mapOk, hl, hn]
  dsimp only [exec, execReset]
  rw [hm, decide_eq_true hv]
  rw [Bool.and_self, Bool.and_self, Bool.and_self, if_pos rfl, toLevel_spec, logRepairs_spec]
  refine ⟨_, rfl, rfl, rfl, rfl, rfl, fun c hc hf => getD_bindCores hc hf, fun c hc hf hlt => ?_, rfl, rfl, rfl, rfl, rfl, rfl, rfl, rfl⟩
  rw [hf]
  exact getD_bindCores_failed hc hlt

/-- A reset that fails a check leaves the package at boot level with its flash page as it was (R376). -/
theorem goesTo_reset_fails {s : State} {fw img : BootCheck} {version : Nat} {sites : SiteMap}
    (h : fw.ok = false ∨ img.ok = false ∨ version < s.flash ∨ mapOk sites.map = false) :
    goesTo (exec (.reset fw img version sites) s) fun t => t.level = .boot ∧ t.flash = s.flash ∧ t.cores = [] := by
  have hb : (fw.ok && img.ok && decide (s.flash ≤ version) && mapOk sites.map) = false := by
    rcases h with h | h | h | h
    · rw [h]; rfl
    · rw [h, Bool.and_false]; rfl
    · rw [decide_eq_false (by omega), Bool.and_false]; rfl
    · rw [h, Bool.and_false]
  dsimp only [exec, execReset]
  rw [hb]
  rw [if_neg Bool.false_ne_true, logOwn_spec]
  exact ⟨_, rfl, rfl, rfl, rfl⟩

/-! Levels -/

theorem goesTo_fullServiceEntry {s : State} (hl : s.level = .reduced) (hh : s.hbmUp = BitVec.allOnes 12)
    (hp : ∀ n, n < 48 → 2 ≤ (s.port n).st) :
    goesTo (exec .fullServiceEntry s) fun t =>
      t.level = .full ∧ t.clock = 1750 ∧ t.gen = s.gen + 1 ∧ t.cores = s.cores ∧ t.spad = s.spad ∧ t.hbm = s.hbm := by
  have hall : ((List.range 48).all fun n => decide (2 ≤ (s.port n).st)) = true := by
    rw [List.all_eq_true]
    exact fun n hn => decide_eq_true (hp n (List.mem_range.mp hn))
  dsimp only [exec, execFullServiceEntry]
  rw [if_pos ⟨hl, hh, hall⟩, toLevel_spec]
  exact ⟨_, rfl, rfl, rfl, rfl, rfl, rfl, rfl⟩

theorem goesTo_clockStep {s : State} (hs : s.serves = true) (hc : 125 < s.clock) :
    goesTo (exec .clockStep s) fun t => t.clock = s.clock - 125 ∧ t.level = s.level ∧ t.gen = s.gen + 1 ∧ t.cores = s.cores := by
  dsimp only [exec, execClockStep]
  rw [hs, decide_eq_true hc, Bool.and_self, if_pos rfl, toLevel_spec]
  exact ⟨_, rfl, rfl, rfl, rfl, rfl⟩

theorem goesTo_halt {s : State} (hs : s.serves = true) (asid : BitVec 12) (addr : Word) :
    goesTo (exec (.halt asid addr) s) fun t => t.level = .halted ∧ t.gen = s.gen + 1 ∧ t.cores = s.cores ∧ t.spad = s.spad := by
  dsimp only [exec, execHalt]
  rw [if_pos hs, logOwn_spec, toLevel_spec]
  exact ⟨_, rfl, rfl, rfl, rfl, rfl⟩

theorem goesTo_hiddenRepair (s : State) (addr : Word) :
    goesTo (exec (.hiddenRepair addr) s) fun t => { t with log := s.log, counts := s.counts } = s := by
  dsimp only [exec, execHiddenRepair]
  rw [logRepair_spec]
  exact ⟨_, rfl, rfl⟩

end Sys2Proof.Machine
end

section
/-! PROOFS. What the caches, the write buffers and the sequencer's queues do on their own time (R133 to R135, R139, R141, R142, R149). -/

namespace Sys2Proof.Machine

/-! Stores that reach home change no core -/

theorem cores_countDrop (s : State) (g : GenRef) : (countDrop s g).cores = s.cores := by
  unfold countDrop
  dsimp only
  split
  · rfl
  · split <;> rfl
  · rfl

theorem cores_admitGen (s : State) (line : Nat) (g : Option GenRef) : (admitGen s line g).2.cores = s.cores := by
  unfold admitGen
  split
  · rfl
  · dsimp only
    split
    · exact cores_countDrop s _
    · rfl

theorem cores_drainAt (s : State) (d n : Nat) : (drainAt s d n).cores = s.cores := by
  unfold drainAt
  dsimp only
  split
  · rfl
  · rename_i b _
    have ha := cores_admitGen s (b.phys / 128) b.gen
    split
    · split <;> exact ha
    · exact ha

theorem cores_drainNeeded (d : Nat) (need : BufStore → Bool) (n : Nat) (s : State) : (drainNeeded d need n s).cores = s.cores := by
  induction n generalizing s with
  | zero => rfl
  | succ n ih =>
    unfold drainNeeded
    split
    · exact (ih _).trans (cores_drainAt s d _)
    · rfl

theorem cores_drainLine (d phys n : Nat) (s : State) : (drainLine d phys n s).cores = s.cores := by
  induction n generalizing s with
  | zero => rfl
  | succ n ih =>
    unfold drainLine
    split
    · exact (ih _).trans (cores_drainAt s d _)
    · rfl

theorem cores_makeRoom (s : State) (d phys : Nat) : (makeRoom s d phys).cores = s.cores := by
  unfold makeRoom
  dsimp only
  split
  · rfl
  · split
    · exact cores_drainLine _ _ _ _
    · rfl

theorem cores_bufStore (s : State) (d stream : Nat) (asid : BitVec 12) (t : Trans) (bs : List Byte) (gen : Option GenRef) (nt : Bool) :
    (bufStore s d stream asid t bs gen nt).cores = s.cores := cores_makeRoom s d _

theorem cores_landCombine (s : State) (b : Combine) : (landCombine s b).cores = s.cores := by
  have ha := cores_admitGen s (b.phys / 128) b.gen
  unfold landCombine
  dsimp only
  split <;> exact ha

theorem cores_landCombines (l : List Combine) (s : State) : (l.foldl landCombine s).cores = s.cores :=
  List.foldlRecOn (motive := fun t : State => t.cores = s.cores) _ _ rfl fun t h b _ => (cores_landCombine t b).trans h

/-! What changes no core but in its write-combining buffers -/

/-- Of every core only the write-combining buffers differ. -/
def sameButCombining (s t : State) : Prop := ∀ c, t.core c = { s.core c with wc := (t.core c).wc }

theorem core_eq {s t : State} (h : t.cores = s.cores) (c : Nat) : t.core c = s.core c := by
  unfold State.core
  rw [h]

theorem sameButCombining_of_cores {s t : State} (h : t.cores = s.cores) : sameButCombining s t := fun c => by rw [core_eq h]

theorem sameButCombining_trans {s t u : State} (h : sameButCombining s t) (g : sameButCombining t u) : sameButCombining s u := fun c => by
  rw [g c, h c]

theorem sameButCombining_setWc {s u : State} (h : u.cores = s.cores) (c : Nat) (l : List Combine) :
    sameButCombining s (u.setCore c { s.core c with wc := l }) := fun d => by
  rw [core_setCore]
  split
  · rename_i hd
    rw [hd]
  · rw [core_eq h]

theorem sameButCombining_drainWc (s : State) (c : Nat) (p : Combine → Bool) : sameButCombining s (drainWc s c p) :=
  sameButCombining_setWc (cores_landCombines _ s) c _

theorem sameButCombining_drainOldestWc (s : State) (c : Nat) : sameButCombining s (drainOldestWc s c) := by
  unfold drainOldestWc
  split
  · split
    · exact sameButCombining_setWc (cores_landCombine s _) c _
    · exact sameButCombining_of_cores rfl
  · exact sameButCombining_of_cores rfl

theorem sameButCombining_combineStore (s : State) (c : Nat) (asid : BitVec 12) (t : Trans) (bs : List Byte) (gen : Option GenRef) :
    sameButCombining s (combineStore s c asid t bs gen) := by
  unfold combineStore
  refine sameButCombining_trans ?_ (sameButCombining_drainWc _ c _)
  have hd := sameButCombining_drainWc s c fun b => decide (b.asid = asid) && decide (b.line = t.va / 128) && decide (b.gen ≠ gen)
  refine sameButCombining_trans hd ?_
  split
  · exact sameButCombining_setWc rfl c _
  · exact sameButCombining_trans (sameButCombining_drainOldestWc _ c) (sameButCombining_setWc rfl c _)

theorem sameButCombining_putSpot (s : State) (c stream : Nat) (asid : BitVec 12) (p : Spot) (bs : List Byte) (gen : Option GenRef) (nt : Bool) :
    sameButCombining s (putSpot s c stream asid p bs gen nt) := by
  cases p with
  | spad key => exact sameButCombining_of_cores rfl
  | mem t =>
    unfold putSpot
    dsimp only
    split
    · exact sameButCombining_combineStore s c asid t bs gen
    · exact sameButCombining_of_cores (cores_bufStore _ _ _ _ _ _ _ _)

theorem sameButCombining_release (s : State) (sc : Scope) : sameButCombining s (s.release sc) := by
  have hd : sameButCombining s (if sc = .sys then drainCombine s s.cur.core else s) := by
    split
    · exact sameButCombining_drainWc s _ _
    · exact sameButCombining_of_cores rfl
  unfold State.release
  dsimp only
  split
  · exact sameButCombining_trans hd (sameButCombining_of_cores (cores_drainNeeded _ _ _ _))
  · exact hd

theorem sameButCombining_spotCombined (s : State) (c : Nat) (p : Spot) : sameButCombining s (s.spotCombined c p) := by
  cases p with
  | spad key => exact sameButCombining_of_cores rfl
  | mem t => exact sameButCombining_drainWc s c _

theorem cores_published (s : State) (c : Nat) (sc : Scope) (spot size : Nat) (a : Bool) (nos : List Nat) :
    (s.published c sc spot size a nos).cores = s.cores := by
  unfold State.published
  dsimp only
  split <;> split <;> rfl

theorem cores_publishFences (s : State) (c spot size : Nat) : (s.publishFences c spot size).cores = s.cores :=
  List.foldlRecOn (motive := fun t : State => t.cores = s.cores) _ _ (cores_published s _ _ _ _ _ _) fun t h _ _ =>
    (cores_published t _ _ _ _ _ _).trans h

/-! What the queues hold back -/

theorem late_sameButCombining {s t : State} (h : sameButCombining s t) (c : Nat) : (t.core c).late = (s.core c).late := by rw [h c]

theorem late_saw (s : State) (c spot size d : Nat) : ((s.saw c spot size).core d).late = (s.core d).late := by
  unfold State.saw
  dsimp only
  split
  · rfl
  · rw [core_setCore]
    split
    · rename_i hd
      rw [hd]
    · rfl

theorem late_setReg (k : Core) (d : Dest) (x : Nat) : (k.setReg d x).late = k.late := by
  cases d with
  | s n => unfold Core.setReg; dsimp only; split <;> rfl
  | _ => rfl

theorem late_writeRace (k : Core) (tick writer pos : Nat) (unord : Race → Bool) (d : Dest) (bm x : Nat) :
    (k.writeRace tick writer pos unord d bm x).late = k.late := by
  unfold Core.writeRace
  dsimp only
  split
  · exact late_setReg k _ _
  · split
    · rfl
    · exact late_setReg k _ _

/-- An access that is performed takes none out of a queue and puts none into one. -/
theorem late_performOne (s : State) (c : Nat) (l : Late) (d : Nat) : ((State.performOne c s l).core d).late = (s.core d).late := by
  unfold State.performOne
  dsimp only
  split
  · have hr : ((s.readSpot c (s.core c).sys.asid l.size l.spot).2.core d).late = (s.core d).late := by
      cases l.spot with
      | spad key => rfl
      | mem t =>
        have hf : fill s (dieOf c) (s.core c).sys.asid t = _ := sameButCaches_fill s (dieOf c) (s.core c).sys.asid t
        unfold State.readSpot
        dsimp only
        rw [hf]
        rfl
    have hs := (late_saw (s.readSpot c (s.core c).sys.asid l.size l.spot).2 c l.spot.code l.size d).trans hr
    split
    · exact hs
    · rw [core_setCore]
      split
      · rename_i hd
        subst hd
        exact (late_writeRace _ _ _ _ _ _ _ _).trans hs
      · exact hs
  · split
    · exact late_sameButCombining (sameButCombining_trans (sameButCombining_putSpot s c (6 * c) _ l.spot l.data _ _)
        (sameButCombining_of_cores (cores_publishFences _ _ _ _))) d
    · rename_i sc _
      refine late_sameButCombining (s := s) ?_ d
      refine sameButCombining_trans (sameButCombining_release { s with cur := ⟨c, 0, 0⟩ } sc) ?_
      refine sameButCombining_trans (sameButCombining_putSpot _ c (6 * c) (s.core c).sys.asid l.spot l.data none false) ?_
      refine sameButCombining_trans (sameButCombining_spotCombined _ c l.spot) ?_
      refine sameButCombining_trans (sameButCombining_release _ sc) ?_
      exact sameButCombining_of_cores (cores_published _ _ _ _ _ _ _)

/-- The accesses that a queue still holds after some are performed: those that were not to be. -/
theorem late_performQueue (s : State) (c : Nat) (p : Late → Bool) :
    ((s.performQueue c p).core c).late = (s.core c).late.filter fun x => !(State.closureOf (s.core c).late p).contains x.id := by
  unfold State.performQueue
  dsimp only
  split
  · rename_i hw
    rw [List.isEmpty_iff.mp hw]
    simp
  · refine List.foldlRecOn (motive := fun t : State => (t.core c).late = _) _ _ ?_ fun t ht l _ => (late_performOne t c l c).trans ht
    rw [core_setCore, if_pos rfl]

theorem mem_closureOf {l : List Late} {p : Late → Bool} {x : Late} (hx : x ∈ l) (hp : p x = true) : x.id ∈ State.closureOf l p := by
  unfold State.closureOf
  refine foldl_establishes (P := fun w : List Nat => x.id ∈ w) (fun w => ?_) (fun w y hw => ?_) (List.mem_reverse.mpr hx) _
  · rw [hp, Bool.or_true, if_pos rfl]
    exact List.mem_cons_self
  · split
    · exact List.mem_cons_of_mem _ (List.mem_append_right _ hw)
    · exact hw

/-- Accesses that are not wanted, and that nothing wanted comes after, leave the closure as it is. -/
theorem closureFold_unwanted (p : Late → Bool) (l : List Late) (w : List Nat) (h : ∀ x ∈ l, x.id ∉ w ∧ p x = false) :
    l.foldl (fun w x => if w.contains x.id || p x then x.id :: (x.after ++ w) else w) w = w :=
  List.foldlRecOn (motive := fun u => u = w) _ _ rfl fun u hu x hx => by
    obtain ⟨hw, hp⟩ := h x hx
    rw [hu, hp, Bool.or_false, if_neg (by simpa using hw)]

section
variable {l₁ l₂ : List Late} {x : Late} (h : ((l₁ ++ x :: l₂).map fun y => y.id).Nodup)
include h

theorem id_ne_of_nodup : ∀ y ∈ l₁ ++ l₂, y.id ≠ x.id := by
  rw [List.map_append, List.map_cons, List.nodup_middle, List.nodup_cons] at h
  intro y hy he
  refine h.1 ?_
  rw [← List.map_append, ← he]
  exact List.mem_map_of_mem hy

/-- An access that comes after none is the closure of itself. -/
theorem closureOf_single (ha : x.after = []) : State.closureOf (l₁ ++ x :: l₂) (fun y => decide (y.id = x.id)) = [x.id] := by
  have hne := id_ne_of_nodup h
  have hx : (([] : List Nat).contains x.id || decide (x.id = x.id)) = true := by simp
  unfold State.closureOf
  rw [List.reverse_append, List.reverse_cons, List.foldl_append, List.foldl_append, closureFold_unwanted _ l₂.reverse, List.foldl_cons,
    List.foldl_nil, if_pos hx, ha, closureFold_unwanted _ l₁.reverse]
  · rfl
  · intro y hy
    have := hne y (List.mem_append_left _ (List.mem_reverse.mp hy))
    exact ⟨by simpa using this, decide_eq_false this⟩
  · intro y hy
    exact ⟨List.not_mem_nil, decide_eq_false (hne y (List.mem_append_right _ (List.mem_reverse.mp hy)))⟩

theorem filter_single : (l₁ ++ x :: l₂).filter (fun y => [x.id].contains y.id) = [x] ∧
    (l₁ ++ x :: l₂).filter (fun y => !([x.id].contains y.id)) = l₁ ++ l₂ := by
  have hne := id_ne_of_nodup h
  have h1 : ∀ y ∈ l₁, y.id ≠ x.id := fun y hy => hne y (List.mem_append_left _ hy)
  have h2 : ∀ y ∈ l₂, y.id ≠ x.id := fun y hy => hne y (List.mem_append_right _ hy)
  rw [List.filter_append, List.filter_append, List.filter_cons_of_pos (by simp), List.filter_cons_of_neg (by simp)]
  rw [List.filter_eq_nil_iff.mpr fun y hy => by simpa using h1 y hy, List.filter_eq_nil_iff.mpr fun y hy => by simpa using h2 y hy,
    List.filter_eq_self.mpr fun y hy => by simpa using h1 y hy, List.filter_eq_self.mpr fun y hy => by simpa using h2 y hy]
  exact ⟨rfl, rfl⟩

end

/-- An access that comes after none is performed alone (R141, R142). -/
theorem performQueue_single {s : State} {c n : Nat} {l : Late} (hl : (s.core c).late[n]? = some l) (ha : l.after = [])
    (hn : ((s.core c).late.map fun x => x.id).Nodup) : (s.performQueue c fun x => decide (x.id = l.id)) =
      (s.setCore c { s.core c with late := (s.core c).late.eraseIdx n }).performOne c l := by
  obtain ⟨hlt, hget⟩ := List.getElem?_eq_some_iff.mp hl
  have hsplit : (s.core c).late = (s.core c).late.take n ++ l :: (s.core c).late.drop (n + 1) := by
    rw [← hget, List.cons_getElem_drop_succ, List.take_append_drop]
  have hcl := closureOf_single (by rw [← hsplit]; exact hn) ha
  have hfil := filter_single (by rw [← hsplit]; exact hn)
  rw [← hsplit] at hcl hfil
  unfold State.performQueue
  dsimp only
  rw [hcl, hfil.1, hfil.2, List.eraseIdx_eq_take_drop_succ]
  rfl

theorem goesTo_queue {s : State} {c n : Nat} {l : Late} (hc : c < 160) (hl : (s.core c).late[n]? = some l) :
    goesTo (exec (.accessPerformed (.queue c n)) s) fun t =>
      (∀ x ∈ (t.core c).late, x ∈ (s.core c).late ∧ x.id ≠ l.id) ∧ (l.after = [] → ((s.core c).late.map fun x => x.id).Nodup →
        t = (s.setCore c { s.core c with late := (s.core c).late.eraseIdx n }).performOne c l) := by
  dsimp only [exec, execAccessPerformed]
  rw [if_neg (by omega), hl]
  refine ⟨_, rfl, fun x hx => ?_, performQueue_single hl⟩
  rw [late_performQueue, List.mem_filter] at hx
  refine ⟨hx.1, fun he => ?_⟩
  have hm := mem_closureOf (p := fun x => decide (x.id = l.id)) (List.mem_of_getElem? hl) (decide_eq_true rfl)
  have hout : x.id ∉ State.closureOf (s.core c).late fun x => decide (x.id = l.id) := by simpa using hx.2
  rw [he] at hout
  exact hout hm

/-! Caches and buffers -/

theorem goesTo_drain {s : State} {d n : Nat} {b : BufStore} (hd : d < 8) (hb : (s.die d).buf[n]? = some b)
    (ho : ∀ x ∈ (s.die d).buf.take n, x.phys ≠ b.phys) (hg : b.gen = none) :
    goesTo (exec (.accessPerformed (.drain d n)) s) fun t => t.hbm = landBytes s.hbm b.phys b.bytes ∧ t.spad = s.spad ∧ t.cores = s.cores ∧
      (t.die d).buf = (s.die d).buf.eraseIdx n ∧ (t.die d).lines = (s.die d).lines := by
  have hfirst : ¬ (((s.die d).buf.take n).any fun x => decide (some x.phys = ((s.die d).buf[n]?).map fun y => y.phys)) = true := by
    rw [hb, List.any_eq_true]
    rintro ⟨x, hx, he⟩
    exact ho x hx (by simpa using he)
  dsimp only [exec, execAccessPerformed]
  rw [if_neg (by omega), if_neg hfirst]
  have hdrain : drainAt s d n = (landHome (if b.nt then { s with ntDue := s.ntDue ++ [(b.stream / 6, b.phys / 128)] } else s) b.phys
      b.bytes).setDie d { s.die d with buf := (s.die d).buf.eraseIdx n } := by
    unfold drainAt
    dsimp only
    rw [hb]
    dsimp only
    rw [hg]
    rfl
  rw [hdrain]
  refine ⟨_, rfl, ?_, ?_, ?_, by rw [die_setDie, if_pos rfl], by rw [die_setDie, if_pos rfl]⟩
  · cases b.nt <;> rfl
  · cases b.nt <;> rfl
  · cases b.nt <;> rfl

theorem goesTo_evict {s : State} {d : Nat} (line : Nat) (asid : BitVec 12) (hd : d < 8) :
    goesTo (exec (.accessPerformed (.evict d asid line)) s) fun t => t.hbm = s.hbm ∧ t.spad = s.spad ∧ t.cores = s.cores ∧
      (t.die d).buf = (s.die d).buf ∧ ∀ l ∈ (t.die d).lines, l ∈ (s.die d).lines ∧ ¬ (l.asid = asid ∧ l.line = line) := by
  dsimp only [exec, execAccessPerformed]
  rw [if_neg (by omega)]
  refine ⟨_, rfl, rfl, rfl, rfl, by rw [die_setDie, if_pos rfl], ?_⟩
  rw [die_setDie, if_pos rfl]
  intro l hl
  rw [List.mem_filter] at hl
  exact ⟨hl.1, by simpa only [Bool.not_eq_true', decide_eq_false_iff_not] using hl.2⟩

theorem goesTo_combine {s : State} {c n : Nat} {b : Combine} (hc : c < 160) (hb : (s.core c).wc[n]? = some b) (hg : b.gen = none) :
    goesTo (exec (.accessPerformed (.combine c n)) s) fun t =>
      t.hbm = landBytes s.hbm b.phys b.bytes ∧ t.spad = s.spad ∧ t.core c = { s.core c with wc := (s.core c).wc.eraseIdx n } := by
  have hland : landCombine s b = landHome s b.phys b.bytes := by
    unfold landCombine admitGen
    rw [hg]
    rfl
  dsimp only [exec, execAccessPerformed]
  rw [if_neg (by omega), hb]
  dsimp only
  rw [hland]
  exact ⟨_, rfl, rfl, rfl, by rw [core_setCore, if_pos rfl]⟩

theorem goesTo_unmap {s : State} {d : Nat} (page : Nat) (asid : BitVec 12) (hd : d < 8) :
    goesTo (exec (.accessPerformed (.unmap d asid page)) s) fun t => t.hbm = s.hbm ∧ t.spad = s.spad ∧ t.cores = s.cores := by
  dsimp only [exec, execAccessPerformed]
  rw [if_neg (by omega)]
  exact ⟨_, rfl, rfl, rfl, rfl⟩

theorem goesTo_hbm {s : State} {c : Nat} (hc : c < 160) :
    goesTo (exec (.accessPerformed (.hbm c)) s) fun t => t = { s with ntDue := s.ntDue.eraseP fun x => decide (x.1 = c) } := by
  dsimp only [exec, execAccessPerformed]
  rw [if_neg (by omega)]
  exact ⟨_, rfl, rfl⟩

end Sys2Proof.Machine
end

section
/-! PROOFS. The rest of an access that was torn (R145), and what levels and own-time accesses do, as a whole. -/

namespace Sys2Proof.Machine

/-! A torn load -/

theorem sameButCaches_loadRuns (l : List (Nat × Nat × Nat)) (s : State) : sameButCaches s (loadRuns l s).2 := by
  induction l generalizing s with
  | nil => exact sameButCaches_refl s
  | cons r l ih =>
    obtain ⟨off, va, n⟩ := r
    exact sameButCaches_trans (sameButCaches_load s va n) (ih _)

theorem testBit_blend (old new bm i : Nat) : (blend old new bm).testBit i = if bm.testBit i then new.testBit i else old.testBit i := by
  unfold blend
  rw [Nat.testBit_or, Nat.testBit_and, Nat.testBit_xor, Nat.testBit_and]
  cases bm.testBit i <;> simp

/-- In order, an interlocked write of a vector register replaces the bits of the mask and moves no engine. -/
theorem wr_v_inOrder {s : State} {e : Eng} (h : inOrder s e) (v bm x : Nat) :
    (∀ f, (s.wr e (.v v) bm x).en f = s.en f) ∧
      (s.wr e (.v v) bm x).vReg v = BitVec.ofNat 8192 (blend (s.vReg v).toNat x bm) := by
  unfold State.wr State.vReg State.en
  rw [here_upd]
  obtain ⟨rs, hw | ⟨hb, hw⟩⟩ := writeReg_inOrder s.free (.v v) bm x h.1 h.2
  · rw [hw]
    exact ⟨fun _ => rfl, Bank.get_set_same _ _ _ _⟩
  · rw [hw]
    refine ⟨fun _ => rfl, ?_⟩
    change blend (Bank.get 0 s.here.regs.v v).toNat x bm = (Bank.get 0 s.here.regs.v v).toNat at hb
    rw [hb, BitVec.ofNat_toNat, BitVec.setWidth_eq]

/-- A torn load reads the rest of its units and writes its register (R145). -/
theorem restPerformed_tornLoad {u : State} {e : Eng} {v bm val : Nat} {later : List (Nat × Nat × Nat)} (ho : inOrder u e)
    (hw : (u.en e).wait = some (.tornLoad (.v v) bm val later)) :
    goesTo (restPerformed e u) fun t => movesTo u t e ((u.en e).pc + 8) ∧ t.spad = u.spad ∧ t.hbm = u.hbm ∧
      ∀ i, i < 8192 → (t.vReg v).getLsbD i = if bm.testBit i then (val + (loadRuns later u).1).testBit i else (u.vReg v).getLsbD i := by
  have hc : (loadRuns later u).2 = _ := sameButCaches_loadRuns later u
  unfold restPerformed
  rw [hw]
  dsimp only
  generalize loadRuns later u = r at hc ⊢
  obtain ⟨x, w⟩ := r
  dsimp only at hc ⊢
  have hen (f : Eng) : w.en f = u.en f := by rw [hc]; rfl
  have hv : w.vReg v = u.vReg v := by rw [hc]; rfl
  have hmem : w.spad = u.spad ∧ w.hbm = u.hbm := by rw [hc]; exact ⟨rfl, rfl⟩
  have hin : inOrder w e := by rw [hc]; exact ho
  obtain ⟨hwen, hwv⟩ := wr_v_inOrder hin v bm (val + x)
  obtain ⟨t, ht, ⟨hrest, -, hmove⟩, -, hregs⟩ := finishes_done (s := w) (u := w.wr e (.v v) bm (val + x)) rfl (fun c hne => core_upd_other _ _ hne) hwen
  refine ⟨t, ht, ?_, (rest_spad hrest).trans hmem.1, (rest_hbm hrest).trans hmem.2, fun i hi => ?_⟩
  · unfold movesTo at hmove ⊢
    simpa only [hen] using hmove
  · have htv : t.vReg v = (w.wr e (.v v) bm (val + x)).vReg v := by unfold State.vReg; rw [hregs]
    rw [htv, hwv, hv, BitVec.getLsbD_ofNat, testBit_blend, decide_eq_true hi, Bool.true_and]
    rfl

/-! A torn store -/

/-- Torn units of a scratchpad, of one store outside memory's generations. -/
def spadUnits (l : List (Nat × List Byte)) : List TornUnit := l.map fun x => ⟨.spad x.1, x.2, false, none⟩

theorem performTorn_spadUnits (e : Eng) (l : List (Nat × List Byte)) (s : State) :
    s.performTorn e (spadUnits l) = { s with spad := l.foldl (fun m x => Bank.setRun 0 m x.1 x.2) s.spad } := by
  induction l generalizing s with
  | nil => rfl
  | cons x l ih => exact ih { s with spad := Bank.setRun 0 s.spad x.1 x.2 }

theorem spadByte_setRuns (l : List (Nat × List Byte)) (s : State) (k : Nat) :
    ({ s with spad := l.foldl (fun m x => Bank.setRun 0 m x.1 x.2) s.spad } : State).spadByte k =
      l.foldl (fun b x => if x.1 ≤ k ∧ k < x.1 + x.2.length then x.2.getD (k - x.1) 0 else b) (s.spadByte k) := by
  induction l generalizing s with
  | nil => rfl
  | cons x l ih =>
    rw [List.foldl_cons (b := s.spadByte k), ← spadByte_setRun]
    exact ih { s with spad := Bank.setRun 0 s.spad x.1 x.2 }

/-- No event leaves SYS.FLAGS and the core as they are. -/
theorem here_orFlags_zero (s : State) (e : Eng) : (s.orFlags e 0).here = s.here := by
  unfold State.orFlags
  rw [here_upd, if_pos rfl]

/-- A torn store writes the rest of its units (R145). -/
theorem restPerformed_tornStore {u : State} {e : Eng} {l : List (Nat × List Byte)} (hw : (u.en e).wait = some (.tornStore (spadUnits l) 0 none)) :
    goesTo (restPerformed e u) fun t => movesTo u t e ((u.en e).pc + 8) ∧ t.hbm = u.hbm ∧ t.here.regs = u.here.regs ∧ ∀ k, t.spadByte k =
      l.foldl (fun b x => if x.1 ≤ k ∧ k < x.1 + x.2.length then x.2.getD (k - x.1) 0 else b) (u.spadByte k) := by
  unfold restPerformed
  rw [hw]
  dsimp only
  rw [performTorn_spadUnits]
  have hbytes := spadByte_setRuns l u
  have hen (f : Eng) : ({ u with spad := l.foldl (fun m x => Bank.setRun 0 m x.1 x.2) u.spad } : State).en f = u.en f := rfl
  have hhere : ({ u with spad := l.foldl (fun m x => Bank.setRun 0 m x.1 x.2) u.spad } : State).here = u.here := rfl
  have hhbm : ({ u with spad := l.foldl (fun m x => Bank.setRun 0 m x.1 x.2) u.spad } : State).hbm = u.hbm := rfl
  generalize ({ u with spad := l.foldl (fun m x => Bank.setRun 0 m x.1 x.2) u.spad } : State) = w at hbytes hen hhere hhbm ⊢
  have hsame := here_orFlags_zero w e
  obtain ⟨t, ht, ⟨hrest, -, hmove⟩, -, hregs⟩ := finishes_done (s := w) (u := w.orFlags e 0) rfl (fun c hne => core_upd_other _ _ hne)
    (fun f => by unfold State.en; rw [hsame])
  refine ⟨t, ht, ?_, (rest_hbm hrest).trans hhbm, by rw [hregs, hsame, hhere], fun k => ?_⟩
  · unfold movesTo at hmove ⊢
    simpa only [hen] using hmove
  · rw [← hbytes]
    unfold State.spadByte
    rw [rest_spad hrest]

theorem exec_rest {c : Nat} (s : State) (e : Eng) (hc : c < 160) :
    exec (.accessPerformed (.rest c e)) s = restPerformed e { s with cur := ⟨c, 6, 0⟩ } := by
  dsimp only [exec, execAccessPerformed]
  rw [if_neg (by omega)]

/-! The statement -/

/-- Settles O54, clause by clause: the event log's frame for levels and resets, the frame of every store that reaches home for what buffers and
queues do, and the end of the torn word for the rest of an access. -/
theorem levelsAndOwnTime : Obligations.LevelsAndOwnTime := by
  intro s
  refine ⟨fun fw img version map failed hv hl hn => goesTo_reset_passes hv hl hn, fun fw img version sites h => goesTo_reset_fails h,
    goesTo_fullServiceEntry, fun hs => ⟨goesTo_clockStep hs, goesTo_halt hs⟩, ⟨rfl, rfl⟩, goesTo_hiddenRepair s,
    fun d n b hd hb ho hg => goesTo_drain hd hb ho hg, fun d line asid hd => goesTo_evict line asid hd, fun c n b hc hb hg => goesTo_combine hc hb hg,
    fun d page asid hd => ⟨goesTo_unmap page asid hd, ⟨_, rfl, rfl⟩⟩, fun asid line => ⟨_, rfl, rfl⟩,
    fun c hc => ⟨goesTo_hbm hc, fun n l hl => goesTo_queue hc hl, fun e => ⟨fun v bm val later ho hw => ?_, fun l hw => ?_⟩⟩⟩
  · rw [exec_rest s e hc]
    exact restPerformed_tornLoad ho hw
  · rw [exec_rest s e hc]
    exact restPerformed_tornStore hw

end Sys2Proof.Machine
end

section
/-! PROOFS. Reads and writes of system registers by the sequencer (R54, R56, R80, R93, R124, R125, R276, R283). -/

namespace Sys2Proof.Machine

/-! Contributions to SYS.FLAGS (R56) -/

theorem flagsBefore_sublist (k : Core) (tick : Nat) : (k.flagsBefore tick).Sublist k.flagRaces := by
  have h := (List.filter_sublist (l := k.flagRaces.zipIdx) (p := fun r => ordered (k.en .sq) 0 r.1 || Config.lane tick 7000 r.2)).map Prod.fst
  rwa [List.zipIdx_map_fst] at h

theorem mem_flagsBefore {k : Core} (tick : Nat) {r : Race} (h : r ∈ k.flagRaces) (ho : ordered (k.en .sq) 0 r = true) :
    r ∈ k.flagsBefore tick := by
  obtain ⟨i, hi, rfl⟩ := List.getElem_of_mem h
  refine List.mem_map.mpr ⟨(k.flagRaces[i], i), List.mem_filter.mpr ⟨?_, by simp [ho]⟩, rfl⟩
  simp [List.mem_zipIdx_iff_getElem?]

theorem flagsBefore_ordered {k : Core} (tick : Nat) (h : ∀ r ∈ k.flagRaces, ordered (k.en .sq) 0 r = true) :
    k.flagsBefore tick = k.flagRaces := by
  unfold Core.flagsBefore
  rw [List.filter_eq_self.mpr, List.zipIdx_map_fst]
  intro x hx
  rw [h x.1 (List.fst_mem_of_mem_zipIdx hx), Bool.true_or]

theorem readFlags_interlocked {k : Core} (tick : Nat) (ht : k.sys.timed = false) :
    k.readFlags tick = (k.flagBase ||| flagBits (k.flagsBefore tick),
      k.keepFlags (k.flagsBefore tick) (k.flagBase ||| flagBits (k.flagsBefore tick))) := by
  unfold Core.readFlags
  rw [if_neg (by rw [ht]; decide)]

/-- A record that a read of SYS.FLAGS keeps is of the same write of the same register as before. -/
theorem mem_races_keepFlags {k : Core} {gone : List Race} {base : Flags} {r : Race} (h : r ∈ (k.keepFlags gone base).races) :
    ∃ q ∈ k.races, q.dst = r.dst ∧ q.writer = r.writer ∧ q.at_ = r.at_ := by
  obtain ⟨q, hq, rfl⟩ := List.mem_map.mp h
  refine ⟨q, (List.mem_filter.mp hq).1, ?_⟩
  split <;> exact ⟨rfl, rfl, rfl⟩

/-- Where every contribution comes before it, a write of SYS.FLAGS leaves its value alone. -/
theorem writeFlags_ordered {k : Core} (tick : Nat) (v : Flags) (h : ∀ r ∈ k.flagRaces, ordered (k.en .sq) 0 r = true) :
    k.writeFlags tick v =
      { k with sys := { k.sys with flags := v }, races := k.races.filter fun r => !r.dst.same .flags } := by
  have hrest : (k.flagRaces.filter fun r => !k.flagRaces.contains r) = [] := by simp
  have hkept : (k.races.filter fun r => !k.flagRaces.contains r) = k.races.filter fun r => !r.dst.same .flags :=
    List.filter_congr fun r hr => by simp [Core.flagRaces, hr]
  have hmap : ((k.races.filter fun r => !r.dst.same .flags).map fun r => if r.dst.same .flags then { r with old := v.toNat } else r) =
      k.races.filter fun r => !r.dst.same .flags := by
    rw [List.map_congr_left (g := id), List.map_id]
    intro r hr
    have hd : r.dst.same .flags = false := by simpa using (List.mem_filter.mp hr).2
    rw [hd]
    rfl
  have hval : v ||| flagBits [] = v := BitVec.or_zero
  unfold Core.writeFlags Core.keepFlags
  dsimp only
  rw [flagsBefore_ordered tick h, hrest, hkept, hmap, hval]

/-! What a read finds -/

theorem readSys_congr {s t : State} (hr : t.rest = s.rest) (hs : t.here.sys = s.here.sys) (m : Nat) : t.readSys m = s.readSys m := by
  have hcur : t.cur = s.cur := rest_cur hr
  have hcoord : t.coord = s.coord := (congrArg (fun u : State => u.coord) hr :)
  have hmesh : t.mesh = s.mesh := (congrArg (fun u : State => u.mesh) hr :)
  unfold State.readSys
  rw [hs, hcur, hcoord, hmesh]

theorem sysReads_congr {s t : State} (hr : t.rest = s.rest) (hs : t.here.sys = s.here.sys) (hf : t.here.flagRaces = s.here.flagRaces) (m : Nat) :
    Spec.sysReads t m = Spec.sysReads s m := by
  unfold Spec.sysReads Core.flagBase
  rw [readSys_congr hr hs, hf, hs]

/-- With no contribution recorded, a read finds the register. -/
theorem sysReads_noRaces {s : State} (h : s.here.flagRaces = []) (m : Nat) : Spec.sysReads s m = s.readSys m := by
  unfold Spec.sysReads
  split
  · next hm =>
    subst hm
    unfold Core.flagBase
    rw [h]
    exact congrArg some (congrArg (BitVec.setWidth 64) BitVec.or_zero)
  · rfl

theorem sysReads_other (s : State) {m : Nat} (h : m ≠ 1) : Spec.sysReads s m = s.readSys m := if_neg h

/-! What a register's own rule makes of a value -/

theorem toNat_and_ones (v : Word) {n : Nat} (hn : n ≤ 64) : (v &&& BitVec.ofNat 64 (2 ^ n - 1)).toNat = v.toNat % 2 ^ n := by
  have hlt : 2 ^ n - 1 < 2 ^ 64 := by have := Nat.pow_le_pow_right (n := 2) (by decide) hn; omega
  rw [BitVec.toNat_and, BitVec.toNat_ofNat, Nat.mod_eq_of_lt hlt, Nat.and_two_pow_sub_one_eq_mod]

theorem setWidth_ones (v : Word) {n : Nat} (hn : n ≤ 64) : (v.setWidth n).setWidth 64 = v &&& BitVec.ofNat 64 (2 ^ n - 1) := by
  refine BitVec.eq_of_toNat_eq ?_
  have hlt : v.toNat % 2 ^ n < 2 ^ 64 := (Nat.mod_lt _ (by positivity)).trans_le (Nat.pow_le_pow_right (by decide) hn)
  rw [toNat_and_ones v hn, BitVec.toNat_setWidth, BitVec.toNat_setWidth, Nat.mod_eq_of_lt hlt]

/-- The fields of SYS.MODE (R80). -/
theorem toNat_mode (y : Sys) : y.mode.toNat = y.toklost.toNat * 256 + y.det.toNat * 2 + y.timed.toNat := by
  have ht := y.toklost.isLt
  unfold Sys.mode
  rw [BitVec.toNat_ofNat]
  cases y.det <;> cases y.timed <;> simp <;> omega

/-- Bits 1 and 0 of a word are those of SYS.MODE where it has the mode of the task (R80). -/
theorem modeBits_iff (y : Sys) (v : Word) : v.toNat % 4 = y.mode.toNat % 4 ↔ bit v 0 = y.timed ∧ bit v 1 = y.det := by
  rw [toNat_mode]
  simp only [bit, Nat.testBit_eq_decide_div_mod_eq]
  cases y.det <;> cases y.timed <;> simp <;> omega

/-- SYS.MODE with another TOKLOST (R80). -/
theorem mode_toklost (y : Sys) (v : Word) :
    ({ y with toklost := BitVec.ofNat 8 (slice v 15 8) } : Sys).mode = (v &&& 0xFF00) ||| (y.mode &&& 3) := by
  have hlow : (y.mode &&& 3).toNat = y.det.toNat * 2 + y.timed.toNat := by
    have hd := y.det.toNat_lt
    have ht := y.timed.toNat_lt
    rw [show (3 : Word) = BitVec.ofNat 64 (2 ^ 2 - 1) from rfl, toNat_and_ones _ (by decide), toNat_mode]
    omega
  have hhigh : (v &&& 0xFF00).toNat = slice v 15 8 <<< 8 := by
    refine Nat.eq_of_testBit_eq fun i => ?_
    rw [BitVec.toNat_and, show (0xFF00 : Word).toNat = (2 ^ 8 - 1) <<< 8 from rfl, slice]
    simp only [Nat.testBit_and, Nat.testBit_shiftLeft, Nat.testBit_two_pow_sub_one, Nat.testBit_mod_two_pow, Nat.testBit_shiftRight]
    by_cases h : 8 ≤ i
    · simp [h, Bool.and_comm]
    · simp [h]
  have hfield : slice v 15 8 < 2 ^ 8 := Nat.mod_lt _ (by decide)
  have hd := y.det.toNat_lt
  have ht := y.timed.toNat_lt
  refine BitVec.eq_of_toNat_eq ?_
  rw [toNat_mode]
  dsimp only
  rw [BitVec.toNat_or, hhigh, hlow, ← Nat.shiftLeft_add_eq_or_of_lt (by omega), BitVec.toNat_ofNat, Nat.mod_eq_of_lt hfield,
    Nat.shiftLeft_eq]
  omega

/-- A state whose core under the cursor has other system registers. -/
def State.withSys (s : State) (y : Sys) : State := s.upd fun k => { k with sys := y }

@[simp] theorem here_withSys (s : State) (y : Sys) : (s.withSys y).here = { s.here with sys := y } := here_upd _ _

/-- A write of register n replaces its field and no other (R54, R80, R93, R276, R283, R284). -/
inductive Sys.Wrote (y : Sys) : Nat → Sys → Prop
  | mode (x : BitVec 8) : y.Wrote 0x000 { y with toklost := x }
  | flags (x : Flags) : y.Wrote 0x001 { y with flags := x }
  | slip (x : BitVec 13) : y.Wrote 0x002 { y with slip := x }
  | watchdog (limit count : BitVec 32) : y.Wrote 0x003 { y with wdLimit := limit, wdCount := count }
  | trapvec (x : Word) : y.Wrote 0x010 { y with trapvec := x }
  | cause (x : Word) : y.Wrote 0x011 { y with cause := x }
  | trapaddr (x : Word) : y.Wrote 0x012 { y with trapaddr := x }
  | trapsrc (x : Word) : y.Wrote 0x013 { y with trapsrc := x }

theorem Sys.Wrote.same_timed {y z : Sys} {n : Nat} (h : y.Wrote n z) : z.timed = y.timed := by
  cases h <;> rfl

theorem Sys.Wrote.same_flags {y z : Sys} {n : Nat} (h : y.Wrote n z) (hn : n ≠ 1) : z.flags = y.flags := by
  cases h
  case flags => exact absurd rfl hn
  all_goals rfl

theorem Sys.Wrote.readSys_other {s : State} {y : Sys} {n m : Nat} (h : s.here.sys.Wrote n y) (hm : m ≠ n) :
    (s.withSys y).readSys m = s.readSys m := by
  unfold State.readSys
  rw [here_withSys]
  cases h <;> split
  any_goals exact absurd rfl hm
  all_goals rfl

/-- A write that the register's rule allows replaces its field, and the register then reads as the rule says (R125). -/
theorem write_allowed {s : State} {n : Nat} {v old new : Word} (hold : n ≠ 1 → s.readSys n = some old) (hnew : Spec.sysAfter n v old = some new) :
    ∃ y, s.here.sys.write n v = .ok y ∧ s.here.sys.Wrote n y ∧ (s.withSys y).readSys n = some new := by
  unfold State.readSys
  simp only [here_withSys]
  unfold Spec.sysAfter at hnew
  split at hnew
  case h_1 =>
    split at hnew
    · next hbits =>
      cases hold (by decide)
      cases hnew
      exact ⟨_, if_pos ((modeBits_iff _ v).mp hbits), .mode _, congrArg some (mode_toklost _ v)⟩
    · cases hnew
  case h_2 =>
    cases hnew
    exact ⟨_, rfl, .flags _, congrArg some (setWidth_ones v (n := 7) (by decide))⟩
  case h_3 =>
    split at hnew
    · next hrange =>
      cases hnew
      have hslip : BitVec.ofNat 13 (slice v 12 0) = v.setWidth 13 := BitVec.eq_of_toNat_eq (by simp [slice])
      exact ⟨_, if_pos hrange, .slip _, congrArg some ((congrArg _ hslip).trans (setWidth_ones v (n := 13) (by decide)))⟩
    · cases hnew
  case h_4 =>
    split at hnew
    · cases hnew
    · next hlimit =>
      cases hnew
      have hread : BitVec.ofNat 64 ((0 : BitVec 32).toNat * 2 ^ 32 + (BitVec.ofNat 32 (slice v 31 0)).toNat) = v &&& BitVec.ofNat 64 (2 ^ 32 - 1) :=
        BitVec.eq_of_toNat_eq (by rw [toNat_and_ones v (by decide)]; simp [slice]; omega)
      exact ⟨_, if_neg hlimit, .watchdog _ _, congrArg some hread⟩
  case h_5 =>
    cases hnew
    exact ⟨_, rfl, .trapvec _, rfl⟩
  case h_6 =>
    cases hold (by decide)
    cases hnew
    exact ⟨_, rfl, .cause _, rfl⟩
  case h_7 =>
    cases hnew
    exact ⟨_, rfl, .trapaddr _, rfl⟩
  case h_8 =>
    cases hnew
    exact ⟨_, rfl, .trapsrc _, rfl⟩
  case h_9 => cases hnew

/-- What system registers read in a state that has those of an allowed write. -/
theorem readSys_written {s t : State} {n : Nat} {y : Sys} {new : Word} (hw : s.here.sys.Wrote n y) (hown : (s.withSys y).readSys n = some new)
    (hr : t.rest = s.rest) (hs : t.here.sys = y) (m : Nat) : t.readSys m = if m = n then some new else s.readSys m := by
  rw [readSys_congr (s := s.withSys y) hr (by rw [here_withSys, hs])]
  split
  · next hm => rw [hm, hown]
  · next hm => exact hw.readSys_other hm

/-- A write of a system register that its rule allows (R125), of SYS.FLAGS after every contribution (R56). -/
theorem putSys_spec {s : State} {n : Nat} {v old new : Word} (ho : n = 1 → ∀ r ∈ s.here.flagRaces, ordered (s.en .sq) 0 r = true)
    (hold : n ≠ 1 → s.readSys n = some old) (hnew : Spec.sysAfter n v old = some new) :
    ∃ u, s.putSys n v = .ok u ∧ u.rest = s.rest ∧ (∀ c, c ≠ s.cur.core → u.core c = s.core c) ∧ u.here.regs = s.here.regs ∧
      u.here.eng = s.here.eng ∧ u.here.sys.timed = s.here.sys.timed ∧ (∀ r ∈ u.here.races, r ∈ s.here.races) ∧
      (∀ m, u.readSys m = if m = n then some new else s.readSys m) ∧
      ∀ m, Spec.sysReads u m = if m = n then some new else Spec.sysReads s m := by
  obtain ⟨y, hy, hwrote, hown⟩ := write_allowed hold hnew
  unfold State.putSys
  rw [hy]
  dsimp only
  by_cases hn : n = 1
  · have hw := writeFlags_ordered (k := s.here) s.free (v.setWidth 7) (ho hn)
    have hsys : (s.upd fun k => k.writeFlags s.free (v.setWidth 7)).here.sys = y := by
      subst hn
      rw [here_upd, hw, ← Except.ok.inj hy]
    have hraces : (s.upd fun k => k.writeFlags s.free (v.setWidth 7)).here.flagRaces = [] := by
      rw [here_upd, hw]
      simp [Core.flagRaces, List.filter_filter]
    have hread := readSys_written (t := s.upd fun k => k.writeFlags s.free (v.setWidth 7)) hwrote hown rfl hsys
    rw [if_pos hn]
    refine ⟨_, rfl, rfl, fun c hc => core_upd_other _ _ hc, by rw [here_upd, hw], by rw [here_upd, hw],
      by rw [hsys, hwrote.same_timed], ?_, hread, fun m => ?_⟩
    · rw [here_upd, hw]
      exact fun r hr => (List.mem_filter.mp hr).1
    · rw [sysReads_noRaces hraces, hread]
      split
      · rfl
      · next hm => rw [sysReads_other s (hn ▸ hm)]
  · have hsys : (s.setSys y).here.sys = y := by unfold State.setSys; rw [here_upd]
    have hraces : (s.setSys y).here.races = s.here.races := by unfold State.setSys; rw [here_upd]
    have hread := readSys_written (t := s.setSys y) hwrote hown rfl hsys
    rw [if_neg hn]
    refine ⟨_, rfl, rfl, fun c hc => core_upd_other _ _ hc, by unfold State.setSys; rw [here_upd], by unfold State.setSys; rw [here_upd],
      by rw [hsys, hwrote.same_timed], by rw [hraces]; exact fun _ h => h, hread, fun m => ?_⟩
    by_cases hm : m = 1
    · subst hm
      unfold Spec.sysReads Core.flagBase Core.flagRaces
      rw [hraces, hsys, hwrote.same_flags hn, if_neg (Ne.symm hn), if_pos rfl, if_pos rfl]
    · rw [sysReads_other _ hm, sysReads_other s hm, hread]

/-! Writes of scalar registers beside recorded contributions -/

/-- What a write of a scalar register leaves depends on the recorded writes of that register alone, and it records no contribution to
SYS.FLAGS. -/
theorem writeReg_races {k u : Core} (hu : { u with races := k.races } = k) {n : Nat} (ht : k.sys.timed = false)
    (hl : (u.races.filter fun r => r.dst.same (.s n)) = k.races.filter fun r => r.dst.same (.s n)) (hn : n ≠ 7000)
    (tick : Nat) (e : Eng) (bm x : Nat) :
    ∃ rs, k.writeReg tick e (.s n) bm x = { u.writeReg tick e (.s n) bm x with races := rs } ∧
      (rs.filter fun r => r.dst.same .flags) = k.flagRaces := by
  have htimed : u.sys.timed = false := by rw [← ht, ← hu]
  have hreg : u.regNat (.s n) = k.regNat (.s n) := by rw [← hu]; rfl
  have hen : u.en e = k.en e := by rw [← hu]; rfl
  have hset (y : Nat) (l : List Race) : { u.setReg (.s n) y with races := l } = { k.setReg (.s n) y with races := l } := by
    rw [← hu]
    unfold Core.setReg
    dsimp only
    split <;> rfl
  have hother : Dest.same (.s n) .flags = false := decide_eq_false hn
  unfold Core.writeReg Core.writeRace
  dsimp only
  rw [ht, htimed, hl, hreg, hen, if_neg Bool.false_ne_true, if_neg Bool.false_ne_true]
  split
  · exact ⟨k.races, hu.symm, rfl⟩
  · refine ⟨_, (hset _ _).symm, ?_⟩
    exact List.filter_cons_of_neg (by simp [hother])

@[simp] theorem rest_wrS (s : State) (e : Eng) (sd : SReg) (x : Word) : (s.wrS e sd x).rest = s.rest := by
  unfold State.wrS
  split <;> rfl

theorem core_wrS_other (s : State) (e : Eng) (sd : SReg) (x : Word) {c : Nat} (hc : c ≠ s.cur.core) : (s.wrS e sd x).core c = s.core c := by
  unfold State.wrS
  split
  · rfl
  · exact core_upd_other _ _ hc

/-- What a write of a scalar register changes, seen from an earlier state with the same registers. -/
theorem writesS_of_same {s u t : State} {sd : SReg} {x : Word} (h1 : u.here.still = s.here.still) (h2 : u.here.regs = s.here.regs)
    (h : writesS u t sd x) : writesS s t sd x := by
  obtain ⟨hstill, hregs, hval⟩ := h
  exact ⟨hstill.trans h1, by rw [hregs, h2], fun r => by rw [hval, sReg_congr h2]⟩

/-- As `wrS_inOrder`, beside recorded writes of other registers that nothing orders. -/
theorem wrS_beside {s : State} {e : Eng} {sd : SReg} (ht : s.here.sys.timed = false)
    (ho : ∀ r ∈ s.here.races, r.dst.same (.s sd.toNat) = true → ordered (s.en e) e.tag r = true) (x : Word) :
    (∀ f, (s.wrS e sd x).en f = s.en f) ∧ writesS s (s.wrS e sd x) sd x ∧ (s.wrS e sd x).here.flagRaces = s.here.flagRaces := by
  obtain ⟨u, hu⟩ : ∃ u, u = s.upd fun k => { k with races := k.races.filter fun r => r.dst.same (.s sd.toNat) } := ⟨_, rfl⟩
  have huhere : u.here = { s.here with races := s.here.races.filter fun r => r.dst.same (.s sd.toNat) } := by rw [hu, here_upd]
  have hin : inOrder u e := by
    unfold inOrder
    rw [huhere]
    exact ⟨ht, fun r hr => ho r (List.mem_filter.mp hr).1 (List.mem_filter.mp hr).2⟩
  have hwrite : ∃ rs, (s.wrS e sd x).here = { (u.wrS e sd x).here with races := rs } ∧
      (rs.filter fun r => r.dst.same .flags) = s.here.flagRaces := by
    unfold State.wrS State.wr
    split
    · exact ⟨s.here.races, by rw [huhere], rfl⟩
    · have hfree : u.free = s.free := by rw [hu]; rfl
      rw [here_upd, here_upd, hfree]
      refine writeReg_races (by rw [huhere]) ht ?_ (by omega) s.free e (ones 64) x.toNat
      rw [huhere, List.filter_filter]
      simp
  obtain ⟨-, -, huen, hustill, huregs, hureg⟩ := wrS_inOrder hin sd x
  obtain ⟨rs, hhere, hflags⟩ := hwrite
  refine ⟨fun f => ?_, ⟨?_, ?_, fun r => ?_⟩, ?_⟩
  · have h := huen f
    unfold State.en at h ⊢
    rw [hhere]
    exact h.trans (by rw [huhere]; rfl)
  · rw [hhere]
    exact hustill.trans (by rw [huhere]; rfl)
  · rw [hhere]
    exact huregs.trans (by rw [huhere])
  · have hs : (s.wrS e sd x).sReg r = (u.wrS e sd x).sReg r := sReg_congr (by rw [hhere]) r
    rw [hs, hureg, sReg_congr (s := s) (by rw [huhere])]
  · unfold Core.flagRaces
    rw [hhere]
    exact hflags

/-! The words -/

theorem races_done {s t : State} {e : Eng} (h : s.done e = .next t) : t.here.races = s.here.races := by
  cases h
  simp

/-- A word that writes a scalar register, after a state u in which no engine has moved, finishes with its value there. -/
theorem finishes_wrS {s u : State} (hr : u.rest = s.rest) (hc : ∀ c, c ≠ s.cur.core → u.core c = s.core c) (he : ∀ f, u.en f = s.en f)
    (ht : u.here.sys.timed = false) {sd : SReg}
    (ho : ∀ r ∈ u.here.races, r.dst.same (.s sd.toNat) = true → ordered (u.en .sq) 0 r = true) (x : Word) :
    goesTo ((u.wrS .sq sd x).done .sq) fun t => finishes s t .sq ((s.en .sq).pc + 8) ∧ writesS u t sd x ∧
      t.here.flagRaces = u.here.flagRaces := by
  obtain ⟨hen, hwrites, hflags⟩ := wrS_beside (e := .sq) ht ho x
  have hcur : u.cur = s.cur := rest_cur hr
  obtain ⟨t, hdone, hfin, hstill, hregs⟩ := finishes_done (s := s) (u := u.wrS .sq sd x) (e := .sq) ((rest_wrS u .sq sd x).trans hr)
    (fun c hne => (core_wrS_other u .sq sd x (by rw [hcur]; exact hne)).trans (hc c hne)) fun f => (hen f).trans (he f)
  refine ⟨t, hdone, hfin, writesS_congr hstill hregs hwrites, ?_⟩
  rw [← hflags]
  unfold Core.flagRaces
  rw [races_done hdone]

/-- A read of SYS.FLAGS finds the contributions that the device has put before it (R56). -/
theorem goesTo_rsys_flags {s : State} {n : BitVec 12} (hn : n.toNat = 1) (ht : s.here.sys.timed = false)
    (ho : ∀ r ∈ s.here.races, r.dst.same .flags = false → ordered (s.en .sq) 0 r = true) (sd : SReg) :
    goesTo (exec (.rsys sd n) s) fun t => finishes s t .sq ((s.en .sq).pc + 8) ∧
      writesS s t sd ((s.here.flagBase ||| flagBits (s.here.flagsBefore s.free)).setWidth 64) := by
  have hread := readFlags_interlocked s.free ht
  generalize s.here.flagBase ||| flagBits (s.here.flagsBefore s.free) = v at hread ⊢
  have hexec : exec (.rsys sd n) s = ((s.upd fun k => (k.readFlags s.free).2).wrS .sq sd (v.setWidth 64)).done .sq := by
    dsimp only [exec, execRsys, State.fetchSys]
    rw [if_pos hn, hread]
  obtain ⟨u, hu⟩ : ∃ u, u = s.upd fun k => (k.readFlags s.free).2 := ⟨_, rfl⟩
  have hhere : u.here = s.here.keepFlags (s.here.flagsBefore s.free) v := by rw [hu, here_upd, hread]
  have hen (f : Eng) : u.en f = s.en f := by unfold State.en; rw [hhere]; rfl
  have hsq (r : Race) (hr : r ∈ u.here.races) (hd : r.dst.same (.s sd.toNat) = true) : ordered (u.en .sq) 0 r = true := by
    rw [hhere] at hr
    obtain ⟨q, hq, hdst, hwriter, hat⟩ := mem_races_keepFlags hr
    have hcode : q.dst.code = sd.toNat := by rw [hdst]; exact of_decide_eq_true hd
    have hnot : q.dst.same .flags = false := decide_eq_false (by rw [hcode]; simp only [Dest.code]; omega)
    have hord := ho q hq hnot
    unfold ordered at hord ⊢
    rw [hen, ← hwriter, ← hat]
    exact hord
  rw [hexec, ← hu]
  obtain ⟨t, hdone, hfin, hwrites, -⟩ := finishes_wrS (s := s) (u := u) (by rw [hu]; rfl) (fun c hc => by rw [hu, core_upd_other _ _ hc]) hen
    (by rw [hhere]; exact ht) hsq (v.setWidth 64)
  exact ⟨t, hdone, hfin, writesS_of_same (by rw [hhere]; rfl) (by rw [hhere]; rfl) hwrites⟩

theorem flagRaces_inOrder {s : State} (h : inOrder s .sq) : ∀ r ∈ s.here.flagRaces, ordered (s.en .sq) 0 r = true := by
  obtain ⟨-, hord⟩ := h
  exact fun r hr => hord r (List.mem_filter.mp hr).1

section
variable {s : State} {n : BitVec 12} (sd sa : SReg) {old new : Word} (h : inOrder s .sq) (hold : Spec.sysReads s n.toNat = some old)
include h hold

/-- In order, a read of a system register finds its one value. -/
theorem fetchSys_inOrder : ∃ u, s.fetchSys n.toNat = some (old, u) := by
  unfold State.fetchSys
  split
  · next hn =>
    unfold Spec.sysReads at hold
    rw [if_pos hn] at hold
    cases hold
    rw [readFlags_interlocked _ h.1, flagsBefore_ordered _ (flagRaces_inOrder h)]
    exact ⟨_, rfl⟩
  · next hn =>
    rw [sysReads_other s hn] at hold
    exact ⟨s, by rw [hold]; rfl⟩

theorem goesTo_rsys : goesTo (exec (.rsys sd n) s) fun t => finishes s t .sq ((s.en .sq).pc + 8) ∧ writesS s t sd old := by
  by_cases hn : n.toNat = 1
  · have hread := goesTo_rsys_flags hn h.1 (fun r hr _ => h.2 r hr) sd
    rw [flagsBefore_ordered _ (flagRaces_inOrder h)] at hread
    unfold Spec.sysReads at hold
    rw [if_pos hn] at hold
    cases hold
    exact hread
  · rw [sysReads_other s hn] at hold
    have hexec : exec (.rsys sd n) s = scalar sd old s := by
      dsimp only [exec, execRsys, State.fetchSys]
      rw [if_neg hn, hold]
      rfl
    rw [hexec]
    exact scalar_spec h sd old

variable (hnew : Spec.sysAfter n.toNat (s.sReg sa) old = some new)
include hnew

theorem goesTo_wsys : goesTo (exec (.wsys n sa) s) fun t => finishes s t .sq ((s.en .sq).pc + 8) ∧ t.here.regs = s.here.regs ∧
    ∀ m, Spec.sysReads t m = if m = n.toNat then some new else Spec.sysReads s m := by
  obtain ⟨u, hput, hrest, hcore, hregs, heng, -, -, -, hreads⟩ := putSys_spec (fun _ => flagRaces_inOrder h)
    (fun hn => (sysReads_other s hn).symm.trans hold) hnew
  obtain ⟨t, hdone, hfin, hstill, hregs'⟩ := finishes_done (e := .sq) hrest hcore fun f => by unfold State.en Core.en; rw [heng]
  refine ⟨t, ?_, hfin, hregs'.trans hregs, fun m => ?_⟩
  · dsimp only [exec, execWsys]
    rw [rdS_inOrder h, hput]
    exact hdone
  · rw [← hreads]
    obtain ⟨hsys, -, -, -⟩ := of_still hstill
    obtain ⟨hsame, -, -⟩ := hfin
    exact sysReads_congr (hsame.trans hrest.symm) hsys (by unfold Core.flagRaces; rw [races_done hdone]) m

theorem goesTo_xsys : goesTo (exec (.xsys sd n sa) s) fun t => finishes s t .sq ((s.en .sq).pc + 8) ∧
    (∀ r, t.sReg r = if r = sd ∧ sd ≠ 0 then old else s.sReg r) ∧
    ∀ m, Spec.sysReads t m = if m = n.toNat then some new else Spec.sysReads s m := by
  obtain ⟨w, hfetch⟩ := fetchSys_inOrder h hold
  obtain ⟨u, hput, hrest, hcore, hregs, heng, htimed, hraces, -, hreads⟩ := putSys_spec (fun _ => flagRaces_inOrder h)
    (fun hn => (sysReads_other s hn).symm.trans hold) hnew
  have hen (f : Eng) : u.en f = s.en f := by unfold State.en Core.en; rw [heng]
  obtain ⟨t, hdone, hfin, ⟨hstill, -, hreg⟩, hflags⟩ := finishes_wrS (sd := sd) hrest hcore hen (htimed.trans h.1)
    (fun r hr _ => by rw [hen]; exact h.2 r (hraces r hr)) old
  refine ⟨t, ?_, hfin, fun r => by rw [hreg, sReg_congr hregs], fun m => ?_⟩
  · dsimp only [exec, execXsys]
    rw [hfetch, rdS_inOrder h, hput]
    exact hdone
  · rw [← hreads]
    obtain ⟨hsys, -, -, -⟩ := of_still hstill
    obtain ⟨hsame, -, -⟩ := hfin
    exact sysReads_congr (hsame.trans hrest.symm) hsys hflags m

end

/-- The write inside a wsys or xsys, by the word of its register's number. -/
def sysWriteOf (n : Nat) (v : Word) : Instr :=
  if n = 0 then .writeSysMode v else if n = 2 then .writeSysSlip v else if n = 3 then .writeSysWdog v
  else if n = 0x11 then .writeSysTrapcause v else .writeSysRegister (BitVec.ofNat 12 n) v

theorem exec_sysWriteOf (s : State) {n : Nat} (hn : n < 2 ^ 12) (v : Word) : exec (sysWriteOf n v) s = sysWrite n v s := by
  unfold sysWriteOf
  split_ifs with h0 h2 h3 h11
  · rw [h0]; rfl
  · rw [h2]; rfl
  · rw [h3]; rfl
  · rw [h11]; rfl
  · dsimp only [exec, execWriteSysRegister]
    rw [BitVec.toNat_ofNat, Nat.mod_eq_of_lt hn, if_neg (by simp [h0, h2, h3, h11])]

theorem sysAfter_lt {n : Nat} {v old new : Word} (h : Spec.sysAfter n v old = some new) : n < 2 ^ 12 := by
  unfold Spec.sysAfter at h
  split at h
  case h_9 => cases h
  all_goals decide

/-- The write inside a wsys or xsys that its register's rule allows. -/
theorem goesTo_sysWrite {s : State} {n : Nat} {v old new : Word} (hruns : s.here.runs = true) (hold : s.readSys n = some old)
    (hnew : Spec.sysAfter n v old = some new) (ho : n = 1 → ∀ r ∈ s.here.flagRaces, ordered (s.en .sq) 0 r = true) :
    goesTo (exec (sysWriteOf n v) s) fun t => t.rest = s.rest ∧ (∀ c, c ≠ s.cur.core → t.core c = s.core c) ∧ t.here.regs = s.here.regs ∧
      t.here.eng = s.here.eng ∧ ∀ m, t.readSys m = if m = n then some new else s.readSys m := by
  obtain ⟨u, hput, hrest, hcore, hregs, heng, -, -, hreads, -⟩ := putSys_spec ho (fun _ => hold) hnew
  refine ⟨u, ?_, hrest, hcore, hregs, heng, hreads⟩
  rw [exec_sysWriteOf s (sysAfter_lt hnew)]
  unfold sysWrite
  rw [if_neg (by rw [hruns]; decide), hput]
  rfl

/-- Settles O8: each access is a read or a write at one point, before or after each contribution to SYS.FLAGS, and a write changes the field
of its own register alone. -/
theorem systemRegisterAccess : Obligations.SystemRegisterAccess :=
  ⟨fun _ _ sd sa _ h hold => ⟨goesTo_rsys sd h hold, fun _ hnew => ⟨goesTo_wsys sa h hold hnew, goesTo_xsys sd sa h hold hnew⟩⟩,
    fun s sd ht ho =>
      have ⟨t, hexec, hfin, hwrites⟩ := goesTo_rsys_flags (n := 1) rfl ht ho sd
      ⟨t, hexec, hfin, s.here.flagsBefore s.free, flagsBefore_sublist _ _, fun _ hr hr' => mem_flagsBefore _ hr hr', hwrites⟩,
    fun _ _ _ _ _ hruns hold hnew ho => goesTo_sysWrite hruns hold hnew ho⟩

end Sys2Proof.Machine
end

section
/-! PROOFS. Elements of packed values, the events of many elements, and writes of whole vector registers in order (R53, R55, R162). -/

namespace Sys2Proof.Machine

/-! Elements of packed values -/

theorem testBit_elemOf (w x k j : Nat) : (elemOf w x k).testBit j = (decide (j < w) && x.testBit (w * k + j)) := by
  unfold elemOf
  rw [Nat.testBit_mod_two_pow, Nat.testBit_shiftRight]

theorem elemOf_lt (w x k : Nat) : elemOf w x k < 2 ^ w := Nat.mod_lt _ (Nat.two_pow_pos w)

/-- An element of q w-bit elements is itself q elements. -/
theorem elemOf_elemOf {w q j : Nat} (x i : Nat) (hj : j < q) : elemOf w (elemOf (w * q) x i) j = elemOf w x (q * i + j) := by
  refine Nat.eq_of_testBit_eq fun b => ?_
  rw [testBit_elemOf, testBit_elemOf, testBit_elemOf]
  by_cases hb : b < w
  · have hin : w * j + b < w * q := by
      calc w * j + b < w * (j + 1) := by rw [Nat.mul_succ]; omega
        _ ≤ w * q := Nat.mul_le_mul_left w hj
    rw [decide_eq_true hin, Bool.true_and, ← Nat.add_assoc, Nat.mul_assoc, ← Nat.mul_add]
  · simp [hb]

/-- Bits past an element do not matter to it. -/
theorem elemOf_mod {w n k : Nat} (x : Nat) (h : w * (k + 1) ≤ n) : elemOf w (x % 2 ^ n) k = elemOf w x k := by
  refine Nat.eq_of_testBit_eq fun b => ?_
  rw [testBit_elemOf, testBit_elemOf, Nat.testBit_mod_two_pow]
  by_cases hb : b < w
  · have hin : w * k + b < n := by rw [Nat.mul_succ] at h; omega
    rw [decide_eq_true hin, Bool.true_and]
  · simp [hb]

theorem elemOf_zero (w x : Nat) : elemOf w x 0 = x % 2 ^ w := by
  rw [elemOf, Nat.mul_zero, Nat.shiftRight_zero]

theorem elemOf_ofNat {w n k : Nat} (x : Nat) (h : w * (k + 1) ≤ n) : elemOf w (BitVec.ofNat n x).toNat k = elemOf w x k := by
  rw [BitVec.toNat_ofNat, elemOf_mod x h]

theorem toNat_lt_two_pow {n m : Nat} (x : BitVec n) (h : n = m) : x.toNat < 2 ^ m := by
  subst h
  exact x.isLt

theorem elemOf_toNat {n : Nat} (x : BitVec n) : elemOf n x.toNat 0 = x.toNat := by
  rw [elemOf_zero, BitVec.toNat_mod_cancel]

theorem elemOf_shiftRight (w x n k : Nat) : elemOf w (x >>> (w * n)) k = elemOf w x (n + k) := by
  unfold elemOf
  rw [← Nat.shiftRight_add, ← Nat.mul_add]

/-- Elements of a value of q elements with another above it. -/
theorem elemOf_add_shift {w q a : Nat} (ha : a < 2 ^ (w * q)) (b k : Nat) :
    elemOf w (a + b <<< (w * q)) k = if k < q then elemOf w a k else elemOf w b (k - q) := by
  rw [Nat.add_comm, Nat.shiftLeft_add_eq_or_of_lt ha]
  refine Nat.eq_of_testBit_eq fun i => ?_
  rw [testBit_elemOf, Nat.testBit_or, Nat.testBit_shiftLeft]
  by_cases hi : i < w
  · split
    · next hk =>
      have hbelow : ¬ w * q ≤ w * k + i := by
        have := Nat.mul_le_mul_left w hk
        rw [Nat.mul_succ] at this
        omega
      simp [testBit_elemOf, hbelow]
    · next hk =>
      have hle : w * q ≤ w * k := Nat.mul_le_mul_left w (by omega)
      have hge : w * k + i ≥ w * q := by omega
      have hzero : a.testBit (w * k + i) = false := Nat.testBit_lt_two_pow (ha.trans_le (Nat.pow_le_pow_right (by decide) hge))
      rw [testBit_elemOf, hzero, decide_eq_true hi, decide_eq_true hge, Nat.mul_sub, Bool.true_and, Bool.true_and, Bool.or_false,
        Bool.true_and, show w * k + i - w * q = w * k - w * q + i by omega]
  · split <;> simp [testBit_elemOf, hi]

theorem elemOf_packElems (w : Nat) (l : List Nat) (k : Nat) : elemOf w (packElems w l) k = l.getD k 0 % 2 ^ w := by
  induction l generalizing k with
  | nil => simp [packElems, elemOf]
  | cons x l ih =>
    have h := elemOf_add_shift (w := w) (q := 1) (a := x % 2 ^ w) (by rw [Nat.mul_one]; exact Nat.mod_lt _ (Nat.two_pow_pos w)) (packElems w l) k
    rw [Nat.mul_one] at h
    rw [packElems, h]
    cases k with
    | zero => simp [elemOf]
    | succ k => simp [ih]

theorem getD_map_range {α : Type} (f : Nat → α) (d : α) {i n : Nat} (hi : i < n) : ((List.range n).map f).getD i d = f i := by simp [hi]

theorem add_shift_lt {w q a b : Nat} (ha : a < 2 ^ (w * q)) (hb : b < 2 ^ w) : a + b <<< (w * q) < 2 ^ (w * (q + 1)) := by
  rw [Nat.shiftLeft_eq]
  calc a + b * 2 ^ (w * q) < (b + 1) * 2 ^ (w * q) := by rw [Nat.add_one_mul]; omega
    _ ≤ 2 ^ w * 2 ^ (w * q) := Nat.mul_le_mul_right _ hb
    _ = 2 ^ (w * (q + 1)) := by rw [← Nat.pow_add, Nat.mul_succ, Nat.add_comm]

/-! Events of lists -/

theorem getLsbD_flagsAll (l : List Flags) (i : Nat) : (Flags.all l).getLsbD i = l.any fun f => f.getLsbD i := by
  have h (a : Flags) : (l.foldl (· ||| ·) a).getLsbD i = (a.getLsbD i || l.any fun f => f.getLsbD i) := by
    induction l generalizing a with
    | nil => simp
    | cons f l ih => simp [ih, Bool.or_assoc]
  exact (h 0).trans (by simp)

theorem flagsAll_zero (n : Nat) : Flags.all ((List.range n).map fun _ => (0 : Flags)) = 0 :=
  BitVec.eq_of_getLsbD_eq fun i _ => by rw [getLsbD_flagsAll]; simp

theorem flagsAll_or (f g : Nat → Flags) (n : Nat) :
    Flags.all ((List.range n).map f ++ (List.range n).map g) = Flags.all ((List.range n).map fun k => f k ||| g k) := by
  refine BitVec.eq_of_getLsbD_eq fun i _ => Bool.eq_iff_iff.mpr ?_
  simp [getLsbD_flagsAll, and_or_left, exists_or]

theorem flagsAll_one (f : Nat → Flags) : Flags.all ((List.range 1).map f) = f 0 := BitVec.zero_or

/-- The events of n groups of q elements, of which each has those of its group. -/
theorem flagsAll_div (f : Nat → Flags) {q : Nat} (hq : 0 < q) (n m : Nat) (hm : q * n ≤ m) :
    Flags.all ((List.range m).map fun k => if k < q * n then f (k / q) else 0) = Flags.all ((List.range n).map f) := by
  refine BitVec.eq_of_getLsbD_eq fun i _ => Bool.eq_iff_iff.mpr ?_
  simp only [getLsbD_flagsAll, List.any_map, List.any_eq_true, List.mem_range, Function.comp_apply]
  constructor
  · rintro ⟨k, -, hk⟩
    split at hk
    · next hlt => exact ⟨k / q, Nat.div_lt_of_lt_mul hlt, hk⟩
    · simp at hk
  · rintro ⟨k, hk, hbit⟩
    have hlt : q * k < q * n := Nat.mul_lt_mul_of_pos_left hk hq
    exact ⟨q * k, hlt.trans_le hm, by rw [if_pos hlt, Nat.mul_div_cancel_left k hq]; exact hbit⟩

/-! Whole registers -/

theorem races_setReg (k : Core) (d : Dest) (x : Nat) : (k.setReg d x).races = k.races := by
  cases d with
  | s n => unfold Core.setReg; dsimp only; split <;> rfl
  | _ => rfl

/-- An interlocked write records itself under its engine, if at all. -/
theorem mem_races_writeReg {k : Core} {tick : Nat} {e : Eng} {d : Dest} {bm x : Nat} (ht : k.sys.timed = false) {r : Race}
    (hr : r ∈ (k.writeReg tick e d bm x).races) : r ∈ k.races ∨ r.writer = e.tag := by
  unfold Core.writeReg Core.writeRace at hr
  rw [ht, if_neg Bool.false_ne_true] at hr
  dsimp only at hr
  split at hr
  · rw [races_setReg] at hr
    exact .inl hr
  · split at hr
    · exact .inl hr
    · rcases List.mem_cons.mp hr with rfl | hr
      · exact .inr rfl
      · exact .inl hr

/-- In order, a write of a whole vector register leaves what is written there, and its engine in order. -/
theorem wr_v_whole {s : State} {e : Eng} (h : inOrder s e) (v x : Nat) :
    inOrder (s.wr e (.v v) (ones 8192) x) e ∧ (∀ f, (s.wr e (.v v) (ones 8192) x).en f = s.en f) ∧
      writesV s (s.wr e (.v v) (ones 8192) x) v (BitVec.ofNat 8192 x) := by
  obtain ⟨hen, hvalue⟩ := wr_v_inOrder h v (ones 8192) x
  have hblend : BitVec.ofNat 8192 (blend (s.vReg v).toNat x (ones 8192)) = BitVec.ofNat 8192 x :=
    BitVec.eq_of_getLsbD_eq fun i hi => by
      rw [BitVec.getLsbD_ofNat, BitVec.getLsbD_ofNat, testBit_blend, ones, Nat.testBit_two_pow_sub_one, decide_eq_true hi, if_pos rfl]
  rw [hblend] at hvalue
  obtain ⟨ht, ho⟩ := h
  have hraces {r : Race} (hr : r ∈ (s.wr e (.v v) (ones 8192) x).here.races) : r ∈ s.here.races ∨ r.writer = e.tag := by
    unfold State.wr at hr
    rw [here_upd] at hr
    exact mem_races_writeReg ht hr
  have hkept : (s.wr e (.v v) (ones 8192) x).here.still = s.here.still ∧
      { (s.wr e (.v v) (ones 8192) x).here.regs with v := [] } = { s.here.regs with v := [] } ∧
      ∀ n, n ≠ v → (s.wr e (.v v) (ones 8192) x).vReg n = s.vReg n := by
    unfold State.vReg State.wr
    rw [here_upd]
    obtain ⟨rs, hw | ⟨-, hw⟩⟩ := writeReg_inOrder s.free (.v v) (ones 8192) x ht ho
    · rw [hw]
      exact ⟨rfl, rfl, fun n hn => Bank.get_set_other _ _ _ hn⟩
    · rw [hw]
      exact ⟨rfl, rfl, fun _ _ => rfl⟩
  obtain ⟨hstill, hregs, hother⟩ := hkept
  obtain ⟨hsys, -, -, -⟩ := of_still hstill
  refine ⟨⟨by rw [hsys]; exact ht, fun r hr => ?_⟩, hen, hstill, hregs, fun n => ?_⟩
  · change ordered ((s.wr e (.v v) (ones 8192) x).en e) e.tag r = true
    rw [hen]
    rcases hraces hr with hr | hr
    · exact ho r hr
    · unfold ordered
      rw [decide_eq_true hr, Bool.true_or]
  · split
    · next hn => rw [hn, hvalue]
    · next hn => exact hother n hn

/-- The core under the cursor has whole registers from v replaced by l and events f ORed into SYS.FLAGS, and nothing else changed that
software sees (R53, R55). -/
def wroteGroup (s t : State) (v : Nat) (l : List Nat) (f : Flags) : Prop :=
  t.rest = s.rest ∧ (∀ c, c ≠ s.cur.core → t.core c = s.core c) ∧ (∀ e, t.en e = s.en e) ∧
    t.here.still = { s.here.still with sys := { s.here.sys with flags := s.here.sys.flags ||| f } } ∧
    { t.here.regs with v := [] } = { s.here.regs with v := [] } ∧
    ∀ m, t.vReg m = if v ≤ m ∧ m < v + l.length then BitVec.ofNat 8192 (l.getD (m - v) 0) else s.vReg m

theorem still_orNone (k : Core) : { k.still with sys := { k.sys with flags := k.sys.flags ||| 0 } } = k.still := by
  rw [show k.sys.flags ||| 0 = k.sys.flags from BitVec.or_zero]
  rfl

theorem wroteGroup_writeGroup {e : Eng} (l : List Nat) {s : State} (h : inOrder s e) (v : Nat) : wroteGroup s (writeGroup e v l s) v l 0 := by
  unfold wroteGroup
  rw [still_orNone]
  induction l generalizing s v with
  | nil => exact ⟨rfl, fun _ _ => rfl, fun _ => rfl, rfl, rfl, fun m => (if_neg (by simp)).symm⟩
  | cons x l ih =>
    obtain ⟨hin, hen, hstill, hregs, hvalue⟩ := wr_v_whole h v x
    obtain ⟨hrest', hcore', hen', hstill', hregs', hvalue'⟩ := ih hin (v + 1)
    refine ⟨hrest', fun c hc => (hcore' c hc).trans (core_upd_other _ _ hc), fun f => (hen' f).trans (hen f), hstill'.trans hstill,
      hregs'.trans hregs, fun m => ?_⟩
    rw [writeGroup, hvalue', hvalue, List.length_cons]
    by_cases hm : m = v
    · subst hm
      simp
    · by_cases hgroup : v + 1 ≤ m ∧ m < v + 1 + l.length
      · rw [if_pos hgroup, if_pos (by omega), show m - v = m - (v + 1) + 1 by omega, List.getD_cons_succ]
      · rw [if_neg hgroup, if_neg hm, if_neg (by omega)]

theorem wroteGroup_orFlags {e : Eng} {s t : State} {v : Nat} {l : List Nat} (ht : s.here.sys.timed = false) (h : wroteGroup s t v l 0) (f : Flags) :
    wroteGroup s (t.orFlags e f) v l f := by
  obtain ⟨hrest, hcore, hen, hstill, hregs, hvalue⟩ := h
  have hcur : t.cur = s.cur := rest_cur hrest
  rw [still_orNone] at hstill
  obtain ⟨hsys, -, -, -⟩ := of_still hstill
  have hhere : ∃ rs, (t.orFlags e f).here = { t.here with sys := { t.here.sys with flags := t.here.sys.flags ||| f }, races := rs } := by
    unfold State.orFlags
    rw [here_upd, hsys, ht, if_neg Bool.false_ne_true]
    split
    · next hf =>
      rw [hf, show s.here.sys.flags ||| 0 = s.here.sys.flags from BitVec.or_zero, ← hsys]
      exact ⟨_, rfl⟩
    · rw [← hsys]
      exact ⟨_, rfl⟩
  obtain ⟨rs, hhere⟩ := hhere
  refine ⟨hrest, fun c hc => (core_upd_other _ _ (by rw [hcur]; exact hc)).trans (hcore c hc), fun g => ?_, ?_,
    by rw [hhere]; exact hregs, fun m => ?_⟩
  · rw [← hen]
    unfold State.en
    rw [hhere]
    rfl
  · rw [hhere, hsys, ← hstill]
    rfl
  · rw [← hvalue]
    unfold State.vReg
    rw [hhere]

end Sys2Proof.Machine
end

section
/-! PROOFS. The words of the transpose engine (R53, R169 to R172). -/

namespace Sys2Proof.Machine

/-! What a word gives, by elements -/

/-- Element n of the w-bit elements of the registers from v. -/
def groupElem (s : State) (w v n : Nat) : Nat := elemOf w (s.vReg (v + n / (8192 / w))).toNat (n % (8192 / w))

/-- A word of the transpose engine writes n registers from vd, whose w-bit elements and their events are el; the rest of the package is
that of u, and nothing else of the core changes. -/
def groupGives (s u : State) (i : Instr) (vd : VNo) (n w : Nat) (el : Nat → Nat × Flags) : Prop :=
  goesTo (exec i s) fun t => movesTo s t .xp ((s.en .xp).pc + 8) ∧ t.rest = u.rest ∧ { t.here.still with sys := s.here.sys } = s.here.still ∧
    t.here.sys = { s.here.sys with flags := s.here.sys.flags ||| Flags.all ((List.range (n * (8192 / w))).map fun k => (el k).2) } ∧
    { t.here.regs with v := [] } = { s.here.regs with v := [] } ∧ (∀ m, m < vd.toNat ∨ vd.toNat + n ≤ m → t.vReg m = s.vReg m) ∧
    ∀ k, k < n * (8192 / w) → groupElem t w vd.toNat k = (el k).1 % 2 ^ w

theorem groupGives_congr {s u : State} {i : Instr} {vd : VNo} {n w : Nat} {el el' : Nat → Nat × Flags} (h : groupGives s u i vd n w el)
    (he : ∀ k, el k = el' k) : groupGives s u i vd n w el' := (funext he : el = el') ▸ h

/-- A word whose registers and events are those of el does what `groupGives` says, once it finishes. -/
theorem groupGives_of_wroteGroup {s u v : State} {i : Instr} {vd : VNo} {w : Nat} {el : Nat → Nat × Flags} {l : List Nat} {f : Flags} {n : Nat}
    (hc : sameButCaches s u) (hexec : exec i s = v.done .xp) (hv : wroteGroup u v vd.toNat l f) (hn : l.length = n)
    (hf : f = Flags.all ((List.range (n * (8192 / w))).map fun k => (el k).2)) (hw : w ∣ 8192)
    (hel : ∀ k, k < n * (8192 / w) → elemOf w (l.getD (k / (8192 / w)) 0) (k % (8192 / w)) = (el k).1 % 2 ^ w) :
    groupGives s u i vd n w el := by
  have hhere : u.here = s.here := by rw [hc]; rfl
  have hen (f : Eng) : u.en f = s.en f := by unfold State.en; rw [hhere]
  have hvreg (m : Nat) : u.vReg m = s.vReg m := by unfold State.vReg; rw [hhere]
  obtain ⟨hrest, hcore, hven, hstill, hregs, hvalue⟩ := hv
  obtain ⟨t, hdone, ⟨hrest', -, hmove⟩, hstill', hregs'⟩ := finishes_done (e := .xp) hrest hcore hven
  have ht : t.here.still = { s.here.still with sys := { s.here.sys with flags := s.here.sys.flags ||| f } } := by rw [hstill', hstill, hhere]
  have htv (m : Nat) : t.vReg m = if vd.toNat ≤ m ∧ m < vd.toNat + n then BitVec.ofNat 8192 (l.getD (m - vd.toNat) 0) else s.vReg m := by
    rw [← hn, ← hvreg, ← hvalue]
    unfold State.vReg
    rw [hregs']
  refine ⟨t, hexec.trans hdone, ?_, hrest', by rw [ht]; rfl, hf ▸ (congrArg Core.sys ht :), by rw [hregs', hregs, hhere],
    fun m hm => ?_, fun k hk => ?_⟩
  · unfold movesTo at hmove ⊢
    simpa only [hen] using hmove
  · rw [htv, if_neg (by omega)]
  · have hq : w * (8192 / w) = 8192 := Nat.mul_div_cancel' hw
    have hpos : 0 < 8192 / w := Nat.pos_of_mul_pos_left (by rw [hq]; decide)
    have hreg : k / (8192 / w) < n := Nat.div_lt_of_lt_mul (by rwa [Nat.mul_comm])
    have hin : w * (k % (8192 / w) + 1) ≤ 8192 := by
      calc w * (k % (8192 / w) + 1) ≤ w * (8192 / w) := Nat.mul_le_mul_left w (Nat.mod_lt k hpos)
        _ = 8192 := hq
    unfold groupElem
    rw [htv, if_pos ⟨Nat.le_add_right _ _, Nat.add_lt_add_left hreg _⟩, Nat.add_sub_cancel_left, elemOf_ofNat _ hin]
    exact hel k hk

/-- A word without events that writes whole registers in order, from its list of registers. -/
theorem groupGives_quiet {s : State} {i : Instr} {vd : VNo} {w n : Nat} {val : Nat → Nat} {l : List Nat} (h : inOrder s .xp)
    (hexec : exec i s = (writeGroup .xp vd.toNat l s).done .xp) (hn : l.length = n) (hw : w ∣ 8192)
    (hel : ∀ k, k < n * (8192 / w) → elemOf w (l.getD (k / (8192 / w)) 0) (k % (8192 / w)) = val k % 2 ^ w) :
    groupGives s s i vd n w fun k => (val k, 0) :=
  groupGives_of_wroteGroup (sameButCaches_refl s) hexec (wroteGroup_writeGroup l h vd.toNat) hn (flagsAll_zero _).symm hw hel

/-- A word without events that writes one register. -/
theorem groupGives_quietOne {s : State} {i : Instr} {vd : VNo} {w x : Nat} {val : Nat → Nat} (h : inOrder s .xp)
    (hexec : exec i s = (writeGroup .xp vd.toNat [x] s).done .xp) (hw : w ∣ 8192) (hel : ∀ k, k < 8192 / w → elemOf w x k = val k % 2 ^ w) :
    groupGives s s i vd 1 w fun k => (val k, 0) := by
  refine groupGives_quiet h hexec rfl hw fun k hk => ?_
  rw [Nat.one_mul] at hk
  rw [Nat.div_eq_of_lt hk, Nat.mod_eq_of_lt hk]
  exact hel k hk

/-- A word with events that writes one register, in a state u with other caches. -/
theorem groupGives_one {s u : State} {i : Instr} {vd : VNo} {w x : Nat} {f : Flags} {el : Nat → Nat × Flags} (h : inOrder s .xp)
    (hc : sameButCaches s u) (hexec : exec i s = ((writeGroup .xp vd.toNat [x] u).orFlags .xp f).done .xp)
    (hf : f = Flags.all ((List.range (1 * (8192 / w))).map fun k => (el k).2)) (hw : w ∣ 8192)
    (hel : ∀ k, k < 8192 / w → elemOf w x k = (el k).1 % 2 ^ w) : groupGives s u i vd 1 w el := by
  have hu : inOrder u .xp := by rw [hc]; exact h
  refine groupGives_of_wroteGroup hc hexec (wroteGroup_orFlags hu.1 (wroteGroup_writeGroup [x] hu vd.toNat) f) rfl hf hw fun k hk => ?_
  rw [Nat.one_mul] at hk
  rw [Nat.div_eq_of_lt hk, Nat.mod_eq_of_lt hk]
  exact hel k hk

/-- A word with events that writes one register as a whole. -/
theorem groupGives_register {s u : State} {i : Instr} {vd : VNo} {x : Nat} {f : Flags} (h : inOrder s .xp) (hc : sameButCaches s u)
    (hexec : exec i s = ((writeGroup .xp vd.toNat [x] u).orFlags .xp f).done .xp) : groupGives s u i vd 1 8192 fun _ => (x, f) := by
  refine groupGives_one h hc hexec (flagsAll_one fun _ => f).symm (by decide) fun k hk => ?_
  obtain rfl : k = 0 := Nat.lt_one_iff.mp hk
  exact elemOf_zero 8192 x

/-- Element k of the first register of a group. -/
theorem groupElem_first {w k : Nat} (s : State) (v : Nat) (hk : k < 8192 / w) : groupElem s w v k = elemOf w (s.vReg v).toNat k := by
  unfold groupElem
  rw [Nat.div_eq_of_lt hk, Nat.mod_eq_of_lt hk, Nat.add_zero]

/-- The registers of a group that is read as one number. -/
theorem readGroup_spec {s : State} (h : inOrder s .xp) (v n : Nat) :
    readGroup s .xp v n < 2 ^ (8192 * n) ∧ ∀ i, i < n → elemOf 8192 (readGroup s .xp v n) i = (s.vReg (v + i)).toNat := by
  induction n with
  | zero => exact ⟨Nat.one_pos, fun i hi => absurd hi (Nat.not_lt_zero i)⟩
  | succ n ih =>
    obtain ⟨hlt, hreg⟩ := ih
    have hstep : readGroup s .xp v (n + 1) = readGroup s .xp v n + (s.vReg (v + n)).toNat <<< (8192 * n) := by
      unfold readGroup
      rw [List.range_succ, List.foldl_concat, rdVn_inOrder h]
    rw [hstep]
    refine ⟨add_shift_lt hlt (toNat_lt_two_pow (s.vReg (v + n)) rfl), fun i hi => ?_⟩
    rw [elemOf_add_shift hlt]
    split
    · next hin => exact hreg i hin
    · next hout =>
      obtain rfl : i = n := by omega
      rw [Nat.sub_self, elemOf_toNat]

/-- The elements of a group that is read as one number. -/
theorem elemOf_readGroup {s : State} (h : inOrder s .xp) {w n k : Nat} (v : Nat) (hw : w ∣ 8192) (hk : k < n * (8192 / w)) :
    elemOf w (readGroup s .xp v n) k = groupElem s w v k := by
  have hq : w * (8192 / w) = 8192 := Nat.mul_div_cancel' hw
  have hpos : 0 < 8192 / w := Nat.pos_of_mul_pos_left (by rw [hq]; decide)
  have hreg : k / (8192 / w) < n := Nat.div_lt_of_lt_mul (by rwa [Nat.mul_comm])
  obtain ⟨-, hval⟩ := readGroup_spec h v n
  have hsplit := elemOf_elemOf (w := w) (readGroup s .xp v n) (k / (8192 / w)) (Nat.mod_lt k hpos)
  rw [hq, hval _ hreg, Nat.div_add_mod] at hsplit
  exact hsplit.symm

/-- The bytes that a register x of 4-bit elements unpacks to in the first or the second register (R170). -/
def unpackedHalf (ty : Fmt) (x half : Nat) : Nat := packElems 8 ((List.range 1024).map fun k => unpackElem ty (elemOf 4 x (2 * k + half)))

/-- The packed element from byte k of a register x, and its event (R170). -/
def packedAt (ty : Fmt) (x k : Nat) : Nat × Flags := packElem ty (elemOf 8 x k)

section
variable {s : State} (h : inOrder s .xp) (vd va : VNo)
include h

theorem xtr_gives {ty : Fmt} (hty : ty.bits = 8 ∨ ty.bits = 16 ∨ ty.bits = 32) : groupGives s s (.xtr ty vd va) vd (ty.bits / 8) ty.bits fun k =>
    (groupElem s ty.bits va.toNat (32 * (k % 32) + k / 32), 0) := by
  have hw : ty.bits ∣ 8192 := by rcases hty with hb | hb | hb <;> rw [hb] <;> decide
  have hq : ty.bits * (8192 / ty.bits) = 8192 := Nat.mul_div_cancel' hw
  have hpos : 0 < 8192 / ty.bits := Nat.pos_of_mul_pos_left (by rw [hq]; decide)
  have hwidth : 8 * Fmt.width ty = ty.bits := by unfold Fmt.width; omega
  have hcount : ty.bits / 8 * (8192 / ty.bits) = 1024 := by rcases hty with hb | hb | hb <;> rw [hb]
  refine groupGives_quiet h rfl (by rw [List.length_map, List.length_range]; rfl) hw fun k hk => ?_
  have hreg : k / (8192 / ty.bits) < Fmt.width ty := Nat.div_lt_of_lt_mul (by rwa [Nat.mul_comm])
  have hsplit := elemOf_elemOf (w := ty.bits) (packElems ty.bits ((List.range 1024).map fun n =>
    elemOf ty.bits (readGroup s .xp va.toNat (Fmt.width ty)) (n % 32 * 32 + n / 32))) (k / (8192 / ty.bits)) (Nat.mod_lt k hpos)
  rw [hq, Nat.div_add_mod, elemOf_packElems] at hsplit
  rw [hcount] at hk
  rw [hwidth, getD_map_range _ _ hreg, hsplit, getD_map_range _ _ hk, elemOf_readGroup h va.toNat hw, Nat.mul_comm 32]
  change _ < ty.bits / 8 * _
  omega

theorem xunpk_gives4 {ty : Fmt} (hty : ty ≠ .mxi6) : groupGives s s (.xunpk ty vd va) vd 2 8 fun k =>
    (unpackElem ty (groupElem s 4 va.toNat (2 * (k % 1024) + k / 1024)), 0) := by
  have hexec : exec (.xunpk ty vd va) s =
      (writeGroup .xp vd.toNat ((List.range 2).map (unpackedHalf ty (s.vReg va.toNat).toNat)) s).done .xp := by
    dsimp only [exec, execXunpk]
    rw [if_neg hty, rdV_inOrder h]
    rfl
  refine groupGives_quiet h hexec rfl (by decide) fun k hk => ?_
  change k < 2048 at hk
  change elemOf 8 (((List.range 2).map (unpackedHalf ty _)).getD (k / 1024) 0) (k % 1024) = _
  rw [getD_map_range _ _ (by omega), unpackedHalf, elemOf_packElems, getD_map_range _ _ (by omega), groupElem_first s _ (by change _ < 2048; omega)]

theorem xunpk_gives6 : groupGives s s (.xunpk .mxi6 vd va) vd 1 8 fun k => (unpackElem .mxi6 (elemOf 6 (s.vReg va.toNat).toNat k), 0) := by
  refine groupGives_quietOne h rfl (by decide) fun k hk => ?_
  change k < 1024 at hk
  rw [elemOf_packElems, getD_map_range _ _ hk, rdV_inOrder h]

theorem xpk_gives4 {ty : Fmt} (hty : ty ≠ .mxi6) : groupGives s s (.xpk ty vd va) vd 1 8 fun k =>
    ((packElem ty (groupElem s 8 va.toNat k)).1 + 16 * (packElem ty (groupElem s 8 va.toNat (1024 + k))).1,
      (packElem ty (groupElem s 8 va.toNat k)).2 ||| (packElem ty (groupElem s 8 va.toNat (1024 + k))).2) := by
  have hexec : exec (.xpk ty vd va) s =
      let lo := (List.range 1024).map (packedAt ty (s.vReg va.toNat).toNat)
      let hi := (List.range 1024).map (packedAt ty (s.vReg (va.toNat + 1)).toNat)
      ((writeGroup .xp vd.toNat [packElems 8 (List.zipWith (fun a b => a.1 + 16 * b.1) lo hi)] s).orFlags .xp
        (Flags.all (lo.map Prod.snd ++ hi.map Prod.snd))).done .xp := by
    dsimp only [exec, execXpk, packedAt]
    rw [if_neg hty, rdV_inOrder h, rdVn_inOrder h]
    rfl
  have hlo {k : Nat} (hk : k < 1024) : groupElem s 8 va.toNat k = elemOf 8 (s.vReg va.toNat).toNat k := groupElem_first s va.toNat hk
  have hhi {k : Nat} (hk : k < 1024) : groupElem s 8 va.toNat (1024 + k) = elemOf 8 (s.vReg (va.toNat + 1)).toNat k := by
    change elemOf 8 (s.vReg (va.toNat + (1024 + k) / 1024)).toNat ((1024 + k) % 1024) = _
    rw [show (1024 + k) / 1024 = 1 by omega, show (1024 + k) % 1024 = k by omega]
  refine groupGives_one h (sameButCaches_refl s) hexec ?_ (by decide) fun k hk => ?_
  · rw [List.map_map, List.map_map, flagsAll_or]
    refine congrArg Flags.all (List.map_congr_left fun k hk => ?_)
    have hk : k < 1024 := List.mem_range.mp hk
    rw [hlo hk, hhi hk]
    rfl
  · change k < 1024 at hk
    rw [elemOf_packElems, List.zipWith_map, List.zipWith_self, getD_map_range _ _ hk, hlo hk, hhi hk]
    rfl

theorem xpk_gives6 : groupGives s s (.xpk .mxi6 vd va) vd 1 2 fun k =>
    if k < 3072 then ((packElem .mxi6 (groupElem s 8 va.toNat (k / 3))).1 / 4 ^ (k % 3), (packElem .mxi6 (groupElem s 8 va.toNat (k / 3))).2)
    else (0, 0) := by
  obtain ⟨el, hdef⟩ : ∃ el, el = packedAt .mxi6 (s.vReg va.toNat).toNat := ⟨_, rfl⟩
  have hexec : exec (.xpk .mxi6 vd va) s = ((writeGroup .xp vd.toNat [packElems 6 (((List.range 1024).map el).map Prod.fst)] s).orFlags .xp
      (Flags.all (((List.range 1024).map el).map Prod.snd))).done .xp := by
    rw [hdef]
    dsimp only [exec, execXpk]
    rw [if_pos rfl, rdV_inOrder h]
    rfl
  have hel {k : Nat} (hk : k < 3072) : packElem .mxi6 (groupElem s 8 va.toNat (k / 3)) = el (k / 3) := by
    rw [hdef]
    exact congrArg (packElem .mxi6) (groupElem_first s va.toNat (show k / 3 < 1024 by omega))
  refine groupGives_one h (sameButCaches_refl s) hexec ?_ (by decide) fun k hk => ?_
  · rw [List.map_map, ← flagsAll_div (Prod.snd ∘ el) (q := 3) (by decide) 1024 (1 * (8192 / 2)) (by decide)]
    refine congrArg Flags.all (List.map_congr_left fun k _ => ?_)
    by_cases hk : k < 3072
    · rw [if_pos hk, if_pos hk, hel hk]
      rfl
    · rw [if_neg hk, if_neg hk]
  · have hsplit := elemOf_elemOf (w := 2) (packElems 6 (((List.range 1024).map el).map Prod.fst)) (k / 3) (Nat.mod_lt k (show 0 < 3 by decide))
    rw [Nat.div_add_mod, elemOf_packElems, List.map_map] at hsplit
    rw [List.map_map, ← hsplit]
    by_cases hk : k < 3072
    · rw [getD_map_range _ _ (by omega), if_pos hk, hel hk, elemOf_mod _ (by omega), elemOf, Nat.shiftRight_eq_div_pow, Nat.pow_mul]
      rfl
    · rw [List.getD_eq_default _ _ (by simp; omega), if_neg hk]
      simp [elemOf]

theorem xperm_gives (p : BitVec 24) : groupGives s s (.xperm vd va p) vd 1 1024 fun i =>
    (groupElem s 1024 va.toNat (slice p (3 * i + 2) (3 * i)), 0) := by
  refine groupGives_quietOne h rfl (by decide) fun i hi => ?_
  have hrow : slice p (3 * i + 2) (3 * i) < 8192 / 1024 := by
    unfold slice
    rw [show 3 * i + 2 + 1 - 3 * i = 3 by omega]
    exact Nat.mod_lt _ (by decide)
  rw [elemOf_packElems, getD_map_range _ _ hi, rdV_inOrder h, groupElem_first s _ hrow]

theorem xcat_gives (vb : VNo) (n : BitVec 8) : groupGives s s (.xcat vd va vb n) vd 1 32 fun L =>
    (if L + n.toNat < 256 then groupElem s 32 va.toNat (L + n.toNat) else groupElem s 32 vb.toNat (L + n.toNat - 256), 0) := by
  refine groupGives_quietOne h rfl (by decide) fun L hL => ?_
  change L < 256 at hL
  rw [rdV_inOrder h, rdV_inOrder h, elemOf_mod _ (by omega), elemOf_shiftRight]
  refine (elemOf_add_shift (w := 32) (q := 256) (toNat_lt_two_pow (s.vReg va.toNat) (by decide)) (s.vReg vb.toNat).toNat (n.toNat + L)).trans ?_
  rw [Nat.add_comm L]
  by_cases hin : n.toNat + L < 256
  · rw [if_pos hin, if_pos hin, groupElem_first s _ hin, Nat.mod_eq_of_lt (elemOf_lt _ _ _)]
  · rw [if_neg hin, if_neg hin, groupElem_first s _ (by change _ < 256; omega), Nat.mod_eq_of_lt (elemOf_lt _ _ _)]
end

/-! The Hadamard words (R172) -/

theorem sameButCaches_readShape {s u : State} {tid : Nat} {t : Shape} (h : s.readShape tid = .ok (t, u)) : sameButCaches s u := by
  have hload := sameButCaches_load s ((s.here.tcb.shapebase.toNat + 128 * tid) % 2 ^ 64) 128
  unfold State.readShape at h
  dsimp only at h
  split at h
  · cases h
  · split at h
    · cases h
    · split at h
      · cases h
      · split at h
        · cases h
        · cases h
          exact hload

theorem sameButCaches_hadamardShape {s u : State} {sa sb : SReg} {rm : RMode} {g : GenNo} {t : Shape} {i0 : Nat} {bits : Int → Int → Nat}
    (h : s.hadamardShape sa sb rm g = .ok (t, i0, bits, u)) : sameButCaches s u := by
  unfold State.hadamardShape at h
  dsimp only at h
  split at h
  · next hshape _ _ =>
    split at h
    · cases h
    · cases h
      split at hshape
      · cases hshape
      · exact sameButCaches_readShape hshape
  · cases h

/-- Element k of a register under the sign of its place in a tensor (R172). -/
def signFlip (t : Shape) (i0 k : Nat) (v : Exact) : Exact :=
  if Flurry.sign t.hseed ((i0 + k / 32 : Nat) : Int) ((k % 32 : Nat) : Int) then v.neg else v

/-- The signed transform of block b of a register (R172). -/
def signedSums (s : State) (va : VNo) (t : Shape) (i0 b : Nat) : List (Exact × Flags) :=
  let xs := (List.range 32).map fun j => signFlip t i0 (32 * b + j) (elemValue .f32 (s.vLane va.toNat (32 * b + j)).toNat)
  (List.range 32).map fun a => hadamard a xs

/-- The quantised transform of block b of a register. -/
def signedBlock (s : State) (ty : Fmt) (rm : RMode) (va : VNo) (t : Shape) (i0 : Nat) (bits : Int → Int → Nat) (b : Nat) :
    Nat × List Nat × Flags :=
  mxQuant ty rm ((signedSums s va t i0 b).map Prod.fst) ((List.range 32).map fun j => bits ((i0 + b : Nat) : Int) (j : Nat))

theorem toNat_vLane (s : State) (v k : Nat) : (s.vLane v k).toNat = elemOf 32 (s.vReg v).toNat k := by
  unfold State.vLane elemOf
  rw [BitVec.extractLsb'_toNat]

theorem signedSums_eq (s : State) (va : VNo) (t : Shape) (i0 b : Nat) :
    signedSums s va t i0 b = (List.range 32).map fun a => hadamard a ((List.range 32).map fun j =>
      if Flurry.sign t.hseed ((i0 + b : Nat) : Int) (j : Nat) then (elemValue .f32 (elemOf 32 (s.vReg va.toNat).toNat (32 * b + j))).neg
      else elemValue .f32 (elemOf 32 (s.vReg va.toNat).toNat (32 * b + j))) := by
  have hxs : ((List.range 32).map fun j => signFlip t i0 (32 * b + j) (elemValue .f32 (s.vLane va.toNat (32 * b + j)).toNat)) =
      (List.range 32).map fun (j : Nat) => if Flurry.sign t.hseed ((i0 + b : Nat) : Int) (j : Nat)
        then (elemValue .f32 (elemOf 32 (s.vReg va.toNat).toNat (32 * b + j))).neg
        else elemValue .f32 (elemOf 32 (s.vReg va.toNat).toNat (32 * b + j)) :=
    List.map_congr_left fun j hj => by
      have hlt : j < 32 := List.mem_range.mp hj
      unfold signFlip
      rw [toNat_vLane, show (32 * b + j) / 32 = b by omega, show (32 * b + j) % 32 = j by omega]
  unfold signedSums
  rw [hxs]

/-- Element k of a register that is decoded through the inverse transform (R172). -/
def unsignedElem (s : State) (ty : Fmt) (rm : RMode) (va : VNo) (t : Shape) (i0 : Nat) (bits : Int → Int → Nat) (k : Nat) : Nat × Flags :=
  let x := hadamard (k % 32) ((List.range 32).map fun a => packedValue ty (s.vReg va.toNat).toNat (k / 32 * 32 + a))
  let r := roundFloat .f32 rm (bits ((i0 + k / 32 : Nat) : Int) ((k % 32 : Nat) : Int)) (signFlip t i0 k (x.1.shift (-5)))
  (r.1, r.2 ||| x.2)

section
variable {s u : State} (h : inOrder s .xp) (ty : Fmt) {rm : RMode} {g : GenNo} (vd va : VNo) {sa sb : SReg} {t : Shape} {i0 : Nat}
  {bits : Int → Int → Nat} (hok : s.hadamardShape sa sb rm g = .ok (t, i0, bits, u))
include h hok

theorem xhq_gives : groupGives s u (.xhq ty rm g vd va sa sb) vd 1 8192 fun _ =>
    (packedForm ty ((List.range 8).map fun b => ((signedBlock s ty rm va t i0 bits b).1, (signedBlock s ty rm va t i0 bits b).2.1)),
      Flags.all ((List.range 8).map fun b => (signedBlock s ty rm va t i0 bits b).2.2 ||| Flags.all ((signedSums s va t i0 b).map Prod.snd))) := by
  refine groupGives_register h (sameButCaches_hadamardShape hok) ?_
  dsimp only [exec, execXhq]
  rw [hok, rdV_inOrder h]
  unfold signedBlock
  simp only [orTrap, signedSums_eq, List.map_map, Function.comp_def]

theorem xhdq_gives : groupGives s u (.xhdq ty rm g vd va sa sb) vd 1 32 (unsignedElem s ty rm va t i0 bits) := by
  have hexec : exec (.xhdq ty rm g vd va sa sb) s =
      ((writeGroup .xp vd.toNat [packElems 32 (((List.range 256).map (unsignedElem s ty rm va t i0 bits)).map Prod.fst)] u).orFlags .xp
        (Flags.all (((List.range 256).map (unsignedElem s ty rm va t i0 bits)).map Prod.snd))).done .xp := by
    dsimp only [exec, execXhdq]
    rw [hok, rdV_inOrder h]
    unfold unsignedElem signFlip
    rfl
  refine groupGives_one h (sameButCaches_hadamardShape hok) hexec ?_ (by decide) fun k hk => ?_
  · rw [List.map_map]
    rfl
  · rw [elemOf_packElems, List.map_map, getD_map_range _ _ (show k < 256 from hk), Function.comp_apply]

end

/-! The statement -/

theorem unpackElem_eq (ty : Fmt) (c : Nat) : unpackElem ty c = if ty = .mxf4 then c else (signedOf ty.bits c % 2 ^ 8).toNat := rfl

/-- A packed element is clamped at the ends of its range, with SATURATE where that changes it (R170). -/
theorem packElem_eq (ty : Fmt) (c : Nat) :
    packElem ty c = if ty = .mxf4 then (c % 16, 0)
      else if 2 ^ (ty.bits - 1) ≤ signedOf 8 c then ((2 ^ (ty.bits - 1) - 1 : Int).toNat, Flags.saturate)
      else if signedOf 8 c < -2 ^ (ty.bits - 1) then ((-2 ^ (ty.bits - 1) % 2 ^ ty.bits : Int).toNat, Flags.saturate)
      else ((signedOf 8 c % 2 ^ ty.bits).toNat, 0) := by
  have hbits : ty.bits = ty.bits - 1 + 1 := by cases ty <;> rfl
  have hpos : (0 : Int) < 2 ^ (ty.bits - 1) := by positivity
  have hwrap : (((2 ^ ty.bits : Nat) : Int)) = 2 ^ (ty.bits - 1) * 2 := by rw [hbits, Nat.pow_succ]; push_cast; rfl
  unfold packElem wrapNat Flags.when
  dsimp only
  rw [show (2 : Int) ^ ty.bits = 2 ^ (ty.bits - 1) * 2 by rw [← hwrap]; push_cast; rfl, hwrap]
  push_cast
  generalize signedOf 8 c = z
  generalize (2 : Int) ^ (ty.bits - 1) = m at hpos ⊢
  split
  · rfl
  · by_cases hhigh : m ≤ z
    · rw [if_pos (show m - 1 < z by omega), if_pos hhigh, Int.emod_eq_of_lt (by omega) (by omega), decide_eq_true (by omega), if_pos rfl]
    · rw [if_neg (show ¬ m - 1 < z by omega), if_neg hhigh]
      split
      · next hlow => rw [decide_eq_true (by omega), if_pos rfl]
      · rw [decide_eq_false (by simp), if_neg Bool.false_ne_true]

/-- Settles O37, word by word: each reads its registers before it writes, and the elements that it writes are read back. -/
theorem transposeEngineResults : Obligations.TransposeEngineResults := by
  intro s ty vd va h x gives
  have hgives {i : Instr} {u : State} {n w : Nat} {el : Nat → Nat × Flags} (hel : groupGives s u i vd n w el) : gives i u n w el := hel
  refine ⟨fun hty => hgives (xtr_gives h vd va hty), fun hty => ?_, fun p => hgives (xperm_gives h vd va p),
    fun vb n => hgives (xcat_gives h vd va vb n), fun rm g sa sb t i0 u bits hok => ?_⟩
  · intro signed clamp
    have hclamp (c : Nat) : packElem ty c = clamp c := packElem_eq ty c
    refine ⟨fun hbits => ?_, fun hbits => ?_⟩
    · have hne : ty ≠ .mxi6 := by
        rintro rfl
        cases hbits
      have hsigned (c : Nat) : unpackElem ty c = signed 4 c := by rw [unpackElem_eq, hbits]
      exact ⟨hgives (groupGives_congr (xunpk_gives4 h vd va hne) fun k => by rw [hsigned]; rfl),
        hgives (groupGives_congr (xpk_gives4 h vd va hne) fun k => by rw [hclamp, hclamp]; rfl)⟩
    · obtain rfl : ty = .mxi6 := by
        rcases hty with rfl | rfl | rfl
        · cases hbits
        · cases hbits
        · rfl
      have hsigned (c : Nat) : unpackElem .mxi6 c = signed 6 c := unpackElem_eq .mxi6 c
      exact ⟨hgives (groupGives_congr (xunpk_gives6 h vd va) fun k => by rw [hsigned]),
        hgives (groupGives_congr (xpk_gives6 h vd va) fun k => by rw [hclamp]; rfl)⟩
  · intro flip sums block form all
    have hsums (b : Nat) : signedSums s va t i0 b = sums b := rfl
    have hblock (b : Nat) : signedBlock s ty rm va t i0 bits b = block b := by rw [signedBlock, hsums]
    have hall : (fun b => (signedBlock s ty rm va t i0 bits b).2.2 ||| Flags.all ((signedSums s va t i0 b).map Prod.snd)) =
        fun b => (block b).2.2 ||| Flags.all ((sums b).map Prod.snd) := funext fun b => by rw [hblock, hsums]
    have hform : (fun b => ((signedBlock s ty rm va t i0 bits b).1, (signedBlock s ty rm va t i0 bits b).2.1)) =
        fun b => ((block b).1, (block b).2.1) := funext fun b => by rw [hblock]
    have hhq := xhq_gives h ty vd va hok
    rw [hform, hall] at hhq
    exact ⟨hgives hhq, hgives (xhdq_gives h ty vd va hok)⟩

end Sys2Proof.Machine
end

section
/-! PROOFS. The decoder reads what the encoder writes (R65, R68 to R77): fields that are joined are cut apart again, form by form, and so
word by word. -/

namespace Sys2Proof

/-! Joined fields are cut apart again (R65) -/

theorem glue_lt (fs : Enc.Fields) : glue fs < 2 ^ widthSum (fs.map Prod.fst) := by
  induction fs with
  | nil => exact Nat.one_pos
  | cons p r ih =>
    obtain ⟨w, v⟩ := p
    have hv : v % 2 ^ w + 1 ≤ 2 ^ w := Nat.mod_lt _ (Nat.two_pow_pos w)
    calc v % 2 ^ w * 2 ^ widthSum (r.map Prod.fst) + glue r
        < (v % 2 ^ w + 1) * 2 ^ widthSum (r.map Prod.fst) := by rw [Nat.succ_mul]; omega
      _ ≤ 2 ^ w * 2 ^ widthSum (r.map Prod.fst) := Nat.mul_le_mul_right _ hv
      _ = 2 ^ (w + widthSum (r.map Prod.fst)) := (Nat.pow_add ..).symm

/-- What stands above the fields that are cut does not matter. -/
theorem cut_add (ws : List Nat) (a x : Nat) : cut ws (a * 2 ^ widthSum ws + x) = cut ws x := by
  induction ws generalizing a with
  | nil => rfl
  | cons w ws ih =>
    have hsplit : a * 2 ^ widthSum (w :: ws) + x = a * 2 ^ w * 2 ^ widthSum ws + x := by
      rw [widthSum, Nat.pow_add, Nat.mul_assoc]
    rw [cut, cut, hsplit, ih, Nat.shiftRight_eq_div_pow, Nat.shiftRight_eq_div_pow, Nat.mul_comm _ (2 ^ widthSum ws),
      Nat.mul_add_div (Nat.two_pow_pos _), Nat.add_comm, Nat.add_mul_mod_self_right]

/-- The highest field is read, and the others are cut from what is left. -/
@[simp] theorem cut_glue_field {w v : Nat} (hv : v < 2 ^ w) (r : Enc.Fields) {ws : List Nat} (hw : r.map Prod.fst = ws) :
    cut (w :: ws) (glue ((w, v) :: r)) = v :: cut ws (glue r) := by
  subst hw
  rw [cut, glue, cut_add, Nat.shiftRight_eq_div_pow, Nat.mul_comm, Nat.mul_add_div (Nat.two_pow_pos _), Nat.div_eq_of_lt (glue_lt r),
    Nat.mod_eq_of_lt hv, Nat.add_zero, Nat.mod_eq_of_lt hv]

/-! The kinds of fields -/

namespace Enc

@[simp] theorem fst_v {w : Nat} (x : BitVec w) : (v x).1 = w := rfl
@[simp] theorem fst_z (n : Nat) : (z n).1 = n := rfl
@[simp] theorem fst_b (x : Bool) : (b x).1 = 1 := rfl
@[simp] theorem fst_ty (t : Fmt) : (ty t).1 = 5 := rfl
@[simp] theorem fst_rm (r : RMode) : (rm r).1 = 3 := rfl

/-- A register field of zeros names s0. -/
theorem z_six : z 6 = v (0 : SReg) := rfl

end Enc

@[simp] theorem cut_nil (x : Nat) : cut [] x = [] := rfl

section
variable {r : Enc.Fields} {ws : List Nat} (hw : r.map Prod.fst = ws)
include hw

@[simp] theorem cut_glue_v {w : Nat} (x : BitVec w) : cut (w :: ws) (glue (Enc.v x :: r)) = x.toNat :: cut ws (glue r) :=
  cut_glue_field x.isLt r hw

@[simp] theorem cut_glue_z (n : Nat) : cut (n :: ws) (glue (Enc.z n :: r)) = 0 :: cut ws (glue r) := cut_glue_field (Nat.two_pow_pos n) r hw

@[simp] theorem cut_glue_b (x : Bool) : cut (1 :: ws) (glue (Enc.b x :: r)) = x.toNat :: cut ws (glue r) := by
  cases x
  · exact cut_glue_field (w := 1) (v := 0) (by decide) r hw
  · exact cut_glue_field (w := 1) (v := 1) (by decide) r hw

@[simp] theorem cut_glue_ty (t : Fmt) : cut (5 :: ws) (glue (Enc.ty t :: r)) = t.code :: cut ws (glue r) :=
  cut_glue_field (by cases t <;> decide) r hw

@[simp] theorem cut_glue_rm (m : RMode) : cut (3 :: ws) (glue (Enc.rm m :: r)) = m.code :: cut ws (glue r) :=
  cut_glue_field (by cases m <;> decide) r hw

end

/-! A code is read as what it stands for, and fits its field -/

@[simp] theorem Fmt.ofCode_code (t : Fmt) : Fmt.ofCode t.code = some t := by cases t <;> rfl
@[simp] theorem RMode.ofCode_code (m : RMode) : RMode.ofCode m.code = some m := by cases m <;> rfl
@[simp] theorem Cond.ofCode_code (c : Cond) : Cond.ofCode c.code = some c := by cases c <;> rfl
@[simp] theorem VCond.ofCode_code (c : VCond) : VCond.ofCode c.code = some c := by cases c <;> rfl
@[simp] theorem Scope.ofCode_code (c : Scope) : Scope.ofCode c.code = some c := by cases c <;> rfl
@[simp] theorem AmoOp.ofCode_code (o : AmoOp) : AmoOp.ofCode o.code = some o := by cases o <;> rfl
@[simp] theorem FenceKind.ofCode_code (k : FenceKind) : FenceKind.ofCode k.code = some k := by cases k <;> rfl

@[simp] theorem Cond.code_lt (c : Cond) : c.code < 16 := by cases c <;> decide
@[simp] theorem VCond.code_lt (c : VCond) : c.code < 16 := by cases c <;> decide
@[simp] theorem Scope.code_lt (c : Scope) : c.code < 8 := by cases c <;> decide
@[simp] theorem AmoOp.code_lt (o : AmoOp) : o.code < 16 := by cases o <;> decide
@[simp] theorem FenceKind.code_lt (k : FenceKind) : k.code < 4 := by cases k <;> decide

/-! The forms of the operands -/

namespace Dec

theorem ss_glue (f : SReg → SReg → SReg → Instr) (d a b : SReg) : ss f (glue (Enc.ss d a b)) = some (f d a b) := by simp [ss, Enc.ss]

theorem su_glue (f : Bool → SReg → SReg → SReg → Instr) (u : Bool) (d a b : SReg) : su f (glue (Enc.su u d a b)) = some (f u d a b) := by
  simp [su, Enc.su]

theorem s4_glue (f : SReg → SReg → SReg → SReg → Instr) (d a b c : SReg) :
    s4 f (glue [Enc.v d, Enc.v a, Enc.v b, Enc.v c, Enc.z 20]) = some (f d a b c) := by
  simp [s4]

theorem da_glue (f : SReg → SReg → Instr) (d a : SReg) : da f (glue [Enc.v d, Enc.v a, Enc.z 32]) = some (f d a) := by simp [da]

theorem ab_glue (f : SReg → SReg → Instr) (a b : SReg) : ab f (glue (Enc.ss 0 a b)) = some (f a b) := by simp [ab, Enc.ss]

theorem a1_glue (f : SReg → Instr) (a : SReg) : a1 f (glue [Enc.z 6, Enc.v a, Enc.z 32]) = some (f a) := by simp [a1]

theorem d1_glue (f : SReg → Instr) (d : SReg) : d1 f (glue [Enc.v d, Enc.z 38]) = some (f d) := by simp [d1]

theorem op0_glue (i : Instr) : op0 i (glue [Enc.z 44]) = some i := by simp [op0, glue, Enc.z]

theorem d1v0_glue (f g : SReg → Instr) (d : SReg) : d1v f g (glue [Enc.v d, Enc.z 37, (1, 0)]) = some (f d) := by simp [d1v]

theorem d1v1_glue (f g : SReg → Instr) (d : SReg) : d1v f g (glue [Enc.v d, Enc.z 37, (1, 1)]) = some (g d) := by simp [d1v]

theorem si_glue (f : SReg → SReg → BitVec 32 → Instr) (d a : SReg) (m : BitVec 32) :
    si f (glue [Enc.v d, Enc.v a, Enc.v m]) = some (f d a m) := by
  simp [si]

theorem sh_glue (f : SReg → SReg → BitVec 6 → Instr) (d a : SReg) (n : BitVec 6) :
    sh f (glue [Enc.v d, Enc.v a, Enc.z 26, Enc.v n]) = some (f d a n) := by
  simp [sh]

theorem sl_glue (f : SReg → BitVec 38 → Instr) (d : SReg) (m : BitVec 38) : sl f (glue [Enc.v d, Enc.v m]) = some (f d m) := by simp [sl]

theorem mem_glue (f : Fmt → SReg → SReg → BitVec 27 → Instr) (t : Fmt) (d a : SReg) (m : BitVec 27) :
    mem f (glue [Enc.v d, Enc.v a, Enc.ty t, Enc.v m]) = some (f t d a m) := by
  simp [mem]

theorem ord_glue (f : Fmt → Scope → SReg → SReg → BitVec 24 → Instr) (t : Fmt) (s : Scope) (d a : SReg) (m : BitVec 24) :
    ord f (glue [Enc.v d, Enc.v a, Enc.ty t, (3, s.code), Enc.v m]) = some (f t s d a m) := by
  have hcut : cut [6, 6, 5, 3, 24] (glue [Enc.v d, Enc.v a, Enc.ty t, (3, s.code), Enc.v m]) =
      [d.toNat, a.toNat, t.code, s.code, m.toNat] := by simp
  rw [ord, hcut]
  simp

theorem sys_glue (d a : SReg) (n : BitVec 12) : sys (glue [Enc.v d, Enc.v a, Enc.v n, Enc.z 20]) = some (d, a, n) := by
  have hcut : cut [6, 6, 12, 20] (glue [Enc.v d, Enc.v a, Enc.v n, Enc.z 20]) = [d.toNat, a.toNat, n.toNat, 0] := by simp
  rw [sys, hcut]
  simp

theorem atomic_glue (f : Atomic → Instr) (o : Atomic) : atomic f (glue (Enc.atomic o)) = some (f o) := by simp [atomic, Enc.atomic]

theorem gab_glue (f : GenNo → SReg → SReg → Instr) (g : GenNo) (a b : SReg) :
    gab f (glue [Enc.v g, Enc.z 3, Enc.v a, Enc.v b, Enc.z 26]) = some (f g a b) := by
  simp [gab]

theorem ga_glue (f : GenNo → SReg → Instr) (g : GenNo) (a : SReg) :
    ga f (glue [Enc.v g, Enc.z 3, Enc.v a, Enc.z 32]) = some (f g a) := by simp [ga]

theorem ma_glue (f : MapNo → SReg → Instr) (m : MapNo) (a : SReg) :
    ma f (glue [Enc.v m, Enc.z 2, Enc.v a, Enc.z 32]) = some (f m a) := by simp [ma]

theorem vv_glue (f : VV → Instr) (o : VV) : vv f (glue (Enc.vv o)) = some (f o) := by simp [vv, Enc.vv]

theorem vi_glue (f : VI → Instr) (o : VI) : vi f (glue (Enc.vi o)) = some (f o) := by simp [vi, Enc.vi]

theorem strided_glue (f : Strided → Instr) (o : Strided) : strided f (glue (Enc.strided o)) = some (f o) := by simp [strided, Enc.strided]

theorem indexed_glue (f : Indexed → Instr) (o : Indexed) : indexed f (glue (Enc.indexed o)) = some (f o) := by simp [indexed, Enc.indexed]

theorem tensor_glue (f : TensorIx → Instr) (o : TensorIx) : tensor f (glue (Enc.tensor o)) = some (f o) := by simp [tensor, Enc.tensor]

theorem reduce_glue (f : Reduce → Instr) (o : Reduce) : reduce f (glue (Enc.reduce o)) = some (f o) := by simp [reduce, Enc.reduce]

theorem xp_glue (f : Fmt → VNo → VNo → Instr) (t : Fmt) (d a : VNo) : xp f (glue [Enc.v d, Enc.v a, Enc.ty t, Enc.z 21]) = some (f t d a) := by
  simp [xp]

theorem hq_glue (f : Fmt → RMode → GenNo → VNo → VNo → SReg → SReg → Instr) (t : Fmt) (r : RMode) (g : GenNo) (d a : VNo) (p q : SReg) :
    hq f (glue [Enc.v d, Enc.v a, Enc.v p, Enc.v q, Enc.ty t, Enc.rm r, Enc.v g, Enc.z 3]) = some (f t r g d a p q) := by
  simp [hq]

theorem mask2_glue (f : MaskNo → MaskNo → MaskNo → MaskNo → Instr) (d a b m : MaskNo) :
    mask2 f (glue [Enc.v d, Enc.z 5, Enc.z 5, Enc.v a, Enc.z 5, Enc.v b, Enc.v m, Enc.z 13]) = some (f d a b m) := by
  simp [mask2]

theorem maskv_glue (f : VNo → MaskNo → MaskNo → Instr) (d : VNo) (a m : MaskNo) :
    maskv f (glue [Enc.v d, Enc.z 5, Enc.v a, Enc.z 9, Enc.v m, (5, 16), Enc.z 8]) = some (f d a m) := by
  simp [maskv]

theorem mo_glue (f : MaskNo → SReg → BitVec 34 → Instr) (m : MaskNo) (a : SReg) (n : BitVec 34) :
    mo f (glue [Enc.v m, Enc.v a, Enc.v n]) = some (f m a n) := by
  simp [mo]

end Dec

/-! The words -/

/-- The operands of an instruction fill the word, and the decoder reads them as the instruction. -/
def Instr.Reads (i : Instr) : Prop :=
  ∀ (tag op : Nat) (fs : Enc.Fields), Enc.layout i = some (tag, op, fs) →
    widthSum (fs.map Prod.fst) = 44 ∧ decodeOperands tag op (glue fs) = some i

theorem reads_of {i : Instr} {tag op : Nat} {fs : Enc.Fields} {f : Nat → Option Instr} (hl : Enc.layout i = some (tag, op, fs))
    (hr : (Dec.rows tag)[op]? = some (some f)) (hw : widthSum (fs.map Prod.fst) = 44) (hf : f (glue fs) = some i) : i.Reads := by
  intro tag' op' fs' h
  obtain ⟨rfl, rfl, rfl⟩ : tag = tag' ∧ op = op' ∧ fs = fs' := by simpa [hl] using h
  exact ⟨hw, by rw [decodeOperands, hr]; exact hf⟩

/-- Each row of the decoder's tables reads what the encoder's row of the same opcode lays out; an event has no row (R75). -/
theorem reads (i : Instr) : i.Reads := by
  cases i with
  | add d a s | sub d a s | mul d a s | and d a s | or d a s | xor d a s | shl d a s | shr d a s | sra d a s | renq d a s | barar d a s
  | bartry d a s | mdep d a s | mrd d a s | mtake d a s | mtrydep d a s | mtryrd d a s | mtrytk d a s | mwithdraw d a s | clgrp d a s =>
    exact reads_of rfl rfl rfl (Dec.ss_glue ..)
  | mulh u d a s | div u d a s | rem u d a s | min u d a s | max u d a s =>
    exact reads_of rfl rfl rfl (Dec.su_glue ..)
  | cmp c d a s | cmpi c d a m | lea d a s h m | ext sg d a p l | amocas d a s c t sc o | fence k s | yield n | seqget s d a | trap n
  | barinit a s c | mxfmt a s c | mxcfg n a | gset g w a | gget d g w | gdraw d g | mapset m d a | mapbind a m | mapbindU a
  | rshd d a s c m1 m2 p | rshdq d a s m1 m2 | clstatCc d s | clstatGrp d s | vlda c a s | xperm d a p | xcat d a s n | mxzero c n
  | vcvt d a p s m t r g | vcmp c h d a s m t | vsel d a s k m t | vbcast d a m t | vslide u n d a m | vcmpi c n d a m t | vmnot d x m
  | vupd t a s | gfill d g a t m | gfillS d g t m | vaccr d a p m | vaccw a s p m | vsdrain c a s k t r g n cc nt id | vsa c a s nt
  | br c a s o | jmp d o | lpset l s a m | lpend l o | idem o =>
    exact reads_of rfl rfl rfl (by simp)
  | pf l a m => exact reads_of rfl rfl rfl (by cases l <;> simp)
  | rsys d n => exact reads_of rfl rfl rfl (by rw [Enc.z_six, Dec.sys_glue]; rfl)
  | wsys n a => exact reads_of rfl rfl rfl (by rw [Enc.z_six, Dec.sys_glue]; rfl)
  | xsys d n a => exact reads_of rfl rfl rfl (by rw [Dec.sys_glue])
  | sel d a s c | appt d a s c =>
    exact reads_of rfl rfl rfl (Dec.s4_glue ..)
  | addi d a m | muli d a m | andi d a m | ori d a m | xori d a m =>
    exact reads_of rfl rfl rfl (Dec.si_glue ..)
  | shli d a n | shri d a n | srai d a n =>
    exact reads_of rfl rfl rfl (Dec.sh_glue ..)
  | li d m | lui d m =>
    exact reads_of rfl rfl rfl (Dec.sl_glue ..)
  | clz d a | popc d a | prio d a | tmask d a | cpld d a | cpst d a | cpg d a | cpsc d a
  | cpmem d a | rgclaim d a | rgtry d a | clrun d a | nmrun d a | nmstat d a | nmstop d a | jmpr d a =>
    exact reads_of rfl rfl rfl (Dec.da_glue ..)
  | ld t d a m | st t c a m =>
    exact reads_of rfl rfl rfl (Dec.mem_glue ..)
  | ldacq t s d a m | strel t s c a m =>
    exact reads_of rfl rfl rfl (Dec.ord_glue ..)
  | amo a | red a =>
    exact reads_of rfl rfl rfl (Dec.atomic_glue ..)
  | qalign | tend | mxsync | start | nop =>
    exact reads_of rfl rfl rfl (Dec.op0_glue ..)
  | seqw a s | barexp a s | barwait a s | waita a s | rgfill a s | rgwaitf a s | rgrel a s
  | clchunk a s =>
    exact reads_of rfl rfl rfl (Dec.ab_glue ..)
  | tret | tretSkip | tretAbandon | mxgo | mxgoResume | modeTimed | modeInter =>
    exact reads_of rfl rfl rfl rfl
  | tack d | cpcancel d =>
    exact reads_of rfl rfl rfl (Dec.d1_glue ..)
  | tsave a | mxcfgl a =>
    exact reads_of rfl rfl rfl (Dec.a1_glue ..)
  | mxcancel d | mxprog d =>
    exact reads_of rfl rfl rfl (Dec.d1v0_glue ..)
  | mxcancelAll d | mxprogQ d =>
    exact reads_of rfl rfl rfl (Dec.d1v1_glue ..)
  | gskip g a s | gkey g a s =>
    exact reads_of rfl rfl rfl (Dec.gab_glue ..)
  | gsave g a | gload g a =>
    exact reads_of rfl rfl rfl (Dec.ga_glue ..)
  | mapld m a | mapst m a =>
    exact reads_of rfl rfl rfl (Dec.ma_glue ..)
  | vld o | vldt o | vldb o | vlpf o | vst o =>
    exact reads_of rfl rfl rfl (Dec.strided_glue ..)
  | vldg o | vsc o =>
    exact reads_of rfl rfl rfl (Dec.indexed_glue ..)
  | vldx o | vsx o =>
    exact reads_of rfl rfl rfl (Dec.tensor_glue ..)
  | vldm m a n | vsm m a n =>
    exact reads_of rfl rfl rfl (Dec.mo_glue ..)
  | xtr t d a | xunpk t d a | xpk t d a =>
    exact reads_of rfl rfl rfl (Dec.xp_glue ..)
  | xhq t r g d a p q | xhdq t r g d a p q =>
    exact reads_of rfl rfl rfl (Dec.hq_glue ..)
  | vadd o | vsub o | vmul o | vfma o | vfms o | vmin o | vmax o | vabs o | vneg o | vdiv o
  | vsqrt o | vand o | vor o | vxor o | vnot o | vshl o | vshr o | vsra o | vadds o | vsubs o | vcvtmx o | vdqmx o | vmov o | vperm o
  | vexp2 o | vlog2 o | vrcp o | vrsqrt o | vsinT o | vcosT o =>
    exact reads_of rfl rfl rfl (Dec.vv_glue ..)
  | viota o | vaddi o | vmuli o | vandi o | vori o | vshli o | vshri o | vli o =>
    exact reads_of rfl rfl rfl (Dec.vi_glue ..)
  | vmand d x y m | vmor d x y m | vmxor d x y m =>
    exact reads_of rfl rfl rfl (Dec.mask2_glue ..)
  | vmpop d x m | vmfirst d x m =>
    exact reads_of rfl rfl rfl (Dec.maskv_glue ..)
  | vredsum o | vredmax o | vredmin o | vdot o =>
    exact reads_of rfl rfl rfl (Dec.reduce_glue ..)
  | _ => exact fun _ _ _ h => nomatch h

/-! The statement -/

/-- An opcode that decodes is assigned. -/
theorem assigned_of_decodeOperands {tag op x : Nat} {i : Instr} (h : decodeOperands tag op x = some i) : assigned tag op = true := by
  unfold decodeOperands at h
  unfold assigned
  split at h
  · rfl
  · nomatch h

/-- An assigned opcode fits its field, and so does its tag (R75). -/
theorem assigned_lt {tag op : Nat} (h : assigned tag op = true) : tag < 8 ∧ op < 128 := by
  have hop : op < (Dec.rows tag).length := by
    by_contra hge
    rw [assigned, List.getElem?_eq_none (by omega)] at h
    nomatch h
  match tag with
  | 0 | 1 | 2 | 3 | 4 | 5 | 6 => exact ⟨by decide, Nat.lt_of_lt_of_le hop (by decide)⟩
  | n + 7 => exact absurd hop (Nat.not_lt_zero _)

/-- A word is cut into its tag, its SYNC field, its opcode and its operands (R65). -/
theorem cut_word {tag op : Nat} {fs : Enc.Fields} (sync : BitVec 10) (ht : tag < 8) (ho : op < 128) (hw : widthSum (fs.map Prod.fst) = 44) :
    cut [3, 10, 7, 44] (BitVec.ofNat 64 (glue ((3, tag) :: Enc.v sync :: (7, op) :: fs))).toNat = [tag, sync.toNat, op, glue fs] := by
  have hfs := glue_lt fs
  rw [hw] at hfs
  have hglue : glue ((3, tag) :: Enc.v sync :: (7, op) :: fs) = glue [(3, tag), Enc.v sync, (7, op), (44, glue fs)] := by
    simp only [glue, List.map_cons, List.map_nil, widthSum, hw, Nat.mod_eq_of_lt hfs, Nat.pow_zero, Nat.mul_one, Nat.add_zero]
  have hlt : glue [(3, tag), Enc.v sync, (7, op), (44, glue fs)] < 2 ^ 64 := glue_lt _
  rw [hglue, BitVec.toNat_ofNat, Nat.mod_eq_of_lt hlt, cut_glue_field (ws := [10, 7, 44]) ht _ rfl,
    cut_glue_v (ws := [7, 44]) rfl, cut_glue_field (ws := [44]) ho _ rfl, cut_glue_field (ws := []) hfs _ rfl, cut_nil]

/-- Settles O57: a word is cut into the fields that it was joined from, and the decoder's row reads the encoder's. -/
theorem decodeReadsWhatEncodeWrites : Obligations.DecodeReadsWhatEncodeWrites := by
  intro i sync w hok hword henc
  have hmap : encode sync i = (Enc.layout i).map fun (tag, op, fs) => BitVec.ofNat 64 (glue ((3, tag) :: Enc.v sync :: (7, op) :: fs)) := by
    cases i with
    | unassignedEncoding x => exact absurd rfl (hword x)
    | _ => rfl
  rw [hmap, Option.map_eq_some_iff] at henc
  obtain ⟨⟨tag, op, fs⟩, hl, rfl⟩ := henc
  obtain ⟨hw, hd⟩ := reads i tag op fs hl
  have hassigned := assigned_of_decodeOperands hd
  obtain ⟨ht, ho⟩ := assigned_lt hassigned
  unfold decodeWord
  rw [cut_word sync ht ho hw]
  simp [hassigned, hd, hok]

end Sys2Proof
end

section
/-! PROOFS. The unassigned opcodes, and words that the spec writes out (R65, R73, R75, R76). -/

namespace Sys2Proof

/-- The tables list every opcode of R75 and no other (R76). -/
theorem unassigned_ranges : ∀ op : Nat, op < 128 →
    (assigned 0 op = false ↔ op = 0x1F ∨ (0x2A ≤ op ∧ op ≤ 0x2F) ∨ op = 0x3F ∨ (0x5D ≤ op ∧ op ≤ 0x5F) ∨ (0x6D ≤ op ∧ op ≤ 0x6F) ∨ 0x77 ≤ op) ∧
    (assigned 1 op = false ↔ 0x07 < op) ∧ (assigned 2 op = false ↔ 0x06 < op) ∧ (assigned 3 op = false ↔ 0x02 < op) ∧
    (assigned 4 op = false ↔ 0x39 < op) ∧ (assigned 5 op = false ↔ 0x05 < op) ∧ (assigned 6 op = false ↔ 0x08 < op) ∧ assigned 7 op = false := by
  decide +kernel

/-- A word is cut into its four slices (R65). -/
theorem cut_slices (w : Word) : cut [3, 10, 7, 44] w.toNat = [slice w 63 61, slice w 60 51, slice w 50 44, slice w 43 0] := rfl

/-- A word of an unassigned opcode is no instruction (R76, R77). -/
theorem decodeWord_unassigned {w : Word} (h : assigned (slice w 63 61) (slice w 50 44) = false) :
    decodeWord w = .ok (slice w 60 51, .unassignedEncoding w) := by
  unfold decodeWord
  rw [cut_slices]
  simp only [h, Bool.false_eq_true, if_false]

/-- Settles O56: the tables are those of R76, and the words are among those of the tests. -/
theorem specWordsDecodeAsWritten : Obligations.SpecWordsDecodeAsWritten := by
  obtain ⟨hvfma, -⟩ := Tests.test_decode_vector_engine
  obtain ⟨hvld, -⟩ := Tests.test_decode_load_engine
  obtain ⟨-, -, hamo, -⟩ := Tests.test_decode_sequencer
  obtain ⟨-, -, hlpend, -⟩ := Tests.test_decode_control_flow
  obtain ⟨-, -, -, hmxgo⟩ := Tests.test_decode_matrix
  obtain ⟨-, -, -, -, -, hrshd, -⟩ := Tests.test_decode_moraine_and_maps
  obtain ⟨hgskip, -⟩ := Tests.test_decode_flurry
  obtain ⟨-, -, -, -, hnmrun, -⟩ := Tests.test_decode_fabric
  exact ⟨unassigned_ranges, fun _ h => decodeWord_unassigned h, hvfma, hvld, hamo, hlpend, hmxgo, hrshd, hgskip, hnmrun⟩

end Sys2Proof
end

section
/-! PROOFS. The sequencer's arithmetic: what the model computes is what the rules say (R102 to R109). -/

namespace Sys2Proof.Machine

/-! Sums and products, over numbers and over integers -/

theorem add_eq_ofNat (a b : Word) : a + b = BitVec.ofNat 64 (a.toNat + b.toNat) := BitVec.eq_of_toNat_eq (by simp)

theorem mul_eq_ofNat (a b : Word) : a * b = BitVec.ofNat 64 (a.toNat * b.toNat) := BitVec.eq_of_toNat_eq (by simp)

theorem ofInt_sub (w : Nat) (x y : Int) : BitVec.ofInt w (x - y) = BitVec.ofInt w x - BitVec.ofInt w y :=
  BitVec.eq_of_toInt_eq (by rw [BitVec.toInt_sub, BitVec.toInt_ofInt, BitVec.toInt_ofInt, BitVec.toInt_ofInt, Int.sub_bmod_bmod, Int.bmod_sub_bmod])

theorem add_eq_ofInt (a b : Word) : a + b = BitVec.ofInt 64 (a.toInt + b.toInt) := by
  rw [BitVec.ofInt_add, BitVec.ofInt_toInt, BitVec.ofInt_toInt]

theorem sub_eq_ofInt (a b : Word) : a - b = BitVec.ofInt 64 (a.toInt - b.toInt) := by
  rw [ofInt_sub, BitVec.ofInt_toInt, BitVec.ofInt_toInt]

theorem mul_eq_ofInt {w : Nat} (a b : BitVec w) : a * b = BitVec.ofInt w (a.toInt * b.toInt) := by
  rw [BitVec.ofInt_mul, BitVec.ofInt_toInt, BitVec.ofInt_toInt]

theorem toInt_sx {w : Nat} (h : w ≤ 64) (m : BitVec w) : (sx m).toInt = m.toInt := BitVec.toInt_signExtend_of_le h

theorem add_sx_eq_ofInt {w : Nat} (h : w ≤ 64) (a : Word) (m : BitVec w) : a + sx m = BitVec.ofInt 64 (a.toInt + m.toInt) := by
  rw [add_eq_ofInt, toInt_sx h]

theorem mul_sx_eq_ofInt {w : Nat} (h : w ≤ 64) (a : Word) (m : BitVec w) : a * sx m = BitVec.ofInt 64 (a.toInt * m.toInt) := by
  rw [mul_eq_ofInt, toInt_sx h]

theorem sx_eq_ofInt {w : Nat} (h : w ≤ 64) (m : BitVec w) : sx m = BitVec.ofInt 64 m.toInt := by rw [← toInt_sx h, BitVec.ofInt_toInt]

/-! Shifts -/

theorem shiftLeft_eq_ofNat (a : Word) (n : Nat) : a <<< n = BitVec.ofNat 64 (a.toNat * 2 ^ n) :=
  BitVec.eq_of_toNat_eq (by simp [Nat.shiftLeft_eq])

theorem shiftLeft_eq_ofInt (a : Word) (n : Nat) : a <<< n = BitVec.ofInt 64 (a.toInt * 2 ^ n) := by
  rw [shiftLeft_eq_ofNat, BitVec.ofInt_mul, BitVec.ofInt_toInt, BitVec.ofNat_mul, BitVec.ofNat_toNat, BitVec.setWidth_eq]
  congr 1

theorem shiftRight_eq_ofNat (a : Word) (n : Nat) : a >>> n = BitVec.ofNat 64 (a.toNat / 2 ^ n) := by
  refine BitVec.eq_of_toNat_eq ?_
  rw [BitVec.toNat_ushiftRight, Nat.shiftRight_eq_div_pow, BitVec.toNat_ofNat, Nat.mod_eq_of_lt]
  exact Nat.lt_of_le_of_lt (Nat.div_le_self ..) a.isLt

theorem sshiftRight_eq_ofInt (a : Word) (n : Nat) : a.sshiftRight n = BitVec.ofInt 64 (a.toInt / 2 ^ n) := by
  rw [BitVec.sshiftRight, Int.shiftRight_eq_div_pow]
  norm_cast

/-! The words of R102 and R103 -/

/-- The table of R102. -/
theorem evalCond_eq (c : Cond) (a b : Word) : evalCond c a b = Spec.holds c a b := by
  have hbeq : (a == b) = decide (a.toNat = b.toNat) := by simp only [beq_eq_decide, BitVec.toNat_inj]
  cases c <;> simp only [evalCond, Spec.holds, Cond.code, BitVec.slt, BitVec.ult, bne, hbeq, ← decide_not, Nat.not_lt, Int.not_lt, ne_eq]

theorem divWord_eq (u : Bool) (a b : Word) : divWord u a b = Spec.quotient u a b := by
  unfold divWord Spec.quotient
  by_cases hb : b = 0
  · rw [if_pos hb, if_pos (by rw [hb]; rfl)]
    rfl
  · have hb' : b.toNat ≠ 0 := fun h => hb (BitVec.eq_of_toNat_eq h)
    rw [if_neg hb, if_neg hb']
    split
    · rfl
    · split
      · next h =>
        rw [h.1, h.2]
        rfl
      · rfl

theorem remWord_eq (u : Bool) (a b : Word) : remWord u a b = Spec.remainder u a b := by
  have huns : BitVec.ofNat 64 (a.toNat % b.toNat) = a - b * BitVec.ofNat 64 (a.toNat / b.toNat) := by
    have h := Nat.mod_add_div a.toNat b.toNat
    have h2 := congrArg (BitVec.ofNat 64) h
    rw [BitVec.ofNat_add, BitVec.ofNat_mul, BitVec.ofNat_toNat, BitVec.ofNat_toNat, BitVec.setWidth_eq, BitVec.setWidth_eq] at h2
    exact BitVec.eq_sub_iff_add_eq.mpr h2
  have hsgn : BitVec.ofInt 64 (a.toInt.tmod b.toInt) = a - b * BitVec.ofInt 64 (a.toInt.tdiv b.toInt) := by
    rw [Int.tmod_def, ofInt_sub, BitVec.ofInt_mul, BitVec.ofInt_toInt, BitVec.ofInt_toInt]
  unfold remWord Spec.remainder
  by_cases hb : b = 0
  · rw [if_pos hb, if_pos (by rw [hb]; rfl)]
  · have hb' : b.toNat ≠ 0 := fun h => hb (BitVec.eq_of_toNat_eq h)
    rw [if_neg hb, if_neg hb']
    split
    · rw [huns]
      simp [Spec.quotient, hb']
    · split
      · next h =>
        rw [h.1, h.2]
        rfl
      · next h =>
        rw [hsgn, Spec.quotient, if_neg hb', if_neg Bool.false_ne_true, if_neg h]

theorem mulHigh_eq (u : Bool) (a b : Word) : mulHigh u a b = Spec.high u a b := by
  unfold mulHigh Spec.high
  split
  · refine BitVec.eq_of_toNat_eq ?_
    have hab : a.toNat * b.toNat < 2 ^ 64 * 2 ^ 64 := Nat.mul_lt_mul'' a.isLt b.isLt
    have ha : a.toNat < 2 ^ 128 := Nat.lt_of_lt_of_le a.isLt (by decide)
    have hb : b.toNat < 2 ^ 128 := Nat.lt_of_lt_of_le b.isLt (by decide)
    simp only [BitVec.extractLsb'_toNat, BitVec.toNat_mul, BitVec.toNat_ofNat, BitVec.truncate_eq_setWidth, BitVec.toNat_setWidth,
      Nat.mod_eq_of_lt ha, Nat.mod_eq_of_lt hb, Nat.shiftRight_eq_div_pow]
    generalize a.toNat * b.toNat = z at hab
    omega
  · refine BitVec.eq_of_toNat_eq ?_
    rw [mul_eq_ofInt, BitVec.toInt_signExtend_of_le (by decide), BitVec.toInt_signExtend_of_le (by decide), BitVec.extractLsb'_toNat,
      BitVec.toNat_ofInt, BitVec.toNat_ofInt, Nat.shiftRight_eq_div_pow, Int.fdiv_eq_ediv_of_nonneg _ (by decide)]
    generalize a.toInt * b.toInt = z
    omega

theorem minWord_eq (u : Bool) (a b : Word) :
    minWord u a b = if (if u then a.toNat ≤ b.toNat else a.toInt ≤ b.toInt) then a else b := by
  cases u <;> simp only [minWord, BitVec.slt, BitVec.ult, Bool.false_eq_true, if_true, if_false, decide_eq_true_eq, ← Nat.not_le, ← Int.not_le, ite_not]

theorem maxWord_eq (u : Bool) (a b : Word) :
    maxWord u a b = if (if u then b.toNat ≤ a.toNat else b.toInt ≤ a.toInt) then a else b := by
  cases u <;> simp only [maxWord, BitVec.slt, BitVec.ult, Bool.false_eq_true, if_true, if_false, decide_eq_true_eq, ← Nat.not_le, ← Int.not_le, ite_not]

theorem select_eq (a b c : Word) : (if c ≠ 0 then a else b) = if c.toNat = 0 then b else a := by
  have hc : c = 0 ↔ c.toNat = 0 := BitVec.toNat_inj.symm
  simp only [ne_eq, ite_not, hc]

/-- The upper immediate of R106. -/
theorem upper_eq (m : BitVec 38) : zx m <<< 26 = BitVec.ofNat 64 (m.toNat * 2 ^ 26) := by
  have hm : (zx m).toNat = m.toNat := BitVec.toNat_setWidth_of_le (by decide)
  rw [shiftLeft_eq_ofNat, hm]

/-- The scaled sum of R108. -/
theorem scaled_eq (a b : Word) (sh : BitVec 3) (m : BitVec 23) :
    a + (b <<< sh.toNat) + sx m = BitVec.ofInt 64 (a.toInt + b.toInt * 2 ^ sh.toNat + m.toInt) := by
  rw [shiftLeft_eq_ofInt, sx_eq_ofInt (by decide), BitVec.ofInt_add, BitVec.ofInt_add, BitVec.ofInt_toInt]

/-! Fields and counts of bits (R107, R109) -/

theorem testBit_top {f n : Nat} (h : f < 2 ^ (n + 1)) : f.testBit n = decide (2 ^ n ≤ f) := by
  by_cases hf : f < 2 ^ n
  · rw [Nat.testBit_lt_two_pow hf, decide_eq_false (by omega)]
  · have hdiv : f / 2 ^ n = 1 := (Nat.div_eq_iff (Nat.two_pow_pos n)).mpr (by omega)
    rw [Nat.testBit_eq_decide_div_mod_eq, hdiv, decide_eq_true (Nat.le_of_not_lt hf)]
    rfl

theorem leadingZeros_eq (n : Nat) {x : Nat} (h : x < 2 ^ n) : leadingZeros x n = if x = 0 then n else n - 1 - x.log2 := by
  induction n with
  | zero => simp [leadingZeros, show x = 0 by simpa using h]
  | succ n ih =>
    rw [leadingZeros, testBit_top h]
    by_cases hx : x < 2 ^ n
    · rw [decide_eq_false (by omega), if_neg Bool.false_ne_true, ih hx]
      by_cases h0 : x = 0
      · simp [h0, Nat.add_comm]
      · have := (Nat.log2_lt h0).mpr hx
        simp only [h0, if_false]
        omega
    · have h0 : x ≠ 0 := by
        rintro rfl
        exact hx (Nat.two_pow_pos n)
      have h1 := (Nat.log2_lt h0).mpr h
      have h2 := mt (Nat.log2_lt h0).mp hx
      rw [decide_eq_true (by omega), if_pos rfl, if_neg h0]
      omega

theorem popc_eq (w x : Nat) : Flurry.popc x w = (List.range w).countP fun i => x.testBit i := by
  induction w generalizing x with
  | zero => rfl
  | succ w ih =>
    rw [Flurry.popc, ih, List.range_succ_eq_map, List.countP_cons, List.countP_map, Nat.add_comm]
    congr 1
    · refine List.countP_congr fun i _ => ?_
      simp [Nat.testBit_succ]
    · rw [Nat.testBit_zero]
      rcases Nat.mod_two_eq_zero_or_one x with h | h <;> simp [h]

theorem extractField_eq (signed : Bool) (a : Word) (pos n : Nat) : extractField signed a pos (n + 1) = Spec.field signed a pos (n + 1) := by
  have htop := testBit_top (Nat.mod_lt (a.toNat / 2 ^ pos) (Nat.two_pow_pos (n + 1)))
  simp only [extractField, Spec.field, Nat.shiftRight_eq_div_pow, Nat.add_sub_cancel, htop, Bool.and_eq_true, decide_eq_true_eq]
  norm_cast

/-! The words -/

/-- What a word of arithmetic that only writes a register computes (R101 to R109), where what it reads is what its registers hold. -/
theorem exec_scalarResult {s : State} {i : Instr} {sd : SReg} {x : Word} (hr : ∀ r, s.rdS .sq r = s.sReg r)
    (h : Spec.scalarResult s.sReg i = some (sd, x)) : exec i s = scalar sd x s := by
  have word {d : SReg} {y : Word} (hx : some (d, y) = some (sd, x)) {z : Word} (hz : z = y) : scalar d z s = scalar sd x s := by
    cases hx
    rw [hz]
  cases i with
  | add d a b => exact word h (by rw [hr, hr]; exact add_eq_ofNat ..)
  | sub d a b => exact word h (by rw [hr, hr]; exact sub_eq_ofInt ..)
  | mul d a b => exact word h (by rw [hr, hr]; exact mul_eq_ofNat ..)
  | mulh u d a b => exact word h (by rw [hr, hr]; exact mulHigh_eq ..)
  | div u d a b => exact word h (by rw [hr, hr]; exact divWord_eq ..)
  | rem u d a b => exact word h (by rw [hr, hr]; exact remWord_eq ..)
  | and d a b | or d a b | xor d a b => exact word h (by rw [hr, hr])
  | shl d a b => exact word h (by rw [hr, hr]; exact shiftLeft_eq_ofNat ..)
  | shr d a b => exact word h (by rw [hr, hr]; exact shiftRight_eq_ofNat ..)
  | sra d a b => exact word h (by rw [hr, hr]; exact sshiftRight_eq_ofInt ..)
  | min u d a b => exact word h (by rw [hr, hr]; exact minWord_eq ..)
  | max u d a b => exact word h (by rw [hr, hr]; exact maxWord_eq ..)
  | cmp c d a b => exact word h (by rw [hr, hr, evalCond_eq]; rfl)
  | sel d a b c => exact word h (by rw [hr, hr, hr]; exact select_eq ..)
  | addi d a m => exact word h (by rw [hr]; exact add_sx_eq_ofInt (by decide) ..)
  | muli d a m => exact word h (by rw [hr]; exact mul_sx_eq_ofInt (by decide) ..)
  | andi d a m | ori d a m | xori d a m => exact word h (by rw [hr]; rfl)
  | shli d a n => exact word h (by rw [hr]; exact shiftLeft_eq_ofNat ..)
  | shri d a n => exact word h (by rw [hr]; exact shiftRight_eq_ofNat ..)
  | srai d a n => exact word h (by rw [hr]; exact sshiftRight_eq_ofInt ..)
  | cmpi c d a m => exact word h (by rw [hr, evalCond_eq]; rfl)
  | li d m => exact word h (sx_eq_ofInt (by decide) m)
  | lui d m => exact word h (upper_eq m)
  | clz d a => exact word h (by rw [hr, leadingZeros_eq 64 (s.sReg a).isLt])
  | popc d a => exact word h (by rw [hr, popc_eq]; rfl)
  | lea d a b sh m => exact word h (by rw [hr, hr]; exact scaled_eq ..)
  | ext sg d a p n => exact word h (by rw [hr]; exact extractField_eq ..)
  | _ => nomatch h

end Sys2Proof.Machine
end

section
/-! PROOFS. Timed mode: a word's result joins the writes in flight, and lands in its register when it is due (R85, R86). -/

namespace Sys2Proof.Machine

/-! At issue -/

/-- With no unordered write on record, a read gives what the register holds. -/
theorem rdS_noRaces {s : State} (h : s.here.races = []) (e : Eng) (r : SReg) : s.rdS e r = s.sReg r := by
  unfold State.rdS State.sReg
  split
  · rfl
  · rw [readReg_inOrder _ _ (by simp [h])]
    simp [Core.regNat]

/-- The writes in flight that a scalar result adds: none for s0, which stays 0 (R69, R85). -/
def inFlight (k : Core) (e : Eng) (sd : SReg) (x : Word) : List Pend :=
  if sd = 0 then [] else [⟨k.cyc + (k.en e).lat, .s sd.toNat, ones 64, x.toNat⟩]

/-- In timed mode a write of a scalar register joins those in flight (R85). -/
theorem wrS_timed {s : State} (ht : s.here.sys.timed = true) (e : Eng) (sd : SReg) (x : Word) :
    (s.wrS e sd x).rest = s.rest ∧ (∀ c, c ≠ s.cur.core → (s.wrS e sd x).core c = s.core c) ∧
      (s.wrS e sd x).here = { s.here with pend := s.here.pend ++ inFlight s.here e sd x } := by
  unfold State.wrS inFlight
  split
  · exact ⟨rfl, fun _ _ => rfl, by rw [List.append_nil]⟩
  · unfold State.wr Core.writeReg
    rw [here_upd, if_pos ht]
    exact ⟨rfl, fun c hc => core_upd_other _ _ hc, rfl⟩

/-- Taking tokens leaves the latency that stands ready. -/
theorem lat_popOne (f e : Eng) (k : Core) (q : Nat) : ((Core.popOne f k q).en e).lat = (k.en e).lat := by
  unfold Core.popOne
  split
  · rfl
  · rw [en_onEn]
    split
    · next h => rw [h]; rfl
    · rfl

theorem lat_popFold (f e : Eng) (l : List Nat) (k : Core) : ((l.foldl (Core.popOne f) k).en e).lat = (k.en e).lat := by
  induction l generalizing k with
  | nil => rfl
  | cons q r ih => rw [List.foldl_cons, ih, lat_popOne]

/-- A word starts with its latency (R86). -/
theorem lat_begin (k : Core) (e : Eng) (i : Instr) (sync : Nat) : ((k.begin e i sync).en e).lat = latency i := by
  unfold Core.begin
  dsimp only
  split
  · simp
  · rw [en_onEn, if_pos rfl, lat_popFold]
    simp

/-! What a write that lands leaves of a core -/

/-- A write names a scalar register: it goes there, or its operation at a bank gives its result there. -/
def Pend.names (p : Pend) (r : Nat) : Prop := p.dst = .s r ∨ ∃ key op, p.dst = .bank key op r

theorem pend_setReg (k : Core) (d : Dest) (x : Nat) : (k.setReg d x).pend = k.pend := by
  cases d with
  | s n => unfold Core.setReg; dsimp only; split <;> rfl
  | _ => rfl

theorem pend_land (tick : Nat) (seen : List Pend) (k : Core) (p : Pend) : (k.land tick seen p).pend = k.pend := by
  unfold Core.land
  split
  · exact pend_setReg ..
  · exact pend_setReg ..
  · dsimp only
    split
    · split
      · rfl
      · exact pend_setReg ..
    · exact pend_setReg ..

theorem setReg_s (k : Core) (d : Dest) (x r : Nat) (h : r = 0 ∨ d ≠ .s r) : Bank.get 0 (k.setReg d x).regs.s r = Bank.get 0 k.regs.s r := by
  cases d with
  | s n =>
    unfold Core.setReg
    dsimp only
    split
    · rfl
    · next hn =>
      refine Bank.get_set_other _ _ _ ?_
      rintro rfl
      rcases h with rfl | h
      · exact hn rfl
      · exact h rfl
  | _ => rfl

theorem land_s (tick : Nat) (seen : List Pend) (k : Core) (p : Pend) {r : Nat} (h : r = 0 ∨ p.dst ≠ .s r) :
    Bank.get 0 (k.land tick seen p).regs.s r = Bank.get 0 k.regs.s r := by
  unfold Core.land
  split
  · exact setReg_s _ _ _ _ (.inr nofun)
  · exact setReg_s _ _ _ _ (.inr nofun)
  · dsimp only
    split
    · split
      · rfl
      · exact setReg_s _ _ _ _ h
    · exact setReg_s _ _ _ _ h

/-- A write that lands while a nest is at work is recorded for the nest alone (R228). -/
theorem landSeen_spec (tick : Nat) (seen : List Pend) (k : Core) (p : Pend) :
    (k.landSeen tick seen p).pend = k.pend ∧ (k.landSeen tick seen p).regs = (k.land tick seen p).regs := by
  unfold Core.landSeen
  dsimp only
  split <;> exact ⟨pend_land .., rfl⟩

theorem pend_landOne (s : State) (c : Nat) (seen : List Pend) (p : Pend) (d : Nat) : ((s.landOne c seen p).core d).pend = (s.core d).pend := by
  have hset (u : State) (hu : u.core d = s.core d) (seen : List Pend) (p : Pend) :
      ((u.setCore c ((s.core c).landSeen s.free seen p)).core d).pend = (s.core d).pend := by
    rw [core_setCore]
    split
    · next hd => rw [(landSeen_spec ..).1, hd]
    · rw [hu]
  unfold State.landOne
  split
  · split <;> rfl
  · split
    · next hb =>
      rw [(bankOp_spec hb).1]
      exact hset _ rfl _ _
    · rfl
  · exact hset _ rfl _ _

/-- A write that lands leaves the scalar registers that it does not name, and s0 (R69, R85). -/
theorem landOne_s (s : State) (c : Nat) (seen : List Pend) (p : Pend) {r : Nat} (h : r = 0 ∨ ¬ p.names r) :
    Bank.get 0 ((s.landOne c seen p).core c).regs.s r = Bank.get 0 (s.core c).regs.s r := by
  unfold State.landOne
  split
  · split <;> rfl
  · next key op sd hdst =>
    split
    · rw [core_setCore, if_pos rfl, (landSeen_spec ..).2, land_s]
      exact h.imp_right fun hn hs => hn (.inr ⟨key, op, by cases hs; exact hdst⟩)
    · rfl
  · rw [core_setCore, if_pos rfl, (landSeen_spec ..).2, land_s]
    exact h.imp_right fun hn hs => hn (.inl hs)

/-- No other destination has the number of a scalar register of the file. -/
theorem same_s {d : Dest} {n : Nat} (hn : n < 64) (h : d.same (.s n) = true) : d = .s n := by
  have hcode : d.code = n := of_decide_eq_true h
  cases d <;> simp only [Dest.code] at hcode
  case s m => rw [hcode]
  all_goals omega

/-- A whole write of a scalar register, of which no sibling has landed, leaves its value there (R85). -/
theorem landOne_whole (s : State) (c : Nat) (seen : List Pend) (due : Nat) {r : SReg} (x : Word) (hr : r ≠ 0)
    (hseen : ∀ q ∈ seen, q.dst ≠ .s r.toNat) :
    Bank.get 0 ((s.landOne c seen ⟨due, .s r.toNat, ones 64, x.toNat⟩).core c).regs.s r.toNat = x := by
  have hsib : Pend.siblings ⟨due, .s r.toNat, ones 64, x.toNat⟩ seen = [] := by
    rw [Pend.siblings, List.filter_eq_nil_iff]
    intro q hq hs
    rw [Bool.and_eq_true] at hs
    exact hseen q hq (same_s r.isLt hs.2)
  have hblend : blend ((s.core c).regNat (.s r.toNat)) x.toNat (ones 64) = x.toNat := blend_ones _ _ _ (BitVec.isLt _) x.isLt
  have hr0 : r.toNat ≠ 0 := fun h => hr (BitVec.eq_of_toNat_eq h)
  have hland : (s.landOne c seen ⟨due, .s r.toNat, ones 64, x.toNat⟩).core c =
      (s.core c).landSeen s.free seen ⟨due, .s r.toNat, ones 64, x.toNat⟩ := by
    simp [State.landOne]
  rw [hland, (landSeen_spec ..).2]
  simp [Core.land, hsib, hblend, Core.setReg, hr0]

/-! Landing one after another -/

theorem pend_landSeq (c : Nat) (seen l : List Pend) (s : State) (d : Nat) : ((State.landSeq c seen l s).core d).pend = (s.core d).pend := by
  induction l generalizing s seen with
  | nil => rfl
  | cons p l ih => rw [State.landSeq, ih, pend_landOne]

theorem landSeq_s (c : Nat) (seen l : List Pend) (s : State) {r : Nat} (h : r = 0 ∨ ∀ p ∈ l, ¬ p.names r) :
    Bank.get 0 ((State.landSeq c seen l s).core c).regs.s r = Bank.get 0 (s.core c).regs.s r := by
  induction l generalizing s seen with
  | nil => rfl
  | cons p l ih =>
    rw [State.landSeq, ih _ _ (h.imp_right fun hl q hq => hl q (List.mem_cons_of_mem _ hq)),
      landOne_s _ _ _ _ (h.imp_right fun hl => hl p List.mem_cons_self)]

/-- What lands does not mark a register that it does not name. -/
theorem marks_dst {p q : Pend} {r : Nat} (h : ¬ p.names r) (hq : q ∈ p.marks) : q.dst ≠ .s r := by
  unfold Pend.marks at hq
  split at hq
  · next key op sd hdst =>
    obtain rfl := List.mem_singleton.mp hq
    intro hs
    cases hs
    exact h (.inr ⟨key, op, hdst⟩)
  · obtain rfl := List.mem_singleton.mp hq
    exact fun hs => h (.inl hs)

/-- The one write that names a register leaves its value there, whatever lands before it and after it (R85). -/
theorem landSeq_whole (c : Nat) (seen l₁ l₂ : List Pend) (s : State) (due : Nat) {r : SReg} (x : Word) (hr : r ≠ 0)
    (hseen : ∀ q ∈ seen, q.dst ≠ .s r.toNat) (h₁ : ∀ p ∈ l₁, ¬ p.names r.toNat) (h₂ : ∀ p ∈ l₂, ¬ p.names r.toNat) :
    Bank.get 0 ((State.landSeq c seen (l₁ ++ ⟨due, .s r.toNat, ones 64, x.toNat⟩ :: l₂) s).core c).regs.s r.toNat = x := by
  induction l₁ generalizing s seen with
  | nil => rw [List.nil_append, State.landSeq, landSeq_s _ _ _ _ (.inr h₂), landOne_whole s c seen due x hr hseen]
  | cons p l₁ ih =>
    rw [List.cons_append, State.landSeq]
    refine ih _ _ (fun q hq => ?_) fun q hq => h₁ q (List.mem_cons_of_mem _ hq)
    rcases List.mem_append.mp hq with hq | hq
    · exact marks_dst (h₁ p List.mem_cons_self) hq
    · exact hseen q hq

theorem perm_insertPend (p : Pend) (l : List Pend) : (insertPend p l).Perm (p :: l) := by
  induction l with
  | nil => exact .refl _
  | cons q l ih =>
    unfold insertPend
    split
    · exact (ih.cons q).trans (.swap p q l)
    · exact .refl _

/-- The order of landing is one of the writes that land. -/
theorem perm_sortPend (l : List Pend) : (sortPend l).Perm l := by
  have hfold (l a : List Pend) : (l.foldl (fun a p => insertPend p a) a).Perm (a ++ l) := by
    induction l generalizing a with
    | nil => rw [List.append_nil]; exact .refl _
    | cons p l ih => exact (ih _).trans (((perm_insertPend p a).append_right l).trans List.perm_middle.symm)
  exact hfold l []

/-- What lands by a cycle (R85). -/
def Core.landing (k : Core) (due : Nat) : List Pend := sortPend (k.pend.filter fun p => decide (p.due ≤ due))

theorem mem_landing {k : Core} {due : Nat} {p : Pend} : p ∈ k.landing due ↔ p ∈ k.pend ∧ p.due ≤ due := by
  rw [Core.landing, (perm_sortPend _).mem_iff, List.mem_filter, decide_eq_true_eq]

theorem landDue_eq (s : State) (c due : Nat) : s.landDue c due =
    State.landSeq c [] ((s.core c).landing due) (s.setCore c { s.core c with pend := (s.core c).pend.filter fun p => decide (due < p.due) }) := rfl

/-- One write among those in flight that is due stands at one place of what lands, and the others are the others that are due. -/
theorem landing_split {k : Core} {before after : List Pend} {p : Pend} {due : Nat} (hk : k.pend = before ++ p :: after) (hp : p.due ≤ due) :
    ∃ l₁ l₂, k.landing due = l₁ ++ p :: l₂ ∧ ∀ q ∈ l₁ ++ l₂, q ∈ before ++ after ∧ q.due ≤ due := by
  obtain ⟨l₁, l₂, hl⟩ := List.append_of_mem (mem_landing.mpr ⟨hk ▸ List.mem_append_right before List.mem_cons_self, hp⟩)
  refine ⟨l₁, l₂, hl, fun q hq => ?_⟩
  have hperm : (l₁ ++ p :: l₂).Perm ((before ++ p :: after).filter fun q => decide (q.due ≤ due)) := by
    rw [← hl, ← hk]
    exact perm_sortPend _
  rw [List.filter_append, List.filter_cons_of_pos (by simpa using hp)] at hperm
  have hothers := (List.perm_middle.symm.trans (hperm.trans List.perm_middle)).cons_inv
  rw [hothers.mem_iff, ← List.filter_append, List.mem_filter, decide_eq_true_eq] at hq
  exact hq

/-! The statement -/

/-- The latency that R86 gives a scalar word. -/
def scalarLatency : Instr → Nat
  | .div _ _ _ _ | .rem _ _ _ _ => 24
  | .mul _ _ _ | .mulh _ _ _ _ | .muli _ _ _ => 3
  | _ => 1

theorem latency_scalarResult {r : SReg → Word} {i : Instr} (h : (Spec.scalarResult r i).isSome = true) : latency i = scalarLatency i := by
  cases i with
  | add | sub | mul | mulh | div | rem | and | or | xor | shl | shr | sra | min | max | cmp | sel | addi | muli | andi | ori | xori
  | shli | shri | srai | cmpi | li | lui | clz | popc | lea | ext => rfl
  | _ => nomatch h

/-- Settles O2: a timed word's result joins the writes in flight under its latency; where writes land, only those that name a register
change it. -/
theorem timedScalarWritesLandLater : Obligations.TimedScalarWritesLandLater := by
  refine ⟨fun s i sd x ht hraces hx => ?_, fun k r i sync hi => ?_, fun s c due r => ?_⟩
  · rw [exec_scalarResult (rdS_noRaces hraces .sq) hx, scalar]
    obtain ⟨hrest, hcores, hhere⟩ := wrS_timed ht .sq sd x
    obtain ⟨t, hdone, hfin, hstill, hregs⟩ := finishes_done (e := .sq) hrest hcores fun f => by rw [State.en, hhere]; rfl
    rw [hhere] at hstill hregs
    exact ⟨t, hdone, hfin, hregs, (of_still hstill).1, congrArg Core.pend hstill⟩
  · rw [lat_begin, latency_scalarResult hi]
    rfl
  · intro k names t
    have hcore : (s.setCore c { k with pend := k.pend.filter fun p => decide (due < p.due) }).core c =
        { k with pend := k.pend.filter fun p => decide (due < p.due) } := by rw [core_setCore, if_pos rfl]
    have ht : t = _ := congrArg (fun u : State => u.core c) (landDue_eq s c due)
    rw [ht]
    refine ⟨?_, ?_, fun hnone => ?_, fun before after d x hk hd hr hothers => ?_⟩
    · rw [pend_landSeq, hcore]
    · rw [landSeq_s _ _ _ _ (.inl rfl), hcore]
    · rw [landSeq_s, hcore]
      refine .inr fun p hp hn => ?_
      obtain ⟨hmem, hdue⟩ := mem_landing.mp hp
      exact absurd (hnone p hmem hn) (Nat.not_lt.mpr hdue)
    · obtain ⟨l₁, l₂, hl, hrest⟩ := landing_split hk hd
      have hnames : ∀ p ∈ l₁ ++ l₂, ¬ p.names r.toNat := fun p hp hn => by
        obtain ⟨hmem, hdue⟩ := hrest p hp
        exact absurd (hothers p hmem hn) (Nat.not_lt.mpr hdue)
      rw [hl]
      exact landSeq_whole c [] l₁ l₂ _ d x hr (List.forall_mem_nil _) (fun p hp => hnames p (List.mem_append_left _ hp))
        fun p hp => hnames p (List.mem_append_right _ hp)

end Sys2Proof.Machine
end

section
/-! PROOFS. Control flow: where a branch, a jump or a loop word takes its engine, and what it tells the others (R89, R90, R113 to R119). -/

namespace Sys2Proof.Machine

/-- Nothing changes but engine e of the core under the cursor, token queues and records of order. -/
def onlyEngine (s t : State) (e : Eng) : Prop := t.rest = s.rest ∧ writesNone s t ∧ ∀ f, f ≠ e → t.en f = s.en f

theorem onlyEngine_refl (s : State) (e : Eng) : onlyEngine s s e := ⟨rfl, ⟨rfl, rfl⟩, fun _ _ => rfl⟩

theorem onlyEngine_trans {s u t : State} {e : Eng} (h : onlyEngine s u e) (g : onlyEngine u t e) : onlyEngine s t e := by
  obtain ⟨hr, ⟨hs, hg⟩, he⟩ := h
  obtain ⟨gr, ⟨gs, gg⟩, ge⟩ := g
  exact ⟨gr.trans hr, ⟨gs.trans hs, gg.trans hg⟩, fun f hf => (ge f hf).trans (he f hf)⟩

@[simp] theorem en_upd (s : State) (f : Core → Core) (e : Eng) : (s.upd f).en e = (f s.here).en e := by rw [State.en, here_upd]

theorem onlyEngine_onEn (s : State) (e : Eng) (g : EngSt → EngSt) : onlyEngine s (s.upd fun k => k.onEn e g) e := by
  refine ⟨rfl, ⟨?_, ?_⟩, fun f hf => ?_⟩
  · rw [here_upd, still_onEn]
  · rw [here_upd, regs_onEn]
  · rw [en_upd, en_onEn, if_neg hf]
    rfl

/-- Engine e leaves its word for dst, by a transfer from src or in sequence; it keeps its loop registers and its control queue (R67, R119). -/
def passes (u t : State) (e : Eng) (dst src : Word) : Prop :=
  onlyEngine u t e ∧ (t.en e).pc = dst ∧ (t.en e).src = src ∧ (t.en e).lc = (u.en e).lc ∧ (t.en e).ctl = (u.en e).ctl

theorem passes_leave (u : State) (e : Eng) (dst src : Word) : passes u (u.upd fun k => k.leave e dst src) e dst src := by
  obtain ⟨hstill, hregs, -, hothers, o, he⟩ := leave_spec u.here e dst src
  have hen : (u.upd fun k => k.leave e dst src).en e = _ := (en_upd _ _ _).trans he
  refine ⟨⟨rfl, ⟨?_, ?_⟩, fun f hf => ?_⟩, ?_⟩
  · rw [here_upd, hstill]
  · rw [here_upd, hregs]
  · rw [en_upd, hothers f hf]
    rfl
  · rw [hen]
    exact ⟨rfl, rfl, rfl, rfl⟩

theorem jumpTo_passes (u : State) (e : Eng) (dst : Word) : goesTo (u.jumpTo e dst) fun t => passes u t e dst (u.en e).pc :=
  ⟨_, rfl, passes_leave u e dst _⟩

theorem done_passes (u : State) (e : Eng) : goesTo (u.done e) fun t => passes u t e ((u.en e).pc + 8) 0 := ⟨_, rfl, passes_leave u e _ 0⟩

/-- A word that may transfer goes to its target, or to the next word. -/
theorem branch_passes (u : State) (e : Eng) (dst : Word) (p : Prop) [Decidable p] : goesTo (if p then u.jumpTo e dst else u.done e) fun t =>
    passes u t e (if p then dst else (u.en e).pc + 8) (if p then (u.en e).pc else 0) := by
  split
  · exact jumpTo_passes u e dst
  · exact done_passes u e

theorem goesTo_imp {r : Res} {P Q : State → Prop} (h : goesTo r P) (hpq : ∀ t, P t → Q t) : goesTo r Q := by
  obtain ⟨t, ht, hp⟩ := h
  exact ⟨t, ht, hpq t hp⟩

/-- What an engine does to its own loop register (R116, R117). -/
theorem setLc_spec (s : State) (e : Eng) (n : BitVec 2) (v : Word) : let u := s.upd fun k => k.setLc e n v
    onlyEngine s u e ∧ (u.en e).pc = (s.en e).pc ∧ (u.en e).ctl = (s.en e).ctl ∧
      ∀ m, Bank.get 0 (u.en e).lc m = if m = n.toNat then v else Bank.get 0 (s.en e).lc m := by
  have hen : (s.upd fun k => k.setLc e n v).en e = { s.en e with lc := Bank.set 0 (s.en e).lc n.toNat v } := by
    rw [en_upd, Core.setLc, en_onEn, if_pos rfl]
    rfl
  refine ⟨onlyEngine_onEn s e _, ?_, ?_, fun m => ?_⟩
  · rw [hen]
  · rw [hen]
  · rw [hen, Bank.get_set]

/-- A loop word that ends a round goes back with one round less to go, and else clears the loop register (R117). -/
theorem lpend_passes (s : State) (lc : BitVec 2) (off : BitVec 38) {e : Eng} (he : s.engHere = e) :
    let n := Bank.get 0 (s.en e).lc lc.toNat
    goesTo (exec (.lpend lc off) s) fun t => onlyEngine s t e ∧
      (t.en e).pc = (if 1 < n.toNat then (s.en e).pc + off.signExtend 64 * 8 else (s.en e).pc + 8) ∧
      (t.en e).src = (if 1 < n.toNat then (s.en e).pc else 0) ∧ (t.en e).ctl = (s.en e).ctl ∧
      ∀ m, Bank.get 0 (t.en e).lc m = if m = lc.toNat then (if 1 < n.toNat then n - 1 else 0) else Bank.get 0 (s.en e).lc m := by
  intro n
  have hset (v : Word) := setLc_spec s e lc v
  show goesTo (execLpend lc off s) _
  unfold execLpend
  dsimp only
  rw [he]
  by_cases hn : 1 < n.toNat
  · rw [if_pos hn]
    simp only [if_pos hn]
    obtain ⟨hsame, hpc, hctl, hlc⟩ := hset (n - 1)
    refine goesTo_imp (jumpTo_passes _ e _) fun t h => ?_
    obtain ⟨hleft, gpc, gsrc, glc, gctl⟩ := h
    exact ⟨onlyEngine_trans hsame hleft, gpc, gsrc.trans hpc, gctl.trans hctl, fun m => by rw [glc, hlc]⟩
  · rw [if_neg hn]
    simp only [if_neg hn]
    obtain ⟨hsame, hpc, hctl, hlc⟩ := hset 0
    refine goesTo_imp (done_passes _ e) fun t h => ?_
    obtain ⟨hleft, gpc, gsrc, glc, gctl⟩ := h
    exact ⟨onlyEngine_trans hsame hleft, by rw [gpc, hpc], gsrc, gctl.trans hctl, fun m => by rw [glc, hlc]⟩

/-! Another engine -/

/-- Engine e after it has taken its oldest control entry. -/
def State.afterEntry (s : State) (e : Eng) (r : List CtlEntry) : State := s.upd fun k => k.onEn e fun x => { x with ctl := r }

theorem takeEntry_cons {s : State} {e : Eng} {v : Word} {a : Nat} {r : List CtlEntry} (ht : s.here.sys.timed = false)
    (hc : (s.en e).ctl = ⟨v, a⟩ :: r) : s.takeEntry e = some (v, s.afterEntry e r) := by
  unfold State.takeEntry State.afterEntry
  rw [hc, ht]
  rfl

theorem en_afterEntry (s : State) (e : Eng) (r : List CtlEntry) : (s.afterEntry e r).en e = { s.en e with ctl := r } := by
  rw [State.afterEntry, en_upd, en_onEn, if_pos rfl]
  rfl

/-- An engine that leaves its word after it has taken a control entry. -/
theorem of_passes_afterEntry {s t : State} {e : Eng} {r : List CtlEntry} {dst src : Word} (h : passes (s.afterEntry e r) t e dst src) :
    (t.rest = s.rest ∧ writesNone s t ∧ (t.en e).pc = dst ∧ (t.en e).ctl = r ∧ ∀ f, f ≠ e → t.en f = s.en f) ∧
      (t.en e).lc = (s.en e).lc := by
  obtain ⟨hleft, hpc, -, hlc, hctl⟩ := h
  obtain ⟨hrest, hnone, hothers⟩ := onlyEngine_trans (onlyEngine_onEn s e _) hleft
  rw [en_afterEntry] at hlc hctl
  exact ⟨⟨hrest, hnone, hpc, hctl, hothers⟩, hlc⟩

/-- Settles O15: an engine that is not the sequencer goes where its oldest control entry or its own loop register says. -/
theorem otherEnginesFollowControlFlow : Obligations.OtherEnginesFollowControlFlow := by
  intro s e v a r ht he hsq pc goes lcIs
  refine ⟨fun hc => ⟨fun c sa sb off => ?_, fun sd sa => ?_, fun lc fromReg sa imm => ?_⟩, fun sd off => ?_, fun lc off => ?_⟩
  · show goesTo (execBr c sa sb off s) _
    unfold execBr
    dsimp only
    rw [he, if_neg hsq, takeEntry_cons ht hc]
    have hpc : ((s.afterEntry e r).en e).pc = pc := by rw [en_afterEntry]
    refine goesTo_imp (branch_passes _ e (target pc off) (v = 1)) fun t h => ?_
    rw [hpc] at h
    exact of_passes_afterEntry h
  · show goesTo (execJmpr sd sa s) _
    unfold execJmpr
    dsimp only
    rw [he, if_neg hsq, takeEntry_cons ht hc]
    exact goesTo_imp (jumpTo_passes _ e v) fun t h => of_passes_afterEntry h
  · show goesTo (execLpset lc fromReg sa imm s) _
    unfold execLpset
    dsimp only
    rw [he, if_neg hsq, takeEntry_cons ht hc]
    obtain ⟨hset, hpc, hctl, hlc⟩ := setLc_spec (s.afterEntry e r) e lc v
    refine goesTo_imp (done_passes _ e) fun t h => ?_
    obtain ⟨hleft, gpc, -, glc, gctl⟩ := h
    obtain ⟨hrest, hnone, hothers⟩ := onlyEngine_trans (onlyEngine_trans (onlyEngine_onEn s e _) hset) hleft
    rw [en_afterEntry] at hpc hctl hlc
    exact ⟨⟨hrest, hnone, by rw [gpc, hpc], gctl.trans hctl, hothers⟩, fun m => by rw [glc, hlc]⟩
  · show goesTo (execJmp sd off s) _
    unfold execJmp
    dsimp only
    rw [he, if_neg hsq]
    refine goesTo_imp (jumpTo_passes s e _) fun t h => ?_
    obtain ⟨⟨hrest, hnone, hothers⟩, hpc, -, hlc, hctl⟩ := h
    exact ⟨⟨hrest, hnone, hpc, hctl, hothers⟩, hlc⟩
  · refine goesTo_imp (lpend_passes s lc off he) fun t h => ?_
    obtain ⟨⟨hrest, hnone, hothers⟩, hpc, -, hctl, hlc⟩ := h
    exact ⟨⟨hrest, hnone, hpc, hctl, hothers⟩, hlc⟩

/-! The sequencer -/

/-- A control queue with room takes the entry, and no other engine changes (R89). -/
theorem appendCtl_room {k : Core} {n : Nat} (c : CtlEntry) (h : ((k.en (Eng.ofTag n)).ctl).length < 32) :
    k.appendCtl n c = k.onEn (Eng.ofTag n) fun x => { x with ctl := x.ctl ++ [c] } := if_pos h

/-- Where the five control queues have room, each takes the entry (R89). -/
theorem appendAll_spec {k : Core} (c : CtlEntry) (h : ∀ e, ((k.en e).ctl).length < 32) :
    (k.appendAll c).still = k.still ∧ (k.appendAll c).regs = k.regs ∧ (k.appendAll c).en .sq = k.en .sq ∧
      ∀ e, e ≠ .sq → (k.appendAll c).en e = { k.en e with ctl := (k.en e).ctl ++ [c] } := by
  have hall : k.appendAll c = [1, 2, 3, 4, 5].foldl (fun k n => k.onEn (Eng.ofTag n) fun x => { x with ctl := x.ctl ++ [c] }) k := by
    simp [Core.appendAll, appendCtl_room, Eng.ofTag, h]
  rw [hall]
  refine ⟨rfl, rfl, ?_, fun e he => ?_⟩
  · simp [Eng.ofTag]
  · cases e with
    | sq => exact absurd rfl he
    | _ => simp [Eng.ofTag]

/-- Every other engine of the core stands where it stood, with what the sequencer tells in its control queue. -/
def tells (s t : State) (told : Option Word) : Prop :=
  t.rest = s.rest ∧ ∀ e, e ≠ .sq → (t.en e).pc = (s.en e).pc ∧ (t.en e).lc = (s.en e).lc ∧
    (t.en e).ctl = (s.en e).ctl ++ (told.toList.map fun v => ⟨v, 0⟩)

/-- What the sequencer tells where it has nothing to append. -/
theorem tells_none {s t : State} (hr : t.rest = s.rest) (he : ∀ e, e ≠ .sq → t.en e = s.en e) : tells s t none :=
  ⟨hr, fun e hne => by rw [he e hne]; exact ⟨rfl, rfl, (List.append_nil _).symm⟩⟩

theorem tells_passes {s u t : State} {told : Option Word} {dst src : Word} (h : tells s u told) (g : passes u t .sq dst src) : tells s t told := by
  obtain ⟨hr, he⟩ := h
  obtain ⟨⟨gr, -, ge⟩, -⟩ := g
  exact ⟨gr.trans hr, fun e hne => by rw [ge e hne]; exact he e hne⟩

/-- The sequencer of an interlocked task outside its handler tells the others a value, and changes nothing of its own (R89). -/
theorem appendEntry_spec {s : State} (v : Word) (ht : s.here.sys.timed = false) (hp : s.here.phase ≠ .handler)
    (h : ∀ e, ((s.en e).ctl).length < 32) :
    tells s (s.appendEntry v) (some v) ∧ writesNone s (s.appendEntry v) ∧ (s.appendEntry v).en .sq = s.en .sq := by
  obtain ⟨hstill, hregs, hsq, hothers⟩ := appendAll_spec (k := s.here) ⟨v, 0⟩ h
  have hu : s.appendEntry v = s.upd fun k => k.appendAll ⟨v, if k.sys.timed then k.cyc + 2 else 0⟩ := if_neg hp
  have hhere : (s.appendEntry v).here = s.here.appendAll ⟨v, 0⟩ := by rw [hu, here_upd, ht]; rfl
  refine ⟨⟨by rw [hu, rest_upd], fun e hne => ?_⟩, ⟨by rw [hhere, hstill], by rw [hhere, hregs]⟩, ?_⟩
  · rw [State.en, hhere, hothers e hne]
    exact ⟨rfl, rfl, rfl⟩
  · rw [State.en, hhere, hsq]
    rfl

theorem ctlFull_untimed {k : Core} (h : k.sys.timed = false) : k.ctlFull = false := by rw [Core.ctlFull, h, Bool.false_and]

theorem writesNone_trans {s u t : State} (h : writesNone s u) (g : writesNone u t) : writesNone s t := ⟨g.1.trans h.1, g.2.trans h.2⟩

theorem writesS_of_writesNone {s u t : State} {sd : SReg} {x : Word} (h : writesS s u sd x) (g : writesNone u t) : writesS s t sd x :=
  writesS_congr g.1 g.2 h

/-- Settles O14: the sequencer goes where the word says, and tells every other engine what it needs in order to follow. -/
theorem sequencerControlFlow : Obligations.SequencerControlFlow := by
  intro s ho hsq hp hroom pc goes keeps
  have ht := ho.1
  have hfull : s.here.ctlFull = false := ctlFull_untimed ht
  refine ⟨fun c sa sb off => ?_, fun sd off => ?_, fun sd sa hal => ?_, fun lc fromReg sa imm => ?_, fun lc off => ?_⟩
  · intro taken
    obtain ⟨htells, hnone, hen⟩ := appendEntry_spec (if taken then 1 else 0) ht hp hroom
    show goesTo (execBr c sa sb off s) _
    unfold execBr
    dsimp only
    rw [hsq, if_pos rfl, hfull, Bool.false_and, if_neg Bool.false_ne_true, evalCond_eq, rdS_inOrder ho, rdS_inOrder ho]
    refine goesTo_imp (branch_passes _ .sq _ (taken = true)) fun t h => ?_
    have htell := tells_passes htells h
    obtain ⟨⟨-, gnone, -⟩, gpc, gsrc, glc, -⟩ := h
    obtain ⟨hst, hregs⟩ := writesNone_trans hnone gnone
    rw [hen] at gpc gsrc glc
    exact ⟨⟨htell.1, gpc, gsrc, htell.2⟩, hregs, glc, (of_still hst).1⟩
  · obtain ⟨hrest, -, hothers, hwrites⟩ := wrS_inOrder ho sd (pc + 8)
    show goesTo (execJmp sd off s) _
    unfold execJmp
    dsimp only
    rw [hsq, if_pos rfl]
    refine goesTo_imp (jumpTo_passes _ .sq _) fun t h => ?_
    have htell := tells_passes (tells_none hrest fun e _ => hothers e) h
    obtain ⟨⟨-, gnone, -⟩, gpc, gsrc, -, -⟩ := h
    rw [hothers] at gsrc
    exact ⟨⟨htell.1, gpc, gsrc, htell.2⟩, writesS_of_writesNone hwrites gnone⟩
  · obtain ⟨hrest, -, hothers, hwrites⟩ := wrS_inOrder ho sd (pc + 8)
    obtain ⟨hsys, hphase, -, -⟩ := of_still hwrites.1
    obtain ⟨htells, hnone, hen⟩ := appendEntry_spec (s := s.wrS .sq sd (pc + 8)) (s.sReg sa) (by rw [hsys, ht]) (by rw [hphase]; exact hp)
      fun e => by rw [hothers]; exact hroom e
    show goesTo (execJmpr sd sa s) _
    unfold execJmpr
    dsimp only
    rw [hsq, if_pos rfl, rdS_inOrder ho, if_neg (not_not_intro hal), hfull, Bool.false_and, if_neg Bool.false_ne_true]
    refine goesTo_imp (jumpTo_passes _ .sq _) fun t h => ?_
    obtain ⟨trest, ttell⟩ := tells_passes htells h
    obtain ⟨⟨-, gnone, -⟩, gpc, gsrc, -, -⟩ := h
    rw [hen, hothers] at gsrc
    simp only [hothers] at ttell
    exact ⟨⟨trest.trans hrest, gpc, gsrc, ttell⟩, writesS_of_writesNone hwrites (writesNone_trans hnone gnone)⟩
  · intro v
    obtain ⟨htells, hnone, hen⟩ := appendEntry_spec v ht hp hroom
    obtain ⟨⟨srest, snone, sothers⟩, spc, -, slc⟩ := setLc_spec (s.appendEntry v) .sq lc v
    show goesTo (execLpset lc fromReg sa imm s) _
    unfold execLpset
    dsimp only
    rw [hsq, if_pos rfl, hfull, if_neg Bool.false_ne_true, rdS_inOrder ho]
    refine goesTo_imp (done_passes ((s.appendEntry v).upd fun k => k.setLc .sq lc v) .sq) fun t h => ?_
    have htell : tells s t (some v) := tells_passes ⟨srest.trans htells.1, fun e hne => by rw [sothers e hne]; exact htells.2 e hne⟩ h
    obtain ⟨⟨-, gnone, -⟩, gpc, gsrc, glc, -⟩ := h
    rw [hen] at spc slc
    exact ⟨⟨htell.1, by rw [gpc, spc], gsrc, htell.2⟩, writesNone_trans (writesNone_trans hnone snone) gnone, fun n => by rw [glc, slc]⟩
  · intro n
    refine goesTo_imp (lpend_passes s lc off hsq) fun t h => ?_
    obtain ⟨⟨hrest, hnone, hothers⟩, hpc, hsrc, -, hlc⟩ := h
    have htell := tells_none hrest hothers
    refine ⟨⟨htell.1, hpc, ?_, htell.2⟩, hnone, hlc⟩
    rw [hsrc]
    simp only [decide_eq_true_eq]
    rfl

end Sys2Proof.Machine
end

section
/-! PROOFS. What the writes and the nests that a cycle of timed mode lands leave alone (R85, R243). -/

namespace Sys2Proof.Machine

/-- What no write that lands changes of its core. -/
def Core.landed (k : Core) : Core :=
  { k with regs := Regs.zero, sys := { k.sys with flags := 0 }, pend := [], shadow := [], fmtq := [], nestRaces := [] }

/-- What in addition no nest that takes effect changes. -/
def Core.swept (k : Core) : Core := { k.landed with nests := [], nestEnd := 0 }

/-- Only core c and bytes of the scratchpads change, and of the core nothing that φ shows. -/
def landsOn (φ : Core → Core) (c : Nat) (s t : State) : Prop :=
  t = { s with cores := t.cores, spad := t.spad } ∧ (∀ d, d ≠ c → t.core d = s.core d) ∧ φ (t.core c) = φ (s.core c)

section
variable {φ : Core → Core} {c : Nat} {s u t : State}

theorem landsOn_refl : landsOn φ c s s := ⟨rfl, fun _ _ => rfl, rfl⟩

theorem landsOn_cur (h : landsOn φ c s t) : t.cur = s.cur := (congrArg State.cur h.1 :)

theorem landsOn_here (h : landsOn φ s.cur.core s t) : φ t.here = φ s.here := by
  have hcur := landsOn_cur h
  obtain ⟨-, -, hc⟩ := h
  rw [State.here, hcur, hc]
  rfl

theorem landsOn_trans (h : landsOn φ c s u) (g : landsOn φ c u t) : landsOn φ c s t := by
  obtain ⟨hs, ho, hc⟩ := h
  obtain ⟨gs, go, gc⟩ := g
  refine ⟨?_, fun d hd => (go d hd).trans (ho d hd), gc.trans hc⟩
  rw [gs, hs]

theorem landsOn_setCore {k : Core} (h : φ k = φ (s.core c)) : landsOn φ c s (s.setCore c k) := by
  refine ⟨rfl, fun d hd => ?_, ?_⟩
  · rw [core_setCore, if_neg hd]
  · rw [core_setCore, if_pos rfl, h]

theorem landsOn_foldl {α : Type} {f : State → α → State} (hf : ∀ u x, landsOn φ c u (f u x)) (l : List α) (s : State) :
    landsOn φ c s (l.foldl f s) := by
  induction l generalizing s with
  | nil => exact landsOn_refl
  | cons x l ih => exact landsOn_trans (hf s x) (ih _)

theorem landsOn_swept (h : landsOn Core.landed c s t) : landsOn Core.swept c s t := by
  obtain ⟨hs, ho, hc⟩ := h
  exact ⟨hs, ho, congrArg (fun k : Core => { k with nests := [], nestEnd := 0 }) hc⟩

theorem landed_setReg (k : Core) (d : Dest) (x : Nat) : (k.setReg d x).landed = k.landed := by
  cases d with
  | s n => unfold Core.setReg; dsimp only; split <;> rfl
  | _ => rfl

theorem landed_land (tick : Nat) (seen : List Pend) (k : Core) (p : Pend) : (k.land tick seen p).landed = k.landed := by
  unfold Core.land
  split
  · exact landed_setReg k _ _
  · exact landed_setReg k _ _
  · dsimp only
    split
    · split
      · rfl
      · exact landed_setReg k _ _
    · exact landed_setReg k _ _

theorem landed_landSeen (tick : Nat) (seen : List Pend) (k : Core) (p : Pend) : (k.landSeen tick seen p).landed = k.landed := by
  unfold Core.landSeen
  dsimp only
  split <;> exact landed_land tick seen k p

theorem landsOn_landOne (s : State) (c : Nat) (seen : List Pend) (p : Pend) : landsOn Core.landed c s (s.landOne c seen p) := by
  unfold State.landOne
  split
  · split
    · exact landsOn_refl
    · exact ⟨rfl, fun _ _ => rfl, rfl⟩
  · split
    · next u hb =>
      have hu := (bankOp_spec hb).1
      have hcore (d : Nat) : u.core d = s.core d := by rw [hu]; rfl
      refine landsOn_trans (u := u) ⟨by rw [hu], fun d _ => hcore d, by rw [hcore]⟩ (landsOn_setCore ?_)
      rw [landed_landSeen, hcore]
    · exact landsOn_refl
  · exact landsOn_setCore (landed_landSeen _ _ _ _)

theorem landsOn_landSeq (c : Nat) (seen l : List Pend) (s : State) : landsOn Core.landed c s (State.landSeq c seen l s) := by
  induction l generalizing seen s with
  | nil => exact landsOn_refl
  | cons p l ih => exact landsOn_trans (landsOn_landOne s c seen p) (ih _ _)

theorem landsOn_landDue (s : State) (c due : Nat) : landsOn Core.landed c s (s.landDue c due) := by
  unfold State.landDue
  exact landsOn_trans (landsOn_setCore (by rfl)) (landsOn_landSeq c _ _ _)

theorem landsOn_landWork (c : Nat) (seen : List Pend) (e : Nat) (work : List Pend) (s : State) :
    landsOn Core.landed c s (State.landWork c seen e work s) :=
  landsOn_foldl (f := fun u p => u.landOne c seen { p with due := e }) (fun u p => landsOn_landOne u c seen { p with due := e }) work s

theorem landsOn_sweep (c due n : Nat) (s : State) : landsOn Core.swept c s (State.sweep c due n s) := by
  induction n generalizing s with
  | zero => exact landsOn_swept (landsOn_landDue s c _)
  | succ n ih =>
    unfold State.sweep
    split
    · split
      · split
        · refine landsOn_trans (landsOn_trans ?_ (landsOn_setCore ?_)) (ih _)
          · exact landsOn_swept (landsOn_trans (landsOn_landDue s c _) (landsOn_landWork c _ _ _ _))
          · rfl
        · exact landsOn_swept (landsOn_landDue s c _)
      · exact landsOn_swept (landsOn_landDue s c _)
    · exact landsOn_swept (landsOn_landDue s c _)

end

/-- What a cycle of timed mode lands leaves of the package (R85, R243). -/
theorem landsOn_catchUp (s : State) (c due : Nat) : landsOn Core.swept c s (s.catchUp c due) := landsOn_sweep c due 5 s

theorem swept_here_catchUp (s : State) (due : Nat) : (s.catchUp s.cur.core due).here.swept = s.here.swept :=
  landsOn_here (landsOn_catchUp s s.cur.core due)

end Sys2Proof.Machine
end

section
/-! PROOFS. The step of an engine that comes to a word (R65 to R67, R77, R82, R84, R92). -/

namespace Sys2Proof.Bank

theorem erase_erase {α : Type} (b : Bank α) (n : Nat) : erase (erase b n) n = erase b n := by
  induction b with
  | nil => rfl
  | cons x r ih =>
    obtain ⟨k, v⟩ := x
    by_cases hk : k = n <;> simp [erase, hk, ih]

variable {α : Type} [DecidableEq α]

/-- Of two writes at one key the second is left, where the first left an entry. -/
theorem set_set (d : α) (b : Bank α) (n : Nat) {v w : α} (hv : v ≠ d) : set d (set d b n v) n w = set d b n w := by
  induction b with
  | nil => simp [set, hv, erase]
  | cons x r ih =>
    obtain ⟨k, u⟩ := x
    by_cases hk : k < n
    · simp [set, hk, ih]
    · have herase := erase_erase ((k, u) :: r) n
      rw [set, if_neg hk, if_neg hv, set, if_neg (Nat.lt_irrefl n), set, if_neg hk, erase, if_pos rfl, herase]

end Sys2Proof.Bank

namespace Sys2Proof.Machine

/-- Of two changes of a core the second works on what the first has left, where a task is there. -/
theorem upd_upd {s : State} {f : Core → Core} (g : Core → Core) (h : (f s.here).phase ≠ .idle) : (s.upd f).upd g = s.upd fun k => g (f k) := by
  have hne : f s.here ≠ {} := fun hz => h (by rw [hz])
  unfold State.upd
  rw [show (s.setCore s.cur.core (f s.here)).here = f s.here from here_upd s f]
  unfold State.setCore
  rw [Bank.set_set _ _ _ hne]

theorem ofTag_tag (e : Eng) : Eng.ofTag e.tag = e := by cases e <;> rfl

/-- A fetch changes caches and nothing else. -/
theorem sameButCaches_fetched (s : State) (c va : Nat) : sameButCaches s (s.fetched c va) := by
  unfold State.fetched
  split
  · split
    · exact sameButCaches_learn ..
    · rfl
  · rfl

theorem fetched_spec (s : State) (c va : Nat) :
    (s.fetched c va).here = s.here ∧ (s.fetched c va).cur = s.cur ∧ (s.fetched c va).level = s.level := by
  have h : s.fetched c va = _ := sameButCaches_fetched s c va
  rw [h]
  exact ⟨rfl, rfl, rfl⟩

section
variable {s u : State} {e : Eng} {w : Word} {sync : Nat} {i : Instr}

theorem step_agenda {c : Nat} {r : List Move} (hr : s.agenda = .engine c e :: r) :
    step s = issueStep { s.tick with agenda := r, cur := ⟨c, e.tag, s.cur.unit⟩ } := by
  unfold step
  dsimp only
  rw [show s.tick.agenda = _ from hr]
  rfl

theorem step_rotation (hr : s.agenda = []) (hslot : s.cur.slot < 5) :
    step s = issueStep { s.tick with cur := { s.cur with slot := s.cur.slot + 1 } } := by
  unfold step
  dsimp only
  rw [show s.tick.agenda = _ from hr]
  exact if_pos hslot

/-- An engine moves where the agenda names it, and with an empty agenda after the engine below it (log 3). -/
theorem step_engine (hl : s.level = .full)
    (hu : (∃ r, s.agenda = .engine u.cur.core e :: r ∧ u = { s.tick with agenda := r, cur := ⟨u.cur.core, e.tag, s.cur.unit⟩ }) ∨
      s.agenda = [] ∧ s.cur.slot < 5 ∧ u = { s.tick with cur := { s.cur with slot := s.cur.slot + 1 } }) : step s = engineStep u := by
  have hissue (hlu : u.level = s.level) : issueStep u = engineStep u := by rw [issueStep, hlu, hl, if_neg nofun]
  rcases hu with ⟨r, hr, hu⟩ | ⟨hr, hslot, hu⟩
  · rw [step_agenda hr, ← hu]
    exact hissue (by rw [hu]; rfl)
  · rw [step_rotation hr hslot, ← hu]
    exact hissue (by rw [hu]; rfl)

/-- An engine of a running task that has nothing left of earlier words, at a word that it can fetch. -/
def fetches (u : State) (e : Eng) (w : Word) : Prop :=
  u.cur.core < 160 ∧ u.here.phase = .running ∧ u.here.trapHeld = none ∧ u.here.eventHeld = false ∧ (∀ f, (u.en f).wait = none) ∧
    (u.en e).owed = 0 ∧ (u.en e).owedCtl = [] ∧ u.here.nestPushReady = false ∧ fetchWord u u.cur.core (u.en e).pc = .ok w

/-- The state after the fetch of an engine's word. -/
abbrev State.arrives (u : State) (e : Eng) : State := u.fetched u.cur.core (u.en e).pc.toNat

/-- Nothing stands before the word that an engine fetches. -/
theorem plan_fetches (h : fetches u e w) (hd : decodeWord w = .ok (sync, i)) :
    (∀ x, i = .unassignedEncoding x → plan u e = reach (u.arrives e) e fun s => .run i s) ∧
    ((∀ x, i ≠ .unassignedEncoding x) →
      (tagOf w = 6 ∨ tagOf w = e.tag → plan u e = startWord (u.arrives e) e i (tagOf w) sync) ∧
      (¬ (tagOf w = 6 ∨ tagOf w = e.tag) → i ≠ .tend → (u.arrives e).passOk e = true →
        plan u e = .over (.next ((u.arrives e).upd fun k => k.pass e)))) := by
  obtain ⟨hc, hp, htr, hev, hwait, howed, hctl, hnest, hw⟩ := h
  unfold State.en at hwait howed hctl hw
  have hstays : ¬ (decide (160 ≤ u.cur.core) || !u.here.runs || decide (u.here.phase = .handler) && decide (e ≠ .sq)) = true := by
    simp [Nat.not_le.mpr hc, Core.runs, hp]
  have hwaits : ¬ ((u.here.en e).wait.isSome || u.here.sys.timed && Eng.all.any fun f => (u.here.en f).wait.isSome) = true := by
    simp [hwait]
  have hown : tagOf w = 6 ∨ tagOf w = e.tag ∨ u.here.phase = .handler ↔ tagOf w = 6 ∨ tagOf w = e.tag := by simp [hp]
  unfold plan
  dsimp only
  rw [if_neg hstays, if_neg (by rw [hev]; exact Bool.false_ne_true), if_neg (by rw [htr]; exact Bool.false_ne_true),
    if_neg (by rw [hwait e]; exact nofun), if_neg hwaits,
    if_neg (by rw [hctl]; exact Bool.false_ne_true),
    if_neg (not_not_intro howed), if_neg (by rw [hnest]; exact Bool.false_ne_true), hw]
  dsimp only
  rw [hd]
  dsimp only
  refine ⟨?_, fun hi => ?_⟩
  · rintro x rfl
    rfl
  · split
    · exact absurd rfl (hi _)
    · refine ⟨fun ho => if_pos (hown.mpr ho), fun ho ht hpass => ?_⟩
      rw [if_neg (mt hown.mp ho), if_neg ht]
      exact if_pos hpass

theorem noneBefore {v : State} (h : e = .sq → ∀ l ∈ v.here.late, standsBefore i sync l = false) :
    ¬ (decide (e = .sq) && v.here.late.any (standsBefore i sync)) = true := by
  simpa using h

theorem notBarred {k : Core} {tag : Nat} (hp : k.phase = .running) : ¬ handlerBars k i tag sync = true := by
  simp [handlerBars, hp]

theorem notFormatBarred {v : State} (hl : v.level = .full) : ¬ v.formatBarred i = true := by simp [State.formatBarred, hl]

/-- What the sequencer's queues hold back and the word may not pass takes effect first (R141). -/
theorem startWord_queue {v : State} {c tag : Nat} (hc : v.cur.core = c)
    (h : ¬ (e = .sq → ∀ l ∈ v.here.late, standsBefore i sync l = false)) :
    startWord v e i tag sync = .over (.next (v.performQueue c (standsBefore i sync))) := by
  subst hc
  have hstands : (decide (e = .sq) && v.here.late.any (standsBefore i sync)) = true := by simpa using h
  unfold startWord
  exact if_pos hstands

/-- Where no held-back access stands before it, a word of an interlocked task runs once its tokens are there (R82, R92). -/
theorem startWord_interlocked {v : State} {c tag : Nat} (hc : v.cur.core = c) (hl : v.level = .full) (hp : v.here.phase = .running)
    (hclear : e = .sq → ∀ l ∈ v.here.late, standsBefore i sync l = false) (ht : v.here.sys.timed = false) (htag : tag = 6 → sync = 0)
    (hslip : v.here.slipOk e (v.here.cyc + 1) = true) (hgen : genWaits v c e (v.en e).walk i = false)
    (hpop : v.here.canPop e.tag (sync / 32) = true) : startWord v e i tag sync = .run i (v.upd fun k => k.begin e i sync) := by
  subst hc
  have hwaits : ¬ (decide (v.here.phase = .running) && genWaits v v.cur.core e (v.here.en e).walk i) = true := by
    rw [show genWaits v v.cur.core e (v.here.en e).walk i = false from hgen, Bool.and_false]
    exact Bool.false_ne_true
  unfold startWord
  dsimp only
  rw [if_neg (noneBefore hclear), if_neg (notBarred hp), if_neg (by rw [ht]; exact Bool.false_ne_true), if_neg (by simpa using htag),
    if_neg (by simp [hslip]), if_neg (notFormatBarred hl), if_neg hwaits, if_pos (by rw [hpop]; simp)]

/-- A word of a timed task runs in the cycle in which it is due, after what that cycle lands (R84, R85). -/
theorem startWord_timed {v : State} {c tag due : Nat} (hc : v.cur.core = c) (hl : v.level = .full) (hp : v.here.phase = .running)
    (hclear : e = .sq → ∀ l ∈ v.here.late, standsBefore i sync l = false) (ht : v.here.sys.timed = true) (hm : meets i = false)
    (hdue : due = issueCycle v c e sync i) (hslip : v.here.slipOk e due = true)
    (hgen : genWaits v c e (v.en e).walk i = false) (hfirst : isFirst v c e due = true)
    (hnest : (v.catchUp c due).here.nestFirst due = false) :
    startWord v e i tag sync = .run i ((v.catchUp c due).upd fun k => { k with cyc := due }.begin e i sync) := by
  subst hc
  have hphase : (v.catchUp v.cur.core due).here.phase = .running := (congrArg Core.phase (swept_here_catchUp v due)).trans hp
  have hstart : startTimed v e i (decide (tag = 6)) sync = .run i (((v.catchUp v.cur.core due).upd fun k => { k with cyc := due }).upd
      fun k => k.begin e i sync) := by
    unfold startTimed
    dsimp only
    rw [← hdue, if_neg (by rw [hgen, hfirst, hslip]; exact Bool.false_ne_true), if_neg (by rw [hnest]; exact Bool.false_ne_true),
      if_neg (notFormatBarred hl)]
  unfold startWord
  dsimp only
  rw [if_neg (noneBefore hclear), if_neg (notBarred hp), if_pos ht, if_neg (by rw [hm]; exact Bool.false_ne_true), hstart,
    upd_upd (fun k => k.begin e i sync) (by rw [hphase]; exact nofun)]

/-- Outside deterministic mode a word that is no numbered command issues its idle count after the engine's last word (R84). -/
theorem issueCycle_plain {v : State} {c : Nat} (hc : v.cur.core = c) (hd : v.here.sys.det = false) (hn : numbered i = false) :
    issueCycle v c e sync i = (v.en e).last + 1 + sync := by
  subst hc
  unfold State.here at hd
  unfold issueCycle
  simp [hd, hn, State.en, State.here]

end

/-- Settles O55: what stands in an engine's way is gone, so its step is the fetch and the word's own move. -/
theorem stepRunsTheDecodedInstruction : Obligations.StepRunsTheDecodedInstruction := by
  refine ⟨fun s u e w sync i hl hc he hu hp htr hev hwait howed hctl hnest hw hd => ?_, fun s c n i r hr hl => ?_⟩
  · intro c v own clear
    have hplan := plan_fetches ⟨hc, hp, htr, hev, hwait, howed, hctl, hnest, hw⟩ hd
    obtain ⟨hhere, hcur, hlevel⟩ := fetched_spec u c (u.en e).pc.toNat
    have hstep : step s = engineStep u := step_engine hl hu
    have hlu : u.level = .full := by
      rcases hu with ⟨r, -, hu⟩ | ⟨-, -, hu⟩ <;> rw [hu] <;> exact hl
    have hvl : v.level = .full := hlevel.trans hlu
    have hvp : v.here.phase = .running := by rw [hhere]; exact hp
    have hvc : v.cur.core = c := by rw [hcur]
    have hover {r : Res} (h : plan u e = .over r) : step s = r := by rw [hstep, engineStep, he, h]
    have hrun {t : State} (h : plan u e = .run i t) : step s = exec i t := by rw [hstep, engineStep, he, h]
    obtain ⟨hunassigned, hword⟩ := hplan
    refine ⟨fun x hx ht => hrun ?_, fun hi => ⟨fun ho htend hpass => ?_, fun ho hq => ?_, ?_, ?_⟩⟩
    · rw [hunassigned x hx, reach, hhere, ht]
      rfl
    · exact hover ((hword hi).2 ho htend hpass)
    · exact hover (((hword hi).1 ho).trans (startWord_queue hvc hq))
    · intro ho hq ht htag hslip hgen hpop
      exact hrun (((hword hi).1 ho).trans (startWord_interlocked hvc hvl hvp hq (by rw [hhere]; exact ht) htag hslip hgen hpop))
    · intro ho hq ht hm due x
      refine ⟨fun hdet hn => ?_, fun hslip hgen hfirst hfree => hrun ?_⟩
      · exact issueCycle_plain hvc hdet hn
      · rw [← hhere] at ht
        exact ((hword hi).1 ho).trans (startWord_timed hvc hvl hvp hq ht hm rfl hslip hgen hfirst hfree)
  · unfold step
    dsimp only
    rw [show s.tick.agenda = _ from hr]
    exact if_neg fun h => hl.elim (fun hl => hl h.1) fun hf => Bool.false_ne_true (h.2.symm.trans hf)

end Sys2Proof.Machine
end

section
/-! PROOFS. The words that all six engines execute together (R78, R79, R84, R120, R121, R128). -/

namespace Sys2Proof.Machine

/-! The six engines leave their word -/

/-- An engine as a word that it leaves for dst puts it, with the pushes that it owes then (R67, R82, R92). -/
def EngSt.left (x : EngSt) (dst : Word) (last : Nat) (owed : BitVec 5) : EngSt :=
  { x with pc := dst, walk := x.walk + 1, last := last, src := 0, popped := [], clk0 := x.clk, joined0 := x.joined, owed := owed, push := 0,
           wait := none }

/-- One engine after another leaves its word for the next. -/
def Core.leaveEach (k : Core) (l : List Eng) : Core := l.foldl (fun k f => k.leave f ((k.en f).pc + 8) 0) k

theorem cyc_leave (k : Core) (e : Eng) (dst src : Word) : (k.leave e dst src).cyc = k.cyc := (congrArg Core.cyc (still_leave k e dst src) :)

theorem leaveEach_spec (l : List Eng) (hl : l.Nodup) (k : Core) :
    (k.leaveEach l).still = k.still ∧ (k.leaveEach l).regs = k.regs ∧ (∀ f, f ∉ l → (k.leaveEach l).en f = k.en f) ∧
      ∀ f ∈ l, ∃ o, (k.leaveEach l).en f = (k.en f).left ((k.en f).pc + 8) k.cyc o := by
  induction l generalizing k with
  | nil => exact ⟨rfl, rfl, fun _ _ => rfl, fun _ h => absurd h List.not_mem_nil⟩
  | cons e l ih =>
    obtain ⟨hel, hl⟩ := List.nodup_cons.mp hl
    obtain ⟨hstill, hregs, -, hothers, o, he⟩ := leave_spec k e ((k.en e).pc + 8) 0
    obtain ⟨istill, iregs, iothers, imem⟩ := ih hl (k.leave e ((k.en e).pc + 8) 0)
    refine ⟨istill.trans hstill, iregs.trans hregs, fun f hf => ?_, fun f hf => ?_⟩
    · obtain ⟨hfe, hfl⟩ := List.ne_and_not_mem_of_not_mem_cons hf
      exact (iothers f hfl).trans (hothers f hfe)
    · rcases List.mem_cons.mp hf with rfl | hfl
      · exact ⟨o, (iothers f hel).trans he⟩
      · obtain ⟨o, ho⟩ := imem f hfl
        have hfe : f ≠ e := fun h => hel (h ▸ hfl)
        rw [hothers f hfe, cyc_leave] at ho
        exact ⟨o, ho⟩

theorem mem_engAll (e : Eng) : e ∈ Eng.all := by cases e <;> decide

/-- All six engines leave their words in a cycle. -/
theorem leaveAll_spec (k : Core) (c : Nat) : (k.leaveAll c).still = { k with cyc := c }.still ∧ (k.leaveAll c).regs = k.regs ∧
    ∀ f, ∃ o, (k.leaveAll c).en f = (k.en f).left ((k.en f).pc + 8) c o := by
  obtain ⟨hstill, hregs, -, hmem⟩ := leaveEach_spec Eng.all (by decide) { k with cyc := c }
  exact ⟨hstill, hregs, fun f => hmem f (mem_engAll f)⟩

/-- Every engine is past its word, in the next cycle if any. -/
def allPast (k u : Core) : Prop := ∀ f, (u.en f).pc = (k.en f).pc + 8 ∧ (u.en f).lc = (k.en f).lc

theorem allPast_leaveAll {k u : Core} (h : ∀ f, u.en f = k.en f) (c : Nat) : allPast k (u.leaveAll c) := fun f => by
  obtain ⟨-, -, he⟩ := leaveAll_spec u c
  obtain ⟨o, ho⟩ := he f
  rw [ho, h f]
  exact ⟨rfl, rfl⟩

/-! Words that start together -/

section
variable {s : State} {e : Eng}

theorem upd_congr {f g : Core → Core} (h : f s.here = g s.here) : s.upd f = s.upd g := by rw [State.upd, h, State.upd]

/-- `start` in interlocked mode (R84). -/
theorem start_interlocked (he : s.engHere = e) (hg : s.here.gathered e = true) (ht : s.here.sys.timed = false) :
    exec .start s = .next (s.upd fun k => k.leaveAll k.cyc) := by
  show execStart s = _
  unfold execStart
  dsimp only
  rw [he, hg, ht, if_neg Bool.false_ne_true, if_neg (by exact Bool.false_ne_true), Bool.false_and, if_neg Bool.false_ne_true]
  refine congrArg Host.Outcome.next (upd_congr ?_)
  rw [ht]
  rfl

/-- With no nest in the queue, a cycle lands the writes that are due by it (R85). -/
theorem catchUp_noNests (hn : s.here.nests = []) (due : Nat) : s.catchUp s.cur.core due = s.landDue s.cur.core due := by
  unfold State.catchUp State.sweep
  rw [show (s.core s.cur.core).nests = [] from hn]

theorem nestFirst_noNests {k : Core} (hn : k.nests = []) (due : Nat) : k.nestFirst due = false := by rw [Core.nestFirst, hn]

theorem timed_catchUp (due : Nat) : (s.catchUp s.cur.core due).here.sys.timed = s.here.sys.timed :=
  (congrArg (fun k : Core => k.sys.timed) (swept_here_catchUp s due) :)

/-- `start` in timed mode, where no nest is queued (R84). -/
theorem start_timed {c : Nat} (he : s.engHere = e) (hg : s.here.gathered e = true) (ht : s.here.sys.timed = true) (hn : s.here.nests = [])
    (hc : s.here.meetCycle (s.syncHere e) false = c) : exec .start s = .next ((s.catchUp s.cur.core c).upd fun k => k.leaveAll c) := by
  have hnests : (s.catchUp s.cur.core c).here.nests = [] := by
    rw [catchUp_noNests hn]
    exact (congrArg Core.nests (landsOn_here (landsOn_landDue s s.cur.core c)) :).trans hn
  show execStart s = _
  unfold execStart
  dsimp only
  rw [he, hg, ht, if_pos rfl, hc, if_neg (by exact Bool.false_ne_true), nestFirst_noNests hnests, if_neg (by exact Bool.false_ne_true)]
  refine congrArg Host.Outcome.next (upd_congr ?_)
  rw [timed_catchUp, ht]
  rfl

/-! The mode switch (R79) -/

theorem en_onAll (k : Core) (g : EngSt → EngSt) (f : Eng) : (k.onAll g).en f = g (k.en f) := by cases f <;> simp [Core.onAll, Eng.all]

/-- An engine that owes no push leaves the token queues as they are (R82). -/
theorem tok_leave {k : Core} {f : Eng} (ho : (k.en f).owed = 0) (hp : (k.en f).push = 0) (dst src : Word) : (k.leave f dst src).tok = k.tok := by
  unfold Core.leave Core.pushOwed
  simp [ho, hp]

theorem tok_leaveEach (l : List Eng) (hl : l.Nodup) {k : Core} (hk : ∀ f ∈ l, (k.en f).owed = 0 ∧ (k.en f).push = 0) :
    (k.leaveEach l).tok = k.tok := by
  induction l generalizing k with
  | nil => rfl
  | cons f l ih =>
    obtain ⟨hfl, hl⟩ := List.nodup_cons.mp hl
    obtain ⟨ho, hp⟩ := hk f List.mem_cons_self
    obtain ⟨-, -, -, hothers, -⟩ := leave_spec k f ((k.en f).pc + 8) 0
    refine (ih hl fun x hx => ?_).trans (tok_leave ho hp _ _)
    rw [hothers x fun h => hfl (h ▸ hx)]
    exact hk x (List.mem_cons_of_mem _ hx)

/-- Where every engine stands at the word with nothing left to do, none owes a push. -/
theorem owed_gathered {k : Core} (h : k.gathered e = true) (f : Eng) : (k.en f).owed = 0 := by
  have hf := List.all_eq_true.mp h f (mem_engAll f)
  simp only [Bool.and_eq_true, decide_eq_true_eq] at hf
  obtain ⟨⟨-, howed⟩, -⟩ := hf
  exact howed

/-- A core that changes its mode: its token queues are emptied, and their tokens counted in TOKLOST (R79, R80). -/
def Core.switched (k : Core) (timed : Bool) : Core :=
  { k with races := [], tok := [], sys := { k.sys with
      timed := timed, toklost := BitVec.ofNat 8 (Nat.min 255 (k.sys.toklost.toNat + k.tokensLeft)) } }

theorem setMode_gathered (timed : Bool) (he : s.engHere = e) (hg : s.here.gathered e = true) (hc : s.here.ctlEmpty = true)
    (hn : s.here.nestsDone = true) : ∃ c, setMode timed s = .next ((s.catchUp s.cur.core c).upd fun k =>
      ((k.switched timed).leaveAll c).onAll fun x => { x with walk := 0, last := c }) := by
  refine ⟨s.here.meetCycle (if s.here.sys.timed then s.syncHere e else 0) true, ?_⟩
  unfold setMode
  dsimp only
  rw [he, if_pos (by rw [hg, hc, hn]; rfl)]
  rfl

theorem setMode_switches (timed : Bool) (he : s.engHere = e) (hg : s.here.gathered e = true) (hc : s.here.ctlEmpty = true)
    (hn : s.here.nestsDone = true) (hp : ∀ f, (s.en f).push = 0) : goesTo (setMode timed s) fun t => allPast s.here t.here ∧
      t.here.sys.timed = timed ∧ (∀ q, t.here.tokens q = []) ∧
      t.here.sys.toklost.toNat = Nat.min 255 (s.here.sys.toklost.toNat + s.here.tokensLeft) := by
  obtain ⟨c, hmode⟩ := setMode_gathered timed he hg hc hn
  have hu := swept_here_catchUp s c
  generalize s.catchUp s.cur.core c = u at hmode hu
  refine ⟨_, hmode, ?_⟩
  have hen (f : Eng) : (u.here.switched timed).en f = s.here.en f := (congrArg (fun k : Core => k.en f) hu :)
  have hlost : u.here.sys.toklost.toNat + u.here.tokensLeft = s.here.sys.toklost.toNat + s.here.tokensLeft :=
    (congrArg (fun k : Core => k.sys.toklost.toNat + k.tokensLeft) hu :)
  obtain ⟨hstill, -, -⟩ := leaveAll_spec (u.here.switched timed) c
  have hsys : ((u.here.switched timed).leaveAll c).sys = (u.here.switched timed).sys := (of_still hstill).1
  have htok : ((u.here.switched timed).leaveAll c).tok = [] := tok_leaveEach Eng.all (by decide) fun f _ => by
    rw [show ({ u.here.switched timed with cyc := c } : Core).en f = s.here.en f from hen f]
    exact ⟨owed_gathered hg f, hp f⟩
  beta_reduce
  rw [here_upd]
  generalize hk : (u.here.switched timed).leaveAll c = k at hsys htok
  refine ⟨fun f => ?_, ?_, fun q => ?_, ?_⟩
  · rw [en_onAll, ← hk]
    exact allPast_leaveAll hen c f
  · exact (congrArg Sys.timed hsys :)
  · exact (congrArg (fun b => Bank.get [] b q) htok :)
  · refine (congrArg (fun y : Sys => y.toklost.toNat) hsys :).trans ?_
    rw [Core.switched]
    dsimp only
    rw [hlost, BitVec.toNat_ofNat, Nat.mod_eq_of_lt]
    exact Nat.lt_of_le_of_lt (Nat.min_le_left 255 _) (by decide)

/-! Opening a region (R120, R121, R295) -/

/-- A core that opens a region at pc under a descriptor, with its snapshot taken. -/
def Core.opened (k : Core) (pc : Word) (d : BitVec 512) : Core := { k.settle with regionEntry := pc, regionDesc := d, snap := k.snapshot }

theorem load_spad {va n key : Nat} {kind : Kind} (h : s.check va n kind = .ok (.spad key)) : s.load va n = (Bank.getRun 0 s.spad key n, s) := by
  unfold State.check checkAccess at h
  unfold State.load readMem
  split at h
  · exact nomatch h
  · next hw => cases h; rw [hw]
  · split at h <;> exact nomatch h

theorem idem_opens {off : BitVec 38} {key : Nat} {pc : Word} (he : s.engHere = e) (hg : s.here.gathered e = true)
    (ht : s.here.sys.timed = false) (hc : s.here.ctlEmpty = true) (hl : s.here.tokensLeft = 0) (ho : s.here.nestOwed = [])
    (hp : s.preemptDue s.cur.core = false) (hpc : (s.en .sq).pc = pc) (hva : (target pc off).toNat % 64 = 0)
    (hk : s.check (target pc off).toNat 64 .read = .ok (.spad key))
    (hd : descriptorOk (BitVec.ofNat 512 (ofBytes (Bank.getRun 0 s.spad key 64))) (s.here.tcb.pages * 65536) = true) :
    exec (.idem off) s = .next (s.upd fun k =>
      (k.opened pc (BitVec.ofNat 512 (ofBytes (Bank.getRun 0 s.spad key 64)))).leaveAll k.cyc) := by
  show execIdem off s = _
  unfold execIdem
  dsimp only
  rw [he, if_pos (by rw [hg, hc]; rfl), if_neg (by rw [hl, ho]; exact Bool.false_ne_true), hp, ht, Bool.false_and]
  simp only [Bool.false_eq_true, if_false]
  rw [hpc, if_neg (not_not_intro hva), hk]
  dsimp only
  rw [load_spad hk]
  dsimp only
  rw [hd, if_neg (by exact Bool.false_ne_true)]
  refine congrArg Host.Outcome.next (upd_congr ?_)
  rw [show s.here.settle.sys.timed = false from ht]
  rfl

/-! The end of a task (R128, R262, R375) -/

/-- The log with one more record in its ring (R375). -/
def EventLog.append (l : EventLog) (r : LogRec) : EventLog :=
  { l with head := l.head + 1, ring := (l.head % l.entries, r) :: l.ring.filter fun x => decide (x.1 ≠ l.head % l.entries) }

theorem putRec_room (r : LogRec) (hh : s.log.held = []) (hr : s.log.head < s.log.tail + s.log.entries) :
    s.putRec r = { s with log := s.log.append r } := by
  unfold State.putRec
  exact if_pos (by rw [hh, decide_eq_true hr]; rfl)

theorem flushLaunch_spec (s : State) (p : BitVec 16) :
    s.flushLaunch p = { s with log := (s.flushLaunch p).log, launchWait := (s.flushLaunch p).launchWait } := by
  unfold State.flushLaunch
  dsimp only
  rw [putRecs_spec]

theorem flushLog_spec (s : State) (inst : Nat) :
    s.flushLog inst = { s with log := (s.flushLog inst).log, logWait := (s.flushLog inst).logWait } := by
  unfold State.flushLog
  dsimp only
  rw [putRecs_spec]

/-- No entry of a list has a key that none of them has. -/
theorem filter_key_none {α β : Type} [DecidableEq α] {l : List (α × β)} {a : α} (h : ∀ x ∈ l, x.1 ≠ a) (q : α × β → Bool) :
    l.filter (fun x => decide (x.1 = a) && q x) = [] :=
  List.filter_eq_nil_iff.mpr fun x hx => by rw [decide_eq_false (h x hx), Bool.false_and]; exact Bool.false_ne_true

theorem filter_key_last {α β : Type} [DecidableEq α] {l : List (α × β)} {a : α} {b : β} {q : α × β → Bool} (h : ∀ x ∈ l, x.1 ≠ a)
    (hq : q (a, b) = true) : (l ++ [(a, b)]).filter (fun x => decide (x.1 = a) && q x) = [(a, b)] := by
  rw [List.filter_append, filter_key_none h, List.nil_append, List.filter_cons_of_pos (by rw [hq, decide_eq_true rfl]; rfl), List.filter_nil]

/-- Where no record of a PART waits, none is written. -/
theorem log_flushLaunch {p : BitVec 16} (h : ∀ x ∈ s.launchWait, x.1 ≠ p) : (s.flushLaunch p).log = s.log := by
  unfold State.flushLaunch
  dsimp only
  rw [filter_key_none h, List.map_nil, List.mergeSort_nil, List.foldl_nil]

theorem log_flushLog {inst : Nat} (h : ∀ x ∈ s.logWait, x.1 ≠ inst) : (s.flushLog inst).log = s.log := by
  unfold State.flushLog
  dsimp only
  rw [filter_key_none h, List.map_nil, List.mergeSort_nil, List.foldl_nil]

/-- The task's launch, if it has one, is the one of its PART that is to be recorded next (R280). -/
def logsNext (s : State) (org : Origin) : Prop :=
  ∀ p n, org = .launch p n → (∀ x ∈ s.launchWait, x.1 ≠ p) ∧ ∀ x ∈ s.launchLive, x.1 = p → x.2 ≠ n → issuedNo n x.2 = false

/-- The record of a launch that no lower number holds up is written at once (R280, R375). -/
theorem flushLaunch_next {p : BitVec 16} {r : LogRec} (hw : ∀ x ∈ s.launchWait, x.1 ≠ p)
    (hl : ∀ x ∈ s.launchLive, x.1 = p → x.2 ≠ r.sseq → issuedNo r.sseq x.2 = false) (hh : s.log.held = [])
    (hr : s.log.head < s.log.tail + s.log.entries) :
    let t := ({ s with launchWait := s.launchWait ++ [(p, r)] } : State).flushLaunch p
    t.log = s.log.append r ∧ ∀ x ∈ t.launchWait, x.1 ≠ p := by
  have hearly : (s.launchLive.any fun x => decide (x.1 = p) && decide (x.2 ≠ r.sseq) && issuedNo r.sseq x.2) = false := by
    rw [List.any_eq_false]
    intro x hx
    simpa using hl x hx
  unfold State.flushLaunch
  dsimp only
  rw [filter_key_last hw (by rw [hearly]; rfl), List.map_singleton, List.mergeSort_singleton, List.foldl_cons, List.foldl_nil,
    putRec_room _ (by exact hh) (by exact hr)]
  refine ⟨rfl, fun x hx => ?_⟩
  obtain ⟨hx, hkeep⟩ := List.mem_filter.mp hx
  rcases List.mem_append.mp hx with hx | hx
  · exact hw x hx
  · rw [List.mem_singleton.mp hx, hearly] at hkeep
    simp at hkeep

/-- What a record of a task says of it (R375). -/
def recordsEnd (r : LogRec) (kind : Nat) (code : BitVec 8) (task : BitVec 32) : Prop := r.kind = kind ∧ r.code = code ∧ r.task = task

theorem logTask_next {c kind : Nat} {code : BitVec 8} {inH : Bool} {task : BitVec 32} {org : Origin} {addr : Word} (ho : logsNext s org)
    (hh : s.log.held = []) (hr : s.log.head < s.log.tail + s.log.entries) :
    let t := s.logTask c kind code inH task org addr
    (∃ r, recordsEnd r kind code task ∧ t.log = s.log.append r) ∧ ∀ p n, org = .launch p n → ∀ x ∈ t.launchWait, x.1 ≠ p := by
  have hown : ∃ r, recordsEnd r kind code task ∧ (s.logOwn 0 c kind code inH task 0xFFFFFFFF addr).log = s.log.append r := by
    let n := Bank.get 0 s.counts (0 * 256 + c)
    let u : State := { s with counts := Bank.set 0 s.counts (0 * 256 + c) (n + 1) }
    exact ⟨⟨s.sid 0 c, n, kind, code, inH, task, 0xFFFFFFFF, addr⟩, ⟨rfl, rfl, rfl⟩, congrArg State.log (putRec_room (s := u) _ hh hr)⟩
  cases org with
  | launch p n =>
    obtain ⟨hw, hl⟩ := ho p n rfl
    obtain ⟨hlog, hwait⟩ := flushLaunch_next (r := ⟨s.sid 0 c, n, kind, code, inH, task, n, addr⟩) hw hl hh hr
    exact ⟨⟨_, ⟨rfl, rfl, rfl⟩, hlog⟩, fun q m hq => by cases hq; exact hwait⟩
  | renq i => exact ⟨hown, nofun⟩
  | away pkg tag => exact ⟨hown, nofun⟩

theorem tellWatchers_spec (s : State) (gone : Watch → Bool) : s.tellWatchers gone =
    { s with outbox := (s.tellWatchers gone).outbox, counts := (s.tellWatchers gone).counts, watches := (s.tellWatchers gone).watches } := by
  have hfold (f : Watch → Out) (l : List Watch) (u : State) : l.foldl (fun s w => s.post 0 0 none (f w)) u =
      { u with outbox := (l.foldl (fun s w => s.post 0 0 none (f w)) u).outbox,
               counts := (l.foldl (fun s w => s.post 0 0 none (f w)) u).counts } := by
    induction l generalizing u with
    | nil => rfl
    | cons w l ih => rw [List.foldl_cons, ih, post_spec]
  unfold State.tellWatchers
  rw [hfold]

theorem launchEnds_spec (s : State) (org : Origin) : s.launchEnds org =
    { s with log := (s.launchEnds org).log, launchWait := (s.launchEnds org).launchWait, launchLive := (s.launchEnds org).launchLive } := by
  unfold State.launchEnds
  split
  · rw [flushLaunch_spec]
  · rfl
  · rfl

/-- What the end of a task leaves of the cores. -/
theorem cores_forget (s : State) (inst : Nat) : (s.forget inst).cores = s.cores ∧ (s.forget inst).cur = s.cur := by
  unfold State.forget
  dsimp only
  rw [flushLog_spec, tellWatchers_spec]
  exact ⟨rfl, rfl⟩

theorem log_launchEnds {org : Origin} (h : ∀ p n, org = .launch p n → ∀ x ∈ s.launchWait, x.1 ≠ p) : (s.launchEnds org).log = s.log := by
  cases org with
  | launch p n => exact log_flushLaunch (h p n rfl)
  | renq i => rfl
  | away pkg tag => rfl

theorem log_forget {inst : Nat} (h : ∀ x ∈ s.logWait, x.1 ≠ inst) : (s.forget inst).log = s.log := by
  show ((s.tellWatchers _).flushLog inst).log = _
  rw [log_flushLog]
  · rw [tellWatchers_spec]
  · rw [tellWatchers_spec]
    exact h

/-- Only the core whose task has ended changes. -/
theorem retireTask_cores (s : State) (c : Nat) : (s.retireTask c).cur = s.cur ∧ (s.retireTask c).core c = (s.core c).vacate ∧
    ∀ d, d ≠ c → (s.retireTask c).core d = s.core d := by
  let l := s.logTask c 1 0 false (s.core c).sys.taskid (s.core c).org 0
  let u := (l.launchEnds (s.core c).org).forget (s.core c).inst
  have hl : l.cores = s.cores ∧ l.cur = s.cur := by rw [show l = _ from logTask_spec ..]; exact ⟨rfl, rfl⟩
  have he : (l.launchEnds (s.core c).org).cores = l.cores ∧ (l.launchEnds (s.core c).org).cur = l.cur := by
    rw [launchEnds_spec]
    exact ⟨rfl, rfl⟩
  have hu : u.cores = s.cores ∧ u.cur = s.cur := by
    obtain ⟨hf, hc⟩ := cores_forget (l.launchEnds (s.core c).org) (s.core c).inst
    exact ⟨hf.trans (he.1.trans hl.1), hc.trans (he.2.trans hl.2)⟩
  have ht : s.retireTask c = u.setCore c (s.core c).vacate := rfl
  rw [ht]
  refine ⟨hu.2, ?_, fun d hd => ?_⟩
  · rw [core_setCore, if_pos rfl]
  · rw [core_setCore, if_neg hd, State.core, State.core, hu.1]

theorem retireTask_logs {c : Nat} (hw : ∀ x ∈ s.logWait, x.1 ≠ (s.core c).inst) (ho : logsNext s (s.core c).org) (hh : s.log.held = [])
    (hr : s.log.head < s.log.tail + s.log.entries) :
    ∃ r, recordsEnd r 1 0 (s.core c).sys.taskid ∧ (s.retireTask c).log = s.log.append r := by
  obtain ⟨⟨r, hrec, hlog⟩, hwait⟩ := logTask_next (c := c) (kind := 1) (code := 0) (inH := false)
    (task := (s.core c).sys.taskid) (addr := 0) ho hh hr
  refine ⟨r, hrec, ?_⟩
  show (((s.logTask c 1 0 false (s.core c).sys.taskid (s.core c).org 0).launchEnds (s.core c).org).forget (s.core c).inst).log = _
  rw [log_forget, log_launchEnds hwait, hlog]
  rw [launchEnds_spec, logTask_spec]
  exact hw

/-- `tend` with no command left retires the task, once what the core has under way has landed (R128). -/
theorem tend_retires (hg : s.here.gathered .sq = true) (hn : s.here.nestsDone = true) (hl : s.here.live = []) (hlate : s.here.late = []) :
    ∃ u, exec .tend s = .next (u.retireTask s.cur.core) ∧ landsOn Core.swept s.cur.core s u := by
  have hsweep (c : Nat) := landsOn_catchUp s s.cur.core c
  let c := s.here.meetCycle 0 true
  have hcur : (s.catchUp s.cur.core c).cur = s.cur := landsOn_cur (hsweep c)
  have hnone : (s.catchUp s.cur.core c).here.late = [] := (congrArg Core.late (swept_here_catchUp s c) :).trans hlate
  refine ⟨((s.catchUp s.cur.core c).landPend s.cur.core), ?_, landsOn_trans (hsweep c) (landsOn_swept (landsOn_landDue _ _ _))⟩
  show execTend s = _
  unfold execTend
  dsimp only
  rw [if_pos (by rw [hg, hn]; rfl), if_pos (by rw [hl]; rfl)]
  have hall : (s.catchUp s.cur.core c).performAll s.cur.core = s.catchUp s.cur.core c := by
    unfold State.here at hnone
    rw [hcur] at hnone
    unfold State.performAll State.performQueue
    dsimp only
    rw [hnone]
    rfl
  show Host.Outcome.next (((s.catchUp s.cur.core c).landAll (s.catchUp s.cur.core c).cur.core).retireTask (s.catchUp s.cur.core c).cur.core) = _
  rw [hcur, State.landAll, hall]

end

/-- Settles O16: each of the words takes all six engines past it together, with what it does besides. -/
theorem wordsOfAllSixEngines : Obligations.WordsOfAllSixEngines := by
  intro s e he hg past
  refine ⟨fun ht => ?_, fun ht hn bs c hbs hc => ?_, fun hc hn hp => ⟨?_, ?_⟩, fun off key ht hc hl ho hp => ?_, fun hsq hn hl hlate => ?_⟩
  · refine ⟨_, start_interlocked he hg ht, fun f => ?_, rfl, ?_⟩
    · rw [en_upd]
      exact allPast_leaveAll (fun _ => rfl) _ f
    · obtain ⟨hstill, hregs, -⟩ := leaveAll_spec s.here s.here.cyc
      exact ⟨by rw [here_upd, hstill], by rw [here_upd, hregs]⟩
  · have hmeet : s.here.meetCycle (s.syncHere e) false = c := by
      rw [hc, List.foldl_map, State.syncHere, hbs]
      rfl
    refine ⟨_, start_timed he hg ht hn hmeet, ?_⟩
    have hen (f : Eng) : (s.catchUp s.cur.core c).here.en f = s.here.en f := (congrArg (fun k : Core => k.en f) (swept_here_catchUp s c) :)
    obtain ⟨hstill, -, hleft⟩ := leaveAll_spec (s.catchUp s.cur.core c).here c
    refine ⟨fun f => ?_, ?_, fun f => ?_⟩
    · rw [en_upd]
      exact allPast_leaveAll hen c f
    · rw [here_upd]
      exact (congrArg Core.cyc hstill :)
    · obtain ⟨o, hf⟩ := hleft f
      rw [en_upd, hf]
      rfl
  · exact setMode_switches true he hg hc hn hp
  · exact setMode_switches false he hg hc hn hp
  · intro pc va d hva hk hd
    refine ⟨_, idem_opens he hg ht hc hl ho hp rfl hva hk hd, ?_⟩
    obtain ⟨hstill, hregs, -⟩ := leaveAll_spec (s.here.opened pc d) s.here.cyc
    have hsnap : ((s.here.opened pc d).leaveAll s.here.cyc).snap = s.here.snapshot := (congrArg Core.snap hstill :)
    refine ⟨fun f => ?_, rfl, ?_⟩
    · rw [en_upd]
      exact allPast_leaveAll (fun _ => rfl) _ f
    · rw [here_upd, hregs, hsnap]
      exact ⟨rfl, (of_still hstill).1, (congrArg Core.regionEntry hstill :), (congrArg Core.regionDesc hstill :),
        rfl, rfl, rfl, rfl, rfl, rfl, ht⟩
  · subst hsq
    obtain ⟨u, hu, hlands⟩ := tend_retires hg hn hl hlate
    obtain ⟨rcur, rcore, rothers⟩ := retireTask_cores u s.cur.core
    have hcur : u.cur = s.cur := landsOn_cur hlands
    obtain ⟨hu_eq, hothers, hswept⟩ := hlands
    have hhere : (u.retireTask s.cur.core).here = (u.core s.cur.core).vacate := by rw [State.here, rcur, hcur, rcore]
    refine ⟨_, hu, ?_⟩
    beta_reduce
    rw [hhere]
    refine ⟨rfl, (congrArg Core.queue0 hswept :), (congrArg Core.queue1 hswept :), fun c hc => (rothers c hc).trans (hothers c hc),
      fun hw hlaunch hheld hroom => ?_⟩
    have hinst : (u.core s.cur.core).inst = s.here.inst := (congrArg Core.inst hswept :)
    have horg : (u.core s.cur.core).org = s.here.org := (congrArg Core.org hswept :)
    have htask : (u.core s.cur.core).sys.taskid = s.here.sys.taskid := (congrArg (fun k : Core => k.sys.taskid) hswept :)
    have hlog : u.log = s.log := (congrArg State.log hu_eq :)
    obtain ⟨r, hrec, happend⟩ := retireTask_logs (s := u) (c := s.cur.core) (by rw [hinst, (congrArg State.logWait hu_eq :)]; exact hw)
      (by rw [horg, logsNext, (congrArg State.launchWait hu_eq :), (congrArg State.launchLive hu_eq :)]; exact hlaunch)
      (by rw [hlog]; exact hheld) (by rw [hlog]; exact hroom)
    obtain ⟨hkind, hcode, hrtask⟩ := hrec
    rw [happend, hlog]
    exact ⟨rfl, r, List.mem_cons_self, hkind, hcode, hrtask.trans htask⟩

end Sys2Proof.Machine
end

section
/-! PROOFS. What a core has under way lands without a look at its watchdog count (R276): of two states that differ in the counts of their
cores alone, each operation that lands something makes two such states. -/

namespace Sys2Proof.Machine

/-- A core under another watchdog count. -/
def Core.count (k : Core) (n : BitVec 32) : Core := { k with sys := { k.sys with wdCount := n } }

/-- Two states differ in watchdog counts alone, as far as reads of the cores show. -/
def sameButCounts (s t : State) : Prop := (∃ cs, t = { s with cores := cs }) ∧ ∀ c, ∃ n, t.core c = (s.core c).count n

section
variable {s t : State}

/-- A function of the state that neither reads nor changes a core. -/
def coreless (f : State → State) : Prop := ∀ (u : State) (cs : Bank Core), f { u with cores := cs } = { f u with cores := cs }

theorem sameButCounts_coreless {f : State → State} (hf : coreless f) (h : sameButCounts s t) : sameButCounts (f s) (f t) := by
  obtain ⟨⟨cs, rfl⟩, hc⟩ := h
  have hs : (f s).cores = s.cores := (congrArg State.cores (hf s s.cores) :)
  refine ⟨⟨cs, hf s cs⟩, fun c => ?_⟩
  obtain ⟨n, hn⟩ := hc c
  refine ⟨n, ?_⟩
  rw [hf s cs, State.core, State.core, hs]
  exact hn

theorem sameButCounts_setCore (h : sameButCounts s t) {c : Nat} {k u : Core} (hk : ∃ n, u = k.count n) :
    sameButCounts (s.setCore c k) (t.setCore c u) := by
  obtain ⟨⟨cs, rfl⟩, hc⟩ := h
  refine ⟨⟨_, rfl⟩, fun d => ?_⟩
  rw [core_setCore, core_setCore]
  split
  · exact hk
  · exact hc d

theorem sameButCounts_foldl {α : Type} {f : State → α → State} (hf : ∀ {u v : State} (x : α), sameButCounts u v → sameButCounts (f u x) (f v x))
    (l : List α) (h : sameButCounts s t) : sameButCounts (l.foldl f s) (l.foldl f t) := by
  induction l generalizing s t with
  | nil => exact h
  | cons x l ih => exact ih (hf x h)

/-! Registers -/

theorem setReg_count (k : Core) (n : BitVec 32) (d : Dest) (x : Nat) : (k.count n).setReg d x = (k.setReg d x).count n := by
  cases d with
  | s m => unfold Core.setReg; dsimp only; split <;> rfl
  | _ => rfl

theorem regNat_count (k : Core) (n : BitVec 32) (d : Dest) : (k.count n).regNat d = k.regNat d := by cases d <;> rfl

theorem writeRace_count (k : Core) (n : BitVec 32) (tick writer pos : Nat) (unord : Race → Bool) (d : Dest) (bm x : Nat) :
    (k.count n).writeRace tick writer pos unord d bm x = (k.writeRace tick writer pos unord d bm x).count n := by
  unfold Core.writeRace
  dsimp only
  rw [regNat_count, show (k.count n).races = k.races from rfl]
  split
  · exact setReg_count k n _ _
  · split
    · rfl
    · rw [setReg_count]
      rfl

theorem land_count (tick : Nat) (seen : List Pend) (k : Core) (n : BitVec 32) (p : Pend) :
    (k.count n).land tick seen p = (k.land tick seen p).count n := by
  unfold Core.land
  split
  · rw [regNat_count, setReg_count]
  · rw [setReg_count]
  · dsimp only
    rw [regNat_count]
    split
    · split
      · rfl
      · exact setReg_count k n _ _
    · exact setReg_count k n _ _

theorem landSeen_count (tick : Nat) (seen : List Pend) (k : Core) (n : BitVec 32) (p : Pend) :
    (k.count n).landSeen tick seen p = (k.landSeen tick seen p).count n := by
  unfold Core.landSeen
  dsimp only
  rw [land_count, show (k.count n).nests = k.nests from rfl]
  split
  · rw [regNat_count, regNat_count]; rfl
  · rw [regNat_count, regNat_count]; rfl
  · rfl

/-! Timed writes -/

theorem bankOp_coreless (s : State) (cs : Bank Core) (key : Nat) (op : BankOp) (x : Nat) :
    ({ s with cores := cs } : State).bankOp key op x = (s.bankOp key op x).map fun r => (r.1, { r.2 with cores := cs }) := by
  have hring (f : Ring → Option Ring) :
      ({ s with cores := cs } : State).onRing key f = (s.onRing key f).map fun r => (r.1, { r.2 with cores := cs }) := by
    unfold State.onRing
    rw [show ({ s with cores := cs } : State).ringAt key = s.ringAt key from rfl]
    split
    · rfl
    · split <;> rfl
  cases op with
  | amo op ty => rfl
  | cas ty =>
    unfold State.bankOp
    dsimp only [Except.map]
    rw [show ({ s with cores := cs } : State).spadNat key (ty.bits / 8) = s.spadNat key (ty.bits / 8) from rfl]
    split <;> rfl
  | bar arrive =>
    have hbar : ({ s with cores := cs } : State).barUpdate key arrive (BitVec.ofNat 32 x) =
        (s.barUpdate key arrive (BitVec.ofNat 32 x)).map fun u => { u with cores := cs } := by
      unfold State.barUpdate
      dsimp only
      rw [show ({ s with cores := cs } : State).barrierOk key = s.barrierOk key from rfl]
      rw [apply_ite (Except.map _), apply_ite (Except.map _), apply_ite (Except.map _)]
      rfl
    unfold State.bankOp
    dsimp only
    rw [hbar]
    cases s.barUpdate key arrive (BitVec.ofNat 32 x) <;> rfl
  | claim => exact hring fun r => some r.claim
  | fill => exact hring fun r => r.fill (BitVec.ofNat 32 x)
  | release => exact hring fun r => r.release (BitVec.ofNat 32 x)

theorem sameButCounts_cur (h : sameButCounts s t) : t.cur = s.cur := by
  obtain ⟨⟨cs, rfl⟩, -⟩ := h
  rfl

theorem sameButCounts_die (h : sameButCounts s t) (d : Nat) : t.die d = s.die d := by
  obtain ⟨⟨cs, rfl⟩, -⟩ := h
  rfl

theorem sameButCounts_free (h : sameButCounts s t) : t.free = s.free := by
  obtain ⟨⟨cs, rfl⟩, -⟩ := h
  rfl

theorem sameButCounts_landOne (h : sameButCounts s t) (c : Nat) (seen : List Pend) (p : Pend) :
    sameButCounts (s.landOne c seen p) (t.landOne c seen p) := by
  obtain ⟨n, hn⟩ := h.2 c
  have hfree := sameButCounts_free h
  unfold State.landOne
  rw [hfree, hn]
  split
  · split
    · exact h
    · next key _ _ =>
      exact sameButCounts_coreless (f := fun u => { u with free := s.free, spad := Bank.set 0 u.spad key (BitVec.ofNat 8 (p.val % 256)) })
        (fun _ _ => rfl) h
  · next key op sd _ =>
    obtain ⟨cs, hcs⟩ := h.1
    have hbank : t.bankOp key op p.val = (s.bankOp key op p.val).map fun r => (r.1, { r.2 with cores := cs }) := by
      rw [hcs]
      exact bankOp_coreless s cs key op p.val
    rw [hbank]
    cases hb : s.bankOp key op p.val with
    | error e => exact h
    | ok r =>
      obtain ⟨x, u⟩ := r
      have hu : u.cores = s.cores := (congrArg State.cores (bankOp_spec hb).1 :)
      have hsame : sameButCounts u { u with cores := cs } := by
        refine ⟨⟨cs, rfl⟩, fun d => ?_⟩
        obtain ⟨m, hm⟩ := h.2 d
        refine ⟨m, ?_⟩
        rw [hcs] at hm
        rw [State.core, State.core, hu]
        exact hm
      exact sameButCounts_setCore hsame ⟨n, landSeen_count _ _ _ n _⟩
  · exact sameButCounts_setCore h ⟨n, landSeen_count _ _ _ n _⟩

theorem sameButCounts_landSeq (c : Nat) (seen l : List Pend) (h : sameButCounts s t) :
    sameButCounts (State.landSeq c seen l s) (State.landSeq c seen l t) := by
  induction l generalizing seen s t with
  | nil => exact h
  | cons p l ih => exact ih _ (sameButCounts_landOne h c seen p)

theorem sameButCounts_landPend (h : sameButCounts s t) (c : Nat) : sameButCounts (s.landPend c) (t.landPend c) := by
  obtain ⟨n, hn⟩ := h.2 c
  unfold State.landPend State.landDue
  dsimp only
  rw [hn]
  exact sameButCounts_landSeq c [] _ (sameButCounts_setCore h ⟨n, rfl⟩)

/-! Stores that reach their home -/

section
variable (h : sameButCounts s t)
include h

theorem sameButCounts_countDrop (g : GenRef) : sameButCounts (countDrop s g) (countDrop t g) := by
  obtain ⟨n, hn⟩ := h.2 g.core
  have hw : window g.core (t.core g.core) (g.recAddr + 84) 4 = window g.core (s.core g.core) (g.recAddr + 84) 4 := by rw [hn]; rfl
  have htr : translate t (dieOf g.core) g.asid (g.recAddr + 84) = translate s (dieOf g.core) g.asid (g.recAddr + 84) := by
    obtain ⟨⟨cs, rfl⟩, -⟩ := h
    rfl
  unfold countDrop
  dsimp only
  rw [hw, htr]
  split
  · next key _ =>
    exact sameButCounts_coreless
      (f := fun u => { u with spad := Bank.setRun 0 u.spad key (toBytes 4 (ofBytes (Bank.getRun 0 u.spad key 4) + 1)) }) (fun _ _ => rfl) h
  · split
    · next x _ =>
      exact sameButCounts_coreless (f := fun u => putHome u x.phys (toBytes 4 (ofBytes (Bank.getRun 0 u.hbm x.phys 4) + 1))) (fun _ _ => rfl) h
    · exact h
  · exact h

theorem sameButCounts_admitGen (line : Nat) (g : Option GenRef) :
    (admitGen t line g).1 = (admitGen s line g).1 ∧ sameButCounts (admitGen s line g).2 (admitGen t line g).2 := by
  have htags : t.tags = s.tags := by
    obtain ⟨⟨cs, rfl⟩, -⟩ := h
    rfl
  unfold admitGen
  split
  · exact ⟨rfl, h⟩
  · next r =>
    dsimp only
    rw [htags]
    split
    · exact ⟨rfl, sameButCounts_countDrop h r⟩
    · exact ⟨rfl, sameButCounts_coreless (f := fun u => { u with tags := Bank.set 0 s.tags line (r.gen.toNat + 1) }) (fun _ _ => rfl) h⟩

theorem sameButCounts_drainAt (d n : Nat) : sameButCounts (drainAt s d n) (drainAt t d n) := by
  unfold drainAt
  dsimp only
  rw [sameButCounts_die h]
  split
  · exact h
  · next b _ =>
    obtain ⟨hok, hs⟩ := sameButCounts_admitGen h (b.phys / 128) b.gen
    rw [hok]
    split
    · split
      · exact sameButCounts_coreless (f := fun u => (landHome { u with ntDue := u.ntDue ++ [(b.stream / 6, b.phys / 128)] } b.phys b.bytes).setDie d
          { s.die d with buf := (s.die d).buf.eraseIdx n }) (fun _ _ => rfl) hs
      · exact sameButCounts_coreless (f := fun u => (landHome u b.phys b.bytes).setDie d { s.die d with buf := (s.die d).buf.eraseIdx n })
          (fun _ _ => rfl) hs
    · exact sameButCounts_coreless (f := fun u => u.setDie d { s.die d with
        buf := (s.die d).buf.eraseIdx n, lines := (s.die d).lines.filter fun l => decide (l.phys ≠ b.phys / 128) }) (fun _ _ => rfl) hs

end

theorem sameButCounts_drainNeeded (d : Nat) (need : BufStore → Bool) (n : Nat) (h : sameButCounts s t) :
    sameButCounts (drainNeeded d need n s) (drainNeeded d need n t) := by
  induction n generalizing s t with
  | zero => exact h
  | succ n ih =>
    unfold drainNeeded
    rw [sameButCounts_die h]
    split
    · exact ih (sameButCounts_drainAt h d _)
    · exact h

theorem sameButCounts_drainLine (d phys n : Nat) (h : sameButCounts s t) : sameButCounts (drainLine d phys n s) (drainLine d phys n t) := by
  induction n generalizing s t with
  | zero => exact h
  | succ n ih =>
    unfold drainLine
    rw [sameButCounts_die h]
    split
    · exact ih (sameButCounts_drainAt h d _)
    · exact h

section
variable (h : sameButCounts s t)
include h

theorem sameButCounts_landCombine (b : Combine) : sameButCounts (landCombine s b) (landCombine t b) := by
  obtain ⟨hok, hs⟩ := sameButCounts_admitGen h (b.phys / 128) b.gen
  unfold landCombine
  dsimp only
  rw [hok]
  split
  · exact sameButCounts_coreless (f := fun u => landHome u b.phys b.bytes) (fun _ _ => rfl) hs
  · exact hs

theorem sameButCounts_drainWc (c : Nat) (p : Combine → Bool) : sameButCounts (drainWc s c p) (drainWc t c p) := by
  obtain ⟨n, hn⟩ := h.2 c
  unfold drainWc
  dsimp only
  rw [hn]
  exact sameButCounts_setCore (sameButCounts_foldl (fun b hb => sameButCounts_landCombine hb b) _ h) ⟨n, rfl⟩

theorem sameButCounts_drainOldestWc (c : Nat) : sameButCounts (drainOldestWc s c) (drainOldestWc t c) := by
  obtain ⟨n, hn⟩ := h.2 c
  unfold drainOldestWc
  rw [hn, show ((s.core c).count n).wc = (s.core c).wc from rfl]
  split
  · split
    · exact sameButCounts_setCore (sameButCounts_landCombine h _) ⟨n, rfl⟩
    · exact h
  · exact h

theorem sameButCounts_combineStore (c : Nat) (asid : BitVec 12) (x : Trans) (bs : List Byte) (gen : Option GenRef) :
    sameButCounts (combineStore s c asid x bs gen) (combineStore t c asid x bs gen) := by
  unfold combineStore
  dsimp only
  refine sameButCounts_drainWc ?_ c _
  have hd := sameButCounts_drainWc h c fun b => decide (b.asid = asid) && decide (b.line = x.va / 128) && decide (b.gen ≠ gen)
  obtain ⟨n, hn⟩ := hd.2 c
  rw [hn, show (((drainWc s c fun b => decide (b.asid = asid) && decide (b.line = x.va / 128) && decide (b.gen ≠ gen)).core c).count n).wc =
    ((drainWc s c fun b => decide (b.asid = asid) && decide (b.line = x.va / 128) && decide (b.gen ≠ gen)).core c).wc from rfl]
  split
  · exact sameButCounts_setCore hd ⟨n, rfl⟩
  · have ho := sameButCounts_drainOldestWc hd c
    obtain ⟨m, hm⟩ := ho.2 c
    rw [hm]
    exact sameButCounts_setCore ho ⟨m, rfl⟩

theorem sameButCounts_makeRoom (d phys : Nat) : sameButCounts (makeRoom s d phys) (makeRoom t d phys) := by
  unfold makeRoom
  dsimp only
  rw [sameButCounts_die h]
  split
  · exact h
  · split
    · exact sameButCounts_drainLine _ _ _ h
    · exact h

theorem sameButCounts_bufStore (d stream : Nat) (asid : BitVec 12) (x : Trans) (bs : List Byte) (gen : Option GenRef) (nt : Bool) :
    sameButCounts (bufStore s d stream asid x bs gen nt) (bufStore t d stream asid x bs gen nt) := by
  have hroom := sameButCounts_makeRoom h d (x.phys / 128 * 128)
  obtain ⟨n, hn⟩ := hroom.2 (stream / 6)
  unfold bufStore
  dsimp only
  rw [sameButCounts_die hroom, hn]
  exact sameButCounts_coreless (f := fun u => u.setDie d _) (fun _ _ => rfl) hroom

theorem sameButCounts_putSpot (c stream : Nat) (asid : BitVec 12) (p : Spot) (bs : List Byte) (gen : Option GenRef) (nt : Bool) :
    sameButCounts (putSpot s c stream asid p bs gen nt) (putSpot t c stream asid p bs gen nt) := by
  cases p with
  | spad key => exact sameButCounts_coreless (f := fun u => { u with spad := Bank.setRun 0 u.spad key bs }) (fun _ _ => rfl) h
  | mem x =>
    unfold putSpot
    dsimp only
    split
    · exact sameButCounts_combineStore h c asid x bs gen
    · exact sameButCounts_bufStore (sameButCounts_coreless (f := fun u => patchLine u (dieOf c) asid x.va bs) (fun _ _ => rfl) h) _ _ _ _ _ _ _

/-! Accesses that were held back -/

theorem sameButCounts_performBefore (c : Nat) : sameButCounts (s.performBefore c) (t.performBefore c) := by
  obtain ⟨n, hn⟩ := h.2 c
  unfold State.performBefore
  rw [hn, sameButCounts_die h]
  exact sameButCounts_drainNeeded _ _ _ h

theorem sameButCounts_release (sc : Scope) : sameButCounts (s.release sc) (t.release sc) := by
  have hcur := sameButCounts_cur h
  have hdrain := sameButCounts_drainWc h s.cur.core fun _ => true
  unfold State.release drainCombine
  dsimp only
  rw [hcur]
  split <;> split
  · rw [sameButCounts_cur hdrain]
    exact sameButCounts_performBefore hdrain _
  · rw [hcur]
    exact sameButCounts_performBefore h _
  · exact hdrain
  · exact h

theorem sameButCounts_pendingBefore (c : Nat) : t.pendingBefore c = s.pendingBefore c := by
  obtain ⟨n, hn⟩ := h.2 c
  unfold State.pendingBefore
  rw [hn, sameButCounts_die h]
  rfl

theorem sameButCounts_spotCombined (c : Nat) (p : Spot) : sameButCounts (s.spotCombined c p) (t.spotCombined c p) := by
  cases p with
  | spad key => exact h
  | mem x => exact sameButCounts_drainWc h c _

theorem sameButCounts_published (c : Nat) (sc : Scope) (spot size : Nat) (a : Bool) (nos : List Nat) :
    sameButCounts (s.published c sc spot size a nos) (t.published c sc spot size a nos) := by
  unfold State.published
  dsimp only
  rw [sameButCounts_die h]
  generalize (if nos.isEmpty = true then [] else [(⟨spot, size, c, sc, nos⟩ : Sync)]) = new
  split
  · exact h
  · exact sameButCounts_coreless (f := fun u => u.setDie (dieOf c) _) (fun _ _ => rfl) h

theorem sameButCounts_publishFences (c spot size : Nat) : sameButCounts (s.publishFences c spot size) (t.publishFences c spot size) := by
  obtain ⟨n, hn⟩ := h.2 c
  unfold State.publishFences
  rw [hn]
  exact sameButCounts_foldl (f := fun u x => u.published c x.1 spot size true x.2) (fun x hu => sameButCounts_published hu c x.1 spot size true x.2)
    (s.core c).fenced (sameButCounts_published h c .core spot size false [])

omit h in
theorem fill_coreless (d : Nat) (asid : BitVec 12) (x : Trans) : coreless fun u => fill u d asid x := by
  intro u cs
  unfold fill
  beta_reduce
  rw [show dieLine { u with cores := cs } d asid x.va = dieLine u d asid x.va from rfl]
  split
  · rfl
  · split <;> rfl

theorem sameButCounts_readSpot (c : Nat) (asid : BitVec 12) (size : Nat) (p : Spot) :
    (t.readSpot c asid size p).1 = (s.readSpot c asid size p).1 ∧ sameButCounts (s.readSpot c asid size p).2 (t.readSpot c asid size p).2 := by
  obtain ⟨n, hn⟩ := h.2 c
  obtain ⟨cs, hcs⟩ := h.1
  cases p with
  | spad key => exact ⟨by rw [hcs]; rfl, h⟩
  | mem x =>
    have hview : viewLine t (dieOf c) asid x = viewLine s (dieOf c) asid x := by rw [hcs]; rfl
    refine ⟨?_, sameButCounts_coreless (fill_coreless (dieOf c) asid x) h⟩
    unfold State.readSpot
    dsimp only
    rw [hn, hview]
    rfl

theorem sameButCounts_saw (c spot size : Nat) : sameButCounts (s.saw c spot size) (t.saw c spot size) := by
  obtain ⟨n, hn⟩ := h.2 c
  unfold State.saw
  dsimp only
  rw [sameButCounts_die h, hn]
  split
  · exact h
  · exact sameButCounts_setCore h ⟨n, rfl⟩

theorem sameButCounts_performOne (c : Nat) (l : Late) : sameButCounts (State.performOne c s l) (State.performOne c t l) := by
  obtain ⟨n, hn⟩ := h.2 c
  unfold State.performOne
  dsimp only
  rw [hn, show ((s.core c).count n).sys.asid = (s.core c).sys.asid from rfl]
  split
  · next ty sd _ =>
    obtain ⟨hbytes, hread⟩ := sameButCounts_readSpot h c (s.core c).sys.asid l.size l.spot
    have hsaw := sameButCounts_saw hread c l.spot.code l.size
    obtain ⟨m, hm⟩ := hsaw.2 c
    rw [hbytes, hm, sameButCounts_free hsaw]
    split
    · exact hsaw
    · exact sameButCounts_setCore hsaw ⟨m, writeRace_count _ m _ _ _ _ _ _ _⟩
  · split
    · exact sameButCounts_publishFences (sameButCounts_putSpot h _ _ _ _ _ _ _) _ _ _
    · next sc _ =>
      have hcur : sameButCounts { s with cur := ⟨c, 0, 0⟩ } { t with cur := ⟨c, 0, 0⟩ } :=
        sameButCounts_coreless (f := fun u => { u with cur := ⟨c, 0, 0⟩ }) (fun _ _ => rfl) h
      have hput := sameButCounts_putSpot (sameButCounts_release hcur sc) c (6 * c) (s.core c).sys.asid l.spot l.data none false
      have hspot := sameButCounts_spotCombined hput c l.spot
      rw [sameButCounts_pendingBefore hspot, sameButCounts_cur h]
      exact sameButCounts_coreless (f := fun u => { u with cur := s.cur }) (fun _ _ => rfl)
        (sameButCounts_published (sameButCounts_release hspot sc) c sc l.spot.code l.size false _)

theorem sameButCounts_performQueue (c : Nat) (p : Late → Bool) : sameButCounts (s.performQueue c p) (t.performQueue c p) := by
  obtain ⟨n, hn⟩ := h.2 c
  unfold State.performQueue
  dsimp only
  rw [hn, show ((s.core c).count n).late = (s.core c).late from rfl]
  split
  · exact h
  · exact sameButCounts_foldl (fun l hu => sameButCounts_performOne hu c l) _ (sameButCounts_setCore h ⟨n, rfl⟩)

theorem sameButCounts_landAll (c : Nat) : sameButCounts (s.landAll c) (t.landAll c) :=
  sameButCounts_landPend (sameButCounts_performQueue h c _) c

end

/-- What the handler is entered from differs in watchdog counts alone. -/
theorem entersHandler_sameButCounts {v w t : State} {e : Eng} {code : Code} {a : Bool} {arg : Nat} (h : sameButCounts v w)
    (hw : Spec.entersHandler w t e code a arg) : Spec.entersHandler v t e code a arg := by
  have hrest : w.rest = v.rest := by
    obtain ⟨⟨cs, rfl⟩, -⟩ := h
    rfl
  obtain ⟨n, hn⟩ := h.2 v.cur.core
  have hhere : w.here = v.here.count n := by rw [State.here, sameButCounts_cur h, hn]; rfl
  unfold Spec.entersHandler State.en at hw ⊢
  rw [hrest, hhere] at hw
  exact hw

end

end Sys2Proof.Machine
end

section
/-! PROOFS. Dispatch and the watchdog (R262, R276). -/

namespace Sys2Proof.Machine

/-! The watchdog: WATCHDOG is raised with COUNT back at 0 -/

section
variable {s : State} (hruns : s.here.runs = true) (hf : s.here.finishing (some .sq) = false) (hw : ∀ e, (s.en e).wait = none)
include hruns hf hw

theorem watchdog_counts (hn : s.here.sys.wdCount + 1 ≠ s.here.sys.wdLimit) :
    exec .watchdog s = .next (s.upd fun k => { k with sys := { k.sys with wdCount := s.here.sys.wdCount + 1 } }) := by
  have hheld : s.watchdogHeld = false := by simp [State.watchdogHeld, hw]
  show execWatchdog s = _
  unfold execWatchdog
  dsimp only
  rw [if_neg (by rw [hruns, hf, hheld]; exact Bool.false_ne_true), if_neg hn]

theorem watchdog_traps (hn : s.here.sys.wdCount + 1 = s.here.sys.wdLimit) :
    exec .watchdog s = (s.upd fun k => k.count 0).trap .sq .watchdog 0 (s.atTag6 .sq) := by
  have hheld : s.watchdogHeld = false := by simp [State.watchdogHeld, hw]
  show execWatchdog s = _
  unfold execWatchdog
  dsimp only
  rw [if_neg (by rw [hruns, hf, hheld]; exact Bool.false_ne_true), if_pos hn]
  rfl

/-- At its limit the watchdog is a trap of the sequencer that enters the handler, with what has landed before it. -/
theorem watchdog_entersHandler (hn : s.here.sys.wdCount + 1 = s.here.sys.wdLimit) (hp : s.here.phase = .running)
    (hv : bit s.here.sys.trapvec 0 = true) :
    goesTo (exec .watchdog s) fun t => Spec.entersHandler (s.landAll s.cur.core) t .sq .watchdog false 0 := by
  have hsim : sameButCounts s (s.upd fun k => k.count 0) := by
    refine ⟨⟨_, rfl⟩, fun c => ?_⟩
    rw [core_upd]
    split
    · next hc => exact ⟨0, by rw [hc]; rfl⟩
    · exact ⟨(s.core c).sys.wdCount, rfl⟩
  have hr : s.here.requesting = false := by rw [Core.requesting, show (s.here.en .sq).wait = none from hw .sq]
  rw [watchdog_traps hruns hf hw hn]
  refine goesTo_imp (trap_entersHandler .sq .watchdog 0 (s.atTag6 .sq) ?_ ?_ ?_ ?_) fun t ht =>
    entersHandler_sameButCounts (sameButCounts_landAll hsim s.cur.core) ht
  all_goals rw [here_upd]
  · exact hp
  · exact hv
  · exact hr
  · exact hf

end

/-! Dispatch (R262) -/

/-- The core after an entry has left its queue. -/
def Core.dequeue (k : Core) (cls : Bool) (n : Nat) : Core :=
  if cls then { k with queue1 := k.queue1.eraseIdx n } else { k with queue0 := k.queue0.eraseIdx n }

theorem taskDispatch_entry {s : State} {cls : Bool} {n : Nat} {q : QEntry} (h : s.pickTask s.cur.core = some (.entry cls n q)) :
    ∃ inst base part, goesTo (exec .taskDispatch s) fun t => t.here = (s.here.dequeue cls n).dispatch q inst base part := by
  let cl := clusterOf s.cur.core
  let bases := s.windowBases cl q.tcb.pages
  let base := bases.getD (Config.pick s.free s.cur.core % bases.length) 0
  refine ⟨s.nextInst, base, s.partOf cl, ({ s with nextInst := s.nextInst + 1 } : State).upd fun k =>
    (k.dequeue cls n).dispatch q s.nextInst base (s.partOf cl), ?_, ?_⟩
  · show execTaskDispatch s = _
    unfold execTaskDispatch
    dsimp only
    rw [h]
    rfl
  · beta_reduce
    rw [here_upd]
    rfl

theorem en_dispatch (k : Core) (q : QEntry) (inst base : Nat) (part : BitVec 16) (e : Eng) :
    (k.dispatch q inst base part).en e = { EngSt.zero with pc := q.tcb.entry } := by
  unfold Core.dispatch
  rw [en_onAll]
  rfl

/-- Settles O21: dispatch leaves what R262 lists, the watchdog counts, and at its limit its trap enters the handler. -/
theorem dispatchAndWatchdog : Obligations.DispatchAndWatchdog := by
  intro s
  refine ⟨fun cls n q hpick => ?_, fun hruns hf hw => ⟨fun hn => ?_, fun hn hp hv => watchdog_entersHandler hruns hf hw hn hp hv⟩⟩
  · obtain ⟨inst, base, part, t, ht, hhere⟩ := taskDispatch_entry hpick
    refine ⟨t, ht, ?_⟩
    have hen (e : Eng) : t.en e = { EngSt.zero with pc := q.tcb.entry } := by rw [State.en, hhere, en_dispatch]
    have hregs : t.here.regs = { Regs.zero with s := Bank.set 0 [] 1 q.tcb.arg } := by rw [hhere]; rfl
    have hs (r : SReg) : t.sReg r = if r = 1 then q.tcb.arg else 0 := by
      have hone : r.toNat = 1 ↔ r = 1 := ⟨fun h => BitVec.eq_of_toNat_eq h, fun h => by rw [h]; rfl⟩
      rw [State.sReg, hregs, Bank.get_set]
      simp only [hone]
      split
      · next h => rw [h]; rfl
      · rfl
    unfold State.vReg State.mReg
    beta_reduce
    rw [hhere]
    refine ⟨rfl, fun e => ?_, rfl, rfl, rfl, rfl, rfl, rfl, rfl, rfl, rfl, rfl, rfl, rfl, rfl, rfl, rfl, rfl, rfl, rfl, hs, fun _ => rfl,
      fun _ => rfl, fun _ => rfl, fun _ => rfl, fun _ => rfl, fun _ => rfl, fun _ => rfl, rfl, rfl, rfl, ?_⟩
    · rw [hen]
      exact ⟨rfl, rfl, fun _ => rfl⟩
    · cases cls <;> exact ⟨rfl, rfl⟩
  · refine ⟨_, watchdog_counts hruns hf hw hn, rfl, ?_, ?_, ?_⟩
    all_goals rw [here_upd]

end Sys2Proof.Machine
end

section
/-! PROOFS. Scalar arithmetic in order, and the system registers that refuse an access (R101 to R109, R124, R125). -/

namespace Sys2Proof.Machine

/-- Settles O1: in order, a word of arithmetic reads what its registers hold, computes the spec's result and only writes its register. -/
theorem scalarArithmeticResults : Obligations.ScalarArithmeticResults := by
  intro s i sd x h hx
  rw [exec_scalarResult (rdS_inOrder h) hx]
  exact scalar_spec h sd x

/-- A write that the register's rule forbids, or of a register that takes no write, is refused with ILLEGAL (R124, R125). -/
theorem write_forbidden {s : State} {n : Nat} {v : Word} (h : ∀ old, s.readSys n = some old → Spec.sysAfter n v old = none) :
    s.here.sys.write n v = .error .illegal := by
  have allowed {old new : Word} (hold : s.readSys n = some old) (hnew : Spec.sysAfter n v old = some new) : False := by
    rw [h old hold] at hnew
    cases hnew
  unfold Sys.write
  split
  · -- SYS.MODE: another mode than the task's
    exact if_neg fun hbits => allowed (old := s.here.sys.mode) rfl (if_pos ((modeBits_iff s.here.sys v).mpr hbits))
  · -- SYS.SLIP: a bound out of range
    exact if_neg fun hrange => allowed rfl (if_pos hrange)
  · -- SYS.WDOG: a limit of 0
    by_cases hlimit : slice v 31 0 = 0
    · exact if_pos hlimit
    · exact (allowed rfl (if_neg hlimit)).elim
  · exact (allowed rfl rfl).elim
  · unfold Sys.writeOther
    split
    · exact (allowed rfl rfl).elim
    · exact (allowed rfl rfl).elim
    · exact (allowed rfl rfl).elim
    · exact (allowed rfl rfl).elim
    · rfl

theorem putSys_forbidden {s : State} {n : Nat} {v : Word} (h : ∀ old, s.readSys n = some old → Spec.sysAfter n v old = none) :
    s.putSys n v = .error .illegal := by
  unfold State.putSys
  rw [write_forbidden h]

theorem fetchSys_unassigned {s : State} {n : Nat} (h : s.readSys n = none) : s.fetchSys n = none := by
  have hn : n ≠ 1 := by
    rintro rfl
    cases h
  unfold State.fetchSys
  rw [if_neg hn, h]
  rfl

/-- Settles O9: an unassigned number has nothing to read, and a refused write is the trap ILLEGAL of the sequencer. -/
theorem systemRegisterFaults : Obligations.SystemRegisterFaults := by
  intro s n sd sa h hp hv hf hr
  have illegal := trap_entersHandler (s := s) .sq .illegal 0 false hp hv hr hf
  refine ⟨fun hnone => ?_, fun hforbidden => ⟨?_, ?_⟩⟩
  · have hexec : exec (.rsys sd n) s = s.trap .sq .illegal := by
      dsimp only [exec, execRsys]
      rw [fetchSys_unassigned hnone]
    rw [hexec]
    exact illegal
  · have hexec : exec (.wsys n sa) s = s.trap .sq .illegal := by
      dsimp only [exec, execWsys]
      rw [rdS_inOrder h, putSys_forbidden hforbidden]
      rfl
    rw [hexec]
    exact illegal
  · have hexec : exec (.xsys sd n sa) s = s.trap .sq .illegal := by
      dsimp only [exec, execXsys]
      rw [rdS_inOrder h, putSys_forbidden hforbidden]
      cases s.fetchSys n.toNat <;> rfl
    rw [hexec]
    exact illegal

end Sys2Proof.Machine
end

section
/-! PROOFS. Remote enqueue: what a task queue takes in, and the statuses that a renq names (R129, R262, R382). -/

namespace Sys2Proof.Machine

/-! A block joins a queue -/

/-- Of the task queues of the package one grows, by an entry at its end. -/
def joinsQueue (s t : State) (c : Nat) (q : QEntry) : Prop :=
  t.queueOf c q.tcb.cls = s.queueOf c q.tcb.cls ++ [q] ∧ ∀ d cls, (d, cls) ≠ (c, q.tcb.cls) → t.queueOf d cls = s.queueOf d cls

theorem queueOf_enqueue_other (s : State) {c d : Nat} {q : QEntry} {cls : Bool} (h : (d, cls) ≠ (c, q.tcb.cls)) :
    (s.enqueue c q).queueOf d cls = s.queueOf d cls := by
  unfold State.enqueue State.queueOf
  dsimp only
  rw [core_setCore]
  by_cases hd : d = c
  · subst hd
    have hcls : cls ≠ q.tcb.cls := fun he => h (by rw [he])
    rw [if_pos rfl]
    cases cls <;> cases hq : q.tcb.cls
    · exact absurd hq.symm hcls
    · rfl
    · rfl
    · exact absurd hq.symm hcls
  · rw [if_neg hd]

theorem joinsQueue_enqueue (s : State) (c : Nat) (q : QEntry) : joinsQueue s (s.enqueue c q) c q :=
  ⟨queueOf_enqueue s c q, fun _ _ h => queueOf_enqueue_other s h⟩

theorem joinsQueue_congr {s u t : State} {c : Nat} {q : QEntry} (h : joinsQueue s u c q) (ht : ∀ d cls, t.queueOf d cls = u.queueOf d cls) :
    joinsQueue s t c q := by
  unfold joinsQueue
  simp only [ht]
  exact h

/-- An entry changes a core in its queues alone. -/
theorem core_enqueue (s : State) (c : Nat) (q : QEntry) (d : Nat) :
    ∃ q0 q1, (s.enqueue c q).core d = { s.core d with queue0 := q0, queue1 := q1 } := by
  unfold State.enqueue
  dsimp only
  rw [core_setCore]
  split
  · next hd =>
    subst hd
    cases q.tcb.cls
    · exact ⟨_, _, rfl⟩
    · exact ⟨_, _, rfl⟩
  · exact ⟨_, _, rfl⟩

theorem here_enqueue (s : State) (c : Nat) (q : QEntry) :
    (s.enqueue c q).here.regs = s.here.regs ∧ (s.enqueue c q).here.eng = s.here.eng ∧ (s.enqueue c q).here.sys = s.here.sys ∧
      (s.enqueue c q).here.races = s.here.races := by
  obtain ⟨q0, q1, h⟩ := core_enqueue s c q s.cur.core
  have hhere : (s.enqueue c q).here = { s.here with queue0 := q0, queue1 := q1 } := h
  rw [hhere]
  exact ⟨rfl, rfl, rfl, rfl⟩

theorem en_enqueue (s : State) (c : Nat) (q : QEntry) (e : Eng) : (s.enqueue c q).en e = s.en e := by
  obtain ⟨-, heng, -⟩ := here_enqueue s c q
  unfold State.en Core.en
  rw [heng]

theorem inOrder_enqueue {s : State} {e : Eng} (h : inOrder s e) (c : Nat) (q : QEntry) : inOrder (s.enqueue c q) e := by
  obtain ⟨-, heng, hsys, hraces⟩ := here_enqueue s c q
  unfold inOrder Core.en
  rw [heng, hsys, hraces]
  exact h

/-! The word that has placed its block -/

/-- The sequencer goes on at its next word with status 0 in sd, and the block has joined its queue. -/
def placedOn (s t : State) (sd : SReg) (c : Nat) (q : QEntry) : Prop :=
  joinsQueue s t c q ∧ (t.en .sq).pc = (s.en .sq).pc + 8 ∧ ∀ r, t.sReg r = if r = sd ∧ sd ≠ 0 then 0 else s.sReg r

/-- Task queues depend on the core under the cursor by what a word that ends keeps of it, and by the watchdog's count by nothing. -/
theorem queueOf_of_ended {u t : State} (hr : t.rest = u.rest) (hc : ∀ c, c ≠ u.cur.core → t.core c = u.core c)
    (h0 : t.here.queue0 = u.here.queue0) (h1 : t.here.queue1 = u.here.queue1) (d : Nat) (cls : Bool) : t.queueOf d cls = u.queueOf d cls := by
  have hcur : t.cur = u.cur := rest_cur hr
  unfold State.queueOf
  by_cases hd : d = u.cur.core
  · have ht : t.core d = t.here := by rw [hd, ← hcur]; rfl
    have hu : u.core d = u.here := by rw [hd]; rfl
    rw [ht, hu, h0, h1]
  · rw [hc d hd]

/-- What a word that has written status 0 beside an entry of a queue shows: its end is any that leaves the registers and the queues. -/
theorem placedOn_of_ended {s w t : State} {sd : SReg} {c : Nat} {q : QEntry} (hin : inOrder s .sq) (hw : w = (s.enqueue c q).wrS .sq sd 0)
    (hr : t.rest = w.rest) (hc : ∀ d, d ≠ w.cur.core → t.core d = w.core d) (h0 : t.here.queue0 = w.here.queue0)
    (h1 : t.here.queue1 = w.here.queue1) (hregs : t.here.regs = w.here.regs) (hpc : (t.en .sq).pc = (w.en .sq).pc + 8) :
    placedOn s t sd c q := by
  obtain ⟨wrest, wcore, wen, wstill, -, wreg⟩ := wrS_inOrder (inOrder_enqueue hin c q) sd 0
  rw [← hw] at wrest wcore wen wstill wreg
  have hq (d : Nat) (cls : Bool) : t.queueOf d cls = (s.enqueue c q).queueOf d cls :=
    (queueOf_of_ended hr hc h0 h1 d cls).trans
      (queueOf_of_ended wrest wcore (congrArg Core.queue0 wstill :) (congrArg Core.queue1 wstill :) d cls)
  refine ⟨joinsQueue_congr (joinsQueue_enqueue s c q) hq, by rw [hpc, wen, en_enqueue], fun r => ?_⟩
  rw [sReg_congr hregs, wreg, sReg_congr (here_enqueue s c q).1]

/-- The word that finds room places its block and finishes. -/
theorem scalar_enqueue_placed {s : State} (h : inOrder s .sq) (sd : SReg) (c : Nat) (q : QEntry) :
    goesTo (scalar sd 0 (s.enqueue c q)) fun t => placedOn s t sd c q := by
  obtain ⟨t, ht, ⟨hr, hc, -, hpc, -⟩, hstill, hregs⟩ := finishes_done (s := (s.enqueue c q).wrS .sq sd 0) (e := .sq) rfl (fun _ _ => rfl)
    fun _ => rfl
  exact ⟨t, ht, placedOn_of_ended h rfl hr hc (congrArg Core.queue0 hstill :) (congrArg Core.queue1 hstill :) hregs hpc⟩

/-- A waiting instruction that finishes leaves what any word leaves, and starts the watchdog again (R276). -/
theorem finishWait_spec (u : State) (e : Eng) : goesTo (u.finishWait e) fun t => t.rest = u.rest ∧ (∀ c, c ≠ u.cur.core → t.core c = u.core c) ∧
    t.here = (u.here.leave e ((u.en e).pc + 8) 0).feed :=
  ⟨_, rfl, rfl, fun _ hc => core_upd_other _ _ hc, here_upd _ _⟩

/-- The word that has waited for room places its block and finishes. -/
theorem finishWait_enqueue_placed {s : State} (h : inOrder s .sq) (sd : SReg) (c : Nat) (q : QEntry) :
    goesTo (((s.enqueue c q).wrS .sq sd 0).finishWait .sq) fun t => placedOn s t sd c q := by
  obtain ⟨t, ht, hr, hc, hhere⟩ := finishWait_spec ((s.enqueue c q).wrS .sq sd 0) .sq
  generalize hw : (s.enqueue c q).wrS .sq sd 0 = w at ht hr hc hhere ⊢
  obtain ⟨hstill, hregs, -, -, o, hen⟩ := leave_spec w.here .sq ((w.en .sq).pc + 8) 0
  have hleft : (t.en .sq) = (w.here.leave .sq ((w.en .sq).pc + 8) 0).en .sq := by unfold State.en; rw [hhere]; rfl
  refine ⟨t, ht, placedOn_of_ended h hw.symm hr hc ?_ ?_ ?_ ?_⟩
  · rw [hhere]
    exact (congrArg Core.queue0 hstill :)
  · rw [hhere]
    exact (congrArg Core.queue1 hstill :)
  · rw [hhere]
    exact hregs
  · rw [hleft, hen]

/-! The statuses -/

theorem package_eq (s : State) : s.package = s.coord.extractLsb' 0 48 := BitVec.eq_of_toNat_eq (by simp [State.package, slice])

theorem ofNat_slice_package (sb : Word) : BitVec.ofNat 48 (slice sb 55 8) = sb.extractLsb' 8 48 := BitVec.eq_of_toNat_eq (by simp [slice])

theorem accepts_eq_false_iff {s : State} {c : Nat} (hc : c ≤ 159) :
    s.accepts c = false ↔ s.level = .boot ∨ s.level = .halted ∨ s.level = .reduced ∧ 4 ≤ c := by
  unfold State.accepts
  cases s.level <;> simp
  omega

/-- A block or a target that is malformed has status 3 (R129). -/
theorem enqueueStatus_malformed {s : State} {block : List Byte} {sb : Word} (h : readTcb block = none ∨ slice sb 63 56 ≠ 0 ∨
    159 < slice sb 7 0 ∨ coordOk s.mesh (sb.extractLsb' 8 48) = false) : s.enqueueStatus block sb = .status 3 := by
  unfold State.enqueueStatus
  dsimp only
  rw [ofNat_slice_package]
  cases hb : readTcb block with
  | none => rfl
  | some b =>
    have hmal := h.resolve_left (by rw [hb]; exact nofun)
    exact if_pos hmal

/-- What a well-formed block for a core of this package meets (R129). -/
theorem enqueueStatus_here {s : State} {block : List Byte} {sb : Word} {b : Tcb} (hb : readTcb block = some b) (h56 : slice sb 63 56 = 0)
    (htgt : slice sb 7 0 ≤ 159) (hpkg : sb.extractLsb' 8 48 = s.coord.extractLsb' 0 48) (hok : coordOk s.mesh (sb.extractLsb' 8 48) = true) :
    s.enqueueStatus block sb =
      if s.accepts (slice sb 7 0) = false then .status 1
      else if s.partOf (clusterOf s.cur.core) = 0xFFFF ∨ s.partOf (clusterOf (slice sb 7 0)) ≠ s.partOf (clusterOf s.cur.core) then .status 2
      else if s.queueRoom (slice sb 7 0) b.cls then .placed (slice sb 7 0) b
      else if slice sb 7 0 = s.cur.core then .status 4
      else .waits (slice sb 7 0) := by
  have hwell : ¬ (slice sb 63 56 ≠ 0 ∨ 159 < slice sb 7 0 ∨ coordOk s.mesh (sb.extractLsb' 8 48) = false) := by
    rw [h56, hok]
    simp only [ne_eq, not_true_eq_false, false_or, Bool.true_eq_false, or_false]
    omega
  unfold State.enqueueStatus
  dsimp only
  rw [ofNat_slice_package, hb]
  dsimp only
  rw [if_neg hwell, package_eq, hpkg, if_neg (fun h => h rfl)]

theorem queueRoom_iff (s : State) (c : Nat) (cls : Bool) : s.queueRoom c cls = true ↔ (s.queueOf c cls).length < 8 := decide_eq_true_iff

/-! The word -/

/-- A block in the task's own window is read from the scratchpad. -/
theorem load_taskOperand {s : State} {va n align key : Nat} (h : s.taskOperand va n align = .ok key) :
    s.load va n = (Bank.getRun 0 s.spad key n, s) := by
  have hwin : window s.cur.core s.here va n = .ok (.spad key) := by
    unfold State.taskOperand State.windowOperand at h
    split at h
    · next k hk =>
      split at h
      · cases h
      · split at hk
        · cases hk
        · split at hk
          · cases hk
          · split at hk
            · next hw =>
              cases h
              cases hk
              exact hw
            · cases hk
            · cases hk
    · cases h
  have hwin' : window s.cur.core (s.core s.cur.core) va n = .ok (.spad key) := hwin
  unfold State.load readMem
  rw [hwin']

section
variable {s : State} {sa sb : SReg} {key : Nat} (h : inOrder s .sq) (sd : SReg) (hu : s.here.sys.urgent = false)
  (ho : s.taskOperand (s.sReg sa).toNat 64 64 = .ok key) (hc : s.conflicts .sq [(key, key + 64)] false = false)
include h hu ho hc

/-- Past its checks a renq does with its block what its status says (R129). -/
theorem exec_renq : let block := Bank.getRun 0 s.spad key 64
    (∀ n, s.enqueueStatus block (s.sReg sb) = .status n → exec (.renq sd sa sb) s = scalar sd (BitVec.ofNat 64 n) s) ∧
    (∀ c t, s.enqueueStatus block (s.sReg sb) = .placed c t → exec (.renq sd sa sb) s = scalar sd 0 (s.enqueue c ⟨t, .renq s.here.inst⟩)) ∧
    ∀ c, s.enqueueStatus block (s.sReg sb) = .waits c → exec (.renq sd sa sb) s = s.await .sq (.renq sd c block) := by
  dsimp only [exec, execRenq]
  rw [rdS_inOrder h, hu, if_neg Bool.false_ne_true, ho]
  dsimp only [orTrap]
  rw [hc, if_neg Bool.false_ne_true, load_taskOperand ho]
  dsimp only
  rw [rdS_inOrder h]
  exact ⟨fun n hn => by rw [hn]; rfl, fun c t ht => by rw [ht]; rfl, fun c ht => by rw [ht]⟩

theorem renq_status {n : Nat} (hn : s.enqueueStatus (Bank.getRun 0 s.spad key 64) (s.sReg sb) = .status n) :
    goesTo (exec (.renq sd sa sb) s) fun t => finishes s t .sq ((s.en .sq).pc + 8) ∧ writesS s t sd (BitVec.ofNat 64 n) := by
  rw [(exec_renq h sd hu ho hc).1 n hn]
  exact scalar_spec h sd _

theorem renq_placed {c : Nat} {b : Tcb} (hb : s.enqueueStatus (Bank.getRun 0 s.spad key 64) (s.sReg sb) = .placed c b) :
    goesTo (exec (.renq sd sa sb) s) fun t => placedOn s t sd c ⟨b, .renq s.here.inst⟩ := by
  rw [(exec_renq h sd hu ho hc).2.1 c b hb]
  exact scalar_enqueue_placed h sd c _

theorem renq_waits {c : Nat} (hw : s.enqueueStatus (Bank.getRun 0 s.spad key 64) (s.sReg sb) = .waits c) :
    goesTo (exec (.renq sd sa sb) s) fun t => (t.en .sq).wait = some (.renq sd c (Bank.getRun 0 s.spad key 64)) ∧
      (t.en .sq).pc = (s.en .sq).pc ∧ t.rest = s.rest ∧ writesNone s t := by
  rw [(exec_renq h sd hu ho hc).2.2 c hw]
  refine ⟨_, rfl, ?_, ?_, rfl, ?_⟩
  · rw [en_upd, en_onEn, if_pos rfl]
  · rw [en_upd, en_onEn, if_pos rfl]
    rfl
  · exact ⟨by rw [here_upd, still_onEn], by rw [here_upd, regs_onEn]⟩

end

/-! The queue has room -/

/-- A renq of this core that waits places its block once the queue has room. -/
theorem renqQueueRoom_own {s : State} (h : inOrder s .sq) {sd : SReg} {c : Nat} {block : List Byte} {b : Tcb}
    (hw : (s.en .sq).wait = some (.renq sd c block)) (hb : readTcb block = some b) (hruns : s.here.runs = true)
    (hroom : (s.queueOf c b.cls).length < 8) : goesTo (exec .renqQueueRoom s) fun t => placedOn s t sd c ⟨b, .renq s.here.inst⟩ := by
  dsimp only [exec, execRenqQueueRoom]
  rw [hw]
  dsimp only
  rw [hb]
  dsimp only
  rw [hruns, (queueRoom_iff s c b.cls).mpr hroom]
  exact finishWait_enqueue_placed h sd c _

/-- A request of another package that is held joins the queue that has room, and is answered (R129). -/
theorem renqQueueRoom_away {s : State} {r : RenqReq} {b : Tcb} (hw : (s.en .sq).wait = none)
    (hr : (s.renqs.find? fun q => decide (q.target = s.cur.core)) = some r) (hb : readTcb r.block = some b) (hl : s.level = .full)
    (hcore : s.cur.core < 160) (hpart : r.part ≠ 0xFFFF) (hsame : s.partOf (clusterOf r.target) = r.part)
    (hroom : (s.queueOf r.target b.cls).length < 8) : goesTo (exec .renqQueueRoom s) fun t =>
      joinsQueue s t r.target ⟨b, .away r.pkg r.tag⟩ ∧ t.renqs = s.renqs.erase r ∧ ∃ x ∈ t.outbox, x.out = .renqDone r.pkg r.core r.tag 0 := by
  have htarget : r.target = s.cur.core := by simpa using List.find?_some hr
  have haccepts : ({ s with renqs := s.renqs.erase r } : State).accepts r.target = true := by
    unfold State.accepts
    dsimp only
    rw [hl, htarget]
    exact decide_eq_true hcore
  have hplace : ¬ (r.part = 0xFFFF ∨ ({ s with renqs := s.renqs.erase r } : State).partOf (clusterOf r.target) ≠ r.part) := by
    rintro (hnone | hother)
    · exact hpart hnone
    · exact hother hsame
  have hfree : ({ s with renqs := s.renqs.erase r } : State).queueRoom r.target b.cls = true := (queueRoom_iff s r.target b.cls).mpr hroom
  dsimp only [exec, execRenqQueueRoom]
  rw [hw]
  dsimp only [heldRenq]
  rw [hr]
  dsimp only [State.takeRenq]
  rw [hb]
  dsimp only
  rw [haccepts, if_neg (by decide), if_neg hplace, hfree, if_pos rfl]
  refine ⟨_, rfl, ?_, rfl, _, List.mem_append_right _ (List.mem_singleton.mpr rfl), rfl⟩
  exact joinsQueue_enqueue s r.target _

/-- Settles O17: the statuses are read in their order from the chain of R129, and wherever there is room the block is the youngest of its
class. -/
theorem remoteEnqueue : Obligations.RemoteEnqueue := by
  intro s sd sa sb h
  refine ⟨fun key hu ho hc => ⟨fun hmal => ?_, fun b hb h56 htgt hpkg hok => ?_⟩,
    fun c block b hw hb hruns hroom => renqQueueRoom_own h hw hb hruns hroom,
    fun r b hw hr hb hl hcore hpart hsame hroom => renqQueueRoom_away hw hr hb hl hcore hpart hsame hroom⟩
  · exact renq_status h sd hu ho hc (enqueueStatus_malformed hmal)
  · have hstatus := enqueueStatus_here hb h56 htgt hpkg hok
    have accepted (ha : ¬ (s.level = .boot ∨ s.level = .halted ∨ s.level = .reduced ∧ 4 ≤ slice (s.sReg sb) 7 0)) :
        ¬ s.accepts (slice (s.sReg sb) 7 0) = false := fun hf => ha ((accepts_eq_false_iff htgt).mp hf)
    refine ⟨fun habsent => ?_, fun hhere hpart => ?_, fun hhere hown hpart => ?_⟩
    · exact renq_status h sd hu ho hc (hstatus.trans (if_pos ((accepts_eq_false_iff htgt).mpr habsent)))
    · exact renq_status h sd hu ho hc (hstatus.trans ((if_neg (accepted hhere)).trans (if_pos hpart)))
    · have hinside : ¬ (s.partOf (clusterOf s.cur.core) = 0xFFFF ∨
          s.partOf (clusterOf (slice (s.sReg sb) 7 0)) ≠ s.partOf (clusterOf s.cur.core)) := not_or.mpr ⟨hown, not_not.mpr hpart⟩
      rw [if_neg (accepted hhere), if_neg hinside] at hstatus
      refine ⟨fun hroom => ?_, fun hfull htgt => ?_, fun hfull htgt => ?_⟩
      · exact renq_placed h sd hu ho hc (hstatus.trans (if_pos ((queueRoom_iff s _ _).mpr hroom)))
      · have hno : ¬ s.queueRoom (slice (s.sReg sb) 7 0) b.cls = true := fun hr => absurd ((queueRoom_iff s _ _).mp hr) (Nat.not_lt.mpr hfull)
        exact renq_status h sd hu ho hc (hstatus.trans ((if_neg hno).trans (if_pos htgt)))
      · have hno : ¬ s.queueRoom (slice (s.sReg sb) 7 0) b.cls = true := fun hr => absurd ((queueRoom_iff s _ _).mp hr) (Nat.not_lt.mpr hfull)
        exact renq_waits h sd hu ho hc (hstatus.trans ((if_neg hno).trans (if_neg htgt)))

end Sys2Proof.Machine
end

section
/-! PROOFS. What the order of accesses changes: its records, what releases send home, and what a queue performs (R141, R142, R146 to R149). -/

namespace Sys2Proof.Machine

/-! The records of order (R146, R155) -/

/-- A core with other records of order. -/
def Core.withOrder (k : Core) (hb : List Nat) (fenced : List (Scope × List Nat)) (loaded : List (Nat × Nat)) : Core :=
  { k with hb := hb, fenced := fenced, loaded := loaded }

/-- Nothing differs but the records of order of the core under the cursor. -/
def sameButOrder (s t : State) : Prop := t.rest = s.rest ∧ ∃ hb fenced loaded, t.here = s.here.withOrder hb fenced loaded

theorem sameButOrder_refl (s : State) : sameButOrder s s := ⟨rfl, _, _, _, rfl⟩

theorem sameButOrder_upd (s : State) (hb : List Nat) (fenced : List (Scope × List Nat)) (loaded : List (Nat × Nat)) :
    sameButOrder s (s.setCore s.cur.core (s.here.withOrder hb fenced loaded)) :=
  ⟨rfl, hb, fenced, loaded, here_upd s fun _ => _⟩

theorem sameButOrder_observe (s : State) (sc : Scope) (spot size : Nat) : sameButOrder s (s.observe s.cur.core sc spot size) := by
  unfold State.observe
  dsimp only
  split
  · exact sameButOrder_refl s
  · exact sameButOrder_upd s _ _ _

theorem sameButOrder_saw (s : State) (spot size : Nat) : sameButOrder s (s.saw s.cur.core spot size) := by
  unfold State.saw
  dsimp only
  split
  · exact sameButOrder_refl s
  · exact sameButOrder_upd s _ _ _

theorem sameButOrder_fenceLoaded (s : State) (sc : Scope) : sameButOrder s (s.fenceLoaded s.cur.core sc) := by
  unfold State.fenceLoaded
  dsimp only
  split
  · exact sameButOrder_refl s
  · exact sameButOrder_upd s _ _ _

theorem sameButOrder_fenceStores (s : State) (sc : Scope) : sameButOrder s (s.fenceStores sc) := by
  unfold State.fenceStores
  dsimp only
  split
  · exact sameButOrder_refl s
  · exact sameButOrder_upd s _ _ _

/-- What the bookkeeping of releases and acquires does at a spot, where it does anything. -/
theorem atSpot_cases (s : State) (va size : Nat) (f : State → Nat → State) : s.atSpot va size f = s ∨ ∃ n, s.atSpot va size f = f s n := by
  unfold State.atSpot
  split
  · exact .inl rfl
  · split
    · exact .inr ⟨_, rfl⟩
    · exact .inl rfl

/-! Caches and lines -/

theorem here_sameButCaches {s t : State} (h : sameButCaches s t) : t.here = s.here := by rw [h]; rfl

theorem cur_sameButCaches {s t : State} (h : sameButCaches s t) : t.cur = s.cur := by rw [h]

/-- An acquire takes lines out of the die cache and does nothing else (R139, R148). -/
theorem acquire_spec (s : State) (sc : Scope) : sameButCaches s (s.acquire sc) ∧ (∀ d, ((s.acquire sc).die d).buf = (s.die d).buf) ∧
    (Scope.wide sc = true → ((s.acquire sc).die (dieOf s.cur.core)).lines = []) ∧ (Scope.wide sc = false → s.acquire sc = s) := by
  unfold State.acquire dropLines
  split
  · next hw =>
    refine ⟨rfl, fun d => ?_, fun _ => by rw [die_setDie, if_pos rfl], fun hn => absurd hw (by rw [hn]; decide)⟩
    rw [die_setDie]
    split
    · next hd => rw [hd]
    · rfl
  · next hw => exact ⟨rfl, fun _ => rfl, fun h => absurd h hw, fun _ => rfl⟩

theorem acquire_wide {s : State} {sc : Scope} (h : Scope.wide sc = true) : s.acquire sc = dropLines s (dieOf s.cur.core) := if_pos h

/-! What a store changes of the cores -/

/-- The cursor stays, and of the cores only write-combining buffers differ. -/
def onlyCombines (s t : State) : Prop := t.cur = s.cur ∧ sameButCombining s t

theorem onlyCombines_refl (s : State) : onlyCombines s s := ⟨rfl, sameButCombining_of_cores rfl⟩

theorem onlyCombines_trans {s t u : State} (h : onlyCombines s t) (g : onlyCombines t u) : onlyCombines s u :=
  ⟨g.1.trans h.1, sameButCombining_trans h.2 g.2⟩

theorem onlyCombines_sameButCaches {s t : State} (h : sameButCaches s t) : onlyCombines s t := by
  rw [h]
  exact ⟨rfl, sameButCombining_of_cores rfl⟩

theorem core_onlyCombines {s t : State} (h : onlyCombines s t) (c : Nat) : ∃ wc, t.core c = { s.core c with wc := wc } := ⟨_, h.2 c⟩

theorem here_onlyCombines {s t : State} (h : onlyCombines s t) : ∃ wc, t.here = { s.here with wc := wc } := by
  obtain ⟨wc, hw⟩ := core_onlyCombines h s.cur.core
  exact ⟨wc, by unfold State.here; rw [h.1, hw]⟩

theorem onlyCombines_drainWc (s : State) (c : Nat) (p : Combine → Bool) : onlyCombines s (drainWc s c p) :=
  ⟨(sameControl_drainWc (sameControl_refl s) c p).1, sameButCombining_drainWc s c p⟩

theorem onlyCombines_learnSpot (s : State) (c : Nat) (asid : BitVec 12) (va : Nat) (nt : Bool) (p : Spot) :
    onlyCombines s (learnSpot s c asid va nt p) := by
  cases p with
  | spad key => exact onlyCombines_refl s
  | mem t => exact onlyCombines_sameButCaches (sameButCaches_learn s (dieOf c) asid va t !nt)

theorem onlyCombines_putSpot (s : State) (c stream : Nat) (asid : BitVec 12) (p : Spot) (bs : List Byte) (gen : Option GenRef) (nt : Bool) :
    onlyCombines s (putSpot s c stream asid p bs gen nt) :=
  ⟨(sameControl_putSpot (sameControl_refl s) c stream asid p bs gen nt).1, sameButCombining_putSpot s c stream asid p bs gen nt⟩

theorem onlyCombines_writePieces (c stream : Nat) (asid : BitVec 12) (gen : Option GenRef) (nt : Bool) (l : List Piece) (bs : List Byte)
    (s : State) : onlyCombines s (writePieces c stream asid gen nt l bs s) := by
  induction l generalizing s bs with
  | nil => exact onlyCombines_refl s
  | cons p r ih =>
    obtain ⟨va, n⟩ := p
    unfold writePieces
    split
    · exact onlyCombines_refl s
    · exact onlyCombines_trans (onlyCombines_trans (onlyCombines_learnSpot s c asid va nt _) (onlyCombines_putSpot _ c stream asid _ _ gen nt)) (ih _ _)

theorem onlyCombines_writeMem (s : State) (c stream va : Nat) (bs : List Byte) (nt : Bool) : onlyCombines s (writeMem s c stream va bs nt) := by
  unfold writeMem
  split
  · exact ⟨rfl, sameButCombining_of_cores rfl⟩
  · exact onlyCombines_writePieces _ _ _ _ _ _ _ s
  · exact onlyCombines_refl s

theorem store_interlocked {s : State} (ht : s.here.sys.timed = false) (e : Eng) (va : Nat) (bs : List Byte) :
    s.store e va bs = writeMem s s.cur.core (s.stream e) va bs false := if_neg (by rw [ht]; decide)

theorem onlyCombines_release (s : State) (sc : Scope) : onlyCombines s (s.release sc) :=
  ⟨(sameControl_release (sameControl_refl s) sc).1, sameButCombining_release s sc⟩

theorem onlyCombines_published (s : State) (c : Nat) (sc : Scope) (spot size : Nat) (a : Bool) (nos : List Nat) :
    onlyCombines s (s.published c sc spot size a nos) :=
  ⟨(sameControl_published (sameControl_refl s) c sc spot size a nos).1, sameButCombining_of_cores (cores_published s c sc spot size a nos)⟩

/-! What has been published (R146) -/

theorem sameButReleases_refl (s : State) : sameButReleases s s := ⟨rfl, fun _ => rfl⟩

theorem sameButReleases_trans {s t u : State} (h : sameButReleases s t) (g : sameButReleases t u) : sameButReleases s u := by
  obtain ⟨h1, h2⟩ := h
  obtain ⟨g1, g2⟩ := g
  exact ⟨by rw [g1, h1], fun d => by rw [g2, h2]⟩

theorem sameButReleases_published (s : State) (c : Nat) (sc : Scope) (spot size : Nat) (a : Bool) (nos : List Nat) :
    sameButReleases s (s.published c sc spot size a nos) := by
  have hset (l : List Sync) : sameButReleases s (s.setDie (dieOf c) { s.die (dieOf c) with syncs := l }) := by
    refine ⟨rfl, fun d => ?_⟩
    rw [die_setDie]
    split
    · next hd => rw [hd]
    · rfl
  have hif {p : Prop} [Decidable p] {t : State} (ht : sameButReleases s t) : sameButReleases s (if p then s else t) := by
    split
    · exact sameButReleases_refl s
    · exact ht
  unfold State.published
  exact hif (hset _)

theorem sameButReleases_publishFences (s : State) (c spot size : Nat) : sameButReleases s (s.publishFences c spot size) :=
  List.foldlRecOn (motive := fun t : State => sameButReleases s t) _ _ (sameButReleases_published s _ _ _ _ _ _) fun t h _ _ =>
    sameButReleases_trans h (sameButReleases_published t _ _ _ _ _ _)

/-! What of a write buffer happens before (R143, R147) -/

/-- No store in the write buffer of a core's die happens before the next access of the core's sequencer. -/
def State.settled (s : State) (c : Nat) : Prop := ∀ b ∈ (s.die (dieOf c)).buf, (s.core c).follows c b = false

/-- What happens before the next access depends on the order records of the core and on its engines. -/
theorem follows_congr {k u : Core} (he : u.eng = k.eng) (hh : u.hb = k.hb) (c : Nat) : u.follows c = k.follows c := by
  funext b
  unfold Core.follows Core.en
  rw [he, hh]

theorem follows_onlyCombines {s t : State} (h : onlyCombines s t) (c : Nat) : (t.core c).follows c = (s.core c).follows c := by
  obtain ⟨wc, hw⟩ := core_onlyCombines h c
  rw [hw]
  rfl

/-- None is needed exactly where none has to reach home (R139). -/
theorem neededAt_eq_none_iff {buf : List BufStore} {need : BufStore → Bool} : neededAt buf need = none ↔ ∀ b ∈ buf, need b = false := by
  unfold neededAt
  rw [List.findIdx?_eq_none_iff]
  refine ⟨fun h b hb => ?_, fun h b hb => ?_⟩
  · cases hn : need b with
    | false => rfl
    | true =>
      have hany : (buf.any fun x => decide (x.phys = b.phys) && need x && decide (b.no ≤ x.no)) = true :=
        List.any_eq_true.mpr ⟨b, hb, by simp [hn]⟩
      rw [h b hb] at hany
      cases hany
  · rw [List.any_eq_false]
    intro x hx
    rw [h x hx, Bool.and_false, Bool.false_and]
    exact Bool.false_ne_true

theorem drainNeeded_of_none {d : Nat} {need : BufStore → Bool} {s : State} (h : ∀ b ∈ (s.die d).buf, need b = false) (n : Nat) :
    drainNeeded d need n s = s := by
  cases n with
  | zero => rfl
  | succ n => rw [drainNeeded, neededAt_eq_none_iff.mpr h]

/-- With a turn for each buffered store, none that is needed stays (R147). -/
theorem drainNeeded_complete (d : Nat) (need : BufStore → Bool) (n : Nat) {s : State} (h : (s.die d).buf.length ≤ n) :
    ∀ b ∈ ((drainNeeded d need n s).die d).buf, need b = false := by
  induction n generalizing s with
  | zero =>
    have hnil : (s.die d).buf = [] := List.length_eq_zero_iff.mp (Nat.le_zero.mp h)
    rw [drainNeeded, hnil]
    exact fun _ hb => absurd hb List.not_mem_nil
  | succ n ih =>
    unfold drainNeeded
    split
    · next i hi =>
      have hlt : i < (s.die d).buf.length := (List.findIdx?_eq_some_iff_findIdx_eq.mp hi).1
      refine ih ?_
      rw [buf_drainAt, if_pos rfl, List.length_eraseIdx_of_lt hlt]
      omega
    · next hnone => exact neededAt_eq_none_iff.mp hnone

theorem settled_performBefore (s : State) (c : Nat) : (s.performBefore c).settled c := by
  unfold State.settled State.performBefore
  rw [core_eq (cores_drainNeeded _ _ _ s)]
  exact drainNeeded_complete _ _ _ (Nat.le_refl _)

/-- A release of package scope or wider leaves nothing in the die's buffer that happens before it (R147). -/
theorem settled_release (s : State) {sc : Scope} (h : Scope.wide sc = true) : (s.release sc).settled s.cur.core := by
  unfold State.release
  dsimp only
  rw [if_pos h]
  split
  · have hcur : (drainCombine s s.cur.core).cur = s.cur := (onlyCombines_drainWc s _ _).1
    rw [hcur]
    exact settled_performBefore _ _
  · exact settled_performBefore _ _

theorem release_narrow {s : State} {sc : Scope} (h : Scope.wide sc = false) : s.release sc = s := by
  have hsys : sc ≠ .sys := by
    rintro rfl
    cases h
  unfold State.release
  rw [if_neg hsys]
  exact if_neg (by rw [h]; decide)

/-! The end of a word -/

/-- A word of the sequencer ends after a state in which no engine has moved. -/
theorem done_moves {s u : State} (he : u.here.eng = s.here.eng) : goesTo (u.done .sq) fun t =>
    movesTo s t .sq ((s.en .sq).pc + 8) ∧ t.rest = u.rest ∧ t.here.still = u.here.still ∧ t.here.regs = u.here.regs := by
  have hen (f : Eng) : u.en f = s.en f := by unfold State.en Core.en; rw [he]
  obtain ⟨t, ht, ⟨hrest, -, hmove⟩, hstill, hregs⟩ := finishes_done (s := u) (u := u) (e := .sq) rfl (fun _ _ => rfl) fun _ => rfl
  refine ⟨t, ht, ?_, hrest, hstill, hregs⟩
  unfold movesTo at hmove ⊢
  simpa only [hen] using hmove

theorem die_rest {s t : State} (h : t.rest = s.rest) (d : Nat) : t.die d = s.die d := die_eq (congrArg (fun u : State => u.dies) h :) d

/-- A word that ends at once changes nothing of its core but the engine. -/
theorem done_writesNone (s : State) (e : Eng) : goesTo (s.done e) fun t => finishes s t e ((s.en e).pc + 8) ∧ writesNone s t := by
  obtain ⟨t, ht, hfin, hstill, hregs⟩ := finishes_done (s := s) (u := s) (e := e) rfl (fun _ _ => rfl) fun _ => rfl
  exact ⟨t, ht, hfin, hstill, hregs⟩

/-! What a queue performs (R141, R142) -/

theorem eng_of_sameControl {s t : State} (h : sameControl s t) : t.here.eng = s.here.eng := by
  have hc : t.here.control = s.here.control := by
    unfold State.here
    rw [h.1]
    exact h.2 _
  exact (congrArg Core.eng hc :)

theorem sys_writeRace (k : Core) (tick writer pos : Nat) (unord : Race → Bool) (n bm x : Nat) :
    (k.writeRace tick writer pos unord (.s n) bm x).sys = k.sys := by
  have hset (y : Nat) : (k.setReg (.s n) y).sys = k.sys := by
    unfold Core.setReg
    dsimp only
    split <;> rfl
  unfold Core.writeRace
  dsimp only
  split
  · rfl
  · exact hset _

theorem sys_saw (s : State) (c spot size d : Nat) : ((s.saw c spot size).core d).sys = (s.core d).sys := by
  unfold State.saw
  dsimp only
  split
  · rfl
  · rw [core_setCore]
    split
    · next hd => rw [hd]
    · rfl

theorem sameButCaches_readSpot (s : State) (c : Nat) (asid : BitVec 12) (n : Nat) (p : Spot) : sameButCaches s (s.readSpot c asid n p).2 := by
  cases p with
  | spad key => exact sameButCaches_refl s
  | mem t => exact sameButCaches_fill s (dieOf c) asid t

/-- An access that is performed changes no system register. -/
theorem sys_performOne (s : State) (c : Nat) (l : Late) (d : Nat) : ((State.performOne c s l).core d).sys = (s.core d).sys := by
  have of_combining {t : State} (h : sameButCombining s t) : (t.core d).sys = (s.core d).sys := by rw [h d]
  unfold State.performOne
  dsimp only
  split
  · have hs : (((s.readSpot c (s.core c).sys.asid l.size l.spot).2.saw c l.spot.code l.size).core d).sys = (s.core d).sys := by
      rw [sys_saw, sameButCaches_readSpot s c (s.core c).sys.asid l.size l.spot]
      rfl
    split
    · exact hs
    · rw [core_setCore]
      split
      · next hd =>
        subst hd
        rw [sys_writeRace]
        exact hs
      · exact hs
  · split
    · exact of_combining (sameButCombining_trans (sameButCombining_putSpot s c (6 * c) _ l.spot l.data _ _)
        (sameButCombining_of_cores (cores_publishFences _ _ _ _)))
    · next sc _ =>
      refine of_combining (sameButCombining_trans (sameButCombining_release { s with cur := ⟨c, 0, 0⟩ } sc) ?_)
      refine sameButCombining_trans (sameButCombining_putSpot _ c (6 * c) (s.core c).sys.asid l.spot l.data none false) ?_
      refine sameButCombining_trans (sameButCombining_spotCombined _ c l.spot) (sameButCombining_trans (sameButCombining_release _ sc) ?_)
      exact sameButCombining_of_cores (cores_published _ _ _ _ _ _ _)

theorem sys_performQueue (s : State) (c : Nat) (p : Late → Bool) (d : Nat) : ((s.performQueue c p).core d).sys = (s.core d).sys := by
  unfold State.performQueue
  dsimp only
  split
  · rfl
  · refine List.foldlRecOn (motive := fun t : State => (t.core d).sys = (s.core d).sys) _ _ ?_ fun t ht l _ => (sys_performOne t c l d).trans ht
    rw [core_setCore]
    split
    · next hd => rw [hd]
    · rfl

/-- Nothing is performed where none of the accesses is wanted. -/
theorem performQueue_none {s : State} {c : Nat} {p : Late → Bool} (h : ∀ l ∈ (s.core c).late, p l = false) : s.performQueue c p = s := by
  have hnone : State.closureOf (s.core c).late p = [] :=
    closureFold_unwanted p _ [] fun x hx => ⟨List.not_mem_nil, h x (List.mem_reverse.mp hx)⟩
  unfold State.performQueue
  dsimp only
  rw [hnone]
  rfl

/-- An access that a queue still holds was there before, and was not wanted. -/
theorem mem_late_performQueue {s : State} {c : Nat} {p : Late → Bool} {x : Late} (h : x ∈ ((s.performQueue c p).core c).late) :
    x ∈ (s.core c).late ∧ p x = false := by
  rw [late_performQueue, List.mem_filter] at h
  obtain ⟨hx, hout⟩ := h
  refine ⟨hx, ?_⟩
  cases hp : p x with
  | false => rfl
  | true => simp [mem_closureOf hx hp] at hout

theorem here_performQueue (s : State) (p : Late → Bool) : (s.performQueue s.cur.core p).cur = s.cur ∧
    (s.performQueue s.cur.core p).here.eng = s.here.eng ∧ (s.performQueue s.cur.core p).here.sys = s.here.sys ∧
    ∀ l ∈ (s.performQueue s.cur.core p).here.late, l ∈ s.here.late ∧ p l = false := by
  have hcontrol := sameControl_performQueue (sameControl_refl s) s.cur.core p
  have hhere : (s.performQueue s.cur.core p).here = (s.performQueue s.cur.core p).core s.cur.core := by unfold State.here; rw [hcontrol.1]
  refine ⟨hcontrol.1, eng_of_sameControl hcontrol, ?_, fun l hl => ?_⟩
  · rw [hhere]
    exact sys_performQueue s _ p _
  · rw [hhere] at hl
    exact mem_late_performQueue hl

/-! Fences (R147, R148, R155) -/

/-- The sequencer's end of a fence, after the accesses and stores that it orders: an acquiring one takes over what its loads have read of
releases, and empties the die cache where it reaches that far. -/
def State.fenceEnd (s : State) (k : FenceKind) (sc : Scope) : State := if k = .rel then s else (s.fenceLoaded s.cur.core sc).acquire sc

theorem fenceEnd_spec (u : State) (k : FenceKind) (sc : Scope) :
    (∃ hb fenced loaded, (u.fenceEnd k sc).here = u.here.withOrder hb fenced loaded) ∧
      (∀ d, ((u.fenceEnd k sc).die d).buf = (u.die d).buf) ∧
      (Scope.wide sc = true → k ≠ .rel → ((u.fenceEnd k sc).die (dieOf u.cur.core)).lines = []) ∧
      (Scope.wide sc = false → (u.fenceEnd k sc).rest = u.rest) := by
  unfold State.fenceEnd
  split
  · next hk => exact ⟨⟨_, _, _, rfl⟩, fun _ => rfl, fun _ hn => absurd hk hn, fun _ => rfl⟩
  · obtain ⟨hrest, horder⟩ := sameButOrder_fenceLoaded u sc
    obtain ⟨hcaches, hbuf, hlines, hnarrow⟩ := acquire_spec (u.fenceLoaded u.cur.core sc) sc
    rw [rest_cur hrest] at hlines
    refine ⟨?_, fun d => ?_, fun hw _ => hlines hw, fun hw => ?_⟩
    · rw [here_sameButCaches hcaches]
      exact horder
    · rw [hbuf, die_rest hrest]
    · rw [hnarrow hw]
      exact hrest

/-- What comes before the end of a fence: an acquiring one performs the older loads, and a releasing one releases. -/
def State.fenceStart (s : State) (k : FenceKind) (sc : Scope) : State :=
  if k = .acq then s.performQueue s.cur.core fun l => l.load.isSome else (s.release sc).fenceStores sc

theorem fenceStart_acq (s : State) (sc : Scope) : s.fenceStart .acq sc = s.performQueue s.cur.core fun l => l.load.isSome := rfl

theorem fenceStart_other {k : FenceKind} (hk : k ≠ .acq) (s : State) (sc : Scope) : s.fenceStart k sc = (s.release sc).fenceStores sc := if_neg hk

/-- A fence that waits for nothing outside (R147, R149). -/
theorem execFence_ends {s : State} {k : FenceKind} {sc : Scope}
    (h : k ≠ .acq → (Scope.beyond sc = false ∨ s.remoteWrites = false) ∧ (s.release sc).ntWaits sc = false) :
    exec (.fence k sc) s = ((s.fenceStart k sc).fenceEnd k sc).done .sq := by
  have hremote : ¬ (decide (k ≠ .acq) && Scope.beyond sc && s.remoteWrites) = true := by
    by_cases hk : k = .acq
    · simp [hk]
    · obtain ⟨hb | hr, -⟩ := h hk
      · simp [hb]
      · simp [hr]
  have hnt : ¬ (decide (k ≠ .acq) && (s.fenceStart k sc).ntWaits sc) = true := by
    by_cases hk : k = .acq
    · simp [hk]
    · have hrest := (sameButOrder_fenceStores (s.release sc) sc).1
      have hwaits : ((s.release sc).fenceStores sc).ntWaits sc = (s.release sc).ntWaits sc := by
        unfold State.ntWaits
        have hdue : ((s.release sc).fenceStores sc).ntDue = (s.release sc).ntDue := (congrArg (fun u : State => u.ntDue) hrest :)
        rw [hdue, rest_cur hrest]
      rw [fenceStart_other hk, hwaits, (h hk).2]
      simp
  show execFence k sc s = _
  unfold execFence
  rw [if_neg hremote]
  exact if_neg hnt

/-- What a fence has done before its end. -/
theorem fenceStart_spec (s : State) (k : FenceKind) (sc : Scope) :
    let u := s.fenceStart k sc
    u.cur = s.cur ∧ u.here.eng = s.here.eng ∧ u.here.sys = s.here.sys ∧ (∀ l ∈ u.here.late, l ∈ s.here.late ∧ (k = .acq → l.load = none)) ∧
      (Scope.wide sc = true → k ≠ .acq → ∀ b ∈ (u.die (dieOf s.cur.core)).buf, s.here.follows s.cur.core b = false) ∧
      ((∀ l ∈ s.here.late, l.load = none) → u.here.regs = s.here.regs ∧
        (Scope.wide sc = false → u.rest = s.rest ∧ u.here.still = s.here.still)) := by
  by_cases hk : k = .acq
  · subst hk
    obtain ⟨hcur, heng, hsys, hlate⟩ := here_performQueue s fun l => l.load.isSome
    rw [fenceStart_acq]
    refine ⟨hcur, heng, hsys, fun l hl => ⟨(hlate l hl).1, fun _ => ?_⟩, fun _ hn => absurd rfl hn, fun hnone => ?_⟩
    · exact Option.isSome_eq_false_iff.mp (hlate l hl).2 |> Option.isNone_iff_eq_none.mp
    · have hsame : (s.performQueue s.cur.core fun l => l.load.isSome) = s := performQueue_none fun l hl => by rw [hnone l hl]; rfl
      rw [hsame]
      exact ⟨rfl, fun _ => ⟨rfl, rfl⟩⟩
  · rw [fenceStart_other hk]
    obtain ⟨hrest, hb, fenced, loaded, hhere⟩ := sameButOrder_fenceStores (s.release sc) sc
    have honly := onlyCombines_release s sc
    obtain ⟨wc, hwc⟩ := here_onlyCombines honly
    rw [hwc] at hhere
    refine ⟨(rest_cur hrest).trans honly.1, by rw [hhere]; rfl, by rw [hhere]; rfl, fun l hl => ⟨?_, fun h => absurd h hk⟩, fun hw _ b hb => ?_,
      fun _ => ⟨by rw [hhere]; rfl, fun hw => ?_⟩⟩
    · rw [hhere] at hl
      exact hl
    · rw [die_rest hrest] at hb
      have hsettled := settled_release s hw b hb
      rw [follows_onlyCombines honly] at hsettled
      exact hsettled
    · rw [release_narrow hw] at hrest hwc
      refine ⟨by rw [release_narrow hw]; exact hrest, ?_⟩
      rw [hhere, ← hwc]
      rfl

/-- Settles O7: a hint is the end of its word; a fence is what it performs or releases, then what it takes over, then the end of its word. -/
theorem fencesAndHints : Obligations.FencesAndHints := by
  intro s
  refine ⟨fun _ _ _ => done_writesNone s .sq, done_writesNone s .sq, done_writesNone s s.engHere, fun k sc h => ?_⟩
  rw [execFence_ends h]
  obtain ⟨hcur, heng, hsys, hlate, hsettled, hquiet⟩ := fenceStart_spec s k sc
  obtain ⟨⟨hb, fenced, loaded, hhere⟩, hbuf, hlines, hnarrow⟩ := fenceEnd_spec (s.fenceStart k sc) k sc
  generalize s.fenceStart k sc = u at *
  obtain ⟨t, ht, hmove, hrest, hstill, hregs⟩ := done_moves (s := s) (u := u.fenceEnd k sc) (by rw [hhere]; exact heng)
  have hdie := die_rest hrest
  obtain ⟨htsys, -, -, -⟩ := of_still hstill
  have htlate : t.here.late = u.here.late := (congrArg Core.late hstill :).trans (by rw [hhere]; rfl)
  refine ⟨t, ht, hmove, ?_, fun l hl => hlate l (htlate ▸ hl), fun hw => ⟨fun hk b hb => ?_, fun hk => ?_⟩, fun hnone => ⟨?_, fun hw => ⟨?_, ?_⟩⟩⟩
  · rw [htsys, hhere]
    exact hsys
  · rw [hdie, hbuf] at hb
    exact hsettled hw hk b hb
  · rw [hdie, ← hcur]
    exact hlines hw hk
  · rw [hregs, hhere]
    exact (hquiet hnone).1
  · exact hrest.trans ((hnarrow hw).trans ((hquiet hnone).2 hw).1)
  · rw [hstill, hhere, ← ((hquiet hnone).2 hw).2]
    rfl

end Sys2Proof.Machine
end

section
/-! PROOFS. Scalar loads, at once and through the load queue (R110, R111, R141, R142, R151). -/

namespace Sys2Proof.Machine

/-! The value that a load extends (R1, R111) -/

theorem ofBytes_lt (bs : List Byte) : ofBytes bs < 256 ^ bs.length := by
  induction bs with
  | nil => exact Nat.one_pos
  | cons b bs ih =>
    have hb := b.isLt
    rw [ofBytes, List.length_cons, Nat.pow_succ]
    omega

theorem ofBytes_lt_bits {bs : List Byte} {w : Nat} (h : bs.length ≤ w / 8) : ofBytes bs < 2 ^ w :=
  calc ofBytes bs < 256 ^ bs.length := ofBytes_lt bs
    _ = 2 ^ (8 * bs.length) := by rw [Nat.pow_mul]
    _ ≤ 2 ^ w := Nat.pow_le_pow_right Nat.two_pos (by omega)

/-- No more bytes than the type has: their extension is what the rule says (R111). -/
theorem extend_ofBytes {ty : Fmt} {bs : List Byte} (h : bs.length ≤ ty.bits / 8) : extend ty (ofBytes bs) = Spec.loaded ty bs := by
  have hlt := ofBytes_lt_bits h
  unfold extend Spec.loaded signedOf
  rw [Nat.mod_eq_of_lt hlt]
  by_cases hs : ty.isSigned = true
  · rw [if_pos hs]
    by_cases hneg : 2 ^ (ty.bits - 1) ≤ ofBytes bs
    · rw [if_neg (Nat.not_lt.mpr hneg), if_pos ⟨hs, hneg⟩]
      push_cast
      rfl
    · rw [if_pos (Nat.not_le.mp hneg), if_neg fun g => hneg g.2]
      rfl
  · rw [if_neg hs, if_neg fun g => hs g.1]

theorem length_readPieces (c : Nat) (asid : BitVec 12) (f va n : Nat) (s : State) : (readPieces c asid (pieces f va n) s).1.length ≤ n := by
  induction f generalizing va n s with
  | zero => exact Nat.zero_le n
  | succ f ih =>
    rcases Nat.eq_zero_or_pos n with rfl | hn
    · exact Nat.le_refl 0
    · rw [pieces_succ f va hn]
      generalize hm : min n (128 - va % 128) = m
      have hle : m ≤ n := hm ▸ Nat.min_le_left _ _
      unfold readPieces
      split
      · exact Nat.zero_le n
      · have := ih (va + m) (n - m) s
        simp only [List.length_append, Bank.getRun_length]
        omega
      · dsimp only
        split
        · exact Nat.zero_le n
        · next t _ =>
          have := ih (va + m) (n - m) (fill (learn s (dieOf c) asid va t) (dieOf c) asid t)
          simp only [List.length_append, List.length_take, List.length_drop]
          omega

theorem length_load (s : State) (va n : Nat) : (s.load va n).1.length ≤ n := by
  unfold State.load readMem
  split
  · exact Nat.le_of_eq (Bank.getRun_length _ _ _ _)
  · exact length_readPieces _ _ _ _ _ s
  · exact Nat.zero_le n

/-! What an access of the sequencer leaves in its queue (R141, R142) -/

/-- What is wanted takes with it what it comes after (R141). -/
theorem after_closureOf {l : List Late} {p : Late → Bool} {x : Late} (hx : x ∈ l) (hp : p x = true) {n : Nat} (hn : n ∈ x.after) :
    n ∈ State.closureOf l p := by
  unfold State.closureOf
  refine foldl_establishes (P := fun w : List Nat => n ∈ w) (fun w => ?_) (fun w y hw => ?_) (List.mem_reverse.mpr hx) _
  · rw [hp, Bool.or_true, if_pos rfl]
    exact List.mem_cons_of_mem _ (List.mem_append_left _ hn)
  · split
    · exact List.mem_cons_of_mem _ (List.mem_append_right _ hw)
    · exact hw

/-- An access comes after exactly those that the rule puts first (R141, R142). -/
theorem comesAfter_iff (s : State) (x : Late) (va size : Nat) (spot : Spot) (isLoad : Bool) :
    s.comesAfter x va size spot isLoad = true ↔ Spec.standsFirst s x va size spot isLoad := by
  unfold State.comesAfter Spec.standsFirst rangesMeet
  simp only [Bool.or_eq_true, Bool.and_eq_true, decide_eq_true_eq, Bool.not_eq_true', decide_eq_false_iff_not]
  exact or_congr_right (and_congr_right fun _ => by omega)

theorem sameButCaches_learnSpot (s : State) (c : Nat) (asid : BitVec 12) (va : Nat) (nt : Bool) (p : Spot) :
    sameButCaches s (learnSpot s c asid va nt p) := by
  cases p with
  | spad key => exact sameButCaches_refl s
  | mem t => exact sameButCaches_learn s (dieOf c) asid va t !nt

/-- The sequencer's access as its queue holds it: behind those that come before it. -/
def State.entry (s : State) (va size : Nat) (spot : Spot) (load : Option (Fmt × Nat)) (data : List Byte) (rel : Option Scope) : Late :=
  ⟨s.nextId, (s.en .sq).issued, (s.en .sq).clk, (s.en .sq).joined, va, size, spot, load, data, rel,
    (s.here.late.filter fun x => s.comesAfter x va size spot load.isSome).map fun x => x.id⟩

/-- The state in which the sequencer's queue holds an entry. -/
def State.enter (s : State) (l : Late) : State :=
  State.upd { learnSpot s s.cur.core s.here.sys.asid l.va false l.spot with nextId := l.id + 1 } fun k => { k with late := k.late ++ [l] }

theorem here_enter (s : State) (l : Late) : (s.enter l).cur = s.cur ∧ (s.enter l).here = { s.here with late := s.here.late ++ [l] } := by
  have hcaches := sameButCaches_learnSpot s s.cur.core s.here.sys.asid l.va false l.spot
  refine ⟨(cur_sameButCaches hcaches :), ?_⟩
  unfold State.enter
  rw [here_upd]
  exact congrArg (fun k : Core => { k with late := k.late ++ [l] }) (here_sameButCaches hcaches)

/-- An access enters its queue, and is performed there where the device does not hold it back (R141). -/
theorem issueAccess_eq (s : State) (va size : Nat) (spot : Spot) (load : Option (Fmt × Nat)) (data : List Byte) (rel : Option Scope) :
    let l := s.entry va size spot load data rel
    s.issueAccess va size spot load data rel =
      if s.holdsBack 0 = true then s.enter l else (s.enter l).performQueue s.cur.core fun y => decide (y.id = l.id) := rfl

/-- What is left in the queue where an access has been performed was there before, and does not come before it (R141, R142). -/
theorem late_performEntry (s : State) (va size : Nat) (spot : Spot) (load : Option (Fmt × Nat)) (data : List Byte) (rel : Option Scope) :
    let l := s.entry va size spot load data rel
    ∀ x ∈ ((s.enter l).performQueue s.cur.core fun y => decide (y.id = l.id)).here.late,
      x ∈ s.here.late ∧ ¬ Spec.standsFirst s x va size spot load.isSome := by
  intro l x hx
  obtain ⟨hcur, hhere⟩ := here_enter s l
  have hlate : ((s.enter l).core s.cur.core).late = s.here.late ++ [l] := by
    rw [← hcur]
    exact congrArg Core.late hhere
  have hcore (p : Late → Bool) : ((s.enter l).performQueue s.cur.core p).here = ((s.enter l).performQueue s.cur.core p).core s.cur.core := by
    unfold State.here
    rw [(sameControl_performQueue (sameControl_refl _) _ _).1, hcur]
  rw [hcore, late_performQueue, List.mem_filter, hlate, List.mem_append, List.mem_singleton] at hx
  obtain ⟨hx, hout⟩ := hx
  have hout : x.id ∉ State.closureOf (s.here.late ++ [l]) fun y => decide (y.id = l.id) := by simpa using hout
  have hl : l ∈ s.here.late ++ [l] := List.mem_append_right _ (List.mem_singleton.mpr rfl)
  rcases hx with hx | rfl
  · refine ⟨hx, fun hfirst => hout (after_closureOf hl (decide_eq_true rfl) ?_)⟩
    exact List.mem_map_of_mem (List.mem_filter.mpr ⟨hx, (comesAfter_iff s x va size spot load.isSome).mpr hfirst⟩)
  · exact absurd (mem_closureOf hl (decide_eq_true rfl)) hout

/-- An access that the device holds back stands in its queue behind those that are there (R141, R142). -/
theorem heldBack_entry (s : State) {t : State} {va size : Nat} {spot : Spot} {load : Option (Fmt × Nat)} {data : List Byte} {rel : Option Scope}
    (hregs : t.here.regs = s.here.regs) (hlate : t.here.late = s.here.late ++ [s.entry va size spot load data rel]) :
    Spec.heldBack s t va size spot load fun bs r => bs = data ∧ r = rel := by
  refine ⟨hregs, _, hlate, rfl, rfl, rfl, rfl, ⟨rfl, rfl⟩, fun x hx hfirst => ?_, fun n hn => ?_⟩
  · exact List.mem_map_of_mem (List.mem_filter.mpr ⟨hx, (comesAfter_iff s x va size spot load.isSome).mpr hfirst⟩)
  · obtain ⟨x, hx, hid⟩ := List.mem_map.mp hn
    obtain ⟨hx, hafter⟩ := List.mem_filter.mp hx
    exact ⟨x, hx, hid, (comesAfter_iff s x va size spot load.isSome).mp hafter⟩

/-- A scalar access goes through its queue: it stays there, or it is performed with what it comes after (R141, R142). -/
theorem queued_spec {s : State} {kind : Kind} {va size : Nat} {spot : Spot}
    (hspot : spotOf s s.cur.core s.here.sys.asid kind (va, size) = .ok spot) (load : Option (Fmt × Nat)) (data : List Byte) (rel : Option Scope) :
    goesTo (s.queued kind va size load data rel) fun t => movesTo s t .sq ((s.en .sq).pc + 8) ∧
      if s.holdsBack 0 = true then Spec.heldBack s t va size spot load fun bs r => bs = data ∧ r = rel
      else Spec.performedIn s t va size spot load.isSome := by
  have hqueued : s.queued kind va size load data rel = (s.issueAccess va size spot load data rel).done .sq := by
    unfold State.queued
    rw [hspot]
    rfl
  rw [hqueued, issueAccess_eq]
  obtain ⟨hcur, hhere⟩ := here_enter s (s.entry va size spot load data rel)
  split
  · obtain ⟨t, ht, hmove, -, hstill, hregs⟩ := done_moves (s := s) (u := s.enter (s.entry va size spot load data rel)) (by rw [hhere])
    refine ⟨t, ht, hmove, heldBack_entry s (by rw [hregs, hhere]) ?_⟩
    exact (congrArg Core.late hstill :).trans (by rw [hhere]; rfl)
  · have hlate := late_performEntry s va size spot load data rel
    have heng := eng_of_sameControl (sameControl_performQueue (sameControl_refl (s.enter (s.entry va size spot load data rel))) s.cur.core
      fun y => decide (y.id = (s.entry va size spot load data rel).id))
    obtain ⟨t, ht, hmove, -, hstill, -⟩ := done_moves (s := s) (heng.trans (by rw [hhere]))
    have htlate := (congrArg Core.late hstill :)
    exact ⟨t, ht, hmove, fun x hx => hlate x (htlate ▸ hx)⟩

/-! A load that is performed as it issues (R111, R139, R151) -/

theorem here_wrS (s : State) (e : Eng) (sd : SReg) (x : Word) :
    (s.wrS e sd x).here.eng = s.here.eng ∧ (s.wrS e sd x).here.late = s.here.late := by
  have hwr (k : Core) (d : Dest) (bm y : Nat) : (k.writeReg s.free e d bm y).eng = k.eng ∧ (k.writeReg s.free e d bm y).late = k.late := by
    unfold Core.writeReg
    split
    · exact ⟨rfl, rfl⟩
    · exact ⟨(of_control (control_writeRace k _ _ _ _ d bm y)).2.1, late_writeRace k _ _ _ _ d bm y⟩
  unfold State.wrS State.wr
  split
  · exact ⟨rfl, rfl⟩
  · rw [here_upd]
    exact hwr _ _ _ _

/-- Whether a word is in order does not depend on the order of accesses that its core keeps. -/
theorem inOrder_withOrder {s t : State} {hb : List Nat} {fenced : List (Scope × List Nat)} {loaded : List (Nat × Nat)}
    (ht : t.here = s.here.withOrder hb fenced loaded) {e : Eng} (h : inOrder s e) : inOrder t e := by
  unfold inOrder
  rw [ht]
  exact h

/-- The end of a load but for the step of its engine: bytes of the memory, the bookkeeping of order at their spot, and the register. -/
def State.loadReg (s : State) (va n : Nat) (f : State → Nat → State) (sd : SReg) (g : List Byte → Word) : State :=
  ((s.load va n).2.atSpot va n f).wrS .sq sd (g (s.load va n).1)

/-- Nothing of the package has changed but its caches and its cores. -/
def cachesFrom (s t : State) : Prop := t.rest = { s.rest with dies := t.rest.dies, trans := t.rest.trans, llc := t.rest.llc }

theorem cachesFrom_sameButCaches {s t : State} (h : sameButCaches s t) : cachesFrom s t := by
  unfold cachesFrom
  rw [h]
  rfl

theorem cachesFrom_trans {s t u : State} (h : cachesFrom s t) (g : cachesFrom t u) : cachesFrom s u := by
  unfold cachesFrom at *
  rw [g, h]

theorem cachesFrom_rest {s t u : State} (h : cachesFrom s t) (g : u.rest = t.rest) : cachesFrom s u := by
  unfold cachesFrom
  rw [g]
  exact h

theorem sameButCaches_of_cachesFrom {s t : State} (h : cachesFrom s t) : ∃ v, sameButCaches s v ∧ t.rest = v.rest :=
  ⟨{ s with dies := t.dies, trans := t.trans, llc := t.llc }, rfl, h⟩

theorem sameButOrder_atSpot (s : State) (va n : Nat) {f : State → Nat → State} (hf : ∀ t x, sameButOrder t (f t x)) :
    sameButOrder s (s.atSpot va n f) := by
  rcases atSpot_cases s va n f with h | ⟨x, h⟩
  · rw [h]; exact sameButOrder_refl s
  · rw [h]; exact hf s x

theorem loadReg_spec (s : State) (va n : Nat) {f : State → Nat → State} (hf : ∀ t x, sameButOrder t (f t x)) (sd : SReg) (g : List Byte → Word) :
    let t := s.loadReg va n f sd g
    t.here.eng = s.here.eng ∧ t.here.late = s.here.late ∧ cachesFrom s t ∧ (inOrder s .sq → writesS s t sd (g (s.load va n).1)) := by
  have hcaches := sameButCaches_load s va n
  obtain ⟨hrest, hb, fenced, loaded, hhere⟩ := sameButOrder_atSpot (s.load va n).2 va n hf
  rw [here_sameButCaches hcaches] at hhere
  unfold State.loadReg
  generalize (s.load va n).2.atSpot va n f = u at hrest hhere ⊢
  obtain ⟨heng, hlate⟩ := here_wrS u .sq sd (g (s.load va n).1)
  refine ⟨heng.trans (by rw [hhere]; rfl), hlate.trans (by rw [hhere]; rfl), ?_, fun hord => ?_⟩
  · exact cachesFrom_rest (cachesFrom_sameButCaches hcaches) ((rest_wrS u .sq sd _).trans hrest)
  · obtain ⟨-, -, -, hstill, hregs, hs⟩ := wrS_inOrder (inOrder_withOrder hhere hord) sd (g (s.load va n).1)
    have hu : u.here.regs = s.here.regs := by rw [hhere]; rfl
    refine ⟨hstill.trans (by rw [hhere]; rfl), hregs.trans (by rw [hu]), fun r => ?_⟩
    rw [hs, sReg_congr hu]

theorem execLd_ok {s : State} (h : inOrder s .sq) {ty : Fmt} {sa : SReg} {off : BitVec 27} {p : Place}
    (hc : s.scalarCheck .sq (Spec.address (s.sReg sa) off) (ty.bits / 8) .read = .ok p) (sd : SReg) :
    let va := Spec.address (s.sReg sa) off
    let n := ty.bits / 8
    exec (.ld ty sd sa off) s = if s.queues = true then s.queued .read va n (some (ty, sd.toNat)) [] none
      else (s.loadReg va n (fun t x => t.saw t.cur.core x n) sd fun bs => extend ty (ofBytes bs)).done .sq := by
  show execLd ty sd sa off s = _
  unfold execLd
  rw [rdS_inOrder h]
  have hc' : s.scalarCheck .sq (scalarAddr (s.sReg sa) off) (ty.bits / 8) .read = .ok p := hc
  dsimp only
  rw [hc']
  rfl

/-- The older accesses that an acquire load comes after (R151). -/
def State.beforeAcquire (s : State) (va n : Nat) (x : Late) : Bool := x.load.isSome || rangesMeet (s.canonRange x.va x.size) (s.canonRange va n)

theorem execLdacq_ok {s : State} (h : inOrder s .sq) {ty : Fmt} {sa : SReg} {off : BitVec 24} {p : Place}
    (hc : s.scalarCheck .sq (Spec.address (s.sReg sa) off) (ty.bits / 8) .read = .ok p) (sc : Scope) (sd : SReg) :
    let va := Spec.address (s.sReg sa) off
    let n := ty.bits / 8
    exec (.ldacq ty sc sd sa off) s = ((((s.performQueue s.cur.core (s.beforeAcquire va n)).acquire sc).loadReg va n
      (fun t x => t.observe t.cur.core sc x n) sd fun bs => extend ty (ofBytes bs)).acquire sc).done .sq := by
  show execLdacq ty sc sd sa off s = _
  unfold execLdacq
  rw [rdS_inOrder h]
  have hc' : s.scalarCheck .sq (scalarAddr (s.sReg sa) off) (ty.bits / 8) .read = .ok p := hc
  dsimp only
  rw [hc']
  rfl

/-- What a load from a state with the same core leaves, where its word then ends. -/
def loads (s u t : State) (ty : Fmt) (sd : SReg) (va : Nat) : Prop :=
  { t.here.regs with s := [] } = { s.here.regs with s := [] } ∧ t.here.still = s.here.still ∧
    (∀ r, t.sReg r = if r = sd ∧ sd ≠ 0 then Spec.loaded ty (u.load va (ty.bits / 8)).1 else s.sReg r) ∧
    ∃ v, sameButCaches u v ∧ t.rest = v.rest

theorem loads_of_writesS {s u t v : State} {ty : Fmt} {sd : SReg} {va : Nat} (hu : u.here = s.here)
    (hw : writesS u v sd (extend ty (ofBytes (u.load va (ty.bits / 8)).1))) (hv : cachesFrom u v)
    (hrest : t.rest = v.rest) (hstill : t.here.still = v.here.still) (hregs : t.here.regs = v.here.regs) : loads s u t ty sd va := by
  rw [extend_ofBytes (length_load u va _)] at hw
  obtain ⟨h1, h2, h3⟩ := writesS_congr hstill hregs hw
  rw [hu] at h1 h2
  refine ⟨h2, h1, fun r => ?_, ?_⟩
  · rw [h3, sReg_congr (congrArg Core.regs hu)]
  · obtain ⟨w, hw, hrw⟩ := sameButCaches_of_cachesFrom hv
    exact ⟨w, hw, hrest.trans hrw⟩

theorem execLd_spec {s : State} (h : inOrder s .sq) {ty : Fmt} {sa : SReg} {off : BitVec 27} {p : Place}
    (hc : s.scalarCheck .sq (Spec.address (s.sReg sa) off) (ty.bits / 8) .read = .ok p) (sd : SReg) (hq : s.queues = false) :
    goesTo (exec (.ld ty sd sa off) s) fun t => movesTo s t .sq ((s.en .sq).pc + 8) ∧ loads s s t ty sd (Spec.address (s.sReg sa) off) := by
  rw [execLd_ok h hc, if_neg (by rw [hq]; decide)]
  generalize Spec.address (s.sReg sa) off = va
  obtain ⟨heng, -, hcaches, hw⟩ := loadReg_spec s va (ty.bits / 8) (f := fun t x => t.saw t.cur.core x (ty.bits / 8))
    (fun t x => sameButOrder_saw t x _) sd fun bs => extend ty (ofBytes bs)
  obtain ⟨t, ht, hmove, hrest, hstill, hregs⟩ := done_moves heng
  exact ⟨t, ht, hmove, loads_of_writesS rfl (hw h) hcaches hrest hstill hregs⟩

theorem execLdacq_spec {s : State} (h : inOrder s .sq) {ty : Fmt} {sa : SReg} {off : BitVec 24} {p : Place}
    (hc : s.scalarCheck .sq (Spec.address (s.sReg sa) off) (ty.bits / 8) .read = .ok p) (sc : Scope) (sd : SReg) :
    let va := Spec.address (s.sReg sa) off
    goesTo (exec (.ldacq ty sc sd sa off) s) fun t => movesTo s t .sq ((s.en .sq).pc + 8) ∧
      (∀ x ∈ t.here.late, x ∈ s.here.late ∧ s.beforeAcquire va (ty.bits / 8) x = false) ∧
      (s.here.late = [] → loads s (s.acquire sc) t ty sd va) ∧
      (Scope.wide sc = true → (t.die (dieOf s.cur.core)).lines = []) := by
  rw [execLdacq_ok h hc]
  generalize Spec.address (s.sReg sa) off = va
  generalize hq : s.performQueue s.cur.core (s.beforeAcquire va (ty.bits / 8)) = q
  obtain ⟨hcur, hengq, -, hlateq⟩ := here_performQueue s (s.beforeAcquire va (ty.bits / 8))
  rw [hq] at hcur hengq hlateq
  have hacq := here_sameButCaches (acquire_spec q sc).1
  have hacqcur := cur_sameButCaches (acquire_spec q sc).1
  obtain ⟨heng, hlate, hcaches, hw⟩ := loadReg_spec (q.acquire sc) va (ty.bits / 8) (f := fun t x => t.observe t.cur.core sc x (ty.bits / 8))
    (fun t x => sameButOrder_observe t sc x _) sd fun bs => extend ty (ofBytes bs)
  generalize (q.acquire sc).loadReg va (ty.bits / 8) _ sd _ = v at heng hlate hcaches hw ⊢
  have hvcur : v.cur = s.cur := ((congrArg (fun u : State => u.cur) hcaches :).trans hacqcur).trans hcur
  obtain ⟨hagain, -, hlines, -⟩ := acquire_spec v sc
  have hhere := here_sameButCaches hagain
  obtain ⟨t, ht, hmove, hrest, hstill, hregs⟩ := done_moves (s := s) (u := v.acquire sc) (by rw [hhere, heng, hacq, hengq])
  refine ⟨t, ht, hmove, fun x hx => hlateq x ?_, fun hnil => ?_, fun hwide => ?_⟩
  · have htlate : t.here.late = q.here.late := (congrArg Core.late hstill :).trans (by rw [hhere]; exact hlate.trans (by rw [hacq]))
    exact htlate ▸ hx
  · have hsame : q = s := hq ▸ performQueue_none fun l hl => absurd hl (by
      have : (s.core s.cur.core).late = [] := hnil
      rw [this]
      exact List.not_mem_nil)
    subst hsame
    have hord : inOrder (q.acquire sc) .sq := by unfold inOrder; rw [hacq]; exact h
    exact loads_of_writesS hacq (writesS_congr (by rw [hhere]) (by rw [hhere]) (hw hord))
      (cachesFrom_trans hcaches (cachesFrom_sameButCaches hagain)) hrest hstill hregs
  · rw [die_rest hrest, ← hvcur]
    exact hlines hwide

/-! A load that its queue performs (R111, R141) -/

/-- A load of the queue that every recorded write comes before leaves its value in its register and no other register differs (R83). -/
theorem get_writeRace_ordered (k : Core) (tick writer pos : Nat) {unord : Race → Bool} (h : ∀ r ∈ k.races, unord r = false) {n : Nat}
    (hn : n ≠ 0) (x : Word) (r : Nat) :
    Bank.get 0 (k.writeRace tick writer pos unord (.s n) (ones 64) x.toNat).regs.s r = if r = n then x else Bank.get 0 k.regs.s r := by
  have hblend : blend (k.regNat (.s n)) x.toNat (ones 64) = x.toNat := blend_ones _ _ 64 (Bank.get 0 k.regs.s n).isLt x.isLt
  have hnone : (k.races.filter fun r => r.dst.same (.s n)).filter unord = [] :=
    List.filter_eq_nil_iff.mpr fun y hy => by rw [h y (List.mem_filter.mp hy).1]; decide
  unfold Core.writeRace
  dsimp only
  rw [hblend, hnone, List.foldl_nil, if_pos rfl]
  split
  · next hsame =>
    have hx : x = Bank.get 0 k.regs.s n := BitVec.eq_of_toNat_eq hsame.1
    split
    · next hr => rw [hr, hx]
    · rfl
  · show Bank.get 0 (k.setReg (.s n) x.toNat).regs.s r = _
    unfold Core.setReg
    dsimp only
    rw [if_neg hn, Bank.get_set]
    simp [eq_comm]

theorem saw_spec (s : State) (c spot size : Nat) : (s.saw c spot size).rest = s.rest ∧ (∀ d, d ≠ c → (s.saw c spot size).core d = s.core d) ∧
    ∃ loaded, (s.saw c spot size).core c = { s.core c with loaded := loaded } := by
  unfold State.saw
  dsimp only
  split
  · exact ⟨rfl, fun _ _ => rfl, _, rfl⟩
  · exact ⟨rfl, fun d hd => by rw [core_setCore, if_neg hd], _, by rw [core_setCore, if_pos rfl]⟩

/-- A load of a scratchpad that its queue performs extends the bytes at its spot into its register (R111, R141). -/
theorem performOne_load {s : State} {c : Nat} {l : Late} {ty : Fmt} {sd key : Nat} (hload : l.load = some (ty, sd)) (hspot : l.spot = .spad key)
    (hsize : l.size = ty.bits / 8) (hsd : sd ≠ 0)
    (hord : ∀ r ∈ (s.core c).races, ordered { (s.core c).en .sq with clk := l.clk, joined := l.joined } 0 r = true) :
    let t := State.performOne c s l
    t.rest = s.rest ∧ (∀ d, d ≠ c → t.core d = s.core d) ∧
      ∀ r, Bank.get 0 (t.core c).regs.s r = if r = sd then Spec.loaded ty (Bank.getRun 0 s.spad key l.size) else Bank.get 0 (s.core c).regs.s r := by
  have hvalue := extend_ofBytes (Nat.le_of_eq ((Bank.getRun_length 0 s.spad key l.size).trans hsize))
  unfold State.performOne State.readSpot
  dsimp only
  rw [hload, hspot]
  dsimp only
  rw [if_neg hsd, hvalue]
  obtain ⟨hrest, hother, loaded, hcore⟩ := saw_spec s c (Spot.spad key).code l.size
  refine ⟨hrest, fun d hd => ?_, fun r => ?_⟩
  · rw [core_setCore, if_neg hd, hother d hd]
  · rw [core_setCore, if_pos rfl, hcore]
    exact get_writeRace_ordered { s.core c with loaded := loaded } _ _ _ (fun y hy => congrArg not (hord y hy)) hsd _ r

/-- Settles O3: a load that passes its checks is performed as it issues or goes through its queue; an acquire load performs what it comes after
and is then performed; a load that the queue performs writes its register. -/
theorem scalarLoads : Obligations.ScalarLoads := by
  refine ⟨fun s ty sd sa p h => ⟨fun off hc => ⟨execLd_spec h hc sd, fun spot hq hspot => ?_⟩, fun sc off hc => ?_⟩,
    fun s c l ty sd key hload hspot hsize hsd hord => performOne_load hload hspot hsize hsd hord⟩
  · rw [execLd_ok h hc, if_pos hq]
    exact goesTo_imp (queued_spec hspot (some (ty, sd.toNat)) [] none) fun t ht => ht
  · refine goesTo_imp (execLdacq_spec h hc sc sd) fun t ⟨hmove, hlate, hreads, hlines⟩ => ⟨hmove, fun x hx => ?_, hreads, hlines⟩
    obtain ⟨hx, hbefore⟩ := hlate x hx
    obtain ⟨hload, hrange⟩ := Bool.or_eq_false_iff.mp hbefore
    exact ⟨hx, Option.not_isSome_iff_eq_none.mp (by rw [hload]; decide), hrange⟩

end Sys2Proof.Machine
end

section
/-! PROOFS. Scalar stores and store releases: the bytes of a register, a store in a write buffer, and its way home (R110, R111, R139, R141,
R142, R147, R151). -/

namespace Sys2Proof.Machine

/-! The bytes of a register (R1) -/

theorem getD_toBytes {n i : Nat} (hi : i < n) (x : Nat) : (toBytes n x).getD i 0 = BitVec.ofNat 8 (x / 256 ^ i) := by
  induction n generalizing i x with
  | zero => exact absurd hi (Nat.not_lt_zero i)
  | succ n ih =>
    cases i with
    | zero => rw [pow_zero, Nat.div_one]; rfl
    | succ i =>
      rw [toBytes, List.getD_cons_succ, ih (Nat.lt_of_succ_lt_succ hi), Nat.div_div_eq_div_mul, Nat.pow_succ']

theorem byteOf_eq (x : Word) (i : Nat) : Spec.byteOf x i = BitVec.ofNat 8 (x.toNat / 256 ^ i) := by
  apply BitVec.eq_of_toNat_eq
  rw [Spec.byteOf, BitVec.extractLsb'_toNat, BitVec.toNat_ofNat, Nat.shiftRight_eq_div_pow, Nat.pow_mul]

theorem getD_toBytes_byteOf {n i : Nat} (hi : i < n) (x : Word) : (toBytes n x.toNat).getD i 0 = Spec.byteOf x i := by
  rw [getD_toBytes hi, byteOf_eq]

/-! Buffered bytes come home (R139) -/

theorem wf_of_above {r : Bank Nat} {o : Nat} (h : Bank.above 0 o r = true) : Bank.wf 0 r = true := by
  cases r with
  | nil => rfl
  | cons x r =>
    obtain ⟨⟨-, hv⟩, habove⟩ : (o < x.1 ∧ x.2 ≠ 0) ∧ Bank.above 0 x.1 r = true := by simpa [Bank.above] using h
    simp [Bank.wf, hv, habove]

/-- A byte of a line is the marked one where there is one. -/
theorem get_landBytes (hbm : List Host.Cell) (phys : Nat) {b : Bank Nat} (hb : Bank.wf 0 b = true) (k : Nat) :
    Bank.get 0 (landBytes hbm phys b) (phys + k) = if Bank.get 0 b k = 0 then Bank.get 0 hbm (phys + k) else BitVec.ofNat 8 (Bank.get 0 b k) := by
  induction b generalizing hbm with
  | nil => rfl
  | cons x r ih =>
    obtain ⟨o, v⟩ := x
    obtain ⟨hv, habove⟩ : v ≠ 0 ∧ Bank.above 0 o r = true := by simpa [Bank.wf] using hb
    rw [landBytes, ih _ (wf_of_above habove), Bank.get_cons, Bank.get_set]
    by_cases hk : o = k
    · subst hk
      rw [Bank.get_above habove (Nat.le_refl o)]
      simp [hv]
    · simp [hk, Ne.symm hk]

theorem get_landBytes_markBytes (hbm : List Host.Cell) (phys off : Nat) {bs : List Byte} {i : Nat} (hi : i < bs.length) :
    Bank.get 0 (landBytes hbm phys (markBytes off bs)) (phys + off + i) = bs.getD i 0 := by
  have hmark : Bank.get 0 (markBytes off bs) (off + i) = (bs.getD i 0).toNat + 256 := by
    unfold markBytes
    rw [Bank.get_setRun, if_pos (Nat.le_add_right off i), Nat.add_sub_cancel_left]
    simp [hi]
  rw [Nat.add_assoc, get_landBytes hbm phys (b := markBytes off bs) (Bank.wf_setRun off _ rfl), hmark, if_neg (by omega)]
  apply BitVec.eq_of_toNat_eq
  rw [BitVec.toNat_ofNat, Nat.add_mod_right, Nat.mod_eq_of_lt (BitVec.isLt _)]

/-- A store without a generation that leaves its buffer is in the copy of record (R139). -/
theorem hbm_drainAt {s : State} {d n : Nat} {b : BufStore} (hb : (s.die d).buf[n]? = some b) (hgen : b.gen = none) :
    (drainAt s d n).hbm = landBytes s.hbm b.phys b.bytes := by
  unfold drainAt
  simp only [hb, hgen, admitGen, if_true]
  split <;> rfl

/-- Where the youngest store of a buffer is the only one that has to reach home, it reaches home last (R139, R147). -/
theorem hbm_drainNeeded {d : Nat} {need : BufStore → Bool} {e : BufStore} (he : need e = true) (hgen : e.gen = none) (n : Nat) {s : State}
    {l : List BufStore} (hl : ∀ b ∈ l, need b = false) (hbuf : (s.die d).buf = l ++ [e]) (hn : l.length < n) :
    ∃ hbm, (drainNeeded d need n s).hbm = landBytes hbm e.phys e.bytes := by
  induction n generalizing s l with
  | zero => exact absurd hn (Nat.not_lt_zero _)
  | succ n ih =>
    have hmem : e ∈ (s.die d).buf := hbuf ▸ List.mem_append_right l (List.mem_singleton.mpr rfl)
    unfold drainNeeded
    split
    · next i hi =>
      have hlt : i < (s.die d).buf.length := (List.findIdx?_eq_some_iff_findIdx_eq.mp hi).1
      rw [hbuf, List.length_append, List.length_singleton] at hlt
      have hafter : ((drainAt s d i).die d).buf = (l ++ [e]).eraseIdx i := by rw [buf_drainAt, if_pos rfl, hbuf]
      by_cases hil : i < l.length
      · rw [List.eraseIdx_append_of_lt_length hil] at hafter
        refine ih (fun b hb => hl b (List.mem_of_mem_eraseIdx hb)) hafter ?_
        rw [List.length_eraseIdx_of_lt hil]
        omega
      · have hi' : i = l.length := by omega
        subst hi'
        rw [drainNeeded_of_none, hbm_drainAt (b := e) (by rw [hbuf]; simp) hgen]
        · exact ⟨_, rfl⟩
        · rw [hafter]
          rw [List.eraseIdx_append_of_length_le (Nat.le_refl _), Nat.sub_self]
          simpa using hl
    · next hnone => exact absurd (neededAt_eq_none_iff.mp hnone e hmem) (by rw [he]; decide)

/-! A store enters the write buffer (R139) -/

theorem dies_keepTrans (s : State) (asid : BitVec 12) (va : Nat) : (keepTrans s asid va).dies = s.dies := by
  unfold keepTrans
  split
  · dsimp only
    split <;> rfl
  · rfl

theorem dies_learnHome (s : State) (asid : BitVec 12) (t : Trans) (alloc : Bool) : (learnHome s asid t alloc).dies = s.dies := by
  unfold learnHome
  split
  · rfl
  · dsimp only
    split
    · exact dies_keepTrans s asid t.va
    · exact dies_keepTrans s asid t.va

theorem buf_learn (s : State) (d : Nat) (asid : BitVec 12) (va : Nat) (t : Trans) (alloc : Bool) (e : Nat) :
    ((learn s d asid va t alloc).die e).buf = (s.die e).buf := by
  have hkeep {u : State} (hu : u.dies = s.dies) (f : List (BitVec 12 × Nat × Nat)) :
      ((u.setDie d { u.die d with filter := f }).die e).buf = (s.die e).buf := by
    rw [die_setDie]
    split
    · next he => rw [he, die_eq hu]
    · rw [die_eq hu]
  have hu : (if decide (canonVA s d asid va / 65536 ≠ t.va / 65536) = true then keepTrans s asid va else s).dies = s.dies := by
    split
    · exact dies_keepTrans s asid va
    · rfl
  unfold learn
  dsimp only
  split
  · exact hkeep hu _
  · rw [die_eq (dies_learnHome _ asid t alloc)]
    exact hkeep hu _

theorem mem_buf_drainLine (d phys n : Nat) {s : State} {b : BufStore} (h : b ∈ ((drainLine d phys n s).die d).buf) : b ∈ (s.die d).buf := by
  induction n generalizing s with
  | zero => exact h
  | succ n ih =>
    unfold drainLine at h
    split at h
    · have hb := ih h
      rw [buf_drainAt, if_pos rfl] at hb
      exact List.mem_of_mem_eraseIdx hb
    · exact h

theorem mem_buf_makeRoom {s : State} {d phys : Nat} {b : BufStore} (h : b ∈ ((makeRoom s d phys).die d).buf) : b ∈ (s.die d).buf := by
  unfold makeRoom at h
  dsimp only at h
  split at h
  · exact h
  · split at h
    · exact mem_buf_drainLine d _ _ h
    · exact h

/-- What a store leaves in the write buffer of its die: itself, youngest, behind stores that were there (R139). -/
theorem buf_bufStore (s : State) (d stream : Nat) (asid : BitVec 12) (t : Trans) (bs : List Byte) (nt : Bool) :
    ∃ l e, ((bufStore s d stream asid t bs none nt).die d).buf = l ++ [e] ∧ (∀ b ∈ l, b ∈ (s.die d).buf) ∧ e.stream = stream ∧
      e.phys = t.phys / 128 * 128 ∧ e.bytes = markBytes (t.va % 128) bs ∧ e.gen = none := by
  unfold bufStore
  dsimp only
  rw [die_setDie, if_pos rfl]
  exact ⟨_, _, rfl, fun b hb => mem_buf_makeRoom hb, rfl, rfl, rfl, rfl⟩

/-! A scalar store that is performed as it issues (R111, R139) -/

/-- The sizes of types in bytes. -/
theorem bytes_cases (ty : Fmt) : ty.bits / 8 = 0 ∨ ty.bits / 8 = 1 ∨ ty.bits / 8 = 2 ∨ ty.bits / 8 = 4 ∨ ty.bits / 8 = 8 := by
  cases ty <;> decide

/-- An aligned access lies in one line (R111). -/
theorem pieces_scalar {n va : Nat} (hn : n = 1 ∨ n = 2 ∨ n = 4 ∨ n = 8) (halign : va % n = 0) : pieces n va n = [(va, n)] := by
  obtain ⟨m, rfl⟩ : ∃ m, n = m + 1 := ⟨n - 1, by omega⟩
  have hline : m + 1 ≤ 128 - va % 128 := by rcases hn with h | h | h | h <;> rw [h] at halign ⊢ <;> omega
  rw [pieces_succ m va (Nat.succ_pos m), Nat.min_eq_left hline, Nat.sub_self]
  cases m <;> rfl

/-- What the checks of a scalar access have found (R111). -/
theorem scalarCheck_ok {s : State} {va n : Nat} {kind : Kind} {p : Place} (h : s.scalarCheck .sq va n kind = .ok p) :
    va % n = 0 ∧ window s.cur.core s.here va n = .ok p := by
  have hcheck : ∀ {q : Place}, s.check va n kind = .ok q → window s.cur.core s.here va n = .ok q := by
    intro q hq
    unfold State.check checkAccess at hq
    split at hq
    · exact nomatch hq
    · next hw => cases hq; exact hw
    · next hw =>
      split at hq
      · exact nomatch hq
      · cases hq; exact hw
  unfold State.scalarCheck at h
  split at h
  · exact nomatch h
  · split at h
    · exact nomatch h
    · next halign =>
      refine ⟨not_not.mp halign, ?_⟩
      split at h
      · exact nomatch h
      · next hc =>
        split at h
        · exact nomatch h
        · cases h; exact hcheck hc
      · next hc => cases h; exact hcheck hc

/-- An address in a window is in a window for an access of any size (R132). -/
theorem window_spad_ne_glob {c : Nat} {k : Core} {va n key : Nat} (h : window c k va n = .ok (.spad key)) (m : Nat) :
    window c k va m ≠ .ok .glob := by
  unfold window at h ⊢
  split at h
  · exact nomatch h
  · next hva =>
    rw [if_neg hva]
    split at h
    · next htask =>
      rw [if_pos htask]
      split <;> exact nofun
    · next htask =>
      rw [if_neg htask]
      split at h
      · next hcluster =>
        rw [if_pos hcluster]
        split <;> exact nofun
      · exact nomatch h

/-- A store to an aligned address of global memory is one store at its spot (R111, R139). -/
theorem writeMem_glob {s : State} {c va : Nat} {bs : List Byte} {t : Trans}
    (hn : bs.length = 1 ∨ bs.length = 2 ∨ bs.length = 4 ∨ bs.length = 8) (halign : va % bs.length = 0)
    (hw : window c (s.core c) va bs.length = .ok .glob) (hline : lineAccess s (dieOf c) (s.core c).sys.asid va .write = .ok t)
    (stream : Nat) (nt : Bool) :
    writeMem s c stream va bs nt = putSpot (learnSpot s c (s.core c).sys.asid va nt (.mem t)) c stream (s.core c).sys.asid (.mem t) bs none nt := by
  have hspot : spotOf s c (s.core c).sys.asid .write (va, bs.length) = .ok (.mem t) := by
    unfold spotOf
    rw [hw]
    dsimp only
    rw [hline]
  unfold writeMem
  rw [hw]
  dsimp only
  rw [pieces_scalar hn halign, writePieces, hspot]
  dsimp only
  rw [List.take_length]
  rfl

theorem buf_patchLine (s : State) (d : Nat) (asid : BitVec 12) (cva : Nat) (bs : List Byte) (e : Nat) :
    ((patchLine s d asid cva bs).die e).buf = (s.die e).buf := by
  unfold patchLine
  dsimp only
  rw [die_setDie]
  split
  · next he => rw [he]
  · rfl

/-- A scalar store to a normal page enters the write buffer of its die, youngest (R139). -/
theorem buf_store_glob {s : State} {va : Nat} {bs : List Byte} {t : Trans} (ht : s.here.sys.timed = false)
    (hn : bs.length = 1 ∨ bs.length = 2 ∨ bs.length = 4 ∨ bs.length = 8) (halign : va % bs.length = 0)
    (hw : window s.cur.core s.here va bs.length = .ok .glob)
    (hline : lineAccess s (dieOf s.cur.core) s.here.sys.asid va .write = .ok t) (hattr : t.attr ≠ 4) (e : Eng) :
    ∃ l b, ((s.store e va bs).die (dieOf s.cur.core)).buf = l ++ [b] ∧ (∀ x ∈ l, x ∈ (s.die (dieOf s.cur.core)).buf) ∧ b.stream = s.stream e ∧
      b.phys = t.phys / 128 * 128 ∧ b.bytes = markBytes (t.va % 128) bs ∧ b.gen = none := by
  rw [store_interlocked ht, writeMem_glob hn halign hw hline]
  unfold putSpot learnSpot
  dsimp only
  rw [if_neg hattr]
  obtain ⟨l, b, hbuf, hl, hb⟩ := buf_bufStore (patchLine (learn s (dieOf s.cur.core) s.here.sys.asid va t !false) (dieOf s.cur.core) s.here.sys.asid
    t.va bs) (dieOf s.cur.core) (s.stream e) s.here.sys.asid t bs false
  refine ⟨l, b, hbuf, fun x hx => ?_, hb⟩
  have := hl x hx
  rwa [buf_patchLine, buf_learn] at this

/-- Nothing has changed but what releases have published at spots (R146). -/
def publishes (s t : State) : Prop := t.cores = s.cores ∧ sameButReleases s t

theorem publishes_refl (s : State) : publishes s s := ⟨rfl, sameButReleases_refl s⟩

theorem publishes_atSpot (s : State) (va n : Nat) : publishes s (s.atSpot va n fun t x => t.publishFences t.cur.core x n) := by
  rcases atSpot_cases s va n (fun t x => t.publishFences t.cur.core x n) with h | ⟨x, h⟩
  · rw [h]; exact publishes_refl s
  · rw [h]; exact ⟨cores_publishFences _ _ _ _, sameButReleases_publishFences _ _ _ _⟩

theorem onlyCombines_publishes {s t : State} (h : publishes s t) : onlyCombines s t := by
  obtain ⟨hcores, hrest, -⟩ := h
  exact ⟨by rw [hrest], sameButCombining_of_cores hcores⟩

theorem buf_publishes {s t : State} (h : publishes s t) (d : Nat) : (t.die d).buf = (s.die d).buf := by rw [h.2.2 d]

theorem spad_publishes {s t : State} (h : publishes s t) : t.spad = s.spad := by rw [h.2.1]

theorem hbm_publishes {s t : State} (h : publishes s t) : t.hbm = s.hbm := by rw [h.2.1]

/-- A store to a scratchpad, and what it publishes or overwrites, leaves the rest as it was. -/
theorem alone_of_publishes {s u t : State} {bank : List Host.Cell} (h : publishes { s with spad := bank } u) (hrest : t.rest = u.rest)
    (hstill : t.here.still = u.here.still) : t.here.still = s.here.still ∧ sameButReleases { s.rest with spad := t.spad } t.rest := by
  obtain ⟨hcores, hsame, hdies⟩ := h
  have hspad : t.spad = u.spad := (congrArg (fun v : State => v.spad) hrest :)
  refine ⟨hstill.trans ?_, ?_, fun d => ?_⟩
  · rw [hsame]
    rfl
  · rw [hrest, hspad, hsame]
    rfl
  · rw [hrest]
    exact hdies d

/-- A word that changes of the cores no more than write-combining buffers changes no register. -/
theorem done_onlyCombines {s u : State} (h : onlyCombines s u) : goesTo (u.done .sq) fun t =>
    (movesTo s t .sq ((s.en .sq).pc + 8) ∧ t.here.regs = s.here.regs ∧ t.here.sys = s.here.sys) ∧ t.rest = u.rest ∧
      t.here.still = u.here.still := by
  obtain ⟨wc, hwc⟩ := here_onlyCombines h
  obtain ⟨t, ht, hmove, hrest, hstill, hregs⟩ := done_moves (s := s) (u := u) (by rw [hwc])
  exact ⟨t, ht, ⟨hmove, hregs.trans (by rw [hwc]), (congrArg Core.sys hstill :).trans (by rw [hwc]; rfl)⟩, hrest, hstill⟩

/-- The bytes of a scalar store in a scratchpad (R1, R111). -/
def wroteRegister (u t : State) (x : Word) (n key : Nat) : Prop :=
  ∀ k, t.spadByte k = if key ≤ k ∧ k < key + n then Spec.byteOf x (k - key) else u.spadByte k

theorem wroteRegister_of_spad {u t : State} {x : Word} {n key : Nat} (h : t.spad = Bank.setRun 0 u.spad key (toBytes n x.toNat)) :
    wroteRegister u t x n key := by
  intro k
  have hk : t.spadByte k = ({ u with spad := Bank.setRun 0 u.spad key (toBytes n x.toNat) } : State).spadByte k := by
    unfold State.spadByte
    rw [h]
  rw [hk, spadByte_setRun, length_toBytes]
  split
  · exact getD_toBytes_byteOf (by omega) x
  · rfl

theorem execSt_ok {s : State} (h : inOrder s .sq) {ty : Fmt} {sa : SReg} {off : BitVec 27} {p : Place}
    (hc : s.scalarCheck .sq (Spec.address (s.sReg sa) off) (ty.bits / 8) .write = .ok p) (sc : SReg) :
    let va := Spec.address (s.sReg sa) off
    let n := ty.bits / 8
    let bs := toBytes n (s.sReg sc).toNat
    exec (.st ty sc sa off) s = if s.queues = true then s.queued .write va n none bs none
      else ((s.store .sq va bs).atSpot va n fun t x => t.publishFences t.cur.core x n).done .sq := by
  show execSt ty sc sa off s = _
  unfold execSt
  rw [rdS_inOrder h, rdS_inOrder h]
  have hc' : s.scalarCheck .sq (scalarAddr (s.sReg sa) off) (ty.bits / 8) .write = .ok p := hc
  dsimp only
  rw [hc']
  rfl

theorem execSt_spec {s : State} (h : inOrder s .sq) {ty : Fmt} {sa : SReg} {off : BitVec 27} {p : Place}
    (hc : s.scalarCheck .sq (Spec.address (s.sReg sa) off) (ty.bits / 8) .write = .ok p) (sc : SReg) (hq : s.queues = false) :
    goesTo (exec (.st ty sc sa off) s) fun t => (movesTo s t .sq ((s.en .sq).pc + 8) ∧ t.here.regs = s.here.regs ∧ t.here.sys = s.here.sys) ∧
      ∀ key, p = .spad key → (t.here.still = s.here.still ∧ sameButReleases { s.rest with spad := t.spad } t.rest) ∧
        wroteRegister s t (s.sReg sc) (ty.bits / 8) key := by
  obtain ⟨-, hw⟩ := scalarCheck_ok hc
  rw [execSt_ok h hc, if_neg (by rw [hq]; decide)]
  generalize Spec.address (s.sReg sa) off = va at hw ⊢
  generalize hbs : toBytes (ty.bits / 8) (s.sReg sc).toNat = bs
  have hlen : bs.length = ty.bits / 8 := by rw [← hbs, length_toBytes]
  have hpub := publishes_atSpot (s.store .sq va bs) va (ty.bits / 8)
  have honly : onlyCombines s (s.store .sq va bs) := by
    rw [store_interlocked h.1]
    exact onlyCombines_writeMem s _ _ _ _ _
  obtain ⟨t, ht, hpast, hrest, hstill⟩ := done_onlyCombines (onlyCombines_trans honly (onlyCombines_publishes hpub))
  refine ⟨t, ht, hpast, fun key hp => ?_⟩
  subst hp
  rw [store_window h.1 .sq va bs key (by rw [hlen]; exact hw)] at hpub hrest hstill
  refine ⟨alone_of_publishes hpub hrest hstill, wroteRegister_of_spad ?_⟩
  rw [hbs]
  exact (congrArg (fun v : State => v.spad) hrest :).trans (spad_publishes hpub)

/-! A store release that is performed as it issues (R147, R151) -/

theorem dies_landCombine (s : State) (b : Combine) : (landCombine s b).dies = s.dies := by
  have hadmit := dies_admitGen s (b.phys / 128) b.gen
  unfold landCombine
  dsimp only
  split
  · exact hadmit
  · exact hadmit

theorem dies_drainWc (s : State) (c : Nat) (p : Combine → Bool) : (drainWc s c p).dies = s.dies :=
  List.foldlRecOn (motive := fun t : State => t.dies = s.dies) _ _ rfl fun t h b _ => (dies_landCombine t b).trans h

/-- The first part of a release, before the write buffer (R149). -/
theorem release_eq (s : State) {sc : Scope} (h : Scope.wide sc = true) :
    s.release sc = if sc = .sys then (drainCombine s s.cur.core).performBefore s.cur.core else s.performBefore s.cur.core := by
  unfold State.release
  dsimp only
  rw [if_pos h]
  split
  · rw [show (drainCombine s s.cur.core).cur = s.cur from (onlyCombines_drainWc s _ _).1]
  · rfl

/-- Where the youngest store of the die's buffer is the only one that happens before a release, the release brings it home last (R147). -/
theorem hbm_release {s : State} {sc : Scope} (hw : Scope.wide sc = true) {l : List BufStore} {b : BufStore}
    (hbuf : (s.die (dieOf s.cur.core)).buf = l ++ [b]) (hl : ∀ x ∈ l, s.here.follows s.cur.core x = false)
    (hb : s.here.follows s.cur.core b = true) (hgen : b.gen = none) : ∃ hbm, (s.release sc).hbm = landBytes hbm b.phys b.bytes := by
  have hbefore {u : State} (hdies : u.dies = s.dies) (honly : onlyCombines s u) :
      ∃ hbm, (u.performBefore s.cur.core).hbm = landBytes hbm b.phys b.bytes := by
    have hubuf : (u.die (dieOf s.cur.core)).buf = l ++ [b] := by rw [die_eq hdies]; exact hbuf
    unfold State.performBefore
    rw [follows_onlyCombines honly]
    exact hbm_drainNeeded hb hgen _ hl hubuf (by rw [hubuf, List.length_append, List.length_singleton]; exact Nat.lt_succ_self _)
  rw [release_eq s hw]
  split
  · exact hbefore (dies_drainWc s _ _) (onlyCombines_drainWc s _ _)
  · exact hbefore rfl (onlyCombines_refl s)

/-- A release that nothing happens before sends nothing home. -/
theorem rest_release_settled {s : State} {sc : Scope} (hset : Scope.wide sc = true → s.settled s.cur.core) (hwc : sc = .sys → s.here.wc = []) :
    (s.release sc).rest = s.rest := by
  cases hw : Scope.wide sc with
  | false => rw [release_narrow hw]
  | true =>
    have hbefore {u : State} (hrest : u.rest = s.rest) (honly : onlyCombines s u) : (u.performBefore s.cur.core).rest = s.rest := by
      unfold State.performBefore
      rw [follows_onlyCombines honly, drainNeeded_of_none, hrest]
      rw [die_rest hrest]
      exact hset hw
    rw [release_eq s hw]
    split
    · next hsys =>
      refine hbefore ?_ (onlyCombines_drainWc s _ _)
      have hnil : (s.core s.cur.core).wc = [] := hwc hsys
      unfold drainCombine drainWc
      dsimp only
      rw [hnil]
      rfl
    · exact hbefore rfl (onlyCombines_refl s)

theorem wc_release_sys (s : State) : (s.release .sys).here.wc = [] := by
  have hcur := (onlyCombines_release s .sys).1
  rw [release_eq s rfl, if_pos rfl] at hcur ⊢
  unfold State.here
  rw [hcur]
  unfold State.performBefore
  rw [core_eq (cores_drainNeeded _ _ _ _)]
  unfold drainCombine drainWc
  rw [core_setCore, if_pos rfl]
  exact List.filter_eq_nil_iff.mpr fun _ _ => Bool.false_ne_true

theorem onlyCombines_performed (s : State) (va : Nat) : onlyCombines s (s.performed va) := by
  unfold State.performed
  split
  · exact onlyCombines_drainWc s _ _
  · exact onlyCombines_refl s

theorem dies_performed (s : State) (va : Nat) : (s.performed va).dies = s.dies := by
  unfold State.performed
  split
  · exact dies_drainWc s _ _
  · rfl

theorem performed_spad {s : State} {va : Nat} (h : window s.cur.core s.here va 1 ≠ .ok .glob) : s.performed va = s := by
  unfold State.performed
  split
  · next hw _ => exact absurd hw h
  · rfl

/-- What follows the release of a store release: its store, at its scope. -/
def State.releaseStore (s : State) (sc : Scope) (va : Nat) (bs : List Byte) : State := ((s.store .sq va bs).performed va).release sc

/-- A store release publishes at its spot what happens before it (R146). -/
def State.publishAt (s : State) (sc : Scope) (va n : Nat) (nos : List Nat) : State :=
  match spotOf s s.cur.core s.here.sys.asid .write (va, n) with
  | .ok x => s.published s.cur.core sc x.code n false nos
  | .error _ => s

theorem publishes_publishAt (s : State) (sc : Scope) (va n : Nat) (nos : List Nat) : publishes s (s.publishAt sc va n nos) := by
  unfold State.publishAt
  split
  · exact ⟨cores_published _ _ _ _ _ _ _, sameButReleases_published _ _ _ _ _ _ _⟩
  · exact publishes_refl s

theorem execStrel_ok {s : State} (h : inOrder s .sq) {ty : Fmt} {sa : SReg} {off : BitVec 24} {p : Place} {scope : Scope}
    (hremote : Scope.beyond scope = true → s.remoteWrites = false) (hnt : (s.release scope).ntWaits scope = false)
    (hc : s.scalarCheck .sq (Spec.address (s.sReg sa) off) (ty.bits / 8) .write = .ok p) (sc : SReg) :
    let va := Spec.address (s.sReg sa) off
    let n := ty.bits / 8
    let bs := toBytes n (s.sReg sc).toNat
    let u := s.release scope
    exec (.strel ty scope sc sa off) s = if s.queues = true then s.queued .write va n none bs (some scope)
      else ((u.releaseStore scope va bs).publishAt scope va n (u.pendingBefore u.cur.core)).done .sq := by
  have hstay : ¬ (Scope.beyond scope && s.remoteWrites) = true := by
    rw [Bool.and_eq_true]
    rintro ⟨hb, hr⟩
    rw [hremote hb] at hr
    cases hr
  show execStrel ty scope sc sa off s = _
  unfold execStrel
  rw [rdS_inOrder h, rdS_inOrder h]
  have hc' : s.scalarCheck .sq (scalarAddr (s.sReg sa) off) (ty.bits / 8) .write = .ok p := hc
  dsimp only
  rw [hc']
  dsimp only [orTrap]
  rw [if_neg hstay, if_neg (by rw [hnt]; decide)]
  rfl

theorem onlyCombines_releaseStore {s : State} (ht : s.here.sys.timed = false) (sc : Scope) (va : Nat) (bs : List Byte) :
    onlyCombines s ((s.store .sq va bs).performed va) ∧ onlyCombines s (s.releaseStore sc va bs) := by
  have hstore : onlyCombines s ((s.store .sq va bs).performed va) := by
    rw [store_interlocked ht]
    exact onlyCombines_trans (onlyCombines_writeMem s _ _ _ _ _) (onlyCombines_performed _ va)
  exact ⟨hstore, onlyCombines_trans hstore (onlyCombines_release _ sc)⟩

/-- In a scratchpad, a store release writes its bytes once its release is done. -/
theorem releaseStore_spad {s : State} {sc : Scope} {va key : Nat} {bs : List Byte} (ht : s.here.sys.timed = false)
    (hw : window s.cur.core s.here va bs.length = .ok (.spad key)) :
    s.releaseStore sc va bs = State.release { s with spad := Bank.setRun 0 s.spad key bs } sc := by
  unfold State.releaseStore
  rw [store_window ht .sq va bs key hw, performed_spad]
  exact window_spad_ne_glob hw 1

/-- In global memory, a store release of a wide scope brings its bytes home (R147). -/
theorem hbm_releaseStore {s : State} {sc : Scope} (hwide : Scope.wide sc = true) (hset : s.settled s.cur.core) {va : Nat} {bs : List Byte}
    {t : Trans} (ht : s.here.sys.timed = false) (hn : bs.length = 1 ∨ bs.length = 2 ∨ bs.length = 4 ∨ bs.length = 8)
    (halign : va % bs.length = 0) (hw : window s.cur.core s.here va bs.length = .ok .glob)
    (hline : lineAccess s (dieOf s.cur.core) s.here.sys.asid va .write = .ok t) (hattr : t.attr ≠ 4) :
    ∃ hbm, (s.releaseStore sc va bs).hbm = landBytes hbm (t.phys / 128 * 128) (markBytes (t.va % 128) bs) := by
  obtain ⟨l, b, hbuf, hl, hstream, hphys, hbytes, hgen⟩ := buf_store_glob ht hn halign hw hline hattr .sq
  obtain ⟨honly, -⟩ := onlyCombines_releaseStore ht sc va bs
  have hfollows : ((s.store .sq va bs).performed va).here.follows = s.here.follows := by
    obtain ⟨wc, hwc⟩ := here_onlyCombines honly
    rw [hwc]
    rfl
  rw [← hphys, ← hbytes]
  refine hbm_release hwide (l := l) ?_ (fun x hx => ?_) ?_ hgen
  · rw [honly.1, die_eq (dies_performed _ va)]
    exact hbuf
  · rw [honly.1, hfollows]
    exact hset x (hl x hx)
  · have hown : b.stream = 6 * s.cur.core := hstream
    rw [honly.1, Core.follows, hown, Nat.mul_mod_right, if_pos (Nat.mul_div_cancel_left _ (by decide))]
    rfl

/-- A release leaves windows, mode and address space of its core. -/
theorem release_here (s : State) (sc : Scope) : (s.release sc).cur = s.cur ∧ (s.release sc).here.sys = s.here.sys ∧
    ∀ va n, window (s.release sc).cur.core (s.release sc).here va n = window s.cur.core s.here va n := by
  have honly := onlyCombines_release s sc
  obtain ⟨wc, hwc⟩ := here_onlyCombines honly
  refine ⟨honly.1, by rw [hwc], fun va n => ?_⟩
  rw [hwc, honly.1]
  rfl

/-- What a store release leaves in a scratchpad: the bytes of its release, and its own; of a narrow scope nothing else but what it publishes. -/
theorem spad_strel {s t : State} {scope : Scope} {va n key : Nat} {x : Word} {nos : List Nat} (ht : s.here.sys.timed = false)
    (hw : window s.cur.core s.here va n = .ok (.spad key))
    (hrest : t.rest = (((s.release scope).releaseStore scope va (toBytes n x.toNat)).publishAt scope va n nos).rest)
    (hstill : t.here.still = (((s.release scope).releaseStore scope va (toBytes n x.toNat)).publishAt scope va n nos).here.still) :
    wroteRegister (s.release scope) t x n key ∧
      (Scope.wide scope = false → t.here.still = s.here.still ∧ sameButReleases { s.rest with spad := t.spad } t.rest) := by
  obtain ⟨hcur, hsys, hwin⟩ := release_here s scope
  rw [releaseStore_spad (by rw [hsys]; exact ht) (by rw [length_toBytes, hwin]; exact hw)] at hrest hstill
  have hsettled := settled_release s (sc := scope)
  have hempty : scope = .sys → (s.release scope).here.wc = [] := fun h => h ▸ wc_release_sys s
  refine ⟨wroteRegister_of_spad ?_, fun hnarrow => ?_⟩
  · generalize s.release scope = u at hcur hrest hsettled hempty ⊢
    have hquiet : (State.release { u with spad := Bank.setRun 0 u.spad key (toBytes n x.toNat) } scope).rest =
        State.rest { u with spad := Bank.setRun 0 u.spad key (toBytes n x.toNat) } :=
      rest_release_settled (fun hwide => hcur.symm ▸ hsettled hwide) hempty
    have hspad := (congrArg (fun v : State => v.spad) hquiet :)
    exact (congrArg (fun v : State => v.spad) hrest :).trans ((spad_publishes (publishes_publishAt _ scope va n nos)).trans hspad)
  · rw [release_narrow hnarrow, release_narrow hnarrow] at hrest hstill
    exact alone_of_publishes (publishes_publishAt _ scope va n nos) hrest hstill

theorem execStrel_spec {s : State} (h : inOrder s .sq) {ty : Fmt} {sa : SReg} {off : BitVec 24} {p : Place} {scope : Scope}
    (hremote : Scope.beyond scope = true → s.remoteWrites = false) (hnt : (s.release scope).ntWaits scope = false)
    (hc : s.scalarCheck .sq (Spec.address (s.sReg sa) off) (ty.bits / 8) .write = .ok p) (sc : SReg) (hq : s.queues = false) :
    goesTo (exec (.strel ty scope sc sa off) s) fun t =>
      (movesTo s t .sq ((s.en .sq).pc + 8) ∧ t.here.regs = s.here.regs ∧ t.here.sys = s.here.sys) ∧
      (Scope.wide scope = true → ∀ b ∈ (t.die (dieOf s.cur.core)).buf, s.here.follows s.cur.core b = false) ∧
      (∀ key, p = .spad key → wroteRegister (s.release scope) t (s.sReg sc) (ty.bits / 8) key ∧
        (Scope.wide scope = false → t.here.still = s.here.still ∧ sameButReleases { s.rest with spad := t.spad } t.rest)) ∧
      ∀ tr, p = .glob → Scope.wide scope = true →
        lineAccess (s.release scope) (dieOf s.cur.core) s.here.sys.asid (Spec.address (s.sReg sa) off) .write = .ok tr → tr.attr ≠ 4 →
        ∀ i, i < ty.bits / 8 → t.homeByte (tr.phys / 128 * 128 + tr.va % 128 + i) = Spec.byteOf (s.sReg sc) i := by
  obtain ⟨halign, hw⟩ := scalarCheck_ok hc
  rw [execStrel_ok h hremote hnt hc, if_neg (by rw [hq]; decide)]
  generalize Spec.address (s.sReg sa) off = va at halign hw ⊢
  generalize hx : s.sReg sc = x
  generalize (s.release scope).pendingBefore (s.release scope).cur.core = nos
  obtain ⟨hcur, hsys, hwin⟩ := release_here s scope
  have htimed : (s.release scope).here.sys.timed = false := by rw [hsys]; exact h.1
  obtain ⟨hstore, honly⟩ := onlyCombines_releaseStore htimed scope va (toBytes (ty.bits / 8) x.toNat)
  have hpub := publishes_publishAt ((s.release scope).releaseStore scope va (toBytes (ty.bits / 8) x.toNat)) scope va (ty.bits / 8) nos
  have hrel := onlyCombines_release s scope
  obtain ⟨t, ht, hpast, hrest, hstill⟩ := done_onlyCombines (onlyCombines_trans (onlyCombines_trans hrel honly) (onlyCombines_publishes hpub))
  refine ⟨t, ht, hpast, fun hwide b hb => ?_, fun key hp => spad_strel h.1 (hp ▸ hw) hrest hstill, fun tr hp hwide hline hattr i hi => ?_⟩
  · rw [die_rest hrest, buf_publishes hpub] at hb
    have hall := onlyCombines_trans hrel hstore
    have hset := settled_release _ hwide b (by rw [hall.1]; exact hb)
    rw [hall.1, follows_onlyCombines (onlyCombines_trans hall (onlyCombines_release _ scope))] at hset
    exact hset
  · have hlen : (toBytes (ty.bits / 8) x.toNat).length = ty.bits / 8 := length_toBytes _ _
    have hset : (s.release scope).settled (s.release scope).cur.core := by rw [hcur]; exact settled_release s hwide
    obtain ⟨hbm, hhbm⟩ := hbm_releaseStore (bs := toBytes (ty.bits / 8) x.toNat) hwide hset htimed
      (by rw [hlen]; have := bytes_cases ty; omega) (by rw [hlen]; exact halign) (by rw [hlen, hwin, hw, hp])
      (by rw [hcur, hsys]; exact hline) hattr
    have hthbm : t.hbm = landBytes hbm (tr.phys / 128 * 128) (markBytes (tr.va % 128) (toBytes (ty.bits / 8) x.toNat)) :=
      (congrArg (fun v : State => v.hbm) hrest :).trans ((hbm_publishes hpub).trans hhbm)
    rw [State.homeByte, hthbm, get_landBytes_markBytes hbm _ _ (by rw [hlen]; exact hi), getD_toBytes_byteOf hi]

/-! The store queue (R141, R142) -/

/-- A store of a scratchpad that its queue performs writes its bytes and no other (R141). -/
theorem performOne_store {s : State} {c : Nat} {l : Late} {key : Nat} (hload : l.load = none) (hrel : l.rel = none) (hspot : l.spot = .spad key) :
    let t := State.performOne c s l
    t.cores = s.cores ∧ sameButReleases { s.rest with spad := t.spad } t.rest ∧
      ∀ k, t.spadByte k = if key ≤ k ∧ k < key + l.data.length then l.data.getD (k - key) 0 else s.spadByte k := by
  have hperform : State.performOne c s l =
      State.publishFences { s with spad := Bank.setRun 0 s.spad key l.data } c l.spot.code l.size := by
    unfold State.performOne
    dsimp only
    rw [hload]
    dsimp only
    rw [hrel, hspot]
    rfl
  have hpub : publishes { s with spad := Bank.setRun 0 s.spad key l.data } (State.performOne c s l) := by
    rw [hperform]
    exact ⟨cores_publishFences _ _ _ _, sameButReleases_publishFences _ _ _ _⟩
  refine ⟨hpub.1, (alone_of_publishes hpub rfl rfl).2, fun k => ?_⟩
  rw [← spadByte_setRun]
  exact congrArg (fun m => Bank.get 0 m k) (spad_publishes hpub)

/-- A store that is held back holds the low bytes of its register (R1, R141). -/
theorem queuedStore_spec {s : State} {va : Nat} {ty : Fmt} {spot : Spot} (x : Word) (rel : Option Scope)
    (hspot : spotOf s s.cur.core s.here.sys.asid .write (va, ty.bits / 8) = .ok spot) :
    goesTo (s.queued .write va (ty.bits / 8) none (toBytes (ty.bits / 8) x.toNat) rel) fun t => movesTo s t .sq ((s.en .sq).pc + 8) ∧
      if s.holdsBack 0 = true then Spec.heldBack s t va (ty.bits / 8) spot none fun bs r =>
        r = rel ∧ bs.length = ty.bits / 8 ∧ ∀ i, i < ty.bits / 8 → bs.getD i 0 = Spec.byteOf x i
      else Spec.performedIn s t va (ty.bits / 8) spot false := by
  refine goesTo_imp (queued_spec hspot none (toBytes (ty.bits / 8) x.toNat) rel) fun t ⟨hmove, hqueue⟩ => ⟨hmove, ?_⟩
  by_cases hheld : s.holdsBack 0 = true
  · rw [if_pos hheld] at hqueue ⊢
    obtain ⟨hregs, l, hlate, hva, hsize, hlspot, hload, ⟨hdata, hrel⟩, hafter⟩ := hqueue
    refine ⟨hregs, l, hlate, hva, hsize, hlspot, hload, ⟨hrel, ?_, fun i hi => ?_⟩, hafter⟩
    · rw [hdata, length_toBytes]
    · rw [hdata, getD_toBytes_byteOf hi]
  · rw [if_neg hheld] at hqueue ⊢
    exact hqueue

/-- Settles O4: a store that passes its checks is performed as it issues or goes through its queue, a store release behind its release; a store
that the queue performs writes its bytes. -/
theorem scalarStores : Obligations.ScalarStores := by
  refine ⟨fun s ty sc sa p h => ⟨fun off hc => ⟨execSt_spec h hc sc, fun spot hq hspot => ?_⟩, fun scope off hremote hnt hc =>
    ⟨fun spot hq hspot => ?_, execStrel_spec h hremote hnt hc sc⟩⟩, fun s c l key hload hrel hspot => performOne_store hload hrel hspot⟩
  · rw [execSt_ok h hc, if_pos hq]
    exact queuedStore_spec (s.sReg sc) none hspot
  · rw [execStrel_ok h hremote hnt hc, if_pos hq]
    exact queuedStore_spec (s.sReg sc) (some scope) hspot

end Sys2Proof.Machine
end

section
/-! PROOFS. A store enters the write buffer of its die, and nothing else of the memory changes (R139). -/

namespace Sys2Proof.Machine

/-! Other dies -/

theorem die_learn_other (s : State) {d e : Nat} (he : e ≠ d) (asid : BitVec 12) (va : Nat) (t : Trans) (alloc : Bool) :
    (learn s d asid va t alloc).die e = s.die e := by
  have hwalk : ((if decide (canonVA s d asid va / 65536 ≠ t.va / 65536) = true then keepTrans s asid va else s).die e) = s.die e := by
    split
    · exact die_eq (dies_keepTrans s asid va) e
    · rfl
  unfold learn
  dsimp only
  split
  · rw [die_setDie, if_neg he, hwalk]
  · rw [die_eq (dies_learnHome _ asid t alloc), die_setDie, if_neg he, hwalk]

theorem die_published_other (s : State) {c e : Nat} (he : e ≠ dieOf c) (sc : Scope) (spot size : Nat) (a : Bool) (nos : List Nat) :
    (s.published c sc spot size a nos).die e = s.die e := by
  unfold State.published
  dsimp only
  generalize (if nos.isEmpty = true then [] else _) = new
  split
  · rfl
  · rw [die_setDie, if_neg he]

theorem die_publishFences_other (s : State) {c e : Nat} (he : e ≠ dieOf c) (spot size : Nat) : (s.publishFences c spot size).die e = s.die e :=
  List.foldlRecOn (motive := fun t : State => t.die e = s.die e) _ _ (die_published_other s he _ _ _ _ _) fun t h _ _ =>
    (die_published_other t he _ _ _ _ _).trans h

/-! The buffered store -/

/-- The bytes that a buffered store marks (R139). -/
theorem get_markBytes (off : Nat) (bs : List Byte) (k : Nat) :
    Bank.get 0 (markBytes off bs) k = if off ≤ k ∧ k < off + bs.length then (bs.getD (k - off) 0).toNat + 256 else 0 := by
  unfold markBytes
  rw [Bank.get_setRun, Bank.get_nil]
  by_cases hlow : off ≤ k
  · by_cases hhigh : k < off + bs.length
    · have hin : k - off < bs.length := by omega
      simp [hlow, hhigh, hin]
    · have hout : bs.length ≤ k - off := by omega
      simp [hlow, hhigh, hout]
  · simp [hlow]

/-- With room in the buffer a store becomes its youngest entry and nothing goes home (R139). -/
theorem bufStore_room {s : State} {d : Nat} (h : (s.die d).buf.length < 16) (stream : Nat) (asid : BitVec 12) (t : Trans) (bs : List Byte)
    (gen : Option GenRef) (nt : Bool) : ∃ e : BufStore, bufStore s d stream asid t bs gen nt =
      s.setDie d { s.die d with buf := (s.die d).buf ++ [e], entered := (s.die d).entered + 1 } ∧
      e.stream = stream ∧ e.phys = t.phys / 128 * 128 ∧ e.gen = gen ∧ e.bytes = markBytes (t.va % 128) bs := by
  have hroom : makeRoom s d (t.phys / 128 * 128) = s := if_pos (.inl h)
  unfold bufStore
  rw [hroom]
  exact ⟨_, rfl, rfl, rfl, rfl, rfl⟩

/-- What a scalar store to a normal page leaves where its die's write buffer has room: one entry more, no core, and no byte of a scratchpad or of
the copy of record (R139). -/
theorem store_room {s : State} {va : Nat} {bs : List Byte} {t : Trans} (ht : s.here.sys.timed = false)
    (hn : bs.length = 1 ∨ bs.length = 2 ∨ bs.length = 4 ∨ bs.length = 8) (halign : va % bs.length = 0)
    (hw : window s.cur.core s.here va bs.length = .ok .glob)
    (hline : lineAccess s (dieOf s.cur.core) s.here.sys.asid va .write = .ok t) (hattr : t.attr ≠ 4)
    (hroom : (s.die (dieOf s.cur.core)).buf.length < 16) (e : Eng) :
    let u := s.store e va bs
    u.cur = s.cur ∧ u.cores = s.cores ∧ u.spad = s.spad ∧ u.hbm = s.hbm ∧ (∀ d, d ≠ dieOf s.cur.core → u.die d = s.die d) ∧
      ∃ b : BufStore, (u.die (dieOf s.cur.core)).buf = (s.die (dieOf s.cur.core)).buf ++ [b] ∧ b.stream = s.stream e ∧
        b.phys = t.phys / 128 * 128 ∧ b.gen = none ∧ b.bytes = markBytes (t.va % 128) bs := by
  have hlearn : sameButCaches s (learn s (dieOf s.cur.core) s.here.sys.asid va t !false) := sameButCaches_learn s _ _ va t _
  have hbuf := buf_learn s (dieOf s.cur.core) s.here.sys.asid va t (!false)
  have hother {d : Nat} (hd : d ≠ dieOf s.cur.core) := die_learn_other s hd s.here.sys.asid va t !false
  have hput : s.store e va bs = bufStore (patchLine (learn s (dieOf s.cur.core) s.here.sys.asid va t !false) (dieOf s.cur.core) s.here.sys.asid t.va bs)
      (dieOf s.cur.core) (s.stream e) s.here.sys.asid t bs := by
    rw [store_interlocked ht, writeMem_glob hn halign hw hline]
    exact if_neg hattr
  rw [hput]
  generalize learn s (dieOf s.cur.core) s.here.sys.asid va t _ = u at hlearn hbuf hother ⊢
  have hpatch := buf_patchLine u (dieOf s.cur.core) s.here.sys.asid t.va bs (dieOf s.cur.core)
  rw [hbuf] at hpatch
  obtain ⟨b, hstore, hb⟩ := bufStore_room (by rw [hpatch]; exact hroom) (s.stream e) s.here.sys.asid t bs none false
  obtain ⟨hstream, hphys, hgen, hbytes⟩ := hb
  rw [hstore]
  refine ⟨by rw [hlearn]; rfl, by rw [hlearn]; rfl, by rw [hlearn]; rfl, by rw [hlearn]; rfl, fun d hd => ?_, b, ?_, hstream, hphys, hgen, hbytes⟩
  · rw [die_setDie, if_neg hd]
    unfold patchLine
    rw [die_setDie, if_neg hd, hother hd]
  · rw [die_setDie, if_pos rfl, hpatch]

/-- An integer type has whole bytes (R110). -/
theorem bytes_of_isInt {ty : Fmt} (h : ty.isInt = true) : ty.bits / 8 = 1 ∨ ty.bits / 8 = 2 ∨ ty.bits / 8 = 4 ∨ ty.bits / 8 = 8 := by
  cases ty with
  | i8 | i16 | i32 | i64 | n8 | n16 | n32 | n64 => decide
  | _ => exact absurd h (by decide)

/-- Settles O5: the store becomes the youngest entry of its die's buffer, and what it publishes beside that is no more than records of releases. -/
theorem globalStoresEnterTheWriteBuffer : Obligations.GlobalStoresEnterTheWriteBuffer := by
  intro s ty sc sa off tr h hint va d hc hline hattr hroom hq
  obtain ⟨halign, hw⟩ := scalarCheck_ok hc
  rw [execSt_ok h hc, if_neg (by rw [hq]; decide)]
  change goesTo (((s.store .sq va (toBytes (ty.bits / 8) (s.sReg sc).toNat)).atSpot va (ty.bits / 8) _).done .sq) _
  generalize hbs : toBytes (ty.bits / 8) (s.sReg sc).toNat = bs
  have hlen : bs.length = ty.bits / 8 := by rw [← hbs, length_toBytes]
  obtain ⟨hcur, hcores, hspad, hhbm, hother, b, hbuf, hstream, hphys, hgen, hbytes⟩ :=
    store_room h.1 (by rw [hlen]; exact bytes_of_isInt hint) (by rw [hlen]; exact halign) (by rw [hlen]; exact hw) hline hattr hroom .sq
  have hpub := publishes_atSpot (s.store .sq va bs) va (ty.bits / 8)
  have hpubother {e : Nat} (he : e ≠ d) : ((s.store .sq va bs).atSpot va (ty.bits / 8) fun t x => t.publishFences t.cur.core x (ty.bits / 8)).die e =
      (s.store .sq va bs).die e := by
    rcases atSpot_cases (s.store .sq va bs) va (ty.bits / 8) (fun t x => t.publishFences t.cur.core x (ty.bits / 8)) with hs | ⟨x, hs⟩
    · rw [hs]
    · rw [hs]
      exact die_publishFences_other _ (by rw [hcur]; exact he) _ _
  generalize (s.store .sq va bs).atSpot va _ _ = u at hpub hpubother ⊢
  have hhere : u.here = s.here := by
    unfold State.here
    rw [core_eq (hpub.1.trans hcores), (onlyCombines_publishes hpub).1, hcur]
  obtain ⟨t, ht, -, hrest, hstill, hregs⟩ := done_moves (s := s) (u := u) (by rw [hhere])
  refine ⟨t, ht, ⟨by rw [hstill, hhere], by rw [hregs, hhere]⟩, fun k => ?_, fun a => ?_, fun e he => ?_, b, ?_, hstream, hphys, hgen, fun k => ?_⟩
  · unfold State.spadByte
    rw [rest_spad hrest, spad_publishes hpub, hspad]
  · unfold State.homeByte
    rw [rest_hbm hrest, hbm_publishes hpub, hhbm]
  · rw [die_rest hrest, hpubother he, hother e he]
  · rw [die_rest hrest, buf_publishes hpub, hbuf]
  · rw [hbytes, get_markBytes, hlen]
    split
    · next hk => rw [← hbs, getD_toBytes_byteOf (by omega)]
    · rfl

end Sys2Proof.Machine
end

section
/-! PROOFS. Atomics: one read and one write at the execution point, between a release and an acquire (R150, R152 to R154). -/

namespace Sys2Proof.Machine

/-! The operations (R152, R153) -/

theorem signedOf_inj {w a b : Nat} (ha : a < 2 ^ w) (hb : b < 2 ^ w) (h : signedOf w a = signedOf w b) : a = b := by
  unfold signedOf at h
  rw [Nat.mod_eq_of_lt ha, Nat.mod_eq_of_lt hb] at h
  generalize 2 ^ w = m at *
  generalize 2 ^ (w - 1) = half at *
  split at h <;> split at h <;> omega

/-- What an operation makes of values of its type is NewValue of R152. -/
theorem newValue_eq_updated (op : AmoOp) {ty : Fmt} {old x : Nat} (ho : old < 2 ^ ty.bits) (hx : x < 2 ^ ty.bits) :
    newValue op ty old x = Spec.updated op ty old x := by
  have hinj := signedOf_inj ho hx
  cases op with
  | min =>
    unfold newValue Spec.updated intPick
    by_cases hs : ty.isSigned = true
    · simp only [hs, if_true, and_true, not_true, and_false, or_false, decide_eq_false_iff_not]
      split <;> split <;> omega
    · simp only [hs, if_false, and_true, not_false_eq_true, and_false, false_or, decide_eq_false_iff_not, Bool.false_eq_true]
      split <;> split <;> omega
  | max =>
    unfold newValue Spec.updated intPick
    by_cases hs : ty.isSigned = true
    · simp [hs]
    · simp [hs]
  | _ => rfl

theorem amo_next (op : AmoOp) (ty : Fmt) (x : Nat) : BankOp.next (.amo op ty) x = fun old => some (newValue op ty old x) := rfl

/-- The operand of a compare and swap holds the value compared and the new one (R153). -/
theorem cas_next (ty : Fmt) {want : Nat} (hw : want < 2 ^ 64) (new : Nat) :
    BankOp.next (.cas ty) (want + new * 2 ^ 64) = fun old => if old = want then some new else none := by
  funext old
  unfold BankOp.next
  dsimp only
  rw [Nat.add_mul_mod_self_right, Nat.mod_eq_of_lt hw, Nat.add_mul_div_right _ _ (Nat.two_pow_pos 64), Nat.div_eq_of_lt hw, Nat.zero_add]

/-- A type has no more than 64 bits, so its values are below 2^64 (R37). -/
theorem mod_bits_lt (ty : Fmt) (x : Nat) : x % 2 ^ ty.bits < 2 ^ 64 :=
  calc x % 2 ^ ty.bits < 2 ^ ty.bits := Nat.mod_lt _ (Nat.two_pow_pos _)
    _ ≤ 2 ^ 64 := Nat.pow_le_pow_right Nat.two_pos (by cases ty <;> decide)

/-! Bytes of numbers (R1) -/

theorem getD_eq_ofBytes (bs : List Byte) (i : Nat) : bs.getD i 0 = BitVec.ofNat 8 (ofBytes bs / 256 ^ i) := by
  induction bs generalizing i with
  | nil => rw [ofBytes, Nat.zero_div]; rfl
  | cons b bs ih =>
    apply BitVec.eq_of_toNat_eq
    cases i with
    | zero =>
      have hb := b.isLt
      rw [List.getD_cons_zero, ofBytes, pow_zero, Nat.div_one, BitVec.toNat_ofNat]
      omega
    | succ i =>
      have hb : (b.toNat + 256 * ofBytes bs) / 256 = ofBytes bs := by have := b.isLt; omega
      rw [List.getD_cons_succ, ih, ofBytes, Nat.pow_succ', ← Nat.div_div_eq_div_mul, hb]

theorem getD_getRun {α : Type} (d : α) (b : Bank α) (a : Nat) {n i : Nat} (hi : i < n) : (Bank.getRun d b a n).getD i d = Bank.get d b (a + i) := by
  induction n generalizing a i with
  | zero => exact absurd hi (Nat.not_lt_zero i)
  | succ n ih =>
    cases i with
    | zero => rfl
    | succ i => rw [Bank.getRun, List.getD_cons_succ, ih _ (Nat.lt_of_succ_lt_succ hi), Nat.add_assoc, Nat.add_comm 1 i]

/-! The update at the execution point (R150) -/

theorem window_onlyCombines {s t : State} (h : onlyCombines s t) (va n : Nat) : window t.cur.core t.here va n = window s.cur.core s.here va n := by
  obtain ⟨wc, hwc⟩ := here_onlyCombines h
  rw [hwc, h.1]
  rfl

theorem inOrder_onlyCombines {s t : State} (h : onlyCombines s t) {e : Eng} (ho : inOrder s e) : inOrder t e := by
  obtain ⟨wc, hwc⟩ := here_onlyCombines h
  unfold inOrder
  rw [hwc]
  exact ho

theorem onlyCombines_drainLine (d phys n : Nat) (s : State) : onlyCombines s (drainLine d phys n s) :=
  ⟨(sameControl_drainLine (sameControl_refl s) d phys n).1, sameButCombining_of_cores (cores_drainLine d phys n s)⟩

theorem onlyCombines_bufStore (s : State) (d stream : Nat) (asid : BitVec 12) (t : Trans) (bs : List Byte) :
    onlyCombines s (bufStore s d stream asid t bs) :=
  ⟨(sameControl_bufStore (sameControl_refl s) d stream asid t bs none false).1, sameButCombining_of_cores (cores_bufStore s d stream asid t bs none false)⟩

/-- An update at the execution point changes no core but in its write-combining buffers. -/
theorem onlyCombines_atomicUpdate (s : State) (e : Eng) (va size : Nat) (sc : Scope) (f : Nat → Option Nat) :
    onlyCombines s (atomicUpdate s e va size sc f).2 := by
  have hcores {t : State} (hcur : t.cur = s.cur) (h : t.cores = s.cores) : onlyCombines s t := ⟨hcur, sameButCombining_of_cores h⟩
  unfold atomicUpdate
  dsimp only
  split
  · split
    · exact hcores rfl rfl
    · exact hcores rfl rfl
  · split
    · exact hcores rfl rfl
    · next t _ =>
      have hl := onlyCombines_sameButCaches (sameButCaches_learn s (dieOf s.cur.core) s.here.sys.asid va t true)
      generalize learn s (dieOf s.cur.core) s.here.sys.asid va t = q at hl
      split
      · have hd := onlyCombines_drainLine (dieOf s.cur.core) (t.phys / 128 * 128) (q.die (dieOf s.cur.core)).buf.length q
        split
        · exact onlyCombines_trans hl hd
        · exact onlyCombines_trans hl hd
      · have hf := onlyCombines_sameButCaches (sameButCaches_fill q (dieOf s.cur.core) s.here.sys.asid t)
        split
        · exact onlyCombines_trans (onlyCombines_trans hl hf) (onlyCombines_bufStore (patchLine (fill q _ _ t) _ _ _ _) _ _ _ _ _)
        · exact onlyCombines_trans hl hf

/-- In a scratchpad the update is at its bank: one read, and one write of what the operation makes of it (R150). -/
theorem atomicUpdate_spad {s : State} {va n key : Nat} (hw : window s.cur.core s.here va n = .ok (.spad key)) (e : Eng) (sc : Scope)
    (f : Nat → Option Nat) :
    let old := ofBytes (Bank.getRun 0 s.spad key n)
    (atomicUpdate s e va n sc f).1 = old ∧ ∀ k, (atomicUpdate s e va n sc f).2.spadByte k =
      if key ≤ k ∧ k < key + n then BitVec.ofNat 8 ((f old).getD old / 256 ^ (k - key)) else s.spadByte k := by
  unfold atomicUpdate
  dsimp only
  rw [hw]
  refine ⟨rfl, fun k => ?_⟩
  dsimp only
  cases f (ofBytes (Bank.getRun 0 s.spad key n)) with
  | some v =>
    refine (spadByte_setRun s key (toBytes n v) k).trans ?_
    rw [length_toBytes]
    split
    · exact getD_toBytes (by omega) v
    · rfl
  | none =>
    have hbyte (hk : key ≤ k ∧ k < key + n) : s.spadByte k = BitVec.ofNat 8 (ofBytes (Bank.getRun 0 s.spad key n) / 256 ^ (k - key)) := by
      have hget := getD_getRun 0 s.spad key (n := n) (i := k - key) (by omega)
      rw [Nat.add_sub_cancel' hk.1] at hget
      exact hget.symm.trans (getD_eq_ofBytes _ _)
    dsimp only
    split
    · next hk => exact hbyte hk
    · rfl

/-! The word: release, update, acquire (R152) -/

/-- The release of an atomic (R152). -/
def State.atomicStart (s : State) (sc : Scope) (o : BitVec 2) : State := if ordRelease o then s.release sc else s

/-- What follows the update of an atomic: its acquire, and the records of both (R146, R152). -/
def State.atomicEnd (s : State) (va n : Nat) (sc : Scope) (o : BitVec 2) (nos : List Nat) : State :=
  let t := if ordAcquire o then s.acquire sc else s
  if decide (o = 0) then t else t.atomicOrder va n sc o nos

/-- The result of an atomic goes to its register, if it has one (R152, R154). -/
def State.atomicResult (s : State) (sd : Option SReg) (x : Word) : State :=
  match sd with
  | some sd => s.wrS .sq sd x
  | none => s

theorem onlyCombines_atomicStart (s : State) (sc : Scope) (o : BitVec 2) : onlyCombines s (s.atomicStart sc o) := by
  unfold State.atomicStart
  split
  · exact onlyCombines_release s sc
  · exact onlyCombines_refl s

/-- The records of an atomic's release and acquire are records of order (R146). -/
theorem atomicOrder_spec (s : State) (va n : Nat) (sc : Scope) (o : BitVec 2) (nos : List Nat) :
    (s.atomicOrder va n sc o nos).cur = s.cur ∧ (s.atomicOrder va n sc o nos).spad = s.spad ∧
      ∃ hb fenced loaded, (s.atomicOrder va n sc o nos).here = s.here.withOrder hb fenced loaded := by
  unfold State.atomicOrder
  split
  · next x _ =>
    have hobserve : sameButOrder s (if ordAcquire o = true then s.observe s.cur.core sc x.code n else s) := by
      split
      · exact sameButOrder_observe s sc x.code n
      · exact sameButOrder_refl s
    dsimp only
    generalize (if ordAcquire o = true then s.observe s.cur.core sc x.code n else s) = u at hobserve ⊢
    obtain ⟨hrest, horder⟩ := hobserve
    split
    · have hpub := sameButReleases_published u u.cur.core sc x.code n true nos
      have hhere : (u.published u.cur.core sc x.code n true nos).here = u.here := by
        unfold State.here
        rw [core_eq (cores_published u _ _ _ _ _ _), hpub.1]
      have hcur : (u.published u.cur.core sc x.code n true nos).cur = u.cur := by rw [hpub.1]
      have hspad : (u.published u.cur.core sc x.code n true nos).spad = u.spad := by rw [hpub.1]
      exact ⟨hcur.trans (rest_cur hrest), hspad.trans (rest_spad hrest), by rw [hhere]; exact horder⟩
    · exact ⟨rest_cur hrest, rest_spad hrest, horder⟩
  · exact ⟨rfl, rfl, _, _, _, rfl⟩

theorem atomicEnd_spec (s : State) (va n : Nat) (sc : Scope) (o : BitVec 2) (nos : List Nat) :
    (s.atomicEnd va n sc o nos).cur = s.cur ∧ (s.atomicEnd va n sc o nos).spad = s.spad ∧
      ∃ hb fenced loaded, (s.atomicEnd va n sc o nos).here = s.here.withOrder hb fenced loaded := by
  have hacquire : sameButCaches s (if ordAcquire o = true then s.acquire sc else s) := by
    split
    · exact (acquire_spec s sc).1
    · exact sameButCaches_refl s
  unfold State.atomicEnd
  dsimp only
  generalize (if ordAcquire o = true then s.acquire sc else s) = u at hacquire ⊢
  have hhere := here_sameButCaches hacquire
  have hspad : u.spad = s.spad := by rw [hacquire]
  split
  · exact ⟨cur_sameButCaches hacquire, hspad, _, _, _, hhere⟩
  · obtain ⟨hcur, hspad', hb, fenced, loaded, horder⟩ := atomicOrder_spec u va n sc o nos
    exact ⟨hcur.trans (cur_sameButCaches hacquire), hspad'.trans hspad, hb, fenced, loaded, by rw [horder, hhere]⟩

section
variable {s : State} (h : inOrder s .sq) {ty : Fmt} {sc : Scope} {o : BitVec 2} {va : Nat} {p : Place}
  (hrel : ordRelease o = true → (Scope.beyond sc = true → s.remoteWrites = false) ∧ (s.release sc).ntWaits sc = false)
  (hc : s.scalarCheck .sq va (ty.bits / 8) .atomic = .ok p)
include h hrel hc

/-- An atomic that passes its checks and waits for nothing outside (R147, R149, R152). -/
theorem atomicWord_ok (sd : Option SReg) (op : BankOp) (x : Nat) :
    let u := s.atomicStart sc o
    let r := atomicUpdate u .sq va (ty.bits / 8) sc (op.next x)
    atomicWord sd ty sc o va op x s =
      ((r.2.atomicEnd va (ty.bits / 8) sc o (u.pendingBefore u.cur.core)).atomicResult sd (extend ty r.1)).done .sq := by
  have hstay : ¬ (ordRelease o && Scope.beyond sc && s.remoteWrites) = true := by
    rw [Bool.and_eq_true, Bool.and_eq_true]
    rintro ⟨⟨ho, hb⟩, hr⟩
    rw [(hrel ho).1 hb] at hr
    cases hr
  have hnt : ¬ (ordRelease o && (s.atomicStart sc o).ntWaits sc) = true := by
    rw [Bool.and_eq_true]
    rintro ⟨ho, hr⟩
    unfold State.atomicStart at hr
    rw [if_pos ho, (hrel ho).2] at hr
    cases hr
  have htimed := (inOrder_onlyCombines (onlyCombines_atomicStart s sc o) h).1
  intro u r
  unfold atomicWord
  dsimp only
  rw [hc]
  dsimp only [orTrap]
  rw [if_neg hstay]
  change (if (ordRelease o && u.ntWaits sc) = true then _ else _) = _
  rw [if_neg hnt]
  change (match (if u.here.sys.timed = true then p else .glob) with | .spad _ => _ | .glob => _) = _
  rw [htimed]
  cases sd <;> rfl

/-- What an atomic leaves: its result in its register, and memory as its update leaves it. -/
theorem atomicWord_spec (sd : Option SReg) (op : BankOp) (x : Nat) :
    let r := atomicUpdate (s.atomicStart sc o) .sq va (ty.bits / 8) sc (op.next x)
    goesTo (atomicWord sd ty sc o va op x s) fun t => movesTo s t .sq ((s.en .sq).pc + 8) ∧ t.here.sys = s.here.sys ∧
      { t.here.regs with s := [] } = { s.here.regs with s := [] } ∧ t.spad = r.2.spad ∧
      (sd = none → t.here.regs = s.here.regs) ∧
      ∀ d, sd = some d → ∀ q, t.sReg q = if q = d ∧ d ≠ 0 then extend ty r.1 else s.sReg q := by
  intro r
  rw [atomicWord_ok h hrel hc]
  change goesTo (((r.2.atomicEnd va (ty.bits / 8) sc o _).atomicResult sd (extend ty r.1)).done .sq) _
  have honly : onlyCombines s r.2 := onlyCombines_trans (onlyCombines_atomicStart s sc o) (onlyCombines_atomicUpdate _ .sq va _ sc _)
  generalize State.pendingBefore _ _ = nos
  obtain ⟨wc, hwc⟩ := here_onlyCombines honly
  obtain ⟨-, hspad, hb, fenced, loaded, hhere⟩ := atomicEnd_spec r.2 va (ty.bits / 8) sc o nos
  have hin := inOrder_withOrder hhere (inOrder_onlyCombines honly h)
  generalize r.2.atomicEnd va (ty.bits / 8) sc o nos = v at hspad hhere hin ⊢
  rw [hwc] at hhere
  have hregs : v.here.regs = s.here.regs := by rw [hhere]; rfl
  cases sd with
  | none =>
    obtain ⟨t, ht, hmove, hrest, hstill, htregs⟩ := done_moves (s := s) (u := v) (by rw [hhere]; rfl)
    refine ⟨t, ht, hmove, (congrArg Core.sys hstill :).trans (by rw [hhere]; rfl), by rw [htregs, hregs], (rest_spad hrest).trans hspad,
      fun _ => htregs.trans hregs, nofun⟩
  | some d =>
    obtain ⟨hwrest, -, -, hwstill, hwregs, hws⟩ := wrS_inOrder hin d (extend ty r.1)
    obtain ⟨heng, -⟩ := here_wrS v .sq d (extend ty r.1)
    obtain ⟨t, ht, hmove, hrest, hstill, htregs⟩ := done_moves (s := s) (heng.trans (by rw [hhere]; rfl))
    refine ⟨t, ht, hmove, ?_, by rw [htregs, hwregs, hregs], (rest_spad hrest).trans ((rest_spad hwrest).trans hspad), nofun,
      fun d' hd q => ?_⟩
    · exact (congrArg Core.sys (hstill.trans hwstill) :).trans (by rw [hhere]; rfl)
    · cases hd
      rw [sReg_congr htregs, hws, sReg_congr hregs]

omit h hrel in
/-- The bytes that an atomic leaves in a scratchpad, and what it has read there, where its operation makes g of what it reads. -/
theorem atomic_spad {op : BankOp} {x key : Nat} {g : Nat → Nat} {t : State} (hp : p = .spad key)
    (hg : ∀ old, old < 2 ^ ty.bits → (op.next x old).getD old = g old) :
    let u := s.atomicStart sc o
    let r := atomicUpdate u .sq va (ty.bits / 8) sc (op.next x)
    extend ty r.1 = Spec.loaded ty (Bank.getRun 0 u.spad key (ty.bits / 8)) ∧ (t.spad = r.2.spad → ∀ k, t.spadByte k =
      if key ≤ k ∧ k < key + ty.bits / 8 then BitVec.ofNat 8 (g (ofBytes (Bank.getRun 0 u.spad key (ty.bits / 8))) / 256 ^ (k - key))
      else u.spadByte k) := by
  intro u r
  have hlen : (Bank.getRun 0 u.spad key (ty.bits / 8)).length ≤ ty.bits / 8 := Nat.le_of_eq (Bank.getRun_length _ _ _ _)
  obtain ⟨-, hw⟩ := scalarCheck_ok hc
  rw [hp, ← window_onlyCombines (onlyCombines_atomicStart s sc o)] at hw
  obtain ⟨hold, hbytes⟩ := atomicUpdate_spad hw .sq sc (op.next x)
  refine ⟨(congrArg (extend ty) hold).trans (extend_ofBytes hlen), fun ht k => ?_⟩
  rw [← hg _ (ofBytes_lt_bits hlen), ← hbytes]
  unfold State.spadByte
  rw [ht]

end

/-- Settles O6: each word is its operation at the execution point; a reduction has no register for what stood there. -/
theorem atomics : Obligations.Atomics := by
  intro s p scope o ty sa h hrel hc va n u leaves gives
  have hlt (x : Nat) : x % 2 ^ ty.bits < 2 ^ ty.bits := Nat.mod_lt x (Nat.two_pow_pos _)
  refine ⟨fun op sd sb => ?_, fun sd sb sc => ?_⟩
  · intro x
    have hg (old : Nat) (ho : old < 2 ^ ty.bits) : (BankOp.next (.amo op ty) x old).getD old = Spec.updated op ty old x :=
      newValue_eq_updated op ho (hlt _)
    have hexec (d : Option SReg) := atomicWord_spec h hrel hc d (.amo op ty) x
    constructor
    · show goesTo (execAmo _ s) _
      unfold execAmo
      dsimp only
      rw [rdS_inOrder h, rdS_inOrder h]
      refine goesTo_imp (hexec (some sd)) fun t ⟨hmove, hsys, hregs, hspad, _, hresult⟩ =>
        ⟨⟨hmove, hsys, hregs, fun key hp => ?_⟩, fun key hp q => ?_, hresult sd rfl⟩
      · exact (atomic_spad hc hp hg).2 hspad
      · rw [hresult sd rfl, (atomic_spad (t := t) hc hp hg).1]
        rfl
    · show goesTo (execRed _ s) _
      unfold execRed
      dsimp only
      rw [rdS_inOrder h, rdS_inOrder h]
      exact goesTo_imp (hexec none) fun t ⟨hmove, hsys, hregs, hspad, hnone, _⟩ =>
        ⟨⟨hmove, hsys, hregs, fun key hp => (atomic_spad hc hp hg).2 hspad⟩, hnone rfl⟩
  · intro want new
    have hnext := cas_next ty (mod_bits_lt ty (s.sReg sb).toNat) new
    have hg (old : Nat) (_ : old < 2 ^ ty.bits) : (BankOp.next (.cas ty) (want + new * 2 ^ 64) old).getD old = if old = want then new else old := by
      rw [hnext]
      dsimp only
      split <;> rfl
    show goesTo (execAmocas sd sa sb sc ty scope o s) _
    unfold execAmocas
    dsimp only
    rw [rdS_inOrder h, rdS_inOrder h, rdS_inOrder h]
    refine goesTo_imp (atomicWord_spec h hrel hc (some sd) (.cas ty) (want + new * 2 ^ 64)) fun t ⟨hmove, hsys, hregs, hspad, _, hresult⟩ =>
      ⟨⟨hmove, hsys, hregs, fun key hp => (atomic_spad hc hp hg).2 hspad⟩, fun key hp q => ?_, fun q => ?_⟩
    · rw [hresult sd rfl, (atomic_spad (t := t) hc hp hg).1]
      rfl
    · rw [hresult sd rfl, hnext]
      rfl

end Sys2Proof.Machine
end

section
/-! PROOFS. Accesses of the load and store engines, whole or torn: what they leave, and where a word of theirs ends (R145, R162, R163). -/

namespace Sys2Proof.Machine

/-! Checks and ends of words -/

theorem afterChecks_ok {s : State} {e : Eng} {kind : Kind} {align : Nat} {l : List (Nat × Nat)} (h : s.accessCheck e kind align l = none) (k : Res) :
    afterChecks s e kind align l k = k := by
  unfold afterChecks
  rw [h]

/-- A word of an engine ends after a state in which no engine has moved. -/
theorem ends_moves {s u : State} {e : Eng} (he : u.here.eng = s.here.eng) : goesTo (u.done e) fun t =>
    movesTo s t e ((s.en e).pc + 8) ∧ t.rest = u.rest ∧ t.here.still = u.here.still ∧ t.here.regs = u.here.regs := by
  have hen (f : Eng) : u.en f = s.en f := by unfold State.en Core.en; rw [he]
  obtain ⟨t, ht, ⟨hrest, -, hmove⟩, hstill, hregs⟩ := finishes_done (s := u) (u := u) (e := e) rfl (fun _ _ => rfl) fun _ => rfl
  refine ⟨t, ht, ?_, hrest, hstill, hregs⟩
  unfold movesTo at hmove ⊢
  simpa only [hen] using hmove

/-- A word of an engine waits after a state in which no engine has moved. -/
theorem await_stays {s u : State} {e : Eng} (he : u.here.eng = s.here.eng) (w : Wait) : goesTo (u.await e w) fun t =>
    t.rest = u.rest ∧ t.here.regs = u.here.regs ∧ t.here.sys = u.here.sys ∧ (t.en e).pc = (s.en e).pc ∧ (t.en e).wait = some w := by
  have hen : u.here.en e = s.en e := by unfold State.en Core.en; rw [he]
  refine ⟨_, rfl, rfl, by rw [here_upd, regs_onEn], by rw [here_upd, sys_onEn], ?_, ?_⟩
  · unfold State.en
    rw [here_upd, en_onEn, if_pos rfl, hen]
    rfl
  · unfold State.en
    rw [here_upd, en_onEn, if_pos rfl]

/-! Writes of registers -/

theorem eng_wr (s : State) (e : Eng) (d : Dest) (bm x : Nat) : (s.wr e d bm x).here.eng = s.here.eng := by
  unfold State.wr Core.writeReg
  rw [here_upd]
  split
  · rfl
  · exact (of_control (control_writeRace s.here _ _ _ _ d bm x)).2.1

theorem inOrder_sameButCaches {s t : State} (h : sameButCaches s t) {e : Eng} (ho : inOrder s e) : inOrder t e :=
  inOrder_onlyCombines (onlyCombines_sameButCaches h) ho

/-- In order, a write of a register that is no system register leaves those alone. -/
theorem sys_wr {s : State} {e : Eng} (h : inOrder s e) {d : Dest} (hd : ∀ (k : Core) (x : Nat), (k.setReg d x).sys = k.sys) (bm x : Nat) :
    (s.wr e d bm x).here.sys = s.here.sys := by
  unfold State.wr
  rw [here_upd]
  obtain ⟨rs, hw | ⟨-, hw⟩⟩ := writeReg_inOrder s.free d bm x h.1 h.2
  · rw [hw]
    exact hd _ _
  · rw [hw]

theorem ofNat_blend_ones (n old x : Nat) : BitVec.ofNat n (blend old x (ones n)) = BitVec.ofNat n x :=
  BitVec.eq_of_getLsbD_eq fun i hi => by
    rw [BitVec.getLsbD_ofNat, BitVec.getLsbD_ofNat, testBit_blend, ones, Nat.testBit_two_pow_sub_one, decide_eq_true hi, if_pos rfl]

/-- A register that a write of all its bits leaves as it was held what is written. -/
theorem eq_of_blend_ones {n x : Nat} {r : BitVec n} (h : blend r.toNat x (ones n) = r.toNat) : r = BitVec.ofNat n x := by
  rw [← ofNat_blend_ones n r.toNat x, h, BitVec.ofNat_toNat, BitVec.setWidth_eq]

/-- In order, a write of a whole mask register leaves what is written there. -/
theorem wr_m_whole {s : State} {e : Eng} (h : inOrder s e) (m x : Nat) : writesM s (s.wr e (.m m) (ones 256) x) m (BitVec.ofNat 256 x) := by
  unfold writesM State.mReg State.wr
  rw [here_upd]
  obtain ⟨rs, hw | ⟨hold, hw⟩⟩ := writeReg_inOrder s.free (.m m) (ones 256) x h.1 h.2
  · rw [hw]
    refine ⟨rfl, rfl, fun n => (Bank.get_set _ _ _ _ _).trans ?_⟩
    rw [ofNat_blend_ones]
  · rw [hw]
    refine ⟨rfl, rfl, fun n => ?_⟩
    split
    · next hn => rw [hn, eq_of_blend_ones hold]
    · rfl

/-- Of the core's registers only accumulators change, and of those only a, which now holds x. -/
def writesAcc (s t : State) (a : Nat) (x : Tile) : Prop :=
  t.here.still = s.here.still ∧ { t.here.regs with acc := [] } = { s.here.regs with acc := [] } ∧
    ∀ n, Bank.get 0 t.here.regs.acc n = if n = a then x else Bank.get 0 s.here.regs.acc n

/-- In order, a write of a whole accumulator leaves what is written there. -/
theorem wr_acc_whole {s : State} {e : Eng} (h : inOrder s e) (a x : Nat) :
    writesAcc s (s.wr e (.acc a) (ones 131072) x) a (BitVec.ofNat 131072 x) := by
  unfold writesAcc State.wr
  rw [here_upd]
  obtain ⟨rs, hw | ⟨hold, hw⟩⟩ := writeReg_inOrder s.free (.acc a) (ones 131072) x h.1 h.2
  · rw [hw]
    refine ⟨rfl, rfl, fun n => (Bank.get_set _ _ _ _ _).trans ?_⟩
    rw [ofNat_blend_ones]
  · rw [hw]
    refine ⟨rfl, rfl, fun n => ?_⟩
    split
    · next hn => rw [hn, eq_of_blend_ones (n := 131072) hold]
    · rfl

/-! Loads of runs -/

/-- A load that the device may tear has read its runs, or waits with some of them (R145). -/
theorem loadInto_some {s : State} (h : inOrder s .ld) {d : Dest} (hd : ∀ (k : Core) (x : Nat), (k.setReg d x).sys = k.sys) (bm : Nat)
    (runs : List (Nat × Nat × Nat)) : goesTo (s.loadInto .ld d bm runs) fun t => Spec.readsSome s t d := by
  have hcaches := sameButCaches_loadRuns (s.tearLoad runs).1 s
  unfold State.loadInto
  dsimp only
  generalize loadRuns (s.tearLoad runs).1 s = r at hcaches ⊢
  have hhere := here_sameButCaches hcaches
  have hmem : r.2.spad = s.spad ∧ r.2.hbm = s.hbm := by rw [hcaches]; exact ⟨rfl, rfl⟩
  unfold State.loaded
  split
  · obtain ⟨t, ht, ⟨-, hpc, hwait, -⟩, hrest, hstill, -⟩ := ends_moves (s := s) (e := .ld) ((eng_wr r.2 .ld d bm r.1).trans (by rw [hhere]))
    have hsys : t.here.sys = s.here.sys := (congrArg Core.sys hstill :).trans ((sys_wr (inOrder_sameButCaches hcaches h) hd bm r.1).trans (by rw [hhere]))
    exact ⟨t, ht, (rest_spad hrest).trans hmem.1, (rest_hbm hrest).trans hmem.2, hsys, .inl ⟨hwait, hpc⟩⟩
  · next hlater =>
    obtain ⟨t, ht, hrest, hregs, hsys, hpc, hwait⟩ := await_stays (s := s) (u := r.2) (e := .ld) (by rw [hhere]) (.tornLoad d bm r.1 (s.tearLoad runs).2)
    refine ⟨t, ht, (rest_spad hrest).trans hmem.1, (rest_hbm hrest).trans hmem.2, hsys.trans (by rw [hhere]), .inr ⟨hregs.trans (by rw [hhere]), hpc,
      _, _, _, hwait, ?_⟩⟩
    rwa [List.isEmpty_iff] at hlater

/-- A load that the device does not tear reads its runs and writes its register. -/
theorem loadInto_whole {s : State} (hb : s.holdsBack 1 = false) (e : Eng) (d : Dest) (bm : Nat) (runs : List (Nat × Nat × Nat)) :
    s.loadInto e d bm runs = ((loadRuns runs s).2.wr e d bm (loadRuns runs s).1).done e := by
  have htear : s.tearLoad runs = (runs, []) := by
    unfold State.tearLoad
    rw [hb]
    rfl
  unfold State.loadInto
  rw [htear]
  rfl

/-! Stores of bytes at addresses -/

theorem onlyCombines_storeGen {s : State} (ht : s.here.sys.timed = false) (e : Eng) (gen : Option GenRef) (nt : Bool) (va : Nat) (bs : List Byte) :
    onlyCombines s (s.storeGen e gen nt va bs) := by
  have hstore : s.store e va bs nt = writeMem s s.cur.core (s.stream e) va bs nt := if_neg (by rw [ht]; decide)
  unfold State.storeGen
  split
  · exact onlyCombines_writePieces _ _ _ _ _ _ _ s
  · rw [hstore]
    exact onlyCombines_writeMem s _ _ _ _ _

theorem timed_onlyCombines {s t : State} (h : onlyCombines s t) (ht : s.here.sys.timed = false) : t.here.sys.timed = false := by
  obtain ⟨wc, hwc⟩ := here_onlyCombines h
  rw [hwc]
  exact ht

theorem onlyCombines_tearUnits (e : Eng) (gen : Option GenRef) (nt : Bool) (tick : Nat) (l : List (Nat × Nat × List Byte)) (held : List (Nat × Nat))
    (rest : List TornUnit) {s : State} (ht : s.here.sys.timed = false) : onlyCombines s (tearUnits e gen nt tick l held rest s).2 := by
  induction l generalizing s held rest with
  | nil => exact onlyCombines_refl s
  | cons x r ih =>
    obtain ⟨n, va, bs⟩ := x
    unfold tearUnits
    split
    · have h := onlyCombines_learnSpot s s.cur.core s.here.sys.asid va nt ‹Spot›
      exact onlyCombines_trans h (ih _ _ (timed_onlyCombines h ht))
    · have h := onlyCombines_storeGen ht e gen nt va bs
      exact onlyCombines_trans h (ih _ _ (timed_onlyCombines h ht))

theorem onlyCombines_tearStores {s : State} (ht : s.here.sys.timed = false) (e : Eng) (nt : Bool) (l : List (Nat × List Byte)) :
    onlyCombines s (s.tearStores e none nt l).2 := by
  unfold State.tearStores
  split
  · exact onlyCombines_tearUnits _ _ _ _ _ _ _ ht
  · refine List.foldlRecOn (motive := fun t : State => onlyCombines s t) _ _ (onlyCombines_refl s) fun t h x _ => ?_
    exact onlyCombines_trans h (onlyCombines_storeGen (timed_onlyCombines h ht) e none nt x.1 x.2)

/-- A store without events that leaves nothing to wait for ends its word. -/
theorem storedAll_ends {s u : State} (h : onlyCombines s u) : goesTo (u.storedAll .st [] 0 none) fun t =>
    movesTo s t .st ((s.en .st).pc + 8) ∧ t.here.regs = s.here.regs ∧ t.here.sys = s.here.sys ∧ t.rest = u.rest := by
  obtain ⟨wc, hwc⟩ := here_onlyCombines h
  have hsame := (here_orFlags_zero u .st).trans hwc
  obtain ⟨t, ht, hmove, hrest, hstill, hregs⟩ := ends_moves (s := s) (u := u.orFlags .st 0) (e := .st) (by rw [hsame])
  exact ⟨t, ht, hmove, hregs.trans (by rw [hsame]), (congrArg Core.sys hstill :).trans (by rw [hsame]; rfl), hrest⟩

/-- A store that the device may tear has performed its bytes, or waits with some of them; where it does not tear it the word ends (R145). -/
theorem storeAll_some {s : State} (h : inOrder s .st) (nt : Bool) (l : List (Nat × List Byte)) : goesTo (s.storeAll .st nt l) fun t =>
    Spec.writesSome s t ∧ (s.holdsBack 1 = false → movesTo s t .st ((s.en .st).pc + 8) ∧ t.here.sys = s.here.sys) := by
  have honly := onlyCombines_tearStores h.1 .st nt l
  have hwhole : s.holdsBack 1 = false → (s.tearStores .st none nt l).1 = [] := fun hb => by
    unfold State.tearStores
    rw [hb]
    rfl
  unfold State.storeAll
  dsimp only
  generalize s.tearStores .st none nt l = r at honly hwhole ⊢
  obtain ⟨rest, u⟩ := r
  cases rest with
  | nil =>
    obtain ⟨t, ht, ⟨hother, hpc, hwait, hloop⟩, hregs, hsys, -⟩ := storedAll_ends honly
    exact ⟨t, ht, ⟨hregs, .inl ⟨hwait, hpc⟩⟩, fun _ => ⟨⟨hother, hpc, hwait, hloop⟩, hsys⟩⟩
  | cons x rest =>
    obtain ⟨wc, hwc⟩ := here_onlyCombines honly
    obtain ⟨t, ht, -, hregs, hsys, hpc, hwait⟩ := await_stays (s := s) (e := .st) (by rw [hwc]) (.tornStore (x :: rest) 0 none)
    exact ⟨t, ht, ⟨hregs.trans (by rw [hwc]), .inr ⟨hpc, hsys.trans (by rw [hwc]), _, _, _, hwait, List.cons_ne_nil _ _⟩⟩,
      fun hb => nomatch hwhole hb⟩

/-- A store in the task's windows writes its bytes in the scratchpad and nothing else. -/
theorem storeGen_window {s : State} (ht : s.here.sys.timed = false) {va key : Nat} {bs : List Byte}
    (hw : window s.cur.core s.here va bs.length = .ok (.spad key)) (e : Eng) (nt : Bool) :
    s.storeGen e none nt va bs = { s with spad := Bank.setRun 0 s.spad key bs } := by
  have hstore : s.store e va bs nt = writeMem s s.cur.core (s.stream e) va bs nt := if_neg (by rw [ht]; decide)
  have hw' : window s.cur.core (s.core s.cur.core) va bs.length = .ok (.spad key) := hw
  unfold State.storeGen
  dsimp only
  rw [hstore, writeMem, hw']

/-- Runs of bytes written one after another, each with its key. -/
def setRuns (m : List Host.Cell) (l : List (Nat × List Byte)) : List Host.Cell := l.foldl (fun m x => Bank.setRun 0 m x.1 x.2) m

/-- A byte after runs are written: that of the last run over it. -/
theorem get_setRuns (m : List Host.Cell) (l : List (Nat × List Byte)) (k : Nat) : Bank.get 0 (setRuns m l) k =
    l.foldl (fun b x => if x.1 ≤ k ∧ k < x.1 + x.2.length then x.2.getD (k - x.1) 0 else b) (Bank.get 0 m k) :=
  spadByte_setRuns l { State.reset with spad := m } k

/-- Stores in windows, one after another. -/
theorem storeGens_windows {ι : Type} (f : ι → Nat × List Byte) (key : ι → Nat) (e : Eng) (nt : Bool) (l : List ι) {s : State}
    (ht : s.here.sys.timed = false) (hw : ∀ i ∈ l, window s.cur.core s.here (f i).1 (f i).2.length = .ok (.spad (key i))) :
    (l.map f).foldl (fun s x => s.storeGen e none nt x.1 x.2) s =
      { s with spad := setRuns s.spad (l.map fun i => (key i, (f i).2)) } := by
  induction l generalizing s with
  | nil => rfl
  | cons i l ih =>
    rw [List.map_cons, List.foldl_cons, storeGen_window ht (hw i List.mem_cons_self)]
    exact ih (s := { s with spad := _ }) ht fun j hj => hw j (List.mem_cons_of_mem i hj)

/-- A store whose bytes lie in windows, and that the device does not tear, writes them in order and nothing else (R145, R163). -/
theorem storeAll_windows {s : State} (h : inOrder s .st) (hb : s.holdsBack 1 = false) {ι : Type} (f : ι → Nat × List Byte) (key : ι → Nat)
    (l : List ι) (hw : ∀ i ∈ l, window s.cur.core s.here (f i).1 (f i).2.length = .ok (.spad (key i))) (nt : Bool) :
    goesTo (s.storeAll .st nt (l.map f)) fun t => movesTo s t .st ((s.en .st).pc + 8) ∧ t.here.regs = s.here.regs ∧ t.here.sys = s.here.sys ∧
      t.rest = { s.rest with spad := t.spad } ∧
      t.spad = setRuns s.spad (l.map fun i => (key i, (f i).2)) := by
  have htear : s.tearStores .st none nt (l.map f) = ([], { s with spad := setRuns s.spad (l.map fun i => (key i, (f i).2)) }) := by
    unfold State.tearStores
    rw [hb, if_neg (by decide), storeGens_windows f key .st nt l h.1 hw]
  unfold State.storeAll
  rw [htear]
  generalize setRuns s.spad (l.map fun i => (key i, (f i).2)) = bank
  have honly : onlyCombines s { s with spad := bank } := ⟨rfl, sameButCombining_of_cores rfl⟩
  obtain ⟨t, ht, hmove, hregs, hsys, hrest⟩ := storedAll_ends honly
  have hspad : t.spad = bank := rest_spad hrest
  exact ⟨t, ht, hmove, hregs, hsys, by rw [hspad]; exact hrest, hspad⟩

end Sys2Proof.Machine
end

section
/-! PROOFS. Loads and stores of masks and accumulators (R145, R168). -/

namespace Sys2Proof.Machine

/-- A word goes to one state, which has each property that holds of where it goes. -/
theorem goesTo_and_forall {α : Type} {r : Res} {P : State → Prop} {W : α → Prop} {Q : α → State → Prop} (hp : goesTo r P)
    (hq : ∀ a, W a → goesTo r (Q a)) : goesTo r fun t => P t ∧ ∀ a, W a → Q a t := by
  obtain ⟨t, ht, hpt⟩ := hp
  refine ⟨t, ht, hpt, fun a ha => ?_⟩
  obtain ⟨u, hu, hqu⟩ := hq a ha
  cases ht.symm.trans hu
  exact hqu

/-! Bytes and elements (R1) -/

theorem extractLsb'_byte {n : Nat} (x : BitVec n) (j : Nat) : x.extractLsb' (8 * j) 8 = BitVec.ofNat 8 (x.toNat / 256 ^ j) := by
  apply BitVec.eq_of_toNat_eq
  rw [BitVec.extractLsb'_toNat, BitVec.toNat_ofNat, Nat.shiftRight_eq_div_pow, Nat.pow_mul]

theorem ofBytes_append (l r : List Byte) : ofBytes (l ++ r) = ofBytes l + 256 ^ l.length * ofBytes r := by
  induction l with
  | nil => rw [List.nil_append, ofBytes, List.length_nil, pow_zero, Nat.one_mul, Nat.zero_add]
  | cons b l ih => rw [List.cons_append, ofBytes, ofBytes, ih, List.length_cons, Nat.pow_succ]; ring

/-- The elements of a run of bytes. -/
theorem elemOf_ofBytes_getRun (b : List Host.Cell) (a : Nat) {n w c : Nat} (h : w * (c + 1) ≤ n) :
    elemOf (8 * w) (ofBytes (Bank.getRun 0 b a n)) c = ofBytes (Bank.getRun 0 b (a + w * c) w) := by
  obtain ⟨m, rfl⟩ : ∃ m, n = w * c + (w + m) := ⟨n - w * (c + 1), by rw [Nat.mul_succ] at h ⊢; omega⟩
  have hpow (k : Nat) : 256 ^ k = 2 ^ (8 * k) := by rw [Nat.pow_mul]
  have hlow := ofBytes_lt (Bank.getRun 0 b a (w * c))
  have helem := ofBytes_lt (Bank.getRun 0 b (a + w * c) w)
  rw [Bank.getRun_length, hpow] at hlow helem
  rw [Bank.getRun_add, Bank.getRun_add, ofBytes_append, ofBytes_append, Bank.getRun_length, Bank.getRun_length, hpow, hpow, elemOf,
    Nat.shiftRight_eq_div_pow, Nat.mul_assoc, Nat.add_mul_div_left _ _ (Nat.two_pow_pos _), Nat.div_eq_of_lt hlow, Nat.zero_add,
    Nat.add_mul_mod_self_left, Nat.mod_eq_of_lt helem]

/-- A run of bytes that are those of a number. -/
theorem ofBytes_getRun_eq {m : List Host.Cell} {a n y : Nat} (h : ∀ j, j < n → Bank.get 0 m (a + j) = BitVec.ofNat 8 (y / 256 ^ j)) :
    ofBytes (Bank.getRun 0 m a n) = y % 256 ^ n := by
  induction n generalizing a y with
  | zero => rw [pow_zero, Nat.mod_one]; rfl
  | succ n ih =>
    have hfirst := h 0 (Nat.succ_pos n)
    rw [Nat.add_zero, pow_zero, Nat.div_one] at hfirst
    have hrest := ih (a := a + 1) (y := y / 256) fun j hj => by
      rw [Nat.add_assoc, Nat.add_comm 1 j, h (j + 1) (Nat.succ_lt_succ hj), Nat.pow_succ', Nat.div_div_eq_div_mul]
    rw [Bank.getRun, ofBytes, hfirst, hrest, BitVec.toNat_ofNat, Nat.pow_succ' (m := 256), Nat.mod_mul]

/-! Which of several writes a byte shows -/

theorem foldl_ite_none {α β : Type} (P : α → Prop) [DecidablePred P] (v : α → β) {l : List α} (h : ∀ y ∈ l, ¬ P y) (b : β) :
    l.foldl (fun b y => if P y then v y else b) b = b :=
  List.foldlRecOn (motive := fun u => u = b) _ _ rfl fun u hu y hy => by rw [if_neg (h y hy), hu]

/-- Over the numbers below n, in ascending order, the greatest one that writes is seen. -/
theorem foldl_range_last {β : Type} (P : Nat → Prop) [DecidablePred P] (v : Nat → β) {n i : Nat} (hi : i < n) (hp : P i)
    (hlater : ∀ j, i < j → j < n → ¬ P j) (b : β) : (List.range n).foldl (fun b y => if P y then v y else b) b = v i := by
  obtain ⟨l₁, l₂, hl⟩ := List.append_of_mem (List.mem_range.mpr hi)
  have hsorted := List.pairwise_lt_range (n := n)
  rw [hl, List.pairwise_append, List.pairwise_cons] at hsorted
  obtain ⟨-, ⟨habove, -⟩, -⟩ := hsorted
  have hbelow (j : Nat) (hj : j ∈ l₂) : j < n := List.mem_range.mp (hl ▸ List.mem_append_right l₁ (List.mem_cons_of_mem i hj))
  rw [hl, List.foldl_append, List.foldl_cons, if_pos hp, foldl_ite_none P v fun j hj => hlater j (habove j hj) (hbelow j hj)]

/-! Masks -/

theorem execVldm_ok {s : State} (h : inOrder s .ld) {sa : SReg} {imm : BitVec 34}
    (hc : s.accessCheck .ld .read 32 [((s.sReg sa + BitVec.ofInt 64 imm.toInt).toNat, 32)] = none) (m : MaskNo) :
    exec (.vldm m sa imm) s = s.loadInto .ld (.m m.toNat) (ones 256) [(0, (s.sReg sa + BitVec.ofInt 64 imm.toInt).toNat, 32)] := by
  show execVldm m sa imm s = _
  unfold execVldm
  rw [rdS_inOrder h]
  exact afterChecks_ok hc _

theorem execVsm_ok {s : State} (h : inOrder s .st) {sa : SReg} {imm : BitVec 34}
    (hc : s.accessCheck .st .write 32 [((s.sReg sa + BitVec.ofInt 64 imm.toInt).toNat, 32)] = none) (m : MaskNo) :
    exec (.vsm m sa imm) s =
      s.storeAll .st false [((s.sReg sa + BitVec.ofInt 64 imm.toInt).toNat, toBytes 32 (s.mReg m.toNat).toNat)] := by
  show execVsm m sa imm s = _
  unfold execVsm
  rw [rdS_inOrder h, rdM_inOrder h]
  exact afterChecks_ok hc _

/-- A mask that is loaded whole holds the bytes at its address (R168). -/
theorem loadMask_whole {s : State} (h : inOrder s .ld) (hb : s.holdsBack 1 = false) (m va : Nat) :
    goesTo (s.loadInto .ld (.m m) (ones 256) [(0, va, 32)]) fun t => movesTo s t .ld ((s.en .ld).pc + 8) ∧ t.spad = s.spad ∧ t.hbm = s.hbm ∧
      writesM s t m (BitVec.ofNat 256 (ofBytes (s.load va 32).1)) := by
  have hcaches := sameButCaches_load s va 32
  have hruns : loadRuns [(0, va, 32)] s = (0 + ofBytes (s.load va 32).1 <<< (8 * 0), (s.load va 32).2) := rfl
  rw [loadInto_whole hb, hruns, Nat.zero_add, Nat.mul_zero, Nat.shiftLeft_zero]
  have hhere := here_sameButCaches hcaches
  obtain ⟨hstill, hregs, hvalue⟩ := wr_m_whole (inOrder_sameButCaches hcaches h) m (ofBytes (s.load va 32).1)
  have heng := eng_wr (s.load va 32).2 .ld (.m m) (ones 256) (ofBytes (s.load va 32).1)
  have hmem : (s.load va 32).2.spad = s.spad ∧ (s.load va 32).2.hbm = s.hbm := by rw [hcaches]; exact ⟨rfl, rfl⟩
  obtain ⟨t, ht, hmove, hrest, htstill, htregs⟩ := ends_moves (s := s) (e := .ld) (heng.trans (by rw [hhere]))
  refine ⟨t, ht, hmove, (rest_spad hrest).trans hmem.1, (rest_hbm hrest).trans hmem.2, htstill.trans (hstill.trans (by rw [hhere])),
    by rw [htregs, hregs, hhere], fun n => ?_⟩
  have hsame : (s.load va 32).2.mReg n = s.mReg n := by unfold State.mReg; rw [hhere]
  rw [← hsame, ← hvalue]
  unfold State.mReg
  rw [htregs]

/-- A mask that is stored whole in a window leaves its bytes there and no other (R168). -/
theorem storeMask_window {s : State} (h : inOrder s .st) (hb : s.holdsBack 1 = false) (x : Mask) {va key : Nat}
    (hw : window s.cur.core s.here va 32 = .ok (.spad key)) :
    goesTo (s.storeAll .st false [(va, toBytes 32 x.toNat)]) fun t => t.rest = { s.rest with spad := t.spad } ∧
      ∀ k, t.spadByte k = if key ≤ k ∧ k < key + 32 then x.extractLsb' (8 * (k - key)) 8 else s.spadByte k := by
  have hlen : (toBytes 32 x.toNat).length = 32 := length_toBytes _ _
  refine goesTo_imp (storeAll_windows h hb (fun _ : Unit => (va, toBytes 32 x.toNat)) (fun _ => key) [()] (fun _ _ => by rw [hlen]; exact hw) false)
    fun t ⟨_, _, _, hrest, hspad⟩ => ⟨hrest, fun k => ?_⟩
  unfold State.spadByte
  rw [hspad, get_setRuns]
  simp only [List.map_cons, List.map_nil, List.foldl_cons, List.foldl_nil, hlen]
  split
  · rw [getD_toBytes (by omega), extractLsb'_byte]
  · rfl

/-! Accumulators -/

/-- Row i of an accumulator access (R168). -/
def rowAddr (sa sb : Word) (i : Nat) : Nat := (sa + BitVec.ofInt 64 ((i : Int) * sb.toInt)).toNat

theorem tileRuns_eq (sa sb : Word) : tileRuns sa sb = (List.range 32).map fun i => (512 * i, rowAddr sa sb i, 512) := by
  unfold tileRuns tileAddrs
  rw [List.zipWith_map_right, List.zipWith_self]
  rfl

theorem accessesOf_tileRuns (sa sb : Word) : accessesOf (tileRuns sa sb) = (List.range 32).map fun i => (rowAddr sa sb i, 512) := by
  rw [tileRuns_eq, accessesOf, List.map_map]
  rfl

/-- The bytes that row i of an accumulator stores. -/
def rowBytes (x : Tile) (i : Nat) : List Byte := toBytes 512 (x.toNat >>> (8 * (512 * i)))

theorem getD_rowBytes (x : Tile) (i : Nat) {c j : Nat} (hc : c < 128) (hj : j < 4) :
    (rowBytes x i).getD (4 * c + j) 0 = BitVec.ofNat 8 (x.toNat >>> (32 * (128 * i + c)) / 256 ^ j) := by
  have hshift (y : Nat) : y / 256 ^ (4 * c + j) = y >>> (32 * c) / 256 ^ j := by
    rw [Nat.pow_add, ← Nat.div_div_eq_div_mul, Nat.shiftRight_eq_div_pow, Nat.pow_mul, Nat.pow_mul]
  rw [rowBytes, getD_toBytes (by omega), hshift, ← Nat.shiftRight_add, show 8 * (512 * i) + 32 * c = 32 * (128 * i + c) by ring]

theorem runBytes_tileRuns (sa sb : Word) (x : Tile) :
    runBytes x.toNat (tileRuns sa sb) = (List.range 32).map fun i => (rowAddr sa sb i, rowBytes x i) := by
  rw [tileRuns_eq, runBytes, List.map_map]
  rfl

theorem rdAcc_inOrder {s : State} {e : Eng} (h : inOrder s e) (a : Nat) : s.rdAcc e a = Bank.get 0 s.here.regs.acc a := by
  unfold State.rdAcc
  rw [readReg_inOrder _ _ h.2]
  simp [Core.regNat]

theorem execVlda_ok {s : State} (h : inOrder s .ld) {sa sb : SReg} (halign : (s.sReg sb).toNat % 4 = 0)
    (hc : s.accessCheck .ld .read 4 ((List.range 32).map fun i => (rowAddr (s.sReg sa) (s.sReg sb) i, 512)) = none) (acc : AccNo) :
    exec (.vlda acc sa sb) s = s.loadInto .ld (.acc acc.toNat) (ones 131072)
      ((List.range 32).map fun i => (512 * i, rowAddr (s.sReg sa) (s.sReg sb) i, 512)) := by
  show execVlda acc sa sb s = _
  unfold execVlda
  rw [rdS_inOrder h, rdS_inOrder h]
  dsimp only
  rw [if_pos halign, accessesOf_tileRuns, afterChecks_ok hc, tileRuns_eq]

theorem execVsa_ok {s : State} (h : inOrder s .st) {sa sb : SReg} (halign : (s.sReg sb).toNat % 4 = 0)
    (hc : s.accessCheck .st .write 4 ((List.range 32).map fun i => (rowAddr (s.sReg sa) (s.sReg sb) i, 512)) = none) (acc : AccNo) (nt : Bool) :
    exec (.vsa acc sa sb nt) s = s.storeAll .st nt
      ((List.range 32).map fun i => (rowAddr (s.sReg sa) (s.sReg sb) i, rowBytes (Bank.get 0 s.here.regs.acc acc.toNat) i)) := by
  show execVsa acc sa sb nt s = _
  unfold execVsa
  rw [rdS_inOrder h, rdS_inOrder h, rdAcc_inOrder h]
  dsimp only
  rw [if_pos halign, accessesOf_tileRuns, afterChecks_ok hc, runBytes_tileRuns]

theorem load_window {s : State} {va n key : Nat} (hw : window s.cur.core s.here va n = .ok (.spad key)) :
    s.load va n = (Bank.getRun 0 s.spad key n, s) := by
  have hw' : window s.cur.core (s.core s.cur.core) va n = .ok (.spad key) := hw
  unfold State.load readMem
  rw [hw']

/-- Rows of b bytes that lie in windows are read side by side, and nothing changes. -/
theorem loadRuns_rows {s : State} {b : Nat} (row key : Nat → Nat) (n a : Nat)
    (hw : ∀ i, i < a + n → window s.cur.core s.here (row i) b = .ok (.spad (key i))) :
    loadRuns ((List.range' a n).map fun i => (b * i, row i, b)) s =
      (packElems (8 * b) ((List.range' a n).map fun i => ofBytes (Bank.getRun 0 s.spad (key i) b)) <<< (8 * b * a), s) := by
  induction n generalizing a with
  | zero => rw [List.range'_zero, List.map_nil, List.map_nil, packElems, Nat.zero_shiftLeft]; rfl
  | succ n ih =>
    have hlt : ofBytes (Bank.getRun 0 s.spad (key a) b) < 2 ^ (8 * b) := ofBytes_lt_bits (by rw [Bank.getRun_length]; omega)
    rw [List.range'_succ, List.map_cons, List.map_cons, loadRuns, load_window (hw a (by omega)), packElems, Nat.mod_eq_of_lt hlt]
    dsimp only
    rw [ih (a + 1) fun i hi => hw i (by omega)]
    dsimp only
    simp only [Nat.shiftLeft_eq, Nat.mul_succ, Nat.pow_add, ← Nat.mul_assoc]
    congr 1
    ring

/-- Element (i, c) of an accumulator whose rows are elements of a number. -/
theorem tileElem_ofNat (x : Nat) {i c : Nat} (hi : i < 32) (hc : c < 128) :
    tileElem (BitVec.ofNat 131072 x) i c = elemOf 32 (elemOf 4096 x i) c := by
  unfold tileElem
  rw [elemOf_ofNat x (by omega)]
  exact (elemOf_elemOf (w := 32) (q := 128) x i hc).symm

/-- An accumulator that is loaded whole from windows holds the elements at its rows (R168). -/
theorem loadTile_whole {s : State} (h : inOrder s .ld) (hb : s.holdsBack 1 = false) (acc : Nat) (row key : Nat → Nat)
    (hw : ∀ i, i < 32 → window s.cur.core s.here (row i) 512 = .ok (.spad (key i))) :
    goesTo (s.loadInto .ld (.acc acc) (ones 131072) ((List.range 32).map fun i => (512 * i, row i, 512))) fun t =>
      finishes s t .ld ((s.en .ld).pc + 8) ∧ t.here.sys = s.here.sys ∧ { t.here.regs with acc := [] } = { s.here.regs with acc := [] } ∧
        (∀ n, n ≠ acc → Bank.get 0 t.here.regs.acc n = Bank.get 0 s.here.regs.acc n) ∧
        ∀ i c, i < 32 → c < 128 → tileElem (Bank.get 0 t.here.regs.acc acc) i c = ofBytes (Bank.getRun 0 s.spad (key i + 4 * c) 4) := by
  have hruns := loadRuns_rows (s := s) (b := 512) row key 32 0 fun i hi => hw i (by omega)
  rw [← List.range_eq_range', Nat.mul_zero, Nat.shiftLeft_zero] at hruns
  rw [loadInto_whole hb, hruns]
  generalize hx : packElems (8 * 512) _ = x
  obtain ⟨hstill, hregs, hvalue⟩ := wr_acc_whole h acc x
  have heng (f : Eng) : (s.wr .ld (.acc acc) (ones 131072) x).en f = s.en f := by unfold State.en Core.en; rw [eng_wr]
  obtain ⟨t, ht, hfin, htstill, htregs⟩ := finishes_done (s := s) (u := s.wr .ld (.acc acc) (ones 131072) x) (e := .ld) rfl
    (fun c hc => core_upd_other _ _ hc) heng
  refine ⟨t, ht, hfin, (congrArg Core.sys (htstill.trans hstill) :), by rw [htregs, hregs], fun n hn => ?_, fun i c hi hc => ?_⟩
  · rw [htregs, hvalue, if_neg hn]
  · have hrow : elemOf (8 * 512) x i = ofBytes (Bank.getRun 0 s.spad (key i) 512) % 2 ^ (8 * 512) := by
      rw [← hx, elemOf_packElems, getD_map_range _ _ hi]
    rw [htregs, hvalue, if_pos rfl, tileElem_ofNat x hi hc]
    change elemOf 32 (elemOf (8 * 512) x i) c = _
    rw [hrow, elemOf_mod _ (by omega)]
    exact elemOf_ofBytes_getRun (w := 4) s.spad (key i) (by omega)

/-- What rows of bytes leave of a scratchpad where a later row stays over an earlier one: bytes outside them as they were, and each element that no
later row touches (R168). -/
theorem setRuns_rows (m : List Host.Cell) (key : Nat → Nat) (x : Tile) :
    let t := setRuns m ((List.range 32).map fun i => (key i, rowBytes x i))
    (∀ k, (∀ i, i < 32 → k < key i ∨ key i + 512 ≤ k) → Bank.get 0 t k = Bank.get 0 m k) ∧
      ∀ i c, i < 32 → c < 128 → (∀ j, i < j → j < 32 → key j + 512 ≤ key i + 4 * c ∨ key i + 4 * c + 4 ≤ key j) →
        ofBytes (Bank.getRun 0 t (key i + 4 * c) 4) = tileElem x i c := by
  have hbyte (k : Nat) : Bank.get 0 (setRuns m ((List.range 32).map fun i => (key i, rowBytes x i))) k =
      (List.range 32).foldl (fun b i => if key i ≤ k ∧ k < key i + 512 then (rowBytes x i).getD (k - key i) 0 else b) (Bank.get 0 m k) := by
    rw [get_setRuns, List.foldl_map]
    simp only [rowBytes, length_toBytes]
  refine ⟨fun k hk => ?_, fun i c hi hc hlater => ?_⟩
  · rw [hbyte]
    exact foldl_ite_none _ _ (fun i hi => by have := hk i (List.mem_range.mp hi); omega) _
  · refine ofBytes_getRun_eq (n := 4) (y := x.toNat >>> (32 * (128 * i + c))) fun j hj => ?_
    rw [hbyte, foldl_range_last _ _ hi (by omega) (fun n hn hlt => by have := hlater n hn hlt; omega),
      show key i + 4 * c + j - key i = 4 * c + j by omega, getD_rowBytes x i hc hj]

/-- Settles O26: each word is one load or store of runs, whole or torn; a mask is one run, an accumulator 32. -/
theorem maskAndAccumulatorAccess : Obligations.MaskAndAccumulatorAccess := by
  intro s
  refine ⟨fun m sa imm => ⟨fun h hc => ?_, fun h hc => ?_⟩, fun acc sa sb nt key halign hw => ⟨fun h hc => ?_, fun h hc => ?_⟩⟩
  · rw [execVldm_ok h hc]
    split
    · exact loadInto_some h (fun _ _ => rfl) _ _
    · next hb => exact loadMask_whole h (Bool.eq_false_iff.mpr hb) _ _
  · rw [execVsm_ok h hc]
    split
    · exact goesTo_imp (storeAll_some h _ _) fun t ht => ht.1
    · next hb =>
      have hb := Bool.eq_false_iff.mpr hb
      obtain ⟨t, ht, ⟨⟨hregs, -⟩, hends⟩, hbytes⟩ := goesTo_and_forall (storeAll_some h false _) fun (key : Nat) hw =>
        storeMask_window h hb (s.mReg m.toNat) (key := key) hw
      exact ⟨t, ht, (hends hb).1, hregs, (hends hb).2, hbytes⟩
  · rw [execVlda_ok h halign hc]
    split
    · exact loadInto_some h (fun _ _ => rfl) _ _
    · next hb => exact loadTile_whole h (Bool.eq_false_iff.mpr hb) _ _ key hw
  · rw [execVsa_ok h halign hc]
    split
    · exact goesTo_imp (storeAll_some h _ _) fun t ht => ht.1
    · next hb =>
      obtain ⟨hframe, helems⟩ := setRuns_rows s.spad key (Bank.get 0 s.here.regs.acc acc.toNat)
      refine goesTo_imp (storeAll_windows h (Bool.eq_false_iff.mpr hb) _ key (List.range 32) (fun i hi => ?_) nt)
        fun t ⟨hmove, hregs, hsys, _, hspad⟩ => ⟨hmove, hregs, hsys, ?_⟩
      · rw [rowBytes, length_toBytes]
        exact hw i (List.mem_range.mp hi)
      · unfold State.spadByte
        rw [hspad]
        exact ⟨hframe, helems⟩

end Sys2Proof.Machine
end

section
/-! PROOFS. Stores of vector registers, strided and scattered (R145, R163 to R165). -/

namespace Sys2Proof.Machine

/-! The lanes of runs (R164) -/

/-- One lane more of a row joins the last run or begins one. -/
def runStep (p : Nat → Bool) (acc : List (Nat × Nat)) (j : Nat) : List (Nat × Nat) :=
  if p j then
    match acc with
    | (a, n) :: r => if a + n = j then (a, n + 1) :: r else (j, 1) :: acc
    | [] => [(j, 1)]
  else acc

theorem runsOf_eq (lanes : Mask) (i : Nat) :
    runsOf lanes i = ((List.range 32).foldl (runStep fun j => bit lanes (32 * i + j)) []).reverse := rfl

/-- The numbers that runs hold. -/
def runNumbers (l : List (Nat × Nat)) : List Nat := l.flatMap fun r => (List.range r.2).map fun j => r.1 + j

theorem runNumbers_concat (l : List (Nat × Nat)) (r : Nat × Nat) :
    runNumbers (l ++ [r]) = runNumbers l ++ (List.range r.2).map fun j => r.1 + j := by
  simp [runNumbers]

/-- The runs of the first n numbers hold those that meet the condition, and none is empty. -/
theorem runStep_spec (p : Nat → Bool) (n : Nat) :
    let l := (List.range n).foldl (runStep p) []
    runNumbers l.reverse = (List.range n).filter p ∧ ∀ r ∈ l, 0 < r.2 := by
  induction n with
  | zero => exact ⟨rfl, nofun⟩
  | succ n ih =>
    obtain ⟨hnumbers, hpos⟩ := ih
    rw [List.range_succ, List.foldl_concat, List.filter_append]
    dsimp only
    generalize (List.range n).foldl (runStep p) [] = acc at hnumbers hpos ⊢
    have hnew : runNumbers ((n, 1) :: acc).reverse = (List.range n).filter p ++ [n] := by
      rw [List.reverse_cons, runNumbers_concat, hnumbers]
      rfl
    unfold runStep
    by_cases hp : p n = true
    · rw [if_pos hp, List.filter_cons_of_pos hp, List.filter_nil]
      cases acc with
      | nil => exact ⟨hnew, List.forall_mem_singleton.mpr Nat.one_pos⟩
      | cons x r =>
        obtain ⟨a, m⟩ := x
        dsimp only
        split
        · next hjoin =>
          refine ⟨?_, List.forall_mem_cons.mpr ⟨Nat.succ_pos m, fun q hq => hpos q (List.mem_cons_of_mem _ hq)⟩⟩
          rw [List.reverse_cons, runNumbers_concat] at hnumbers ⊢
          rw [← hnumbers, List.range_succ, List.map_append, ← List.append_assoc, List.map_singleton, hjoin]
        · exact ⟨hnew, List.forall_mem_cons.mpr ⟨Nat.one_pos, hpos⟩⟩
    · rw [if_neg hp, List.filter_cons_of_neg hp, List.filter_nil, List.append_nil]
      exact ⟨hnumbers, hpos⟩

theorem mem_runNumbers {l : List (Nat × Nat)} {r : Nat × Nat} (hr : r ∈ l) {j : Nat} (hj : j < r.2) : r.1 + j ∈ runNumbers l :=
  List.mem_flatMap.mpr ⟨r, hr, List.mem_map.mpr ⟨j, List.mem_range.mpr hj, rfl⟩⟩

/-- The runs of a row hold its active lanes, in ascending order; none is empty, and none leaves the row. -/
theorem runsOf_spec (lanes : Mask) (i : Nat) : runNumbers (runsOf lanes i) = (List.range 32).filter (fun j => bit lanes (32 * i + j)) ∧
    ∀ r ∈ runsOf lanes i, 0 < r.2 ∧ r.1 + r.2 ≤ 32 := by
  obtain ⟨hnumbers, hpos⟩ := runStep_spec (fun j => bit lanes (32 * i + j)) 32
  rw [← runsOf_eq] at hnumbers
  refine ⟨hnumbers, fun r hr => ?_⟩
  have h0 : 0 < r.2 := hpos r (List.mem_reverse.mp hr)
  have hlast := mem_runNumbers hr (j := r.2 - 1) (by omega)
  rw [hnumbers, List.mem_filter, List.mem_range] at hlast
  omega

/-- The runs of active lanes of a register, as (first lane, lanes), row by row. -/
def laneRuns (lanes : Mask) : List (Nat × Nat) := (List.range 8).flatMap fun i => (runsOf lanes i).map fun r => (32 * i + r.1, r.2)

/-- The lanes of n rows, row by row. -/
theorem range_rows (n : Nat) : List.range (32 * n) = (List.range n).flatMap fun i => (List.range 32).map fun j => 32 * i + j := by
  induction n with
  | zero => rfl
  | succ n ih => rw [Nat.mul_succ, List.range_add, ih, List.range_succ (n := n), List.flatMap_append, List.flatMap_singleton]

/-- The runs of a register hold its active lanes, in ascending order. -/
theorem runNumbers_laneRuns (lanes : Mask) : runNumbers (laneRuns lanes) = (List.range 256).filter fun L => bit lanes L := by
  have hshift (k : Nat) (l : List (Nat × Nat)) : runNumbers (l.map fun r => (k + r.1, r.2)) = (runNumbers l).map fun j => k + j := by
    simp [runNumbers, List.flatMap_map, List.map_flatMap, Function.comp_def, Nat.add_assoc]
  have hrange : List.range 256 = (List.range 8).flatMap fun i => (List.range 32).map fun j => 32 * i + j := range_rows 8
  have hrows : runNumbers (laneRuns lanes) = (List.range 8).flatMap fun i => runNumbers ((runsOf lanes i).map fun r => (32 * i + r.1, r.2)) :=
    List.flatMap_assoc
  rw [hrows, hrange, List.filter_flatMap]
  refine congrArg (fun f => (List.range 8).flatMap f) (funext fun i => ?_)
  rw [hshift, (runsOf_spec lanes i).1, List.filter_map]
  rfl

theorem mem_laneRuns {lanes : Mask} {q : Nat × Nat} (hq : q ∈ laneRuns lanes) : 0 < q.2 ∧ q.1 % 32 + q.2 ≤ 32 := by
  obtain ⟨i, -, hq⟩ := List.mem_flatMap.mp hq
  obtain ⟨r, hr, rfl⟩ := List.mem_map.mp hq
  have hrow := (runsOf_spec lanes i).2 r hr
  dsimp only
  omega

/-- The address of a lane of a strided access (R164). -/
def laneAddr (sa sb : Word) (off : BitVec 13) (L : Nat) : Nat :=
  (sa + BitVec.ofInt 64 (128 * off.toInt + (L / 32 : Nat) * sb.toInt + (4 * (L % 32) : Nat))).toNat

theorem add_ofNat_toNat (x : Word) (n : Nat) : (x.toNat + n) % 2 ^ 64 = (x + BitVec.ofInt 64 (n : Int)).toNat := by
  rw [BitVec.ofInt_natCast, BitVec.toNat_add, BitVec.toNat_ofNat, Nat.add_mod_mod]

theorem rowAddrs_lane (sa sb : Word) (off : BitVec 13) {L : Nat} (hL : L < 256) :
    ((rowAddrs sa sb off).getD (L / 32) 0 + 4 * (L % 32)) % 2 ^ 64 = laneAddr sa sb off L := by
  unfold rowAddrs laneAddr addr
  dsimp only
  rw [getD_map_range _ _ (by omega), add_ofNat_toNat, BitVec.ofNat_toNat, BitVec.setWidth_eq, BitVec.ofInt_add, BitVec.ofInt_add, BitVec.add_assoc,
    BitVec.add_assoc, BitVec.add_assoc]

/-- The lanes of one row lie side by side. -/
theorem laneAddr_add (sa sb : Word) (off : BitVec 13) {L j : Nat} (h : L % 32 + j < 32) :
    laneAddr sa sb off (L + j) = (laneAddr sa sb off L + 4 * j) % 2 ^ 64 := by
  unfold laneAddr
  rw [add_ofNat_toNat, show (L + j) / 32 = L / 32 by omega, show 4 * ((L + j) % 32) = 4 * (L % 32) + 4 * j by omega, BitVec.add_assoc,
    ← BitVec.ofInt_add, Nat.cast_add, ← Int.add_assoc]

/-- The runs of a strided word, by the lanes they hold. -/
theorem stridedRuns_eq (sa sb : Word) (off : BitVec 13) (lanes : Mask) :
    stridedRuns (rowAddrs sa sb off) lanes = (laneRuns lanes).map fun q => (4 * q.1, laneAddr sa sb off q.1, 4 * q.2) := by
  unfold stridedRuns laneRuns
  rw [List.map_flatMap]
  refine List.flatMap_congr fun i hi => ?_
  rw [List.map_map]
  refine List.map_congr_left fun r hr => ?_
  have hrow := (runsOf_spec lanes i).2 r hr
  have hi := List.mem_range.mp hi
  have haddr := rowAddrs_lane sa sb off (L := 32 * i + r.1) (by omega)
  rw [show (32 * i + r.1) / 32 = i by omega, show (32 * i + r.1) % 32 = r.1 by omega] at haddr
  rw [haddr]
  refine Prod.ext ?_ rfl
  change 128 * i + 4 * r.1 = 4 * (32 * i + r.1)
  omega

/-! Runs in windows (R132) -/

/-- Where a window's bytes lie. -/
theorem window_spad_iff {c : Nat} {k : Core} {va n key : Nat} : window c k va n = .ok (.spad key) ↔
    (taskWindow ≤ va ∧ va < taskWindow + windowSize ∧ va - taskWindow + n ≤ k.tcb.pages * 65536 ∧
      key = clusterOf c * windowSize + k.winBase + (va - taskWindow)) ∨
    clusterWindow ≤ va ∧ va < clusterWindow + windowSize ∧ va - clusterWindow + n ≤ windowSize ∧
      key = clusterOf c * windowSize + (va - clusterWindow) := by
  unfold window taskWindow clusterWindow windowSize
  split
  · exact ⟨nofun, fun h => by omega⟩
  · split
    · split
      · simp only [Except.ok.injEq, Place.spad.injEq]
        omega
      · exact ⟨nofun, fun h => by omega⟩
    · split
      · split
        · simp only [Except.ok.injEq, Place.spad.injEq]
          omega
        · exact ⟨nofun, fun h => by omega⟩
      · exact ⟨nofun, fun h => by omega⟩

/-- Lanes side by side that each lie in a window lie in one window, side by side. -/
theorem window_run {c : Nat} {k : Core} {va n : Nat} {key : Nat → Nat} (h0 : 0 < n) (hn : n ≤ 32)
    (h : ∀ j, j < n → window c k ((va + 4 * j) % 2 ^ 64) 4 = .ok (.spad (key j))) (hva : va < 2 ^ 64) :
    window c k va (4 * n) = .ok (.spad (key 0)) ∧ ∀ j, j < n → key j = key 0 + 4 * j := by
  induction n with
  | zero => exact absurd h0 (Nat.lt_irrefl 0)
  | succ n ih =>
    rcases Nat.eq_zero_or_pos n with rfl | hpos
    · have hfirst := h 0 h0
      rw [Nat.mul_zero, Nat.add_zero, Nat.mod_eq_of_lt hva] at hfirst
      exact ⟨hfirst, fun j hj => by rw [Nat.lt_one_iff.mp hj]; rfl⟩
    · obtain ⟨hrun, hkeys⟩ := ih hpos (by omega) fun j hj => h j (by omega)
      have hlast := h n (Nat.lt_succ_self n)
      have hnext : window c k va (4 * (n + 1)) = .ok (.spad (key 0)) ∧ key n = key 0 + 4 * n := by
        rw [window_spad_iff] at hrun hlast ⊢
        unfold taskWindow clusterWindow windowSize at *
        omega
      refine ⟨hnext.1, fun j hj => ?_⟩
      rcases Nat.lt_succ_iff_lt_or_eq.mp hj with hj | rfl
      · exact hkeys j hj
      · exact hnext.2

/-! Runs are lanes one after another -/

theorem toBytes_add (a b x : Nat) : toBytes (a + b) x = toBytes a x ++ toBytes b (x / 256 ^ a) := by
  induction a generalizing x with
  | zero => rw [Nat.zero_add, pow_zero, Nat.div_one]; rfl
  | succ a ih => rw [Nat.succ_add, toBytes, toBytes, ih, List.cons_append, Nat.div_div_eq_div_mul, Nat.pow_succ']

theorem setRuns_append (m : List Host.Cell) (l r : List (Nat × List Byte)) : setRuns m (l ++ r) = setRuns (setRuns m l) r := List.foldl_append

/-- The low w bytes of lane L of a register that is given as a number. -/
def laneBytes (w x L : Nat) : List Byte := toBytes w (x >>> (32 * L))

/-- A run of lanes is its lanes one after another. -/
theorem setRun_lanes (m : List Host.Cell) (key x L n : Nat) :
    Bank.setRun 0 m key (toBytes (4 * n) (x >>> (32 * L))) = setRuns m ((List.range n).map fun j => (key + 4 * j, laneBytes 4 x (L + j))) := by
  induction n with
  | zero => rfl
  | succ n ih =>
    have hlast : x >>> (32 * L) / 256 ^ (4 * n) = x >>> (32 * (L + n)) := by
      rw [Nat.mul_add, Nat.shiftRight_add, Nat.shiftRight_eq_div_pow _ (32 * n), Nat.pow_mul, Nat.pow_mul]
    rw [Nat.mul_succ, toBytes_add, hlast, Bank.setRun_append, ih, length_toBytes, List.range_succ, List.map_append, setRuns_append]
    rfl

/-- Runs of lanes whose keys lie side by side are the lanes one after another. -/
theorem setRuns_laneRuns (m : List Host.Cell) (x : Nat) (key : Nat → Nat) {l : List (Nat × Nat)}
    (h : ∀ q ∈ l, ∀ j, j < q.2 → key (q.1 + j) = key q.1 + 4 * j) :
    setRuns m (l.map fun q => (key q.1, toBytes (4 * q.2) (x >>> (32 * q.1)))) =
      setRuns m ((runNumbers l).map fun L => (key L, laneBytes 4 x L)) := by
  induction l generalizing m with
  | nil => rfl
  | cons q l ih =>
    have hlanes : ((List.range q.2).map fun j => q.1 + j).map (fun L => (key L, laneBytes 4 x L)) =
        (List.range q.2).map fun j => (key q.1 + 4 * j, laneBytes 4 x (q.1 + j)) := by
      rw [List.map_map]
      exact List.map_congr_left fun j hj => by
        rw [Function.comp_apply, h q List.mem_cons_self j (List.mem_range.mp hj)]
    have hcons : runNumbers (q :: l) = (List.range q.2).map (fun j => q.1 + j) ++ runNumbers l := rfl
    rw [hcons, List.map_append, setRuns_append, hlanes, ← setRun_lanes, ← ih _ fun p hp => h p (List.mem_cons_of_mem q hp)]
    rfl

/-- Byte j of a lane. -/
theorem getD_laneBytes (s : State) (v L : Nat) {w j : Nat} (hj : j < w) (hw : w ≤ 4) :
    (laneBytes w (s.vReg v).toNat L).getD j 0 = (s.vLane v L).extractLsb' (8 * j) 8 := by
  have hcut : 2 ^ 32 = 256 ^ j * 256 ^ (4 - j) := by rw [← Nat.pow_add, Nat.add_sub_cancel' (by omega)]; rfl
  have hbyte : 256 ∣ 256 ^ (4 - j) := dvd_pow_self 256 (by omega)
  rw [laneBytes, getD_toBytes hj, extractLsb'_byte]
  apply BitVec.eq_of_toNat_eq
  rw [BitVec.toNat_ofNat, BitVec.toNat_ofNat, State.vLane, BitVec.extractLsb'_toNat, hcut, Nat.mod_mul_right_div_self, Nat.mod_mod_of_dvd _ hbyte]

/-- Where lanes of a register have been stored at keys, one after another, a byte is that of the last lane over it. -/
theorem spadByte_lanes {s t : State} {v w : Nat} {key : Nat → Nat} {lanes : List Nat} (hw : w ≤ 4)
    (h : t.spad = setRuns s.spad (lanes.map fun L => (key L, laneBytes w (s.vReg v).toNat L))) (k : Nat) : t.spadByte k =
      lanes.foldl (fun b L => if key L ≤ k ∧ k < key L + w then (s.vLane v L).extractLsb' (8 * (k - key L)) 8 else b) (s.spadByte k) := by
  have hlen (L : Nat) : (laneBytes w (s.vReg v).toNat L).length = w := length_toBytes _ _
  unfold State.spadByte
  rw [h, get_setRuns, List.foldl_map]
  refine congrArg (fun f => lanes.foldl f (Bank.get 0 s.spad k)) (funext fun b => funext fun L => ?_)
  dsimp only
  rw [hlen]
  split
  · exact getD_laneBytes s v L (by omega) hw
  · rfl

/-! The words -/

/-- The active lanes under a mask, in ascending order. -/
def activeLanes (lanes : Mask) : List Nat := (List.range 256).filter fun L => bit lanes L

section
variable {s : State} (h : inOrder s .st) {pm : MaskNo} {sa : SReg}
include h

/-- A strided store that passes its checks stores its runs of active lanes (R163, R164). -/
theorem execVst_ok {sb : SReg} {ty : Fmt} {off : BitVec 13}
    (hc : s.accessCheck .st .write (if rowsAligned (rowAddrs (s.sReg sa) (s.sReg sb) off) (s.active pm) (Fmt.width ty) then 1 else 0)
      (accessesOf (stridedRuns (rowAddrs (s.sReg sa) (s.sReg sb) off) (s.active pm))) = none) (v : VNo) (nt : Bool) :
    exec (.vst ⟨v, sa, sb, pm, ty, nt, off⟩) s = s.storeAll .st nt ((laneRuns (s.active pm)).map fun q =>
      (laneAddr (s.sReg sa) (s.sReg sb) off q.1, toBytes (4 * q.2) ((s.vReg v.toNat).toNat >>> (32 * q.1)))) := by
  have hbytes : runBytes (s.vReg v.toNat).toNat (stridedRuns (rowAddrs (s.sReg sa) (s.sReg sb) off) (s.active pm)) =
      (laneRuns (s.active pm)).map fun q =>
        (laneAddr (s.sReg sa) (s.sReg sb) off q.1, toBytes (4 * q.2) ((s.vReg v.toNat).toNat >>> (32 * q.1))) := by
    rw [stridedRuns_eq, runBytes, List.map_map]
    refine List.map_congr_left fun q _ => ?_
    rw [Function.comp_apply, ← Nat.mul_assoc]
  show execVst _ s = _
  unfold execVst
  dsimp only
  rw [rdS_inOrder h, rdS_inOrder h, pred_inOrder h, rdV_inOrder h, afterChecks_ok hc, hbytes]

omit h in
/-- A lane as an index (R165). -/
theorem signedOf_laneBits (v L : Nat) : signedOf 32 (laneBits (s.vReg v) L) = (s.vLane v L).toInt := by
  have hlane : laneBits (s.vReg v) L = (s.vLane v L).toNat := by rw [State.vLane, BitVec.extractLsb'_toNat]; rfl
  have hlt := (s.vLane v L).isLt
  rw [hlane, signedOf, BitVec.toInt_eq_toNat_cond, Nat.mod_eq_of_lt hlt]
  split <;> split <;> omega

/-- A scatter that passes its checks stores its active lanes (R163, R165). -/
theorem execVsc_ok {va : VNo} {ty : Fmt} {addrs : Nat → Nat}
    (ha : ∀ L, addrs L = (s.sReg sa + BitVec.ofInt 64 ((s.vLane va.toNat L).toInt * ((ty.bits / 8 : Nat) : Int))).toNat)
    (hc : s.accessCheck .st .write (ty.bits / 8) ((activeLanes (s.active pm)).map fun L => (addrs L, ty.bits / 8)) = none) (v : VNo) (nt : Bool) :
    exec (.vsc ⟨v, va, sa, pm, ty, nt⟩) s = s.storeAll .st nt
      ((activeLanes (s.active pm)).map fun L => (addrs L, laneBytes (ty.bits / 8) (s.vReg v.toNat).toNat L)) := by
  have hads : indexedAddrs (s.sReg sa) (s.vReg va.toNat) (s.active pm) (ty.bits / 8) = (activeLanes (s.active pm)).map fun L => (L, addrs L) :=
    List.map_congr_left fun L _ => by rw [signedOf_laneBits, ha]; rfl
  have hcheck : s.accessCheck .st .write (ty.bits / 8)
      (((activeLanes (s.active pm)).map fun L => (L, addrs L)).map fun a => (a.2, ty.bits / 8)) = none := by
    rw [List.map_map]
    exact hc
  have hbytes : runBytes (s.vReg v.toNat).toNat (((activeLanes (s.active pm)).map fun L => (L, addrs L)).map fun a => (4 * a.1, a.2, ty.bits / 8)) =
      (activeLanes (s.active pm)).map fun L => (addrs L, laneBytes (ty.bits / 8) (s.vReg v.toNat).toNat L) := by
    rw [runBytes, List.map_map, List.map_map]
    refine List.map_congr_left fun L _ => ?_
    rw [laneBytes, show 32 * L = 8 * (4 * L) by omega]
    rfl
  show execVsc _ s = _
  unfold execVsc Fmt.width
  dsimp only
  rw [rdS_inOrder h, rdV_inOrder h, rdV_inOrder h, pred_inOrder h, hads, afterChecks_ok hcheck, hbytes]

/-- A store of runs of lanes that lie in windows writes each active lane at its key, and nothing else (R164). -/
theorem storeRuns_window (hb : s.holdsBack 1 = false) {addrs key : Nat → Nat} (v : Nat) {lanes : Mask}
    (hside : ∀ L j, L % 32 + j < 32 → addrs (L + j) = (addrs L + 4 * j) % 2 ^ 64) (hlt : ∀ L, addrs L < 2 ^ 64)
    (hw : ∀ L ∈ activeLanes lanes, window s.cur.core s.here (addrs L) 4 = .ok (.spad (key L))) (nt : Bool) :
    goesTo (s.storeAll .st nt ((laneRuns lanes).map fun q => (addrs q.1, toBytes (4 * q.2) ((s.vReg v).toNat >>> (32 * q.1))))) fun t =>
      movesTo s t .st ((s.en .st).pc + 8) ∧ t.here.regs = s.here.regs ∧ t.here.sys = s.here.sys ∧ t.rest = { s.rest with spad := t.spad } ∧
        t.spad = setRuns s.spad ((activeLanes lanes).map fun L => (key L, laneBytes 4 (s.vReg v).toNat L)) := by
  have hrun (q : Nat × Nat) (hq : q ∈ laneRuns lanes) : window s.cur.core s.here (addrs q.1) (4 * q.2) = .ok (.spad (key q.1)) ∧
      ∀ j, j < q.2 → key (q.1 + j) = key q.1 + 4 * j := by
    obtain ⟨hpos, hrow⟩ := mem_laneRuns hq
    refine window_run (key := fun j => key (q.1 + j)) hpos (by omega) (fun j hj => ?_) (hlt q.1)
    rw [← hside q.1 j (by omega)]
    exact hw _ (by rw [activeLanes, ← runNumbers_laneRuns]; exact mem_runNumbers hq hj)
  have hkeys := setRuns_laneRuns s.spad (s.vReg v).toNat key fun q hq => (hrun q hq).2
  rw [runNumbers_laneRuns] at hkeys
  refine goesTo_imp (storeAll_windows h hb _ (fun q : Nat × Nat => key q.1) (laneRuns lanes) (fun q hq => ?_) nt)
    fun t ⟨hmove, hregs, hsys, hrest, hspad⟩ => ⟨hmove, hregs, hsys, hrest, hspad.trans hkeys⟩
  rw [length_toBytes]
  exact (hrun q hq).1

end

/-- Settles O27: a strided store is a store of runs of lanes, a scatter one of single lanes; either is whole or torn. -/
theorem vectorStores : Obligations.VectorStores := by
  intro s v pm h lanes stores
  refine ⟨fun sa sb ty nt off => ?_, fun va sa ty nt => ?_⟩
  · intro rows al hc
    rw [execVst_ok h hc]
    refine ⟨goesTo_imp (storeAll_some h _ _) fun t ⟨hsome, hends⟩ => ⟨hsome, fun hb => (hends hb).1⟩, fun key hb hwin => ?_⟩
    refine goesTo_imp (storeRuns_window h hb v.toNat (fun L j => laneAddr_add _ _ _) (fun L => BitVec.isLt _) hwin nt)
      fun t ⟨hmove, hregs, hsys, hrest, hspad⟩ => ⟨hmove, hregs, hsys, hrest, spadByte_lanes (Nat.le_refl 4) hspad⟩
  · intro w at_ hw4 hc
    rw [execVsc_ok h (fun _ => rfl) hc]
    refine ⟨goesTo_imp (storeAll_some h _ _) fun t ⟨hsome, hends⟩ => ⟨hsome, fun hb => (hends hb).1⟩, fun key hb hwin => ?_⟩
    refine goesTo_imp (storeAll_windows h hb _ key lanes (fun L hL => ?_) nt)
      fun t ⟨hmove, hregs, hsys, hrest, hspad⟩ => ⟨hmove, hregs, hsys, hrest, spadByte_lanes hw4 hspad⟩
    rw [laneBytes, length_toBytes]
    exact hwin L hL

end Sys2Proof.Machine
end

section
/-! PROOFS. Bytes and numbers of a scratchpad, and how waiting instructions of the sequencer begin and end (R1, R127, R132, R276). -/

namespace Sys2Proof.Machine

/-! Numbers in a scratchpad (R1) -/

theorem spadNat_lt (s : State) (a n : Nat) : s.spadNat a n < 256 ^ n := by
  simpa [State.spadNat] using ofBytes_lt (Bank.getRun 0 s.spad a n)

/-- A number depends on its own bytes alone. -/
theorem spadNat_congr {s t : State} {a n : Nat} (h : ∀ k, a ≤ k → k < a + n → t.spadByte k = s.spadByte k) : t.spadNat a n = s.spadNat a n := by
  unfold State.spadNat
  congr 1
  refine List.ext_getElem (by simp) fun i h1 h2 => ?_
  rw [Bank.getRun_length] at h1
  have hget (m : List Host.Cell) (hi : i < (Bank.getRun 0 m a n).length) : (Bank.getRun 0 m a n)[i] = Bank.get 0 m (a + i) := by
    rw [← getD_getRun 0 m a h1, List.getD_eq_getElem]
  rw [hget, hget]
  exact h (a + i) (Nat.le_add_right a i) (by omega)

theorem spadByte_setSpad (s : State) (key n v k : Nat) :
    (s.setSpad key n v).spadByte k = if key ≤ k ∧ k < key + n then BitVec.ofNat 8 (v / 256 ^ (k - key)) else s.spadByte k := by
  have h := spadByte_setRun s key (toBytes n v) k
  rw [length_toBytes] at h
  refine h.trans ?_
  split
  · next hk => rw [getD_toBytes (by omega)]
  · rfl

theorem spadByte_setSpad_outside (s : State) {key n k : Nat} (v : Nat) (h : k < key ∨ key + n ≤ k) : (s.setSpad key n v).spadByte k = s.spadByte k := by
  rw [spadByte_setSpad, if_neg (by omega)]

/-- What part of a number that is written reads as. -/
theorem spadNat_setSpad_part (s : State) {key o n m : Nat} (v : Nat) (h : o + n ≤ m) :
    (s.setSpad key m v).spadNat (key + o) n = v / 256 ^ o % 256 ^ n := by
  refine ofBytes_getRun_eq fun j hj => ?_
  have hb := spadByte_setSpad s key m v (key + o + j)
  rw [if_pos (by omega), show key + o + j - key = o + j by omega, pow_add, ← Nat.div_div_eq_div_mul] at hb
  exact hb

theorem spadNat_setSpad_same (s : State) (key n v : Nat) : (s.setSpad key n v).spadNat key n = v % 256 ^ n := by
  simpa using spadNat_setSpad_part s (key := key) (o := 0) v (Nat.le_of_eq (Nat.zero_add n))

theorem spadNat_setSpad_outside (s : State) {key m a n : Nat} (v : Nat) (h : a + n ≤ key ∨ key + m ≤ a) :
    (s.setSpad key m v).spadNat a n = s.spadNat a n :=
  spadNat_congr fun _ h1 h2 => spadByte_setSpad_outside s v (by omega)

/-- The low bytes of a number. -/
theorem spadNat_low (s : State) (a n m : Nat) : s.spadNat a n = s.spadNat a (n + m) % 256 ^ n := by
  unfold State.spadNat
  rw [Bank.getRun_add, ofBytes_append, Bank.getRun_length, Nat.add_mul_mod_self_left]
  exact (Nat.mod_eq_of_lt (spadNat_lt s a n)).symm

/-! Operands in a window (R383) -/

theorem windowOperand_ok {s : State} {va n align key : Nat} (h : s.windowOperand va n align = .ok key) :
    va % align = 0 ∧ window s.cur.core s.here va n = .ok (.spad key) := by
  unfold State.windowOperand at h
  split at h
  · cases h
  · split at h
    · cases h
    · next ha =>
      refine ⟨not_not.mp ha, ?_⟩
      split at h
      · next hw => rw [hw, Except.ok.inj h]
      · cases h
      · cases h

/-! A wait begins -/

/-- A word that waits changes nothing but its engine. -/
theorem await_waits (s : State) (e : Eng) (w : Wait) : goesTo (s.await e w) fun t =>
    t.rest = s.rest ∧ writesNone s t ∧ (t.en e).pc = (s.en e).pc ∧ (t.en e).wait = some w := by
  refine ⟨_, rfl, rfl, ?_, ?_, ?_⟩
  · exact (onlyEngine_onEn s e _).2.1
  · rw [en_upd, en_onEn, if_pos rfl]
    rfl
  · rw [en_upd, en_onEn, if_pos rfl]

/-! A wait ends (R127, R276) -/

/-- A waiting instruction that finishes passes its word, and the watchdog starts again. -/
theorem finishWait_finishes (u : State) (e : Eng) : goesTo (u.finishWait e) fun t =>
    finishes u t e ((u.en e).pc + 8) ∧ t.here.regs = u.here.regs ∧ t.here.sys = { u.here.sys with wdCount := 0 } := by
  obtain ⟨t, ht, hrest, hcores, hhere⟩ := finishWait_spec u e
  obtain ⟨hstill, hregs, -, hothers, o, hen⟩ := leave_spec u.here e ((u.en e).pc + 8) 0
  have hten (f : Eng) : t.en f = (u.here.leave e ((u.en e).pc + 8) 0).en f := by unfold State.en; rw [hhere]; rfl
  refine ⟨t, ht, ⟨hrest, hcores, fun f hf => (hten f).trans (hothers f hf), ?_⟩, ?_, ?_⟩
  · rw [hten, hen]
    exact ⟨rfl, rfl, rfl, rfl⟩
  · rw [hhere]
    exact hregs
  · rw [hhere]
    exact congrArg (fun y : Sys => { y with wdCount := 0 }) (of_still hstill).1

/-- Nothing differs but engine e, which stands at its word, and records of order. -/
def stands (s u : State) (e : Eng) : Prop :=
  onlyEngine s u e ∧ (u.en e).pc = (s.en e).pc ∧ (u.en e).lc = (s.en e).lc ∧ (u.en e).ctl = (s.en e).ctl

theorem stands_refl (s : State) (e : Eng) : stands s s e := ⟨onlyEngine_refl s e, rfl, rfl, rfl⟩

theorem stands_trans {s u t : State} {e : Eng} (h : stands s u e) (g : stands u t e) : stands s t e := by
  obtain ⟨h1, h2, h3, h4⟩ := h
  obtain ⟨g1, g2, g3, g4⟩ := g
  exact ⟨onlyEngine_trans h1 g1, g2.trans h2, g3.trans h3, g4.trans h4⟩

theorem stands_sameButOrder {s u : State} (h : sameButOrder s u) (e : Eng) : stands s u e := by
  obtain ⟨hrest, hb, fenced, loaded, hu⟩ := h
  have hen (f : Eng) : u.en f = s.en f := by unfold State.en; rw [hu]; rfl
  exact ⟨⟨hrest, ⟨by rw [hu]; rfl, by rw [hu]; rfl⟩, fun f _ => hen f⟩, by rw [hen], by rw [hen], by rw [hen]⟩

theorem sameButOrder_acquired (s : State) (key n : Nat) : sameButOrder s (s.acquired key n) := sameButOrder_observe s .clus (2 ^ 64 + key) n

theorem stands_joinObject (s : State) (key : Nat) : stands s (s.upd fun k => k.joinObject key) .sq := by
  obtain ⟨ids, hids⟩ : ∃ ids, s.here.joinObject key = s.here.onEn .sq fun x => { x with joined := (x.joined ++ ids).dedup } := ⟨_, rfl⟩
  rw [upd_congr (g := fun k => k.onEn .sq fun x => { x with joined := (x.joined ++ ids).dedup }) hids]
  refine ⟨onlyEngine_onEn s .sq _, ?_⟩
  rw [en_upd, en_onEn, if_pos rfl]
  exact ⟨rfl, rfl, rfl⟩

/-- A waiting instruction that reads its object joins what has completed there and acquires at cluster scope. -/
theorem stands_joined (s : State) (key n : Nat) : stands s ((s.upd fun k => k.joinObject key).acquired key n) .sq :=
  stands_trans (stands_joinObject s key) (stands_sameButOrder (sameButOrder_acquired _ key n) .sq)

/-- The end of a word whose engine stands at it. -/
theorem movesTo_of_stands {s u t : State} {e : Eng} (h : stands s u e) (ht : movesTo u t e ((u.en e).pc + 8)) :
    movesTo s t e ((s.en e).pc + 8) := by
  obtain ⟨⟨-, -, hf⟩, hpc, hlc, hctl⟩ := h
  obtain ⟨g1, g2, g3, g4, g5⟩ := ht
  exact ⟨fun f hn => (g1 f hn).trans (hf f hn), by rw [g2, hpc], g3, g4.trans hlc, g5.trans hctl⟩

/-- A word that has waited, or that waits for nothing, is past. -/
def pastWait (s t : State) : Prop :=
  t.rest = s.rest ∧ movesTo s t .sq ((s.en .sq).pc + 8) ∧ t.here.regs = s.here.regs ∧ t.here.sys = { s.here.sys with wdCount := 0 }

theorem finishWait_stands {s u : State} (h : stands s u .sq) : goesTo (u.finishWait .sq) (pastWait s) := by
  obtain ⟨t, ht, ⟨hrest, -, hmove⟩, hregs, hsys⟩ := finishWait_finishes u .sq
  obtain ⟨⟨urest, ⟨ustill, uregs⟩, -⟩, -⟩ := id h
  exact ⟨t, ht, hrest.trans urest, movesTo_of_stands h hmove, hregs.trans uregs, by rw [hsys, (of_still ustill).1]⟩

theorem done_stands {s u : State} (h : stands s u .sq) : goesTo (u.done .sq) fun t =>
    t.rest = s.rest ∧ movesTo s t .sq ((s.en .sq).pc + 8) ∧ writesNone s t := by
  obtain ⟨t, ht, ⟨hrest, -, hmove⟩, hnone⟩ := done_writesNone u .sq
  exact ⟨t, ht, hrest.trans h.1.1, movesTo_of_stands h hmove, writesNone_trans h.1.2.1 hnone⟩

end Sys2Proof.Machine
end

section
/-! PROOFS. Completion words and yields (R127, R189, R276). -/

namespace Sys2Proof.Machine

theorem execWaita_ok {s : State} (h : inOrder s .sq) {sa sb : SReg} {key : Nat} (hk : s.windowOperand (s.sReg sa).toNat 8 8 = .ok key) :
    exec (.waita sa sb) s = if s.spadNat key 8 = (s.sReg sb).toNat then ((s.upd fun k => k.joinObject key).acquired key 8).finishWait .sq
      else s.await .sq (.word (BitVec.ofNat 64 key) (s.sReg sb)) := by
  show execWaita sa sb s = _
  unfold execWaita
  rw [rdS_inOrder h, hk, rdS_inOrder h]
  rfl

theorem execWaitaSatisfied_ok {s : State} {k v : Word} (hw : (s.en .sq).wait = some (.word k v)) (hr : s.here.runs = true)
    (hv : s.spadNat k.toNat 8 = v.toNat) :
    exec .waitaSatisfied s = ((s.upd fun c => c.joinObject k.toNat).acquired k.toNat 8).finishWait .sq := by
  show execWaitaSatisfied s = _
  unfold execWaitaSatisfied
  simp only [hw, hr, hv, decide_true, Bool.and_self, if_true]

theorem execYieldEnd_ok {s : State} {left : Nat} (hw : (s.en .sq).wait = some (.yield left)) (hr : s.here.runs = true) :
    exec .yieldEnd s = s.finishWait .sq := by
  show execYieldEnd s = _
  unfold execYieldEnd
  simp only [hw, hr, if_true]

/-- Settles O23: both words wait as any word waits, and end as any waiting instruction ends. -/
theorem completionWords : Obligations.CompletionWords := by
  unfold Obligations.CompletionWords
  refine ⟨fun s => ⟨fun sa sb key hin hk => ?_, fun k v hw hr hv => ?_⟩, fun s => ⟨fun n => ?_, fun left hw hr => ?_⟩⟩
  · rw [execWaita_ok hin hk]
    split
    · exact goesTo_imp (finishWait_stands (stands_joined s key 8)) fun t ⟨hrest, hmove, hregs, hsys⟩ =>
        ⟨hrest, hregs, hmove.2.2.1, hmove.2.1, hsys⟩
    · exact await_waits s .sq _
  · rw [execWaitaSatisfied_ok hw hr hv]
    exact goesTo_imp (finishWait_stands (stands_joined s k.toNat 8)) fun t ⟨hrest, hmove, hregs, hsys⟩ =>
      ⟨hrest, hregs, hmove.2.2.1, hmove.2.1, hsys⟩
  · exact goesTo_imp (await_waits s .sq (.yield (max n.toNat 1))) fun t ⟨hrest, hnone, hpc, hwait⟩ => ⟨hwait, hpc, hrest, hnone⟩
  · rw [execYieldEnd_ok hw hr]
    exact finishWait_finishes s .sq

end Sys2Proof.Machine
end

section
/-! PROOFS. Phase barriers: their fields, their update and the words that compare their phase (R3, R186 to R188). -/

namespace Sys2Proof.Machine

/-! The update of a barrier (R188) -/

/-- Of the scratchpads only the counts of a barrier change: to those given, or, where nothing is left of either, to their initial ones with
the phase turned. -/
def countsTo (s t : State) (key arr x : Nat) : Prop :=
  (∀ k, k < key ∨ key + 16 ≤ k → t.spadByte k = s.spadByte k) ∧ t.spadNat (key + 6) 2 = s.spadNat (key + 6) 2 ∧
    t.spadNat (key + 8) 4 = s.spadNat (key + 8) 4 ∧
    if arr = 0 ∧ x = 0 then t.spadNat (key + 4) 2 = s.spadNat (key + 6) 2 ∧ t.spadNat key 4 = s.spadNat (key + 8) 4 ∧
      t.phaseAt key = !s.phaseAt key
    else t.spadNat (key + 4) 2 = arr ∧ t.spadNat key 4 = x ∧ t.phaseAt key = s.phaseAt key

/-- The phase is the low bit of a word whose other bits are reserved. -/
theorem phaseAt_eq (s : State) (key : Nat) : s.phaseAt key = (s.spadNat (key + 12) 4).testBit 0 := by
  unfold State.phaseAt
  rw [spadNat_low s (key + 12) 1 3, show 256 ^ 1 = 2 ^ 8 from rfl, Nat.testBit_mod_two_pow]
  exact Bool.true_and _

theorem phaseAt_congr {s t : State} {key : Nat} (h : t.spadNat (key + 12) 4 = s.spadNat (key + 12) 4) : t.phaseAt key = s.phaseAt key := by
  rw [phaseAt_eq, phaseAt_eq, h]

theorem barrierOk_iff {s : State} {key : Nat} : s.barrierOk key = true ↔ s.spadNat (key + 12) 4 < 2 := decide_eq_true_iff

/-- The two counts are written. -/
theorem countsTo_counts (s : State) (key : Nat) {arr x : Nat} (ha : arr < 256 ^ 2) (hx : x < 256 ^ 4) (hn : ¬ (arr = 0 ∧ x = 0)) :
    countsTo s ((s.setSpad (key + 4) 2 arr).setSpad key 4 x) key arr x := by
  refine ⟨fun k hk => ?_, ?_, ?_, ?_⟩
  · rw [spadByte_setSpad_outside _ _ (by omega), spadByte_setSpad_outside _ _ (by omega)]
  · rw [spadNat_setSpad_outside _ _ (by omega), spadNat_setSpad_outside _ _ (by omega)]
  · rw [spadNat_setSpad_outside _ _ (by omega), spadNat_setSpad_outside _ _ (by omega)]
  · rw [if_neg hn]
    refine ⟨?_, ?_, phaseAt_congr ?_⟩
    · rw [spadNat_setSpad_outside _ _ (by omega), spadNat_setSpad_same, Nat.mod_eq_of_lt ha]
    · rw [spadNat_setSpad_same, Nat.mod_eq_of_lt hx]
    · rw [spadNat_setSpad_outside _ _ (by omega), spadNat_setSpad_outside _ _ (by omega)]

/-- The phase turns, and the counts take their initial values. -/
theorem countsTo_turned (s : State) {key : Nat} (hok : s.barrierOk key = true) :
    countsTo s (((s.setSpad (key + 4) 2 (s.spadNat (key + 6) 2)).setSpad key 4 (s.spadNat (key + 8) 4)).setSpad (key + 12) 4
      (s.spadNat (key + 12) 4 ^^^ 1)) key 0 0 := by
  have hphase : s.spadNat (key + 12) 4 = 0 ∨ s.spadNat (key + 12) 4 = 1 := by have := barrierOk_iff.mp hok; omega
  refine ⟨fun k hk => ?_, ?_, ?_, ?_⟩
  · rw [spadByte_setSpad_outside _ _ (by omega), spadByte_setSpad_outside _ _ (by omega), spadByte_setSpad_outside _ _ (by omega)]
  · rw [spadNat_setSpad_outside _ _ (by omega), spadNat_setSpad_outside _ _ (by omega), spadNat_setSpad_outside _ _ (by omega)]
  · rw [spadNat_setSpad_outside _ _ (by omega), spadNat_setSpad_outside _ _ (by omega), spadNat_setSpad_outside _ _ (by omega)]
  · rw [if_pos ⟨rfl, rfl⟩]
    refine ⟨?_, ?_, ?_⟩
    · rw [spadNat_setSpad_outside _ _ (by omega), spadNat_setSpad_outside _ _ (by omega), spadNat_setSpad_same, Nat.mod_eq_of_lt (spadNat_lt s _ _)]
    · rw [spadNat_setSpad_outside _ _ (by omega), spadNat_setSpad_same, Nat.mod_eq_of_lt (spadNat_lt s _ _)]
    · rw [phaseAt_eq, phaseAt_eq, spadNat_setSpad_same]
      rcases hphase with h | h <;> rw [h] <;> rfl

/-- An update of a barrier that does not fault changes its counts and nothing else. -/
theorem barUpdate_counts {s : State} {key : Nat} (hok : s.barrierOk key = true) {arrive : Bool} (ha : arrive = true → s.spadNat (key + 4) 2 ≠ 0)
    (n : BitVec 32) : ∃ t, s.barUpdate key arrive n = .ok t ∧ t = { s with spad := t.spad } ∧
      countsTo s t key (if arrive then s.spadNat (key + 4) 2 - 1 else s.spadNat (key + 4) 2) ((s.spadNat key 4 + n.toNat) % 2 ^ 32) := by
  have hsum : (BitVec.ofNat 32 (s.spadNat key 4) + n).toNat = (s.spadNat key 4 + n.toNat) % 2 ^ 32 := by
    rw [BitVec.toNat_add, BitVec.toNat_ofNat, Nat.mod_add_mod]
  have harr : (if arrive then s.spadNat (key + 4) 2 - 1 else s.spadNat (key + 4) 2) < 256 ^ 2 := by
    have := spadNat_lt s (key + 4) 2
    split <;> omega
  have hfault : (arrive && decide (s.spadNat (key + 4) 2 = 0)) = false := by
    cases arrive with
    | false => rfl
    | true => simpa using ha rfl
  unfold State.barUpdate
  simp only [hok, Bool.not_true, Bool.false_eq_true, if_false, hfault, hsum]
  generalize (if arrive then s.spadNat (key + 4) 2 - 1 else s.spadNat (key + 4) 2) = arr at harr ⊢
  split
  · next h0 =>
    rw [h0.1, h0.2]
    exact ⟨_, rfl, rfl, countsTo_turned s hok⟩
  · next h0 => exact ⟨_, rfl, rfl, countsTo_counts s key harr (Nat.mod_lt _ (by decide)) h0⟩

/-! Words that change bytes of the scratchpads and a scalar register -/

/-- A word that has changed scratchpad bytes ends. -/
theorem done_spad {s u : State} (hu : u = { s with spad := u.spad }) : goesTo (u.done .sq) fun t =>
    (movesTo s t .sq ((s.en .sq).pc + 8) ∧ t.rest = { s.rest with spad := t.spad }) ∧ writesNone s t ∧ t.spad = u.spad := by
  obtain ⟨t, ht, hmove, hrest, hstill, hregs⟩ := done_moves (s := s) (u := u) (by rw [hu]; rfl)
  have hspad : t.spad = u.spad := rest_spad hrest
  refine ⟨t, ht, ⟨hmove, ?_⟩, ⟨hstill.trans (by rw [hu]; rfl), hregs.trans (by rw [hu]; rfl)⟩, hspad⟩
  rw [hrest, hspad, hu]
  rfl

/-- A word that has changed scratchpad bytes ends with a result in a scalar register. -/
theorem done_wrS_spad {s u : State} (h : inOrder s .sq) (hu : u = { s with spad := u.spad }) (sd : SReg) (x : Word) :
    goesTo ((u.wrS .sq sd x).done .sq) fun t =>
      (movesTo s t .sq ((s.en .sq).pc + 8) ∧ t.rest = { s.rest with spad := t.spad }) ∧ writesS s t sd x ∧ t.spad = u.spad := by
  have hin : inOrder u .sq := by rw [hu]; exact h
  obtain ⟨wrest, wcore, wen, wwrites⟩ := wrS_inOrder hin sd x
  obtain ⟨t, ht, ⟨hrest, -, hmove⟩, hstill, hregs⟩ := finishes_done (e := .sq) wrest wcore wen
  have hen (f : Eng) : u.en f = s.en f := by rw [hu]; rfl
  have hspad : t.spad = u.spad := rest_spad hrest
  refine ⟨t, ht, ⟨?_, ?_⟩, ?_, hspad⟩
  · unfold movesTo at hmove ⊢
    simpa only [hen] using hmove
  · rw [hrest, hspad, hu]
    rfl
  · have hw := writesS_congr hstill hregs wwrites
    rw [hu] at hw
    exact hw

theorem countsTo_congr {s t u : State} {key arr x : Nat} (h : countsTo s u key arr x) (ht : t.spad = u.spad) : countsTo s t key arr x := by
  unfold countsTo State.phaseAt State.spadNat State.spadByte at h ⊢
  rw [ht]
  exact h

/-! The words (R187) -/

section
variable {s : State} (h : inOrder s .sq) {sa sb : SReg} {key : Nat}
include h

theorem barrierOf_ok (hk : s.windowOperand (s.sReg sa).toNat 16 16 = .ok key) :
    s.barrierOf sa = if s.barrierOk key then .ok key else .error .illegal := by
  unfold State.barrierOf
  rw [rdS_inOrder h, hk]

/-- A word that counts on a barrier ends with the counts changed, the phase from before in sd. -/
theorem updateBarrier_counts (hok : s.barrierOk key = true) {arrive : Bool} (ha : arrive = true → s.spadNat (key + 4) 2 ≠ 0) (sd : SReg) :
    ∃ u, s.updateBarrier key arrive ((s.sReg sb).setWidth 32) sd = (u.wrS .sq sd (if s.phaseAt key then 1 else 0)).done .sq ∧
      u = { s with spad := u.spad } ∧ countsTo s u key (if arrive then s.spadNat (key + 4) 2 - 1 else s.spadNat (key + 4) 2)
        ((s.spadNat key 4 + (s.sReg sb).toNat) % 2 ^ 32) := by
  obtain ⟨u, hu, hspad, hcounts⟩ := barUpdate_counts hok ha ((s.sReg sb).setWidth 32)
  rw [BitVec.toNat_setWidth, Nat.add_mod_mod] at hcounts
  refine ⟨u, ?_, hspad, hcounts⟩
  have hbank : s.atBank key (.bar arrive) ((s.sReg sb).setWidth 32 : BitVec 32).toNat sd = .ok (u.wrS .sq sd (if s.phaseAt key then 1 else 0)) := by
    unfold State.atBank State.bankOp
    simp only [h.1, Bool.false_eq_true, if_false, BitVec.ofNat_toNat, BitVec.setWidth_eq, hu]
    split <;> rfl
  unfold State.updateBarrier
  rw [hbank]
  rfl

theorem execBarinit_ok (sc : SReg) (hk : s.windowOperand (s.sReg sa).toNat 16 16 = .ok key) :
    exec (.barinit sa sb sc) s = (s.setSpad key 16 (slice (s.sReg sc) 31 0 + slice (s.sReg sb) 15 0 * 2 ^ 32 + slice (s.sReg sb) 15 0 * 2 ^ 48 +
      slice (s.sReg sc) 31 0 * 2 ^ 64)).done .sq := by
  show execBarinit sa sb sc s = _
  unfold execBarinit State.putSpad
  rw [rdS_inOrder h, hk, rdS_inOrder h, rdS_inOrder h, h.1]
  rfl

theorem execBarwait_ok (hk : s.windowOperand (s.sReg sa).toNat 16 16 = .ok key) (hok : s.barrierOk key = true) :
    exec (.barwait sa sb) s = if s.phaseAt key ≠ bit (s.sReg sb) 0 then ((s.upd fun k => k.joinObject key).acquired key 16).finishWait .sq
      else s.await .sq (.barrier (BitVec.ofNat 64 key) (bit (s.sReg sb) 0)) := by
  show execBarwait sa sb s = _
  unfold execBarwait
  rw [barrierOf_ok h hk, hok, rdS_inOrder h]
  rfl

theorem execBartry_ok (hk : s.windowOperand (s.sReg sa).toNat 16 16 = .ok key) (hok : s.barrierOk key = true) (sd : SReg) :
    exec (.bartry sd sa sb) s = if s.phaseAt key ≠ bit (s.sReg sb) 0 then (((s.wrS .sq sd 1).upd fun k => k.joinObject key).acquired key 16).done .sq
      else (s.wrS .sq sd 0).done .sq := by
  show execBartry sd sa sb s = _
  unfold execBartry
  rw [barrierOf_ok h hk, hok, rdS_inOrder h]
  rfl

end

/-- A barrier with a reserved bit set is ILLEGAL to each word that uses it (R3). -/
theorem barrierWords_illegal {s : State} (h : inOrder s .sq) {sa : SReg} {key : Nat} (hk : s.windowOperand (s.sReg sa).toNat 16 16 = .ok key)
    (hbad : s.barrierOk key = false) (sd sb : SReg) {i : Instr} (hi : i ∈ [Instr.barexp sa sb, .barar sd sa sb, .bartry sd sa sb, .barwait sa sb]) :
    exec i s = s.trap .sq .illegal := by
  have hof : s.barrierOf sa = .error .illegal := by rw [barrierOf_ok h hk, hbad]; rfl
  have htrap (k : Nat → Res) : orTrap s .sq (s.barrierOf sa) k = s.trap .sq .illegal := by rw [hof]; rfl
  simp only [List.mem_cons, List.not_mem_nil, or_false] at hi
  rcases hi with rfl | rfl | rfl | rfl
  all_goals exact htrap _

/-- The fields of a barrier that barinit has set. -/
theorem barinit_fields (s : State) (key : Nat) {b c : Nat} (hb : b < 2 ^ 16) (hc : c < 2 ^ 32) :
    let t := s.setSpad key 16 (c + b * 2 ^ 32 + b * 2 ^ 48 + c * 2 ^ 64)
    t.spadNat key 4 = c ∧ t.spadNat (key + 4) 2 = b ∧ t.spadNat (key + 6) 2 = b ∧ t.spadNat (key + 8) 4 = c ∧ t.spadNat (key + 12) 4 = 0 := by
  have h4 : (c + b * 2 ^ 32 + b * 2 ^ 48 + c * 2 ^ 64) / 256 ^ 4 = b + b * 2 ^ 16 + c * 2 ^ 32 := by omega
  have h6 : (c + b * 2 ^ 32 + b * 2 ^ 48 + c * 2 ^ 64) / 256 ^ 6 = b + c * 2 ^ 16 := by omega
  have h8 : (c + b * 2 ^ 32 + b * 2 ^ 48 + c * 2 ^ 64) / 256 ^ 8 = c := by omega
  have h12 : (c + b * 2 ^ 32 + b * 2 ^ 48 + c * 2 ^ 64) / 256 ^ 12 = 0 := by omega
  refine ⟨?_, ?_, ?_, ?_, ?_⟩
  · refine (spadNat_setSpad_part s (o := 0) _ (by decide)).trans ?_
    omega
  · rw [spadNat_setSpad_part _ _ (by decide), h4]
    omega
  · rw [spadNat_setSpad_part _ _ (by decide), h6]
    omega
  · rw [spadNat_setSpad_part _ _ (by decide), h8]
    omega
  · rw [spadNat_setSpad_part _ _ (by decide), h12, Nat.zero_mod]

theorem barinit_spec {s : State} (h : inOrder s .sq) {sa : SReg} {key : Nat} (hk : s.windowOperand (s.sReg sa).toNat 16 16 = .ok key)
    (sb sc : SReg) : goesTo (exec (.barinit sa sb sc) s) fun t =>
      (movesTo s t .sq ((s.en .sq).pc + 8) ∧ t.rest = { s.rest with spad := t.spad }) ∧ writesNone s t ∧
        t.spadNat key 4 = slice (s.sReg sc) 31 0 ∧ t.spadNat (key + 4) 2 = slice (s.sReg sb) 15 0 ∧
        t.spadNat (key + 6) 2 = slice (s.sReg sb) 15 0 ∧ t.spadNat (key + 8) 4 = slice (s.sReg sc) 31 0 ∧ t.spadNat (key + 12) 4 = 0 := by
  have hfields := barinit_fields s key (b := slice (s.sReg sb) 15 0) (c := slice (s.sReg sc) 31 0) (Nat.mod_lt _ (by decide)) (Nat.mod_lt _ (by decide))
  rw [execBarinit_ok h sc hk]
  refine goesTo_imp (done_spad (s := s) rfl) fun t ⟨hpast, hnone, hspad⟩ => ⟨hpast, hnone, ?_⟩
  unfold State.spadNat at hfields ⊢
  rw [hspad]
  exact hfields

theorem bartry_spec {s : State} (h : inOrder s .sq) {sa : SReg} {key : Nat} (hk : s.windowOperand (s.sReg sa).toNat 16 16 = .ok key)
    (hok : s.barrierOk key = true) (sd sb : SReg) : goesTo (exec (.bartry sd sa sb) s) fun t =>
      t.rest = s.rest ∧ (t.en .sq).pc = (s.en .sq).pc + 8 ∧
        writesS s t sd (if decide (s.phaseAt key ≠ bit (s.sReg sb) 0) then 1 else 0) := by
  rw [execBartry_ok h hk hok]
  obtain ⟨wrest, -, wen, wwrites⟩ := wrS_inOrder h sd (if decide (s.phaseAt key ≠ bit (s.sReg sb) 0) then 1 else 0)
  by_cases hp : s.phaseAt key ≠ bit (s.sReg sb) 0
  · rw [if_pos hp]
    rw [decide_eq_true hp, if_pos rfl] at wrest wen wwrites ⊢
    refine goesTo_imp (done_stands (stands_joined (s.wrS .sq sd 1) key 16)) fun t ⟨hrest, hmove, hnone⟩ => ?_
    exact ⟨hrest.trans wrest, by rw [hmove.2.1, wen], writesS_of_writesNone wwrites hnone⟩
  · rw [if_neg hp]
    rw [decide_eq_false hp, if_neg Bool.false_ne_true] at wrest wen wwrites ⊢
    refine goesTo_imp (done_stands (stands_refl (s.wrS .sq sd 0) .sq)) fun t ⟨hrest, hmove, hnone⟩ => ?_
    exact ⟨hrest.trans wrest, by rw [hmove.2.1, wen], writesS_of_writesNone wwrites hnone⟩

theorem barexp_spec {s : State} (h : inOrder s .sq) {sa : SReg} {key : Nat} (hk : s.windowOperand (s.sReg sa).toNat 16 16 = .ok key)
    (hok : s.barrierOk key = true) (sb : SReg) : goesTo (exec (.barexp sa sb) s) fun t =>
      (movesTo s t .sq ((s.en .sq).pc + 8) ∧ t.rest = { s.rest with spad := t.spad }) ∧ writesNone s t ∧
        countsTo s t key (s.spadNat (key + 4) 2) ((s.spadNat key 4 + (s.sReg sb).toNat) % 2 ^ 32) := by
  have hexec : exec (.barexp sa sb) s = s.updateBarrier key false ((s.sReg sb).setWidth 32) 0 := by
    show execBarexp sa sb s = _
    unfold execBarexp
    rw [barrierOf_ok h hk, hok, rdS_inOrder h]
    rfl
  obtain ⟨u, hu, hspad, hcounts⟩ := updateBarrier_counts h (sb := sb) hok (arrive := false) (fun hf => absurd hf Bool.false_ne_true) 0
  rw [hexec, hu, State.wrS, if_pos rfl]
  exact goesTo_imp (done_spad hspad) fun t ⟨hpast, hnone, ht⟩ => ⟨hpast, hnone, countsTo_congr hcounts ht⟩

theorem barar_spec {s : State} (h : inOrder s .sq) {sa : SReg} {key : Nat} (hk : s.windowOperand (s.sReg sa).toNat 16 16 = .ok key)
    (hok : s.barrierOk key = true) (ha : s.spadNat (key + 4) 2 ≠ 0) (sd sb : SReg) : goesTo (exec (.barar sd sa sb) s) fun t =>
      (movesTo s t .sq ((s.en .sq).pc + 8) ∧ t.rest = { s.rest with spad := t.spad }) ∧ writesS s t sd (if s.phaseAt key then 1 else 0) ∧
        countsTo s t key (s.spadNat (key + 4) 2 - 1) ((s.spadNat key 4 + (s.sReg sb).toNat) % 2 ^ 32) := by
  have hexec : exec (.barar sd sa sb) s = s.updateBarrier key true ((s.sReg sb).setWidth 32) sd := by
    show execBarar sd sa sb s = _
    unfold execBarar
    rw [barrierOf_ok h hk, hok, rdS_inOrder h]
    rfl
  obtain ⟨u, hu, hspad, hcounts⟩ := updateBarrier_counts h (sb := sb) hok (arrive := true) (fun _ => ha) sd
  rw [hexec, hu]
  exact goesTo_imp (done_wrS_spad h hspad sd _) fun t ⟨hpast, hwrites, ht⟩ => ⟨hpast, hwrites, countsTo_congr hcounts ht⟩

theorem barwait_spec {s : State} (h : inOrder s .sq) {sa : SReg} {key : Nat} (hk : s.windowOperand (s.sReg sa).toNat 16 16 = .ok key)
    (hok : s.barrierOk key = true) (sb : SReg) : goesTo (exec (.barwait sa sb) s) fun t => t.rest = s.rest ∧ t.here.regs = s.here.regs ∧
      if decide (s.phaseAt key ≠ bit (s.sReg sb) 0) then
        (t.en .sq).pc = (s.en .sq).pc + 8 ∧ (t.en .sq).wait = none ∧ t.here.sys = { s.here.sys with wdCount := 0 }
      else (t.en .sq).pc = (s.en .sq).pc ∧ (t.en .sq).wait = some (.barrier (BitVec.ofNat 64 key) (bit (s.sReg sb) 0)) := by
  rw [execBarwait_ok h hk hok]
  by_cases hp : s.phaseAt key ≠ bit (s.sReg sb) 0
  · rw [if_pos hp, decide_eq_true hp]
    exact goesTo_imp (finishWait_stands (stands_joined s key 16)) fun t ⟨hrest, hmove, hregs, hsys⟩ =>
      ⟨hrest, hregs, hmove.2.1, hmove.2.2.1, hsys⟩
  · rw [if_neg hp, decide_eq_false hp]
    exact goesTo_imp (await_waits s .sq _) fun t ⟨hrest, hnone, hpc, hwait⟩ => ⟨hrest, hnone.2, hpc, hwait⟩

theorem execBarwaitSatisfied_ok {s : State} {k : Word} {p : Bool} (hw : (s.en .sq).wait = some (.barrier k p)) (hr : s.here.runs = true)
    (hp : s.phaseAt k.toNat ≠ p) : exec .barwaitSatisfied s = ((s.upd fun c => c.joinObject k.toNat).acquired k.toNat 16).finishWait .sq := by
  show execBarwaitSatisfied s = _
  unfold execBarwaitSatisfied
  simp only [hw, hr, decide_eq_true hp, Bool.and_self, if_true]

/-- Settles O22: the words that count share one update, those that compare share the end of a wait. -/
theorem phaseBarriers : Obligations.PhaseBarriers := by
  unfold Obligations.PhaseBarriers
  intro s sd sa sb sc key hin
  refine ⟨fun hk => barinit_spec hin hk sb sc, fun hk hbad hp hv hf hr i hi => ?_, fun hk hok =>
    ⟨barexp_spec hin hk hok sb, fun ha => barar_spec hin hk hok ha sd sb, bartry_spec hin hk hok sd sb, barwait_spec hin hk hok sb⟩,
    fun k p hw hr hp => ?_⟩
  · rw [barrierWords_illegal hin hk hbad sd sb hi]
    exact trap_entersHandler .sq .illegal 0 false hp hv hr hf
  · rw [execBarwaitSatisfied_ok hw hr hp]
    exact goesTo_imp (finishWait_stands (stands_joined s k.toNat 16)) fun t ⟨hrest, hmove, hregs, hsys⟩ =>
      ⟨hrest, hregs, hmove.2.2.1, hmove.2.1, hsys⟩

end Sys2Proof.Machine
end

section
/-! PROOFS. Scratch rings: publishing in ticket order, the counters in a scratchpad, and the words of R190 and R191. -/

namespace Sys2Proof.Machine

/-! Publishing (R191) -/

/-- How many slots in ticket order are filled, of n. -/
def filledRun (n : Nat) (filled : BitVec 32) : Nat := ((List.range n).find? fun i => !filled.getLsbD i).getD n

theorem filledRun_succ (n : Nat) (filled : BitVec 32) :
    filledRun (n + 1) filled = if filled.getLsbD 0 then 1 + filledRun n (filled >>> 1) else 0 := by
  unfold filledRun
  rw [List.range_succ_eq_map, List.find?_cons, List.find?_map]
  cases h : filled.getLsbD 0 with
  | false => rfl
  | true =>
    have hshift : ((fun i => !filled.getLsbD i) ∘ Nat.succ) = fun i => !(filled >>> 1).getLsbD i := by
      funext i
      rw [Function.comp_apply, BitVec.getLsbD_ushiftRight, Nat.add_comm 1 i]
    rw [hshift]
    simp only [Bool.not_true, if_true]
    cases (List.range n).find? fun i => !(filled >>> 1).getLsbD i with
    | none => exact Nat.add_comm n 1
    | some v => exact Nat.add_comm v 1

/-- Publishing takes every slot filled without a gap. -/
theorem publish_eq (n : Nat) (r : Ring) :
    publish n r = { r with tail := r.tail + BitVec.ofNat 32 (filledRun n r.filled), filled := r.filled >>> filledRun n r.filled } := by
  induction n generalizing r with
  | zero => simp [publish, filledRun]
  | succ n ih =>
    have hbit : bit r.filled 0 = r.filled.getLsbD 0 := rfl
    rw [publish, filledRun_succ, hbit]
    cases r.filled.getLsbD 0 with
    | false => simp
    | true =>
      rw [if_pos rfl, if_pos rfl, ih, BitVec.shiftRight_add, BitVec.ofNat_add, ← BitVec.add_assoc]
      rfl

/-! The counters of a ring in a scratchpad (R190) -/

/-- Of the scratchpads only the counters of a ring change, to those of r. -/
def ringTo (s t : State) (key : Nat) (r : Ring) : Prop :=
  t.ringAt key = some r ∧ ∀ k, k < key + 16 ∨ key + 32 ≤ k → t.spadByte k = s.spadByte k

theorem ringTo_congr {s t u : State} {key : Nat} {r : Ring} (h : ringTo s u key r) (ht : t.spad = u.spad) : ringTo s t key r := by
  unfold ringTo State.ringAt State.spadNat State.spadByte at h ⊢
  rw [ht]
  exact h

/-- The four counters are the four words of the number that holds them. -/
theorem counters_parts {a b c d : Nat} (ha : a < 2 ^ 32) (hb : b < 2 ^ 32) (hc : c < 2 ^ 32) (hd : d < 2 ^ 32) :
    let v := a + b * 2 ^ 32 + c * 2 ^ 64 + d * 2 ^ 96
    v / 256 ^ 0 % 256 ^ 4 = a ∧ v / 256 ^ 4 % 256 ^ 4 = b ∧ v / 256 ^ 8 % 256 ^ 4 = c ∧ v / 256 ^ 12 % 256 ^ 4 = d := by
  have h4 : (a + b * 2 ^ 32 + c * 2 ^ 64 + d * 2 ^ 96) / 256 ^ 4 = b + c * 2 ^ 32 + d * 2 ^ 64 := by omega
  have h8 : (a + b * 2 ^ 32 + c * 2 ^ 64 + d * 2 ^ 96) / 256 ^ 8 = c + d * 2 ^ 32 := by omega
  have h12 : (a + b * 2 ^ 32 + c * 2 ^ 64 + d * 2 ^ 96) / 256 ^ 12 = d := by omega
  refine ⟨by omega, ?_, ?_, ?_⟩
  · rw [h4]; omega
  · rw [h8]; omega
  · rw [h12]; omega

/-- A ring's counters are read back as they are written. -/
theorem ringTo_setRing {s : State} {key : Nat} {r r' : Ring} (h : s.ringAt key = some r) (hn : r'.nslot = r.nslot) :
    ringTo s (s.setRing key r') key r' := by
  refine ⟨?_, fun k hk => spadByte_setSpad_outside s _ (by omega)⟩
  have h0 : (s.setRing key r').spadNat (key + 8) 4 = s.spadNat (key + 8) 4 := spadNat_setSpad_outside s _ (by omega)
  have h1 : (s.setRing key r').spadNat (key + 12) 4 = s.spadNat (key + 12) 4 := spadNat_setSpad_outside s _ (by omega)
  obtain ⟨q0, q4, q8, q12⟩ := counters_parts r'.head.isLt r'.tail.isLt r'.claimed.isLt r'.filled.isLt
  have p0 : (s.setRing key r').spadNat (key + 16) 4 = r'.head.toNat := (spadNat_setSpad_part s (o := 0) _ (by decide)).trans q0
  have p4 : (s.setRing key r').spadNat (key + 20) 4 = r'.tail.toNat := (spadNat_setSpad_part s (o := 4) _ (by decide)).trans q4
  have p8 : (s.setRing key r').spadNat (key + 24) 4 = r'.claimed.toNat := (spadNat_setSpad_part s (o := 8) _ (by decide)).trans q8
  have p12 : (s.setRing key r').spadNat (key + 28) 4 = r'.filled.toNat := (spadNat_setSpad_part s (o := 12) _ (by decide)).trans q12
  unfold State.ringAt at h ⊢
  dsimp only at h
  simp only [h0, h1, p0, p4, p8, p12, BitVec.ofNat_toNat, BitVec.setWidth_eq]
  split at h
  · cases h
  · next hok =>
    have hslots : s.spadNat (key + 12) 4 = r'.nslot := by rw [hn, ← Option.some.inj h]
    rw [if_neg hok, hslots]

/-! The ends of the words -/

/-- A word of the sequencer is past, with the counters of a ring changed. -/
def ringTurns (s t : State) (key : Nat) (r : Ring) : Prop :=
  (t.en .sq).pc = (s.en .sq).pc + 8 ∧ (t.en .sq).wait = none ∧ (∀ e, e ≠ .sq → t.en e = s.en e) ∧ ringTo s t key r

theorem ringTurns_of_movesTo {s t u : State} {key : Nat} {r : Ring} (hmove : movesTo s t .sq ((s.en .sq).pc + 8)) (hu : ringTo s u key r)
    (ht : t.spad = u.spad) : ringTurns s t key r := ⟨hmove.2.1, hmove.2.2.1, hmove.1, ringTo_congr hu ht⟩

/-- The end of a word that has changed scratchpad bytes and written a scalar register, whether it has waited or not. -/
theorem wrS_spad_ends {s u t : State} (h : inOrder s .sq) (hu : u = { s with spad := u.spad }) (sd : SReg) (x : Word)
    (ht : finishes (u.wrS .sq sd x) t .sq (((u.wrS .sq sd x).en .sq).pc + 8)) (hregs : t.here.regs = (u.wrS .sq sd x).here.regs) :
    movesTo s t .sq ((s.en .sq).pc + 8) ∧ t.rest = { s.rest with spad := t.spad } ∧ t.spad = u.spad ∧
      ∀ q, t.sReg q = if q = sd ∧ sd ≠ 0 then x else s.sReg q := by
  have hin : inOrder u .sq := by rw [hu]; exact h
  obtain ⟨wrest, -, wen, -, -, wreg⟩ := wrS_inOrder hin sd x
  obtain ⟨hrest, -, hmove⟩ := ht
  have hen (f : Eng) : (u.wrS .sq sd x).en f = s.en f := (wen f).trans (by rw [hu]; rfl)
  have hspad : t.spad = u.spad := (rest_spad hrest).trans (rest_spad wrest)
  refine ⟨?_, ?_, hspad, fun q => ?_⟩
  · unfold movesTo at hmove ⊢
    simpa only [hen] using hmove
  · rw [hrest, wrest, hspad, hu]
    rfl
  · rw [sReg_congr hregs, wreg, hu]
    rfl

/-- The rest of the state after a word whose scratchpad bytes have not changed. -/
theorem rest_spad_self {s t : State} (h : t.rest = s.rest) : t.rest = { s.rest with spad := t.spad } := by
  rw [h, rest_spad h]
  rfl

theorem ringTo_self {s : State} {key : Nat} {r : Ring} (h : s.ringAt key = some r) : ringTo s s key r := ⟨h, fun _ _ => rfl⟩

/-! The words (R191) -/

theorem ringAt_of_ringWord {s : State} {sa : SReg} {key : Nat} {r : Ring} (h : s.ringWord sa = .ok (key, r)) : s.ringAt key = some r := by
  unfold State.ringWord at h
  split at h
  · cases h
  · split at h
    · next hr =>
      obtain ⟨hk, hq⟩ := Prod.mk.inj (Except.ok.inj h)
      rw [← hk, hr, hq]
    · cases h

/-- What an operation on a ring leaves, at once. -/
theorem atBank_ring {s : State} (h : inOrder s .sq) {key : Nat} {r r' : Ring} (hr : s.ringAt key = some r) {op : BankOp} {x : Nat}
    {f : Ring → Option Ring} (hop : s.bankOp key op x = s.onRing key f) (hf : f r = some r') (sd : SReg) :
    s.atBank key op x sd = .ok ((s.setRing key r').wrS .sq sd (BitVec.ofNat 64 r.claimed.toNat)) := by
  unfold State.atBank
  rw [if_neg (by rw [h.1]; decide), hop, State.onRing, hr]
  simp only [hf]

section
variable {s : State} (h : inOrder s .sq) {r : Ring} {key : Nat}
include h

/-- A claim of a free slot ends with the ticket in sd, however the word ends. -/
theorem claim_ends (hr : s.ringAt key = some r) (sd : SReg) {t : State} {e : State}
    (he : e = (s.setRing key r.claim).wrS .sq sd (r.claimed.setWidth 64)) (ht : finishes e t .sq ((e.en .sq).pc + 8))
    (hregs : t.here.regs = e.here.regs) : (ringTurns s t key { r with claimed := r.claimed + 1 } ∧ t.rest = { s.rest with spad := t.spad }) ∧
      ∀ q, t.sReg q = if q = sd ∧ sd ≠ 0 then r.claimed.setWidth 64 else s.sReg q := by
  rw [he] at ht hregs
  obtain ⟨hmove, hrest, hspad, hsd⟩ := wrS_spad_ends h (s := s) (u := s.setRing key r.claim) rfl sd _ ht hregs
  exact ⟨⟨ringTurns_of_movesTo hmove (ringTo_setRing hr rfl) hspad, hrest⟩, hsd⟩

end

/-- A word of a ring that changes no counter is past. -/
theorem unchanged_ends {s : State} {r : Ring} {key : Nat} (hr : s.ringAt key = some r) {t : State}
    (hmove : movesTo s t .sq ((s.en .sq).pc + 8)) (hrest : t.rest = s.rest) : ringTurns s t key r ∧ t.rest = { s.rest with spad := t.spad } :=
  ⟨ringTurns_of_movesTo hmove (ringTo_self hr) (rest_spad hrest), rest_spad_self hrest⟩

section
variable {s : State} (h : inOrder s .sq) {sa : SReg} {key : Nat} {r : Ring} (hk : s.ringWord sa = .ok (key, r))
include h hk

/-- A word that claims: it ends as e does, once the ring and the register hold what the claim leaves. -/
theorem claimAtBank (sd : SReg) : s.atBank key .claim 0 sd = .ok ((s.setRing key r.claim).wrS .sq sd (r.claimed.setWidth 64)) := by
  rw [atBank_ring h (ringAt_of_ringWord hk) (f := fun r => some r.claim) rfl rfl, BitVec.ofNat_toNat]

theorem execRgclaim_ok (sd : SReg) : exec (.rgclaim sd sa) s = if r.free (s.claiming key) = true then
    ((s.setRing key r.claim).wrS .sq sd (r.claimed.setWidth 64)).finishWait .sq else s.await .sq (.claim sd (BitVec.ofNat 64 key)) := by
  show execRgclaim sd sa s = _
  unfold execRgclaim
  rw [hk]
  show (if r.free (s.claiming key) then orTrap s .sq (s.atBank key .claim 0 sd) _ else _) = _
  rw [claimAtBank h hk]
  rfl

theorem execRgtry_ok (sd : SReg) : exec (.rgtry sd sa) s = if r.free (s.claiming key) = true then
    ((s.setRing key r.claim).wrS .sq sd (r.claimed.setWidth 64)).done .sq else (s.wrS .sq sd 0xFFFFFFFFFFFFFFFF).done .sq := by
  show execRgtry sd sa s = _
  unfold execRgtry
  rw [hk]
  show (if r.free (s.claiming key) then orTrap s .sq (s.atBank key .claim 0 sd) _ else _) = _
  rw [claimAtBank h hk]
  rfl

/-- A fill or a release whose ring takes it, at once. -/
theorem ringOp_ok (sb : SReg) {op : BankOp} {f : Ring → BitVec 32 → Option Ring} {r' : Ring}
    (hop : ∀ x : BitVec 32, s.bankOp key op x.toNat = s.onRing key fun r => f r (BitVec.ofNat 32 x.toNat))
    (hf : f r ((s.sReg sb).extractLsb' 0 32) = some r') :
    s.atBank key op ((s.rdS .sq sb).setWidth 32 : BitVec 32).toNat 0 = .ok (s.setRing key r') := by
  have hx : (s.rdS .sq sb).setWidth 32 = (s.sReg sb).extractLsb' 0 32 := by
    rw [rdS_inOrder h, BitVec.setWidth_eq_extractLsb' (by decide)]
  rw [hx, atBank_ring h (ringAt_of_ringWord hk) (hop _) (by rw [BitVec.ofNat_toNat, BitVec.setWidth_eq]; exact hf), State.wrS, if_pos rfl]

theorem execRgfill_ok (sb : SReg) {r' : Ring} (hf : r.fill ((s.sReg sb).extractLsb' 0 32) = some r') :
    exec (.rgfill sa sb) s = ((s.setRing key r').releasedAt key).done .sq := by
  show execRgfill sa sb s = _
  unfold execRgfill
  rw [hk]
  show orTrap s .sq (s.atBank key .fill _ 0) _ = _
  rw [ringOp_ok h hk sb (f := Ring.fill) (fun _ => rfl) hf]
  rfl

theorem execRgrel_ok (sb : SReg) {r' : Ring} (hf : r.release ((s.sReg sb).extractLsb' 0 32) = some r') :
    exec (.rgrel sa sb) s = (s.setRing key r').done .sq := by
  show execRgrel sa sb s = _
  unfold execRgrel
  rw [hk]
  show orTrap s .sq (s.atBank key .release _ 0) _ = _
  rw [ringOp_ok h hk sb (f := Ring.release) (fun _ => rfl) hf]
  rfl

theorem execRgwaitf_ok (sb : SReg) : exec (.rgwaitf sa sb) s = if r.published ((s.sReg sb).extractLsb' 0 32) = true then
    (s.acquired key 32).finishWait .sq else s.await .sq (.filled (BitVec.ofNat 64 key) ((s.sReg sb).extractLsb' 0 32)) := by
  show execRgwaitf sa sb s = _
  unfold execRgwaitf
  rw [hk, rdS_inOrder h, BitVec.setWidth_eq_extractLsb' (by decide)]
  rfl

end

theorem rgclaim_ends {s : State} (h : inOrder s .sq) {r : Ring} {key : Nat} (hr : s.ringAt key = some r) (sd : SReg) :
    goesTo (((s.setRing key r.claim).wrS .sq sd (r.claimed.setWidth 64)).finishWait .sq) fun t =>
      (ringTurns s t key r.claim ∧ t.rest = { s.rest with spad := t.spad }) ∧
        ∀ q, t.sReg q = if q = sd ∧ sd ≠ 0 then r.claimed.setWidth 64 else s.sReg q :=
  goesTo_imp (finishWait_finishes _ .sq) fun _ ⟨hends, hregs, _⟩ => claim_ends h hr sd rfl hends hregs

theorem rgtry_ends {s : State} (h : inOrder s .sq) {r : Ring} {key : Nat} (hr : s.ringAt key = some r) (sd : SReg) :
    goesTo (((s.setRing key r.claim).wrS .sq sd (r.claimed.setWidth 64)).done .sq) fun t =>
      (ringTurns s t key r.claim ∧ t.rest = { s.rest with spad := t.spad }) ∧
        ∀ q, t.sReg q = if q = sd ∧ sd ≠ 0 then r.claimed.setWidth 64 else s.sReg q :=
  goesTo_imp (done_writesNone _ .sq) fun _ ⟨hends, hnone⟩ => claim_ends h hr sd rfl hends hnone.2

theorem rgtry_fails {s : State} (h : inOrder s .sq) {r : Ring} {key : Nat} (hr : s.ringAt key = some r) (sd : SReg) (x : Word) :
    goesTo ((s.wrS .sq sd x).done .sq) fun t => (ringTurns s t key r ∧ t.rest = { s.rest with spad := t.spad }) ∧
      ∀ q, t.sReg q = if q = sd ∧ sd ≠ 0 then x else s.sReg q :=
  goesTo_imp (done_writesNone _ .sq) fun _ ⟨hends, hnone⟩ => by
    obtain ⟨hmove, hrest, hspad, hsd⟩ := wrS_spad_ends h (u := s) rfl sd x hends hnone.2
    exact ⟨⟨ringTurns_of_movesTo hmove (ringTo_self hr) hspad, hrest⟩, hsd⟩

theorem rgwaitf_ends {s : State} {r : Ring} {key : Nat} (hr : s.ringAt key = some r) :
    goesTo ((s.acquired key 32).finishWait .sq) fun t =>
      (ringTurns s t key r ∧ t.rest = { s.rest with spad := t.spad }) ∧ t.here.regs = s.here.regs :=
  goesTo_imp (finishWait_stands (stands_sameButOrder (sameButOrder_acquired s key 32) .sq)) fun _ ⟨hrest, hmove, hregs, _⟩ =>
    ⟨unchanged_ends hr hmove hrest, hregs⟩

theorem rgrel_ends {s : State} {r r' : Ring} {key : Nat} (hr : s.ringAt key = some r) (hn : r'.nslot = r.nslot) :
    goesTo ((s.setRing key r').done .sq) fun t =>
      (ringTurns s t key r' ∧ t.rest = { s.rest with spad := t.spad }) ∧ t.here.regs = s.here.regs :=
  goesTo_imp (done_spad (s := s) (u := s.setRing key r') rfl) fun _ ⟨⟨hmove, hrest⟩, hnone, hspad⟩ =>
    ⟨⟨ringTurns_of_movesTo hmove (ringTo_setRing hr hn) hspad, hrest⟩, hnone.2⟩

theorem publishes_releasedAt (s : State) (key : Nat) : publishes s (s.releasedAt key) := by
  unfold State.releasedAt
  exact ⟨cores_published _ _ _ _ _ _ _, sameButReleases_published _ _ _ _ _ _ _⟩

/-- A word that has changed scratchpad bytes and then publishes. -/
theorem done_publishes {s u : State} {bank : List Host.Cell} (hpub : publishes { s with spad := bank } u) : goesTo (u.done .sq) fun t =>
    movesTo s t .sq ((s.en .sq).pc + 8) ∧ t.here.regs = s.here.regs ∧ sameButReleases { s.rest with spad := t.spad } t.rest ∧ t.spad = bank := by
  have honly : onlyCombines s u := onlyCombines_trans (t := { s with spad := bank }) ⟨rfl, sameButCombining_of_cores rfl⟩ (onlyCombines_publishes hpub)
  refine goesTo_imp (done_onlyCombines honly) fun t ⟨⟨hmove, hregs, _⟩, hrest, hstill⟩ => ?_
  exact ⟨hmove, hregs, (alone_of_publishes hpub hrest hstill).2, (rest_spad hrest).trans (spad_publishes hpub)⟩

/-- A fill publishes at cluster scope (R146, R191). -/
theorem rgfill_ends {s : State} {r r' : Ring} {key : Nat} (hr : s.ringAt key = some r) (hn : r'.nslot = r.nslot) :
    goesTo (((s.setRing key r').releasedAt key).done .sq) fun t =>
      ringTurns s t key r' ∧ t.here.regs = s.here.regs ∧ sameButReleases { s.rest with spad := t.spad } t.rest :=
  goesTo_imp (done_publishes (publishes_releasedAt (s.setRing key r') key)) fun _ ⟨hmove, hregs, hsame, hspad⟩ =>
    ⟨ringTurns_of_movesTo hmove (ringTo_setRing hr hn) hspad, hregs, hsame⟩

theorem execRgclaimSatisfied_ok {s : State} {sd : SReg} {k : Word} {r : Ring} (hw : (s.en .sq).wait = some (.claim sd k))
    (hr : s.ringAt k.toNat = some r) (hruns : s.here.runs = true) (hf : r.free (s.claiming k.toNat) = true) :
    exec .rgclaimSatisfied s = ((s.setRing k.toNat r.claim).wrS .sq sd (r.claimed.setWidth 64)).finishWait .sq := by
  show execRgclaimSatisfied s = _
  unfold execRgclaimSatisfied
  simp only [hw, hr, hruns, hf, Bool.and_self, if_true]
  rfl

theorem execRgwaitfSatisfied_ok {s : State} {k : Word} {ticket : BitVec 32} {r : Ring} (hw : (s.en .sq).wait = some (.filled k ticket))
    (hr : s.ringAt k.toNat = some r) (hruns : s.here.runs = true) (hp : r.published ticket = true) :
    exec .rgwaitfSatisfied s = (s.acquired k.toNat 32).finishWait .sq := by
  show execRgwaitfSatisfied s = _
  unfold execRgwaitfSatisfied
  simp only [hw, hr, hruns, hp, Bool.and_self, if_true]

/-- A fill takes its slot and publishes what then is filled in a row. -/
theorem fill_eq {r : Ring} {ticket : BitVec 32} (hc : (ticket - r.tail).toNat < (r.claimed - r.tail).toNat) (hn : (ticket - r.tail).toNat < 32)
    (hb : bit r.filled (ticket - r.tail).toNat = false) :
    r.fill ticket = some { r with tail := r.tail + BitVec.ofNat 32 (filledRun 32 (r.filled ||| BitVec.ofNat 32 (2 ^ (ticket - r.tail).toNat)))
                                  filled := (r.filled ||| BitVec.ofNat 32 (2 ^ (ticket - r.tail).toNat)) >>>
                                    filledRun 32 (r.filled ||| BitVec.ofNat 32 (2 ^ (ticket - r.tail).toNat)) } := by
  unfold Ring.fill
  dsimp only
  rw [if_neg (by rw [hb]; simp only [Bool.false_eq_true, or_false]; omega), publish_eq]

/-- Settles O24: each word is the change of its ring's counters and the end of a word that waits or does not. -/
theorem scratchRings : Obligations.ScratchRings := by
  unfold Obligations.ScratchRings
  refine fun s r hin => ⟨fun sd sa sb key hk _ => ?_, fun k hr hruns => ⟨fun sd hw hf => ?_, fun ticket hw hp => ?_⟩⟩
  · have hr := ringAt_of_ringWord hk
    refine ⟨?_, ?_, fun hc hn hb => ?_, ?_, fun hticket => ?_⟩
    · rw [execRgclaim_ok hin hk]
      by_cases hf : r.free (s.claiming key) = true
      · simp only [if_pos hf, if_pos (of_decide_eq_true hf)]
        exact rgclaim_ends hin hr sd
      · simp only [if_neg hf, if_neg fun hlt => hf (decide_eq_true hlt)]
        exact goesTo_imp (await_waits s .sq _) fun t ⟨hrest, hnone, hpc, hwait⟩ => ⟨hwait, hpc, hrest, hnone⟩
    · rw [execRgtry_ok hin hk]
      by_cases hf : r.free (s.claiming key) = true
      · simp only [if_pos hf, if_pos (of_decide_eq_true hf)]
        exact rgtry_ends hin hr sd
      · simp only [if_neg hf, if_neg fun hlt => hf (decide_eq_true hlt)]
        exact rgtry_fails hin hr sd _
    · rw [execRgfill_ok hin hk sb (fill_eq hc hn hb)]
      exact rgfill_ends hr rfl
    · rw [execRgwaitf_ok hin hk]
      by_cases hp : r.published ((s.sReg sb).extractLsb' 0 32) = true
      · simp only [if_pos hp]
        exact rgwaitf_ends hr
      · simp only [if_neg hp]
        exact goesTo_imp (await_waits s .sq _) fun t ⟨hrest, hnone, hpc, hwait⟩ => ⟨hwait, hpc, hrest, hnone⟩
    · rw [execRgrel_ok hin hk sb (r' := { r with head := r.head + 1 }) (by unfold Ring.release; rw [hticket, if_neg (not_not.mpr rfl)])]
      exact rgrel_ends hr rfl
  · rw [execRgclaimSatisfied_ok hw hr hruns (decide_eq_true hf)]
    exact rgclaim_ends hin hr sd
  · rw [execRgwaitfSatisfied_ok hw hr hruns hp]
    exact rgwaitf_ends hr

end Sys2Proof.Machine
end

section
/-! PROOFS. A vector load whose first row teaches the die a synonym: what its second row was checked under no longer answers (R134, R163,
R167). -/

namespace Sys2Proof.Machine

/-- A package whose page table maps the pages below the task window as aliases of pages without read permission, while older lines are
readable: that of the load's row 0 in its slice, under the canonical address, and that of its row 1 in the die cache, under the synonym. Row 1
runs into the task window. -/
def aliasBelowWindow : State :=
  let window := 0x01FFFF0000000000
  let canonical := 0x01FFFE8000000000
  { Tests.st .ld fun k => { k with regs := { k.regs with s := [(1, BitVec.ofNat 64 (window - 132)), (2, 128)], m := [(1, 0x300000001)] }
                                   sys := { k.sys with det := true } } with
    hbm := [(0x10FF8, 1), (0x10FFA, 2), (0x20FE8, 1), (0x20FEA, 3), (0x30000, 3),
      (0x30FF8, 0x1F), (0x30FF9, 1), (0x30FFC, 0x80), (0x30FFD, 0xFE), (0x30FFE, 0xFF), (0x30FFF, 1)]
    llc := [⟨0, (canonical + 2 ^ 30 - 132) / 128, 0, 1, 0⟩]
    dies := [(0, { Die.zero with lines := [⟨0, (window - 4) / 128, 0, List.replicate 128 0, 1, 0⟩] })]
    spad := [(0, 7)] }

/-- The load of lanes 0, 32 and 33 from two rows: lanes 32 and 33 are one run of bytes, of which the window holds those of lane 33. -/
def aliasedLoad : Strided := ⟨0, 1, 2, 1, .f32, false, 0⟩

theorem aliasedLoad_checked :
    aliasBelowWindow.accessCheck .ld .read
      (if rowsAligned (rowAddrs (aliasBelowWindow.sReg 1) (aliasBelowWindow.sReg 2) 0) (aliasBelowWindow.active 1) (Fmt.width .f32) then 1 else 0)
      (accessesOf (stridedRuns (rowAddrs (aliasBelowWindow.sReg 1) (aliasBelowWindow.sReg 2) 0) (aliasBelowWindow.active 1))) = none := by
  decide +kernel

/-- Row 0 leaves the synonym in the remap filter; row 1 then fails under its canonical address, and its run reads as no bytes. -/
theorem aliasedLoad_lane :
    (match exec (.vld aliasedLoad) aliasBelowWindow with | .next t => t.vLane 0 33 | _ => 1) = 0 := by
  decide +kernel

/-- Refutes O25: the run of lanes 32 and 33 was checked before row 0 was read, which changes how its first bytes are found; lane 33 of the
scratchpad is lost with them. -/
theorem not_vectorLoads : ¬ Obligations.VectorLoads := by
  unfold Obligations.VectorLoads
  intro h
  have hin : inOrder aliasBelowWindow .ld := by unfold inOrder; decide +kernel
  obtain ⟨t, ht, hfills⟩ := ((h.1 aliasBelowWindow 1 0 hin).1 1 2 .f32 false 0).1 aliasedLoad_checked
  have hback : ¬ aliasBelowWindow.holdsBack 1 = true := by decide +kernel
  rw [if_neg hback] at hfills
  have hlane : t.vLane 0 33 = 7 := (hfills.2 33 0 (by decide) (by decide +kernel) (by decide +kernel)).trans (by decide +kernel)
  have hread := aliasedLoad_lane
  rw [show exec (.vld aliasedLoad) aliasBelowWindow = .next t from ht] at hread
  exact absurd (hlane.symm.trans hread) (by decide)

end Sys2Proof.Machine
end

section
/-! PROOFS. Writes of the active lanes of a vector register, and the end of an access that sends nothing (R71, R346). -/

namespace Sys2Proof.Machine

/-! Lanes of a vector register (R71) -/

theorem spread_succ (n m : Nat) : State.spread (n + 1) m = 2 ^ 32 * State.spread n (m / 2) + if m % 2 = 1 then ones 32 else 0 := by
  rw [Nat.mul_comm, ← Nat.shiftLeft_eq]
  exact Nat.add_comm _ _

theorem testBit_spread (n m i : Nat) : (State.spread n m).testBit i = (decide (i / 32 < n) && m.testBit (i / 32)) := by
  induction n generalizing m i with
  | zero =>
    show (0 : Nat).testBit i = _
    rw [Nat.zero_testBit, decide_eq_false (Nat.not_lt_zero _), Bool.false_and]
  | succ n ih =>
    have hlow : (if m % 2 = 1 then ones 32 else 0) < 2 ^ 32 := by split <;> decide
    rw [spread_succ, Nat.testBit_two_pow_mul_add _ hlow]
    by_cases hi : i < 32
    · have h0 : i / 32 = 0 := Nat.div_eq_of_lt hi
      rw [if_pos hi, h0, Nat.testBit_zero, decide_eq_true (Nat.succ_pos n), Bool.true_and]
      by_cases hm : m % 2 = 1
      · rw [if_pos hm, ones, Nat.testBit_two_pow_sub_one, decide_eq_true hi, decide_eq_true hm]
      · rw [if_neg hm, Nat.zero_testBit, decide_eq_false hm]
    · obtain ⟨j, rfl⟩ : ∃ j, i = j + 32 := ⟨i - 32, by omega⟩
      rw [if_neg hi, Nat.add_sub_cancel, ih, Nat.add_div_right j (by decide), Nat.testBit_succ]
      simp

/-- Of the core's registers only a vector register changes, and of that only the bits of active lanes, to those of x. -/
def writesLanes (s t : State) (v : Nat) (lanes : Mask) (x : Nat) : Prop :=
  { t.here.regs with v := [] } = { s.here.regs with v := [] } ∧ (∀ n, n ≠ v → t.vReg n = s.vReg n) ∧
    ∀ i, i < 8192 → (t.vReg v).getLsbD i = if bit lanes (i / 32) then x.testBit i else (s.vReg v).getLsbD i

theorem writesLanes_congr {s u t : State} {v : Nat} {lanes : Mask} {x : Nat} (h : writesLanes s u v lanes x) (ht : t.here.regs = u.here.regs) :
    writesLanes s t v lanes x := by
  unfold writesLanes State.vReg at h ⊢
  rw [ht]
  exact h

/-- In order, a write of active lanes changes that register and nothing else but records of races. -/
theorem wrV_inOrder {s : State} {e : Eng} (h : inOrder s e) (v : Nat) (lanes : Mask) (x : Nat) :
    (s.wrV e v lanes x).here.still = s.here.still ∧ (s.wrV e v lanes x).here.eng = s.here.eng ∧ writesLanes s (s.wrV e v lanes x) v lanes x := by
  have hstill : (s.wrV e v lanes x).here.still = s.here.still ∧ { (s.wrV e v lanes x).here.regs with v := [] } = { s.here.regs with v := [] } ∧
      ∀ n, n ≠ v → (s.wrV e v lanes x).vReg n = s.vReg n := by
    unfold State.wrV State.wr State.vReg
    rw [here_upd]
    obtain ⟨rs, hw | ⟨-, hw⟩⟩ := writeReg_inOrder s.free (.v v) (State.spread 256 lanes.toNat) x h.1 h.2
    · rw [hw]
      exact ⟨rfl, rfl, fun n hn => Bank.get_set_other _ _ _ hn⟩
    · rw [hw]
      exact ⟨rfl, rfl, fun _ _ => rfl⟩
  refine ⟨hstill.1, eng_wr s e _ _ _, hstill.2.1, hstill.2.2, fun i hi => ?_⟩
  have hval : (s.wrV e v lanes x).vReg v = _ := (wr_v_inOrder h v (State.spread 256 lanes.toNat) x).2
  have hlane : i / 32 < 256 := by omega
  rw [hval, BitVec.getLsbD_ofNat, testBit_blend, testBit_spread, decide_eq_true hi, decide_eq_true hlane, Bool.true_and, Bool.true_and]
  rfl

/-- An element that lies in one lane is that of what is written, where its lane is active. -/
theorem elemOf_writesLanes {s t : State} {v : Nat} {lanes : Mask} {x : Nat} (h : writesLanes s t v lanes x) {w k L : Nat}
    (hk : w * (k + 1) ≤ 8192) (hL : ∀ j, j < w → (w * k + j) / 32 = L) :
    elemOf w (t.vReg v).toNat k = if bit lanes L then elemOf w x k else elemOf w (s.vReg v).toNat k := by
  obtain ⟨-, -, hbits⟩ := h
  refine Nat.eq_of_testBit_eq fun j => ?_
  rw [Nat.mul_succ] at hk
  by_cases hj : j < w
  · have hb := hbits (w * k + j) (by omega)
    rw [hL j hj] at hb
    rw [testBit_elemOf, decide_eq_true hj, Bool.true_and, ← BitVec.getLsbD, hb]
    split <;> rw [testBit_elemOf, decide_eq_true hj, Bool.true_and]
    rfl
  · split <;> simp [testBit_elemOf, hj]

theorem vLane_eq (s : State) (v L : Nat) : s.vLane v L = BitVec.ofNat 32 (elemOf 32 (s.vReg v).toNat L) := by
  apply BitVec.eq_of_toNat_eq
  rw [State.vLane, BitVec.extractLsb'_toNat, BitVec.toNat_ofNat, elemOf, Nat.mod_mod]

theorem vLane_writesLanes {s t : State} {v : Nat} {lanes : Mask} {x : Nat} (h : writesLanes s t v lanes x) {L : Nat} (hL : L < 256) :
    t.vLane v L = if bit lanes L then BitVec.ofNat 32 (elemOf 32 x L) else s.vLane v L := by
  rw [vLane_eq, vLane_eq, elemOf_writesLanes h (by omega) (L := L) fun j hj => by omega]
  split <;> rfl

/-! An access that has nothing to send (R346) -/

/-- A load with nothing left to wait for writes the active lanes of its register and ends. -/
theorem lineStep_load {s : State} (h : inOrder s .ld) {op : LineOp} (hw : op.write = false) (htodo : op.todo = []) (hsent : op.sent = [])
    (hlater : op.later = []) (hrest : op.rest = []) : goesTo (s.lineStep .ld op) fun t =>
      movesTo s t .ld ((s.en .ld).pc + 8) ∧ t.rest = s.rest ∧ t.here.still = s.here.still ∧ writesLanes s t op.vd op.lanes op.val := by
  obtain ⟨wstill, weng, wlanes⟩ := wrV_inOrder h op.vd op.lanes op.val
  have hstep : s.lineStep .ld op = (s.wrV .ld op.vd op.lanes op.val).done .ld := by
    unfold State.lineStep State.lineNext
    rw [htodo, List.length_nil]
    simp only [State.pumpLines, htodo, hsent, hlater, hrest, hw, List.isEmpty_nil, Bool.and_self, Bool.or_true, if_true, Bool.false_eq_true, if_false]
    rfl
  rw [hstep]
  exact goesTo_imp (ends_moves weng) fun t ⟨hmove, hr, hs, hregs⟩ => ⟨hmove, hr, hs.trans wstill, writesLanes_congr wlanes hregs⟩

end Sys2Proof.Machine
end

section
/-! PROOFS. Lines of other packages: requests that arrive here and responses that come back (R161, R345, R346). -/

namespace Sys2Proof.Machine

/-! Requests (R345) -/

/-- Bytes of a masked write: those of the offsets that are listed. -/
theorem get_setMasked (l : List Nat) (m : List Host.Cell) (phys : Nat) (v : Nat → Byte) (a : Nat) :
    Bank.get 0 (l.foldl (fun h i => Bank.set 0 h (phys + i) (v i)) m) a = if phys ≤ a ∧ a - phys ∈ l then v (a - phys) else Bank.get 0 m a := by
  induction l generalizing m with
  | nil => simp
  | cons i l ih =>
    rw [List.foldl_cons, ih, Bank.get_set]
    by_cases ha : phys ≤ a
    · by_cases hl : a - phys ∈ l
      · rw [if_pos ⟨ha, hl⟩, if_pos ⟨ha, List.mem_cons_of_mem i hl⟩]
      · rw [if_neg fun h => hl h.2]
        by_cases hi : a = phys + i
        · have hsub : a - phys = i := by omega
          rw [if_pos hi, if_pos ⟨ha, by rw [hsub]; exact List.mem_cons_self⟩, hsub]
        · have hsub : a - phys ≠ i := by omega
          rw [if_neg hi, if_neg fun hm : _ ∧ _ => (List.mem_cons.mp hm.2).elim hsub hl]
    · rw [if_neg fun h : _ ∧ _ => ha h.1, if_neg (show ¬ a = phys + i by omega), if_neg fun h : _ ∧ _ => ha h.1]

theorem mem_maskRuns (mask : BitVec 128) (i : Nat) : i ∈ maskRuns mask ↔ i < 128 ∧ bit mask i = true := by
  unfold maskRuns
  rw [List.mem_filter, List.mem_range]

section
variable {s : State} {r : LineReq} {tr tp : Trans} (hl : s.level = .full) (ht : translate s 8 r.asid (r.va.toNat / 128 * 128) = .ok tr)
include hl ht

/-- A request to read a line is answered with the line of the copy of record. -/
theorem lineRequest_read (hw : r.write = false) (hp : pageCheck .read tr = .ok tp) :
    exec (.remoteAccessRequest (.line r)) s = .next ((learnHome s r.asid tp).post 4 (homeSlice r.asid (r.va.toNat / 128 * 128)) none
      (.lineReply r.pkg r.core r.tag (homeLine (learnHome s r.asid tp) tp.phys))) := by
  show execRemoteAccessRequest (.line r) s = _
  unfold execRemoteAccessRequest lineRequest
  dsimp only
  rw [if_pos hl, ht]
  simp only [hw, Bool.false_eq_true, if_false, hp]

/-- A request to write a line is performed where there is no generation to compare, and acknowledged. -/
theorem lineRequest_write (hw : r.write = true) (hg : r.gen = none) (hp : pageCheck .write tr = .ok tp) :
    exec (.remoteAccessRequest (.line r)) s = .next ((homeTo (learnHome s r.asid tp)
      ((maskRuns r.mask).foldl (fun h i => Bank.set 0 h (tp.phys + i) (r.data.getD i 0)) (learnHome s r.asid tp).hbm) tp.phys 128).post 4
        (homeSlice r.asid (r.va.toNat / 128 * 128)) none (.lineReply r.pkg r.core r.tag [])) := by
  show execRemoteAccessRequest (.line r) s = _
  unfold execRemoteAccessRequest lineRequest
  dsimp only
  rw [if_pos hl, ht]
  simp only [hw, if_true, hp, hg, Option.map_none, admitGen]

end

/-! Responses (R346) -/

/-- A core whose engines do not wait has nothing to send when a slot is free. -/
theorem resumeLines_idle {s : State} {c : Nat} (hld : ((s.core c).en .ld).wait = none) (hst : ((s.core c).en .st).wait = none) :
    s.resumeLines c = s := by
  unfold State.resumeLines State.resumeLine
  rw [List.foldl_cons, List.foldl_cons, List.foldl_nil, hld]
  dsimp only
  rw [hst]

/-- The response to the last line that a load waits for ends the load. -/
theorem remoteResponse_ok {s : State} {c tag : Nat} {q : RemoteOut} {op : LineOp} {data : List Byte} {elems : List (Nat × Nat)}
    (hc : c = s.cur.core) (hcore : c < 160) (hq : s.here.remote = [q]) (htag : q.tag = tag) (heng : q.eng = Eng.ld.tag)
    (hruns : s.here.runs = true) (hwait : (s.en .ld).wait = some (.lines op)) (hw : op.write = false) (hsent : op.sent = [(tag, elems)])
    {t : State} (hstep : (s.upd fun k => { k with remote := [] }).lineStep .ld { op with val := putElems op.width data op.val elems, sent := [] } = .next t)
    (hld : (t.en .ld).wait = none) (hst : (t.en .st).wait = none) (hcur : t.cur = s.cur) : exec (.remoteResponse c tag data) s = .next t := by
  subst hc htag
  have hfind : (s.core s.cur.core).remote.find? (fun r => decide (r.tag = q.tag)) = some q := by
    rw [show (s.core s.cur.core).remote = [q] from hq, List.find?_cons_of_pos (by simp)]
  have hnone : (s.core s.cur.core).remote.filter (fun r => decide (r.tag ≠ q.tag)) = [] := by
    rw [show (s.core s.cur.core).remote = [q] from hq, List.filter_cons_of_neg (by simp), List.filter_nil]
  have hupd : (s.upd fun k => { k with remote := k.remote.filter fun x => decide (x.tag ≠ q.tag) }) = s.upd fun k => { k with remote := [] } :=
    congrArg (fun l => s.setCore s.cur.core { s.here with remote := l }) hnone
  have hen : ((s.upd fun k => { k with remote := [] }).en .ld).wait = some (.lines op) := by unfold State.en; rw [here_upd]; exact hwait
  have hdeliver : (s.upd fun k => { k with remote := [] }).deliverLine .ld q.tag data = .next t := by
    unfold State.deliverLine
    rw [hen]
    simp only [hsent, hw, ← hstep, List.filter_cons, decide_true, if_true, List.filter_nil, ne_eq, not_true_eq_false, decide_false, Bool.false_eq_true,
      if_false, List.foldl_cons, List.foldl_nil]
  show execRemoteResponse s.cur.core q.tag data s = _
  unfold execRemoteResponse
  rw [hfind]
  dsimp only
  rw [if_pos (by rw [heng]; decide)]
  unfold wordResponse
  rw [if_neg (by omega)]
  dsimp only
  rw [show ({ s with cur := { s.cur with core := s.cur.core } } : State) = s from rfl, show s.here.remote.find? _ = some q from hfind]
  dsimp only
  rw [hupd, heng]
  have hr : (s.upd fun k => { k with remote := [] }).here.runs = true := by rw [here_upd]; exact hruns
  rw [hr, show Eng.ofTag Eng.ld.tag = .ld from rfl, hdeliver]
  have hidle := resumeLines_idle (s := t) (c := s.cur.core) (by rw [← hcur]; exact hld) (by rw [← hcur]; exact hst)
  exact congrArg Host.Outcome.next hidle

/-- Settles O42: a request is performed as its page allows, and a response ends the load as the end of any load of lines. -/
theorem remoteLineAccesses : Obligations.RemoteLineAccesses := by
  unfold Obligations.RemoteLineAccesses
  refine fun s => ⟨fun r tr tp hl ht => ⟨fun hw hp => ?_, fun hw _ hg hp => ?_⟩, ?_⟩
  · have hcaches := sameButCaches_learnHome s r.asid tp true
    have hdies := dies_learnHome s r.asid tp true
    rw [lineRequest_read hl ht hw hp]
    generalize learnHome s r.asid tp = u at hcaches hdies ⊢
    have hline : homeLine u tp.phys = homeLine s tp.phys := by rw [hcaches]; rfl
    rw [hline]
    refine ⟨_, rfl, ?_, ?_, ?_, ?_, hdies⟩ <;> rw [hcaches]
    exacts [⟨_, rfl, rfl⟩, rfl, rfl, rfl]
  · have hcaches := sameButCaches_learnHome s r.asid tp true
    have hdies := dies_learnHome s r.asid tp true
    rw [lineRequest_write hl ht hw hg hp]
    generalize learnHome s r.asid tp = u at hcaches hdies ⊢
    refine ⟨_, rfl, ⟨_, by rw [hcaches]; exact ⟨rfl, rfl⟩⟩, by rw [hcaches]; rfl, by rw [hcaches]; rfl, hdies, fun a => (get_setMasked _ _ _ _ a).trans ?_⟩
    refine if_congr ?_ rfl (by rw [hcaches]; rfl)
    rw [mem_maskRuns]
    exact ⟨fun ⟨hge, hlt, hbit⟩ => ⟨hge, by omega, hbit⟩, fun ⟨hge, hlt, hbit⟩ => ⟨hge, by omega, hbit⟩⟩
  · intro c tag q op data elems hc hcore hin hq htag _ heng _ hruns hwait hw htodo hlater hrest hsent hst
    have hin' : inOrder (s.upd fun k => { k with remote := [] }) .ld := by
      unfold inOrder at hin ⊢
      rw [here_upd]
      exact hin
    have hen (f : Eng) : (s.upd fun k => { k with remote := [] }).en f = s.en f := by unfold State.en; rw [here_upd]; rfl
    obtain ⟨t, ht, hmove, htrest, hstill, hlanes⟩ := lineStep_load hin'
      (op := { op with val := putElems op.width data op.val elems, sent := [] }) hw htodo rfl hlater hrest
    have hm : movesTo s t .ld ((s.en .ld).pc + 8) := by
      unfold movesTo at hmove ⊢
      simpa only [hen] using hmove
    have hexec := remoteResponse_ok hc hcore hq htag heng hruns hwait hw hsent ht hm.2.2.1 (by rw [hm.1 .st (by decide)]; exact hst) (rest_cur htrest)
    have hremote : t.here.remote = [] := (congrArg Core.remote hstill :).trans (by rw [here_upd]; rfl)
    have hv (n : Nat) : (s.upd fun k => { k with remote := [] }).vReg n = s.vReg n := by unfold State.vReg; rw [here_upd]
    refine ⟨t, hexec, hremote, hm, htrest, fun n hn => (hlanes.2.1 n hn).trans (hv n), fun L hL => ?_⟩
    rw [vLane_writesLanes hlanes hL]
    unfold State.vLane
    rw [hv]

end Sys2Proof.Machine
end

section
/-! PROOFS. Tensor-index accesses: elements put into a register image one by one, and the words of R166. -/

namespace Sys2Proof.Machine

/-! Elements of a sum of elements (R42) -/

/-- An element that is added where a value has none replaces that one and leaves the others. -/
theorem elemOf_add_elem {w v x k : Nat} (hv : elemOf w v k = 0) (hx : x < 2 ^ w) (j : Nat) :
    elemOf w (v + x <<< (w * k)) j = if j = k then x else elemOf w v j := by
  have hpos := Nat.two_pow_pos (w * k)
  have hlow : v % 2 ^ (w * k) < 2 ^ (w * k) := Nat.mod_lt _ hpos
  have hdigit : v / 2 ^ (w * k) % 2 ^ w = 0 := by rwa [elemOf, Nat.shiftRight_eq_div_pow] at hv
  obtain ⟨c, hc⟩ := Nat.dvd_of_mod_eq_zero hdigit
  have hshift (y : Nat) : y + 2 ^ w * c = y + c <<< (w * 1) := by rw [Nat.mul_one, Nat.shiftLeft_eq, Nat.mul_comm c]
  have hold : v = v % 2 ^ (w * k) + (0 + c <<< (w * 1)) <<< (w * k) := by
    rw [← hshift, Nat.zero_add, ← hc, Nat.shiftLeft_eq, Nat.mul_comm (v / _), Nat.mod_add_div]
  have hnew : v + x <<< (w * k) = v % 2 ^ (w * k) + (x + c <<< (w * 1)) <<< (w * k) := by
    rw [← hshift, ← hc, Nat.shiftLeft_eq, Nat.shiftLeft_eq, Nat.add_mul, Nat.mul_comm (v / _)]
    have := Nat.mod_add_div v (2 ^ (w * k))
    omega
  have hx' : x < 2 ^ (w * 1) := by rwa [Nat.mul_one]
  have h0 : 0 < 2 ^ (w * 1) := Nat.two_pow_pos _
  rw [hnew, elemOf_add_shift hlow, elemOf_add_shift hx']
  conv_rhs => rw [hold, elemOf_add_shift hlow, elemOf_add_shift h0]
  rcases Nat.lt_trichotomy j k with hj | rfl | hj
  · rw [if_pos hj, if_pos hj, if_neg (by omega)]
  · rw [if_neg (Nat.lt_irrefl j), if_pos (by omega), if_pos rfl, Nat.sub_self, elemOf_zero, Nat.mod_eq_of_lt hx]
  · rw [if_neg (by omega), if_neg (by omega), if_neg (by omega), if_neg (by omega), if_neg (by omega)]

/-- Elements of one value put where a register image has none. -/
theorem elemOf_fills {w fill : Nat} (hfill : fill < 2 ^ w) (l : List Nat) {v : Nat} (hnodup : l.Nodup) (hv : ∀ k ∈ l, elemOf w v k = 0) (j : Nat) :
    elemOf w (l.foldl (fun v k => v + fill <<< (w * k)) v) j = if j ∈ l then fill else elemOf w v j := by
  induction l generalizing v with
  | nil => simp
  | cons k l ih =>
    obtain ⟨hk, hl⟩ := List.nodup_cons.mp hnodup
    have hput := elemOf_add_elem (hv k List.mem_cons_self) hfill
    have hrest (i : Nat) (hi : i ∈ l) : elemOf w (v + fill <<< (w * k)) i = 0 := by
      have hne : i ≠ k := fun h => hk (h ▸ hi)
      rw [hput, if_neg hne]
      exact hv i (List.mem_cons_of_mem k hi)
    rw [List.foldl_cons, ih hl hrest]
    by_cases hj : j ∈ l
    · rw [if_pos hj, if_pos (List.mem_cons_of_mem k hj)]
    · rw [if_neg hj, hput]
      by_cases hjk : j = k
      · rw [if_pos hjk, if_pos (hjk ▸ List.mem_cons_self)]
      · rw [if_neg hjk, if_neg fun h => (List.mem_cons.mp h).elim hjk hj]

/-- Runs of one element each, by their numbers and addresses. -/
def elemRuns (w : Nat) (l : List (Nat × Nat)) : List (Nat × Nat × Nat) := l.map fun x => (x.1 * w, x.2, w)

theorem accessesOf_elemRuns (w : Nat) (l : List (Nat × Nat)) : accessesOf (elemRuns w l) = l.map fun x => (x.2, w) := List.map_map

/-- Elements that are loaded one by one: those in windows are the bytes there, and where none is loaded none is. -/
theorem loadRuns_elems (w : Nat) (l : List (Nat × Nat)) (s : State) (hnodup : (l.map Prod.fst).Nodup) :
    (∀ j, j ∉ l.map Prod.fst → elemOf (8 * w) (loadRuns (elemRuns w l) s).1 j = 0) ∧
      ∀ x ∈ l, ∀ key, window s.cur.core s.here x.2 w = .ok (.spad key) →
        elemOf (8 * w) (loadRuns (elemRuns w l) s).1 x.1 = ofBytes (Bank.getRun 0 s.spad key w) := by
  induction l generalizing s with
  | nil => exact ⟨fun j _ => by simp [elemRuns, loadRuns, elemOf], nofun⟩
  | cons y l ih =>
    obtain ⟨k, va⟩ := y
    rw [List.map_cons, List.nodup_cons] at hnodup
    obtain ⟨hk, hl⟩ := hnodup
    have hcaches := sameButCaches_load s va w
    obtain ⟨hnone, hloaded⟩ := ih (s.load va w).2 hl
    have hbound : ofBytes (s.load va w).1 < 2 ^ (8 * w) :=
      (ofBytes_lt _).trans_le (by rw [Nat.pow_mul]; exact Nat.pow_le_pow_right (by decide) (length_load s va w))
    have hval : (loadRuns (elemRuns w ((k, va) :: l)) s).1 =
        (loadRuns (elemRuns w l) (s.load va w).2).1 + ofBytes (s.load va w).1 <<< (8 * w * k) := by
      rw [show 8 * w * k = 8 * (k * w) by ring]
      rfl
    have hput := elemOf_add_elem (hnone k hk) hbound
    rw [hval]
    refine ⟨fun j hj => ?_, fun x hx key hwin => ?_⟩
    · rw [List.map_cons, List.mem_cons, not_or] at hj
      rw [hput, if_neg hj.1, hnone j hj.2]
    · rcases List.mem_cons.mp hx with rfl | hx
      · rw [hput, if_pos rfl, load_window hwin]
      · have hne : x.1 ≠ k := fun h => hk (by rw [← h]; exact List.mem_map.mpr ⟨x, hx, rfl⟩)
        have hwin' : window (s.load va w).2.cur.core (s.load va w).2.here x.2 w = .ok (.spad key) := by
          rw [here_sameButCaches hcaches, cur_sameButCaches hcaches]
          exact hwin
        have hspad : (s.load va w).2.spad = s.spad := by rw [hcaches]
        rw [hput, if_neg hne, hloaded x hx key hwin', hspad]

/-! Which elements a word reaches (R166) -/

/-- The elements that lie here, with their addresses. -/
def hereElems (at_ : Nat → Except Code Reach) (ks : List Nat) : List (Nat × Nat) :=
  ks.filterMap fun k => match at_ k with | .ok (.here va) => some (k, va) | _ => none

/-- The elements outside a permitting tensor. -/
def fillElems (at_ : Nat → Except Code Reach) (ks : List Nat) : List Nat :=
  ks.filterMap fun k => match at_ k with | .ok .fill => some k | _ => none

section
variable {at_ : Nat → Except Code Reach} {ks : List Nat}

theorem mem_hereElems {k va : Nat} : (k, va) ∈ hereElems at_ ks ↔ k ∈ ks ∧ at_ k = .ok (.here va) := by
  unfold hereElems
  rw [List.mem_filterMap]
  constructor
  · rintro ⟨i, hi, h⟩
    split at h
    · next hat =>
      cases h
      exact ⟨hi, hat⟩
    · cases h
  · rintro ⟨hk, hat⟩
    exact ⟨k, hk, by rw [hat]⟩

theorem mem_fillElems {k : Nat} : k ∈ fillElems at_ ks ↔ k ∈ ks ∧ at_ k = .ok .fill := by
  unfold fillElems
  rw [List.mem_filterMap]
  constructor
  · rintro ⟨i, hi, h⟩
    split at h
    · next hat =>
      cases h
      exact ⟨hi, hat⟩
    · cases h
  · rintro ⟨hk, hat⟩
    exact ⟨k, hk, by rw [hat]⟩

theorem nodup_hereElems (h : ks.Nodup) : ((hereElems at_ ks).map Prod.fst).Nodup := by
  refine List.Nodup.sublist ?_ h
  induction ks with
  | nil => exact List.Sublist.refl []
  | cons k ks ih =>
    have ih := ih (List.nodup_cons.mp h).2
    unfold hereElems at ih ⊢
    rw [List.filterMap_cons]
    split
    · exact ih.cons k
    · next hf =>
      split at hf
      · cases hf
        exact ih.cons_cons k
      · cases hf

theorem nodup_fillElems (h : ks.Nodup) : (fillElems at_ ks).Nodup := by
  refine List.Nodup.filterMap (fun a b c ha hb => ?_) h
  split at ha
  · cases ha
    split at hb
    · cases hb
      rfl
    · cases hb
  · cases ha

end

end Sys2Proof.Machine
end

section
/-! PROOFS. The tensor-index load and store, whole or torn (R145, R161, R163, R166). -/

namespace Sys2Proof.Machine

/-! The record of a tensor-index word -/

theorem shapeOf_fill {a : Nat} {b : List Byte} {t : Shape} (h : shapeOf a b = some t) : t.fill < 2 ^ t.fmt.bits := by
  unfold shapeOf at h
  dsimp only at h
  split at h
  · cases h
  · split at h
    · cases h
    · next hbad =>
      cases h
      simp only [not_or, not_le] at hbad
      exact hbad.2.2.2.2.2.2.2.2.2.2.1

theorem readShape_fill {s u : State} {tid : Nat} {t : Shape} (h : s.readShape tid = .ok (t, u)) : t.fill < 2 ^ t.fmt.bits := by
  unfold State.readShape at h
  dsimp only at h
  split at h
  · cases h
  · split at h
    · cases h
    · split at h
      · cases h
      · next hshape =>
        split at h
        · cases h
        · cases h
          exact shapeOf_fill hshape

theorem tensorShape_ok {s u : State} {e : Eng} {o : TensorIx} {t : Shape} (h : s.tensorShape e o = .ok (t, u)) :
    sameButCaches s u ∧ t.fill < 2 ^ o.ty.bits := by
  unfold State.tensorShape at h
  dsimp only at h
  split at h
  · cases h
  · split at h
    · cases h
    · next hread =>
      split at h
      · cases h
      · next hfmt =>
        cases h
        rw [not_or, not_not] at hfmt
        exact ⟨sameButCaches_readShape hread, hfmt.1 ▸ readShape_fill hread⟩

/-! Its elements -/

/-- The elements that a word's lanes select. -/
def activeElems (lanes : Mask) (w : Nat) : List Nat := (List.range (1024 / w)).filter fun k => bit lanes (k * w / 4)

theorem mem_activeElems {lanes : Mask} {w k : Nat} : k ∈ activeElems lanes w ↔ k < 1024 / w ∧ bit lanes (k * w / 4) = true := by
  unfold activeElems
  rw [List.mem_filter, List.mem_range]

theorem nodup_activeElems (lanes : Mask) (w : Nat) : (activeElems lanes w).Nodup := List.nodup_range.filter _

/-- Where an element of a row lies. -/
def rowReach (s : State) (t : Shape) (m : BitVec 256) (sb : SReg) (w : Nat) (kind : RKind) (k : Nat) : Except Code Reach :=
  let base := (List.range t.rank).map fun d => (s.sReg (BitVec.ofNat 6 (sb.toNat + d))).toInt
  s.reach t m kind (base.set (t.rank - 1) (base.getD (t.rank - 1) 0 + (k : Int))) w

theorem tensorElems_inOrder {s : State} {e : Eng} (h : inOrder s e) (t : Shape) (m : BitVec 256) (kind : RKind) (sb : SReg) (lanes : Mask) (w : Nat) :
    s.tensorElems e t m kind sb lanes w = (activeElems lanes w).map fun k => (k * w, rowReach s t m sb w kind k) := by
  unfold State.tensorElems
  simp only [rdS_inOrder h]
  rfl

/-- Each element lies here or outside a permitting tensor. -/
def nearElems (at_ : Nat → Except Code Reach) (ks : List Nat) : Prop := ∀ k ∈ ks, at_ k = .ok .fill ∨ ∃ va, at_ k = .ok (.here va)

section
variable {at_ : Nat → Except Code Reach} {ks : List Nat} (hnear : nearElems at_ ks) (w : Nat)

theorem worst_none (l : List (Option Code)) (h : ∀ x ∈ l, x = none) : worst l = none := by
  induction l with
  | nil => rfl
  | cons x l ih =>
    rw [h x List.mem_cons_self]
    exact ih fun y hy => h y (List.mem_cons_of_mem x hy)

include hnear in
theorem faultOf_near : faultOf ((ks.map fun k => (k * w, at_ k)).map Prod.snd) = none := by
  refine worst_none _ fun x hx => ?_
  obtain ⟨r, hr, rfl⟩ := List.mem_map.mp hx
  obtain ⟨p, hp, rfl⟩ := List.mem_map.mp hr
  obtain ⟨k, hk, rfl⟩ := List.mem_map.mp hp
  rcases hnear k hk with h | ⟨va, h⟩
  · simp only [h]
  · simp only [h]

include hnear in
/-- No element has to be asked for at another package. -/
theorem addLines_near (f : BitVec 48 → Nat → Nat → List LineTodo → List LineTodo) :
    (ks.map fun k => (k * w, at_ k)).foldl (fun l x => match x.2 with | .ok (.there pkg va) => f pkg va x.1 l | _ => l) [] = [] := by
  refine List.foldlRecOn (motive := fun l : List LineTodo => l = []) _ _ rfl fun l hl x hx => ?_
  obtain ⟨k, hk, rfl⟩ := List.mem_map.mp hx
  rcases hnear k hk with h | ⟨va, h⟩
  · simp only [h, hl]
  · simp only [h, hl]

/-- The run of an element that lies here. -/
def hereRun (x : Nat × Except Code Reach) : Option (Nat × Nat × Nat) := match x.2 with | .ok (.here va) => some (x.1, va, w) | _ => none

/-- The offset of an element outside a permitting tensor. -/
def fillAt (x : Nat × Except Code Reach) : Option Nat := match x.2 with | .ok .fill => some x.1 | _ => none

theorem hereElems_runs : (ks.map fun k => (k * w, at_ k)).filterMap (hereRun w) = elemRuns w (hereElems at_ ks) := by
  unfold elemRuns hereElems
  rw [List.filterMap_map, List.map_filterMap]
  refine List.filterMap_congr fun k _ => ?_
  dsimp only [Function.comp_apply, hereRun]
  rcases at_ k with _ | _ | _ | _ <;> rfl

theorem hereElems_accesses : ks.filterMap (fun k => match at_ k with | .ok (.here va) => some (va, w) | _ => none) =
    accessesOf (elemRuns w (hereElems at_ ks)) := by
  rw [accessesOf_elemRuns]
  unfold hereElems
  rw [List.map_filterMap]
  refine List.filterMap_congr fun k _ => ?_
  rcases at_ k with _ | _ | _ | _ <;> rfl

theorem fillElems_offsets : (ks.map fun k => (k * w, at_ k)).filterMap fillAt = (fillElems at_ ks).map fun k => k * w := by
  unfold fillElems
  rw [List.filterMap_map, List.map_filterMap]
  refine List.filterMap_congr fun k _ => ?_
  dsimp only [Function.comp_apply, fillAt]
  rcases at_ k with _ | _ | _ | _ <;> rfl

end

/-! An access that the device may tear (R145) -/

/-- Where nothing is sent, an access ends unless something of it is left. -/
theorem lineStep_near (u : State) (e : Eng) {op : LineOp} (htodo : op.todo = []) (hsent : op.sent = []) : u.lineStep e op =
    if op.later = [] ∧ op.rest = [] then (if op.write then u else u.wrV e op.vd op.lanes op.val).done e else u.await e (.lines op) := by
  unfold State.lineStep State.lineNext
  rw [htodo, List.length_nil]
  dsimp only [State.pumpLines]
  rw [htodo, hsent]
  simp only [List.isEmpty_nil, Bool.or_true, Bool.and_true, Bool.true_and, Bool.and_eq_true, List.isEmpty_iff]
  split
  · rfl
  · rfl

/-- A word has ended, or waits with what is left of it. -/
def endsOrWaits (s t : State) (e : Eng) : Prop :=
  ((t.en e).pc = (s.en e).pc + 8 ∧ (t.en e).wait = none) ∨ t.here.regs = s.here.regs ∧ (t.en e).pc = (s.en e).pc ∧
    ∃ op, (t.en e).wait = some (.lines op) ∧ op.todo = [] ∧ op.sent = [] ∧ (op.later ≠ [] ∨ op.rest ≠ [])

theorem lineStep_endsOrWaits {s u : State} {e : Eng} (heng : u.here.eng = s.here.eng) (hregs : u.here.regs = s.here.regs) {op : LineOp}
    (htodo : op.todo = []) (hsent : op.sent = []) : goesTo (u.lineStep e op) fun t => endsOrWaits s t e := by
  rw [lineStep_near u e htodo hsent]
  split
  · have hend {v : State} (hv : v.here.eng = s.here.eng) : goesTo (v.done e) fun t => endsOrWaits s t e :=
      goesTo_imp (ends_moves hv) fun t ⟨hmove, _⟩ => .inl ⟨hmove.2.1, hmove.2.2.1⟩
    refine hend ?_
    split
    · exact heng
    · exact (eng_wr u e _ _ _).trans heng
  · next hleft =>
    refine goesTo_imp (await_stays (s := s) heng (.lines op)) fun t ⟨_, tregs, _, hpc, hwait⟩ => .inr ⟨tregs.trans hregs, hpc, op, hwait, htodo, hsent, ?_⟩
    rw [← not_and_or]
    exact hleft

/-! The load -/

section
variable {s : State} {o : TensorIx} {t0 : Shape} {u : State} {m : BitVec 256}

theorem execVldx_ok (h : inOrder s .ld) (hshape : s.tensorShape .ld o = .ok (t0, u)) (hmap : u.mapOf .ld t0 = .ok m)
    (hnear : nearElems (rowReach s t0 m o.sb (Fmt.width o.ty) .read) (activeElems (s.active o.pm) (Fmt.width o.ty)))
    (hc : s.conflicts .ld (s.spadRanges ((t0.recVa, 128) :: accessesOf (elemRuns (Fmt.width o.ty) (hereElems
      (rowReach s t0 m o.sb (Fmt.width o.ty) .read) (activeElems (s.active o.pm) (Fmt.width o.ty)))))) false = false) :
    let w := Fmt.width o.ty
    let ks := activeElems (s.active o.pm) w
    let at_ := rowReach s t0 m o.sb w .read
    let p := s.tearLoad (elemRuns w (hereElems at_ ks))
    exec (.vldx o) s = (loadRuns p.1 u).2.lineStep .ld ⟨false, o.vd.toNat, w, s.active o.pm,
      (fillElems at_ ks).foldl (fun v k => v + t0.fill <<< (8 * w * k)) (loadRuns p.1 u).1, [], [], p.2, []⟩ := by
  intro w ks at_ p
  have hel := tensorElems_inOrder h t0 m .read o.sb (s.active o.pm) w
  have hfills (v : Nat) : ((fillElems at_ ks).map fun k => k * w).foldl (fun v off => v + t0.fill <<< (8 * off)) v =
      (fillElems at_ ks).foldl (fun v k => v + t0.fill <<< (8 * w * k)) v := by
    rw [List.foldl_map]
    refine congrArg (fun f => List.foldl f v _) (funext fun x => funext fun k => ?_)
    rw [show 8 * (k * w) = 8 * w * k by ring]
  show execVldx o s = _
  unfold execVldx
  rw [hshape]
  unfold orTrap
  dsimp only
  rw [hmap]
  dsimp only
  rw [pred_inOrder h, hel, faultOf_near hnear w]
  have htodo := addLines_near hnear w fun pkg va off l => addLine pkg va off w (List.replicate w 0) none 0 l
  have hmine := hereElems_runs (at_ := at_) (ks := ks) w
  have hfill := fillElems_offsets (at_ := at_) (ks := ks) w
  generalize (activeElems (s.active o.pm) w).map (fun k => (k * w, rowReach s t0 m o.sb w .read k)) = el at htodo hmine hfill ⊢
  change (if s.conflicts .ld (s.spadRanges ((t0.recVa, 128) :: accessesOf (el.filterMap (hereRun w)))) false = true then s.trap .ld .overlap else
    (loadRuns (s.tearLoad (el.filterMap (hereRun w))).1 u).2.lineStep .ld ⟨false, o.vd.toNat, w, s.active o.pm,
      (el.filterMap fillAt).foldl (fun v off => v + t0.fill <<< (8 * off)) (loadRuns (s.tearLoad (el.filterMap (hereRun w))).1 u).1,
      List.foldl _ [] el, [], (s.tearLoad (el.filterMap (hereRun w))).2, []⟩) = _
  rw [hmine, if_neg (by rw [hc]; decide), hfill, hfills]
  exact congrArg (fun l => (loadRuns p.1 u).2.lineStep .ld ⟨false, o.vd.toNat, w, s.active o.pm, _, l, [], p.2, []⟩) htodo


theorem window_sameButCaches {s u : State} (h : sameButCaches s u) (va n : Nat) :
    window u.cur.core u.here va n = window s.cur.core s.here va n := by rw [here_sameButCaches h, cur_sameButCaches h]

/-- An element of one, two or four bytes lies in one lane (R162). -/
theorem elem_in_lane {w : Nat} (hw : w = 1 ∨ w = 2 ∨ w = 4) {k : Nat} (hk : k < 1024 / w) :
    8 * w * (k + 1) ≤ 8192 ∧ ∀ j, j < 8 * w → (8 * w * k + j) / 32 = k * w / 4 := by
  rcases hw with rfl | rfl | rfl
  · exact ⟨by omega, fun j hj => by omega⟩
  · exact ⟨by omega, fun j hj => by omega⟩
  · exact ⟨by omega, fun j hj => by omega⟩

/-- The elements of the image that a load of a row puts together: FILL outside, and the bytes of those in windows. -/
theorem elemOf_row {u : State} {w fill : Nat} (hfill : fill < 2 ^ (8 * w)) (at_ : Nat → Except Code Reach) {ks : List Nat} (hks : ks.Nodup) {k : Nat} :
    let val := (fillElems at_ ks).foldl (fun v k => v + fill <<< (8 * w * k)) (loadRuns (elemRuns w (hereElems at_ ks)) u).1
    (k ∈ ks → at_ k = .ok .fill → elemOf (8 * w) val k = fill) ∧
      ∀ va key, k ∈ ks → at_ k = .ok (.here va) → window u.cur.core u.here va w = .ok (.spad key) →
        elemOf (8 * w) val k = ofBytes (Bank.getRun 0 u.spad key w) := by
  obtain ⟨hnone, hloaded⟩ := loadRuns_elems w (hereElems at_ ks) u (nodup_hereElems hks)
  have hzero (j : Nat) (hj : j ∈ fillElems at_ ks) : elemOf (8 * w) (loadRuns (elemRuns w (hereElems at_ ks)) u).1 j = 0 := by
    refine hnone j fun hmem => ?_
    obtain ⟨⟨i, va⟩, hi, rfl⟩ := List.mem_map.mp hmem
    have hhere := (mem_hereElems.mp hi).2
    rw [(mem_fillElems.mp hj).2] at hhere
    cases hhere
  have hval := elemOf_fills hfill (fillElems at_ ks) (nodup_fillElems hks) hzero k
  dsimp only
  rw [hval]
  refine ⟨fun hk hat => if_pos (mem_fillElems.mpr ⟨hk, hat⟩), fun va key hk hat hwin => ?_⟩
  have hnot : k ∉ fillElems at_ ks := fun hmem => by
    have hfills := (mem_fillElems.mp hmem).2
    rw [hat] at hfills
    cases hfills
  rw [if_neg hnot]
  exact hloaded (k, va) (mem_hereElems.mpr ⟨hk, hat⟩) key hwin

section
variable (h : inOrder s .ld) (hshape : s.tensorShape .ld o = .ok (t0, u)) (hmap : u.mapOf .ld t0 = .ok m)
  (hnear : nearElems (rowReach s t0 m o.sb (Fmt.width o.ty) .read) (activeElems (s.active o.pm) (Fmt.width o.ty)))
  (hc : s.conflicts .ld (s.spadRanges ((t0.recVa, 128) :: accessesOf (elemRuns (Fmt.width o.ty) (hereElems
    (rowReach s t0 m o.sb (Fmt.width o.ty) .read) (activeElems (s.active o.pm) (Fmt.width o.ty)))))) false = false)
include h hshape hmap hnear hc

theorem vldx_torn : goesTo (exec (.vldx o) s) fun t => endsOrWaits s t .ld := by
  rw [execVldx_ok h hshape hmap hnear hc]
  have hcaches := sameButCaches_trans (tensorShape_ok hshape).1 (sameButCaches_loadRuns (s.tearLoad (elemRuns (Fmt.width o.ty)
    (hereElems (rowReach s t0 m o.sb (Fmt.width o.ty) .read) (activeElems (s.active o.pm) (Fmt.width o.ty))))).1 u)
  exact lineStep_endsOrWaits (by rw [here_sameButCaches hcaches]) (by rw [here_sameButCaches hcaches]) rfl rfl

theorem vldx_whole (hb : s.holdsBack 1 = false) : goesTo (exec (.vldx o) s) fun t =>
    movesTo s t .ld ((s.en .ld).pc + 8) ∧ t.spad = s.spad ∧ t.hbm = s.hbm ∧ t.here.sys = s.here.sys ∧
      writesLanes s t o.vd.toNat (s.active o.pm) ((fillElems (rowReach s t0 m o.sb (Fmt.width o.ty) .read)
        (activeElems (s.active o.pm) (Fmt.width o.ty))).foldl (fun v k => v + t0.fill <<< (8 * Fmt.width o.ty * k))
          (loadRuns (elemRuns (Fmt.width o.ty) (hereElems (rowReach s t0 m o.sb (Fmt.width o.ty) .read)
            (activeElems (s.active o.pm) (Fmt.width o.ty)))) u).1) := by
  have htear (l : List (Nat × Nat × Nat)) : s.tearLoad l = (l, []) := by
    unfold State.tearLoad
    rw [hb]
    rfl
  rw [execVldx_ok h hshape hmap hnear hc, htear]
  dsimp only
  generalize elemRuns (Fmt.width o.ty) _ = runs
  generalize List.foldl _ _ _ = val
  have hcaches := sameButCaches_trans (tensorShape_ok hshape).1 (sameButCaches_loadRuns runs u)
  generalize (loadRuns runs u).2 = v at hcaches ⊢
  have hhere := here_sameButCaches hcaches
  refine goesTo_imp (lineStep_load (inOrder_sameButCaches hcaches h) rfl rfl rfl rfl rfl) fun t ⟨hmove, hrest, hstill, hlanes⟩ => ?_
  refine ⟨?_, (rest_spad hrest).trans (by rw [hcaches]), (rest_hbm hrest).trans (by rw [hcaches]),
    (congrArg Core.sys hstill :).trans (by rw [hhere]; rfl), ?_⟩
  · unfold movesTo State.en at hmove ⊢
    rwa [hhere] at hmove
  · unfold writesLanes State.vReg at hlanes ⊢
    rwa [hhere] at hlanes

end

end

end Sys2Proof.Machine
end

section
/-! PROOFS. The tensor-index store and the statement of both words (R145, R161, R163, R166). -/

namespace Sys2Proof.Machine

/-! Stores under a generation (R161) -/

theorem onlyCombines_storeGens {s : State} (ht : s.here.sys.timed = false) (e : Eng) (gen : Option GenRef) (nt : Bool) (l : List (Nat × List Byte)) :
    onlyCombines s (l.foldl (fun s x => s.storeGen e gen nt x.1 x.2) s) :=
  List.foldlRecOn (motive := fun t : State => onlyCombines s t) _ _ (onlyCombines_refl s) fun _ h x _ =>
    onlyCombines_trans h (onlyCombines_storeGen (timed_onlyCombines h ht) e gen nt x.1 x.2)

theorem onlyCombines_tearStoresGen {s : State} (ht : s.here.sys.timed = false) (e : Eng) (gen : Option GenRef) (nt : Bool) (l : List (Nat × List Byte)) :
    onlyCombines s (s.tearStores e gen nt l).2 := by
  unfold State.tearStores
  split
  · exact onlyCombines_tearUnits _ _ _ _ _ _ _ ht
  · exact onlyCombines_storeGens ht e gen nt l

/-- A store in the task's windows carries no generation to memory. -/
theorem storeGen_window_gen {s : State} (ht : s.here.sys.timed = false) {va key : Nat} {bs : List Byte}
    (hw : window s.cur.core s.here va bs.length = .ok (.spad key)) (e : Eng) (gen : Option GenRef) (nt : Bool) :
    s.storeGen e gen nt va bs = { s with spad := Bank.setRun 0 s.spad key bs } := by
  have hnone : s.storeGen e gen nt va bs = s.storeGen e none nt va bs := by
    unfold State.storeGen
    rw [hw]
    cases gen <;> rfl
  rw [hnone, storeGen_window ht hw]

theorem storeGens_windows_gen {ι : Type} (f : ι → Nat × List Byte) (key : ι → Nat) (e : Eng) (gen : Option GenRef) (nt : Bool) (l : List ι) {s : State}
    (ht : s.here.sys.timed = false) (hw : ∀ i ∈ l, window s.cur.core s.here (f i).1 (f i).2.length = .ok (.spad (key i))) :
    (l.map f).foldl (fun s x => s.storeGen e gen nt x.1 x.2) s = { s with spad := setRuns s.spad (l.map fun i => (key i, (f i).2)) } := by
  induction l generalizing s with
  | nil => rfl
  | cons i l ih =>
    rw [List.map_cons, List.foldl_cons, storeGen_window_gen ht (hw i List.mem_cons_self)]
    exact ih (s := { s with spad := _ }) ht fun j hj => hw j (List.mem_cons_of_mem i hj)

/-! The store -/

/-- The bytes of an element of a register, with the element's address. -/
def elemBytes (x w : Nat) (y : Nat × Nat) : Nat × List Byte := (y.2, toBytes w (x >>> (8 * (y.1 * w))))

theorem runBytes_elemRuns (x w : Nat) (l : List (Nat × Nat)) : runBytes x (elemRuns w l) = l.map (elemBytes x w) := List.map_map

theorem byte_elemOf {w j : Nat} (hj : j < w) (x k : Nat) :
    (toBytes w (x >>> (8 * (k * w)))).getD j 0 = BitVec.ofNat 8 (elemOf (8 * w) x k / 256 ^ j) := by
  rw [getD_toBytes hj, show 8 * (k * w) = 8 * w * k by ring]
  refine BitVec.eq_of_getLsbD_eq fun i hi => ?_
  rw [BitVec.getLsbD_ofNat, BitVec.getLsbD_ofNat, show 256 ^ j = 2 ^ (8 * j) by rw [Nat.pow_mul], Nat.testBit_div_two_pow, Nat.testBit_div_two_pow,
    testBit_elemOf, Nat.testBit_shiftRight, decide_eq_true (show i + 8 * j < 8 * w by omega), Bool.true_and]

/-- What a store of a row leaves of a byte, element by element. -/
theorem rowBytes_eq (x : Nat) {w : Nat} (at_ : Nat → Except Code Reach) (ks : List Nat) (key : Nat → Nat) (m : List Host.Cell) (b : Nat) :
    Bank.get 0 (setRuns m ((hereElems at_ ks).map fun y => (key y.1, (elemBytes x w y).2))) b = ks.foldl (fun old k => match at_ k with
      | .ok (.here _) => if key k ≤ b ∧ b < key k + w then BitVec.ofNat 8 (elemOf (8 * w) x k / 256 ^ (b - key k)) else old
      | _ => old) (Bank.get 0 m b) := by
  have hbyte (k : Nat) (old : Byte) (va : Nat) : (if key k ≤ b ∧ b < key k + (elemBytes x w (k, va)).2.length then
      (elemBytes x w (k, va)).2.getD (b - key k) 0 else old) =
      if key k ≤ b ∧ b < key k + w then BitVec.ofNat 8 (elemOf (8 * w) x k / 256 ^ (b - key k)) else old := by
    rw [elemBytes, length_toBytes]
    split
    · rw [byte_elemOf (by omega)]
    · rfl
  rw [get_setRuns, List.foldl_map]
  unfold hereElems
  rw [List.foldl_filterMap]
  refine congrArg (fun f => List.foldl f _ ks) (funext fun old => funext fun k => ?_)
  rcases at_ k with _ | _ | va | _
  · rfl
  · rfl
  · exact hbyte k old va
  · rfl

section
variable {s : State} {o : TensorIx} {t0 : Shape} {u : State} {m : BitVec 256} (h : inOrder s .st) (hshape : s.tensorShape .st o = .ok (t0, u))
  (hmap : u.mapOf .st t0 = .ok m)
  (hnear : nearElems (rowReach s t0 m o.sb (Fmt.width o.ty) .write) (activeElems (s.active o.pm) (Fmt.width o.ty)))
  (hbusy : s.recordBusy .st t0.recVa = false)
  (hc : s.conflicts .st (s.spadRanges (accessesOf (elemRuns (Fmt.width o.ty) (hereElems
    (rowReach s t0 m o.sb (Fmt.width o.ty) .write) (activeElems (s.active o.pm) (Fmt.width o.ty)))))) true = false)
  (hlock : s.lockOf (s.recKey t0.recVa) = none)
include h hshape hmap hnear hbusy hc hlock

theorem execVsx_ok :
    let w := Fmt.width o.ty
    let mine := hereElems (rowReach s t0 m o.sb w .write) (activeElems (s.active o.pm) w)
    let p := u.tearStores .st (s.genOf t0) o.nt (mine.map (elemBytes (s.vReg o.vd.toNat).toNat w))
    exec (.vsx o) s = p.2.lineStep .st ⟨true, 0, w, s.active o.pm, 0, [], [], [], p.1⟩ := by
  intro w mine p
  have hel := tensorElems_inOrder h t0 m .write o.sb (s.active o.pm) w
  show execVsx o s = _
  unfold execVsx
  rw [hshape]
  unfold orTrap
  dsimp only
  rw [hmap]
  dsimp only
  rw [pred_inOrder h, hel, faultOf_near hnear w]
  have htodo := addLines_near hnear w fun pkg va off l => addLine pkg va off w (toBytes w ((s.rdV .st o.vd).toNat >>> (8 * off)))
    ((s.genOf t0).map fun r => r.gen) (BitVec.ofNat 64 t0.recVa) l
  have hmine := hereElems_runs (at_ := rowReach s t0 m o.sb w .write) (ks := activeElems (s.active o.pm) w) w
  generalize (activeElems (s.active o.pm) w).map (fun k => (k * w, rowReach s t0 m o.sb w .write k)) = el at htodo hmine ⊢
  change (if (s.recordBusy .st t0.recVa || s.conflicts .st (s.spadRanges (accessesOf (el.filterMap (hereRun w)))) true) = true then s.trap .st .overlap
    else if (s.lockOf (s.recKey t0.recVa)).isSome = true then s.trap .st .mapLocked else
    (u.tearStores .st (s.genOf t0) o.nt (runBytes (s.rdV .st o.vd).toNat (el.filterMap (hereRun w)))).2.lineStep .st ⟨true, 0, w, s.active o.pm, 0,
      List.foldl _ [] el, [], [], (u.tearStores .st (s.genOf t0) o.nt (runBytes (s.rdV .st o.vd).toNat (el.filterMap (hereRun w)))).1⟩) = _
  rw [hmine, hbusy, if_neg (by rw [hc]; decide), hlock, if_neg (by decide), runBytes_elemRuns, rdV_inOrder h]
  rw [rdV_inOrder h] at htodo
  exact congrArg (fun l => p.2.lineStep .st ⟨true, 0, w, s.active o.pm, 0, l, [], [], p.1⟩) htodo

theorem vsx_torn : goesTo (exec (.vsx o) s) fun t => endsOrWaits s t .st := by
  have hcaches := (tensorShape_ok hshape).1
  have htimed : u.here.sys.timed = false := by rw [here_sameButCaches hcaches]; exact h.1
  rw [execVsx_ok h hshape hmap hnear hbusy hc hlock]
  generalize List.map _ _ = l
  obtain ⟨wc, hwc⟩ := here_onlyCombines (onlyCombines_tearStoresGen htimed .st (s.genOf t0) o.nt l)
  have hhere := here_sameButCaches hcaches
  exact lineStep_endsOrWaits (by rw [hwc, hhere]) (by rw [hwc, hhere]) rfl rfl

theorem vsx_whole (hb : s.holdsBack 1 = false) : goesTo (exec (.vsx o) s) fun t =>
    movesTo s t .st ((s.en .st).pc + 8) ∧ t.here.regs = s.here.regs ∧ t.here.sys = s.here.sys ∧
      t.spad = (((hereElems (rowReach s t0 m o.sb (Fmt.width o.ty) .write) (activeElems (s.active o.pm) (Fmt.width o.ty))).map
        (elemBytes (s.vReg o.vd.toNat).toNat (Fmt.width o.ty))).foldl (fun v x => v.storeGen .st (s.genOf t0) o.nt x.1 x.2) u).spad := by
  have hcaches := (tensorShape_ok hshape).1
  have hhere := here_sameButCaches hcaches
  have htear (l : List (Nat × List Byte)) : u.tearStores .st (s.genOf t0) o.nt l =
      ([], l.foldl (fun v x => v.storeGen .st (s.genOf t0) o.nt x.1 x.2) u) := by
    have hbu : u.holdsBack 1 = false := by
      unfold State.holdsBack at hb ⊢
      rw [hhere, hcaches]
      exact hb
    unfold State.tearStores
    rw [hbu, if_neg Bool.false_ne_true]
  rw [execVsx_ok h hshape hmap hnear hbusy hc hlock, htear]
  generalize List.map _ _ = l
  have honly := onlyCombines_storeGens (show u.here.sys.timed = false by rw [hhere]; exact h.1) .st (s.genOf t0) o.nt l
  dsimp only
  generalize l.foldl (fun v x => v.storeGen .st (s.genOf t0) o.nt x.1 x.2) u = v at honly ⊢
  obtain ⟨wc, hwc⟩ := here_onlyCombines honly
  rw [lineStep_near v .st rfl rfl, if_pos ⟨rfl, rfl⟩]
  exact goesTo_imp (ends_moves (s := s) (u := v) (by rw [hwc, hhere])) fun t ⟨hmove, hrest, hstill, hregs⟩ =>
    ⟨hmove, hregs.trans (by rw [hwc, hhere]), (congrArg Core.sys hstill :).trans (by rw [hwc, hhere]; rfl), rest_spad hrest⟩

end

/-! The statement -/

/-- The formats whose elements are whole bytes of a lane. -/
theorem bits_eq {ty : Fmt} (h : ty.bits / 8 = 1 ∨ ty.bits / 8 = 2 ∨ ty.bits / 8 = 4) : ty.bits = 8 * (ty.bits / 8) := by
  revert h
  cases ty <;> decide

/-- Settles O41: each word is its elements, put together or stored one by one, and the end of an access that sends nothing. -/
theorem tensorIndexAccesses : Obligations.TensorIndexAccesses := by
  unfold Obligations.TensorIndexAccesses
  intro s o t0 u m w lanes at_ ks mine near waits ends hw
  have hbits : o.ty.bits = 8 * w := bits_eq hw
  have hmine (kind : RKind) : mine kind = accessesOf (elemRuns w (hereElems (at_ kind) ks)) := hereElems_accesses w
  refine ⟨fun hin hshape hmap hnear hc => ?_, fun hin hshape hmap hnear hbusy hc hlock => ?_⟩
  · rw [hmine] at hc
    by_cases hb : s.holdsBack 1 = true
    · simp only [if_pos hb]
      exact vldx_torn hin hshape hmap hnear hc
    · simp only [if_neg hb]
      obtain ⟨hcaches, hfill⟩ := tensorShape_ok hshape
      rw [hbits] at hfill
      refine goesTo_imp (vldx_whole hin hshape hmap hnear hc (Bool.eq_false_iff.mpr hb)) fun t ⟨hmove, hspad, hhbm, hsys, hlanes⟩ =>
        ⟨hmove, hspad, hhbm, hsys, hlanes.2.1, fun k hk => ?_⟩
      obtain ⟨hlt, hlane⟩ := elem_in_lane hw hk
      have helem := elemOf_writesLanes hlanes hlt hlane
      obtain ⟨houtside, hhere⟩ := elemOf_row (u := u) hfill (at_ .read) (nodup_activeElems lanes w) (k := k)
      refine ⟨fun hbit => by rw [helem, if_neg (by rw [hbit]; decide)], fun hks hat => ?_, fun va key hks hat hwin => ?_⟩
      · rw [helem, if_pos (mem_activeElems.mp hks).2, Nat.mod_eq_of_lt hfill]
        exact houtside hks hat
      · rw [helem, if_pos (mem_activeElems.mp hks).2]
        refine (hhere va key hks hat ((window_sameButCaches hcaches va w).trans hwin)).trans ?_
        rw [hcaches]
  · rw [hmine] at hc
    by_cases hb : s.holdsBack 1 = true
    · simp only [if_pos hb]
      exact vsx_torn hin hshape hmap hnear hbusy hc hlock
    · simp only [if_neg hb]
      obtain ⟨hcaches, -⟩ := tensorShape_ok hshape
      refine goesTo_imp (vsx_whole hin hshape hmap hnear hbusy hc hlock (Bool.eq_false_iff.mpr hb)) fun t ⟨hmove, hregs, hsys, hspad⟩ =>
        ⟨hmove, hregs, hsys, fun key hkey b => ?_⟩
      have hwin (y : Nat × Nat) (hy : y ∈ hereElems (at_ .write) ks) : window u.cur.core u.here (elemBytes (s.vReg o.vd.toNat).toNat w y).1
          (elemBytes (s.vReg o.vd.toNat).toNat w y).2.length = .ok (.spad (key y.1)) := by
        obtain ⟨hk, hat⟩ := mem_hereElems.mp hy
        rw [elemBytes, length_toBytes, window_sameButCaches hcaches]
        exact hkey y.1 hk y.2 hat
      have htimed : u.here.sys.timed = false := by rw [here_sameButCaches hcaches]; exact hin.1
      have hu : u.spad = s.spad := by rw [hcaches]
      change t.spad = (((hereElems (at_ .write) ks).map (elemBytes (s.vReg o.vd.toNat).toNat w)).foldl
        (fun v x => v.storeGen .st (s.genOf t0) o.nt x.1 x.2) u).spad at hspad
      rw [storeGens_windows_gen _ (fun y : Nat × Nat => key y.1) .st (s.genOf t0) o.nt _ htimed hwin] at hspad
      unfold State.spadByte
      rw [hspad, hu]
      exact rowBytes_eq _ (at_ .write) ks key s.spad b

end Sys2Proof.Machine
end

section
/-! PROOFS. What memory operations and the ends of commands leave alone (R143, R178, R268, R280, R287). -/

namespace Sys2Proof.Machine

/-! Operations on memory -/

/-- Only memory differs: the scratchpads, the copy of record with its tags and reservations, and the caches. -/
def onlyMemory (s t : State) : Prop :=
  t = { s with spad := t.spad, hbm := t.hbm, dies := t.dies, llc := t.llc, tags := t.tags, ntDue := t.ntDue, trans := t.trans, resvs := t.resvs }

theorem onlyMemory_refl (s : State) : onlyMemory s s := rfl

theorem onlyMemory_trans {s t u : State} (h : onlyMemory s t) (g : onlyMemory t u) : onlyMemory s u := by
  unfold onlyMemory at *
  rw [g, h]

theorem onlyMemory_sameButCaches {s t : State} (h : sameButCaches s t) : onlyMemory s t := by
  unfold onlyMemory
  rw [h]

theorem onlyMemory_homeTo (s : State) (hbm : List Host.Cell) (a n : Nat) : onlyMemory s (homeTo s hbm a n) := rfl

theorem onlyMemory_setDie (s : State) (d : Nat) (x : Die) : onlyMemory s (s.setDie d x) := rfl

theorem onlyMemory_countDrop (s : State) (g : GenRef) : onlyMemory s (countDrop s g) := by
  unfold countDrop
  dsimp only
  split
  · rfl
  · split
    · rfl
    · rfl
  · rfl

theorem onlyMemory_admitGen (s : State) (line : Nat) (g : Option GenRef) : onlyMemory s (admitGen s line g).2 := by
  cases g with
  | none => exact onlyMemory_refl s
  | some r =>
    unfold admitGen
    dsimp only
    split
    · exact onlyMemory_countDrop s r
    · rfl

theorem onlyMemory_drainAt (s : State) (d n : Nat) : onlyMemory s (drainAt s d n) := by
  unfold drainAt
  dsimp only
  split
  · exact onlyMemory_refl s
  · next b _ =>
    have hadmit := onlyMemory_admitGen s (b.phys / 128) b.gen
    split
    · refine onlyMemory_trans hadmit ?_
      split <;> rfl
    · exact onlyMemory_trans hadmit rfl

theorem onlyMemory_drainNeeded (d : Nat) (need : BufStore → Bool) (n : Nat) (s : State) : onlyMemory s (drainNeeded d need n s) := by
  induction n generalizing s with
  | zero => exact onlyMemory_refl s
  | succ n ih =>
    unfold drainNeeded
    split
    · exact onlyMemory_trans (onlyMemory_drainAt s d _) (ih _)
    · exact onlyMemory_refl s

theorem onlyMemory_performBefore (s : State) (c : Nat) : onlyMemory s (s.performBefore c) := onlyMemory_drainNeeded _ _ _ s

theorem onlyMemory_writeHome {c : Nat} {asid : BitVec 12} {l : List Piece} {bs : List Byte} {s t : State} (h : writeHome c asid l bs s = .ok t) :
    onlyMemory s t := by
  induction l generalizing bs s with
  | nil =>
    cases h
    exact onlyMemory_refl _
  | cons p l ih =>
    obtain ⟨va, n⟩ := p
    unfold writeHome at h
    split at h
    · cases h
    · next key _ =>
      have hspad : onlyMemory s { s with spad := Bank.setRun 0 s.spad key (bs.take n) } := rfl
      exact onlyMemory_trans hspad (ih h)
    · split at h
      · cases h
      · split at h
        · cases h
        · have hlearn (tr : Trans) := onlyMemory_sameButCaches (sameButCaches_learn s (dieOf c) asid va tr true)
          exact onlyMemory_trans (hlearn _) (onlyMemory_trans (onlyMemory_homeTo _ _ _ _) (ih h))

theorem onlyMemory_commandWrite {c : Nat} {asid : BitVec 12} {va : Nat} {bs : List Byte} {s t : State} (h : s.commandWrite c asid va bs = .ok t) :
    onlyMemory s t := by
  unfold State.commandWrite at h
  split at h
  · cases h
  · split at h
    · cases h
      rfl
    · exact onlyMemory_writeHome h
    · cases h

theorem onlyMemory_barUpdate {s t : State} {key : Nat} {arrive : Bool} {x : BitVec 32} (h : s.barUpdate key arrive x = .ok t) : onlyMemory s t := by
  unfold State.barUpdate at h
  dsimp only at h
  split at h
  · cases h
  · split at h
    · cases h
    · generalize (if arrive then s.spadNat (key + 4) 2 - 1 else s.spadNat (key + 4) 2) = arr at h
      split at h
      · cases h
        rfl
      · cases h
        rfl

theorem onlyMemory_applyAt (s : State) (key : Nat) (write : Bool) (value : Word) : onlyMemory s (s.applyAt key write value) := by
  unfold State.applyAt
  split
  · rfl
  · split
    · next h => exact onlyMemory_barUpdate h
    · exact onlyMemory_refl s

theorem onlyMemory_applySignal (s : State) (c addr : Nat) (write : Bool) (value : Word) : onlyMemory s (s.applySignal c addr write value) := by
  unfold State.applySignal
  split
  · exact onlyMemory_applyAt s _ write value
  · exact onlyMemory_refl s

theorem cores_onlyMemory {s t : State} (h : onlyMemory s t) : t.cores = s.cores := by rw [h]

theorem copies_onlyMemory {s t : State} (h : onlyMemory s t) : t.copies = s.copies := by rw [h]

theorem cur_onlyMemory {s t : State} (h : onlyMemory s t) : t.cur = s.cur := by rw [h]

/-! The ends of commands (R268, R280, R287) -/

/-- No engine and no register of any core changes, nor what has been written there, nor the mode. -/
def keepsWork (s t : State) : Prop := t.cur = s.cur ∧ ∀ c, (t.core c).eng = (s.core c).eng ∧ (t.core c).regs = (s.core c).regs ∧
  (t.core c).races = (s.core c).races ∧ (t.core c).sys.timed = (s.core c).sys.timed

theorem keepsWork_refl (s : State) : keepsWork s s := ⟨rfl, fun _ => ⟨rfl, rfl, rfl, rfl⟩⟩

theorem keepsWork_trans {s t u : State} (h : keepsWork s t) (g : keepsWork t u) : keepsWork s u := by
  refine ⟨g.1.trans h.1, fun c => ?_⟩
  obtain ⟨h1, h2, h3, h4⟩ := h.2 c
  obtain ⟨g1, g2, g3, g4⟩ := g.2 c
  exact ⟨g1.trans h1, g2.trans h2, g3.trans h3, g4.trans h4⟩

theorem keepsWork_of_cores {s t : State} (hcur : t.cur = s.cur) (hcores : t.cores = s.cores) : keepsWork s t :=
  ⟨hcur, fun c => by rw [core_eq hcores]; exact ⟨rfl, rfl, rfl, rfl⟩⟩

theorem keepsWork_onlyMemory {s t : State} (h : onlyMemory s t) : keepsWork s t := keepsWork_of_cores (cur_onlyMemory h) (cores_onlyMemory h)

theorem keepsWork_setCore (s : State) (c : Nat) {k : Core} (he : k.eng = (s.core c).eng) (hg : k.regs = (s.core c).regs)
    (hr : k.races = (s.core c).races) (ht : k.sys.timed = (s.core c).sys.timed) : keepsWork s (s.setCore c k) := by
  refine ⟨rfl, fun d => ?_⟩
  rw [core_setCore]
  split
  · next hd => rw [hd]; exact ⟨he, hg, hr, ht⟩
  · exact ⟨rfl, rfl, rfl, rfl⟩

theorem inOrder_keepsWork {s t : State} (h : keepsWork s t) {e : Eng} (ho : inOrder s e) : inOrder t e := by
  obtain ⟨he, -, hr, ht⟩ := h.2 s.cur.core
  unfold inOrder State.here Core.en at *
  rw [h.1, hr, ht, he]
  exact ho

theorem retire_keeps (s : State) (inst : Nat) (p : BitVec 32) :
    keepsWork s (s.retire inst p) ∧ (s.retire inst p).copies = s.copies ∧ (s.retire inst p).spad = s.spad := by
  have hstart : ∃ u : State, keepsWork s u ∧ u.copies = s.copies ∧ u.spad = s.spad ∧
      s.retire inst p = (u.tellWatchers fun w => decide (w.inst = inst) && decide (w.pred = p)).flushLog inst := by
    unfold State.retire
    dsimp only
    split
    · next c _ => exact ⟨s.setCore c ((s.core c).retireNo p), keepsWork_setCore s c rfl rfl rfl rfl, rfl, rfl, rfl⟩
    · exact ⟨{ s with saved := s.saved.map fun v => if v.inst = inst then { v with live := v.live.filter fun q => decide (q ≠ p) } else v },
        keepsWork_of_cores rfl rfl, rfl, rfl, rfl⟩
  obtain ⟨u, hwork, hcopies, hspad, hretire⟩ := hstart
  rw [hretire, flushLog_spec, tellWatchers_spec]
  exact ⟨keepsWork_trans hwork (keepsWork_of_cores rfl rfl), hcopies, hspad⟩

theorem taskEvent_keeps (s : State) (inst : Nat) (ev : AsyncEv) :
    keepsWork s (s.taskEvent inst ev) ∧ (s.taskEvent inst ev).copies = s.copies := by
  unfold State.taskEvent
  split
  · refine ⟨keepsWork_setCore s _ ?_ ?_ ?_ ?_, rfl⟩ <;> unfold Core.pushEvent <;> split <;> rfl
  · exact ⟨keepsWork_of_cores rfl rfl, rfl⟩

theorem copyEvent_keeps (s : State) (c : Copy) (code : Code) (addr : Nat) :
    keepsWork s (s.copyEvent c code addr) ∧ (s.copyEvent c code addr).copies = s.copies := by
  unfold State.copyEvent State.commandEvent State.logCommand
  rw [flushLog_spec]
  obtain ⟨hwork, hcopies⟩ := taskEvent_keeps { s with log := _, logWait := _ } c.inst (commandCause code 0 c.seq addr)
  exact ⟨keepsWork_trans (keepsWork_of_cores rfl rfl) hwork, hcopies⟩

theorem endCopy_keeps (s : State) (c : Copy) : keepsWork s (s.endCopy c) ∧
    (s.endCopy c).copies = s.copies.filter (fun d => !decide (d.inst = c.inst ∧ d.seq = c.seq)) ∧ (s.endCopy c).spad = s.spad := by
  obtain ⟨hwork, hcopies, hspad⟩ := retire_keeps { s with copies := s.copies.filter fun d => !decide (d.inst = c.inst ∧ d.seq = c.seq) } c.inst c.seq
  exact ⟨keepsWork_trans (keepsWork_of_cores rfl rfl) hwork, hcopies, hspad⟩

/-- Whatever becomes of its record, a copy that is closed is gone, and its number with it. -/
theorem closeCopy_keeps (s : State) (c : Copy) (status : Nat) (fault : Code) (faddr : Nat) {act : State → State} (hact : ∀ u, onlyMemory u (act u)) :
    keepsWork s (s.closeCopy c status fault faddr act) ∧
      (s.closeCopy c status fault faddr act).copies = s.copies.filter (fun d => !decide (d.inst = c.inst ∧ d.seq = c.seq)) := by
  have hend (u : State) (hu : onlyMemory s u) : keepsWork s ((act u).endCopy c) ∧
      ((act u).endCopy c).copies = s.copies.filter (fun d => !decide (d.inst = c.inst ∧ d.seq = c.seq)) := by
    have hmem := onlyMemory_trans hu (hact u)
    obtain ⟨hwork, hcopies, -⟩ := endCopy_keeps (act u) c
    exact ⟨keepsWork_trans (keepsWork_onlyMemory hmem) hwork, by rw [hcopies, copies_onlyMemory hmem]⟩
  unfold State.closeCopy
  split
  · exact hend s (onlyMemory_refl s)
  · split
    · next h => exact hend _ (onlyMemory_commandWrite h)
    · obtain ⟨hwork, hcopies, -⟩ := endCopy_keeps s c
      obtain ⟨ework, ecopies⟩ := copyEvent_keeps (s.endCopy c) c ‹Code› c.recaddr
      exact ⟨keepsWork_trans hwork ework, ecopies.trans hcopies⟩

end Sys2Proof.Machine
end

section
/-! PROOFS. Copy words: the checks at issue, the number a copy takes, and cpcancel (R177, R178, R185, R267 to R269). -/

namespace Sys2Proof.Machine

/-! What the checks of a copy leave of it (R177, R178) -/

/-- A copy that is prepared keeps what its issue gives it. -/
def sameIssue (c d : Copy) : Prop :=
  d.core = c.core ∧ d.inst = c.inst ∧ d.seq = c.seq ∧ d.kind = c.kind ∧ d.preds = c.preds ∧ d.engine = c.engine ∧ d.landed = c.landed

theorem sameIssue_refl (c : Copy) : sameIssue c c := ⟨rfl, rfl, rfl, rfl, rfl, rfl, rfl⟩

theorem sameIssue_trans {c d e : Copy} (h : sameIssue c d) (g : sameIssue d e) : sameIssue c e := by
  obtain ⟨h1, h2, h3, h4, h5, h6, h7⟩ := h
  obtain ⟨g1, g2, g3, g4, g5, g6, g7⟩ := g
  exact ⟨g1.trans h1, g2.trans h2, g3.trans h3, g4.trans h4, g5.trans h5, g6.trans h6, g7.trans h7⟩

theorem readRows_ok {s u : State} {c d : Copy} (h : s.readRows c = .ok (d, u)) : sameIssue c d ∧ sameButCaches s u := by
  unfold State.readRows at h
  dsimp only at h
  split at h
  · cases h
  · next hcnt =>
    have hfirst : sameIssue c ‹Copy› ∧ sameButCaches s ‹State› := by
      split at hcnt
      · split at hcnt
        · cases hcnt
        · cases hcnt
          exact ⟨⟨rfl, rfl, rfl, rfl, rfl, rfl, rfl⟩, sameButCaches_load s _ _⟩
      · cases hcnt
        exact ⟨sameIssue_refl _, sameButCaches_refl _⟩
    split at h
    · split at h
      · cases h
      · split at h
        · cases h
          exact hfirst
        · split at h
          · cases h
          · cases h
            exact ⟨sameIssue_trans hfirst.1 ⟨rfl, rfl, rfl, rfl, rfl, rfl, rfl⟩, sameButCaches_trans hfirst.2 (sameButCaches_load _ _ _)⟩
    · cases h
      exact hfirst

theorem prepareCopy_ok {s u : State} {c d : Copy} (h : s.prepareCopy c = .ok (d, u)) : sameIssue c d ∧ sameButCaches s u := by
  unfold State.prepareCopy at h
  split at h
  · cases h
  · split at h
    · split at h
      · cases h
      · split at h
        · cases h
        · cases h
          exact ⟨sameIssue_refl _, sameButCaches_refl _⟩
    · split at h
      · cases h
      · next hshape =>
        split at h
        · cases h
        · cases h
        · next hrows =>
          obtain ⟨hissue, hcaches⟩ := readRows_ok hrows
          dsimp only at h
          split at h
          · cases h
          · cases h
            exact ⟨sameIssue_trans hissue ⟨rfl, rfl, rfl, rfl, rfl, rfl, rfl⟩,
              sameButCaches_trans (sameButCaches_readShape hshape) (sameButCaches_trans hcaches (sameButCaches_load _ _ _))⟩

/-! Numbers (R267, R268) -/

theorem eng_wrS (s : State) (e : Eng) (sd : SReg) (x : Word) : (s.wrS e sd x).here.eng = s.here.eng := by
  unfold State.wrS
  split
  · rfl
  · exact eng_wr s e _ _ _

/-- What the end of a word keeps of a core. -/
theorem field_of_still {α : Type} (f : Core → α) (hf : ∀ k : Core, f k.still = f k) {k u : Core} (h : u.still = k.still) : f u = f k := by
  rw [← hf, h, hf]

/-- A core after a command of it has taken number n. -/
def withNumber (n : BitVec 32) (mark : List Mark) (k : Core) : Core :=
  { k with live := k.live ++ [n], pend0 := none, pend1 := none, marks := k.marks ++ mark
           sys := { k.sys with next := n + 1, rmark := markOf (n + 1) (k.live ++ [n]) } }

theorem takeNumber_eq (s : State) (sd : SReg) (rd wr : Option (Nat × Nat)) (obj : Option Nat) : ∃ p mark, onlyMemory s p ∧
    s.takeNumber sd rd wr obj = (({ p with nextId := p.nextId + 1 } : State).upd (withNumber s.here.sys.next mark)).wrS .sq sd (zx s.here.sys.next) :=
  ⟨_, _, onlyMemory_performBefore s s.cur.core, rfl⟩

/-- A command takes the next number: sd receives it, and the pending predecessors are used up. -/
theorem takeNumber_spec {s : State} (h : inOrder s .sq) (sd : SReg) (rd wr : Option (Nat × Nat)) (obj : Option Nat) :
    let t := s.takeNumber sd rd wr obj
    t.here.eng = s.here.eng ∧ t.copies = s.copies ∧ t.here.sys.next = s.here.sys.next + 1 ∧ t.here.live = s.here.live ++ [s.here.sys.next] ∧
      t.here.pend0 = none ∧ t.here.pend1 = none ∧ ∀ r, t.sReg r = if r = sd ∧ sd ≠ 0 then s.here.sys.next.zeroExtend 64 else s.sReg r := by
  obtain ⟨p, mark, hmem, heq⟩ := takeNumber_eq s sd rd wr obj
  have hhere : ({ p with nextId := p.nextId + 1 } : State).here = s.here := by
    unfold State.here State.core
    dsimp only
    rw [cores_onlyMemory hmem, cur_onlyMemory hmem]
  have hf : (({ p with nextId := p.nextId + 1 } : State).upd (withNumber s.here.sys.next mark)).here = withNumber s.here.sys.next mark s.here := by
    rw [here_upd, hhere]
  have hcopies : (({ p with nextId := p.nextId + 1 } : State).upd (withNumber s.here.sys.next mark)).copies = s.copies :=
    show p.copies = s.copies from copies_onlyMemory hmem
  rw [heq]
  generalize ({ p with nextId := p.nextId + 1 } : State).upd (withNumber s.here.sys.next mark) = q at hf hcopies ⊢
  have hin : inOrder q .sq := by
    unfold inOrder
    rw [hf]
    exact h
  obtain ⟨wrest, -, -, wstill, -, wreg⟩ := wrS_inOrder hin sd (zx s.here.sys.next)
  have hreg (r : SReg) : q.sReg r = s.sReg r := by unfold State.sReg; rw [hf]; rfl
  rw [hf] at wstill
  refine ⟨(eng_wrS q .sq sd _).trans (by rw [hf]; rfl), (congrArg (fun v : State => v.copies) wrest :).trans hcopies,
    field_of_still (fun k => k.sys.next) (fun _ => rfl) wstill, field_of_still (fun k => k.live) (fun _ => rfl) wstill, field_of_still (fun k => k.pend0) (fun _ => rfl) wstill,
    field_of_still (fun k => k.pend1) (fun _ => rfl) wstill, fun r => ?_⟩
  rw [wreg, hreg]
  rfl

/-! The words (R178, R185) -/

/-- A copy word whose checks pass takes a number and forks its copy. -/
theorem copyWord_ok {s : State} (h : inOrder s .sq) {kind : Nat} (sd : SReg) {sa : SReg} {c : Copy} {u : State} {pl : Place} (hp : s.here.predsOk = true)
    (hn : s.here.canNumber = true) (hb : s.blockPlace (s.sReg sa).toNat 128 128 .read = .ok pl)
    (hc : (s.load (s.sReg sa).toNat 128).2.prepareCopy ((s.load (s.sReg sa).toNat 128).2.newCopy kind (s.load (s.sReg sa).toNat 128).1) = .ok (c, u))
    (hreads : s.conflicts .sq (s.spadRanges (c.issueReads (s.sReg sa).toNat (s.load (s.sReg sa).toNat 128).1)) false = false)
    (hranges : s.issueConflict .sq (s.copyRanges c c.shapeRec).1 (s.copyRanges c c.shapeRec).2 s.here.preds = false)
    (hlock : c.writes = true → s.lockOf (s.recKey c.shapeAddr) = none) : ∃ rd wr obj, copyWord kind sd sa s =
      ({ u.takeNumber sd rd wr obj with copies := (u.takeNumber sd rd wr obj).copies ++ [c] } : State).done .sq := by
  refine ⟨(s.copyRanges c c.shapeRec).1, (s.copyRanges c c.shapeRec).2, (s.completionKey c).map BitVec.toNat, ?_⟩
  have hlocked : (c.writes && (s.lockOf (s.recKey c.shapeAddr)).isSome) = false := by
    cases hw : c.writes with
    | false => rfl
    | true => rw [hlock hw]; rfl
  unfold copyWord orTrap
  dsimp only
  rw [rdS_inOrder h, hp, hn, hb]
  dsimp only
  rw [hc]
  dsimp only
  rw [hreads, hranges, hlocked]
  rfl

/-- Copies that are closed one after another: all of one task's number that is among them are gone. -/
theorem closeCopies_keeps (l : List Copy) (s : State) : keepsWork s (l.foldl (fun s c => s.closeCopy c 2 0 0 id) s) ∧
    ∀ d, d ∈ (l.foldl (fun s c => s.closeCopy c 2 0 0 id) s).copies ↔ d ∈ s.copies ∧ ∀ c ∈ l, ¬ (d.inst = c.inst ∧ d.seq = c.seq) := by
  induction l generalizing s with
  | nil => exact ⟨keepsWork_refl s, fun d => by simp⟩
  | cons c l ih =>
    obtain ⟨hwork, hcopies⟩ := closeCopy_keeps s c 2 0 0 (act := id) fun u => onlyMemory_refl u
    obtain ⟨lwork, lcopies⟩ := ih (s.closeCopy c 2 0 0 id)
    refine ⟨keepsWork_trans hwork lwork, fun d => ?_⟩
    rw [List.foldl_cons, lcopies, hcopies, List.mem_filter, List.forall_mem_cons, and_assoc, Bool.not_eq_true', decide_eq_false_iff_not]

theorem execCpcancel_ok (s : State) (sd : SReg) :
    let out := s.copies.filter fun c => decide (c.core = s.cur.core) && c.engine.isNone
    exec (.cpcancel sd) s = ((out.foldl (fun s c => s.closeCopy c 2 0 0 id) s).wrS .sq sd (BitVec.ofNat 64 out.length)).done .sq := rfl

/-- Settles O45: a copy word is its checks and the taking of a number, cpcancel the closing of what has not started. -/
theorem copiesFork : Obligations.CopiesFork := by
  unfold Obligations.CopiesFork
  intro s sd sa hin
  refine ⟨fun i kind c u pl hi hp hn hb hc hreads hranges hlock => ?_, ?_⟩
  · have hexec : exec i s = copyWord kind sd sa s := by
      simp only [List.mem_cons, Prod.mk.injEq, List.not_mem_nil, or_false] at hi
      rcases hi with ⟨rfl, rfl⟩ | ⟨rfl, rfl⟩ | ⟨rfl, rfl⟩ | ⟨rfl, rfl⟩ | ⟨rfl, rfl⟩ <;> rfl
    obtain ⟨rd, wr, obj, hok⟩ := copyWord_ok hin sd hp hn hb hc hreads hranges hlock
    obtain ⟨⟨hcore, hinst, hseq, hkind, hpreds, heng, hlanded⟩, hcaches⟩ := prepareCopy_ok hc
    have hblock : sameButCaches s (s.load (s.sReg sa).toNat 128).2 := sameButCaches_load s _ _
    have hu := sameButCaches_trans hblock hcaches
    have hhere := here_sameButCaches hu
    obtain ⟨teng, tcopies, tnext, tlive, tpend0, tpend1, treg⟩ := takeNumber_spec (inOrder_sameButCaches hu hin) sd rd wr obj
    rw [hexec, hok]
    generalize u.takeNumber sd rd wr obj = v at teng tcopies tnext tlive tpend0 tpend1 treg ⊢
    refine goesTo_imp (ends_moves (s := s) (u := { v with copies := v.copies ++ [c] }) (teng.trans (by rw [hhere]))) fun t ⟨hmove, hrest, hstill, hregs⟩ => ?_
    have hseq' : c.seq = s.here.sys.next := hseq.trans (by rw [← here_sameButCaches hblock]; rfl)
    have hblockHere := here_sameButCaches hblock
    rw [hhere] at tnext tlive
    refine ⟨hmove, ?_, hcore.trans (congrArg Cur.core (cur_sameButCaches hblock)), hinst.trans (congrArg Core.inst hblockHere), hseq', hkind,
      hpreds.trans (congrArg (fun k : Core => k.pend0.toList ++ k.pend1.toList) hblockHere), heng, hlanded,
      (field_of_still (fun k => k.sys.next) (fun _ => rfl) hstill).trans tnext,
      (field_of_still (fun k => k.live) (fun _ => rfl) hstill).trans (by rw [hseq']; exact tlive),
      (field_of_still (fun k => k.pend0) (fun _ => rfl) hstill).trans tpend0,
      (field_of_still (fun k => k.pend1) (fun _ => rfl) hstill).trans tpend1, fun r => ?_⟩
    · have hcopies : t.copies = v.copies ++ [c] := (congrArg (fun v : State => v.copies) hrest :)
      rw [hcopies, tcopies, copies_onlyMemory (onlyMemory_sameButCaches hu)]
    · have hreg := treg r
      unfold State.sReg at hreg ⊢
      rw [hhere] at hreg
      rw [hregs, hseq']
      exact hreg
  · rw [execCpcancel_ok]
    obtain ⟨hwork, hcopies⟩ := closeCopies_keeps (s.copies.filter fun c => decide (c.core = s.cur.core) && c.engine.isNone) s
    generalize (s.copies.filter fun c => decide (c.core = s.cur.core) && c.engine.isNone) = out at hwork hcopies ⊢
    generalize out.foldl (fun s c => s.closeCopy c 2 0 0 id) s = v at hwork hcopies ⊢
    obtain ⟨wrest, -, -, -, -, wreg⟩ := wrS_inOrder (inOrder_keepsWork hwork hin) sd (BitVec.ofNat 64 out.length)
    obtain ⟨heng, hregs, -⟩ := hwork.2 s.cur.core
    have hcore : v.here = v.core s.cur.core := congrArg v.core (congrArg Cur.core hwork.1)
    refine goesTo_imp (ends_moves (s := s) (u := v.wrS .sq sd _) ((eng_wrS v .sq sd _).trans (by rw [hcore]; exact heng)))
      fun t ⟨hmove, hrest, _, tregs⟩ => ?_
    have tcopies : t.copies = v.copies := (congrArg (fun v : State => v.copies) (hrest.trans wrest) :)
    refine ⟨hmove, fun c hc => ?_, fun c hc hnot => ?_, fun r => ?_⟩
    · rw [tcopies] at hc
      obtain ⟨hmem, hgone⟩ := (hcopies c).mp hc
      exact ⟨hmem, fun hout => hgone c hout ⟨rfl, rfl⟩⟩
    · rw [tcopies]
      exact (hcopies c).mpr ⟨hc, hnot⟩
    · rw [sReg_congr tregs, wreg]
      unfold State.sReg
      rw [hcore, hregs]
      rfl

end Sys2Proof.Machine
end

section
/-! PROOFS. How copies end, and how they start (R181 to R184, R268, R275). -/

namespace Sys2Proof.Machine

/-! One copy among the others -/

/-- A copy is the only one of its task and its number. -/
def onlyOfNumber (s : State) (c : Copy) : Prop := c ∈ s.copies ∧ ∀ d ∈ s.copies, d.inst = c.inst → d.seq = c.seq → d = c

/-- A copy is gone, and no other. -/
def copyEnds (s : State) (c : Copy) (t : State) : Prop := t.copies = s.copies.filter fun d => decide (d ≠ c)

/-- A copy stands in the place of another. -/
def copyBecomes (s : State) (c c' : Copy) (t : State) : Prop := t.copies = s.copies.map fun d => if d = c then c' else d

section
variable {s : State} {c : Copy} (ho : onlyOfNumber s c)
include ho

theorem sameNumber_iff {d : Copy} (hd : d ∈ s.copies) : d.inst = c.inst ∧ d.seq = c.seq ↔ d = c :=
  ⟨fun h => ho.2 d hd h.1 h.2, fun h => h ▸ ⟨rfl, rfl⟩⟩

/-- To take away every copy of a copy's number is to take away that copy. -/
theorem copyEnds_of_filter {t : State} (h : t.copies = s.copies.filter fun d => !decide (d.inst = c.inst ∧ d.seq = c.seq)) : copyEnds s c t := by
  refine h.trans (List.filter_congr fun d hd => ?_)
  rw [decide_eq_decide.mpr (sameNumber_iff ho hd), decide_not]

/-- To put a copy back is to replace the one of its number. -/
theorem copyBecomes_putCopy {c' : Copy} (hi : c'.inst = c.inst) (hs : c'.seq = c.seq) : copyBecomes s c c' (s.putCopy c') :=
  List.map_congr_left fun d hd => by rw [hi, hs]; exact if_congr (sameNumber_iff ho hd) rfl rfl

end

/-- A copy that was put back ends as any. -/
theorem filter_putCopy (s : State) (c : Copy) :
    (s.putCopy c).copies.filter (fun d => !decide (d.inst = c.inst ∧ d.seq = c.seq)) = s.copies.filter fun d => !decide (d.inst = c.inst ∧ d.seq = c.seq) := by
  unfold State.putCopy
  dsimp only
  induction s.copies with
  | nil => rfl
  | cons d l ih =>
    rw [List.map_cons]
    by_cases hd : d.inst = c.inst ∧ d.seq = c.seq
    · rw [if_pos hd, List.filter_cons_of_neg (by simp), List.filter_cons_of_neg (by simp [hd]), ih]
    · rw [if_neg hd, List.filter_cons_of_pos (by rw [decide_eq_false hd]; rfl), List.filter_cons_of_pos (by rw [decide_eq_false hd]; rfl), ih]

/-- A copy of a core is found by its number. -/
theorem copyOf_eq {s : State} {c : Copy} (hc : c ∈ s.copies) (ho : ∀ d ∈ s.copies, d.core = c.core → d.seq = c.seq → d = c) :
    s.copyOf c.core c.seq = some c := by
  unfold State.copyOf
  cases h : s.copies.find? fun d => decide (d.core = c.core ∧ d.seq = c.seq) with
  | none => exact absurd (List.find?_eq_none.mp h c hc) (by simp)
  | some d =>
    have hd := List.find?_some h
    obtain ⟨hcore, hseq⟩ := of_decide_eq_true hd
    rw [ho d (List.mem_of_find?_eq_some h) hcore hseq]

/-! Ends (R182, R183) -/

/-- A copy with no write on its way that fails is gone. -/
theorem failCopy_copies {s : State} {c : Copy} (hw : s.copyWriting c = false) (code : Code) (faddr : Nat) :
    (s.failCopy c code faddr).copies = s.copies.filter fun d => !decide (d.inst = c.inst ∧ d.seq = c.seq) := by
  have hend {u : State} (hu : onlyMemory s u) : ((u.endCopy c).copyEvent c code faddr).copies =
      s.copies.filter fun d => !decide (d.inst = c.inst ∧ d.seq = c.seq) := by
    rw [(copyEvent_keeps _ c code faddr).2, (endCopy_keeps u c).2.1, copies_onlyMemory hu]
  unfold State.failCopy
  rw [hw, if_neg Bool.false_ne_true]
  refine hend ?_
  split
  · next h =>
    split
    · exact onlyMemory_refl s
    · exact onlyMemory_commandWrite h
  · exact onlyMemory_refl s

theorem recordFault_none {s : State} {c : Copy} (h : c.recaddr = 0) : s.recordFault c = none := if_pos h

/-- A copy with no signal to another package that has landed is gone, whatever its record meets. -/
theorem finishCopy_copies {s : State} {c : Copy} (hr : c.isRemote = false) (hw : c.recaddr ≠ 0 → s.copyWriting c = false) (total last : Nat) :
    (s.finishCopy c total last).copies = s.copies.filter fun d => !decide (d.inst = c.inst ∧ d.seq = c.seq) := by
  unfold State.finishCopy
  split
  · next h => exact failCopy_copies (hw fun h0 => by rw [recordFault_none h0] at h; cases h) _ _
  · rw [hr, if_neg (by simp)]
    refine (closeCopy_keeps s c 0 0 0 fun u => ?_).2
    split
    · exact onlyMemory_applySignal u _ _ _ _
    · exact onlyMemory_applySignal u _ _ _ _
    · exact onlyMemory_refl u

/-- Without a record and a completion object nothing is written at the end. -/
theorem finishCopy_spad {s : State} {c : Copy} (hr : c.isRemote = false) (hrec : c.recaddr = 0) (hdone : c.doneKind = 0) (total last : Nat) :
    (s.finishCopy c total last).spad = s.spad := by
  unfold State.finishCopy State.closeCopy
  rw [recordFault_none hrec]
  dsimp only
  rw [hr, if_neg (by simp), if_pos hrec]
  simp only [hdone]
  exact (endCopy_keeps s c).2.2

/-! The start (R181, R268, R275) -/

/-- What a command reads does not depend on the unit under the cursor. -/
theorem readHome_cur (s : State) (x : Cur) (c : Nat) (asid : BitVec 12) (l : List Piece) : readHome { s with cur := x } c asid l = readHome s c asid l := by
  induction l with
  | nil => rfl
  | cons p l ih =>
    obtain ⟨va, n⟩ := p
    unfold readHome
    rw [ih]
    rfl

theorem commandRead_cur (s : State) (x : Cur) (c : Nat) (asid : BitVec 12) (va n : Nat) :
    ({ s with cur := x } : State).commandRead c asid va n = s.commandRead c asid va n := by
  unfold State.commandRead
  rw [readHome_cur]
  rfl

/-- What a copy that starts on an engine does once its record is read. -/
def startedCopy (s : State) (c : Copy) : State :=
  if s.copyParts c c.shapeRec = [] then
    match s.itemFault c c.shapeRec with
    | some e => s.failCopy c e c.shapeAddr
    | none =>
      (s.putCopy { c with bytes := c.total c.shapeRec }).finishCopy { c with bytes := c.total c.shapeRec } (c.total c.shapeRec) (c.total c.shapeRec)
  else if c.kind = 4 ∧ s.selfOverlap c = true then
    match s.commandRead c.core c.asid c.src c.len with
    | .ok bs => s.putCopy { c with kept := bs }
    | .error e => s.failCopy c e c.src
  else s.putCopy c

theorem startedCopy_next (s : State) (c : Copy) :
    (if s.copyParts c c.shapeRec = [] then
      match s.itemFault c c.shapeRec with
      | some e => .next (s.failCopy c e c.shapeAddr)
      | none =>
        .next ((s.putCopy { c with bytes := c.total c.shapeRec }).finishCopy { c with bytes := c.total c.shapeRec } (c.total c.shapeRec)
          (c.total c.shapeRec))
    else if c.kind = 4 ∧ s.selfOverlap c = true then
      match s.commandRead c.core c.asid c.src c.len with
      | .ok bs => .next (s.putCopy { c with kept := bs })
      | .error e => .next (s.failCopy c e c.src)
    else .next (s.putCopy c) : Res) = .next (startedCopy s c) := by
  unfold startedCopy
  by_cases hparts : s.copyParts c c.shapeRec = []
  · rw [if_pos hparts, if_pos hparts]
    cases s.itemFault c c.shapeRec <;> rfl
  · rw [if_neg hparts, if_neg hparts]
    by_cases hover : c.kind = 4 ∧ s.selfOverlap c = true
    · rw [if_pos hover, if_pos hover]
      cases s.commandRead c.core c.asid c.src c.len <;> rfl
    · rw [if_neg hover, if_neg hover]

theorem execCopyStart_ok {s : State} {c : Copy} {e : Nat} (hcore : c.core < 160) (he : e < 4) (hof : s.copyOf c.core c.seq = some c)
    (heng : c.engine = none) (hfail : c.failing = none) (hagain : c.again = false) (hruns : (s.core c.core).runs = true)
    (hpreds : c.preds.all (s.hasRetired c.inst) = true) (hdet : (s.core c.core).sys.det = true → e = c.seq.toNat % 4) :
    exec (.copyStart c.core c.seq e) s = .next (startedCopy { s with cur := { s.cur with core := c.core } } { c with engine := some e }) := by
  have hgone : (match (s.core c.core).phase with | .abandoning _ _ => decide ((s.core c.core).inst = c.inst) | _ => false) = false := by
    unfold Core.runs at hruns
    split at hruns
    · next h => rw [h]
    · next h => rw [h]
    · cases hruns
  have hdet' : ((s.core c.core).sys.det && decide (e ≠ c.seq.toNat % 4)) = false := by
    cases hd : (s.core c.core).sys.det with
    | false => rfl
    | true => rw [hdet hd]; simp
  have hreread : ({ s with cur := { s.cur with core := c.core } } : State).rereadCopy c = .ok (c, { s with cur := { s.cur with core := c.core } }) := by
    unfold State.rereadCopy
    rw [hagain]
    rfl
  show execCopyStart c.core c.seq e s = _
  unfold execCopyStart
  rw [if_neg (by omega), if_neg (by omega), hof]
  dsimp only
  rw [hreread]
  have hguard : ((match (s.core c.core).phase with | .abandoning _ _ => decide ((s.core c.core).inst = c.inst) | _ => false) || c.engine.isSome ||
      c.failing.isSome || !(c.preds.all (s.hasRetired c.inst)) || ((s.core c.core).sys.det && decide (e ≠ c.seq.toNat % 4))) = false := by
    rw [hgone, heng, hfail, hpreds, hdet']
    rfl
  refine (if_neg (fun h => absurd (hguard.symm.trans h) (by decide))).trans ?_
  exact startedCopy_next { s with cur := { s.cur with core := c.core } } { c with engine := some e }

/-- An empty copy ends at its start. -/
theorem startedCopy_empty {s : State} {c : Copy} (hparts : s.copyParts c c.shapeRec = []) (hw : s.copyWriting c = false)
    (hr : s.itemFault c c.shapeRec = none → c.isRemote = false) :
    (startedCopy s c).copies = s.copies.filter fun d => !decide (d.inst = c.inst ∧ d.seq = c.seq) := by
  unfold startedCopy
  rw [if_pos hparts]
  cases hf : s.itemFault c c.shapeRec with
  | some code => exact failCopy_copies hw code _
  | none =>
    have hfinish := finishCopy_copies (s := s.putCopy { c with bytes := c.total c.shapeRec }) (c := { c with bytes := c.total c.shapeRec })
      (hr hf) (fun _ => hw) (c.total c.shapeRec) (c.total c.shapeRec)
    exact hfinish.trans (filter_putCopy s { c with bytes := c.total c.shapeRec })

/-- A copy whose source its destination overlaps keeps what it reads first. -/
theorem startedCopy_overlap {s : State} {c : Copy} (hparts : s.copyParts c c.shapeRec ≠ []) (hover : c.kind = 4 ∧ s.selfOverlap c = true) {bs : List Byte}
    (hread : s.commandRead c.core c.asid c.src c.len = .ok bs) : startedCopy s c = s.putCopy { c with kept := bs } := by
  unfold startedCopy
  rw [if_neg hparts, if_pos hover, hread]

theorem startedCopy_plain {s : State} {c : Copy} (hparts : s.copyParts c c.shapeRec ≠ []) (hover : ¬ (c.kind = 4 ∧ s.selfOverlap c = true)) :
    startedCopy s c = s.putCopy c := by
  unfold startedCopy
  rw [if_neg hparts, if_neg hover]

section
variable {s : State} {c : Copy} {e : Nat} (ho : onlyOfNumber s c) (hcore : c.core < 160) (he : e < 4) (hof : s.copyOf c.core c.seq = some c)
  (heng : c.engine = none) (hfail : c.failing = none) (hagain : c.again = false) (hruns : (s.core c.core).runs = true)
  (hpreds : c.preds.all (s.hasRetired c.inst) = true) (hdet : (s.core c.core).sys.det = true → e = c.seq.toNat % 4)
include ho hcore he hof heng hfail hagain hruns hpreds hdet

/-- The start of a copy whose predecessors have retired. -/
theorem copyStart_goesTo : goesTo (exec (.copyStart c.core c.seq e) s) fun t =>
    if s.copyParts c c.shapeRec = [] then s.copyWriting c = false → (s.itemFault c c.shapeRec = none → c.isRemote = false) → copyEnds s c t
    else if c.kind = 4 ∧ s.selfOverlap c = true then
      ∀ bs, s.commandRead c.core c.asid c.src c.len = .ok bs →
        copyBecomes s c { c with engine := some e, kept := bs } t ∧ t.spad = s.spad ∧ t.hbm = s.hbm
    else copyBecomes s c { c with engine := some e } t ∧ t.spad = s.spad ∧ t.hbm = s.hbm := by
  refine ⟨_, execCopyStart_ok hcore he hof heng hfail hagain hruns hpreds hdet, ?_⟩
  let u : State := { s with cur := { s.cur with core := c.core } }
  have hput (c' : Copy) (hi : c'.inst = c.inst) (hs : c'.seq = c.seq) : copyBecomes s c c' (u.putCopy c') ∧ (u.putCopy c').spad = s.spad ∧
      (u.putCopy c').hbm = s.hbm := ⟨copyBecomes_putCopy ho hi hs, rfl, rfl⟩
  have hu : u.copyParts { c with engine := some e } ({ c with engine := some e } : Copy).shapeRec = s.copyParts c c.shapeRec := rfl
  split
  · next hparts =>
    intro hw hr
    have hw' : u.copyWriting { c with engine := some e } = false := hw
    have hr' : u.itemFault { c with engine := some e } ({ c with engine := some e } : Copy).shapeRec = none →
      ({ c with engine := some e } : Copy).isRemote = false := hr
    exact copyEnds_of_filter ho (startedCopy_empty (hu.trans hparts) hw' hr')
  · next hparts =>
    have hparts' : u.copyParts { c with engine := some e } ({ c with engine := some e } : Copy).shapeRec ≠ [] := hparts
    split
    · next hover =>
      intro bs hread
      have hover' : ({ c with engine := some e } : Copy).kind = 4 ∧ u.selfOverlap { c with engine := some e } = true := hover
      have hread' : u.commandRead ({ c with engine := some e } : Copy).core ({ c with engine := some e } : Copy).asid
        ({ c with engine := some e } : Copy).src ({ c with engine := some e } : Copy).len = .ok bs := (commandRead_cur s _ _ _ _ _).trans hread
      rw [startedCopy_overlap hparts' hover' hread']
      exact hput { c with engine := some e, kept := bs } rfl rfl
    · next hover =>
      have hover' : ¬ (({ c with engine := some e } : Copy).kind = 4 ∧ u.selfOverlap { c with engine := some e } = true) := hover
      rw [startedCopy_plain hparts' hover']
      exact hput { c with engine := some e } rfl rfl

end

end Sys2Proof.Machine
end

section
/-! PROOFS. How a packet of a byte copy lands in the scratchpad (R179, R183, R192). -/

namespace Sys2Proof.Machine

/-! Bytes of a mask -/

theorem testBit_ones_shift (a b j : Nat) : (ones a <<< b).testBit j = decide (b ≤ j ∧ j < b + a) := by
  rw [Nat.testBit_shiftLeft, ones, Nat.testBit_two_pow_sub_one, ← Bool.decide_and]
  exact decide_eq_decide.mpr (by omega)

/-- The mask of n bytes from byte lo. -/
def byteMask (lo n : Nat) : Nat := (List.range n).foldl (fun m i => m ||| ones 8 <<< (8 * (lo + i))) 0

theorem testBit_byteMask (lo n j : Nat) : (byteMask lo n).testBit j = decide (8 * lo ≤ j ∧ j < 8 * (lo + n)) := by
  unfold byteMask
  induction n with
  | zero =>
    rw [List.range_zero, List.foldl_nil, Nat.zero_testBit]
    exact (decide_eq_false (by omega)).symm
  | succ n ih =>
    rw [List.range_succ, List.foldl_concat, Nat.testBit_or, ih, testBit_ones_shift, ← Bool.decide_or]
    exact decide_eq_decide.mpr (by omega)

/-- A byte of the mask is full or empty. -/
theorem byte_byteMask (lo n i : Nat) : byteMask lo n >>> (8 * i) % 256 = if lo ≤ i ∧ i < lo + n then ones 8 else 0 := by
  refine Nat.eq_of_testBit_eq fun j => ?_
  rw [show 256 = 2 ^ 8 from rfl, Nat.testBit_mod_two_pow, Nat.testBit_shiftRight, testBit_byteMask]
  split
  · rw [ones, Nat.testBit_two_pow_sub_one, ← Bool.decide_and]
    exact decide_eq_decide.mpr (by omega)
  · rw [Nat.zero_testBit, ← Bool.decide_and]
    exact decide_eq_false (by omega)

theorem mem_touchedBytes_byteMask {size lo n : Nat} (h : lo + n ≤ size) (i : Nat) : i ∈ touchedBytes size (byteMask lo n) ↔ lo ≤ i ∧ i < lo + n := by
  unfold touchedBytes
  rw [List.mem_filter, List.mem_range, decide_eq_true_eq, byte_byteMask]
  constructor
  · intro ⟨_, hne⟩
    by_contra hout
    exact hne (if_neg hout)
  · intro hin
    rw [if_pos hin]
    exact ⟨by omega, by decide⟩

theorem byteMask_ne_zero {lo n : Nat} (h : 0 < n) : byteMask lo n ≠ 0 := fun h0 => by
  have hbit := testBit_byteMask lo n (8 * lo)
  rw [h0, Nat.zero_testBit] at hbit
  exact of_decide_eq_false hbit.symm (by omega)

/-- A byte of bytes that are shifted into place. -/
theorem byte_shifted (bs : List Byte) {lo i : Nat} (h : lo ≤ i) :
    BitVec.ofNat 8 ((ofBytes bs <<< (8 * lo)) >>> (8 * i) % 256) = bs.getD (i - lo) 0 := by
  have hpow : 2 ^ (8 * i) = 256 ^ (i - lo) * 2 ^ (8 * lo) := by
    rw [show 256 = 2 ^ 8 from rfl, ← pow_mul, ← pow_add]
    congr 1
    omega
  rw [getD_eq_ofBytes, Nat.shiftLeft_eq, Nat.shiftRight_eq_div_pow, hpow, Nat.mul_div_mul_right _ _ (Nat.two_pow_pos _)]
  exact BitVec.eq_of_toNat_eq (by rw [BitVec.toNat_ofNat, BitVec.toNat_ofNat, Nat.mod_mod])

/-! Chunks in a scratchpad window -/

theorem sameButCaches_learnPieces (c : Nat) (asid : BitVec 12) (l : List Piece) (s : State) : sameButCaches s (learnPieces c asid l s) := by
  fun_induction learnPieces c asid l s with
  | case1 s => exact sameButCaches_refl s
  | case2 s va n r _ t _ ih => exact sameButCaches_trans (sameButCaches_learn _ _ _ _ _ _) ih
  | case3 => exact sameButCaches_refl _
  | case4 _ _ _ _ _ ih => exact ih

/-- A byte of a chunk after the bits of a mask have been written. -/
def mergedByte (spad : List Host.Cell) (key v m i : Nat) : Byte :=
  BitVec.ofNat 8 (blend (Bank.get 0 spad (key + i)).toNat ((v >>> (8 * i)) % 256) ((m >>> (8 * i)) % 256))

theorem foldl_setSpad (l : List Nat) (key : Nat) (f : Nat → Byte) (s : State) :
    l.foldl (fun (t : State) i => { t with spad := Bank.set 0 t.spad (key + i) (f i) }) s =
      { s with spad := l.foldl (fun b i => Bank.set 0 b (key + i) (f i)) s.spad } := by
  induction l generalizing s with
  | nil => rfl
  | cons i l ih => exact ih _

theorem writeChunk_window {s : State} {c : Copy} {va key : Nat} (hw : window c.core (s.core c.core) va 64 = .ok (.spad key)) (g : Option GenRef)
    (v : Nat) {m : Nat} (hm : m ≠ 0) : s.writeChunk c g va v m =
      .ok { s with spad := (touchedBytes 64 m).foldl (fun b i => Bank.set 0 b (key + i) (mergedByte s.spad key v m i)) s.spad } := by
  unfold State.writeChunk
  rw [if_neg hm, hw]
  refine congrArg Except.ok ?_
  exact foldl_setSpad (touchedBytes 64 m) key (mergedByte s.spad key v m) s

/-- Bytes that a copy writes into a chunk in a scratchpad window. -/
theorem writeChunk_bytes {s : State} {c : Copy} {va key lo : Nat} {bs : List Byte} (hw : window c.core (s.core c.core) va 64 = .ok (.spad key))
    (g : Option GenRef) (hn : 0 < bs.length) (hfit : lo + bs.length ≤ 64) : ∃ t,
      s.writeChunk c g va (ofBytes bs <<< (8 * lo)) (byteMask lo bs.length) = .ok t ∧ t = { s with spad := t.spad } ∧
      ∀ k, t.spadByte k = if key + lo ≤ k ∧ k < key + lo + bs.length then bs.getD (k - (key + lo)) 0 else s.spadByte k := by
  refine ⟨_, writeChunk_window hw g _ (byteMask_ne_zero hn), rfl, fun k => ?_⟩
  refine (get_setMasked _ _ _ _ _).trans ?_
  by_cases hk : key + lo ≤ k ∧ k < key + lo + bs.length
  · rw [if_pos hk, if_pos ⟨by omega, (mem_touchedBytes_byteMask hfit _).mpr (by omega)⟩, mergedByte, byte_byteMask, if_pos (by omega),
      blend_ones _ (_ % 256) 8 (BitVec.isLt _) (Nat.mod_lt _ (by decide)), byte_shifted bs (by omega)]
    congr 1
    omega
  · rw [if_neg hk, if_neg fun h => hk (by have := (mem_touchedBytes_byteMask hfit _).mp h.2; omega)]
    rfl

/-- A chunk of a cpmem whose source and destination lie in scratchpad windows takes the bytes that the source holds. -/
theorem memChunk_windows {s : State} {c : Copy} {va off n ks kd : Nat} (hspan : c.memSpan va = (off, n)) (hkept : c.kept = []) (hn : 0 < n)
    (hfit : c.dst + off - va + n ≤ 64) (htop : c.src + off + n ≤ 2 ^ 57)
    (hsrc : window c.core (s.core c.core) (c.src + off) n = .ok (.spad ks)) (hdst : window c.core (s.core c.core) va 64 = .ok (.spad kd)) :
    ∃ t, s.memChunk c va = .ok t ∧ onlyMemory s t ∧
      ∀ k, t.spadByte k = if kd + (c.dst + off - va) ≤ k ∧ k < kd + (c.dst + off - va) + n then s.spadByte (ks + (k - (kd + (c.dst + off - va))))
        else s.spadByte k := by
  have hread : s.commandRead c.core c.asid (c.src + off) n = .ok (Bank.getRun 0 s.spad ks n) := by
    unfold State.commandRead
    rw [if_neg (by omega), hsrc]
  have hlen : (Bank.getRun 0 s.spad ks n).length = n := Bank.getRun_length _ _ _ _
  have hcaches := sameButCaches_learnPieces c.core c.asid (pieces n (c.src + off) n) s
  have hchunk : s.memChunk c va = (learnPieces c.core c.asid (pieces n (c.src + off) n) s).writeChunk c none va
      (ofBytes (Bank.getRun 0 s.spad ks n) <<< (8 * (c.dst + off - va))) (byteMask (c.dst + off - va) (Bank.getRun 0 s.spad ks n).length) := by
    unfold State.memChunk byteMask
    rw [hspan, hkept, hlen]
    simp only [List.isEmpty_nil, if_true, hread, Bool.not_true, Bool.false_and, Bool.not_false, List.filter_true]
  generalize learnPieces c.core c.asid (pieces n (c.src + off) n) s = u at hcaches hchunk
  have hspad : u.spad = s.spad := by rw [hcaches]
  obtain ⟨t, hwrite, hrest, hbytes⟩ := writeChunk_bytes (s := u) (lo := c.dst + off - va) (bs := Bank.getRun 0 s.spad ks n)
    (by rw [core_eq (cores_onlyMemory (onlyMemory_sameButCaches hcaches))]; exact hdst) none (by omega) (by omega)
  have hspadOnly : onlyMemory u t := by unfold onlyMemory; rw [hrest]
  refine ⟨t, hchunk.trans hwrite, onlyMemory_trans (onlyMemory_sameButCaches hcaches) hspadOnly, fun k => ?_⟩
  rw [hbytes, hlen]
  split
  · exact getD_getRun 0 s.spad ks (by omega)
  · exact congrArg (fun b => Bank.get 0 b k) hspad

end Sys2Proof.Machine
end

section
/-! PROOFS. The packets of a byte copy, remote signals and their fates (R181 to R184, R305, R346). -/

namespace Sys2Proof.Machine

/-! Packets (R181, R183) -/

theorem chunksAt_get {va n i : Nat} (hn : 0 < n) (hi : i < (va % 64 + n + 63) / 64) :
    (chunksAt va n).length = (va % 64 + n + 63) / 64 ∧ ((chunksAt va n).drop i).take 1 = [.chunk ((va / 64 + i) * 64)] := by
  have hparts : chunksAt va n = (List.range ((va % 64 + n + 63) / 64)).map fun i => CopyPart.chunk ((va / 64 + i) * 64) := if_neg (by omega)
  have hlen : (chunksAt va n).length = (va % 64 + n + 63) / 64 := by rw [hparts, List.length_map, List.length_range]
  refine ⟨hlen, ?_⟩
  rw [List.drop_eq_getElem_cons (by omega), List.take_succ_cons, List.take_zero]
  simp only [hparts, List.getElem_map, List.getElem_range]

/-- A packet of a cpmem of this package is a chunk that lands at once. -/
theorem execCopyPacketLand_mem {s t : State} {c : Copy} {e first : Nat} (hcore : c.core < 160) (he : e < 4) (hof : s.copyOf c.core c.seq = some c)
    (hkind : c.kind = 4) (hitems : s.copyItems c c.shapeRec = []) (heng : c.engine = some e) (hsig : c.signalled = false) (hfail : c.failing = none)
    (hlen : 0 < c.len) (hfirst : first < (c.dst % 64 + c.len + 63) / 64) (hfresh : c.fresh first 1 = true)
    (hleft : c.landedUnits < (c.dst % 64 + c.len + 63) / 64) (hchunk : s.memChunk c ((c.dst / 64 + first) * 64) = .ok t) :
    exec (.copyPacketLand c.core c.seq e first 1) s =
      .next (t.partsLanded c c.shapeRec ((c.dst % 64 + c.len + 63) / 64) first 1 (c.memSpan ((c.dst / 64 + first) * 64)).2) := by
  obtain ⟨hcount, hpart⟩ := chunksAt_get hlen hfirst
  have hparts : s.copyParts c c.shapeRec = chunksAt c.dst c.len := if_pos hkind
  have hgood : s.goodItems c c.shapeRec = [] := by unfold State.goodItems; rw [hitems]; rfl
  have hfault : s.itemFault c c.shapeRec = none := if_pos hkind
  have hneeds (va : Nat) : s.partNeeds c c.shapeRec (.chunk va) [] = [] := by unfold State.partNeeds; split <;> rfl
  have hbytes (u : State) (va : Nat) : u.partBytes c c.shapeRec (.chunk va) = (c.memSpan va).2 := by unfold State.partBytes; rw [hkind]; rfl
  show execCopyPacketLand c.core c.seq e first 1 s = _
  unfold execCopyPacketLand
  rw [if_neg (by omega), if_neg (by omega), hof]
  dsimp only
  rw [hparts, hpart, hcount, heng, hsig, hfail, hfresh, hfault, hgood, if_neg (by simp), if_neg (by omega), if_neg (by simp; omega)]
  simp only [List.find?_cons, List.find?_nil, List.flatMap_cons, List.flatMap_nil, List.append_nil, hneeds, List.filter_nil, List.isEmpty_nil, if_true,
    State.landChunks, hkind, hchunk, List.map_cons, List.map_nil, List.sum_cons, List.sum_nil, Nat.add_zero, hbytes]

theorem landedUnits_append (c : Copy) (first : Nat) :
    ({ c with landed := c.landed ++ [(first, first + 1)] } : Copy).landedUnits = c.landedUnits + 1 := by
  unfold Copy.landedUnits
  simp

/-- Parts that land before the last. -/
theorem partsLanded_more {s : State} {c : Copy} {first parts : Nat} (hmore : c.landedUnits + 1 < parts) (hdone : c.doneKind = 0) (t : Shape) (n : Nat) :
    s.partsLanded c t parts first 1 n = s.putCopy { c with landed := c.landed ++ [(first, first + 1)], bytes := c.bytes + n } := by
  unfold State.partsLanded
  dsimp only
  rw [landedUnits_append, if_neg (by omega), if_neg]
  intro h
  have h1 : c.doneKind = 1 := h.1
  omega

/-- The last part. -/
theorem partsLanded_last {s : State} {c : Copy} {first parts : Nat} (hlast : c.landedUnits + 1 = parts) (t : Shape) (n : Nat) :
    ∃ c' last, c' = { c with landed := c'.landed, bytes := c'.bytes } ∧ s.partsLanded c t parts first 1 n = (s.putCopy c').finishCopy c' c'.bytes last := by
  unfold State.partsLanded
  dsimp only
  rw [landedUnits_append, if_pos hlast]
  exact ⟨_, _, rfl, rfl⟩

/-- A copy without a record ends when its last part lands. -/
theorem partsLanded_ends {s : State} {c : Copy} {first parts : Nat} (hlast : c.landedUnits + 1 = parts) (hr : c.isRemote = false) (hrec : c.recaddr = 0)
    (t : Shape) (n : Nat) :
    (s.partsLanded c t parts first 1 n).copies = s.copies.filter (fun d => !decide (d.inst = c.inst ∧ d.seq = c.seq)) ∧
      (c.doneKind = 0 → (s.partsLanded c t parts first 1 n).spad = s.spad) := by
  obtain ⟨c', last, hc', hland⟩ := partsLanded_last (s := s) (first := first) hlast t n
  have hr' : c'.isRemote = false := by rw [hc']; exact hr
  have hrec' : c'.recaddr = 0 := by rw [hc']; exact hrec
  rw [hland]
  refine ⟨?_, fun hdone => ?_⟩
  · have hnum : c'.inst = c.inst ∧ c'.seq = c.seq := by rw [hc']; exact ⟨rfl, rfl⟩
    rw [finishCopy_copies hr' (fun h => absurd hrec' h), filter_putCopy, hnum.1, hnum.2]
  · exact finishCopy_spad hr' hrec' (by rw [hc']; exact hdone) _ _

/-! Signals (R184, R305) -/

/-- A signal that writes a word of a task on this package is applied, and its fate goes back. -/
theorem execSignalArrival_write {s : State} {g : Signal} {inst core key : Nat} (hcore : g.core < 160) (hnone : ∀ d ∈ s.copies, d.signalled = false)
    (hacc : s.accepts g.core = true) (htgt : s.signalTarget g.core g.task = some inst) (hof : s.coreOf inst = some core) (hwr : g.write = true)
    (hw : window core (s.core core) g.addr.toNat 8 = .ok (.spad key)) :
    exec (.signalArrival g) s = .next ((s.setSpad key 8 g.value.toNat).post 0 g.core none (.signalDone g true)) := by
  have hfind : (s.copies.find? fun c => c.signalled && decide (c.target = s.package) && decide (c.signal (c.total c.shapeRec) = g)) = none :=
    List.find?_eq_none.mpr fun d hd => by rw [hnone d hd]; simp
  have happly : s.applySignal core g.addr.toNat true g.value = s.setSpad key 8 g.value.toNat := by
    unfold State.applySignal
    rw [if_pos rfl, hw]
    rfl
  show execSignalArrival g s = _
  unfold execSignalArrival remoteSignal State.deliverSignal State.signalInst
  rw [hfind]
  dsimp only
  rw [if_neg (by omega), hacc, if_neg (by simp), htgt]
  dsimp only
  rw [hof, hwr]
  dsimp only
  rw [happly]

/-! Slots that return (R346) -/

theorem copies_sendOut (s : State) (pkg : BitVec 48) (eng : Nat) (write : Bool) (cmd : Option (BitVec 32)) (f : Nat → Out) :
    (s.sendOut pkg eng write cmd f).copies = s.copies := rfl

theorem copies_pumpLines (e : Eng) (n : Nat) (op : LineOp) (s : State) : (State.pumpLines e n op s).2.copies = s.copies := by
  induction n generalizing op s with
  | zero => rfl
  | succ n ih =>
    unfold State.pumpLines
    split
    · rfl
    · split
      · exact (ih _ _).trans (copies_sendOut s _ _ _ _ _)
      · rfl

theorem copies_lineNext (s : State) (e : Eng) (op : LineOp) : (s.lineNext e op).copies = s.copies := by
  have hpump := copies_pumpLines e op.todo.length op s
  unfold State.lineNext
  dsimp only
  split
  · split
    · exact hpump
    · exact hpump
  · exact hpump

theorem copies_resumeLine (c : Nat) (s : State) (e : Eng) : (State.resumeLine c s e).copies = s.copies := by
  unfold State.resumeLine
  split
  · split
    · exact copies_lineNext _ e _
    · rfl
  · rfl

theorem copies_freeSlots (s : State) (c : Nat) (p : RemoteOut → Bool) : (s.freeSlots c p).copies = s.copies :=
  (copies_resumeLine c _ .st).trans (copies_resumeLine c _ .ld)

theorem signalFate_false_copies (s : State) (c : Copy) :
    (s.signalFate c false).copies = s.copies.filter fun d => !decide (d.inst = c.inst ∧ d.seq = c.seq) :=
  (copyEvent_keeps _ c .targetAbsent 0).2.trans (closeCopy_keeps s c 3 0 0 (act := id) fun u => onlyMemory_refl u).2

theorem execSignalNack_ok {s : State} {c : Copy} (hof : s.copyOf s.cur.core (BitVec.ofNat 32 s.cur.unit) = some c) (hsig : c.signalled = true) :
    exec .signalNack s = .next ((s.freeSlots s.cur.core fun r => decide (r.cmd = some c.seq)).signalFate c false) := by
  show execSignalNack s = _
  unfold execSignalNack
  rw [hof]
  exact if_pos hsig

/-- Settles O46: starts and landings one after another, each by what it leaves of the copies. -/
theorem copiesProceed : Obligations.CopiesProceed := by
  unfold Obligations.CopiesProceed
  intro s c hc huniq hnumber hcore hfail
  have ho : onlyOfNumber s c := ⟨hc, hnumber⟩
  have hof := copyOf_eq hc huniq
  refine ⟨fun e he heng hagain hruns hpreds hdet => copyStart_goesTo ho hcore he hof heng hfail hagain hruns hpreds hdet,
    fun e first ks kd => ?_, ?_, fun hcur hunit hsig => ?_⟩
  · intro chunk lo n parts hkind hitems he heng hsig hr hkept hlen hfirst hfresh htop hks hkd writes
    have hspan : c.memSpan chunk = (lo - c.dst, n) := rfl
    have hn : 0 < n ∧ c.dst + (lo - c.dst) - chunk = lo - chunk ∧ lo - chunk + n ≤ 64 := by
      have hlo : lo = max c.dst chunk := rfl
      have hn : n = min (c.dst + c.len) (chunk + 64) - lo := rfl
      have hchunk : chunk = (c.dst / 64 + first) * 64 := rfl
      have hparts : parts = (c.dst % 64 + c.len + 63) / 64 := rfl
      omega
    obtain ⟨t, hmem, honly, hbytes⟩ := memChunk_windows hspan hkept hn.1 (by rw [hn.2.1]; exact hn.2.2) htop hks hkd
    rw [hn.2.1] at hbytes
    have hcopies := copies_onlyMemory honly
    have hoT : onlyOfNumber t c := by unfold onlyOfNumber; rw [hcopies]; exact ho
    have hland (hleft : c.landedUnits < parts) := execCopyPacketLand_mem hcore he hof hkind hitems heng hsig hfail hlen hfirst hfresh hleft hmem
    refine ⟨fun hmore hdone => ⟨_, hland (by omega), ?_⟩, fun hlast hrec => ⟨_, hland (by omega), ?_⟩⟩
    · rw [partsLanded_more hmore hdone]
      have hput := copyBecomes_putCopy hoT (c' := { c with landed := c.landed ++ [(first, first + 1)], bytes := c.bytes + (c.memSpan chunk).2 }) rfl rfl
      unfold copyBecomes at hput
      rw [hcopies] at hput
      exact ⟨hput, hbytes⟩
    · obtain ⟨lcopies, lspad⟩ := partsLanded_ends (s := t) (first := first) hlast hr hrec c.shapeRec (c.memSpan chunk).2
      rw [hcopies] at lcopies
      exact ⟨copyEnds_of_filter ho lcopies, fun hdone k => (congrArg (fun b => Bank.get 0 b k) (lspad hdone)).trans (hbytes k)⟩
  · intro g inst core key hg hnone hacc htgt hcoreOf hwr hw
    refine ⟨_, execSignalArrival_write hg hnone hacc htgt hcoreOf hwr hw, sends_post _ _ _ _, ?_, fun k hk => spadByte_setSpad_outside s _ hk, rfl⟩
    exact (spadNat_setSpad_same s key 8 _).trans (Nat.mod_eq_of_lt g.value.isLt)
  · have hof' : s.copyOf s.cur.core (BitVec.ofNat 32 s.cur.unit) = some c := by rw [hcur, hunit]; exact hof
    refine ⟨_, execSignalNack_ok hof' hsig, copyEnds_of_filter ho ?_⟩
    rw [signalFate_false_copies, copies_freeSlots]

end Sys2Proof.Machine
end

section
/-! PROOFS. Stores leave chunk counters and counted drains that are due alone (R143, R145, R149, R355). -/

namespace Sys2Proof.Machine

/-- The chunk counters and the counted drains that are due at them are the same. -/
def keepsChunks (s t : State) : Prop := t.chunks = s.chunks ∧ t.chunkDue = s.chunkDue

theorem keepsChunks_refl (s : State) : keepsChunks s s := ⟨rfl, rfl⟩

theorem keepsChunks_trans {s t u : State} (h : keepsChunks s t) (g : keepsChunks t u) : keepsChunks s u := ⟨g.1.trans h.1, g.2.trans h.2⟩

theorem keepsChunks_onlyMemory {s t : State} (h : onlyMemory s t) : keepsChunks s t := by
  rw [h]
  exact ⟨rfl, rfl⟩

theorem keepsChunks_setCore {s t : State} (h : keepsChunks s t) (c : Nat) (k : Core) : keepsChunks s (t.setCore c k) := h

/-! Write-combining buffers (R149) -/

theorem onlyMemory_landCombine (s : State) (b : Combine) : onlyMemory s (landCombine s b) := by
  have hadmit := onlyMemory_admitGen s (b.phys / 128) b.gen
  unfold landCombine
  dsimp only
  split
  · exact onlyMemory_trans hadmit (onlyMemory_homeTo _ _ _ _)
  · exact hadmit

theorem onlyMemory_landCombines (l : List Combine) (s : State) : onlyMemory s (l.foldl landCombine s) :=
  List.foldlRecOn (motive := fun t : State => onlyMemory s t) _ _ (onlyMemory_refl s) fun t h b _ => onlyMemory_trans h (onlyMemory_landCombine t b)

theorem keepsChunks_drainWc (s : State) (c : Nat) (p : Combine → Bool) : keepsChunks s (drainWc s c p) :=
  keepsChunks_setCore (keepsChunks_onlyMemory (onlyMemory_landCombines _ s)) c _

theorem keepsChunks_drainOldestWc (s : State) (c : Nat) : keepsChunks s (drainOldestWc s c) := by
  unfold drainOldestWc
  split
  · split
    · exact keepsChunks_setCore (keepsChunks_onlyMemory (onlyMemory_landCombine s _)) c _
    · exact keepsChunks_refl s
  · exact keepsChunks_refl s

theorem keepsChunks_combineStore (s : State) (c : Nat) (asid : BitVec 12) (x : Trans) (bs : List Byte) (gen : Option GenRef) :
    keepsChunks s (combineStore s c asid x bs gen) := by
  have hours := keepsChunks_drainWc s c fun b => decide (b.asid = asid) && decide (b.line = x.va / 128) && decide (b.gen ≠ gen)
  unfold combineStore
  refine keepsChunks_trans ?_ (keepsChunks_drainWc _ c _)
  split
  · exact hours
  · exact keepsChunks_trans hours (keepsChunks_drainOldestWc _ c)

/-! Write buffers of the dies (R139) -/

theorem onlyMemory_drainLine (d phys n : Nat) (s : State) : onlyMemory s (drainLine d phys n s) := by
  induction n generalizing s with
  | zero => exact onlyMemory_refl s
  | succ n ih =>
    unfold drainLine
    split
    · exact onlyMemory_trans (onlyMemory_drainAt s d _) (ih _)
    · exact onlyMemory_refl s

theorem onlyMemory_makeRoom (s : State) (d phys : Nat) : onlyMemory s (makeRoom s d phys) := by
  unfold makeRoom
  dsimp only
  split
  · exact onlyMemory_refl s
  · split
    · exact onlyMemory_drainLine _ _ _ s
    · exact onlyMemory_refl s

theorem keepsChunks_bufStore (s : State) (d stream : Nat) (asid : BitVec 12) (t : Trans) (bs : List Byte) (gen : Option GenRef) (nt : Bool) :
    keepsChunks s (bufStore s d stream asid t bs gen nt) :=
  keepsChunks_trans (keepsChunks_onlyMemory (onlyMemory_makeRoom s d _)) (keepsChunks_onlyMemory (onlyMemory_setDie _ d _))

theorem keepsChunks_putSpot (s : State) (c stream : Nat) (asid : BitVec 12) (p : Spot) (bs : List Byte) (gen : Option GenRef) (nt : Bool) :
    keepsChunks s (putSpot s c stream asid p bs gen nt) := by
  cases p with
  | spad key => exact keepsChunks_refl s
  | mem x =>
    unfold putSpot
    dsimp only
    split
    · exact keepsChunks_combineStore s c asid x bs gen
    · exact keepsChunks_trans (keepsChunks_onlyMemory (onlyMemory_setDie s _ _)) (keepsChunks_bufStore _ _ _ _ _ _ _ _)

theorem keepsChunks_learnSpot (s : State) (c : Nat) (asid : BitVec 12) (va : Nat) (nt : Bool) (p : Spot) : keepsChunks s (learnSpot s c asid va nt p) :=
  keepsChunks_onlyMemory (onlyMemory_sameButCaches (sameButCaches_learnSpot s c asid va nt p))

/-! Stores, whole or torn (R145) -/

theorem keepsChunks_writePieces (c stream : Nat) (asid : BitVec 12) (gen : Option GenRef) (nt : Bool) (l : List Piece) (bs : List Byte) (s : State) :
    keepsChunks s (writePieces c stream asid gen nt l bs s) := by
  induction l generalizing s bs with
  | nil => exact keepsChunks_refl s
  | cons p r ih =>
    obtain ⟨va, n⟩ := p
    unfold writePieces
    split
    · exact keepsChunks_refl s
    · exact keepsChunks_trans (keepsChunks_trans (keepsChunks_learnSpot s c asid va nt _) (keepsChunks_putSpot _ c stream asid _ _ gen nt)) (ih _ _)

theorem keepsChunks_writeMem (s : State) (c stream va : Nat) (bs : List Byte) (nt : Bool) : keepsChunks s (writeMem s c stream va bs nt) := by
  unfold writeMem
  split
  · exact keepsChunks_refl s
  · exact keepsChunks_writePieces _ _ _ _ _ _ _ s
  · exact keepsChunks_refl s

theorem keepsChunks_store (s : State) (e : Eng) (va : Nat) (bs : List Byte) (nt : Bool) : keepsChunks s (s.store e va bs nt) := by
  unfold State.store
  dsimp only
  split
  · split
    · exact keepsChunks_refl s
    · exact keepsChunks_writeMem s _ _ _ _ _
  · exact keepsChunks_writeMem s _ _ _ _ _

theorem keepsChunks_storeGen (s : State) (e : Eng) (gen : Option GenRef) (nt : Bool) (va : Nat) (bs : List Byte) :
    keepsChunks s (s.storeGen e gen nt va bs) := by
  unfold State.storeGen
  split
  · exact keepsChunks_writePieces _ _ _ _ _ _ _ s
  · exact keepsChunks_store s e va bs nt

/-- What is stored at once of a store leaves the chunk counters as they are. -/
theorem keepsChunks_storeGens (s : State) (e : Eng) (gen : Option GenRef) (nt : Bool) (l : List (Nat × List Byte)) :
    keepsChunks s (l.foldl (fun s x => s.storeGen e gen nt x.1 x.2) s) :=
  List.foldlRecOn (motive := fun t : State => keepsChunks s t) _ _ (keepsChunks_refl s) fun t h x _ =>
    keepsChunks_trans h (keepsChunks_storeGen t e gen nt x.1 x.2)

/-! Counters (R176, R355) -/

theorem chunkCtr_keepsChunks {s t : State} (h : keepsChunks s t) (inst n : Nat) : t.chunkCtr inst n = s.chunkCtr inst n := by
  unfold State.chunkCtr
  rw [h.1]

theorem chunkCtr_setChunkCtr (s : State) (inst n : Nat) (x : ChunkCtr) : (s.setChunkCtr inst n x).chunkCtr inst n = x := Bank.get_set_same _ _ _ _

theorem chunkCtr_setChunkCtr_other (s : State) {inst n j m : Nat} (x : ChunkCtr) (h : j * 32 + m ≠ inst * 32 + n) :
    (s.setChunkCtr inst n x).chunkCtr j m = s.chunkCtr j m := Bank.get_set_other _ _ _ h

/-- The write-combining buffers of some cores, drained one core after another, are empty. -/
theorem drainCombines_spec (l : List Nat) (s : State) : keepsChunks s (l.foldl drainCombine s) ∧ (∀ c ∈ l, ((l.foldl drainCombine s).core c).wc = []) ∧
    ∀ c, (s.core c).wc = [] → ((l.foldl drainCombine s).core c).wc = [] := by
  induction l generalizing s with
  | nil => exact ⟨keepsChunks_refl s, nofun, fun _ h => h⟩
  | cons d l ih =>
    obtain ⟨hkeep, hmem, hempty⟩ := ih (drainCombine s d)
    have hd : ((drainCombine s d).core d).wc = [] := by
      unfold drainCombine drainWc
      rw [core_setCore, if_pos rfl]
      exact List.filter_eq_nil_iff.mpr fun _ _ => Bool.false_ne_true
    have hother (c : Nat) (hc : (s.core c).wc = []) : ((drainCombine s d).core c).wc = [] := by
      by_cases hcd : c = d
      · rw [hcd]
        exact hd
      · have hcores : (drainCombine s d).core c = s.core c := by
          unfold drainCombine drainWc
          rw [core_setCore, if_neg hcd, core_eq (cores_landCombines _ s)]
        rw [hcores]
        exact hc
    exact ⟨keepsChunks_trans (keepsChunks_drainWc s d _) hkeep, List.forall_mem_cons.mpr ⟨hempty d hd, hmem⟩, fun c hc => hempty c (hother c hc)⟩

/-- The counter of a counted drain saturates. -/
theorem chunkCount_saturates (x : BitVec 16) : (if x = 0xFFFF then x else x + 1).toNat = Nat.min 65535 (x.toNat + 1) := by
  have hx := x.isLt
  have hmin : Nat.min 65535 (x.toNat + 1) = min 65535 (x.toNat + 1) := rfl
  rw [hmin]
  split
  · next h => rw [h]; rfl
  · next h =>
    have hne : x.toNat ≠ 65535 := fun h' => h (BitVec.eq_of_toNat_eq h')
    rw [BitVec.toNat_add]
    change (x.toNat + 1) % 65536 = _
    omega

end Sys2Proof.Machine
end

section
/-! PROOFS. Drains of accumulators and the chunk counters (R55, R145, R173 to R176, R355, R356). -/

namespace Sys2Proof.Machine

/-! Stores with events and a count (R55, R145, R355) -/

/-- Events reach SYS.FLAGS of an interlocked task and leave a record of the contribution. -/
theorem here_orFlags {s : State} (ht : s.here.sys.timed = false) (e : Eng) (f : Flags) : ∃ rs,
    (s.orFlags e f).here = { s.here with sys := { s.here.sys with flags := s.here.sys.flags ||| f }, races := rs } := by
  unfold State.orFlags
  rw [here_upd, ht, if_neg Bool.false_ne_true]
  split
  · next hf =>
    rw [hf, show s.here.sys.flags ||| 0 = s.here.sys.flags from BitVec.or_zero]
    exact ⟨_, rfl⟩
  · exact ⟨_, rfl⟩

/-- What becomes due where a word with a count ends. -/
def dueCount (s : State) (count : Option Nat) : List (Nat × Nat) := count.toList.map fun n => (s.here.inst, n)

/-- A store that leaves nothing to wait for ends its word, with its events and its count. -/
theorem storedAll_counts {s u : State} (ht : s.here.sys.timed = false) (h : onlyCombines s u) (events : Flags) (count : Option Nat) :
    goesTo (u.storedAll .st [] events count) fun t => movesTo s t .st ((s.en .st).pc + 8) ∧ t.here.regs = s.here.regs ∧
      t.here.sys = { s.here.sys with flags := s.here.sys.flags ||| events } ∧ t.chunkDue = u.chunkDue ++ dueCount s count ∧ t.spad = u.spad := by
  obtain ⟨wc, hwc⟩ := here_onlyCombines h
  obtain ⟨rs, hrs⟩ := here_orFlags (timed_onlyCombines h ht) .st events
  have hstored : ∃ v : State, u.storedAll .st [] events count = v.done .st ∧ v.here = (u.orFlags .st events).here ∧ v.spad = u.spad ∧
      v.chunkDue = u.chunkDue ++ dueCount s count := by
    cases count with
    | none => exact ⟨_, rfl, rfl, rfl, (List.append_nil _).symm⟩
    | some n =>
      refine ⟨{ u.orFlags .st events with chunkDue := u.chunkDue ++ [((u.orFlags .st events).here.inst, n)] }, rfl, rfl, rfl, ?_⟩
      rw [hrs, hwc]
      rfl
  obtain ⟨v, hv, hhere, hspad, hdue⟩ := hstored
  rw [hrs, hwc] at hhere
  obtain ⟨t, htv, hmove, hrest, hstill, hregs⟩ := ends_moves (s := s) (u := v) (e := .st) (by rw [hhere])
  rw [hv]
  exact ⟨t, htv, hmove, hregs.trans (by rw [hhere]), (congrArg Core.sys hstill :).trans (by rw [hhere]; rfl),
    (congrArg (fun v : State => v.chunkDue) hrest :).trans hdue, (rest_spad hrest).trans hspad⟩

/-- A store with events and a count has performed its bytes, or waits with some of them (R145). -/
theorem storeAll_counts_some {s : State} (h : inOrder s .st) (nt : Bool) (l : List (Nat × List Byte)) (events : Flags) (count : Option Nat) :
    goesTo (s.storeAll .st nt l events count) (Spec.writesSome s) := by
  have honly := onlyCombines_tearStores h.1 .st nt l
  unfold State.storeAll
  dsimp only
  generalize s.tearStores .st none nt l = r at honly ⊢
  obtain ⟨rest, u⟩ := r
  cases rest with
  | nil =>
    refine goesTo_imp (storedAll_counts h.1 honly events count) fun t ⟨hmove, hregs, _⟩ => ?_
    obtain ⟨-, hpc, hwait, -⟩ := hmove
    exact ⟨hregs, .inl ⟨hwait, hpc⟩⟩
  | cons x rest =>
    obtain ⟨wc, hwc⟩ := here_onlyCombines honly
    obtain ⟨t, ht, -, hregs, hsys, hpc, hwait⟩ := await_stays (s := s) (e := .st) (by rw [hwc]) (.tornStore (x :: rest) events count)
    exact ⟨t, ht, hregs.trans (by rw [hwc]), .inr ⟨hpc, hsys.trans (by rw [hwc]), _, _, _, hwait, List.cons_ne_nil _ _⟩⟩

/-- Where the device does not tear it, its word ends with its events and its count. -/
theorem storeAll_counts_whole {s : State} (h : inOrder s .st) (hb : ¬ s.holdsBack 1 = true) (nt : Bool) (l : List (Nat × List Byte)) (events : Flags)
    (count : Option Nat) : goesTo (s.storeAll .st nt l events count) fun t => movesTo s t .st ((s.en .st).pc + 8) ∧ t.here.regs = s.here.regs ∧
      t.here.sys = { s.here.sys with flags := s.here.sys.flags ||| events } ∧ t.chunkDue = s.chunkDue ++ dueCount s count ∧
      t.spad = (l.foldl (fun s x => s.storeGen .st none nt x.1 x.2) s).spad := by
  have hwhole : s.tearStores .st none nt l = ([], l.foldl (fun s x => s.storeGen .st none nt x.1 x.2) s) := if_neg hb
  have hkeep := keepsChunks_storeGens s .st none nt l
  unfold State.storeAll
  rw [hwhole]
  refine goesTo_imp (storedAll_counts h.1 (onlyCombines_storeGens h.1 .st none nt l) events count) fun t ⟨hmove, hregs, hsys, hdue, hspad⟩ =>
    ⟨hmove, hregs, hsys, ?_, hspad⟩
  rw [hdue, hkeep.2]

/-- Runs of bytes at keys: bytes outside them stay, and a run that no later one touches holds its bytes. -/
theorem setRuns_range (m : List Host.Cell) (n : Nat) (key : Nat → Nat) (row : Nat → List Byte) :
    let t := setRuns m ((List.range n).map fun i => (key i, row i))
    (∀ b, (∀ i, i < n → b < key i ∨ key i + (row i).length ≤ b) → Bank.get 0 t b = Bank.get 0 m b) ∧
      ∀ i, i < n → (∀ j, i < j → j < n → key i + (row i).length ≤ key j ∨ key j + (row j).length ≤ key i) →
        Bank.getRun 0 t (key i) (row i).length = row i := by
  have hbyte (b : Nat) : Bank.get 0 (setRuns m ((List.range n).map fun i => (key i, row i))) b = (List.range n).foldl
      (fun x i => if key i ≤ b ∧ b < key i + (row i).length then (row i).getD (b - key i) 0 else x) (Bank.get 0 m b) := by
    rw [get_setRuns, List.foldl_map]
  refine ⟨fun b hb => ?_, fun i hi hlater => ?_⟩
  · rw [hbyte]
    exact foldl_ite_none _ _ (fun i hi => by have := hb i (List.mem_range.mp hi); omega) _
  · refine List.ext_getElem (Bank.getRun_length _ _ _ _) fun j hj hrow => ?_
    have hget := getD_getRun 0 (setRuns m ((List.range n).map fun i => (key i, row i))) (key i) (i := j) (n := (row i).length) hrow
    rw [hbyte, foldl_range_last _ _ hi (by omega) fun k hk hlt => by have := hlater k hk hlt; omega, Nat.add_sub_cancel_left] at hget
    rw [← List.getD_eq_getElem _ 0 hj, ← List.getD_eq_getElem _ 0 hrow, hget]

/-! The drain (R173 to R176) -/

/-- What a drain stores of row i of an accumulator, and its events. -/
def drainedRow (ty : Fmt) (rm : RMode) (k : BitVec 4) (bits : Int → Int → Nat) (x : Word) (tile : Tile) (i : Nat) : List Byte × Flags :=
  if k = 0 then drainRow ty rm (tileRow tile i) ((List.range 128).map fun (c : Nat) => bits (slice x 63 32 + i : Nat) (slice x 31 0 + c : Nat))
  else (topRow k.toNat (slice x 31 0) (tileRow tile i), 0)

theorem execVsdrain_ok {s : State} (h : inOrder s .st) {sa sb sc : SReg} {ty : Fmt} {rm : RMode} {g : GenNo} {bits : Int → Int → Nat}
    (hbits : s.roundBits .st rm g.toNat = .ok bits) {acc : AccNo} {k : BitVec 4} {cc : Bool} {row : Nat → List Byte × Flags}
    (hrow : row = drainedRow ty rm k bits (s.sReg sc) (Bank.get 0 s.here.regs.acc acc.toNat))
    (hcc : cc = true → ∀ i, i < 32 → touchesScratch (rowAddr (s.sReg sa) (s.sReg sb) i) (drainBytes ty k.toNat) = false)
    (hc : s.accessCheck .st .write (if k = 0 then (if ty.isMx then 1 else ty.bits / 8) else 4)
      ((List.range 32).map fun i => (rowAddr (s.sReg sa) (s.sReg sb) i, (row i).1.length)) = none) (nt : Bool) (ccid : BitVec 5) :
    exec (.vsdrain acc sa sb sc ty rm g k cc nt ccid) s = s.storeAll .st nt
      ((List.range 32).map fun i => (rowAddr (s.sReg sa) (s.sReg sb) i, (row i).1)) (Flags.all ((List.range 32).map fun i => (row i).2))
      (if cc then some ccid.toNat else none) := by
  have hads : tileAddrs (s.sReg sa) (s.sReg sb) 32 = (List.range 32).map (rowAddr (s.sReg sa) (s.sReg sb)) := rfl
  have hscratch : (cc && ((List.range 32).map (rowAddr (s.sReg sa) (s.sReg sb))).any fun a => touchesScratch a (drainBytes ty k.toNat)) = false := by
    cases hcount : cc with
    | false => rfl
    | true =>
      rw [Bool.true_and, List.any_map, List.any_eq_false]
      exact fun i hi => by simpa using hcc hcount i (List.mem_range.mp hi)
  have hrows : ((List.range 32).map fun i => if k = 0 then drainRow ty rm (tileRow (Bank.get 0 s.here.regs.acc acc.toNat) i)
      ((List.range 128).map fun (c : Nat) => bits (slice (s.sReg sc) 63 32 + i : Nat) (slice (s.sReg sc) 31 0 + c : Nat))
      else (topRow k.toNat (slice (s.sReg sc) 31 0) (tileRow (Bank.get 0 s.here.regs.acc acc.toNat) i), 0)) = (List.range 32).map row := by
    rw [hrow]
    rfl
  have hpair {α β γ : Type} (f : α → β → γ) (a : Nat → α) (b : Nat → β) :
      List.zipWith f ((List.range 32).map a) ((List.range 32).map b) = (List.range 32).map fun i => f (a i) (b i) := by
    rw [List.zipWith_map, List.zipWith_self]
  show execVsdrain acc sa sb sc ty rm g k cc nt ccid s = _
  unfold execVsdrain orTrap
  rw [rdS_inOrder h, rdS_inOrder h, rdS_inOrder h, rdAcc_inOrder h]
  dsimp only
  rw [hads, hscratch, if_neg Bool.false_ne_true, hbits]
  dsimp only
  rw [hrows, hpair, hpair, afterChecks_ok hc, List.map_map]
  rfl

/-! Chunk counters (R355, R356) -/

theorem execChunkCountIncrement_ok {s : State} {task : BitVec 32} {n inst : Nat}
    (hdue : s.chunkDue.find? (fun x => decide (x.2 = n) && decide (s.taskOf x.1 = some task)) = some (inst, n)) :
    exec (.chunkCountIncrement task n) s =
      let u := (s.taskCores inst).foldl drainCombine s
      .next (({ u with chunkDue := u.chunkDue.erase (inst, n) } : State).setChunkCtr inst n
        { u.chunkCtr inst n with count := if (u.chunkCtr inst n).count = 0xFFFF then (u.chunkCtr inst n).count else (u.chunkCtr inst n).count + 1 }) := by
  show execChunkCountIncrement task n s = _
  unfold execChunkCountIncrement
  rw [hdue]

theorem execClchunk_ok {s : State} (h : inOrder s .sq) {sa sb : SReg} (hlow : 1 ≤ (s.sReg sa).toNat) (hhigh : (s.sReg sa).toNat < 65536)
    (hno : (s.sReg sb).toNat < 32) (harm : (s.chunkCtr s.here.inst (s.sReg sb).toNat).armed = false) :
    exec (.clchunk sa sb) s = (s.setChunkCtr s.here.inst (s.sReg sb).toNat ⟨0, BitVec.ofNat 16 (s.sReg sa).toNat, false⟩).done .sq := by
  show execClchunk sa sb s = _
  unfold execClchunk
  rw [rdS_inOrder h, rdS_inOrder h]
  dsimp only
  rw [harm]
  exact if_neg (by simp; omega)

theorem execClstatCc_ok {s : State} (h : inOrder s .sq) {sb : SReg} (hno : (s.sReg sb).toNat < 32) (sd : SReg) :
    let c := s.chunkCtr s.here.inst (s.sReg sb).toNat
    exec (.clstatCc sd sb) s =
      (s.wrS .sq sd (BitVec.ofNat 64 (c.count.toNat + c.expect.toNat * 2 ^ 16 + (if c.armed then 2 ^ 32 else 0)))).done .sq := by
  show execClstatCc sd sb s = _
  unfold execClstatCc
  rw [rdS_inOrder h]
  exact if_neg (by omega)

/-- What clstat reads of a group slot. -/
def groupWord (s : State) (slot : Nat) : Nat :=
  match s.groups.find? fun g => decide (g.inst = s.here.inst) && decide (g.slot = slot) with
  | some g => g.call.toNat + g.members.length % 2 ^ 16 * 2 ^ 32 + 2 ^ 48
  | none => 0

theorem execClstatGrp_ok {s : State} (h : inOrder s .sq) {sb : SReg} (hno : (s.sReg sb).toNat < 16) (sd : SReg) :
    exec (.clstatGrp sd sb) s = (s.wrS .sq sd (BitVec.ofNat 64 (groupWord s (s.sReg sb).toNat))).done .sq := by
  show execClstatGrp sd sb s = _
  unfold execClstatGrp
  rw [rdS_inOrder h]
  exact if_neg (by omega)

/-- Settles O39: a drain is one store of 32 runs with its events and its count; the counter words are their one effect each. -/
theorem drainsAndChunkCounters : Obligations.DrainsAndChunkCounters := by
  unfold Obligations.DrainsAndChunkCounters
  intro s
  refine ⟨fun acc sa sb sc ty rm g k cc nt ccid bits h hbits => ?_, fun task n inst hdue => ?_, fun sd sa sb h => ⟨fun hlow hhigh hno harm => ?_,
    fun hno => ?_, fun hno => ?_⟩⟩
  · intro tile row n at_ hcc hc
    rw [execVsdrain_ok h hbits (row := row) rfl hcc hc]
    by_cases hb : s.holdsBack 1 = true
    · exact goesTo_imp (storeAll_counts_some h nt _ _ _) fun t ht => by rwa [if_pos hb]
    · refine goesTo_imp (storeAll_counts_whole h hb nt _ _ _) fun t ⟨hmove, hregs, hsys, hdue, hspad⟩ => ?_
      rw [if_neg hb]
      refine ⟨hmove, hregs, hsys, hdue.trans (by cases cc <;> rfl), fun key hw => ?_⟩
      rw [storeGens_windows (fun i => (rowAddr (s.sReg sa) (s.sReg sb) i, (row i).1)) key .st nt (List.range 32) h.1
        fun i hi => hw i (List.mem_range.mp hi)] at hspad
      obtain ⟨hframe, hrows⟩ := setRuns_range s.spad 32 key fun i => (row i).1
      unfold State.spadByte
      rw [hspad]
      exact ⟨hframe, fun hapart i hi => hrows i hi (hapart i)⟩
  · obtain ⟨hkeep, hempty, -⟩ := drainCombines_spec (s.taskCores inst) s
    rw [execChunkCountIncrement_ok hdue]
    dsimp only
    generalize (s.taskCores inst).foldl drainCombine s = u at hkeep hempty ⊢
    refine ⟨_, rfl, congrArg (fun l => l.erase (inst, n)) hkeep.2, ?_, fun j m hne => ?_, hempty, ?_⟩
    · rw [chunkCtr_setChunkCtr, chunkCtr_keepsChunks hkeep]
      exact chunkCount_saturates _
    · rw [chunkCtr_setChunkCtr_other _ _ hne]
      exact chunkCtr_keepsChunks hkeep j m
    · obtain ⟨hchunks, hdues⟩ := hkeep
      unfold State.setChunkCtr
      rw [← hchunks, ← hdues]
  · rw [execClchunk_ok h hlow hhigh hno harm]
    refine goesTo_imp (ends_moves (s := s) (u := s.setChunkCtr _ _ _) rfl) fun t ⟨hmove, hrest, hstill, hregs⟩ => ⟨hmove, ⟨hstill, hregs⟩, ?_⟩
    exact (congrArg (fun v : State => v.chunkCtr s.here.inst (s.sReg sb).toNat) hrest :).trans (chunkCtr_setChunkCtr s _ _ _)
  · rw [execClstatCc_ok h hno]
    exact scalar_spec h sd _
  · rw [execClstatGrp_ok h hno]
    exact scalar_spec h sd _

end Sys2Proof.Machine
end
